-- ==== Sys2Proof/Word.lean ====
section
/-!
DEFINITION. The word types of the part (R9, R31, R88) and nothing else.
-/

namespace Sys2Proof

/-- A byte of memory or of the scratchpad. -/
abbrev Byte := BitVec 8

/-- A code word, or the value of a vector or uniform register (R88). -/
abbrev Word := BitVec 32

/-- A 64-bit address, key, counter or register pair. -/
abbrev DWord := BitVec 64

end Sys2Proof
end

