-- ==== Sys2Proof/Syntax.lean ====
section
/-!
DEFINITION. The syntax: one constructor of `Instr` per row of spec/opcode_table.json. The first part holds the
instructions a group issues (05 Tables 5.8 and 5.9), the second the steps of the device that no instruction word names
(95_what_each_step_holds.md); their arguments say which queue, link, core or operation the step is about.
-/

namespace Sys2Proof

/-- A vector register field, 0-127 (R89). -/
abbrev VField := BitVec 7
/-- A uniform register field, 0-127 (R88). -/
abbrev SField := BitVec 7
/-- A predicate, p0-p15 (R88). -/
abbrev PField := BitVec 4
/-- A tile, t0-t15 (R88). -/
abbrev TField := BitVec 4
/-- An accumulator, a0-a7 (R88). -/
abbrev AField := BitVec 3
/-- A rejoin barrier, k0-k7 (R47). -/
abbrev KField := BitVec 3

/-- A B operand that is a vector or uniform register, or the literal of the following word (R128). -/
inductive BOp where
  | reg (r : BitVec 7)
  | lit (w : Word)
  deriving DecidableEq, Repr

/-- A B operand that is a predicate, or the literal of the following word (R128). -/
inductive POp where
  | reg (p : PField)
  | lit (w : Word)
  deriving DecidableEq, Repr

/-- Forms of IADD and ISUB (Table 20.13). -/
inductive AddForm where
  | w32 | w64 | ssat | usat
  deriving DecidableEq, Repr

/-- Forms of IMUL (R376). -/
inductive MulForm where
  | lo | hi | hiu | w64
  deriving DecidableEq, Repr

/-- Integer conditions of ICMP and SCMP (R373). -/
inductive ICond where
  | eq | ne | lt | le | gt | ge | ltu | leu | gtu | geu
  deriving DecidableEq, Repr

/-- Floating-point conditions of FCMP (R359). -/
inductive FCond where
  | eq | ne | lt | le | gt | ge | un | ord
  deriving DecidableEq, Repr

/-- Rounding modes (Table 6.3). -/
inductive RMode where
  | rne | rtz | rup | rdn | rna
  deriving DecidableEq, Repr

/-- BITIL and BITDL components (Table 19.7). -/
inductive DealForm where
  | c3of0 | c3of1 | c3of2 | c2of0 | c2of1
  deriving DecidableEq, Repr

/-- Access sizes (Table 21.1). -/
inductive Size where
  | u8 | s8 | u16 | s16 | b32 | b64 | b128
  deriving DecidableEq, Repr

/-- FCVT selectors (Table 20.10). -/
inductive CvtSel where
  | toFp16 | toBf16 | toFp8e4 | toFp8e5 | fromFp16 | fromBf16 | fromFp8e4 | fromFp8e5
  | toInt32 | toInt8 | toUint8 | fromInt32 | fromUint32 | rint
  deriving DecidableEq, Repr

/-- The narrow formats FCVTS converts to (R362). -/
inductive NarrowFmt where
  | bf16 | fp16 | fp8e4 | fp8e5
  deriving DecidableEq, Repr

/-- Formats QCVT quantises to (R403). -/
inductive QuantFmt where
  | fp8e4 | fp8e5 | int8
  deriving DecidableEq, Repr

/-- SHFL modes (R418). -/
inductive ShflMode where
  | idx | up | down | xor
  deriving DecidableEq, Repr

/-- SHFL sub-group widths (R418). -/
inductive ShflWidth where
  | w32 | w16 | w8 | w4
  deriving DecidableEq, Repr

/-- REDUCE operations (R404). -/
inductive RedOp where
  | iadd | imin | imax | umin | umax | and | or | xor | fadd | fmin | fmax
  deriving DecidableEq, Repr

/-- SCAN operations (R416). -/
inductive ScanOp where
  | iadd | fadd | imax | imin
  deriving DecidableEq, Repr

/-- ATOM operations (Table 19.4). -/
inductive AtomOp where
  | add | min | max | umin | umax | and | or | xor | exch | inc | dec | fadd
  deriving DecidableEq, Repr

/-- Orderings of ATOM and CAS (Table 5.6). -/
inductive Ord where
  | rlx | acq | rel | ar
  deriving DecidableEq, Repr

/-- Scopes (Table 8.1). -/
inductive Scope where
  | thread | group | core | pair | team | die | device | host | fabric
  deriving DecidableEq, Repr

/-- Matrix formats (Table 12.2). -/
inductive MatFmt where
  | bf16 | fp16 | fp8e4 | fp8e5 | int8 | vq2
  deriving DecidableEq, Repr

/-- BRA conditions (R323). -/
inductive BraCond where
  | always | ifTrue (p : PField) | ifFalse (p : PField)
  deriving DecidableEq, Repr

/-- TRACE's face culling, FN bits [2:1] (R253). -/
inductive Cull where
  | none | back | front | all
  deriving DecidableEq, Repr

/-- What a peer access asks of the line's home (R303). -/
inductive PeerOp where
  | load (bytes : Nat)
  | store (data : List Byte)
  | atomic (op : AtomOp) (wide : Bool) (operand : DWord)
  | cas (wide : Bool) (expected new : DWord)
  deriving DecidableEq, Repr

/-- Parts whose correctable errors are counted (R308). -/
inductive WornPart where
  | dramRow (die row : Nat)
  | cacheWay (die way : Nat)
  | combineSlot (die slot : Nat)
  | core (core : Nat)
  | lane (port lane : Nat)
  deriving DecidableEq, Repr

/-- The instruction set: the words a group issues, then the device's own steps. -/
inductive Instr where
  -- Integer (R369-R377, R318-R321, R324, R420)
  | iadd (f : AddForm) (d a : VField) (b : BOp)
  | isub (f : AddForm) (d a : VField) (b : BOp)
  | imul (f : MulForm) (d a : VField) (b : BOp)
  | imad (wide : Bool) (d a : VField) (b : BOp)
  | imin (uns : Bool) (d a : VField) (b : BOp)
  | imax (uns : Bool) (d a : VField) (b : BOp)
  | and (d a : VField) (b : BOp)
  | andn (d a : VField) (b : BOp)
  | or (d a : VField) (b : BOp)
  | orn (d a : VField) (b : BOp)
  | xor (d a : VField) (b : BOp)
  | shl (wide : Bool) (d a : VField) (b : BOp)
  | shr (wide : Bool) (d a : VField) (b : BOp)
  | sar (wide : Bool) (d a : VField) (b : BOp)
  | rotl (wide : Bool) (d a : VField) (b : BOp)
  | clz (d a : VField)
  | popc (d a : VField)
  | brev (d a : VField)
  | iabs (d a : VField)
  | ineg (d a : VField)
  | not (d a : VField)
  | bfx (signed : Bool) (d a : VField) (b : BOp)
  | bfi (d a : VField) (b : BOp)
  | bitil (three : Bool) (d a : VField)
  | bitdl (f : DealForm) (d a : VField)
  | icmp (c : ICond) (d : PField) (a : VField) (b : BOp)
  | isel (p : PField) (d a : VField) (b : BOp)
  | iaddc (p : PField) (d a : VField) (b : BOp)
  -- Moves (Table 21.3) and predicate logic (Table 21.5)
  | mov (d a : VField)
  | movVS (d : VField) (a : SField)
  | movSV (d : SField) (a : VField) (b : BOp)
  | movPP (d a : PField)
  | movSS (d a : SField)
  | movVP (d : VField) (a : PField)
  | movPV (d : PField) (a : VField)
  | pand (d a : PField) (b : POp)
  | por (d a : PField) (b : POp)
  | pxor (d a : PField) (b : POp)
  | pnot (d a : PField)
  -- Immediates
  | iaddi (d a : VField) (imm : BitVec 11)
  | andi (d a : VField) (imm : BitVec 11)
  | ori (d a : VField) (imm : BitVec 11)
  | xori (d a : VField) (imm : BitVec 11)
  | shli (d a : VField) (imm : BitVec 11)
  | shri (d a : VField) (imm : BitVec 11)
  | sari (d a : VField) (imm : BitVec 11)
  | muli (d a : VField) (imm : BitVec 11)
  | movi (d : VField) (imm : BitVec 18)
  | movh (d : VField) (imm : BitVec 18)
  -- Uniform registers (R412, R413, R417, R421)
  | smovi (d : SField) (imm : BitVec 18)
  | sadd (d a : SField) (b : BOp)
  | ssub (d a : SField) (b : BOp)
  | smul (d a : SField) (b : BOp)
  | sand (d a : SField) (b : BOp)
  | sor (d a : SField) (b : BOp)
  | sxor (d a : SField) (b : BOp)
  | sshl (d a : SField) (b : BOp)
  | sshr (d a : SField) (b : BOp)
  | smin (d a : SField) (b : BOp)
  | smax (d a : SField) (b : BOp)
  | sadd64 (d a : SField) (b : BOp)
  | saddi (d a : SField) (imm : BitVec 11)
  | scmp (c : ICond) (d : PField) (a : SField) (b : BOp)
  -- Floating point (R357-R365, R397, R402, R403, R440)
  | fadd (sat : Bool) (m : RMode) (d a : VField) (b : BOp)
  | fsub (sat : Bool) (m : RMode) (d a : VField) (b : BOp)
  | fmul (sat : Bool) (m : RMode) (d a : VField) (b : BOp)
  | ffma (sat : Bool) (m : RMode) (d a : VField) (b : BOp)
  | fmin (num : Bool) (d a : VField) (b : BOp)
  | fmax (num : Bool) (d a : VField) (b : BOp)
  | fcmp (c : FCond) (d : PField) (a : VField) (b : BOp)
  | fabs (d a : VField)
  | fneg (d a : VField)
  | fcpys (d a : VField) (b : BOp)
  | frcp (d a : VField)
  | frsq (d a : VField)
  | fsqrt (d a : VField)
  | flog2 (d a : VField)
  | fexp2 (d a : VField)
  | fsin (d a : VField)
  | fcos (d a : VField)
  | ftanh (d a : VField)
  | padd2 (bf16 : Bool) (d a : VField) (b : BOp)
  | pmul2 (bf16 : Bool) (d a : VField) (b : BOp)
  | pfma2 (bf16 : Bool) (d a : VField) (b : BOp)
  | fcvt (m : RMode) (sel : CvtSel) (d a : VField)
  | fcvts (f : NarrowFmt) (d a : VField) (b : BOp)
  | qcvt (q : QuantFmt) (hadamard n32 : Bool) (d a : VField)
  | qamax (n32 : Bool) (d a : VField)
  | vqdec (table : BitVec 2) (d a : VField)
  -- Across lanes (R350, R354, R404, R416, R418, R439)
  | shfl (w : ShflWidth) (m : ShflMode) (d a : VField) (b : BOp)
  | voteAny (d a : PField)
  | voteAll (d a : PField)
  | voteBallot (d : SField) (a : PField)
  | voteCount (d : VField) (a : PField)
  | reduce (op : RedOp) (d : SField) (a : VField) (b : POp)
  | scan (excl : Bool) (op : ScanOp) (d a : VField) (b : POp)
  | envrd (d : VField) (index : BitVec 18)
  | elect (d : PField)
  -- Control (R323, R326-R328, R356, R378, R47-R55, R90, R92, R110, R111)
  | bra (c : BraCond) (ofs : BitVec 14)
  | jmp (ofs : BitVec 25)
  | call (ofs : BitVec 25)
  | jmpi (a : VField)
  | calli (d a : VField)
  | nop
  | ret (a : VField)
  | exit
  | yield
  | enrol (k : KField)
  | join (k : KField)
  | leave (k : KField)
  | brp (ifPending : Bool) (p : VField) (ofs : BitVec 14)
  | wbase (n : BitVec 7)
  | vfree (a : VField) (n : BitVec 7)
  | regroup
  | pend (a : VField)
  -- Memory (R315-R317, R329-R332, R363, R372, R379-R384, R423-R425)
  | ld (acq : Bool) (z : Size) (d a : VField) (b : BOp)
  | st (rel : Bool) (z : Size) (d a : VField) (b : BOp)
  | lds (z : Size) (d a : VField) (b : BOp)
  | sts (z : Size) (d a : VField) (b : BOp)
  | ldu (z : Size) (d a : SField) (b : BOp)
  | atom (op : AtomOp) (nr wide : Bool) (o : Ord) (sc : Scope) (d a b : VField)
  | cas (wide : Bool) (o : Ord) (sc : Scope) (d a b : VField)
  | fenceAcq (sc : Scope)
  | fenceRel (sc : Scope)
  | fenceFull (sc : Scope)
  | fenceAsync (sc : Scope)
  | icinv (sc : Scope)
  | cctlWb (a : VField) (b : BOp)
  | cctlInv (a : VField) (b : BOp)
  | cctlWbinv (a : VField) (b : BOp)
  -- Fetch unit, texture and random bits (R364, R367, R407-R409, R428)
  | fetch (d : VField) (a : SField) (b : VField)
  | fqry (d : VField) (a : SField) (sel : BitVec 7)
  | tex (d : VField) (a : SField) (b : VField)
  | rngkey (a : VField)
  | rng (d a : VField)
  | rmask (d : PField) (a : VField) (b : BOp)
  -- Copy engine, chain engine, stage rings, collectives (R333, R338, R343, R410)
  | cpy (a : SField)
  | chain (a : SField)
  | sacqFree (d : VField) (ring : BitVec 4)
  | sacqFilled (d : VField) (ring : BitVec 4)
  | spub (a : VField) (ring : BitVec 4)
  | sfree (a : VField) (ring : BitVec 4)
  | coll (a : SField)
  -- Matrix port (R311, R342, R385, R393, R394, R415, R430)
  | mma (solo : Bool) (f : MatFmt) (d : AField) (a : TField) (b : SField)
  | mmasp (solo : Bool) (f : MatFmt) (d : AField) (a : TField) (b : SField)
  | conv (d : AField) (a b : SField)
  | scacc (d a : AField) (b : SField)
  | aclr (d : AField) (b : BOp)
  | ald (d : AField) (a : SField) (b : BOp)
  | astFp32 (d : AField) (a : SField)
  | astBf16 (d : AField) (a : SField)
  | tld (d : TField) (a : SField) (b : BOp)
  | oprdy
  | mwait (d : AField)
  -- Spawn bins, queues, counters, combine slots (R56, R284, R346, R348, R351)
  | spawn (a : VField) (b : BOp)
  | enq (d a : VField)
  | deq (blocking : Bool) (d a : VField)
  | depset (d a : VField) (b : BOp)
  | depdec (d : VField) (b : BOp)
  | depadd (d : VField) (b : BOp)
  | cmbopen (blocking : Bool) (d a : VField)
  | cmbput (d a : VField)
  | cmbstat (d a : VField)
  | cmbclose (a : VField)
  | cmbcancel (a : VField)
  | binflush
  -- Rays and the vertex graph (R355, R366, R368, R431, R433-R442)
  | trace (cull : Cull) (any : Bool) (d a : VField) (b : SField)
  | hitget (d : VField) (a : SField) (b : BOp)
  | vapp (d a : VField) (b : BOp)
  | vconn (d a : VField) (b : BOp)
  | vmrg (d a : VField) (b : BOp)
  | vmrq (d a : VField) (b : BOp)
  | vrwtConn (d a : VField) (b : BOp)
  | vrwtMrg (d a : VField) (b : BOp)
  | fopen (a : SField)
  | fclose (a : SField)
  | eseal (a : SField)
  | vret (a : VField)
  | vget (d a : VField) (b : BOp)
  -- System (R322, R395, R400, R406, R426, R432)
  | trap (code : BitVec 18)
  | sysrd (d : VField) (index : BitVec 11)
  | syswrTrapbase (a : VField)
  | syswrLattice (n : BitVec 2) (a : VField)
  | regionstatClearRegion (a : VField)
  | regionstatClearOvf (a : VField)
  | syswrPerfctl (a : VField)
  | syswrPerfcnt (n : BitVec 3) (a : VField)
  | syswrWschedcfg (a : VField)
  | syswrDetsel (a : VField)
  | syswrOther (index : BitVec 11) (a : VField)
  | ordb
  | orde
  | pxw (a : VField)
  | resume (a : SField)
  | bkpt (tag : BitVec 7)
  /-- A word that encodes no instruction (R135): it raises ILLEGAL. -/
  | illegalWord (w : Word)
  -- Resets, bring-up and power (R10-R18, R305-R309)
  | deviceReset
  | linkFunctionReset (link : Bool)
  | powerLoss
  | serviceLevelRise (pass : Bool)
  | hostRegisterWrite (link : Bool) (offset : Nat) (data : List Byte)
  -- Queue-table window (R70, R71, R75, R299)
  | queueDescriptorWrite (offset : Nat) (data : List Byte)
  | queueEnable (offset : Nat) (data : List Byte)
  | queueDisable (offset : Nat) (data : List Byte)
  | writeIndexAdvance (q : Nat)
  -- Mailbox services (R300, R301, R447)
  | commandAreaWrite (link : Bool) (offset : Nat) (data : List Byte)
  | unlistedServiceOp (link : Bool)
  | ctxcreate (link : Bool)
  | ctxsetSavePool (link : Bool)
  | ctxsetGraphRegion (link : Bool)
  | ctxsetCombineRegion (link : Bool)
  | ctxsetReleaseQueue (link : Bool)
  | ctxsetTrapbase (link : Bool)
  | ctxdestroy (link : Bool)
  | imgload (link : Bool)
  | imgdrop (link : Bool)
  | inval (link : Bool)
  | hostrange (link : Bool)
  | save (link : Bool)
  | restore (link : Bool)
  | quiesce (link : Bool)
  | powerP0 (link : Bool)
  | powerP1 (link : Bool)
  | powerPark (link : Bool)
  | wload (link : Bool)
  -- Host and fabric accesses (R171, R180, R287, R298, R303, R304, R306)
  | cxlMemRead (pa bytes : Nat)
  | cxlMemWrite (pa : Nat) (data : List Byte)
  | cxlCacheSnoop (pa : Nat)
  | weightPortWrite (die : Nat)
  | fabricLaneFailure (port lane : Nat)
  | spareLaneSwapComplete (port : Nat)
  | peerAccess (peer pa : Nat) (op : PeerOp)
  | remoteArrival (ctx slotId expert : Nat) (data : List Byte)
  | remoteAcknowledgement (id : Nat)
  | remoteAckTimeout (id : Nat)
  | leaseRenewal (holder : Nat)
  | leaseExpiry (line : Nat)
  -- Drover and counters (R64-R85)
  | droverTakePacket (q : Nat)
  | effectivePriorityAgeing (q : Nat)
  | teamPlace (grid : Nat)
  | ownerPop (core : Nat)
  | thiefSteal (core : Nat)
  | gridComplete (grid : Nat)
  | markerComplete (grid : Nat)
  | holdListDelivery (q : Nat)
  | watchdogExpiry (grid : Nat)
  -- Completions (R106, R108, R126, R145, R165, R239, R340, R344)
  | memoryAccessComplete (id : Nat)
  | closureRun (id : Nat)
  | chainEntryPerform (id : Nat)
  | engineCommandComplete (id : Nat)
  | matrixCommandComplete (id : Nat)
  | copyCommandComplete (core : Nat)
  | collectiveComplete (id : Nat) (peers : List (List Byte))
  | pageWalkComplete (core ctx va : Nat)
  | latticeCopyComplete (ctx : Nat)
  -- Timers, bins, traps, saves and checking (R53, R58, R100, R204-R225, R290, R291, R289, R271, R172)
  | regroupTimerExpiry (team core : Nat)
  | binTimerExpiry (core bin : Nat)
  | binLaunch (core bin : Nat)
  | parityError (gslot : Nat)
  | correctableError (part : WornPart)
  | trapRecordTake (gslot : Nat)
  | handlerTeamStart (ctx record : Nat)
  | deferredErrorTrap (id : Nat)
  | spatialPreemption (q : Nat) (cores : List Nat)
  | preemptionWaitExpiry (grid : Nat)
  | exactStop (team : Nat)
  | saveBoundExpiry (team : Nat)
  | teamRestore (team : Nat) (cores : List Nat)
  | digestCompare (team : Nat)
  | slotTimerExpiry (ctx die index : Nat)
  | orderedRelease (ctx die index : Nat)
  | releaseRecordWrite (ctx die : Nat)
  | reprojectionComplete (grid : Nat)
  | weightRefreshWindow (die : Nat)
  deriving DecidableEq, Repr

end Sys2Proof
end

