-- ==== Sys2Proof/WellFormed.lean ====
section
/-!
DEFINITION. Which terms of `Instr` are instructions of the part: the register classes of Table 5.7a, the literal form of
R128, and the field limits that the entries give. `Instr.isWord` holds of the constructors that an instruction word encodes.
-/

namespace Sys2Proof

/-- An even pair field (Table 5.7a). -/
def pairOk (f : BitVec 7) : Bool := f.toNat % 2 == 0

/-- A quad field (Table 5.7a). -/
def quadOk (f : BitVec 7) : Bool := f.toNat % 4 == 0

/-- A field group of eight for TRACE: a multiple of 8 from 0 to 88 or from 96 to 120 (R431). -/
def octOk (f : BitVec 7) : Bool := f.toNat % 8 == 0

/-- A B operand of one register: field 127 is the literal form (R128). -/
def BOp.ok : BOp → Bool
  | .reg r => r != 127
  | .lit _ => true

/-- A B operand that is an even pair, or a literal. -/
def BOp.pairOk : BOp → Bool
  | .reg r => Sys2Proof.pairOk r
  | .lit _ => true

/-- The operands of a size's data registers (Table 21.1). -/
def Size.dataOk (z : Size) (d : BitVec 7) : Bool :=
  match z with
  | .b64 => pairOk d
  | .b128 => quadOk d
  | _ => true

/-- Rounding modes that FN bits [1:0] of the float mould can name (R358). -/
def RMode.mouldOk : RMode → Bool
  | .rna => false
  | _ => true

/-- The three operand fields of IADD.64 and its like are pairs; the other forms take single registers. -/
def threeOk (wide : Bool) (d a : VField) (b : BOp) : Bool :=
  if wide then pairOk d && pairOk a && b.pairOk else b.ok

/-- Shift amounts of SHLI, SHRI and SARI (R414). -/
def shiftImmOk (imm : BitVec 11) : Bool := imm.toNat < 32

/-- VFREE's run stays within one range of fields (R92). -/
def vfreeOk (a n : BitVec 7) : Bool :=
  n != 0 && (if a.toNat ≤ 95 then a.toNat + n.toNat ≤ 96 else a.toNat + n.toNat ≤ 128)

/-- `wf i`: `i` is an instruction or a device step of the part. -/
def Instr.wf : Instr → Bool
  | .iadd f d a b | .isub f d a b => threeOk (f == .w64) d a b
  | .imul f d a b => threeOk (f == .w64) d a b
  | .imad w d a b => threeOk w d a b
  | .imin _ _ _ b | .imax _ _ _ b => b.ok
  | .and _ _ b | .andn _ _ b | .or _ _ b | .orn _ _ b | .xor _ _ b => b.ok
  | .shl w d a b | .shr w d a b | .sar w d a b | .rotl w d a b =>
    (!w || (pairOk d && pairOk a)) && b.ok
  | .bfx _ _ _ b | .bfi _ _ b | .icmp _ _ _ b | .isel _ _ _ b | .iaddc _ _ _ b => b.ok
  | .movSV _ _ b => b.ok
  | .shli _ _ i | .shri _ _ i | .sari _ _ i => shiftImmOk i
  | .sadd _ _ b | .ssub _ _ b | .smul _ _ b | .sand _ _ b | .sor _ _ b | .sxor _ _ b
  | .sshl _ _ b | .sshr _ _ b | .smin _ _ b | .smax _ _ b => b.ok
  | .sadd64 d a b => threeOk true d a b
  | .scmp _ _ _ b => b.ok
  | .fadd _ m _ _ b | .fsub _ m _ _ b | .fmul _ m _ _ b | .ffma _ m _ _ b => m.mouldOk && b.ok
  | .fmin _ _ _ b | .fmax _ _ _ b | .fcmp _ _ _ b | .fcpys _ _ b => b.ok
  | .padd2 _ _ _ b | .pmul2 _ _ _ b | .pfma2 _ _ _ b | .fcvts _ _ _ b => b.ok
  | .vqdec _ d _ => quadOk d
  | .shfl _ _ _ _ b => b.ok
  | .jmpi a | .ret a => pairOk a
  | .calli d a => pairOk d && pairOk a
  | .wbase n => n.toNat ≤ 58
  | .vfree a n => vfreeOk a n
  | .ld _ z d a b | .st _ z d a b => z.dataOk d && pairOk a && b.ok
  | .lds z d _ b | .sts z d _ b => z.dataOk d && b.ok
  | .ldu z d a b => (z == .b32 || z == .b64 || z == .b128) && z.dataOk d && pairOk a && b.ok
  | .atom op nr w _ _ d a b =>
    !(op == .fadd && w) && (!nr || d == 0) && pairOk a && (!w || (pairOk d && pairOk b))
  | .cas w _ _ d a b => pairOk a && (if w then pairOk d && quadOk b else pairOk b)
  | .cctlWb a b | .cctlInv a b | .cctlWbinv a b => pairOk a && b.ok
  | .fetch _ a b => pairOk a && quadOk b
  | .fqry _ a _ => pairOk a
  | .tex d a b => quadOk d && pairOk a && pairOk b
  | .rng d a => pairOk d && pairOk a
  | .rmask _ _ b => b.ok
  | .cpy a | .chain a | .coll a => pairOk a
  | .scacc _ _ b => pairOk b
  | .aclr _ b | .ald _ _ b | .tld _ _ b => b.ok
  | .spawn a b => pairOk a && b.ok
  | .enq _ a => pairOk a
  | .deq _ d _ => quadOk d
  | .depset _ a b => pairOk a && b.ok
  | .depdec _ b | .depadd _ b => b.ok
  | .cmbopen _ _ a => pairOk a
  | .cmbput d a => pairOk d && pairOk a
  | .trace _ _ d a b => quadOk d && octOk a && pairOk b
  | .hitget d a b => quadOk d && pairOk a && b.ok
  | .vapp _ a b => pairOk a && b.ok
  | .vconn d a b | .vmrg d a b | .vmrq d a b | .vget d a b => quadOk d && pairOk a && b.ok
  | .vrwtConn _ a b | .vrwtMrg _ a b => pairOk a && b.ok
  | .fopen a => quadOk a
  | .sysrd d _ => pairOk d
  | .syswrTrapbase a | .syswrLattice _ a | .regionstatClearRegion a | .regionstatClearOvf a
  | .syswrPerfctl a | .syswrWschedcfg a | .syswrDetsel a => pairOk a
  | .syswrPerfcnt _ a => pairOk a
  | .syswrOther x a =>
    pairOk a && !(x == 0x010 || (0x020 ≤ x.toNat && x.toNat ≤ 0x023) || x == 0x030
      || (0x040 ≤ x.toNat && x.toNat ≤ 0x048) || x == 0x050 || x == 0x060)
  | .pxw a => pairOk a
  | .resume a => pairOk a
  | _ => true

/-- The constructors that an instruction word encodes; the others are device steps. -/
def Instr.isWord : Instr → Bool
  | .illegalWord _ | .deviceReset | .linkFunctionReset _ | .powerLoss | .serviceLevelRise _
  | .hostRegisterWrite .. | .queueDescriptorWrite .. | .queueEnable .. | .queueDisable .. | .writeIndexAdvance _
  | .commandAreaWrite .. | .unlistedServiceOp _ | .ctxcreate _ | .ctxsetSavePool _ | .ctxsetGraphRegion _
  | .ctxsetCombineRegion _ | .ctxsetReleaseQueue _ | .ctxsetTrapbase _ | .ctxdestroy _ | .imgload _ | .imgdrop _
  | .inval _ | .hostrange _ | .save _ | .restore _ | .quiesce _ | .powerP0 _ | .powerP1 _ | .powerPark _ | .wload _
  | .cxlMemRead .. | .cxlMemWrite .. | .cxlCacheSnoop _ | .weightPortWrite _ | .fabricLaneFailure ..
  | .spareLaneSwapComplete _ | .peerAccess .. | .remoteArrival .. | .remoteAcknowledgement _ | .remoteAckTimeout _
  | .leaseRenewal _ | .leaseExpiry _ | .droverTakePacket _ | .effectivePriorityAgeing _ | .teamPlace _
  | .ownerPop _ | .thiefSteal _ | .gridComplete _ | .markerComplete _ | .holdListDelivery _ | .watchdogExpiry _
  | .memoryAccessComplete _ | .closureRun _ | .chainEntryPerform _ | .engineCommandComplete _
  | .matrixCommandComplete _ | .copyCommandComplete _ | .collectiveComplete .. | .pageWalkComplete ..
  | .latticeCopyComplete _ | .regroupTimerExpiry .. | .binTimerExpiry .. | .binLaunch .. | .parityError _
  | .correctableError _ | .trapRecordTake _ | .handlerTeamStart .. | .deferredErrorTrap _ | .spatialPreemption ..
  | .preemptionWaitExpiry _ | .exactStop _ | .saveBoundExpiry _ | .teamRestore .. | .digestCompare _
  | .slotTimerExpiry .. | .orderedRelease .. | .releaseRecordWrite .. | .reprojectionComplete _
  | .weightRefreshWindow _ => false
  | _ => true

end Sys2Proof
end

