-- ==== Sys2Proof/Decode.lean ====
section
/-!
DEFINITION. The decoder, total on any bytes (R127-R135), and after it the encoder, both written from Tables 5.5 to 5.9.
A word that R135's checks 1 to 5 refuse is rejected by the name of the check.
-/

namespace Sys2Proof

/-- Why a word encodes no instruction: the checks of Table 5.10. -/
inductive DecodeError where
  /-- Reserved major or 0x7F (R134). -/
  | major
  /-- FN or CND not legal (R133). -/
  | fn
  /-- An unused field is not zero, or the second word breaks Table 5.6. -/
  | unused
  /-- A register field or immediate outside its operand class (R131). -/
  | operand
  /-- The following word is missing (check 5). -/
  | following
  /-- Fewer than four bytes. -/
  | short
  deriving DecidableEq, Repr

namespace Field

/-- OP[31:25]. -/
def op (w : Word) : BitVec 7 := w.extractLsb' 25 7
/-- FN or CND [24:21]. -/
def fn (w : Word) : BitVec 4 := w.extractLsb' 21 4
/-- D of format T, P of format B [20:14]. -/
def d (w : Word) : BitVec 7 := w.extractLsb' 14 7
/-- A of format T [13:7]. -/
def a (w : Word) : BitVec 7 := w.extractLsb' 7 7
/-- B of format T [6:0]. -/
def b (w : Word) : BitVec 7 := w.extractLsb' 0 7
/-- D of formats I and U [24:18]. -/
def id (w : Word) : BitVec 7 := w.extractLsb' 18 7
/-- A of format I [17:11]. -/
def ia (w : Word) : BitVec 7 := w.extractLsb' 11 7
/-- IMM of format I [10:0]. -/
def imm11 (w : Word) : BitVec 11 := w.extractLsb' 0 11
/-- IMM of format U [17:0]. -/
def imm18 (w : Word) : BitVec 18 := w.extractLsb' 0 18
/-- OFS of format B [13:0]. -/
def ofs14 (w : Word) : BitVec 14 := w.extractLsb' 0 14
/-- OFS of format J [24:0]. -/
def ofs25 (w : Word) : BitVec 25 := w.extractLsb' 0 25

end Field

/-- What the decoder answers: an instruction and its length in words. -/
abbrev DResult := Except DecodeError (Instr × Nat)

/-- An instruction of one word, if its operands are of their classes. -/
def one (i : Instr) : DResult := if i.wf then .ok (i, 1) else .error .operand

/-- An instruction whose B takes the literal form (R128): field 127 brings in the next word. -/
def withB (b : BitVec 7) (next : Option Word) (k : BOp → Instr) : DResult :=
  if b = 127 then
    match next with
    | none => if (k (.lit 0)).wf then .error .following else .error .operand
    | some l => if (k (.lit l)).wf then .ok (k (.lit l), 2) else .error .operand
  else if (k (.reg b)).wf then .ok (k (.reg b), 1) else .error .operand

/-- As `withB`, for a predicate B operand. -/
def withP (b : BitVec 7) (next : Option Word) (k : POp → Instr) : DResult :=
  if b = 127 then
    match next with
    | none => .error .following
    | some l => .ok (k (.lit l), 2)
  else if b.toNat < 16 then .ok (k (.reg (b.setWidth 4)), 1) else .error .operand

/-- A check that a field is a predicate or tile number. -/
def in16 (f : BitVec 7) (k : BitVec 4 → DResult) : DResult :=
  if f.toNat < 16 then k (f.setWidth 4) else .error .operand

/-- A check that a field is an accumulator or barrier number. -/
def in8 (f : BitVec 7) (k : BitVec 3 → DResult) : DResult :=
  if f.toNat < 8 then k (f.setWidth 3) else .error .operand

/-- A check that unused fields are zero (check 3), before the operand classes. -/
def zero (f : BitVec 7) (k : DResult) : DResult := if f = 0 then k else .error .unused

/-- Integer conditions by FN (R373). -/
def icondOf : BitVec 4 → Option ICond
  | 0 => some .eq | 1 => some .ne | 2 => some .lt | 3 => some .le | 4 => some .gt | 5 => some .ge
  | 6 => some .ltu | 7 => some .leu | 8 => some .gtu | 9 => some .geu | _ => none

/-- Floating-point conditions by FN (R359). -/
def fcondOf : BitVec 4 → Option FCond
  | 0 => some .eq | 1 => some .ne | 2 => some .lt | 3 => some .le | 4 => some .gt | 5 => some .ge
  | 6 => some .un | 7 => some .ord | _ => none

/-- Sizes by FN[2:0] (Table 21.1). -/
def sizeOf3 : BitVec 3 → Option Size
  | 0 => some .u8 | 1 => some .s8 | 2 => some .u16 | 3 => some .s16 | 4 => some .b32 | 5 => some .b64
  | 6 => some .b128 | _ => none

/-- Rounding modes by code (Table 6.3). -/
def rmodeOf : BitVec 4 → Option RMode
  | 0 => some .rne | 1 => some .rtz | 2 => some .rup | 3 => some .rdn | 5 => some .rna | _ => none

/-- The float mould's mode, FN[1:0] (R358). -/
def mould (f : BitVec 2) : RMode :=
  match f with
  | 0 => .rne | 1 => .rtz | 2 => .rup | _ => .rdn

/-- FCVT selectors (Table 20.10). -/
def selOf : BitVec 7 → Option CvtSel
  | 0 => some .toFp16 | 1 => some .toBf16 | 2 => some .toFp8e4 | 3 => some .toFp8e5 | 4 => some .fromFp16
  | 5 => some .fromBf16 | 6 => some .fromFp8e4 | 7 => some .fromFp8e5 | 8 => some .toInt32 | 9 => some .toInt8
  | 10 => some .toUint8 | 11 => some .fromInt32 | 12 => some .fromUint32 | 13 => some .rint | _ => none

/-- REDUCE operations by FN (R404). -/
def redOf : BitVec 4 → Option RedOp
  | 0 => some .iadd | 1 => some .imin | 2 => some .imax | 3 => some .umin | 4 => some .umax | 5 => some .and
  | 6 => some .or | 7 => some .xor | 8 => some .fadd | 9 => some .fmin | 10 => some .fmax | _ => none

/-- ATOM operations by FN (Table 19.4). -/
def atomOf : BitVec 4 → Option AtomOp
  | 0 => some .add | 1 => some .min | 2 => some .max | 3 => some .umin | 4 => some .umax | 5 => some .and
  | 6 => some .or | 7 => some .xor | 8 => some .exch | 9 => some .inc | 10 => some .dec | 11 => some .fadd | _ => none

/-- Scopes by code (Table 8.1). -/
def scopeOf : BitVec 4 → Option Scope
  | 0 => some .thread | 1 => some .group | 2 => some .core | 3 => some .pair | 4 => some .team | 5 => some .die
  | 6 => some .device | 7 => some .host | 8 => some .fabric | _ => none

/-- Orderings by code (Table 5.6). -/
def ordOf (o : BitVec 2) : Ord :=
  match o with
  | 0 => .rlx | 1 => .acq | 2 => .rel | _ => .ar

/-- Matrix formats by FN[2:0] (Table 12.2). -/
def matOf : BitVec 3 → Option MatFmt
  | 0 => some .bf16 | 1 => some .fp16 | 2 => some .fp8e4 | 3 => some .fp8e5 | 4 => some .int8 | 5 => some .vq2
  | _ => none

/-- SHFL modes and widths by FN (R418). -/
def shflModeOf (m : BitVec 2) : ShflMode :=
  match m with
  | 0 => .idx | 1 => .up | 2 => .down | _ => .xor

/-- SHFL widths by FN[3:2]. -/
def shflWidthOf (m : BitVec 2) : ShflWidth :=
  match m with
  | 0 => .w32 | 1 => .w16 | 2 => .w8 | _ => .w4

/-- SCAN operations by FN[1:0] (R416). -/
def scanOf (m : BitVec 2) : ScanOp :=
  match m with
  | 0 => .iadd | 1 => .fadd | 2 => .imax | _ => .imin

/-- TRACE culling by FN[2:1]. -/
def cullOf (m : BitVec 2) : Cull :=
  match m with
  | 0 => .none | 1 => .back | 2 => .front | _ => .all

/-- An optional choice by FN: absent means FN is not legal (check 2). -/
def byFn {α : Type} (x : Option α) (k : α → DResult) : DResult :=
  match x with
  | none => .error .fn
  | some v => k v

/-- Majors 0x00 to 0x0F. -/
def decodeInt (op : Nat) (fn : BitVec 4) (d a b : BitVec 7) (next : Option Word) : DResult :=
  match op with
  | 0x00 => byFn (addForm fn) fun f => withB b next (.iadd f d a)
  | 0x01 => byFn (addForm fn) fun f => withB b next (.isub f d a)
  | 0x02 => byFn (mulForm fn) fun f => withB b next (.imul f d a)
  | 0x03 =>
    match fn with
    | 0 => withB b next (.imad false d a)
    | 3 => withB b next (.imad true d a)
    | _ => .error .fn
  | 0x04 =>
    match fn with
    | 0 => withB b next (.imin false d a)
    | 1 => withB b next (.imin true d a)
    | 2 => withB b next (.imax false d a)
    | 3 => withB b next (.imax true d a)
    | _ => .error .fn
  | 0x05 =>
    match fn with
    | 0 => withB b next (.and d a)
    | 1 => withB b next (.andn d a)
    | 2 => withB b next (.or d a)
    | 3 => withB b next (.orn d a)
    | 4 => withB b next (.xor d a)
    | _ => .error .fn
  | 0x06 =>
    match fn with
    | 0 => withB b next (.shl false d a)
    | 1 => withB b next (.shr false d a)
    | 2 => withB b next (.sar false d a)
    | 3 => withB b next (.rotl false d a)
    | 4 => withB b next (.shl true d a)
    | 5 => withB b next (.shr true d a)
    | 6 => withB b next (.sar true d a)
    | 7 => withB b next (.rotl true d a)
    | _ => .error .fn
  | 0x07 =>
    match fn with
    | 0 => zero b (one (.clz d a))
    | 1 => zero b (one (.popc d a))
    | 2 => zero b (one (.brev d a))
    | 3 => zero b (one (.iabs d a))
    | 4 => zero b (one (.ineg d a))
    | 5 => zero b (one (.not d a))
    | _ => .error .fn
  | 0x08 =>
    match fn with
    | 0 => withB b next (.bfx false d a)
    | 1 => withB b next (.bfx true d a)
    | _ => .error .fn
  | 0x09 => if fn = 0 then withB b next (.bfi d a) else .error .fn
  | 0x0A =>
    match fn with
    | 0 => zero b (one (.bitil false d a))
    | 1 => zero b (one (.bitil true d a))
    | 2 => zero b (one (.bitdl .c3of0 d a))
    | 3 => zero b (one (.bitdl .c3of1 d a))
    | 4 => zero b (one (.bitdl .c3of2 d a))
    | 5 => zero b (one (.bitdl .c2of0 d a))
    | 6 => zero b (one (.bitdl .c2of1 d a))
    | _ => .error .fn
  | 0x0B => byFn (icondOf fn) fun c => in16 d fun p => withB b next (.icmp c p a)
  | 0x0C => withB b next (.isel fn d a)
  | 0x0D => withB b next (.iaddc fn d a)
  | 0x0E =>
    match fn with
    | 0 => zero b (one (.mov d a))
    | 1 => zero b (one (.movVS d a))
    | 2 => withB b next (.movSV d a)
    | 3 => zero b (in16 d fun p => in16 a fun q => one (.movPP p q))
    | 4 => zero b (one (.movSS d a))
    | 5 => zero b (in16 a fun q => one (.movVP d q))
    | 6 => zero b (in16 d fun p => one (.movPV p a))
    | _ => .error .fn
  | _ =>
    match fn with
    | 0 => in16 d fun p => in16 a fun q => withP b next (.pand p q)
    | 1 => in16 d fun p => in16 a fun q => withP b next (.por p q)
    | 2 => in16 d fun p => in16 a fun q => withP b next (.pxor p q)
    | 3 => zero b (in16 d fun p => in16 a fun q => one (.pnot p q))
    | _ => .error .fn
where
  addForm : BitVec 4 → Option AddForm
    | 0 => some .w32 | 1 => some .w64 | 2 => some .ssat | 3 => some .usat | _ => none
  mulForm : BitVec 4 → Option MulForm
    | 0 => some .lo | 1 => some .hi | 2 => some .hiu | 3 => some .w64 | _ => none

/-- Majors 0x10 to 0x1A and 0x1C: the immediate forms. -/
def decodeImm (op : Nat) (w : Word) : DResult :=
  let d := Field.id w
  let a := Field.ia w
  let i := Field.imm11 w
  match op with
  | 0x10 => one (.iaddi d a i)
  | 0x11 => one (.andi d a i)
  | 0x12 => one (.ori d a i)
  | 0x13 => one (.xori d a i)
  | 0x14 => one (.shli d a i)
  | 0x15 => one (.shri d a i)
  | 0x16 => one (.sari d a i)
  | 0x17 => one (.muli d a i)
  | 0x18 => one (.movi d (Field.imm18 w))
  | 0x19 => one (.movh d (Field.imm18 w))
  | 0x1A => one (.smovi d (Field.imm18 w))
  | _ => one (.saddi d a i)

/-- Majors 0x1B and 0x1D: the uniform family. -/
def decodeUni (op : Nat) (fn : BitVec 4) (d a b : BitVec 7) (next : Option Word) : DResult :=
  match op with
  | 0x1B =>
    match fn with
    | 0 => withB b next (.sadd d a)
    | 1 => withB b next (.ssub d a)
    | 2 => withB b next (.smul d a)
    | 3 => withB b next (.sand d a)
    | 4 => withB b next (.sor d a)
    | 5 => withB b next (.sxor d a)
    | 6 => withB b next (.sshl d a)
    | 7 => withB b next (.sshr d a)
    | 8 => withB b next (.smin d a)
    | 9 => withB b next (.smax d a)
    | 10 => withB b next (.sadd64 d a)
    | _ => .error .fn
  | _ => byFn (icondOf fn) fun c => in16 d fun p => withB b next (.scmp c p a)

/-- Majors 0x20 to 0x2F: floating point and conversion. -/
def decodeFlt (op : Nat) (fn : BitVec 4) (d a b : BitVec 7) (next : Option Word) : DResult :=
  match op with
  | 0x20 => if fn.toNat < 8 then withB b next (.fadd (fn.getLsbD 2) (mould (fn.setWidth 2)) d a) else .error .fn
  | 0x21 => if fn.toNat < 8 then withB b next (.fsub (fn.getLsbD 2) (mould (fn.setWidth 2)) d a) else .error .fn
  | 0x22 => if fn.toNat < 8 then withB b next (.fmul (fn.getLsbD 2) (mould (fn.setWidth 2)) d a) else .error .fn
  | 0x23 => if fn.toNat < 8 then withB b next (.ffma (fn.getLsbD 2) (mould (fn.setWidth 2)) d a) else .error .fn
  | 0x24 =>
    match fn with
    | 0 => withB b next (.fmin false d a)
    | 1 => withB b next (.fmax false d a)
    | 2 => withB b next (.fmin true d a)
    | 3 => withB b next (.fmax true d a)
    | _ => .error .fn
  | 0x25 => byFn (fcondOf fn) fun c => in16 d fun p => withB b next (.fcmp c p a)
  | 0x26 =>
    match fn with
    | 0 => zero b (one (.fabs d a))
    | 1 => zero b (one (.fneg d a))
    | 2 => withB b next (.fcpys d a)
    | _ => .error .fn
  | 0x27 =>
    match fn with
    | 0 => zero b (one (.frcp d a))
    | 1 => zero b (one (.frsq d a))
    | 2 => zero b (one (.fsqrt d a))
    | 3 => zero b (one (.flog2 d a))
    | 4 => zero b (one (.fexp2 d a))
    | 5 => zero b (one (.fsin d a))
    | 6 => zero b (one (.fcos d a))
    | 7 => zero b (one (.ftanh d a))
    | _ => .error .fn
  | 0x28 => if fn.toNat < 2 then withB b next (.padd2 (fn.getLsbD 0) d a) else .error .fn
  | 0x29 => if fn.toNat < 2 then withB b next (.pmul2 (fn.getLsbD 0) d a) else .error .fn
  | 0x2A => if fn.toNat < 2 then withB b next (.pfma2 (fn.getLsbD 0) d a) else .error .fn
  | 0x2B =>
    byFn (rmodeOf fn) fun m =>
      match selOf b with
      | none => .error .operand
      | some s => one (.fcvt m s d a)
  | 0x2C =>
    match fn with
    | 0 => withB b next (.fcvts .bf16 d a)
    | 1 => withB b next (.fcvts .fp16 d a)
    | 2 => withB b next (.fcvts .fp8e4 d a)
    | 3 => withB b next (.fcvts .fp8e5 d a)
    | _ => .error .fn
  | 0x2D =>
    byFn (quantOf (fn.extractLsb' 2 2)) fun q => zero b (one (.qcvt q (fn.getLsbD 1) (fn.getLsbD 0) d a))
  | 0x2E => if fn.toNat < 2 then zero b (one (.qamax (fn.getLsbD 0) d a)) else .error .fn
  | _ => if fn.toNat < 4 then zero b (one (.vqdec (fn.setWidth 2) d a)) else .error .fn
where
  quantOf : BitVec 2 → Option QuantFmt
    | 0 => some .fp8e4 | 1 => some .fp8e5 | 2 => some .int8 | _ => none

/-- Majors 0x30 to 0x35: across lanes. -/
def decodeLane (op : Nat) (w : Word) (fn : BitVec 4) (d a b : BitVec 7) (next : Option Word) : DResult :=
  match op with
  | 0x30 => withB b next (.shfl (shflWidthOf (fn.extractLsb' 2 2)) (shflModeOf (fn.setWidth 2)) d a)
  | 0x31 =>
    match fn with
    | 0 => zero b (in16 d fun p => in16 a fun q => one (.voteAny p q))
    | 1 => zero b (in16 d fun p => in16 a fun q => one (.voteAll p q))
    | 2 => zero b (in16 a fun q => one (.voteBallot d q))
    | 3 => zero b (in16 a fun q => one (.voteCount d q))
    | _ => .error .fn
  | 0x32 => byFn (redOf fn) fun o => withP b next (.reduce o d a)
  | 0x33 =>
    if fn.getLsbD 2 then .error .fn
    else withP b next (.scan (fn.getLsbD 3) (scanOf (fn.setWidth 2)) d a)
  | 0x34 => one (.envrd (Field.id w) (Field.imm18 w))
  | _ => if fn = 0 then zero a (zero b (in16 d fun p => one (.elect p))) else .error .fn

/-- Majors 0x38 to 0x3F: control. -/
def decodeCtl (op : Nat) (w : Word) (fn : BitVec 4) (d a b : BitVec 7) : DResult :=
  match op with
  | 0x38 =>
    match fn with
    | 0 => if d = 0 then one (.bra .always (Field.ofs14 w)) else .error .fn
    | 1 => in16 d fun p => one (.bra (.ifTrue p) (Field.ofs14 w))
    | 2 => in16 d fun p => one (.bra (.ifFalse p) (Field.ofs14 w))
    | _ => .error .fn
  | 0x39 => one (.jmp (Field.ofs25 w))
  | 0x3A => one (.call (Field.ofs25 w))
  | 0x3B =>
    match fn with
    | 0 => zero d (zero b (one (.jmpi a)))
    | 1 => zero b (one (.calli d a))
    | _ => .error .fn
  | 0x3C =>
    match fn with
    | 0 => zero d (zero a (zero b (one .nop)))
    | 1 => zero d (zero b (one (.ret a)))
    | 2 => zero d (zero a (zero b (one .exit)))
    | 3 => zero d (zero a (zero b (one .yield)))
    | _ => .error .fn
  | 0x3D =>
    match fn with
    | 0 => zero d (zero b (in8 a fun k => one (.enrol k)))
    | 1 => zero d (zero b (in8 a fun k => one (.join k)))
    | 2 => zero d (zero b (in8 a fun k => one (.leave k)))
    | _ => .error .fn
  | 0x3E =>
    match fn with
    | 0 => one (.brp true d (Field.ofs14 w))
    | 1 => one (.brp false d (Field.ofs14 w))
    | _ => .error .fn
  | _ =>
    match fn with
    | 0 => zero d (zero a (one (.wbase b)))
    | 1 => zero d (one (.vfree a b))
    | 2 => zero d (zero a (zero b (one .regroup)))
    | 3 => zero d (zero b (one (.pend a)))
    | _ => .error .fn

/-- The second word of ATOM and CAS (Table 5.6), its fields, if bits [31:8] are zero and the scope is legal. -/
def second (w : Word) : Option (Bool × Bool × Ord × Scope) :=
  if w.extractLsb' 8 24 = 0 then
    match scopeOf (w.extractLsb' 0 4) with
    | none => none
    | some sc => some (w.getLsbD 7, w.getLsbD 6, ordOf (w.extractLsb' 4 2), sc)
  else none

/-- A two-word instruction: the first word's FN is legal; the second word follows Table 5.6. -/
def twoWords (next : Option Word) (k : Bool → Bool → Ord → Scope → DResult) : DResult :=
  match next with
  | none => .error .following
  | some l =>
    match second l with
    | none => .error .unused
    | some (nr, wide, o, sc) => k nr wide o sc

/-- An instruction of two words, if its operands are of their classes. -/
def two (i : Instr) : DResult := if i.wf then .ok (i, 2) else .error .operand

/-- Majors 0x40 to 0x49: memory. -/
def decodeMem (op : Nat) (fn : BitVec 4) (d a b : BitVec 7) (next : Option Word) : DResult :=
  match op with
  | 0x40 => byFn (sizeOf3 (fn.setWidth 3)) fun z => withB b next (.ld (fn.getLsbD 3) z d a)
  | 0x41 => byFn (sizeOf3 (fn.setWidth 3)) fun z => withB b next (.st (fn.getLsbD 3) z d a)
  | 0x42 => if fn.getLsbD 3 then .error .fn else byFn (sizeOf3 (fn.setWidth 3)) fun z => withB b next (.lds z d a)
  | 0x43 => if fn.getLsbD 3 then .error .fn else byFn (sizeOf3 (fn.setWidth 3)) fun z => withB b next (.sts z d a)
  | 0x44 =>
    match fn with
    | 4 => withB b next (.ldu .b32 d a)
    | 5 => withB b next (.ldu .b64 d a)
    | 6 => withB b next (.ldu .b128 d a)
    | _ => .error .fn
  | 0x45 =>
    byFn (atomOf fn) fun o => twoWords next fun nr wide ord sc =>
      if (o == .fadd && wide) || (nr && d != 0) then .error .unused else two (.atom o nr wide ord sc d a b)
  | 0x46 =>
    if fn = 0 then twoWords next fun nr wide ord sc =>
      if nr then .error .unused else two (.cas wide ord sc d a b)
    else .error .fn
  | 0x47 =>
    byFn (scopeOf fn) fun sc => zero a (zero b (
      match d with
      | 0 => one (.fenceAcq sc)
      | 1 => one (.fenceRel sc)
      | 2 => one (.fenceFull sc)
      | 3 => one (.fenceAsync sc)
      | _ => .error .unused))
  | 0x48 => byFn (scopeOf fn) fun sc => zero d (zero a (zero b (one (.icinv sc))))
  | _ =>
    match fn with
    | 0 => zero d (withB b next (.cctlWb a))
    | 1 => zero d (withB b next (.cctlInv a))
    | 2 => zero d (withB b next (.cctlWbinv a))
    | _ => .error .fn

/-- Majors 0x50 to 0x5D: fetch unit, random bits, copy engine, rings. -/
def decodeFetch (op : Nat) (fn : BitVec 4) (d a b : BitVec 7) (next : Option Word) : DResult :=
  match op with
  | 0x5A =>
    match fn with
    | 0 => zero a (in16 b fun r => one (.sacqFree d r))
    | 1 => zero a (in16 b fun r => one (.sacqFilled d r))
    | _ => .error .fn
  | _ =>
    if fn = 0 then
      match op with
      | 0x50 => one (.fetch d a b)
      | 0x51 => one (.fqry d a b)
      | 0x52 => one (.tex d a b)
      | 0x53 => zero d (zero b (one (.rngkey a)))
      | 0x54 => zero b (one (.rng d a))
      | 0x55 => in16 d fun p => withB b next (.rmask p a)
      | 0x58 => zero d (zero b (one (.cpy a)))
      | 0x59 => zero d (zero b (one (.chain a)))
      | 0x5B => zero d (in16 b fun r => one (.spub a r))
      | 0x5C => zero d (in16 b fun r => one (.sfree a r))
      | _ => zero d (zero b (one (.coll a)))
    else .error .fn

/-- Majors 0x60 to 0x67: the matrix port. -/
def decodeMat (op : Nat) (fn : BitVec 4) (d a b : BitVec 7) (next : Option Word) : DResult :=
  match op with
  | 0x60 =>
    byFn (matOf (fn.setWidth 3)) fun f => in8 d fun x => in16 a fun t => one (.mma (fn.getLsbD 3) f x t b)
  | 0x61 =>
    byFn (matOf (fn.setWidth 3)) fun f => in8 d fun x => in16 a fun t => one (.mmasp (fn.getLsbD 3) f x t b)
  | 0x64 =>
    match fn with
    | 0 => zero a (in8 d fun x => withB b next (.aclr x))
    | 1 => in8 d fun x => withB b next (.ald x a)
    | 2 => zero b (in8 d fun x => one (.astFp32 x a))
    | 3 => zero b (in8 d fun x => one (.astBf16 x a))
    | _ => .error .fn
  | _ =>
    if fn = 0 then
      match op with
      | 0x62 => in8 d fun x => one (.conv x a b)
      | 0x63 => in8 d fun x => in8 a fun y => one (.scacc x y b)
      | 0x65 => in16 d fun t => withB b next (.tld t a)
      | 0x66 => zero d (zero a (zero b (one .oprdy)))
      | _ => zero a (zero b (in8 d fun x => one (.mwait x)))
    else .error .fn

/-- Majors 0x68 to 0x6F: spawn bins, queues, counters, combine slots. -/
def decodeQueue (op : Nat) (fn : BitVec 4) (d a b : BitVec 7) (next : Option Word) : DResult :=
  match op with
  | 0x6A =>
    match fn with
    | 0 => zero b (one (.deq false d a))
    | 1 => zero b (one (.deq true d a))
    | _ => .error .fn
  | 0x6B =>
    match fn with
    | 0 => withB b next (.depset d a)
    | 1 => zero a (withB b next (.depdec d))
    | 2 => zero a (withB b next (.depadd d))
    | _ => .error .fn
  | 0x6C =>
    match fn with
    | 0 => zero b (one (.cmbopen false d a))
    | 1 => zero b (one (.cmbopen true d a))
    | _ => .error .fn
  | 0x6E =>
    match fn with
    | 0 => zero b (one (.cmbstat d a))
    | 1 => zero d (zero b (one (.cmbclose a)))
    | 2 => zero d (zero b (one (.cmbcancel a)))
    | _ => .error .fn
  | _ =>
    if fn = 0 then
      match op with
      | 0x68 => zero d (withB b next (.spawn a))
      | 0x69 => zero b (one (.enq d a))
      | 0x6D => zero b (one (.cmbput d a))
      | _ => zero d (zero a (zero b (one .binflush)))
    else .error .fn

/-- Majors 0x70 to 0x77: rays and the vertex graph. -/
def decodeGraph (op : Nat) (fn : BitVec 4) (d a b : BitVec 7) (next : Option Word) : DResult :=
  match op with
  | 0x70 =>
    if fn.getLsbD 3 then .error .fn else one (.trace (cullOf (fn.extractLsb' 1 2)) (fn.getLsbD 0) d a b)
  | 0x76 =>
    match fn with
    | 0 => withB b next (.vrwtConn d a)
    | 1 => withB b next (.vrwtMrg d a)
    | _ => .error .fn
  | 0x77 =>
    match fn with
    | 0 => zero d (zero b (one (.fopen a)))
    | 1 => zero d (zero b (one (.fclose a)))
    | 2 => zero d (zero b (one (.eseal a)))
    | 3 => zero d (zero b (one (.vret a)))
    | 4 => withB b next (.vget d a)
    | _ => .error .fn
  | _ =>
    if fn = 0 then
      match op with
      | 0x71 => withB b next (.hitget d a)
      | 0x72 => withB b next (.vapp d a)
      | 0x73 => withB b next (.vconn d a)
      | 0x74 => withB b next (.vmrg d a)
      | _ => withB b next (.vmrq d a)
    else .error .fn

/-- SYSWR by its index (Table 22.8). -/
def decodeSyswr (x : BitVec 11) (a : BitVec 7) : DResult :=
  if x = 0x010 then one (.syswrTrapbase a)
  else if 0x020 ≤ x.toNat ∧ x.toNat ≤ 0x023 then one (.syswrLattice (x.setWidth 2) a)
  else if x = 0x030 then one (.regionstatClearRegion a)
  else if x = 0x040 then one (.syswrPerfctl a)
  else if 0x041 ≤ x.toNat ∧ x.toNat ≤ 0x048 then one (.syswrPerfcnt ((x - 0x041).setWidth 3) a)
  else if x = 0x050 then one (.syswrWschedcfg a)
  else if x = 0x060 then one (.syswrDetsel a)
  else one (.syswrOther x a)

/-- Majors 0x78 to 0x7E: system. -/
def decodeSys (op : Nat) (w : Word) (fn : BitVec 4) (d a b : BitVec 7) : DResult :=
  match op with
  | 0x78 => zero (Field.id w) (one (.trap (Field.imm18 w)))
  | 0x79 => zero a (one (.sysrd d (fn ++ b)))
  | 0x7A => zero d (decodeSyswr (fn ++ b) a)
  | 0x7B =>
    match fn with
    | 0 => zero d (zero a (zero b (one .ordb)))
    | 1 => zero d (zero a (zero b (one .orde)))
    | _ => .error .fn
  | _ =>
    if fn = 0 then
      match op with
      | 0x7C => zero d (zero b (one (.pxw a)))
      | 0x7D => zero d (zero b (one (.resume a)))
      | _ => zero d (zero a (one (.bkpt b)))
    else .error .fn

/-- Whether a major is reserved or permanently illegal (R134). -/
def reservedMajor (op : Nat) : Bool :=
  op == 0x1E || op == 0x1F || op == 0x36 || op == 0x37 || (0x4A ≤ op && op ≤ 0x4F) || op == 0x56 || op == 0x57
    || op == 0x5E || op == 0x5F || op == 0x7F

/-- The instruction that a word encodes, with the word after it in its body, if there is one (R127-R135). -/
def decodeWord (w : Word) (next : Option Word) : DResult :=
  let op := (Field.op w).toNat
  let fn := Field.fn w
  let d := Field.d w
  let a := Field.a w
  let b := Field.b w
  if reservedMajor op then .error .major
  else if op < 0x10 then decodeInt op fn d a b next
  else if op = 0x1B ∨ op = 0x1D then decodeUni op fn d a b next
  else if op < 0x1E then decodeImm op w
  else if op < 0x30 then decodeFlt op fn d a b next
  else if op < 0x36 then decodeLane op w fn d a b next
  else if op < 0x40 then decodeCtl op w fn d a b
  else if op < 0x4A then decodeMem op fn d a b next
  else if op < 0x5E then decodeFetch op fn d a b next
  else if op < 0x68 then decodeMat op fn d a b next
  else if op < 0x70 then decodeQueue op fn d a b next
  else if op < 0x78 then decodeGraph op fn d a b next
  else decodeSys op w fn d a b

/-- Four bytes, little-endian (R31). -/
def word4 (b0 b1 b2 b3 : Byte) : Word := b3 ++ b2 ++ b1 ++ b0

/-- The first instruction of a list of bytes, and the bytes after it; total, rejecting by name. -/
def decode : List Byte → Except DecodeError (Instr × List Byte)
  | b0 :: b1 :: b2 :: b3 :: rest =>
    let next : Option Word :=
      match rest with
      | c0 :: c1 :: c2 :: c3 :: _ => some (word4 c0 c1 c2 c3)
      | _ => none
    match decodeWord (word4 b0 b1 b2 b3) next with
    | .error e => .error e
    | .ok (i, n) => .ok (i, if n = 2 then rest.drop 4 else rest)
  | _ => .error .short

/-- The bytes of a word, lowest address first (R31). -/
def wordBytes (w : Word) : List Byte :=
  [w.extractLsb' 0 8, w.extractLsb' 8 8, w.extractLsb' 16 8, w.extractLsb' 24 8]

/-- The instruction the decoder reads where the bits of its words are `w`, bit 0 the lowest bit of the first word. -/
def decodeTableWord (_nbits w : Nat) : Option Instr :=
  match decode (wordBytes (BitVec.ofNat 32 w) ++ wordBytes (BitVec.ofNat 32 (w / 2 ^ 32))) with
  | .ok (i, _) => some i
  | .error _ => none

/-! ### The encoder -/

/-- A word of format T. -/
def packT (op : BitVec 7) (fn : BitVec 4) (d a b : BitVec 7) : Word := op ++ fn ++ d ++ a ++ b
/-- A word of format I. -/
def packI (op d a : BitVec 7) (imm : BitVec 11) : Word := op ++ d ++ a ++ imm
/-- A word of format U. -/
def packU (op d : BitVec 7) (imm : BitVec 18) : Word := op ++ d ++ imm
/-- A word of format B. -/
def packB (op : BitVec 7) (cnd : BitVec 4) (p : BitVec 7) (ofs : BitVec 14) : Word := op ++ cnd ++ p ++ ofs
/-- A word of format J. -/
def packJ (op : BitVec 7) (ofs : BitVec 25) : Word := op ++ ofs

/-- A word of format T with a B operand, and its literal (R128). -/
def packTB (op : BitVec 7) (fn : BitVec 4) (d a : BitVec 7) : BOp → List Word
  | .reg r => [packT op fn d a r]
  | .lit l => [packT op fn d a 127, l]

/-- As `packTB`, for a predicate B operand. -/
def packTP (op : BitVec 7) (fn : BitVec 4) (d a : BitVec 7) : POp → List Word
  | .reg r => [packT op fn d a (r.setWidth 7)]
  | .lit l => [packT op fn d a 127, l]

/-- FN of IADD and ISUB. -/
def AddForm.code : AddForm → BitVec 4
  | .w32 => 0 | .w64 => 1 | .ssat => 2 | .usat => 3
/-- FN of IMUL. -/
def MulForm.code : MulForm → BitVec 4
  | .lo => 0 | .hi => 1 | .hiu => 2 | .w64 => 3
/-- FN of ICMP and SCMP. -/
def ICond.code : ICond → BitVec 4
  | .eq => 0 | .ne => 1 | .lt => 2 | .le => 3 | .gt => 4 | .ge => 5 | .ltu => 6 | .leu => 7 | .gtu => 8 | .geu => 9
/-- FN of FCMP. -/
def FCond.code : FCond → BitVec 4
  | .eq => 0 | .ne => 1 | .lt => 2 | .le => 3 | .gt => 4 | .ge => 5 | .un => 6 | .ord => 7
/-- Rounding-mode codes (Table 6.3). -/
def RMode.code : RMode → BitVec 4
  | .rne => 0 | .rtz => 1 | .rup => 2 | .rdn => 3 | .rna => 5
/-- FN of the float mould: mode, and bit 2 for .SAT. -/
def mouldCode (sat : Bool) (m : RMode) : BitVec 4 := if sat then m.code ||| 4 else m.code
/-- FN of BITDL. -/
def DealForm.code : DealForm → BitVec 4
  | .c3of0 => 2 | .c3of1 => 3 | .c3of2 => 4 | .c2of0 => 5 | .c2of1 => 6
/-- FN[2:0] of LD and ST. -/
def Size.code : Size → BitVec 4
  | .u8 => 0 | .s8 => 1 | .u16 => 2 | .s16 => 3 | .b32 => 4 | .b64 => 5 | .b128 => 6
/-- Selectors of FCVT. -/
def CvtSel.code : CvtSel → BitVec 7
  | .toFp16 => 0 | .toBf16 => 1 | .toFp8e4 => 2 | .toFp8e5 => 3 | .fromFp16 => 4 | .fromBf16 => 5 | .fromFp8e4 => 6
  | .fromFp8e5 => 7 | .toInt32 => 8 | .toInt8 => 9 | .toUint8 => 10 | .fromInt32 => 11 | .fromUint32 => 12 | .rint => 13
/-- FN of FCVTS. -/
def NarrowFmt.code : NarrowFmt → BitVec 4
  | .bf16 => 0 | .fp16 => 1 | .fp8e4 => 2 | .fp8e5 => 3
/-- FN[3:2] of QCVT. -/
def QuantFmt.code : QuantFmt → BitVec 2
  | .fp8e4 => 0 | .fp8e5 => 1 | .int8 => 2
/-- FN[1:0] of SHFL. -/
def ShflMode.code : ShflMode → BitVec 2
  | .idx => 0 | .up => 1 | .down => 2 | .xor => 3
/-- FN[3:2] of SHFL. -/
def ShflWidth.code : ShflWidth → BitVec 2
  | .w32 => 0 | .w16 => 1 | .w8 => 2 | .w4 => 3
/-- FN of REDUCE. -/
def RedOp.code : RedOp → BitVec 4
  | .iadd => 0 | .imin => 1 | .imax => 2 | .umin => 3 | .umax => 4 | .and => 5 | .or => 6 | .xor => 7 | .fadd => 8
  | .fmin => 9 | .fmax => 10
/-- FN[1:0] of SCAN. -/
def ScanOp.code : ScanOp → BitVec 2
  | .iadd => 0 | .fadd => 1 | .imax => 2 | .imin => 3
/-- FN of ATOM. -/
def AtomOp.code : AtomOp → BitVec 4
  | .add => 0 | .min => 1 | .max => 2 | .umin => 3 | .umax => 4 | .and => 5 | .or => 6 | .xor => 7 | .exch => 8
  | .inc => 9 | .dec => 10 | .fadd => 11
/-- ORD of the second word. -/
def Ord.code : Ord → BitVec 2
  | .rlx => 0 | .acq => 1 | .rel => 2 | .ar => 3
/-- Scope codes (Table 8.1). -/
def Scope.code : Scope → BitVec 4
  | .thread => 0 | .group => 1 | .core => 2 | .pair => 3 | .team => 4 | .die => 5 | .device => 6 | .host => 7
  | .fabric => 8
/-- FN[2:0] of MMA. -/
def MatFmt.code : MatFmt → BitVec 3
  | .bf16 => 0 | .fp16 => 1 | .fp8e4 => 2 | .fp8e5 => 3 | .int8 => 4 | .vq2 => 5
/-- FN[2:1] of TRACE. -/
def Cull.code : Cull → BitVec 2
  | .none => 0 | .back => 1 | .front => 2 | .all => 3

/-- One bit of a field. -/
def bit (b : Bool) : BitVec 1 := BitVec.ofBool b

/-- The second word of ATOM and CAS (Table 5.6). -/
def secondWord (nr wide : Bool) (o : Ord) (sc : Scope) : Word :=
  (0 : BitVec 24) ++ bit nr ++ bit wide ++ o.code ++ sc.code

/-- A predicate, tile, accumulator or barrier number in a seven-bit field. -/
def wide7 {n : Nat} (x : BitVec n) : BitVec 7 := x.setWidth 7

/-- A SYSWR word: the index in FN and B (Table 22.8). -/
def packSys (op : BitVec 7) (d a : BitVec 7) (x : BitVec 11) : Word :=
  packT op (x.extractLsb' 7 4) d a (x.extractLsb' 0 7)

/-- The words of an instruction; a device step has none. -/
def encode : Instr → List Word
  | .iadd f d a b => packTB 0x00 f.code d a b
  | .isub f d a b => packTB 0x01 f.code d a b
  | .imul f d a b => packTB 0x02 f.code d a b
  | .imad w d a b => packTB 0x03 (if w then 3 else 0) d a b
  | .imin u d a b => packTB 0x04 (if u then 1 else 0) d a b
  | .imax u d a b => packTB 0x04 (if u then 3 else 2) d a b
  | .and d a b => packTB 0x05 0 d a b
  | .andn d a b => packTB 0x05 1 d a b
  | .or d a b => packTB 0x05 2 d a b
  | .orn d a b => packTB 0x05 3 d a b
  | .xor d a b => packTB 0x05 4 d a b
  | .shl w d a b => packTB 0x06 (if w then 4 else 0) d a b
  | .shr w d a b => packTB 0x06 (if w then 5 else 1) d a b
  | .sar w d a b => packTB 0x06 (if w then 6 else 2) d a b
  | .rotl w d a b => packTB 0x06 (if w then 7 else 3) d a b
  | .clz d a => [packT 0x07 0 d a 0]
  | .popc d a => [packT 0x07 1 d a 0]
  | .brev d a => [packT 0x07 2 d a 0]
  | .iabs d a => [packT 0x07 3 d a 0]
  | .ineg d a => [packT 0x07 4 d a 0]
  | .not d a => [packT 0x07 5 d a 0]
  | .bfx s d a b => packTB 0x08 (if s then 1 else 0) d a b
  | .bfi d a b => packTB 0x09 0 d a b
  | .bitil t d a => [packT 0x0A (if t then 1 else 0) d a 0]
  | .bitdl f d a => [packT 0x0A f.code d a 0]
  | .icmp c d a b => packTB 0x0B c.code (wide7 d) a b
  | .isel p d a b => packTB 0x0C p d a b
  | .iaddc p d a b => packTB 0x0D p d a b
  | .mov d a => [packT 0x0E 0 d a 0]
  | .movVS d a => [packT 0x0E 1 d a 0]
  | .movSV d a b => packTB 0x0E 2 d a b
  | .movPP d a => [packT 0x0E 3 (wide7 d) (wide7 a) 0]
  | .movSS d a => [packT 0x0E 4 d a 0]
  | .movVP d a => [packT 0x0E 5 d (wide7 a) 0]
  | .movPV d a => [packT 0x0E 6 (wide7 d) a 0]
  | .pand d a b => packTP 0x0F 0 (wide7 d) (wide7 a) b
  | .por d a b => packTP 0x0F 1 (wide7 d) (wide7 a) b
  | .pxor d a b => packTP 0x0F 2 (wide7 d) (wide7 a) b
  | .pnot d a => [packT 0x0F 3 (wide7 d) (wide7 a) 0]
  | .iaddi d a i => [packI 0x10 d a i]
  | .andi d a i => [packI 0x11 d a i]
  | .ori d a i => [packI 0x12 d a i]
  | .xori d a i => [packI 0x13 d a i]
  | .shli d a i => [packI 0x14 d a i]
  | .shri d a i => [packI 0x15 d a i]
  | .sari d a i => [packI 0x16 d a i]
  | .muli d a i => [packI 0x17 d a i]
  | .movi d i => [packU 0x18 d i]
  | .movh d i => [packU 0x19 d i]
  | .smovi d i => [packU 0x1A d i]
  | .sadd d a b => packTB 0x1B 0 d a b
  | .ssub d a b => packTB 0x1B 1 d a b
  | .smul d a b => packTB 0x1B 2 d a b
  | .sand d a b => packTB 0x1B 3 d a b
  | .sor d a b => packTB 0x1B 4 d a b
  | .sxor d a b => packTB 0x1B 5 d a b
  | .sshl d a b => packTB 0x1B 6 d a b
  | .sshr d a b => packTB 0x1B 7 d a b
  | .smin d a b => packTB 0x1B 8 d a b
  | .smax d a b => packTB 0x1B 9 d a b
  | .sadd64 d a b => packTB 0x1B 10 d a b
  | .saddi d a i => [packI 0x1C d a i]
  | .scmp c d a b => packTB 0x1D c.code (wide7 d) a b
  | .fadd s m d a b => packTB 0x20 (mouldCode s m) d a b
  | .fsub s m d a b => packTB 0x21 (mouldCode s m) d a b
  | .fmul s m d a b => packTB 0x22 (mouldCode s m) d a b
  | .ffma s m d a b => packTB 0x23 (mouldCode s m) d a b
  | .fmin n d a b => packTB 0x24 (if n then 2 else 0) d a b
  | .fmax n d a b => packTB 0x24 (if n then 3 else 1) d a b
  | .fcmp c d a b => packTB 0x25 c.code (wide7 d) a b
  | .fabs d a => [packT 0x26 0 d a 0]
  | .fneg d a => [packT 0x26 1 d a 0]
  | .fcpys d a b => packTB 0x26 2 d a b
  | .frcp d a => [packT 0x27 0 d a 0]
  | .frsq d a => [packT 0x27 1 d a 0]
  | .fsqrt d a => [packT 0x27 2 d a 0]
  | .flog2 d a => [packT 0x27 3 d a 0]
  | .fexp2 d a => [packT 0x27 4 d a 0]
  | .fsin d a => [packT 0x27 5 d a 0]
  | .fcos d a => [packT 0x27 6 d a 0]
  | .ftanh d a => [packT 0x27 7 d a 0]
  | .padd2 f d a b => packTB 0x28 (if f then 1 else 0) d a b
  | .pmul2 f d a b => packTB 0x29 (if f then 1 else 0) d a b
  | .pfma2 f d a b => packTB 0x2A (if f then 1 else 0) d a b
  | .fcvt m s d a => [packT 0x2B m.code d a s.code]
  | .fcvts f d a b => packTB 0x2C f.code d a b
  | .qcvt q h n d a => [packT 0x2D (q.code ++ bit h ++ bit n) d a 0]
  | .qamax n d a => [packT 0x2E (if n then 1 else 0) d a 0]
  | .vqdec n d a => [packT 0x2F (n.setWidth 4) d a 0]
  | .shfl w m d a b => packTB 0x30 (w.code ++ m.code) d a b
  | .voteAny d a => [packT 0x31 0 (wide7 d) (wide7 a) 0]
  | .voteAll d a => [packT 0x31 1 (wide7 d) (wide7 a) 0]
  | .voteBallot d a => [packT 0x31 2 d (wide7 a) 0]
  | .voteCount d a => [packT 0x31 3 d (wide7 a) 0]
  | .reduce o d a b => packTP 0x32 o.code d a b
  | .scan e o d a b => packTP 0x33 (bit e ++ bit false ++ o.code) d a b
  | .envrd d i => [packU 0x34 d i]
  | .elect d => [packT 0x35 0 (wide7 d) 0 0]
  | .bra .always o => [packB 0x38 0 0 o]
  | .bra (.ifTrue p) o => [packB 0x38 1 (wide7 p) o]
  | .bra (.ifFalse p) o => [packB 0x38 2 (wide7 p) o]
  | .jmp o => [packJ 0x39 o]
  | .call o => [packJ 0x3A o]
  | .jmpi a => [packT 0x3B 0 0 a 0]
  | .calli d a => [packT 0x3B 1 d a 0]
  | .nop => [packT 0x3C 0 0 0 0]
  | .ret a => [packT 0x3C 1 0 a 0]
  | .exit => [packT 0x3C 2 0 0 0]
  | .yield => [packT 0x3C 3 0 0 0]
  | .enrol k => [packT 0x3D 0 0 (wide7 k) 0]
  | .join k => [packT 0x3D 1 0 (wide7 k) 0]
  | .leave k => [packT 0x3D 2 0 (wide7 k) 0]
  | .brp c p o => [packB 0x3E (if c then 0 else 1) p o]
  | .wbase n => [packT 0x3F 0 0 0 n]
  | .vfree a n => [packT 0x3F 1 0 a n]
  | .regroup => [packT 0x3F 2 0 0 0]
  | .pend a => [packT 0x3F 3 0 a 0]
  | .ld q z d a b => packTB 0x40 (if q then z.code ||| 8 else z.code) d a b
  | .st q z d a b => packTB 0x41 (if q then z.code ||| 8 else z.code) d a b
  | .lds z d a b => packTB 0x42 z.code d a b
  | .sts z d a b => packTB 0x43 z.code d a b
  | .ldu z d a b => packTB 0x44 z.code d a b
  | .atom op nr w o sc d a b => [packT 0x45 op.code d a b, secondWord nr w o sc]
  | .cas w o sc d a b => [packT 0x46 0 d a b, secondWord false w o sc]
  | .fenceAcq sc => [packT 0x47 sc.code 0 0 0]
  | .fenceRel sc => [packT 0x47 sc.code 1 0 0]
  | .fenceFull sc => [packT 0x47 sc.code 2 0 0]
  | .fenceAsync sc => [packT 0x47 sc.code 3 0 0]
  | .icinv sc => [packT 0x48 sc.code 0 0 0]
  | .cctlWb a b => packTB 0x49 0 0 a b
  | .cctlInv a b => packTB 0x49 1 0 a b
  | .cctlWbinv a b => packTB 0x49 2 0 a b
  | .fetch d a b => [packT 0x50 0 d a b]
  | .fqry d a s => [packT 0x51 0 d a s]
  | .tex d a b => [packT 0x52 0 d a b]
  | .rngkey a => [packT 0x53 0 0 a 0]
  | .rng d a => [packT 0x54 0 d a 0]
  | .rmask d a b => packTB 0x55 0 (wide7 d) a b
  | .cpy a => [packT 0x58 0 0 a 0]
  | .chain a => [packT 0x59 0 0 a 0]
  | .sacqFree d r => [packT 0x5A 0 d 0 (wide7 r)]
  | .sacqFilled d r => [packT 0x5A 1 d 0 (wide7 r)]
  | .spub a r => [packT 0x5B 0 0 a (wide7 r)]
  | .sfree a r => [packT 0x5C 0 0 a (wide7 r)]
  | .coll a => [packT 0x5D 0 0 a 0]
  | .mma s f d a b => [packT 0x60 (bit s ++ f.code) (wide7 d) (wide7 a) b]
  | .mmasp s f d a b => [packT 0x61 (bit s ++ f.code) (wide7 d) (wide7 a) b]
  | .conv d a b => [packT 0x62 0 (wide7 d) a b]
  | .scacc d a b => [packT 0x63 0 (wide7 d) (wide7 a) b]
  | .aclr d b => packTB 0x64 0 (wide7 d) 0 b
  | .ald d a b => packTB 0x64 1 (wide7 d) a b
  | .astFp32 d a => [packT 0x64 2 (wide7 d) a 0]
  | .astBf16 d a => [packT 0x64 3 (wide7 d) a 0]
  | .tld d a b => packTB 0x65 0 (wide7 d) a b
  | .oprdy => [packT 0x66 0 0 0 0]
  | .mwait d => [packT 0x67 0 (wide7 d) 0 0]
  | .spawn a b => packTB 0x68 0 0 a b
  | .enq d a => [packT 0x69 0 d a 0]
  | .deq bl d a => [packT 0x6A (if bl then 1 else 0) d a 0]
  | .depset d a b => packTB 0x6B 0 d a b
  | .depdec d b => packTB 0x6B 1 d 0 b
  | .depadd d b => packTB 0x6B 2 d 0 b
  | .cmbopen bl d a => [packT 0x6C (if bl then 1 else 0) d a 0]
  | .cmbput d a => [packT 0x6D 0 d a 0]
  | .cmbstat d a => [packT 0x6E 0 d a 0]
  | .cmbclose a => [packT 0x6E 1 0 a 0]
  | .cmbcancel a => [packT 0x6E 2 0 a 0]
  | .binflush => [packT 0x6F 0 0 0 0]
  | .trace c y d a b => [packT 0x70 (bit false ++ c.code ++ bit y) d a b]
  | .hitget d a b => packTB 0x71 0 d a b
  | .vapp d a b => packTB 0x72 0 d a b
  | .vconn d a b => packTB 0x73 0 d a b
  | .vmrg d a b => packTB 0x74 0 d a b
  | .vmrq d a b => packTB 0x75 0 d a b
  | .vrwtConn d a b => packTB 0x76 0 d a b
  | .vrwtMrg d a b => packTB 0x76 1 d a b
  | .fopen a => [packT 0x77 0 0 a 0]
  | .fclose a => [packT 0x77 1 0 a 0]
  | .eseal a => [packT 0x77 2 0 a 0]
  | .vret a => [packT 0x77 3 0 a 0]
  | .vget d a b => packTB 0x77 4 d a b
  | .trap c => [packU 0x78 0 c]
  | .sysrd d x => [packSys 0x79 d 0 x]
  | .syswrTrapbase a => [packSys 0x7A 0 a 0x010]
  | .syswrLattice n a => [packSys 0x7A 0 a (0x020 ||| n.setWidth 11)]
  | .regionstatClearRegion a => [packSys 0x7A 0 a 0x030]
  | .regionstatClearOvf a => [packSys 0x7A 0 a 0x030]
  | .syswrPerfctl a => [packSys 0x7A 0 a 0x040]
  | .syswrPerfcnt n a => [packSys 0x7A 0 a (0x041 + n.setWidth 11)]
  | .syswrWschedcfg a => [packSys 0x7A 0 a 0x050]
  | .syswrDetsel a => [packSys 0x7A 0 a 0x060]
  | .syswrOther x a => [packSys 0x7A 0 a x]
  | .ordb => [packT 0x7B 0 0 0 0]
  | .orde => [packT 0x7B 1 0 0 0]
  | .pxw a => [packT 0x7C 0 0 a 0]
  | .resume a => [packT 0x7D 0 0 a 0]
  | .bkpt t => [packT 0x7E 0 0 0 t]
  | .illegalWord w => [w]
  | _ => []

end Sys2Proof
end

