-- ==== Sys2Proof/Config.lean ====
section
/-!
DEFINITION. What the part fixes once (Table 0.1, R121, R168) and the FREE VALUES: opaque constants without a body,
of which no proof can learn a value (R8: an undefined value is any bit pattern).
-/

namespace Sys2Proof.Config

/-- The build tag of the IH640-A (R121). -/
def buildTag : Word := 0x06400A01

/-- Enabled cores on a die (R1). -/
def coresPerDie : Nat := 160

/-- Enabled cores of the device. -/
def cores : Nat := 640

/-- Group slots of a core (R3). -/
def slotsPerCore : Nat := 64

/-- Capacity of a core's TLB (R165). -/
def tlbEntries : Nat := 2048

/-- Capacity of a core's copy-engine queue (R334). -/
def copyQueue : Nat := 64

/-- Lost regions the region-status table holds (R182). -/
def lostRegions : Nat := 2048

/-- An undefined value (R8), drawn at a place of the run that no other draw has. Log 2. -/
opaque freeValue : Nat → DWord

/-- The byte of a scratchpad slice that nothing has written since its team started (R168). Log 3. -/
opaque freeByte : Nat → Nat → Byte

/-- FLOG2 where R158 and R159 fix no exact result. Log 15. -/
opaque flog2 : Word → Word

/-- FEXP2 where R158 and R159 fix no exact result. Log 15. -/
opaque fexp2 : Word → Word

/-- FSIN where R158 and R159 fix no exact result. Log 15. -/
opaque fsin : Word → Word

/-- FCOS where R158 and R159 fix no exact result. Log 15. -/
opaque fcos : Word → Word

/-- FTANH where R158 and R159 fix no exact result. Log 15. -/
opaque ftanh : Word → Word

/-- Whether the host's root port completes AtomicOps (R184). Log 21. -/
opaque rootAtomics : Bool

/-- Whether the host's root port completes CAS (R184). Log 21. -/
opaque rootCas : Bool

/-- The offset of the capability after the Epindic DVSEC (R445). Log 55. -/
opaque nextCapability : BitVec 12

/-- The revision byte of a link function's configuration space, of which R11 says nothing. Log 55. -/
opaque revision : Byte

/-- Correctable errors of a part above which the image calls it worn (R308). Log 40. -/
opaque errorLimit : Nat

end Sys2Proof.Config
end

