-- ==== Sys2Proof/Machine/Tab.lean ====
section
/-!
DEFINITION. A table of plain data by a numeric key, sorted by key: memory, register files and every other sparse
collection of the state is one.
-/

namespace Sys2Proof.Machine

/-- A table from keys to entries. -/
abbrev Tab (α : Type) := List (Nat × α)

/-- The entry at a key. -/
def tabGet {α : Type} : Tab α → Nat → Option α
  | [], _ => none
  | (k, v) :: t, n => if n = k then some v else tabGet t n

/-- The table with an entry at a key, in key order. -/
def tabSet {α : Type} : Tab α → Nat → α → Tab α
  | [], n, v => [(n, v)]
  | (k, w) :: t, n, v =>
    if n < k then (n, v) :: (k, w) :: t
    else if n = k then (n, v) :: t
    else (k, w) :: tabSet t n v

/-- The table without the entry at a key. -/
def tabDel {α : Type} : Tab α → Nat → Tab α
  | [], _ => []
  | (k, w) :: t, n => if n = k then tabDel t n else (k, w) :: tabDel t n

/-- The entry at a key, or a default. -/
def tabGetD {α : Type} (t : Tab α) (n : Nat) (d : α) : α := (tabGet t n).getD d

/-- The table with the entry at a key changed, if there is one. -/
def tabMod {α : Type} (t : Tab α) (n : Nat) (f : α → α) : Tab α :=
  match tabGet t n with
  | some v => tabSet t n (f v)
  | none => t

/-- Every entry changed. -/
def tabMap {α : Type} (t : Tab α) (f : Nat → α → α) : Tab α := t.map fun e => (e.1, f e.1 e.2)

/-- A key greater than every key of the table. -/
def tabNext {α : Type} (t : Tab α) : Nat := t.foldl (fun m e => max m (e.1 + 1)) 0

/-- The canonical form: keys strictly rising. -/
def tabSorted {α : Type} : Tab α → Bool
  | [] => true
  | [_] => true
  | (k, _) :: (l, w) :: t => decide (k < l) && tabSorted ((l, w) :: t)

/-- The numbers below `n`, rising. -/
def upto (n : Nat) : List Nat := List.range n

end Sys2Proof.Machine
end

