-- ==== Sys2Proof/Machine/Num.lean ====
section
/-!
DEFINITION. Number formats and exact arithmetic (06, R142-R159): values are exact dyadics `m × 2^e`, rounded once by
`round`. Integer helpers for 32-bit and 64-bit patterns stand here too.
-/

namespace Sys2Proof.Machine

/-! ### Bit patterns -/

/-- Bits `[lo + n - 1 : lo]` of a natural number. -/
def bits (x lo n : Nat) : Nat := x / 2 ^ lo % 2 ^ n

/-- One bit of a natural number. -/
def bitAt (x i : Nat) : Bool := x / 2 ^ i % 2 == 1

/-- The value of an `n`-bit pattern read as two's complement. -/
def signedOf (n x : Nat) : Int := if x % 2 ^ n < 2 ^ (n - 1) then (x % 2 ^ n : Nat) else (x % 2 ^ n : Nat) - (2 ^ n : Nat)

/-- The `n`-bit pattern of an integer, modulo 2^n. -/
def wrap (n : Nat) (x : Int) : Nat := (x % (2 ^ n : Nat)).toNat

/-- The little-endian value of bytes. -/
def leNat : List Byte → Nat
  | [] => 0
  | b :: r => b.toNat + 256 * leNat r

/-- The `n` little-endian bytes of a value. -/
def leBytes : Nat → Nat → List Byte
  | 0, _ => []
  | n + 1, x => BitVec.ofNat 8 x :: leBytes n (x / 256)

/-- The number of ones among the low `n` bits. -/
def popcount : Nat → Nat → Nat
  | 0, _ => 0
  | n + 1, x => x % 2 + popcount n (x / 2)

/-- A word of a natural number. -/
def w32 (x : Nat) : Word := BitVec.ofNat 32 x

/-- A pair of registers as one value, the lower register the low half. -/
def pairNat (lo hi : Word) : Nat := lo.toNat + 2 ^ 32 * hi.toNat

/-- The two words of a 64-bit value. -/
def pairWords (x : Nat) : List Word := [w32 x, w32 (x / 2 ^ 32)]

/-! ### Exact values -/

/-- A number of the exact arithmetic: NaN, an infinity, or `± m × 2^e` (the sign is kept for zero). -/
inductive Val where
  | nan
  | inf (neg : Bool)
  | fin (neg : Bool) (m : Nat) (e : Int)
  deriving DecidableEq, Repr

/-- A binary floating-point format (Table 6.1). -/
structure Fmt where
  ebits : Nat
  mbits : Nat
  bias : Int
  hasInf : Bool
  deriving DecidableEq, Repr

/-- IEEE 754 binary32. -/
def fp32 : Fmt := ⟨8, 23, 127, true⟩
/-- IEEE 754 binary16. -/
def fp16 : Fmt := ⟨5, 10, 15, true⟩
/-- BF16. -/
def bf16 : Fmt := ⟨8, 7, 127, true⟩
/-- E4M3: no infinity, NaN only at S.1111.111. -/
def fp8e4 : Fmt := ⟨4, 3, 7, false⟩
/-- E5M2. -/
def fp8e5 : Fmt := ⟨5, 2, 15, true⟩

/-- The width of a format. -/
def Fmt.width (f : Fmt) : Nat := 1 + f.ebits + f.mbits

/-- The canonical NaN of a format (Table 6.1). -/
def Fmt.nan (f : Fmt) : Nat :=
  if f.hasInf then (2 ^ f.ebits - 1) * 2 ^ f.mbits + 2 ^ (f.mbits - 1) else 2 ^ (f.ebits + f.mbits) - 1

/-- The magnitude bits of infinity, or of the largest finite value where the format has none. -/
def Fmt.infBits (f : Fmt) : Nat :=
  if f.hasInf then (2 ^ f.ebits - 1) * 2 ^ f.mbits else 2 ^ (f.ebits + f.mbits) - 2

/-- The magnitude bits of the largest finite value. -/
def Fmt.maxBits (f : Fmt) : Nat :=
  if f.hasInf then (2 ^ f.ebits - 1) * 2 ^ f.mbits - 1 else 2 ^ (f.ebits + f.mbits) - 2

/-- The value of a bit pattern (R142). -/
def Fmt.decode (f : Fmt) (x : Nat) : Val :=
  let s := bitAt x (f.ebits + f.mbits)
  let e := bits x f.mbits f.ebits
  let m := bits x 0 f.mbits
  if f.hasInf && e == 2 ^ f.ebits - 1 then
    if m = 0 then .inf s else .nan
  else if !f.hasInf && e == 2 ^ f.ebits - 1 && m == 2 ^ f.mbits - 1 then .nan
  else if e = 0 then .fin s m (1 - f.bias - f.mbits)
  else .fin s (m + 2 ^ f.mbits) ((e : Int) - f.bias - f.mbits)

/-- A sign bit in its place. -/
def Fmt.signed (f : Fmt) (neg : Bool) (x : Nat) : Nat := if neg then x + 2 ^ (f.ebits + f.mbits) else x

/-- `floor(log2 (m × 2^e))` of a non-zero magnitude. -/
def log2Of (m : Nat) (e : Int) : Int := (Nat.log2 m : Int) + e

/-- A magnitude over a spacing `2^q`: the grid count below, the remainder and its divisor's exponent. -/
def splitAt (m : Nat) (e q : Int) : Nat × Nat × Nat :=
  if q ≤ e then (m * 2 ^ (e - q).toNat, 0, 0)
  else
    let sh := (q - e).toNat
    (m / 2 ^ sh, m % 2 ^ sh, sh)

/-- Table 6.3 between `lo` and `hi`: whether the upper neighbour is taken. -/
def takesHi (mode : RMode) (neg : Bool) (lo rem sh : Nat) : Bool :=
  if rem = 0 then false
  else
    match mode with
    | .rne => decide (2 ^ sh < 2 * rem) || (2 * rem == 2 ^ sh && lo % 2 == 1)
    | .rna => decide (2 ^ sh ≤ 2 * rem)
    | .rtz => false
    | .rup => !neg
    | .rdn => neg

/-- Overflow results of Table 6.3. -/
def overflowBits (f : Fmt) (mode : RMode) (neg : Bool) : Nat :=
  match mode with
  | .rne | .rna => f.infBits
  | .rtz => f.maxBits
  | .rup => if neg then f.maxBits else f.infBits
  | .rdn => if neg then f.infBits else f.maxBits

/-- The spacing exponent of a format's grid about a magnitude (R147). -/
def Fmt.spacing (f : Fmt) (m : Nat) (e : Int) : Int := max (log2Of m e - f.mbits) (1 - f.bias - f.mbits)

/-- The magnitude bits of `n` grid steps of `2^q`, or none where they pass the largest finite value. -/
def Fmt.pack (f : Fmt) (n : Nat) (q : Int) : Option Nat :=
  let (n, q) := if 2 ^ (f.mbits + 1) ≤ n then (n / 2, q + 1) else (n, q)
  let x : Nat :=
    if n < 2 ^ f.mbits then n
    else (q + f.mbits + f.bias).toNat * 2 ^ f.mbits + (n - 2 ^ f.mbits)
  if x ≤ f.maxBits then some x else none

/-- `Round(fmt, mode, x)` (R147) for the floating-point formats. -/
def Fmt.round (f : Fmt) (mode : RMode) : Val → Nat
  | .nan => f.nan
  | .inf s => f.signed s f.infBits
  | .fin s m e =>
    if m = 0 then f.signed s 0
    else
      let q := f.spacing m e
      let (lo, rem, sh) := splitAt m e q
      let n := if takesHi mode s lo rem sh then lo + 1 else lo
      f.signed s ((f.pack n q).getD (overflowBits f mode s))

/-- Whether a value lies on a format's grid, so that stochastic rounding draws no bits (R148). -/
def Fmt.exact (f : Fmt) : Val → Bool
  | .fin _ m e => m == 0 || (splitAt m e (f.spacing m e)).2.1 == 0
  | _ => true

/-- Stochastic rounding with 16 random bits (R148). -/
def Fmt.roundSr (f : Fmt) (r : Nat) : Val → Nat
  | .nan => f.nan
  | .inf s => f.signed s f.infBits
  | .fin s m e =>
    if m = 0 then f.signed s 0
    else
      let q := f.spacing m e
      let (lo, rem, sh) := splitAt m e q
      let frac := rem * 2 ^ 16 / 2 ^ sh
      let n := if rem != 0 && decide (2 ^ 16 ≤ frac + r) then lo + 1 else lo
      f.signed s ((f.pack n q).getD f.infBits)

/-- A value rounded to an integer by mode; infinities and NaN are left to the caller. -/
def roundInt (mode : RMode) (neg : Bool) (m : Nat) (e : Int) : Int :=
  let (lo, rem, sh) := splitAt m e 0
  let n := if takesHi mode neg lo rem sh then lo + 1 else lo
  if neg then -(n : Int) else n

/-- Round to an integer format with bounds (R147): NaN gives 0, infinities lie beyond every bound. -/
def roundClamp (mode : RMode) (lo hi : Int) : Val → Int
  | .nan => 0
  | .inf s => if s then lo else hi
  | .fin s m e => max lo (min hi (roundInt mode s m e))

/-- The value of an integer. -/
def Val.ofInt (x : Int) : Val := .fin (decide (x < 0)) x.natAbs 0

/-- The signed multiple of `2^q` that a finite value is, floored (R151). -/
def floorTo (s : Bool) (m : Nat) (e q : Int) : Int :=
  let x : Int := if s then -(m : Int) else m
  if q ≤ e then x * (2 ^ (e - q).toNat : Nat) else x / (2 ^ (q - e).toNat : Nat)

/-- The value with sign and magnitude `x × 2^e`. -/
def Val.scaled (x : Int) (e : Int) : Val := .fin (decide (x < 0)) x.natAbs e

/-- The negated value. -/
def Val.neg : Val → Val
  | .nan => .nan
  | .inf s => .inf (!s)
  | .fin s m e => .fin (!s) m e

/-- The exact sum; an exact zero takes the sign R147 gives under the mode. -/
def Val.add (mode : RMode) (a b : Val) : Val :=
  match a, b with
  | .nan, _ | _, .nan => .nan
  | .inf s, .inf t => if s = t then .inf s else .nan
  | .inf s, _ => .inf s
  | _, .inf t => .inf t
  | .fin s m e, .fin t n f =>
    let q := min e f
    let x := floorTo s m e q + floorTo t n f q
    if x = 0 then .fin (if m == 0 && n == 0 && s == t then s else mode == .rdn) 0 0 else .scaled x q

/-- The exact product. -/
def Val.mul (a b : Val) : Val :=
  match a, b with
  | .nan, _ | _, .nan => .nan
  | .inf s, .inf t => .inf (s != t)
  | .inf s, .fin t n _ => if n = 0 then .nan else .inf (s != t)
  | .fin s m _, .inf t => if m = 0 then .nan else .inf (s != t)
  | .fin s m e, .fin t n f => .fin (s != t) (m * n) (e + f)

/-- Whether a value is a zero. -/
def Val.isZero : Val → Bool
  | .fin _ m _ => m == 0
  | _ => false

/-- Whether a value is NaN. -/
def Val.isNan (a : Val) : Bool := a == .nan

/-- `a < b` of two values that are not NaN; zeros of either sign are equal. -/
def Val.lt (a b : Val) : Bool :=
  match a, b with
  | .nan, _ | _, .nan => false
  | .inf s, .inf t => s && !t
  | .inf s, _ => s
  | _, .inf t => !t
  | .fin s m e, .fin t n f =>
    let q := min e f
    decide (floorTo s m e q < floorTo t n f q)

/-- `a = b` of two values that are not NaN. -/
def Val.eqv (a b : Val) : Bool := !a.isNan && !b.isNan && !a.lt b && !b.lt a

/-- The sign of a value. -/
def Val.isNeg : Val → Bool
  | .nan => false
  | .inf s => s
  | .fin s _ _ => s

/-! ### The matrix accumulation rule -/

/-- A product of the matrix rule: a zero factor gives +0 (R151). -/
def matMul (a b : Val) : Val := if a.isZero || b.isZero then .fin false 0 0 else a.mul b

/-- The greatest `floor(log2 |t|)` of the finite non-zero terms. -/
def maxExp : List Val → Option Int
  | [] => none
  | .fin _ m e :: r =>
    if m = 0 then maxExp r
    else
      match maxExp r with
      | none => some (log2Of m e)
      | some x => some (max (log2Of m e) x)
  | _ :: r => maxExp r

/-- The truncated sum in units of `2^q` and the sticky bit (R151). -/
def windowSum (q : Int) : List Val → Int × Bool
  | [] => (0, false)
  | .fin s m e :: r =>
    let (x, y) := windowSum q r
    let t := floorTo s m e q
    (t + x, y || (decide (e < q) && m % 2 ^ (q - e).toNat != 0))
  | _ :: r => windowSum q r

/-- The sum of `MatrixSum(terms)` before its rounding, with its sticky term (R151). -/
def matrixExact (ts : List Val) : Val :=
  let pos := ts.any (· == .inf false)
  let neg := ts.any (· == .inf true)
  if ts.any (· == .nan) || (pos && neg) then .nan
  else if pos then .inf false
  else if neg then .inf true
  else
    match maxExp ts with
    | none => .fin false 0 0
    | some E =>
      let q := E - 124
      let (x, sticky) := windowSum q ts
      if x = 0 && !sticky then .fin false 0 0
      else .scaled (if sticky then 4 * x + 1 else 4 * x) (q - 2)

/-- `MatrixSum(terms)` (R151), as FP32 bits. -/
def matrixSum (ts : List Val) : Nat := fp32.round .rne (matrixExact ts)

/-- E8M0 (Table 6.2). -/
def e8m0 (x : Nat) : Val := if x % 256 = 255 then .nan else .fin false 1 ((x % 256 : Nat) - 127)

/-! ### Square roots and reciprocals, with a sticky bit below the last place -/

/-- `floor (sqrt n)` for `n < 2^(2k)`. -/
def isqrt : Nat → Nat → Nat → Nat
  | 0, _, r => r
  | k + 1, n, r => if (r + 2 ^ k) * (r + 2 ^ k) ≤ n then isqrt k n (r + 2 ^ k) else isqrt k n r

/-- A truncated magnitude with a sticky bit under it. -/
def stickyVal (neg : Bool) (x : Nat) (exact : Bool) (e : Int) : Val :=
  .fin neg (2 * x + (if exact then 0 else 1)) (e - 1)

/-- `1 ÷ x` of a finite non-zero value. -/
def recipVal (s : Bool) (m : Nat) (e : Int) : Val :=
  let k := Nat.log2 m + 64
  stickyVal s (2 ^ k / m) (2 ^ k % m == 0) (-(k : Int) - e)

/-- `a ÷ b` of FP32 values, to be rounded once (IEEE 754). -/
def divVal (a b : Val) : Val :=
  match a, b with
  | .nan, _ | _, .nan => .nan
  | .inf _, .inf _ => .nan
  | .inf s, .fin t _ _ => .inf (s != t)
  | .fin s _ _, .inf t => .fin (s != t) 0 0
  | .fin s m e, .fin t n f =>
    if n = 0 then (if m = 0 then .nan else .inf (s != t))
    else
      let k := Nat.log2 n + 64
      stickyVal (s != t) (m * 2 ^ k / n) (m * 2 ^ k % n == 0) (e - f - (k : Int))

/-- `sqrt x` of a positive finite value. -/
def sqrtVal (m : Nat) (e : Int) : Val :=
  let (m, e) := if e % 2 = 0 then (m, e) else (2 * m, e - 1)
  let n := m * 2 ^ 64
  let r := isqrt 48 n 0
  stickyVal false r (r * r == n) (e / 2 - 32)

/-- `1 ÷ sqrt x` of a positive finite value. -/
def rsqrtVal (m : Nat) (e : Int) : Val :=
  let (m, e) := if e % 2 = 0 then (m, e) else (2 * m, e - 1)
  let r := isqrt 60 (2 ^ 112 / m) 0
  stickyVal false r (r * r * m == 2 ^ 112) (-(e / 2) - 56)

/-! ### Random bits (R149) -/

/-- The mixing function. -/
def mix64 (x : DWord) : DWord :=
  let x := x ^^^ (x >>> 31)
  let x := x * 0xB5E24163A4D239C5
  let x := x ^^^ (x >>> 29)
  let x := x * 0x8C3F6D29E51704AB
  x ^^^ (x >>> 32)

/-- `Key(seed, stream)`. -/
def rngKeyOf (seed : DWord) (stream : Word) : DWord := mix64 (seed ^^^ mix64 (stream.setWidth 64))

/-- `Block(K, c)`. -/
def rngBlock (k c : DWord) : DWord := mix64 (mix64 (k + c) ^^^ k)

/-- `Draw(K, c, j)`. -/
def rngDraw (k c : DWord) (j : Nat) : Nat := bits (rngBlock k c).toNat (16 * (j % 4)) 16

/-! ### VQ2 (R144) -/

/-- The eight weights of a VQ2 index, as exact values, through a lattice table. -/
def vq2Weights (table : List (BitVec 16)) (x : Nat) : List Val :=
  let entry := ((table[bits x 7 9]?).getD 0).toNat
  (upto 8).map fun c =>
    let neg := if c < 7 then bitAt x c else popcount 7 (bits x 0 7) % 2 == 1
    .fin neg (2 * bits entry (2 * c) 2 + 1) (-1)

end Sys2Proof.Machine
end

