-- ==== Sys2Proof/Machine/State.lean ====
section
/-!
DEFINITION. The state of the part, all of it plain data: what INVENTORY.md lists under State. Registers, memory and every
other collection are tables by key (`Tab`). `State.reset` is the part after a device reset (R16).
-/

namespace Sys2Proof.Machine

/-- Why the model stops. -/
inductive Fault where
  /-- An instruction word was given to `exec` with no issue set in focus. Raised by every meaning of an instruction
  word. Safe: the part issues a word only for an issue set (R43). -/
  | noIssueSet
  /-- A step of the device was asked for in a state in which it does not occur. Raised by the meanings of device steps.
  Safe: the part does not make that step there. -/
  | notEnabled
  deriving DecidableEq, Repr

/-- What the model has no meaning for. -/
inductive Refusal where
  /-- An instruction without a meaning, by its mnemonic. Raised by no arm of a complete model. Safe. -/
  | notModelled (mnemonic : String)
  deriving DecidableEq, Repr

/-- The outcome of a step of this machine. -/
abbrev Out (σ : Type) := Host.Outcome σ Fault Refusal

/-- Trap causes (Table 9.1). -/
inductive Cause where
  | illegal | privilege | misaligned | notPresent | permission | regionLost | hostAtomic | residualFull | determinism
  | software | breakpoint | role | order | vgraph | combine
  deriving DecidableEq, Repr

/-- A register by its architectural number. -/
inductive PReg where
  | v (n : Nat)
  | s (n : Nat)
  | p (n : Nat)
  deriving DecidableEq, Repr

/-- An operand of a closure: a value copied at capture, or the tag of a pending one (R105). -/
inductive Src where
  | ready (w : Word)
  | tag (t : Nat)
  deriving DecidableEq, Repr

/-- Where bytes of an access lie: physical memory, or a slice of a team's scratchpad. -/
inductive Loc where
  | phys (pa : Nat)
  | spad (team slice ofs : Nat)
  deriving DecidableEq, Repr

/-- Why a lane issues nothing: `retry` waits to issue its word again, `ring` does so for its turn at a queue or a Cooperage's table, `copy`
waits for a lattice copy. -/
inductive Park where
  | none
  | retry
  | ring
  | join (k : Nat)
  | stand
  | flush
  | copy
  deriving DecidableEq, Repr

/-- The fragment of a thread of a KIND 3 grid (R273). -/
structure Frag where
  x : Nat
  y : Nat
  num : Nat
  deriving DecidableEq, Repr

/-- A thread in its lane slot (R35). -/
structure Lane where
  /-- Finished by EXIT. -/
  fin : Bool := false
  pc : DWord := 0
  /-- The header of the clause the thread is in or at, and the header word it passed. -/
  hdr : DWord := 0
  hword : Word := 0
  inBody : Bool := false
  /-- The words of the body as fetched with its header; none where a word could not be fetched then (R140). -/
  body : List (Option Word) := []
  /-- The issue set the thread belongs to inside a body (R44). -/
  set : Nat := 0
  park : Park := .none
  /-- The clock at which the thread last issued or parked. -/
  stamp : Nat := 0
  wb : Nat := 0
  /-- Live vector registers, by architectural number. -/
  regs : Tab Word := []
  /-- Live registers that hold physical entries, least recently used first (R93). -/
  resident : List Nat := []
  /-- Destination tags of pending vector registers (R102). -/
  pend : Tab Nat := []
  preds : BitVec 16 := 0
  ppend : Tab Nat := []
  /-- Completion flags that are not zero (R124). -/
  flags : Tab Nat := []
  /-- The thread index (R36), kept under REGROUP for the spawn index (R61). -/
  tix : Nat := 0
  frag : Option Frag := none
  /-- Inside an ordered section, or past it (R276). -/
  inSect : Bool := false
  sectDone : Bool := false
  spawnIdx : Nat := 0
  spawnSeq : Nat := 0
  /-- The idempotent region (R99-R101). -/
  rgnHdr : DWord := 0
  rgnWb : Nat := 0
  irrev : Bool := false
  rollbacks : Nat := 0
  /-- The TRAP or BKPT that a RESUME lets pass once. -/
  pass : Bool := false
  /-- Has stopped at the YIELD header that it stands at (R50). -/
  yielded : Bool := false
  deriving DecidableEq, Repr

/-- A group suspended at a trap (R203-R210). -/
structure Trapped where
  deferred : Bool := false
  /-- Each faulting lane with its cause and address. -/
  faults : List (Nat × Cause × Nat) := []
  pc : DWord := 0
  hdr : DWord := 0
  dst : Nat := 0xFFFF
  /-- TRAPBASE as the trap was raised (R427). -/
  base : DWord := 0
  /-- The record taken, by its key. -/
  record : Option Nat := none
  /-- The word at 0x018 as written. -/
  written : DWord := 0
  /-- A RESUME completed while the group was saved. -/
  resumed : Option (Option DWord) := none
  deriving DecidableEq, Repr

/-- A lost access that a deferred-error trap is to report (R206). -/
structure LostAccess where
  lane : Nat
  addr : Nat
  hdr : DWord
  dst : Nat
  /-- The identity of the issue of the instruction. -/
  issue : Nat
  deriving DecidableEq, Repr

/-- A group in a group slot (R36). -/
structure Group where
  /-- Tells this group from earlier ones of its slot. -/
  uid : Nat := 0
  grid : Nat := 0
  team : Nat := 0
  gidx : Nat := 0
  role : Nat := 0
  sregs : Tab Word := []
  sresident : List Nat := []
  spend : Tab Nat := []
  barE : Tab (BitVec 32) := []
  barA : Tab (BitVec 32) := []
  lanes : Tab Lane := []
  /-- The running set under DET (R50). -/
  running : BitVec 32 := 0
  trap : Option Trapped := none
  lost : List LostAccess := []
  /-- Item count and pack number of a bin group (R59, R61). -/
  bin : Option (Nat × Nat) := none
  deriving DecidableEq, Repr

/-- An access or engine query that has issued and not completed (R126). -/
structure MemOp where
  g : Nat := 0
  uid : Nat := 0
  lane : Nat := 0
  /-- The lanes whose flag it counts on. -/
  lanes : List Nat := []
  dsts : List (PReg × Nat) := []
  vals : List Word := []
  flag : Option Nat := none
  /-- Physical bytes it reads, for a region lost meanwhile (R116). -/
  pa : Option (Nat × Nat) := none
  va : Nat := 0
  hdr : DWord := 0
  lost : Bool := false
  /-- A load of the thread (R185), and an LD.ACQ (R200). -/
  isLoad : Bool := false
  acq : Bool := false
  /-- An ICINV, which later releases of its lanes wait for (R140). -/
  icinv : Bool := false
  /-- The cores that an ICINV reaches (R372), and the grid that waits for it to end (R68). -/
  reach : List Nat := []
  grid : Nat := 0
  /-- Counts on SETB and completes by an engine. -/
  engine : Bool := false
  /-- A SHFL whose source lane is owed a write: the tag it takes its value from (R418). -/
  awaits : Option Nat := none
  /-- A remote CMBPUT that waits for its acknowledgement: peer, slot id, expert. -/
  remote : Option (Nat × Nat × Nat) := none
  ctx : Nat := 0
  issue : Nat := 0
  /-- The tags under which it writes no register any more, a younger write of the lanes' set having the register (R106, R384). -/
  stale : List Nat := []
  /-- When it was issued. -/
  since : Nat := 0
  deriving DecidableEq, Repr

/-- A page piece of an engine command: virtual address, physical address or slice place, bytes. -/
structure Piece where
  va : Nat
  loc : Loc
  len : Nat
  deriving DecidableEq, Repr

/-- What a residual does when it runs (R105, R108, R109); `read` is a read of the fetch unit (R200), with what it returns
if none of its bytes is stored to after a moment (R170), and `half` the access of a B128 store that is still to be made (R185). -/
inductive ResKind where
  | alu
  | store (loc : Loc) (size : Nat) (va : Nat) (rel : Bool)
  | atomic (loc : Loc) (va : Nat)
  | fence (full : Bool)
  | load (after : List Nat) (loc : Loc) (size : Nat) (va : Nat)
  | read (after : List Nat) (vals : List Word) (places : List Piece) (since : Nat)
  | half (loc : Loc) (va : Nat) (bytes : List Byte)
  deriving DecidableEq, Repr

/-- A residual closure or chain entry (R105, R108). -/
structure Resid where
  g : Nat
  lane : Nat
  /-- The lanes whose flag it counts on. -/
  lanes : List Nat := []
  ins : Instr
  kind : ResKind
  srcs : List Src := []
  dsts : List (PReg × Nat) := []
  flag : Option Nat := none
  hdr : DWord := 0
  issue : Nat := 0
  /-- What happens-before a release among the chain entries (R188). -/
  know : Tab Nat := []
  /-- As of an access. -/
  stale : List Nat := []
  deriving DecidableEq, Repr

/-- A stage ring of a team on a core (R176). Slot states: 0 EMPTY, 1 PRODUCING, 2 PUBLISHED, 3 FULL, 4 CONSUMING,
5 RELEASED. -/
structure Ring where
  n : Nat
  size : Nat
  ofs : Nat
  free : Nat
  filled : Nat := 0
  pi : Nat := 0
  ci : Nat := 0
  pc : Nat := 0
  fc : Nat := 0
  states : Tab Nat := []
  phases : Tab Bool := []
  deriving DecidableEq, Repr

/-- A tile (R231): rows of 64 bytes and their bitmaps. -/
structure Tile where
  rows : Nat := 0
  bytes : List Byte := []
  bitmap : List DWord := []
  /-- Bitmaps above element 63 of a row (VQ2). -/
  bitmapHi : List DWord := []
  deriving DecidableEq, Repr

/-- An accumulator: rows of 64 words. -/
structure Accum where
  rows : Nat := 0
  cells : List Word := []
  deriving DecidableEq, Repr

/-- A party to an ordering: a thread, and what the scopes of Table 8.1 look at, its group's threads among them for a GROUP scope; its grid;
or a unit of the device, which every die's instance contains (log 16). -/
structure Party where
  thread : Nat
  team : Nat
  core : Nat
  mates : List Nat := []
  grid : Nat := 0
  unit : Bool := false
  deriving DecidableEq, Repr

/-- A release (R188): who made it, its scope, and what happens-before it, as the last moment of each thread or engine. -/
structure Rel where
  party : Party
  scope : Scope
  know : Tab Nat
  deriving DecidableEq, Repr

/-- A thread's place in happens-before (R188): what happens-before its next operation; the releases whose writes it has read; its release
fences; the engine flags that its commands count on; what an MWAIT has waited for, by the flag it counts on: accumulator and moment; its
last FENCE.ASYNC or release of CORE scope or wider (R194); and when an entry of its chain last performed. -/
structure ThreadOrd where
  seen : Tab Nat := []
  read : List Rel := []
  fences : List (Scope × Tab Nat) := []
  cmds : List Nat := []
  waited : List (Nat × Nat × Nat) := []
  async : Option Nat := none
  acted : Nat := 0
  deriving DecidableEq, Repr

/-- A synchronising write, of an ATOM, a CAS or an ST.REL (R192, R193): when and by whom it was made, its scope, whether an atomic made it and
whether U takes that (R179), how many bytes; the value of the location before it, with the releases met there; and the threads and grids that
have read it, with the moment. -/
structure AtomWrite where
  time : Nat
  party : Party
  scope : Scope
  rmw : Bool := true
  merges : Bool
  size : Nat
  prev : Nat
  rels : List Rel := []
  readers : Tab Nat := []
  deriving DecidableEq, Repr

/-- What a thread's idempotent region has read before writing it, as runs of bytes of memory, and what it has written; whether it has written
what it had read first, and whether it has been rolled back (R99). -/
structure Region where
  regsRead : List PReg := []
  regsWrote : List PReg := []
  memRead : List (Loc × Nat) := []
  memWrote : List Piece := []
  broken : Bool := false
  back : Bool := false
  deriving DecidableEq, Repr

/-- What the model keeps of happens-before: by thread; the releases that a read of a byte of memory meets, valid while the byte's last store is of the
moment noted; the synchronising writes of a location since its last plain one, the last first; the releases that a ring slot, a queue slot, a section
or an epoch carries; the FENCE.FULLs performed, in order. -/
structure Order where
  threads : Tab ThreadOrd := []
  writes : Tab (Nat × List Rel) := []
  atoms : List (Loc × List AtomWrite) := []
  syncs : Tab (List Rel) := []
  fulls : List Rel := []
  /-- The idempotent regions, by thread (R99). -/
  regions : Tab Region := []
  deriving DecidableEq, Repr

/-- A byte of a slice that has been written: its value; the writes to it, the last first, each with its moment and the value before it, none
being the undefined value that the slice starts with; when and by which threads or engines it was last written; the releases that a read of it
meets; and the threads whose OPRDY has readied it for the matrix ports, with the moment (R237). -/
structure SByte where
  val : Byte
  past : List (Nat × Option Byte) := []
  wrote : Nat
  writers : List Nat := []
  rels : List Rel := []
  ready : Tab Nat := []
  deriving DecidableEq, Repr

/-- A team's slice on one core (R168, R176, R231). -/
structure Slice where
  bytes : Tab SByte := []
  /-- Names the undefined bytes the slice starts with. -/
  seed : Nat := 0
  rings : Tab Ring := []
  tiles : Tab Tile := []
  accs : Tab Accum := []
  /-- When the regroup timer started, if it runs (R53). -/
  timer : Option Nat := none
  deriving DecidableEq, Repr

/-- A spawned item: its entry, payload and place in the sort order of R61. -/
structure Item where
  entry : DWord
  payload : Word
  spawnIdx : Nat
  seq : Nat
  deriving DecidableEq, Repr

/-- The shadow run of a checked team (R223-R225). -/
structure Shadow where
  primary : Nat
  overlay : Tab Byte := []
  deriving DecidableEq, Repr

/-- A saved group, kept beside the bytes of its record (R215). -/
structure SavedGroup where
  slice : Nat
  group : Group
  deriving DecidableEq, Repr

/-- What a save keeps of a team (R214-R217). -/
structure Saved where
  groups : List SavedGroup
  records : List Nat
  bytes : Nat
  mode : Nat
  /-- The Drover restores the team by itself (R220, R222, R307), not the RESTORE service. -/
  auto : Bool
  deriving DecidableEq, Repr

/-- A team of a grid. -/
structure Team where
  grid : Nat
  tid : Nat
  /-- Physical cores of the slices, in slice order. -/
  cores : List Nat := []
  /-- Logical core of slice 0, under a map or DET. -/
  lcore : Nat := 0
  slices : Tab Slice := []
  groups : Nat := 0
  /-- The dynamic team of bin groups: of the grid, or of a parent under DET. -/
  dynamic : Bool := false
  parent : Option Nat := none
  /-- A handler team: the record it serves, by its key. -/
  handler : Option Nat := none
  /-- The team whose coordinates a handler's ENVRD returns. -/
  faulty : Nat := 0
  staging : List Item := []
  packs : Nat := 0
  /-- A save has been asked for; when. -/
  saving : Option Nat := none
  saveAuto : Bool := true
  saved : Option Saved := none
  /-- Checking: the digest, the shadow run, the peer team. -/
  checked : Bool := false
  digest : DWord := 0
  shadow : Option Shadow := none
  finished : Bool := false
  /-- When the team first started (R170). -/
  started : Nat := 0
  deriving DecidableEq, Repr

/-- A launch packet (Table 3.1). -/
structure Packet where
  kind : Nat := 1
  prio : Nat := 0
  flags : Nat := 0
  resid : Nat := 8
  entry : DWord := 0
  args : DWord := 0
  gx : Nat := 1
  gy : Nat := 1
  gz : Nat := 1
  teamSize : Nat := 32
  roles : List Nat := [1, 0, 0]
  vbud : List Nat := [32, 0, 0]
  ubud : Nat := 32
  spad : Nat := 0
  ringTab : Nat := 0
  map : DWord := 0
  signal : DWord := 0
  counter : Nat := 0xFFFFFFFF
  seed : DWord := 0
  handler : DWord := 0
  spill : DWord := 0
  watchdog : Nat := 0
  binTimer : Nat := 0
  raw : List Byte := []
  deriving DecidableEq, Repr

/-- A grid from its acceptance to its completion. -/
structure Grid where
  ctx : Nat
  id : Nat
  queue : Nat
  pkt : Packet
  /-- Rings of a team: id, slots, slot size, offset. -/
  rings : List (Nat × Nat × Nat × Nat) := []
  /-- Placement map: logical cores, and entries of first core and count. -/
  lc : Nat := 0
  entries : List (Nat × Nat) := []
  /-- Teams dealt or placed so far, and how many there are. -/
  dealt : Nat := 0
  teams : Nat := 1
  /-- Fragments of a KIND 3 grid, in order: triangle, x, y and the words v2-v5. -/
  frags : List (Nat × Nat × Nat × List Word) := []
  /-- The abort status (R211). -/
  abort : Option Nat := none
  /-- When the last progress event was (R212), once a team has started. -/
  progress : Option Nat := none
  /-- Saves that wait for ordered sections past 100 µs. -/
  sectWait : Bool := false
  /-- The WLOADs whose writes were held back when the packet was taken: pairs of a die that waits for one and its number (R171). -/
  wloads : List (Nat × Nat) := []
  /-- Victim cores picked by pre-emption, with the queue whose packet waited for them, and its grid once it has been taken. -/
  picked : List (Nat × Nat × Option Nat) := []
  /-- When they were picked, and since when the watchdog is suspended (R212, R219). -/
  pickedAt : Nat := 0
  paused : Option Nat := none
  started : Bool := false
  /-- When the grid first started on each core (R170). -/
  starts : Tab Nat := []
  /-- A marker, or a KIND 2 or KIND 4 packet, whose work is done. -/
  done : Bool := false
  /-- Completed, and kept while a shadow run of it goes on (R225). -/
  ended : Bool := false
  /-- Failed pixels of a reprojection. -/
  count : Nat := 0
  /-- When its packet was accepted, and the effective priority that it had then (R80). -/
  accepted : Nat := 0
  level : Nat := 0
  /-- What happens-before the grid's first instruction (R78), and what its threads that have exited had acquired besides (R68). -/
  know : Tab Nat := []
  gained : Tab Nat := []
  deriving DecidableEq, Repr

/-- A spawn bin of a core (R57). -/
structure Bin where
  grid : Nat
  team : Nat
  entry : DWord
  items : List Item := []
  closed : Bool := false
  timer : Nat := 0
  /-- The pack number, under DET (R61). -/
  pack : Nat := 0
  deriving DecidableEq, Repr

/-- A TLB entry (R165). -/
structure TlbEntry where
  ctx : Nat
  global : Bool
  vbase : Nat
  size : Nat
  pbase : Nat
  user : Bool
  ex : Bool
  wt : Bool
  rd : Bool
  weight : Bool
  deriving DecidableEq, Repr

/-- Whose command an engine holds: the set that issued it, the flag it counts on, its team. -/
structure Owner where
  g : Nat
  uid : Nat
  lanes : List Nat
  flag : Option Nat
  team : Nat
  /-- Its threads, and when FENCE.ASYNC or a release last came before the command (R194). -/
  threads : List Nat := []
  async : Option Nat := none
  deriving DecidableEq, Repr

/-- What the copy engine does (R244, R343). -/
inductive CopyWork where
  | copy (src dst : List Piece) (ring : Option Nat)
  | chain (record : List Byte) (src src2 dst : List Piece)
  deriving DecidableEq, Repr

/-- A command in a core's copy-engine queue (R334). -/
structure CopyCmd where
  id : Nat
  own : Owner
  work : CopyWork
  deriving DecidableEq, Repr

/-- A command in a core's matrix port (R236): its instruction, with the operands read at issue. -/
structure MatCmd where
  id : Nat
  own : Owner
  slice : Nat
  ins : Instr
  args : List Nat
  /-- The bytes of a CONV shape record (R240). -/
  record : List Byte := []
  /-- The lattice table of the command, as at issue. -/
  lat : List (BitVec 16) := []
  /-- When it was issued, and what happens-before that (R237). -/
  since : Nat
  know : Tab Nat := []
  /-- The accumulator of a command to which R195 applies, and the B-window bytes it reads: offsets and lengths. -/
  acc : Nat := 0
  window : List (Nat × Nat) := []
  /-- A pair command, and the follower's part of one (R236). -/
  pair : Bool := false
  follower : Bool := false
  /-- Of a completed command, for R195: whether its accumulator still holds its result and an MWAIT has waited for it; the commands whose results
  it drew on; the bytes of its slice that an AST wrote, as offset, length and moment. -/
  held : Bool := true
  done : Bool := false
  drew : List Nat := []
  put : Option (Nat × Nat × Nat) := none
  deriving DecidableEq, Repr

/-- A core (R3). -/
structure Core where
  tlb : List TlbEntry := []
  /-- Code and clause-map words in the instruction cache, by context and address (R140, R141). -/
  icache : Tab Word := []
  bins : Tab Bin := []
  copyq : List CopyCmd := []
  mport : List MatCmd := []
  /-- Commands that have completed and that no MWAIT has waited for, or that drew on such (R195). -/
  munwaited : List MatCmd := []
  /-- Performance counts by context × 8 + counter. -/
  perf : Tab DWord := []
  deque : List (Nat × Nat) := []
  quarantined : Bool := false
  deriving DecidableEq, Repr

/-- A registered image (R118). -/
structure Image where
  base : Nat
  words : Nat
  mapOfs : Nat
  hpe : Bool := false
  /-- Stream positions of the portable headers, by the code word of their clause's first piece (R218). -/
  pos : Tab Nat := []
  deriving DecidableEq, Repr

/-- Epoch states (Table 14.7). -/
inductive EpochSt where
  | free | opened | sealed | retiring
  deriving DecidableEq, Repr

/-- An epoch slot. -/
structure Epoch where
  st : EpochSt := .free
  /-- Light paths, and those of them retired. -/
  lights : Nat := 0
  lightsRetired : Nat := 0
  /-- Retired paths: path id and the order number of its VRET. -/
  retired : Tab Nat := []
  /-- What happens-before its VAPPs and, sealed, its ESEAL; and the chain entries before those VAPPs in program order that have not performed
  (R197). -/
  know : Tab Nat := []
  behind : List Nat := []
  deriving DecidableEq, Repr

/-- An open frame (R260). -/
structure Frame where
  bitmap : DWord
  append : Nat
  h2 : Word
  eta : Word
  /-- Its place in the Joinery's order, and the grid that opened it. -/
  opened : Nat
  opener : Nat
  deriving DecidableEq, Repr

/-- A vertex record (Table 14.5), as its sixteen words. -/
structure Vertex where
  words : List Word
  /-- Place in the Joinery's order. -/
  order : Nat
  deriving DecidableEq, Repr

/-- Combine slot states (R281). -/
inductive SlotSt where
  | opened | releasing
  deriving DecidableEq, Repr

/-- Why a slot is released (R288, R289). -/
inductive Release where
  | complete | timeout | closed | cancelled
  deriving DecidableEq, Repr

/-- A combine slot that is not FREE. -/
structure CSlot where
  st : SlotSt
  token : Word
  width : Nat
  experts : List Nat
  weights : List Word
  policy : Nat
  dest : Nat
  timeout : Nat
  ogroup : Nat
  fp32out : Bool
  fallback : Nat
  counter : Nat
  opener : Nat
  privileged : Bool
  arrived : Nat := 0
  staged : Tab (List Byte) := []
  /-- When it was opened (R290). -/
  since : Nat := 0
  timedOut : Bool := false
  reason : Option Release := none
  /-- The fallback or the destination could not be accessed (R288). -/
  fault : Bool := false
  subst : Nat := 0
  out : List Byte := []
  /-- Steps 1-3 of R196 are made; the record waits (R289). -/
  recordDue : Bool := false
  /-- What happens-before the CMBPUTs that have arrived (R196). -/
  know : Tab Nat := []
  deriving DecidableEq, Repr

/-- A record the Cooperage is to write (R289): the slot that waits on it, and its words but SEQ. -/
structure RelRec where
  slot : Option Nat
  token : Word
  id : Word
  info : Word
  /-- What happens-before the slot's release (R196). -/
  know : Tab Nat := []
  deriving DecidableEq, Repr

/-- A context's combine state on one die. -/
structure Cooper where
  /-- The base of the combine region; none where CTXSET has not set it (log 59). -/
  base : Option Nat := none
  bytes : Nat := 0x80000000
  gens : Tab Nat := []
  slots : Tab CSlot := []
  /-- Release queue: base, log2 of the records, control block. -/
  relq : Option (Nat × Nat × Nat) := none
  m : Nat := 0
  discards : Nat := 0
  waiting : List RelRec := []
  deriving DecidableEq, Repr

/-- A taken trap record of a context's pool; its key is an identity of its own. -/
structure TrapRec where
  grid : Nat
  /-- The group, by group slot while resident, else by team and group index. -/
  g : Nat
  team : Nat
  gidx : Nat
  addr : Nat
  /-- The primary cause's code. -/
  cause : Nat
  /-- What happens-before the record's release (R205). -/
  know : Tab Nat := []
  deriving DecidableEq, Repr

/-- A lattice table that is being copied to the cores (R145): its number and entries, and the issue set that waits for it. -/
structure LatCopy where
  table : Nat
  image : List (BitVec 16)
  g : Nat
  uid : Nat
  lanes : List Nat
  deriving DecidableEq, Repr

/-- A context (R301). -/
structure Ctx where
  root : Nat
  images : List Image := []
  trapbase : DWord := 0
  lattice : List (List (BitVec 16)) := [[], [], [], []]
  /-- Copies of lattice tables under way, in arrival order (R145, R427). -/
  latCopies : List LatCopy := []
  perfctl : DWord := 0
  pool : Option (Nat × Nat) := none
  poolUsed : Nat := 0
  graph : Option (Nat × Nat) := none
  coops : Tab Cooper := []
  epochs : Tab Epoch := []
  frames : Tab Frame := []
  verts : Tab Vertex := []
  joinery : Nat := 0
  nextGrid : Nat := 1
  records : Tab TrapRec := []
  /-- Handler teams that wait for a place: record keys. -/
  handlers : List Nat := []
  deriving DecidableEq, Repr

/-- A copy that waits for a ring slot (R79): its bytes, the counter that fired it (none for a reprojection), and what happens-before the
firing (R78). -/
structure Held where
  bytes : List Byte
  counter : Option Nat
  know : Tab Nat := []
  deriving DecidableEq, Repr

/-- A hardware queue (R70): its descriptor bytes, authoritative indices, hold list. -/
structure Queue where
  desc : List Byte := List.replicate 64 0
  w : Nat := 0
  r : Nat := 0
  hold : List Held := []
  /-- The PRIO of the head as it became the head, the levels by which ageing steps have raised it, and when it became the head (R80). -/
  prio : Nat := 0
  boost : Nat := 0
  since : Nat := 0
  /-- Indices of packets that grids with SYSPRIV have enqueued (R66). -/
  privok : List Nat := []
  deriving DecidableEq, Repr

/-- A dependency counter (R77). -/
structure Counter where
  value : Nat := 0
  armed : Bool := false
  packet : Nat := 0
  queue : Option Nat := none
  /-- The packet as it was at DEPSET, and the privilege it was read with (R295). -/
  bytes : List Byte := []
  sys : Bool := false
  /-- When it was armed, and what happens-before its changes since then (R78). -/
  since : Nat := 0
  know : Tab Nat := []
  deriving DecidableEq, Repr

/-- A service mailbox (Table 18.2). -/
structure Mailbox where
  cmd : List Byte := List.replicate 64 0
  cmdseq : DWord := 0
  status : Word := 0
  results : List Byte := List.replicate 56 0
  rspseq : DWord := 0
  /-- The command area was written while a command was outstanding (R300). -/
  tampered : Bool := false
  deriving DecidableEq, Repr

/-- A command that waits to be served: its link (true is link 1), and the mailbox as it was if the link's function has been reset since
(R16). -/
structure SvcReq where
  link : Bool
  /-- The mailbox as the link's reset found it. -/
  gone : Option Mailbox := none
  /-- The command as its service read it, once that has begun (R301). -/
  cmd : Option Mailbox := none
  deriving DecidableEq, Repr

/-- A line held outside its home (R181, R199). Holders: dies 0-3, the bridge 4, peers 16 + n. -/
structure Lease where
  /-- Each holder, with the time of its grant or last renewal. -/
  holders : Tab Nat
  /-- Written-back values of bytes that the holder has changed. -/
  wb : Tab Byte := []
  deriving DecidableEq, Repr

/-- A collective in flight (R338-R341): the record and the PEERS contents read at issue. -/
structure Coll where
  core : Nat
  own : Option Owner
  grid : Option Nat
  record : List Byte
  peers : List Byte
  src : List Piece
  dst : List Piece
  /-- The moment whose stores its reads come after: of the thread's last FENCE.ASYNC or release, or of its packet's acceptance (R194). -/
  since : Option Nat
  deriving DecidableEq, Repr

/-- A fabric port (R304). -/
structure Port where
  lanes : Nat := 4
  spare : Bool := true
  swapping : Bool := false
  deriving DecidableEq, Repr

/-- A weight-store write that its port holds back (R171): the first address, the bytes, and the WLOAD that queued it, if one did. -/
structure HeldWrite where
  pa : Nat
  bytes : List Byte
  load : Option Nat
  deriving DecidableEq, Repr

/-- A die. -/
structure Die where
  inService : Bool := false
  parked : Bool := false
  quiescing : Bool := false
  clock : Nat := 0
  /-- The state POWER recorded (R309): 0 P0, 1 P1. -/
  recorded : Option Nat := none
  /-- Where its refresh period lies, and where it will from a moment on, the next period boundary (R172, R174). -/
  phase : Nat := 0
  phaseNext : Option (Nat × Nat) := none
  /-- Weight-store writes held back, in arrival order (R171). -/
  held : List HeldWrite := []
  deriving DecidableEq, Repr

/-- The configuration of the flash image (R305). -/
structure Flash where
  valid : Bool := true
  lease : Nat := 50
  device : Nat := 0
  peers : List Nat := []
  combine : Nat := 0x80000000
  p1 : Nat := 1600
  /-- The spare map: the cores, rows, ways, slots and lanes retired, in the order in which their spares came in (R305, R308). -/
  spares : List WornPart := []
  deriving DecidableEq, Repr

/-- An error record of the management processor (R225, R308). -/
structure ErrRec where
  grid : Nat
  tid : Nat
  cores : List Nat
  deriving DecidableEq, Repr

/-- The issue set that a step has chosen. -/
structure Focus where
  g : Nat
  lanes : List Nat
  deriving DecidableEq, Repr

/-- What the schedule asks for next. -/
inductive Sched where
  | event (i : Instr)
  | issue (g lane : Nat) (resume : List Nat)
  deriving DecidableEq, Repr

/-- The whole part. -/
structure State where
  /-- SVCCAP.LEVEL and ERR. -/
  level : Nat := 0
  err : Bool := false
  flash : Flash := {}
  dies : Tab Die := []
  cores : Tab Core := []
  groups : Tab Group := []
  teams : Tab Team := []
  grids : Tab Grid := []
  ctxs : Tab Ctx := []
  queues : Tab Queue := []
  counters : Tab Counter := []
  /-- Round-robin places by effective priority (R80). -/
  rr : Tab Nat := []
  mbox0 : Mailbox := {}
  mbox1 : Mailbox := {}
  /-- Outstanding commands in the order of their CMDSEQ writes. -/
  svc : List SvcReq := []
  msix0 : Nat := 0
  msix1 : Nat := 0
  /-- The MSI-X tables of the links: the sixteen bytes of vector 0's entry, which no rule lays out (R16, log 64). -/
  msixTable0 : List Byte := List.replicate 16 0
  msixTable1 : List Byte := List.replicate 16 0
  hostRanges : List (Nat × Nat × Bool) := []
  /-- Physical memory: bytes that differ from 0. -/
  mem : Tab Byte := []
  /-- The stores to each byte of memory, the last first: when each was made, and the byte's value before it (R170, R194). -/
  stored : Tab (List (Nat × Byte)) := []
  /-- What the model keeps of happens-before (R188, log 16). -/
  order : Order := {}
  /-- Lost 4 KiB regions, by physical address (R182), OVF and the die and kind it covers. -/
  lost : Tab Unit := []
  ovf : List (Nat × Nat) := []
  leases : Tab Lease := []
  /-- Lines the host holds, as 64-byte halves (R180). -/
  hostLines : Tab Unit := []
  walign : Bool := false
  match_ : Nat := 0
  mismatch : Nat := 0
  abandon : Nat := 0
  errors : List ErrRec := []
  ops : Tab MemOp := []
  resid : Tab Resid := []
  colls : Tab Coll := []
  ports : Tab Port := []
  worn : List WornPart := []
  /-- Correctable errors counted by part (R308). -/
  counts : List (WornPart × Nat) := []
  /-- A quiesce under way: its link and die mask. -/
  quiesce : Option (Bool × Nat) := none
  /-- What the last host read returned. -/
  lastRead : List Byte := []
  clock : Nat := 0
  /-- The model's own: free values drawn, identities given out, the schedule and the chosen issue set. -/
  fresh : Nat := 0
  nextId : Nat := 0
  sched : List Sched := []
  focus : Option Focus := none
  deriving DecidableEq, Repr

/-- The part after a device reset (R16): LEVEL 0, no context, queue, counter, grid or group, memory with nothing
listed. -/
def State.reset : State := {}

end Sys2Proof.Machine
end

