-- ==== Sys2Proof/Machine/Mem.lean ====
section
/-!
DEFINITION. Memory: the canonical byte table, the physical map (R164), leases and written-back values (R181, R199), page
walks and TLBs (R160-R166), lost regions (R182) and scratchpad bytes (R168).
-/

namespace Sys2Proof.Machine

/-- Cause codes (Table 9.1). -/
def Cause.code : Cause → Nat
  | .illegal => 0x01 | .privilege => 0x02 | .misaligned => 0x03 | .notPresent => 0x04 | .permission => 0x05
  | .regionLost => 0x06 | .hostAtomic => 0x07 | .residualFull => 0x08 | .determinism => 0x09 | .software => 0x0A
  | .breakpoint => 0x0B | .role => 0x0C | .order => 0x0D | .vgraph => 0x0E | .combine => 0x0F

/-- Ranks (Table 9.1). -/
def Cause.rank : Cause → Nat
  | .illegal => 1 | .privilege => 2 | .role => 3 | .determinism => 4 | .misaligned => 5 | .notPresent => 6
  | .permission => 7 | .regionLost => 8 | .hostAtomic => 9 | .residualFull => 10 | .software => 11
  | .breakpoint => 12 | .order => 13 | .vgraph => 14 | .combine => 15

/-! ### The byte table -/

/-- What a byte that nothing has written reads as: DESIGN CHOICE 0 (log 1). -/
def unlisted : Byte := 0

/-- One byte of physical memory. -/
def memByte (m : Tab Byte) (pa : Nat) : Byte := tabGetD m pa unlisted

/-- Writing one byte keeps the canonical form: an entry equal to `unlisted` is removed. -/
def memSet (m : Tab Byte) (pa : Nat) (b : Byte) : Tab Byte := if b = unlisted then tabDel m pa else tabSet m pa b

/-- Consecutive bytes, lowest address first. -/
def memRead (m : Tab Byte) (pa : Nat) : Nat → List Byte
  | 0 => []
  | n + 1 => memByte m pa :: memRead m (pa + 1) n

/-- Consecutive bytes written. -/
def memWrite (m : Tab Byte) (pa : Nat) : List Byte → Tab Byte
  | [] => m
  | b :: r => memWrite (memSet m pa b) (pa + 1) r

/-- The canonical form of memory: addresses strictly rising, no entry equal to what an unlisted address reads as. -/
def Memory.wf (m : Tab Byte) : Bool := tabSorted m && m.all fun e => e.2 != unlisted

/-- A little-endian value of memory. -/
def memNat (m : Tab Byte) (pa n : Nat) : Nat := leNat (memRead m pa n)

/-! ### The physical map (Table 7.3) -/

/-- The kind of a physical address, 0 near, 1 weight, 2 far, 3 I/O; none where it is absent. -/
def kindOf (pa : Nat) : Option Nat :=
  if pa < 0x2000000000 then some 0
  else if pa < 0x4000000000 then some 1
  else if 0x10000000000 ≤ pa && pa < 0x20000000000 then some 2
  else if 0x4000000000000 ≤ pa && pa < 0x10000000000000 then some 3
  else none

/-- Whether a run of bytes lies in the range of one kind; near memory and weight store are per die. -/
def inKind (k pa n : Nat) : Bool :=
  kindOf pa == some k && kindOf (pa + n - 1) == some k &&
    (k < 2 → pa / 0x800000000 = (pa + n - 1) / 0x800000000) &&
    (k = 3 → (pa < 0x8000000000000 ↔ pa + n - 1 < 0x8000000000000) ∧
      (0x8000000000000 ≤ pa → pa / 0x20000000000 = (pa + n - 1) / 0x20000000000))

/-- Whether an address lies in host memory. -/
def isHost (pa : Nat) : Bool := 0x4000000000000 ≤ pa && pa < 0x8000000000000

/-- Whether an address lies in a peer's range. -/
def isPeer (pa : Nat) : Bool := 0x8000000000000 ≤ pa && pa < 0x10000000000000

/-- The agent that homes a line: a die, or a peer 16 + n (R164, R303). -/
def homeOf (pa : Nat) : Nat :=
  if pa < 0x4000000000 then pa / 0x800000000 % 4
  else if isPeer pa then 16 + (pa - 0x8000000000000) / 0x20000000000
  else bits pa 7 2

/-- The bridge, as a holder of leases. -/
def bridge : Nat := 4

/-! ### Leases -/

/-- Bytes of a line that agents hold: a 64-byte sector of host memory, 128 bytes elsewhere (R180). -/
def lineBytes (pa : Nat) : Nat := if isHost pa then 64 else 128

/-- The number of the line that holds an address; host sectors are numbered from 2^50 on. -/
def lineOf (pa : Nat) : Nat := if isHost pa then 2 ^ 50 + pa / 64 else pa / 128

/-- The first byte of a line. -/
def lineBase (line : Nat) : Nat := if 2 ^ 50 ≤ line then (line - 2 ^ 50) * 64 else line * 128

/-- Whether one agent alone holds a line. -/
def Lease.only (l : Lease) (agent : Nat) : Bool := l.holders.map (·.1) == [agent]

/-- An agent reads a line: a value it reads from another holder is written back first (R199). -/
def leaseRead (t : Tab Lease) (now agent pa : Nat) : Tab Lease :=
  let line := lineOf pa
  match tabGet t line with
  | none => if agent = homeOf pa then t else tabSet t line ⟨[(agent, now)], []⟩
  | some l =>
    if l.only agent then t
    else if agent = homeOf pa || (tabGet l.holders agent).isSome then tabSet t line { l with wb := [] }
    else tabSet t line ⟨tabSet l.holders agent now, []⟩

/-- An agent writes bytes of a line: another holder's copy goes back to the home first, and the bytes' written-back
values are kept while the agent holds the line; what the home writes has reached memory at once (log 73). -/
def leaseWrite (t : Tab Lease) (m : Tab Byte) (now agent pa n : Nat) : Tab Lease :=
  let line := lineOf pa
  if agent = homeOf pa then tabDel t line
  else
    let own := match tabGet t line with
      | some l => if l.only agent then l else ⟨[(agent, now)], []⟩
      | none => ⟨[(agent, now)], []⟩
    let wb := (upto n).foldl
      (fun w i => if (tabGet w (pa + i)).isSome then w else tabSet w (pa + i) (memByte m (pa + i))) own.wb
    tabSet t line { own with wb := wb }

/-- A device access takes the halves it touches back from the host (R180). -/
def backInvalidate (t : Tab Unit) (pa n : Nat) : Tab Unit := tabDel (tabDel t (pa / 64)) ((pa + n - 1) / 64)

/-- Whether the host holds a half of a line. -/
def hostHolds (t : Tab Unit) (pa : Nat) : Bool := (tabGet t (pa / 128 * 2)).isSome || (tabGet t (pa / 128 * 2 + 1)).isSome

/-- The leases of a line after the host's copies of the halves touched are gone: the bridge holds it only for a half left. -/
def bridgeDrop (t : Tab Lease) (host : Tab Unit) (pa : Nat) : Tab Lease :=
  match tabGet t (lineOf pa) with
  | some l => if l.only bridge && !hostHolds host pa then tabDel t (lineOf pa) else t
  | none => t

/-- An agent's read within one line: who holds it afterwards. No device holds a half-held line (R180). -/
def State.readLine (s : State) (agent pa n : Nat) : State :=
  let host := backInvalidate s.hostLines pa n
  { s with
    hostLines := host
    leases := if hostHolds host pa then s.leases else leaseRead (bridgeDrop s.leases host pa) s.clock agent pa }

/-- Runs of a range that each lie within one line. -/
def lineRuns : Nat → Nat → Nat → List (Nat × Nat)
  | 0, _, _ => []
  | f + 1, pa, n =>
    if n = 0 then []
    else
      let k := min n (lineBytes pa - pa % lineBytes pa)
      (pa, k) :: lineRuns f (pa + k) (n - k)

/-- The effect of an agent's read of physical bytes on who holds their lines. -/
def State.touchRead (s : State) (agent pa n : Nat) : State :=
  (lineRuns (n / 64 + 2) pa n).foldl (fun t r => t.readLine agent r.1 r.2) s

/-- An agent's write of physical bytes within one line. -/
def State.storePhys (s : State) (agent pa : Nat) (bs : List Byte) : State :=
  let host := backInvalidate s.hostLines pa bs.length
  { s with
    leases := if hostHolds host pa then s.leases
      else leaseWrite (bridgeDrop s.leases host pa) s.mem s.clock agent pa bs.length
    hostLines := host
    mem := memWrite s.mem pa bs
    stored := (upto bs.length).foldl (fun t k => tabSet t (pa + k) ((s.clock, memByte s.mem (pa + k)) :: tabGetD s.stored (pa + k) [])) s.stored }

/-- When a byte of memory was last stored to; 0 where nothing has stored to it. -/
def State.storedAt (s : State) (pa : Nat) : Nat :=
  match tabGetD s.stored pa [] with
  | e :: _ => e.1
  | [] => 0

/-- Bytes in pieces that each lie within one line. -/
def linePieces : Nat → Nat → List Byte → List (Nat × List Byte)
  | 0, _, _ => []
  | _, _, [] => []
  | f + 1, pa, bs =>
    let n := lineBytes pa - pa % lineBytes pa
    (pa, bs.take n) :: linePieces f (pa + n) (bs.drop n)

/-- A write of any length. -/
def State.storeRun (s : State) (agent pa : Nat) (bs : List Byte) : State :=
  (linePieces (bs.length / 64 + 2) pa bs).foldl (fun t p => t.storePhys agent p.1 p.2) s

/-! ### Lost regions (R182) -/

/-- Whether any byte of a run lies in a lost region, or under OVF in a region of an overflowing die and kind; the die of a region is the
home of its first line (log 14). -/
def State.lostAt (s : State) (pa n : Nat) : Bool :=
  (tabGet s.lost (pa / 4096)).isSome || (tabGet s.lost ((pa + n - 1) / 4096)).isSome ||
    s.ovf.any fun (d, k) => homeOf (pa / 4096 * 4096) == d && kindOf pa == some k

/-! ### Page walks (R161-R163) -/

/-- What an access needs of a translation. -/
inductive Acc where
  | load | store | atomic | fetch
  deriving DecidableEq, Repr

/-- Whether an access writes. -/
def Acc.writes : Acc → Bool
  | .store | .atomic => true
  | _ => false

/-- Page bytes of a leaf SIZE at a level (Table 7.1). -/
def leafBytes (level size : Nat) : Option Nat :=
  match level, size with
  | 2, 9 => some 0x40000000
  | 1, 5 => some 0x400000
  | 1, 6 => some 0x1000000
  | 1, 7 => some 0x4000000
  | 1, 8 => some 0x10000000
  | 0, 0 => some 0x1000
  | 0, 1 => some 0x4000
  | 0, 2 => some 0x10000
  | 0, 3 => some 0x40000
  | 0, 4 => some 0x100000
  | _, _ => none

/-- The walk of R163 below a table, `n` levels left; none is NOT_PRESENT. -/
def walkFrom (m : Tab Byte) (ctx va : Nat) : Nat → Nat → Option TlbEntry
  | 0, _ => none
  | n + 1, t =>
    let e := memNat m (t + 8 * bits va (12 + 9 * n) 9) 8
    let size := bits e 1 4
    let kind := bits e 11 2
    let base := bits e 13 40 * 4096
    if bits e 0 1 = 0 || bits e 53 11 != 0 then none
    else if n ≥ 1 && size == 0 then
      if bits e 5 6 != 0 || !inKind kind base 4096 then none else walkFrom m ctx va n base
    else
      match leafBytes n size with
      | none => none
      | some sz =>
        if base % sz != 0 || (bitAt e 10 && kind != 1) || !inKind kind base sz then none
        else some ⟨ctx, bitAt e 9, va - va % sz, sz, base, bitAt e 8, bitAt e 7, bitAt e 6, bitAt e 5, bitAt e 10⟩

/-- The addresses of the entries that a walk reads. -/
def walkEntries (m : Tab Byte) (va : Nat) : Nat → Nat → List Nat
  | 0, _ => []
  | n + 1, t =>
    let a := t + 8 * bits va (12 + 9 * n) 9
    let e := memNat m a 8
    a :: if bits e 0 1 = 1 && n ≥ 1 && bits e 1 4 == 0 then walkEntries m va n (bits e 13 40 * 4096) else []

/-- The walk from a context's root. -/
def State.walk (s : State) (ctx va : Nat) : Option TlbEntry :=
  if 2 ^ 57 ≤ va then none
  else
    match tabGet s.ctxs ctx with
    | none => none
    | some c => walkFrom s.mem ctx va 5 c.root

/-- `Check(e, acc)` of R163; the weight store takes no store, through whatever page (R1, R171). -/
def TlbEntry.allows (e : TlbEntry) (sys : Bool) (acc : Acc) : Bool :=
  (match acc with
    | .load => e.rd
    | .store => e.wt
    | .atomic => e.rd && e.wt
    | .fetch => e.ex) &&
    (e.user || sys) && !((e.weight || kindOf e.pbase == some 1) && acc.writes)

/-- A core by its number. -/
def State.core (s : State) (c : Nat) : Core := tabGetD s.cores c {}

/-- The TLB entry of a core that covers an address for a context. -/
def State.tlbHit (s : State) (core ctx va : Nat) : Option TlbEntry :=
  (s.core core).tlb.find? fun e => (e.ctx == ctx || e.global) && decide (e.vbase ≤ va) && decide (va < e.vbase + e.size)

/-- Who makes an access: its core, its context and whether it runs at system privilege. -/
structure Who where
  core : Nat
  ctx : Nat
  sys : Bool
  deriving DecidableEq, Repr

/-- The die of a core. -/
def dieOf (core : Nat) : Nat := core / 160

/-- The agent of a core's accesses. -/
def Who.agent (w : Who) : Nat := dieOf w.core

/-- The translation of one address for an access, from the core's TLB or by a walk. -/
def State.entryFor (s : State) (w : Who) (va : Nat) : Option TlbEntry :=
  if 2 ^ 57 ≤ va then none
  else
    match s.tlbHit w.core w.ctx va with
    | some e => some e
    | none => s.walk w.ctx va

/-- The physical address of an access of `n` bytes, or the cause that its translation raises (R163, R182). -/
def State.xlate (s : State) (w : Who) (acc : Acc) (va n : Nat) : Except Cause Nat :=
  match s.entryFor w va with
  | none => .error .notPresent
  | some e =>
    if e.allows w.sys acc then
      let pa := e.pbase + (va - e.vbase)
      if s.lostAt pa n then .error .regionLost else .ok pa
    else .error .permission

/-! ### Performance counters (Table 22.9) -/

/-- `n` events of a kind counted on a core by the PERFCNT registers of a context whose SEL names it. -/
def State.count (s : State) (core ctx kind n : Nat) : State :=
  let sel := (tabGetD s.ctxs ctx { root := 0 }).perfctl.toNat
  if sel = 0 || n = 0 then s
  else
    let c := s.core core
    let perf := (upto 8).foldl (fun p k =>
      if bits sel (8 * k) 8 = kind then tabSet p (ctx * 8 + k) (tabGetD p (ctx * 8 + k) 0 + BitVec.ofNat 64 n) else p) c.perf
    { s with cores := tabSet s.cores core { c with perf := perf } }

/-- The TLB of a core after an access: a completed walk fills it, the oldest entry leaving at capacity (R165). -/
def State.fillTlb (s : State) (w : Who) (acc : Acc) (va : Nat) : State :=
  match s.tlbHit w.core w.ctx va with
  | some _ => s
  | none =>
    let s := s.count w.core w.ctx 5 1
    match s.entryFor w va with
    | none => s
    | some e =>
      if e.allows w.sys acc then
        let c := s.core w.core
        let tlb := if Config.tlbEntries ≤ c.tlb.length then c.tlb.drop 1 else c.tlb
        { s with cores := tabSet s.cores w.core { c with tlb := tlb ++ [e] } }
      else s

/-- The failure of lower rank, the earlier one of equals. -/
def worse (a b : Cause × Nat) : Cause × Nat := if b.1.rank < a.1.rank then b else a

/-- Two results of translation, one after the other: all pieces, or the failure of lowest rank (R203). -/
def joinPieces (a b : Except (Cause × Nat) (List Piece)) : Except (Cause × Nat) (List Piece) :=
  match a, b with
  | .ok p, .ok q => .ok (p ++ q)
  | .error e, .error f => .error (worse e f)
  | .error e, .ok _ => .error e
  | .ok _, .error f => .error f

/-- Pieces of a virtual run by 4 KiB page, each translated, or the failure of lowest rank with its address. -/
def State.xlateRun (s : State) (w : Who) (acc : Acc) : Nat → Nat → Nat → Except (Cause × Nat) (List Piece)
  | 0, _, _ => .ok []
  | f + 1, va, n =>
    if n = 0 then .ok []
    else
      let k := min n (4096 - va % 4096)
      joinPieces
        (match s.xlate w acc va k with
          | .error c => .error (c, va)
          | .ok pa => .ok [⟨va, .phys pa, k⟩])
        (s.xlateRun w acc f (va + k) (n - k))

/-- A run translated whole, whatever its length. -/
def State.xlateAll (s : State) (w : Who) (acc : Acc) (va n : Nat) : Except (Cause × Nat) (List Piece) :=
  s.xlateRun w acc (n / 4096 + 2) va n

/-- Bytes of a virtual run, or the cause of the first page that fails. -/
def State.readVa (s : State) (w : Who) (va n : Nat) : Except (Cause × Nat) (List Byte) :=
  match s.xlateAll w .load va n with
  | .error c => .error c
  | .ok ps => .ok (ps.flatMap fun p => match p.loc with | .phys pa => memRead s.mem pa p.len | _ => [])

/-! ### Scratchpad bytes (R168) -/

/-- A slice of a team. -/
def State.slice? (s : State) (team i : Nat) : Option Slice :=
  match tabGet s.teams team with
  | none => none
  | some t => tabGet t.slices i

/-- A byte of a slice: what was written last, or the undefined value it started with. -/
def Slice.byte (x : Slice) (ofs : Nat) : Byte :=
  match tabGet x.bytes ofs with
  | some b => b.val
  | none => Config.freeByte x.seed ofs

/-- Bytes written to a slice at a moment, not readied for the matrix ports. -/
def Slice.write (x : Slice) (now ofs : Nat) : List Byte → Slice
  | [] => x
  | b :: r =>
    let past := match tabGet x.bytes ofs with
      | some q => (now, some q.val) :: q.past
      | none => [(now, none)]
    Slice.write { x with bytes := tabSet x.bytes ofs { val := b, past := past, wrote := now } } now (ofs + 1) r

/-- An accumulator whose words are undefined values, named from a number on. -/
def Slice.spoil (x : Slice) (d fresh salt : Nat) : Slice :=
  { x with accs := tabMod x.accs d fun a =>
      { a with cells := (upto a.cells.length).map fun k =>
          (Config.freeValue (fresh * 2 ^ 64 + 2 ^ 52 + (32 * salt + d) * 2 ^ 20 + k)).setWidth 32 } }

/-- Whether a command reads any of `n` bytes of the B window from an offset on. -/
def MatCmd.readsWindow (c : MatCmd) (ofs n : Nat) : Bool := c.window.any fun r => decide (r.1 < ofs + n) && decide (ofs < r.1 + r.2)

/-- What a read of a virtual run leaves: a core's translations (R165), and who holds the lines, its die, or for a unit their homes (R199). -/
def State.touchVa (s : State) (w : Who) (va n : Nat) : State :=
  match s.xlateAll w .load va n with
  | .error _ => s
  | .ok ps => ps.foldl (fun t p =>
      match p.loc with
      | .phys pa => if w.core < Config.cores then (t.fillTlb w .load p.va).touchRead w.agent pa p.len else t.touchRead (homeOf pa) pa p.len
      | .spad .. => t) s

/-- A state with one slice changed. -/
def State.modSlice (s : State) (team i : Nat) (f : Slice → Slice) : State :=
  { s with teams := tabMod s.teams team fun t => { t with slices := tabMod t.slices i f } }

/-- The bytes at a place. -/
def State.readLoc (s : State) (l : Loc) (n : Nat) : List Byte :=
  match l with
  | .phys pa => memRead s.mem pa n
  | .spad t i ofs =>
    match s.slice? t i with
    | some x => (upto n).map fun k => x.byte (ofs + k)
    | none => List.replicate n unlisted

/-- The bytes of a slice that an AST wrote and that still stand are undefined values, named from a number on. -/
def Slice.spoilPut (x : Slice) (fresh salt : Nat) : Option (Nat × Nat × Nat) → Slice
  | none => x
  | some (ofs, n, time) =>
    { x with bytes := (upto n).foldl (fun t k => tabMod t (ofs + k) fun b =>
        if b.wrote = time then
          { b with val := (Config.freeValue (fresh * 2 ^ 64 + 2 ^ 53 + salt * 2 ^ 24 + k)).setWidth 8 }
        else b) x.bytes }

/-- The results of a command that has completed are undefined: its accumulator, while that holds them, and what an AST has written. -/
def State.spoilCmd (s : State) (u : MatCmd) (salt : Nat) : State :=
  s.modSlice u.own.team u.slice fun x =>
    let x := if u.put.isNone && u.held then x.spoil u.acc s.fresh salt else x
    x.spoilPut s.fresh salt u.put

/-- Slices after a write to `n` bytes of one of them: the results of commands that read the bytes and that no MWAIT has waited for are
undefined, on both cores for a pair command, and so is what SCACCs and ASTs drew from them (R195). -/
def State.spoilBy (s : State) (team i ofs n : Nat) : State :=
  let cores := match tabGet s.teams team with | some k => k.cores | none => []
  let core := cores.getD i Config.cores
  let hit := ((s.core core).munwaited.filter fun c => c.own.team == team && !c.done && c.readsWindow ofs n).map (·.id)
  if hit = [] then s
  else
    let us := (cores.flatMap fun k => (s.core k).munwaited).filter fun u => hit.contains u.id || u.drew.any hit.contains
    (us.zip (upto us.length)).foldl (fun t u => t.spoilCmd u.1 u.2) s

/-- A write at a place. -/
def State.writeLoc (s : State) (agent : Nat) (l : Loc) (bs : List Byte) : State :=
  match l with
  | .phys pa => s.storeRun agent pa bs
  | .spad t i ofs =>
    (s.modSlice t i fun x => x.write s.clock ofs bs).spoilBy t i ofs bs.length

/-- The effect of a read at a place on who holds its line. -/
def State.touchLoc (s : State) (agent : Nat) (l : Loc) (n : Nat) : State :=
  match l with
  | .phys pa => s.touchRead agent pa n
  | .spad .. => s

end Sys2Proof.Machine
end

