-- ==== Sys2Proof/Machine/Base.lean ====
section
/-!
DEFINITION. Names for the parts of the state: groups, lanes, grids, packets; reading and writing one register of a
thread; free values; clause headers.
-/

namespace Sys2Proof.Machine

/-! ### Groups, grids, contexts -/

/-- The core of a group slot; a slot's key is core × 64 + slot. -/
def coreOf (g : Nat) : Nat := g / Config.slotsPerCore

/-- A group slot's group. -/
def State.group (s : State) (g : Nat) : Group := tabGetD s.groups g {}

/-- A state with one group changed. -/
def State.setGroup (s : State) (g : Nat) (x : Group) : State := { s with groups := tabSet s.groups g x }

/-- A state with one group, if present, changed by a function. -/
def State.modGroup (s : State) (g : Nat) (f : Group → Group) : State := { s with groups := tabMod s.groups g f }

/-- A thread. -/
def Group.lane (x : Group) (l : Nat) : Lane := tabGetD x.lanes l { fin := true }

/-- A group with one thread changed. -/
def Group.setLane (x : Group) (l : Nat) (y : Lane) : Group := { x with lanes := tabSet x.lanes l y }

/-- A state with one thread, if present, changed by a function. -/
def State.modLane (s : State) (g l : Nat) (f : Lane → Lane) : State :=
  s.modGroup g fun x => { x with lanes := tabMod x.lanes l f }

/-- A state with threads of a group changed by a function. -/
def State.modLanes (s : State) (g : Nat) (ls : List Nat) (f : Nat → Lane → Lane) : State :=
  s.modGroup g fun x => { x with lanes := ls.foldl (fun t l => tabMod t l (f l)) x.lanes }

/-- The unfinished threads of a group, in lane order. -/
def Group.live (x : Group) : List Nat := (x.lanes.filter fun e => !e.2.fin).map (·.1)

/-- An empty grid, read where a key names none. -/
def noGrid : Grid := { ctx := 0, id := 0, queue := 0, pkt := {} }

/-- A grid. -/
def State.grid (s : State) (k : Nat) : Grid := tabGetD s.grids k noGrid

/-- A state with one grid changed. -/
def State.modGrid (s : State) (k : Nat) (f : Grid → Grid) : State := { s with grids := tabMod s.grids k f }

/-- An empty team, read where a key names none. -/
def noTeam : Team := { grid := 0, tid := 0 }

/-- A team. -/
def State.team (s : State) (k : Nat) : Team := tabGetD s.teams k noTeam

/-- A state with one team changed. -/
def State.modTeam (s : State) (k : Nat) (f : Team → Team) : State := { s with teams := tabMod s.teams k f }

/-- An empty context, read where a CTXID names none. -/
def noCtx : Ctx := { root := 0 }

/-- A context. -/
def State.ctx (s : State) (k : Nat) : Ctx := tabGetD s.ctxs k noCtx

/-- A state with one context changed. -/
def State.modCtx (s : State) (k : Nat) (f : Ctx → Ctx) : State := { s with ctxs := tabMod s.ctxs k f }

/-- A state with one core changed. -/
def State.modCore (s : State) (k : Nat) (f : Core → Core) : State := { s with cores := tabSet s.cores k (f (s.core k)) }

/-- Packet flags (Table 3.2). -/
def Packet.det (p : Packet) : Bool := bitAt p.flags 0
/-- PREEMPT. -/
def Packet.preempt (p : Packet) : Bool := bitAt p.flags 1
/-- PMAP. -/
def Packet.pmap (p : Packet) : Bool := bitAt p.flags 2
/-- RESPARK. -/
def Packet.respark (p : Packet) : Bool := bitAt p.flags 3
/-- SYSPRIV. -/
def Packet.sys (p : Packet) : Bool := bitAt p.flags 4
/-- CHECK, which DET implies. -/
def Packet.check (p : Packet) : Bool := bitAt p.flags 5 || p.det

/-- Who a group's accesses are made by. -/
def State.who (s : State) (g : Nat) : Who :=
  let gr := s.grid (s.group g).grid
  ⟨coreOf g, gr.ctx, gr.pkt.sys⟩

/-- The Drover, the Cooperage and the management processor, reading through a context's page tables. -/
def unitWho (ctx : Nat) (sys : Bool) : Who := ⟨Config.cores, ctx, sys⟩

/-- A write by such a unit, made at the lines' homes; every page is checked before any byte is written. -/
def State.putVa (s : State) (w : Who) (va : Nat) (bs : List Byte) : Except (Cause × Nat) State :=
  match s.xlateAll w .store va bs.length with
  | .error c => .error c
  | .ok ps =>
    .ok (ps.foldl (fun (t : State × List Byte) p =>
      (match p.loc with
        | .phys pa => t.1.storeRun (homeOf pa) pa (t.2.take p.len)
        | _ => t.1, t.2.drop p.len)) (s, bs)).1

/-- A group's residual budget (offset 0x04; 8 in a handler team, R207). -/
def State.residBudget (s : State) (x : Group) : Nat :=
  if (s.team x.team).handler.isSome then 8 else (s.grid x.grid).pkt.resid

/-- Whether a capture beyond the budget parks (R114); clear in a handler team. -/
def State.respark (s : State) (x : Group) : Bool :=
  !(s.team x.team).handler.isSome && (s.grid x.grid).pkt.respark

/-! ### Free values and identities -/

/-- An undefined word, by a number that is the draw's own within the step (log 2). -/
def State.freeWord (s : State) (i : Nat) : Word := (Config.freeValue (s.fresh * 2 ^ 64 + i)).setWidth 32

/-- Undefined words from a number on. -/
def State.freeWords (s : State) (i n : Nat) : List Word := (upto n).map fun k => s.freeWord (i + k)

/-- Undefined bytes. -/
def State.freeBytes (s : State) (i n : Nat) : List Byte := (upto n).map fun k => (s.freeWord (i + k)).setWidth 8

/-! ### Registers of a thread -/

/-- An operand of an instruction, before the window is applied. -/
inductive Opd where
  | v (f : Nat)
  | s (f : Nat)
  | p (f : Nat)
  | imm (w : Word)
  | abs (n : Nat)
  deriving DecidableEq, Repr

/-- The architectural vector register of a field (R89). -/
def Lane.arch (y : Lane) (f : Nat) : Nat := if f < 96 then y.wb + f else 1024 + (f - 96)

/-- The register an operand names, if it names one. -/
def Opd.reg (y : Lane) : Opd → Option PReg
  | .v f => some (.v (y.arch f))
  | .s n => some (.s n)
  | .p n => some (.p n)
  | .abs n => some (.v n)
  | .imm _ => none

/-- The destination tag of a register that is pending in a lane (R102). -/
def Group.pending (x : Group) (l : Nat) : PReg → Option Nat
  | .v n => tabGet (x.lane l).pend n
  | .p n => tabGet (x.lane l).ppend n
  | .s n => tabGet x.spend n

/-- A register read by a lane; one that is not live gives an undefined value (R91). Predicates read as 0 or 1. -/
def State.readReg (s : State) (x : Group) (l : Nat) : PReg → Word
  | .v n =>
    match tabGet (x.lane l).regs n with
    | some w => w
    | none => s.freeWord (l * 4096 + n)
  | .s n =>
    match tabGet x.sregs n with
    | some w => w
    | none => s.freeWord (2 ^ 20 + n)
  | .p n => if (x.lane l).preds.getLsbD n then 1 else 0

/-- An operand read by a lane (R33). `abs` names a source that no field names: the stream register, which counts as 0
while it is not live (R409). -/
def State.readOpd (s : State) (x : Group) (l : Nat) (o : Opd) : Word :=
  match o with
  | .imm w => w
  | .abs n => tabGetD (x.lane l).regs n 0
  | o =>
    match o.reg (x.lane l) with
    | some r => s.readReg x l r
    | none => 0

/-- A bit of a predicate file set. -/
def setPred (ps : BitVec 16) (n : Nat) (b : Bool) : BitVec 16 :=
  if b then ps ||| BitVec.ofNat 16 (2 ^ n) else ps &&& ~~~ BitVec.ofNat 16 (2 ^ n)

/-- A register written by a lane: it becomes live (R91). -/
def Group.writeReg (x : Group) (l : Nat) (r : PReg) (w : Word) : Group :=
  match r with
  | .v n => { x with lanes := tabMod x.lanes l fun y => { y with regs := tabSet y.regs n w } }
  | .p n => { x with lanes := tabMod x.lanes l fun y => { y with preds := setPred y.preds n (w != 0) } }
  | .s n => { x with sregs := tabSet x.sregs n w }

/-- A register marked pending under a tag (R102). -/
def Group.markPending (x : Group) (l : Nat) (r : PReg) (t : Nat) : Group :=
  match r with
  | .v n => { x with lanes := tabMod x.lanes l fun y => { y with pend := tabSet y.pend n t } }
  | .p n => { x with lanes := tabMod x.lanes l fun y => { y with ppend := tabSet y.ppend n t } }
  | .s n => { x with spend := tabSet x.spend n t }

/-- A register's pending mark removed. -/
def Group.clearPending (x : Group) (l : Nat) (r : PReg) : Group :=
  match r with
  | .v n => { x with lanes := tabMod x.lanes l fun y => { y with pend := tabDel y.pend n } }
  | .p n => { x with lanes := tabMod x.lanes l fun y => { y with ppend := tabDel y.ppend n } }
  | .s n => { x with spend := tabDel x.spend n }

/-- A pair of vector registers read as 64 bits. -/
def State.readPair (s : State) (x : Group) (l : Nat) (f : BitVec 7) : Nat :=
  pairNat (s.readOpd x l (.v f.toNat)) (s.readOpd x l (.v (f.toNat + 1)))

/-- A pair of uniform registers read as 64 bits. -/
def State.readSPair (s : State) (x : Group) (f : BitVec 7) : Nat :=
  pairNat (s.readReg x 0 (.s f.toNat)) (s.readReg x 0 (.s (f.toNat + 1)))

/-! ### Clause headers (Table 5.3) -/

/-- Body words of a clause. -/
def hLen (h : Word) : Nat := if bits h.toNat 8 4 = 0 then 16 else bits h.toNat 8 4

/-- WAIT, one bit per flag. -/
def hWait (h : Word) : Nat := bits h.toNat 20 12

/-- SETA. -/
def hSeta (h : Word) : Nat := bits h.toNat 16 4

/-- SETB. -/
def hSetb (h : Word) : Nat := bits h.toNat 12 4

/-- IDEM. -/
def hIdem (h : Word) : Bool := bitAt h.toNat 7

/-- DEFER. -/
def hDefer (h : Word) : Bool := bitAt h.toNat 6

/-- YIELD. -/
def hYield (h : Word) : Bool := bitAt h.toNat 5

/-- The address after a clause. -/
def Lane.bodyEnd (y : Lane) : DWord := y.hdr + BitVec.ofNat 64 (4 * (hLen y.hword + 1))

/-- A thread at a clause header. -/
def Lane.goto (y : Lane) (a : DWord) : Lane := { y with pc := a, hdr := a, inBody := false, body := [], park := .none, yielded := false }

/-- A thread past `n` words; at the end of its body it stands at the next header. -/
def Lane.advance (y : Lane) (n : Nat) : Lane :=
  let a := y.pc + BitVec.ofNat 64 (4 * n)
  if a = y.bodyEnd then y.goto a else { y with pc := a, park := .none }

/-- Lanes that wait, at a word where they have parked or at a header, are eligible from a moment on (R86). -/
def Group.wake (x : Group) (clock : Nat) : Group :=
  { x with lanes := tabMap x.lanes fun _ y => if y.park = .retry || !y.inBody then { y with stamp := clock } else y }

/-! ### Bit masks of lanes -/

/-- The mask of a list of lanes. -/
def maskOf (ls : List Nat) : BitVec 32 := ls.foldl (fun m l => m ||| BitVec.ofNat 32 (2 ^ l)) 0

/-- The lanes of a mask, rising. -/
def lanesOf (m : BitVec 32) : List Nat := (upto 32).filter fun l => m.getLsbD l

end Sys2Proof.Machine
end

