-- ==== Sys2Proof/Machine/Fetch.lean ====
section
/-!
DEFINITION. Registered images, the instruction caches, and the fetch of code words and clause-map bits (R118-R122, R130, R140, R141).
-/

namespace Sys2Proof.Machine

/-- The address of code word 0. -/
def Image.code (i : Image) : Nat := i.base + 0x40

/-- Whether an address lies among an image's code words. -/
def Image.holds (i : Image) (a : Nat) : Bool := i.code ≤ a && a < i.code + 4 * i.words

/-- The image of a context whose code words hold an address. -/
def State.imageAt (s : State) (ctx a : Nat) : Option Image := (s.ctx ctx).images.find? fun i => i.holds a

/-- A word of a context in an instruction cache, by context and virtual address. -/
def icKey (ctx a : Nat) : Nat := ctx * 2 ^ 64 + a

/-- What a core fetches of a word that memory holds as `now`: as cached at its last fill, or the later value, chosen as a whole for a code
word and bit by bit for a map word (R141). -/
def State.fromCache (s : State) (w : Who) (a : Nat) (map : Bool) (now : Word) : Word :=
  match tabGet (s.core w.core).icache (icKey w.ctx a) with
  | none => now
  | some old =>
    if old = now then now
    else
      let r := s.freeWord (2 ^ 62 + a)
      if map then (old &&& r) ||| (now &&& ~~~r) else if r.getLsbD 0 then old else now

/-- Four bytes through the instruction fetch path. -/
def State.fetch4 (s : State) (w : Who) (a : Nat) (map : Bool) : Except (Cause × Nat) Word :=
  match s.xlate w .fetch a 4 with
  | .error c => .error (c, a)
  | .ok pa => .ok (s.fromCache w a map (w32 (memNat s.mem pa 4)))

/-- A code word (R120). -/
def State.fetchWord (s : State) (w : Who) (a : Nat) : Except (Cause × Nat) Word :=
  match s.imageAt w.ctx a with
  | none => .error (.illegal, a)
  | some _ => s.fetch4 w a false

/-- The address of the map word that holds the bit of a code word (R118). -/
def Image.mapWord (i : Image) (n : Nat) : Nat := i.base + i.mapOfs + 4 * (n / 32)

/-- A clause-map bit of an image's code word (R130). -/
def State.mapBit (s : State) (w : Who) (i : Image) (n : Nat) : Except (Cause × Nat) Bool :=
  match s.fetch4 w (i.mapWord n) true with
  | .error c => .error c
  | .ok m => .ok (bitAt m.toNat (n % 32))

/-- The instruction cache of a core after the fetch of a word. -/
def State.fillCode (s : State) (w : Who) (a : Nat) (map : Bool) : State :=
  match s.fetch4 w a map with
  | .error _ => s
  | .ok x =>
    let c := s.core w.core
    { s with cores := tabSet s.cores w.core { c with icache := tabSet c.icache (icKey w.ctx a) x } }

/-- The instruction cache of a core after the fetch of a clause: its header, its body of `n` words and the map words of both (R122). -/
def State.fillClause (s : State) (w : Who) (a n : Nat) : State :=
  match s.imageAt w.ctx a with
  | none => s
  | some i =>
    let first := (a - i.code) / 4
    let t := (upto (n + 1)).foldl (fun t k => t.fillCode w (a + 4 * k) false) s
    ((t.fillCode w (i.mapWord first) true).fillCode w (i.mapWord (first + n)) true)

/-- Words of a context in a range of addresses leave the instruction caches of some cores. -/
def State.dropCode (s : State) (ctx : Nat) (cores : Nat → Bool) (base n : Nat) : State :=
  { s with cores := tabMap s.cores fun k c =>
      if cores k then
        { c with icache := c.icache.filter fun e => !(decide (icKey ctx base ≤ e.1) && decide (e.1 < icKey ctx base + n)) }
      else c }

/-- The check of a branch target, a return address or an entry (R130): the cause and address it raises, of lowest rank (R203). -/
def State.badTarget (s : State) (w : Who) (a : Nat) : Option (Cause × Nat) :=
  match s.imageAt w.ctx a with
  | none => some (.illegal, a)
  | some i =>
    match s.mapBit w i ((a - i.code) / 4) with
    | .ok false => some (.illegal, a)
    | .ok true => if a % 4 = 0 then none else some (.misaligned, a)
    | .error c => if a % 4 = 0 then some c else some (.misaligned, a)

/-- The failure of lowest rank among some reads, the first of equals (R203). -/
def worstOf {α : Type} (rs : List (Except (Cause × Nat) α)) : Option (Cause × Nat) :=
  rs.foldl (fun w r =>
    match w, r with
    | none, .error e => some e
    | some d, .error e => some (worse d e)
    | w, .ok _ => w) none

/-- The check of a clause header (R122): its word, or the cause and address it raises in every arriving lane (log 62). What any readable part
fails is ILLEGAL, which ranks before a map word that cannot be read (R203). -/
def State.checkHeader (s : State) (w : Who) (a : Nat) : Except (Cause × Nat) Word :=
  match s.imageAt w.ctx a with
  | none => .error (.illegal, a)
  | some i =>
    match s.fetch4 w a false with
    | .error c => .error c
    | .ok h =>
      let n := (a - i.code) / 4
      let own := s.mapBit w i n
      let rest := (upto (hLen h)).map fun k => s.mapBit w i (n + 1 + k)
      if (12 ≤ hSeta h && hSeta h ≤ 14) || (12 ≤ hSetb h && hSetb h ≤ 14) || bits h.toNat 0 5 != 0 || i.words ≤ n + hLen h ||
          own.toOption == some false || rest.any (fun r => r.toOption == some true) then .error (.illegal, a)
      else
        match worstOf (own :: rest) with
        | some c => .error c
        | none => .ok h

end Sys2Proof.Machine
end

