-- ==== Sys2Proof/Machine/Flags.lean ====
section
/-!
DEFINITION. The completion flags f0-f11 of a thread (R124): which class an instruction counts in (Table 5.4), and the
increments and decrements. The part has no other flags: arithmetic sets none (R146).
-/

namespace Sys2Proof.Machine

/-- A flag's count; a flag not listed reads zero. -/
def Lane.flag (y : Lane) (f : Nat) : Nat := tabGetD y.flags f 0

/-- A flag with a count. -/
def Lane.setFlag (y : Lane) (f n : Nat) : Lane :=
  { y with flags := if n = 0 then tabDel y.flags f else tabSet y.flags f n }

/-- An increment, for a clause that counts. -/
def Lane.incFlag (y : Lane) : Option Nat → Lane
  | none => y
  | some f => y.setFlag f (y.flag f + 1)

/-- A decrement. -/
def Lane.decFlag (y : Lane) : Option Nat → Lane
  | none => y
  | some f => y.setFlag f (y.flag f - 1)

/-- Whether an increment would take the counter above 63 (R124). -/
def Lane.flagFull (y : Lane) : Option Nat → Bool
  | none => false
  | some f => 63 ≤ y.flag f

/-- Whether every flag that a WAIT mask names reads zero (R43). -/
def Lane.waitDone (y : Lane) (mask : Nat) : Bool := y.flags.all fun e => !bitAt mask e.1

/-- Whether all flags read zero. -/
def Lane.flagsZero (y : Lane) : Bool := y.flags.isEmpty

/-- Counting classes (Table 5.4). -/
inductive Cls where
  | memory | engine | neither
  deriving DecidableEq, Repr

/-- The class an instruction counts in. -/
def clsOf : Instr → Cls
  | .ld .. | .st .. | .lds .. | .sts .. | .ldu .. | .atom .. | .cas .. | .cctlWb .. | .cctlInv .. | .cctlWbinv ..
  | .icinv .. | .fetch .. | .fqry .. | .tex .. | .shfl .. | .rng .. | .rmask .. | .enq .. | .deq .. | .depset ..
  | .depdec .. | .depadd .. | .pxw .. | .cmbopen .. | .cmbput .. | .cmbstat .. | .cmbclose .. | .cmbcancel ..
  | .vapp .. | .vconn .. | .vmrg .. | .vmrq .. | .vget .. | .vret .. | .eseal .. | .fopen .. | .fclose .. => .memory
  | .cpy .. | .chain .. | .coll .. | .mma .. | .mmasp .. | .conv .. | .scacc .. | .aclr .. | .ald .. | .astFp32 ..
  | .astBf16 .. | .tld .. | .oprdy | .mwait .. | .trace .. | .hitget .. => .engine
  | _ => .neither

/-- The flag that an instruction of a thread's clause counts on, if any. -/
def Lane.flagOf (y : Lane) (i : Instr) : Option Nat :=
  let f :=
    match clsOf i with
    | .memory => hSeta y.hword
    | .engine => hSetb y.hword
    | .neither => 15
  if f < 12 then some f else none

end Sys2Proof.Machine
end

