-- ==== Sys2Proof/Machine/Order.lean ====
section
/-!
DEFINITION. Happens-before (R186-R191): what the matrix ports (R237) and reads of synchronising writes (R192, R193) ask of it. A moment is the
clock of the step that an operation performs in (log 16).
-/

namespace Sys2Proof.Machine

/-! ### Threads, engines and moments -/

/-- A thread, by its team and its thread index (R36). -/
def threadKey (team tix : Nat) : Nat := team * 2 ^ 64 + tix

/-- The thread of a lane. -/
def State.thread (s : State) (g l : Nat) : Nat := threadKey (s.group g).team ((s.group g).lane l).tix

/-- The writes of a thread's engine commands that count on a flag: a WAIT on it covers them (R194). -/
def engineKey (thread : Nat) (flag : Option Nat) : Nat := 2 ^ 160 + thread * 64 + flag.getD 15

/-- The writes of a thread's ASTs of an accumulator: a WAIT on the flag of an MWAIT for it covers them (R238). -/
def accumKey (thread acc : Nat) : Nat := 2 ^ 160 + thread * 64 + 16 + acc

/-- All that a grid has done, once it has completed (R68). -/
def gridKey (grid : Nat) : Nat := 2 ^ 240 + grid

/-- What a party's operations count for: its own, and its grid's. -/
def Party.keys (p : Party) : List Nat := [p.thread, gridKey p.grid]

/-- A unit of the device, whose releases are of DEVICE scope or wider. -/
def unitParty : Party := { thread := 2 ^ 239, team := 0, core := 0, unit := true }

/-- The last moments of both. -/
def joinTimes (a b : Tab Nat) : Tab Nat :=
  b.foldl (fun t e => if (tabGet t e.1).all (decide <| · ≤ e.2) then tabSet t e.1 e.2 else t) a

/-- Whether what is known reaches a moment of one of some threads or engines. -/
def knows (know : Tab Nat) (ks : List Nat) (moment : Nat) : Bool := ks.any fun k => (tabGet know k).any fun t => decide (moment ≤ t)

/-! ### Scopes (Table 8.1) -/

/-- A lane as a party, at an operation of some scope. -/
def State.party (s : State) (g l : Nat) : Party :=
  let x := s.group g
  { thread := s.thread g l, team := x.team, core := coreOf g, mates := x.live.map fun k => threadKey x.team (x.lane k).tix, grid := x.grid }

/-- Whether the instance of a scope for a party contains another. -/
def scopeHolds (sc : Scope) (p q : Party) : Bool :=
  match sc with
  | .thread => p.thread == q.thread
  | .group => p.mates.contains q.thread
  | .core => !q.unit && p.core == q.core
  | .pair => !q.unit && p.core / 2 == q.core / 2
  | .team => !q.unit && p.team == q.team
  | .die => q.unit || dieOf p.core == dieOf q.core
  | .device | .host | .fabric => true

/-- Whether a release and an acquire contain each other's threads (R188). -/
def Rel.meets (r : Rel) (sc : Scope) (q : Party) : Bool := scopeHolds r.scope r.party q && scopeHolds sc q r.party

/-! ### Operations of a thread -/

/-- A thread's place in happens-before. -/
def State.ordOf (s : State) (k : Nat) : ThreadOrd := tabGetD s.order.threads k {}

/-- A state with one thread's place changed. -/
def State.modOrd (s : State) (k : Nat) (f : ThreadOrd → ThreadOrd) : State :=
  { s with order := { s.order with threads := tabSet s.order.threads k (f (s.ordOf k)) } }

/-- A thread learns what happens-before its next operation by a device order (R188). -/
def State.learn (s : State) (k : Nat) (know : Tab Nat) : State :=
  if know = [] then s else s.modOrd k fun o => { o with seen := joinTimes o.seen know }

/-- Threads of a group learn so. -/
def State.learnAll (s : State) (team : Nat) (lanes : Tab Lane) (know : Tab Nat) : State :=
  lanes.foldl (fun t e => t.learn (threadKey team e.2.tix) know) s

/-- What happens-before a lane's next operation, all that it has done among it. -/
def State.seenBy (s : State) (g l : Nat) : Tab Nat :=
  joinTimes (s.ordOf (s.thread g l)).seen [(s.thread g l, s.clock)]

/-- A release of a lane. -/
def State.relOf (s : State) (g l : Nat) (sc : Scope) (know : Tab Nat) : Rel := ⟨s.party g l, sc, know⟩

/-- What happens-before what some lanes of a group do next. -/
def State.seenOf (s : State) (g : Nat) (ls : List Nat) : Tab Nat := ls.foldl (fun t l => joinTimes t (s.seenBy g l)) []

/-- A release that a unit of the device makes of what happens-before it. -/
def unitRel (sc : Scope) (know : Tab Nat) : Rel := ⟨unitParty, sc, know⟩

/-- What an acquire of DEVICE scope learns from releases of DEVICE scope or wider. -/
def knowOf (rs : List Rel) : Tab Nat := rs.foldl (fun t r => joinTimes t r.know) []

/-- Releases with another: what one party has released at one scope is one release, the later of the two knowing what the earlier does
(R188). -/
def addRel (rs : List Rel) (r : Rel) : List Rel :=
  if rs.any fun q => q.party == r.party && q.scope == r.scope then
    rs.map fun q => if q.party == r.party && q.scope == r.scope then { q with know := joinTimes q.know r.know } else q
  else rs ++ [r]

/-- A thread's place after it acquires from releases (R188). -/
def ThreadOrd.acquire (o : ThreadOrd) (q : Party) (sc : Scope) (rs : List Rel) : ThreadOrd :=
  { o with seen := (rs.filter fun r => r.meets sc q).foldl (fun t r => joinTimes t r.know) o.seen }

/-- A lane acquires from releases. -/
def State.acquireFrom (s : State) (g l : Nat) (sc : Scope) (rs : List Rel) : State :=
  if rs = [] then s else s.modOrd (s.thread g l) fun o => o.acquire (s.party g l) sc rs

/-- A lane has read what releases have written: an acquire fence may come after it. -/
def State.noteRead (s : State) (g l : Nat) (acq : Option Scope) (rs : List Rel) : State :=
  if rs = [] then s
  else
    let t := s.modOrd (s.thread g l) fun o => { o with read := rs.foldl addRel o.read }
    match acq with
    | some sc => t.acquireFrom g l sc rs
    | none => t

/-- FENCE.ACQ, and the acquire of FENCE.FULL. -/
def State.fenceAcquires (s : State) (g l : Nat) (sc : Scope) : State :=
  let rs := (s.ordOf (s.thread g l)).read
  if rs = [] then s
  else
    s.modOrd (s.thread g l) fun o =>
      { o.acquire (s.party g l) sc rs with read := o.read.filter fun r => !r.meets sc (s.party g l) }

/-- Whether a scope is CORE or wider (R194). -/
def coreWide (sc : Scope) : Bool := !(sc == .thread || sc == .group)

/-- A release of a lane: the bytes that its later copies read are those of now or later (R194). -/
def ThreadOrd.asyncAt (o : ThreadOrd) (sc : Scope) (now : Nat) : ThreadOrd := if coreWide sc then { o with async := some now } else o

/-- A lane has made a release. -/
def State.noteRelease (s : State) (g l : Nat) (sc : Scope) : State :=
  if coreWide sc then s.modOrd (s.thread g l) fun o => o.asyncAt sc s.clock else s

/-- FENCE.REL, and the release of FENCE.FULL: a release for every later write of the thread. -/
def State.fenceReleases (s : State) (g l : Nat) (sc : Scope) (know : Tab Nat) : State :=
  s.modOrd (s.thread g l) fun o => { o.asyncAt sc s.clock with fences := (sc, know) :: o.fences.filter fun f => f.1 != sc }

/-- FENCE.FULL takes its place in the order of all of them (R191). -/
def State.fenceFull (s : State) (g l : Nat) (sc : Scope) : State :=
  let t := (s.fenceAcquires g l sc).acquireFrom g l sc s.order.fulls
  let know := t.seenBy g l
  let r := t.relOf g l sc know
  let t := t.fenceReleases g l sc know
  { t with order := { t.order with
      fulls := (t.order.fulls.filter fun f => !(f.party.thread == r.party.thread && f.scope == sc)) ++ [r] } }

/-- An entry of a lane's chain has performed, or its group restarts: nothing that the lane reads from now on is of before. -/
def State.noteActed (s : State) (g l : Nat) : State := s.modOrd (s.thread g l) fun o => { o with acted := s.clock }

/-- A whole group restarts. -/
def State.groupActed (s : State) (g : Nat) : State := (s.group g).live.foldl (fun t l => t.noteActed g l) s

/-! ### Bytes -/

/-- Whether two runs of bytes overlap. -/
def Loc.overlaps (a : Loc) (n : Nat) (b : Loc) (m : Nat) : Bool :=
  match a, b with
  | .phys x, .phys y => decide (x < y + m) && decide (y < x + n)
  | .spad t i x, .spad u j y => t == u && i == j && decide (x < y + m) && decide (y < x + n)
  | _, _ => false

/-- The location some bytes further on. -/
def Loc.add : Loc → Nat → Loc
  | .phys pa, k => .phys (pa + k)
  | .spad t i ofs, k => .spad t i (ofs + k)

/-! ### Idempotent regions (R99) -/

/-- A thread's region. -/
def State.region (s : State) (k : Nat) : Region := tabGetD s.order.regions k {}

/-- A state with one thread's region changed. -/
def State.modRegion (s : State) (k : Nat) (f : Region → Region) : State :=
  { s with order := { s.order with regions := tabSet s.order.regions k (f (s.region k)) } }

/-- A region after an instruction that reads and writes registers. -/
def Region.uses (r : Region) (srcs dsts : List PReg) : Region :=
  let read := r.regsRead ++ (srcs.filter fun p => !r.regsWrote.contains p && !r.regsRead.contains p).eraseDups
  { r with regsRead := read, regsWrote := r.regsWrote ++ dsts.filter fun p => !r.regsWrote.contains p, broken := r.broken || dsts.any read.contains }

/-- A region after a read of memory: the bytes that it has not written itself are read first (log 65). -/
def Region.reads (r : Region) (loc : Loc) (n : Nat) : Region :=
  let own (a : Loc) (n : Nat) : Bool := r.memWrote.any fun p => p.loc.overlaps p.len a n
  let runs := if own loc n then ((upto n).map fun k => (loc.add k, 1)).filter fun a => !own a.1 a.2 else [(loc, n)]
  { r with memRead := r.memRead ++ runs.filter fun a => !r.memRead.contains a }

/-- A region after a write of memory. -/
def Region.writes (r : Region) (p : Piece) : Region :=
  { r with
    memWrote := if r.memWrote.contains p then r.memWrote else r.memWrote ++ [p]
    broken := r.broken || r.memRead.any fun a => a.1.overlaps a.2 p.loc p.len }

/-! ### Writes and the releases that reads of them meet -/

/-- Whether the bytes of a location were last stored at a moment. -/
def State.standsAt (s : State) (loc : Loc) (n time : Nat) : Bool :=
  (upto n).all fun k =>
    match loc with
    | .phys pa => s.storedAt (pa + k) == time
    | .spad t i ofs => (s.slice? t i).any fun x => (tabGet x.bytes (ofs + k)).any fun b => b.wrote == time

/-- The stores to a byte, the last first, each with the value before it. -/
def State.pastOf (s : State) (l : Loc) : List (Nat × Byte) :=
  match l with
  | .phys pa => tabGetD s.stored pa []
  | .spad t i ofs =>
    match (s.slice? t i).bind fun x => (tabGet x.bytes ofs).map fun b => (x, b) with
    | some (x, b) => b.past.map fun e => (e.1, e.2.getD (Config.freeByte x.seed ofs))
    | none => []

/-- A value with the stores made at a moment or later undone. -/
def undone (time : Nat) (now : Byte) : List (Nat × Byte) → Byte
  | [] => now
  | e :: r => if time ≤ e.1 then undone time e.2 r else now

/-- The bytes of a location as they were before a moment. -/
def State.before (s : State) (loc : Loc) (n time : Nat) : List Byte :=
  ((s.readLoc loc n).zip (upto n)).map fun p => undone time p.1 (s.pastOf (loc.add p.2))

/-- Whether bytes have kept their values since a moment. -/
def State.steady (s : State) (loc : Loc) (n since : Nat) : Bool :=
  ((s.readLoc loc n).zip (upto n)).all fun p => ((s.pastOf (loc.add p.2)).takeWhile fun e => decide (since < e.1)).all fun e => e.2 == p.1

/-- The moments after a given one at which bytes of a location have been stored to. -/
def State.moments (s : State) (loc : Loc) (n since : Nat) : List Nat :=
  ((upto n).flatMap fun k => ((s.pastOf (loc.add k)).takeWhile fun e => decide (since < e.1)).map (·.1)).eraseDups

/-- One of some choices, or none of them, as a free value says (log 2). -/
def pick {α : Type} (free : Nat) : List α → Option α
  | [] => none
  | a :: r => match free % (r.length + 2) with | 0 => none | k + 1 => (a :: r)[k]?

/-- A location as one read finds it that is made at any time after a moment: as it is, or as it was before one of the stores since. -/
def State.readSince (s : State) (loc : Loc) (n since free : Nat) : List Byte :=
  match pick free (s.moments loc n since) with
  | none => s.readLoc loc n
  | some t => s.before loc n t

/-- The releases that a read of a byte of memory meets. -/
def State.relsOfByte (s : State) (pa : Nat) : List Rel :=
  match tabGet s.order.writes pa with
  | some (t, rs) => if s.storedAt pa = t then rs else []
  | none => []

/-- The releases that a read of a location meets. -/
def State.relsAt (s : State) (loc : Loc) (n : Nat) : List Rel :=
  match loc with
  | .phys pa => if s.order.writes = [] then [] else ((upto n).flatMap fun k => s.relsOfByte (pa + k)).foldl addRel []
  | .spad t i ofs =>
    match s.slice? t i with
    | none => []
    | some x => ((upto n).flatMap fun k => match tabGet x.bytes (ofs + k) with | some b => b.rels | none => []).foldl addRel []

/-- The synchronising writes that a location holds, the last first, where the last of them stands. -/
def State.syncsOf (s : State) (loc : Loc) (n : Nat) : List AtomWrite :=
  match s.order.atoms.find? fun e => e.1 == loc with
  | some (_, a :: r) => if a.size = n && s.standsAt loc n a.time then a :: r else []
  | _ => []

/-- A synchronising write takes its place after those that a location held. -/
def State.noteSync (s : State) (loc : Loc) (held : List AtomWrite) (a : AtomWrite) : State :=
  { s with order := { s.order with
      atoms := (s.order.atoms.filter fun e => e.2 != [] && e.2.all fun b => !e.1.overlaps b.size loc a.size) ++ [(loc, a :: held)] } }

/-- Readers of a write, each from its first read on. -/
def AtomWrite.readBy (a : AtomWrite) (ks : List Nat) (clock : Nat) : AtomWrite :=
  { a with readers := ks.foldl (fun t k => if (tabGet t k).isSome then t else tabSet t k clock) a.readers }

/-- The writes of a location after a read by some parties: of the last, or of the one before a write that they have missed. -/
def readWrites (ks : List Nat) (clock : Nat) : Option AtomWrite → List AtomWrite → List AtomWrite
  | _, [] => []
  | none, b :: r => b.readBy ks clock :: r
  | some a, b :: r => b :: readWrites ks clock (if b = a then none else some a) r

/-- Parties have read a location, having missed a write or not. -/
def State.noteReaders (s : State) (ks : List Nat) (loc : Loc) (n : Nat) (missed : Option AtomWrite) : State :=
  if s.order.atoms = [] then s
  else
    let atoms := s.order.atoms.map fun e =>
      if e.2.any (fun b => e.1.overlaps b.size loc n) then
        (e.1, readWrites ks s.clock (if e.1 == loc then missed else none) e.2)
      else e
    { s with order := { s.order with atoms := atoms } }

/-- The effects of a grid are visible to every agent of the device: none can miss a write of it any more (R68). -/
def State.allSee (s : State) (grid : Nat) : State :=
  if s.order.atoms = [] then s
  else
    { s with order := { s.order with atoms := s.order.atoms.map fun e => (e.1, e.2.takeWhile fun a => a.party.grid != grid) } }

/-- Bytes of a slice with their writers and the releases that a read of them meets. -/
def Slice.stamp (x : Slice) (writers : List Nat) (rels : List Rel) (ofs n : Nat) : Slice :=
  { x with bytes := (upto n).foldl (fun t k => tabMod t (ofs + k) fun b => { b with writers := writers, rels := rels }) x.bytes }

/-- A location written: who has written it, and the releases that a read of it meets. -/
def State.stamp (s : State) (loc : Loc) (n : Nat) (writers : List Nat) (rels : List Rel) : State :=
  match loc with
  | .spad t i ofs => s.modSlice t i fun x => x.stamp writers rels ofs n
  | .phys pa =>
    if rels = [] && s.order.writes = [] then s
    else
      { s with order := { s.order with writes := (upto n).foldl (fun t k =>
          if rels = [] then tabDel t (pa + k) else tabSet t (pa + k) (s.clock, rels)) s.order.writes } }

/-- A lane has written a location, with a release of its own or after its release fences; `keep` are the releases whose sequence a
read-modify-write carries on (R188). -/
def State.noteWrite (s : State) (g l : Nat) (loc : Loc) (n : Nat) (rel : Option (Scope × Tab Nat)) (keep : List Rel) : State :=
  let own := (rel.toList ++ (s.ordOf (s.thread g l)).fences).map fun f => s.relOf g l f.1 f.2
  let t := s.stamp loc n [s.thread g l] ((own ++ keep).foldl addRel [])
  match rel with
  | some r => t.noteRelease g l r.1
  | none => t

/-- An engine has written pieces for a command. -/
def State.engineWrote (s : State) (ps : List Piece) (writers : List Nat) : State :=
  ps.foldl (fun t p => match p.loc with | .spad .. => t.stamp p.loc p.len writers [] | .phys _ => t) s

/-! ### Orders that are no bytes -/

/-- A slot of a stage ring, as a place that carries releases (R177). -/
def ringSync (team slice id slot : Nat) : Nat := 4 * (((team * 256 + slice) * 256 + id) * 256 + slot)

/-- A slot of a queue. -/
def slotSync (q idx : Nat) : Nat := 4 * (idx * 64 + q) + 1

/-- The ordered sections of a pixel (R276). -/
def sectionSync (grid x y : Nat) : Nat := 4 * ((grid * 65536 + x) * 65536 + y) + 2

/-- Releases made at such a place, after those that it keeps. -/
def State.publish (s : State) (key : Nat) (rs : List Rel) : State :=
  { s with order := { s.order with syncs := tabSet s.order.syncs key rs } }

/-- The releases at such a place. -/
def State.syncAt (s : State) (key : Nat) : List Rel := tabGetD s.order.syncs key []

/-- Releases of lanes, of all that each has done. -/
def State.relsOf (s : State) (g : Nat) (ls : List Nat) (sc : Scope) : List Rel := ls.map fun l => s.relOf g l sc (s.seenBy g l)

/-- Lanes acquire at a place. -/
def State.acquireAt (s : State) (g : Nat) (ls : List Nat) (sc : Scope) (key : Nat) : State :=
  ls.foldl (fun t l => t.acquireFrom g l sc (s.syncAt key)) s

/-- What a DEVICE-scope acquire at a place learns. -/
def State.knownAt (s : State) (key : Nat) : Tab Nat := knowOf (s.syncAt key)

/-- Lanes release at a place, in place of what it kept. -/
def State.releaseAt (s : State) (g : Nat) (ls : List Nat) (sc : Scope) (key : Nat) : State :=
  ls.foldl (fun t l => t.noteRelease g l sc) (s.publish key (s.relsOf g ls sc))

/-! ### Commands of the engines -/

/-- The writers that an engine command's writes count for: its threads, by the flag it counts on. -/
def Owner.writers (o : Owner) : List Nat := o.threads.map fun t => engineKey t o.flag

/-- A lane has issued an engine command that counts on a flag. -/
def State.noteCommand (s : State) (g l : Nat) (flag : Option Nat) : State :=
  match flag with
  | none => s
  | some f =>
    if (s.ordOf (s.thread g l)).cmds.contains f then s
    else s.modOrd (s.thread g l) fun o => { o with cmds := o.cmds ++ [f] }

/-- A thread's place after a WAIT on flags: the writes of its commands that count on them happen-before it (R194, R238). -/
def ThreadOrd.afterWait (o : ThreadOrd) (thread mask now : Nat) : ThreadOrd :=
  { o with
    seen := joinTimes o.seen (((o.cmds.filter (bitAt mask)).map fun f => (engineKey thread (some f), now)) ++
      (o.waited.filter fun w => bitAt mask w.1).map fun w => (accumKey thread w.2.1, w.2.2))
    waited := o.waited.filter fun w => !bitAt mask w.1 }

/-- A lane passes a header with a WAIT mask. -/
def State.noteWait (s : State) (mask g l : Nat) : State :=
  if mask = 0 || (s.ordOf (s.thread g l)).cmds = [] then s
  else s.modOrd (s.thread g l) fun o => o.afterWait (s.thread g l) mask s.clock

end Sys2Proof.Machine
end

