-- ==== Sys2Proof/Machine/Work.lean ====
section
/-!
DEFINITION. Queues and dependency counters (R70-R79), completion signals (R68), and the end of a grid (R211, R213).
-/

namespace Sys2Proof.Machine

/-! ### Queue descriptors (Table 3.5) -/

/-- A field of a descriptor. -/
def Queue.field (q : Queue) (ofs n : Nat) : Nat := leNat ((q.desc.drop ofs).take n)

/-- Descriptor bytes with some replaced. -/
def putBytes (l : List Byte) (ofs : Nat) (bs : List Byte) : List Byte := l.take ofs ++ bs ++ l.drop (ofs + bs.length)

/-- A descriptor with a field replaced. -/
def Queue.setField (q : Queue) (ofs n x : Nat) : Queue := { q with desc := putBytes q.desc ofs (leBytes n x) }

/-- EN. -/
def Queue.en (q : Queue) : Bool := bitAt (q.field 0x11 1) 0
/-- MODE is task. -/
def Queue.task (q : Queue) : Bool := bitAt (q.field 0x11 1) 1
/-- PRODUCER is device. -/
def Queue.device (q : Queue) : Bool := bitAt (q.field 0x11 1) 2
/-- PRIVQ. -/
def Queue.priv (q : Queue) : Bool := bitAt (q.field 0x11 1) 3
/-- CTXID. -/
def Queue.ctxid (q : Queue) : Nat := q.field 0x12 2
/-- Slots. -/
def Queue.slots (q : Queue) : Nat := 2 ^ q.field 0x10 1
/-- Bytes of a slot. -/
def Queue.slotBytes (q : Queue) : Nat := if q.task then 16 else 128
/-- The address of the slot of an index. -/
def Queue.slotAddr (q : Queue) (i : Nat) : Nat := q.field 0 8 + q.slotBytes * (i % q.slots)

/-- A queue with STATUS bits set. -/
def Queue.orStatus (q : Queue) (m : Nat) : Queue := q.setField 0x14 4 (q.field 0x14 4 ||| m)

/-- A queue with EN clear. -/
def Queue.disable (q : Queue) : Queue := q.setField 0x11 1 (q.field 0x11 1 / 2 * 2)

/-- A queue. -/
def State.queue (s : State) (q : Nat) : Queue := tabGetD s.queues q {}

/-- A state with one queue changed. -/
def State.modQueue (s : State) (q : Nat) (f : Queue → Queue) : State :=
  { s with queues := tabSet s.queues q (f (s.queue q)) }

/-- The packet at a queue's read index has become its head: its PRIO counts as it is now (R80; 0 where it cannot be read, log 60). -/
def State.newHead (s : State) (q : Nat) : State :=
  let x := s.queue q
  if x.w ≤ x.r || x.task then s
  else
    let p := match s.readVa (unitWho x.ctxid x.priv) (x.slotAddr x.r + 1) 1 with | .ok b => leNat b | .error _ => 0
    (s.touchVa (unitWho x.ctxid x.priv) (x.slotAddr x.r + 1) 1).modQueue q fun y => { y with prio := p, boost := 0, since := s.clock }

/-- XLFAULT: a ring or index-block access of the Drover failed (R71). -/
def State.xlfault (s : State) (q : Nat) : State := s.modQueue q fun x => (x.orStatus 0x20).disable

/-- A queue's ring and index block, as the Drover reads and writes them (R71). -/
def Queue.who (x : Queue) : Who := unitWho x.ctxid x.priv

/-- The entry of bytes into the next slot, and the advance of the write index (R75, R76). -/
def State.pushSlot (s : State) (q : Nat) (bs : List Byte) : Except (Cause × Nat) State :=
  let x := s.queue q
  match s.putVa x.who (x.slotAddr x.w) bs with
  | .error c => .error c
  | .ok s1 =>
    match s1.putVa x.who (x.field 8 8) (leBytes 8 (x.w + 1)) with
    | .error c => .error c
    | .ok s2 =>
      let s3 := s2.modQueue q fun y => { y with w := y.w + 1 }
      .ok (if x.w = x.r then s3.newHead q else s3)

/-! ### Completion signals (R68) -/

/-- The value of a completion signal (R68): 1 on success (status 0), or bit 63 with the status. -/
def signalValue (status : Nat) : Nat := if status = 0 then 1 else 2 ^ 63 + status % 2 ^ 16

/-- A write by a unit, as a release of what happens-before it. -/
def State.putRel (s : State) (w : Who) (va : Nat) (bs : List Byte) (sc : Scope) (know : Tab Nat) : Except (Cause × Nat) State :=
  match s.xlateAll w .store va bs.length, s.putVa w va bs with
  | .ok ps, .ok t => .ok (ps.foldl (fun t p => t.stamp p.loc p.len [] [unitRel sc know]) t)
  | .error e, _ => .error e
  | _, .error e => .error e

/-- Step 2 of R68, a release of HOST scope; a signal that cannot be written sets SIGFAULT. -/
def State.writeSignal (s : State) (q ctx : Nat) (sys : Bool) (sig : Nat) (status : Nat) (know : Tab Nat) : State :=
  if sig = 0 || sig % 8 != 0 then s.modQueue q fun x => x.orStatus 0x2
  else
    match s.putRel (unitWho ctx sys) sig (leBytes 8 (signalValue status)) .host know with
    | .ok t => t
    | .error _ => s.modQueue q fun x => x.orStatus 0x2

/-! ### Delivery of fired packets (R79) -/

/-- A copy dropped: DROPFIRE, and the packet's own signal with NOQUEUE. -/
def State.dropHeld (s : State) (q : Nat) (h : Held) : State :=
  let s := s.modQueue q fun x =>
    let x := x.orStatus 0x40
    match h.counter with
    | some c => x.setField 0x16 2 c
    | none => x
  let x := s.queue q
  let sig := leNat ((h.bytes.drop 0x48).take 8)
  if sig != 0 && sig % 8 == 0 then s.writeSignal q x.ctxid x.priv sig 0x0005 h.know else s

/-- A copy enters the next slot of its queue; the grid that it starts acquires what happens-before the firing (R78). -/
def State.pushHeld (s : State) (q : Nat) (h : Held) : Except (Cause × Nat) State :=
  match s.pushSlot q h.bytes with
  | .error e => .error e
  | .ok t => .ok (t.publish (slotSync q (s.queue q).w) [unitRel .device h.know])

/-- Delivery of a copy to its queue. -/
def State.deliver (s : State) (q : Nat) (h : Held) : State :=
  let x := s.queue q
  if !x.en || x.task || !x.device then s.dropHeld q h
  else if x.slots ≤ x.w - x.r || !x.hold.isEmpty then s.modQueue q fun y => { y with hold := y.hold ++ [h] }
  else
    match s.pushHeld q h with
    | .ok t => t
    | .error _ => (s.xlfault q).dropHeld q h

/-- The copies held for a queue that can no longer take them are dropped (R79). -/
def State.dropHolds (s : State) (q : Nat) : State :=
  let hs := (s.queue q).hold
  hs.foldl (fun t h => t.dropHeld q h) (s.modQueue q fun x => { x with hold := [] })

/-! ### Dependency counters (R77) -/

/-- A counter. -/
def State.counter (s : State) (c : Nat) : Counter := tabGetD s.counters c {}

/-- A counter event flagged in a queue's STATUS, with CNTID. -/
def State.flagCounter (s : State) (q c bit : Nat) : State :=
  s.modQueue q fun x => (x.orStatus (2 ^ bit)).setField 0x16 2 c

/-- Whether a packet of 128 bytes has stayed mapped and unchanged since a moment: neither its bytes nor the table entries that its walk reads
have held other values (R295, log 72). -/
def State.packetSteady (s : State) (w : Who) (pkt since : Nat) : Bool :=
  match s.xlateAll w .load pkt 128 with
  | .error _ => false
  | .ok ps =>
    (ps.all fun p => s.steady p.loc p.len since) &&
      (walkEntries s.mem pkt 5 (tabGetD s.ctxs w.ctx { root := 0 }).root).all fun a => s.steady (.phys a) 8 since

/-- `Fire(c)`: the packet is copied through the context that the queue names now, with the privilege of DEPSET's issuer (log 72); one that has
not stayed mapped and unchanged since DEPSET is copied as undefined values (R295). -/
def State.fire (s : State) (c : Nat) : State :=
  let k := s.counter c
  let q := k.queue.getD 0
  let w := unitWho (s.queue q).ctxid k.sys
  let same := match s.readVa w k.packet 128 with | .ok b => b == k.bytes | .error _ => false
  let bs := if same && s.packetSteady w k.packet k.since then k.bytes else s.freeBytes (2 ^ 40 + c * 128) 128
  { s.touchVa w k.packet 128 with counters := tabSet s.counters c { k with armed := false } }.deliver q ⟨bs, some c, k.know⟩

/-- `Change(c, d)`, a release of what happens-before it (R78). -/
def State.change (s : State) (c : Nat) (d : Int) (know : Tab Nat) : State :=
  let k := s.counter c
  let q := k.queue.getD 0
  let x : Int := k.value + d
  let s := if x < 0 then s.flagCounter q c 2 else s
  let s := if x > 0xFFFFFFFF then s.flagCounter q c 3 else s
  let v := (max 0 (min x 0xFFFFFFFF)).toNat
  let s := { s with counters := tabSet s.counters c { k with value := v, know := joinTimes k.know know } }
  if k.armed && k.value != 0 && v == 0 then s.fire c else s

/-- `DEPSET c, n, pkt, q`, by a reader of the packet. -/
def State.depset (s : State) (w : Who) (c n pkt q : Nat) (know : Tab Nat) : State :=
  let k := s.counter c
  let s := if k.armed then s.flagCounter (k.queue.getD 0) c 4 else s
  let s := { s.touchVa w pkt 128 with
    counters := tabSet s.counters c
      ⟨n, true, pkt, some q, (match s.readVa w pkt 128 with | .ok b => b | .error _ => []), w.sys, s.clock, know⟩ }
  if n = 0 then s.fire c else s

/-! ### Frames and epochs that close (R259, R261) -/

/-- A vertex's path id. -/
def Vertex.path (v : Vertex) : Nat := ((v.words[12]?).getD 0).toNat

/-- Whether some open frame draws on an epoch. -/
def Ctx.drawn (c : Ctx) (e : Nat) : Bool := c.frames.any fun f => f.2.bitmap.getLsbD e

/-- RETIRING epochs that no open frame draws on become FREE, and the slots of paths retired before every open frame
that draws on their epoch are freed. -/
def Ctx.sweep (c : Ctx) : Ctx :=
  let freed := (c.epochs.filter fun e => e.2.st == .retiring && !c.drawn e.1).map (·.1)
  let gone (id : Nat) (v : Vertex) : Bool :=
    let e := id / 2 ^ 26
    freed.contains e ||
      match tabGet (tabGetD c.epochs e {}).retired v.path with
      | some n => !c.frames.any fun f => f.2.bitmap.getLsbD e && decide (f.2.opened < n)
      | none => false
  { c with
    epochs := c.epochs.filter fun e => !freed.contains e.1
    verts := c.verts.filter fun v => !gone v.1 v.2 }

/-- A frame closed. -/
def Ctx.closeFrame (c : Ctx) (f : Nat) : Ctx := { c with frames := tabDel c.frames f }.sweep

/-! ### Combine slots freed (R281) -/

/-- A context's combine state on a die. -/
def Ctx.coop (c : Ctx) (d : Nat) : Cooper := tabGetD c.coops d {}

/-- A slot becomes FREE, and its generation rises. -/
def Cooper.freeSlot (k : Cooper) (i : Nat) : Cooper :=
  { k with slots := tabDel k.slots i, gens := tabSet k.gens i ((tabGetD k.gens i 0 + 1) % 4096) }

/-- A state with one Cooperage's table changed. -/
def State.modCoop (s : State) (ctx d : Nat) (f : Cooper → Cooper) : State :=
  s.modCtx ctx fun c => { c with coops := tabSet c.coops d (f (c.coop d)) }

/-! ### The end of a grid -/

/-- The grid of a trap record. -/
def Ctx.recordGrid (c : Ctx) (n : Nat) : Option Nat := (tabGet c.records n).map (·.grid)

/-- A completed grid goes once no shadow run of it is left (R225). -/
def State.reapGrid (s : State) (k : Nat) : State :=
  if (s.grid k).ended && (s.teams.all fun t => t.2.grid != k || t.2.shadow.isNone) then
    { s with grids := tabDel s.grids k, teams := s.teams.filter fun t => t.2.grid != k }
  else s

/-- What happens-before the completion of a grid: all that its threads have done and acquired (R68). -/
def State.gridKnows (s : State) (k : Nat) : Tab Nat :=
  joinTimes (joinTimes (s.grid k).know (s.grid k).gained) [(gridKey k, s.clock)]

/-- R68, its effects visible first; the freeing of the grid's trap records (R204), and the return of the cores picked for it (R220). -/
def State.finishGrid (s : State) (k status : Nat) : State :=
  let gr := s.grid k
  let know := s.gridKnows k
  let s := (s.allSee k).modCtx gr.ctx fun c => { c with records := c.records.filter fun r => r.2.grid != k }
  let s := s.writeSignal gr.queue gr.ctx gr.pkt.sys gr.pkt.signal.toNat status know
  let s := if gr.pkt.counter < 65536 then s.change gr.pkt.counter (-1) know else s
  { s with
    grids := tabMap (tabMod s.grids k fun g => { g with ended := true, progress := none }) fun _ g =>
      { g with picked := g.picked.filter fun p => p.2.2 != some k } }.reapGrid k

/-- Groups taken off their slots, with their closures, chain entries and accesses, but for remote puts and ICINVs, which go on. -/
def State.dropGroups (s : State) (p : Nat → Group → Bool) : State :=
  let gone (g : Nat) : Bool :=
    match tabGet s.groups g with
    | some x => p g x
    | none => false
  { s with
    groups := s.groups.filter fun e => !p e.1 e.2
    ops := s.ops.filter fun e => !gone e.2.g || e.2.remote.isSome || e.2.icinv
    resid := s.resid.filter fun e => !gone e.2.g }

/-- The OPEN slots that a grid opened are freed (R285). -/
def Cooper.dropOpener (p : Cooper) (k : Nat) : Cooper :=
  p.slots.foldl (fun (q : Cooper) (e : Nat × CSlot) =>
    if e.2.opener == k && e.2.st == .opened then q.freeSlot e.1 else q) p

/-- The frames that a grid opened are closed (R366). -/
def Ctx.dropOpener (c : Ctx) (k : Nat) : Ctx :=
  c.frames.foldl (fun (d : Ctx) (f : Nat × Frame) => if f.2.opener == k then d.closeFrame f.1 else d) c

/-- The ICINVs of a grid complete (R68, R140). -/
def State.endIcinvs (s : State) (p : MemOp → Bool) : State :=
  let t := (s.ops.filter fun e => e.2.icinv && p e.2).foldl (fun t e => t.dropCode e.2.ctx e.2.reach.contains 0 (2 ^ 64)) s
  { t with ops := t.ops.filter fun e => !(e.2.icinv && p e.2) }

/-- R213: a grid that ends with an error status. -/
def State.abortGrid (s : State) (k status : Nat) : State :=
  let gr := s.grid k
  let ours (t : Nat) : Bool := (s.team t).grid == k
  let s1 := (s.endIcinvs fun o => o.grid == k).dropGroups fun _ x => x.grid == k
  let s2 := { s1 with
    teams := s1.teams.filter fun t => t.2.grid != k || t.2.shadow.isNone
    cores := tabMap s1.cores fun _ c =>
      { c with
        bins := c.bins.filter fun b => b.2.grid != k
        deque := c.deque.filter fun e => e.1 != k
        copyq := c.copyq.filter fun q => !ours q.own.team
        mport := c.mport.filter fun q => !ours q.own.team
        munwaited := c.munwaited.filter fun q => !ours q.own.team }
    colls := s1.colls.filter fun c => c.2.grid != some k &&
      (match c.2.own with | some q => !ours q.team | none => true) }
  let s3 := s2.modCtx gr.ctx fun c =>
    { c with
      coops := tabMap c.coops fun _ p => p.dropOpener k
      handlers := c.handlers.filter fun n => c.recordGrid n != some k }.dropOpener k
  s3.finishGrid k status

end Sys2Proof.Machine
end

