-- ==== Sys2Proof/Machine/Ops.lean ====
section
/-!
DEFINITION. The issue set in focus; TAKING A TRAP (R201-R206), the taking of its record (R204, R205) and the return from
it (R209); parking (R44), the running set under DET (R50).
-/

namespace Sys2Proof.Machine

/-! ### The issue set in focus -/

/-- The issue set that an instruction acts for: its group slot, the group, its grid, the active lanes. -/
structure Cx where
  g : Nat
  x : Group
  gr : Grid
  ls : List Nat
  deriving DecidableEq, Repr

/-- The issue set that the step has chosen. -/
def State.inFocus (s : State) : Option Cx :=
  match s.focus with
  | none => none
  | some f =>
    match tabGet s.groups f.g with
    | none => none
    | some x =>
      match tabGet s.grids x.grid with
      | none => none
      | some gr => if f.lanes = [] then none else some ⟨f.g, x, gr, f.lanes⟩

/-- Who the issue set's accesses are made by. -/
def Cx.who (c : Cx) : Who := ⟨coreOf c.g, c.gr.ctx, c.gr.pkt.sys⟩

/-- The lowest active lane. -/
def Cx.l0 (c : Cx) : Nat := c.ls.headD 0

/-- The thread of the lowest active lane. -/
def Cx.y0 (c : Cx) : Lane := c.x.lane c.l0

/-- The issue set with its group read afresh and other lanes. -/
def Cx.again (c : Cx) (s : State) (ls : List Nat) : Cx := { c with x := s.group c.g, ls := ls }

/-! ### Traps -/

/-- A lane's fault: its number, cause and address. -/
abbrev LaneFault := Nat × Cause × Nat

/-- The primary fault (R203): the lowest rank, and of those the lowest lane; faults are listed in lane order. -/
def primary : List LaneFault → Option LaneFault
  | [] => none
  | f :: r =>
    match primary r with
    | none => some f
    | some p => if p.2.1.rank < f.2.1.rank then some p else some f

/-- The lanes that a check fails in, in lane order (R34). -/
def faultsOf (ls : List Nat) (f : Nat → Option (Cause × Nat)) : List LaneFault :=
  ls.filterMap fun l => (f l).map fun p => (l, p.1, p.2)

/-- The cause that a lane records of several checks: the lowest rank, the first of equals (R203). -/
def firstOf : List (Option (Cause × Nat)) → Option (Cause × Nat)
  | [] => none
  | none :: r => firstOf r
  | some c :: r =>
    match firstOf r with
    | none => some c
    | some d => some (worse c d)

/-- One check. -/
def must (ok : Bool) (c : Cause) (a : Nat) : Option (Cause × Nat) := if ok then none else some (c, a)

/-- The check of a team abandoned (R224): the shadow run stops and is discarded. -/
def State.abandonCheck (s : State) (t : Nat) : State :=
  match (s.team t).shadow with
  | none => s
  | some sh =>
    let s := s.dropGroups fun _ x => x.team == t
    let s := { s with teams := tabDel s.teams t, abandon := min 65535 (s.abandon + 1) }
    (s.modTeam sh.primary fun p => { p with checked := false }).reapGrid (s.team sh.primary).grid

/-- The shadow run of a team, if it is checked. -/
def State.shadowOf (s : State) (t : Nat) : Option Nat :=
  (s.teams.find? fun e => match e.2.shadow with | some sh => sh.primary == t | none => false).map (·.1)

/-- A group suspended at a trap: what its record will say is fixed now. -/
def suspend (x : Group) (t : Trapped) : Group := { x with trap := some t }

/-- A trap of a group, as raised: TRAPBASE governs it as it stands now (R427). -/
def State.trapped (s : State) (x : Group) (fs : List LaneFault) (pc hdr : DWord) : Trapped :=
  { faults := fs, pc := pc, hdr := hdr, base := (s.ctx (s.grid x.grid).ctx).trapbase }

/-- TAKING A TRAP: the instruction has no effect in any lane, and the whole group stops (R202, R203, R44). A shadow run
that traps is abandoned instead (R224). -/
def State.trap (s : State) (c : Cx) (fs : List LaneFault) : Out State :=
  if (s.team c.x.team).shadow.isSome then .next (s.abandonCheck c.x.team)
  else
    .next (s.modGroup c.g fun x => suspend x (s.trapped c.x fs c.y0.pc c.y0.hdr))

/-- A trap with one cause in every active lane. -/
def State.trapAll (s : State) (c : Cx) (k : Cause) (a : Nat) : Out State := s.trap c (c.ls.map fun l => (l, k, a))

/-- Checks in every lane, and then the effect: the shape of every instruction that may fault (R34). -/
def State.checked (s : State) (c : Cx) (f : Nat → Option (Cause × Nat)) (k : Out State) : Out State :=
  if faultsOf c.ls f = [] then k else s.trap c (faultsOf c.ls f)

/-- Checks made once for the issue set: a failure is recorded in every active lane. -/
def State.checkedOnce (s : State) (c : Cx) (f : Option (Cause × Nat)) (k : Out State) : Out State :=
  match f with
  | none => k
  | some (e, a) => s.trapAll c e a

/-- The pool of trap records that TRAPBASE names: base address, and how many (Table 9.2). -/
def trapPool (base : DWord) : Nat × Nat := (bits base.toNat 12 45 * 4096, 2 ^ bits base.toNat 0 4)

/-- Whether a residual is the second access of a B128 store, which is no closure and no chain entry. -/
def Resid.isHalf (r : Resid) : Bool := match r.kind with | .half .. => true | _ => false

/-- Closures and chain entries outstanding in a group. -/
def State.outstanding (s : State) (g : Nat) : Nat := (s.resid.filter fun e => e.2.g == g && !e.2.isHalf).length

/-- The team identifier that a trap record carries. -/
def recordTid (x : Group) (t : Team) : Nat := if x.bin.isSome then 2 ^ 64 - 1 else t.tid

/-- A trap record (Table 9.3). -/
def recordBytes (s : State) (g : Nat) (x : Group) (t : Trapped) : List Byte :=
  let gr := s.grid x.grid
  let tm := s.team x.team
  let p := (primary t.faults).getD (0, .illegal, 0)
  let flags :=
    (if x.bin.isSome then 0 else x.gidx) * 2 ^ 22 + (if tm.shadow.isSome then 2 ^ 19 else 0) + (if gr.pkt.sys then 2 ^ 18 else 0) +
      (if x.lanes.any (fun e => e.2.inSect) then 2 ^ 17 else 0) + (if t.deferred then 2 ^ 16 else 0) +
      s.outstanding g % 2 ^ 16
  let causeOf (l : Nat) : Nat := match t.faults.find? fun f => f.1 == l with | some f => f.2.1.code | none => 0
  let addrOf (l : Nat) : Nat := match t.faults.find? fun f => f.1 == l with | some f => f.2.2 | none => 0
  leBytes 8 gr.id ++ leBytes 4 p.2.1.code ++ leBytes 4 p.1 ++
    leBytes 4 (maskOf (t.faults.map (·.1))).toNat ++ leBytes 4 flags ++ leBytes 8 t.pc.toNat ++ leBytes 8 t.hdr.toNat ++
    leBytes 8 (recordTid x tm) ++ (upto 32).map (fun l => BitVec.ofNat 8 (causeOf l)) ++
    (upto 32).flatMap (fun l => leBytes 8 (addrOf l)) ++ leBytes 8 0 ++ leBytes 2 t.dst ++ List.replicate 166 0

/-- The lowest number below `n` that a table does not hold. -/
def lowestFree {α : Type} (t : Tab α) : Nat → Nat → Option Nat
  | _, 0 => none
  | k, n + 1 => if (tabGet t k).isNone then some k else lowestFree t (k + 1) n

/-- The address of the lowest record of a pool that is not taken; records taken from an earlier pool stay where they are (R427). -/
def Ctx.freeRecord (c : Ctx) (pool : Nat × Nat) : Option Nat :=
  ((upto pool.2).map fun k => pool.1 + 512 * k).find? fun a => c.records.all fun r => r.2.addr != a

/-- The taking of a record for a suspended group, and what follows (R204, R205, R207, R208): the record is written with system privilege, and
a handler team is enqueued or the grid ends; a trap in a handler team ends the grid, though no record be free, the pool be absent or the write
of the record fail (log 44). None while every record is taken: of a group whose team is saved meanwhile, until its restore (log 44). -/
def State.takeRecord (s : State) (g : Nat) : Option State :=
  let x := s.group g
  match x.trap with
  | none => none
  | some t =>
    let gr := s.grid x.grid
    let pool := trapPool t.base
    let inHandler := (s.team x.team).handler.isSome
    let status := (if inHandler then 0x0200 else 0x0100) + ((primary t.faults).getD (0, .illegal, 0)).2.1.code
    if pool.1 = 0 then some (s.abortGrid x.grid status)
    else
      match (s.ctx gr.ctx).freeRecord pool with
      | none => if inHandler then some (s.abortGrid x.grid status) else none
      | some a =>
        let know := s.seenOf g (x.lanes.map (·.1))
        match s.putRel (unitWho gr.ctx true) a (recordBytes s g x t) .device know with
        | .error _ => some (s.abortGrid x.grid status)
        | .ok s1 =>
          let n := s1.nextId
          let s2 := s1.setGroup g (suspend x { t with record := some n, written := t.pc })
          let s3 := { s2 with nextId := n + 1 }.modCtx gr.ctx fun c =>
            { c with records := tabSet c.records n ⟨x.grid, g, x.team, x.gidx, a, ((primary t.faults).getD (0, .illegal, 0)).2.1.code, know⟩ }
          if inHandler || gr.pkt.handler = 0 then some (s3.abortGrid x.grid status)
          else some (s3.modCtx gr.ctx fun c => { c with handlers := c.handlers ++ [n] })

/-- A progress event of a grid (R212). -/
def State.progressed (s : State) (k : Nat) : State :=
  s.modGrid k fun gr => { gr with progress := some s.clock, paused := gr.paused.map fun _ => s.clock }

/-- Whether a lane waits at a JOIN, at a regroup point, at a flush point or for a lattice copy. -/
def Lane.waits (y : Lane) : Bool :=
  match y.park with
  | .join _ | .stand | .flush | .copy => true
  | _ => false

/-- The lanes that would issue with a lane: same place, and inside a body the same set. -/
def Group.setOf (x : Group) (l : Nat) : List Nat :=
  let y := x.lane l
  (x.lanes.filter fun e =>
    !e.2.fin && e.2.pc == y.pc && e.2.inBody == y.inBody && e.2.waits == y.waits && (!y.inBody || e.2.set == y.set)).map
    (·.1)

/-- The part of the running set that holds its lowest lane: under DET, all that runs of a set that has split (R50, rule 2). -/
def Group.firstPart (x : Group) : BitVec 32 :=
  match (upto 32).find? fun l => x.running.getLsbD l with
  | some l => maskOf (x.setOf l)
  | none => 0

/-- RETURN FROM A TRAP: the FAULT lanes of a group restart, redirected if the handler asks; others keep their place
(R209). A lane stopped by TRAP or BKPT passes its word once (R322, R432); TRAP has been performed (R101). A redirection may split the running
set as a branch does (log 57). -/
def restartGroup (x : Group) (t : Trapped) (dest : Option DWord) : Group :=
  let y : Group := { x with
    trap := none
    lanes := t.faults.foldl (fun m f =>
      tabMod m f.1 fun y =>
        let y := { y with irrev := y.irrev || f.2.1 == Cause.software }
        match dest with
        | some a => y.goto a
        | none => { y with pass := f.2.1 == Cause.software || f.2.1 == Cause.breakpoint }) x.lanes }
  { y with running := if dest.isSome then y.firstPart else y.running }

/-- A group that restarts: a redirection is checked as a branch target, and a refused one traps ILLEGAL (R209). -/
def State.restart (s : State) (g : Nat) (dest : Option DWord) : State :=
  let x := s.group g
  match x.trap with
  | none => s
  | some t =>
    match dest with
    | none => (s.groupActed g).setGroup g (restartGroup x t none)
    | some a =>
      match s.badTarget (s.who g) a.toNat with
      | none => (s.groupActed g).setGroup g (restartGroup x t (some a))
      | some _ =>
        s.setGroup g (suspend x (s.trapped x (t.faults.map fun f => (f.1, .illegal, a.toNat)) a a))

/-- A save record's group that a RESUME reaches while it is not resident (R217): it restarts when restored. -/
def resumeSaved (t : Team) (gidx : Nat) (dest : Option DWord) : Team :=
  match t.saved with
  | none => t
  | some v =>
    { t with saved := some { v with groups := v.groups.map fun e =>
        if e.group.gidx = gidx then
          { e with group := { e.group with trap := e.group.trap.map fun k => { k with resumed := some dest } } }
        else e } }

/-- The threads of a group that a record holds, resident or saved. -/
def State.recordLanes (s : State) (r : TrapRec) (resident : Bool) : Tab Lane :=
  if resident then (s.group r.g).lanes
  else
    match (s.team r.team).saved with
    | some v => match v.groups.find? fun e => e.group.gidx == r.gidx with | some e => e.group.lanes | none => []
    | none => []

/-- RESUME of a record address, `know` being what its release covers: none where the record is stale (R209). -/
def State.resumeAt (s : State) (ctx addr : Nat) (know : Tab Nat) : Option State :=
  match (s.ctx ctx).records.find? fun r => r.2.addr == addr with
  | none => none
  | some (k, r) =>
    let resident := match tabGet s.groups r.g with
      | some x => (match x.trap with | some t => t.record == some k | none => false)
      | none => false
    let now := match s.readVa (unitWho ctx true) (addr + 0x18) 8 with
      | .ok bs => some (BitVec.ofNat 64 (leNat bs))
      | .error _ => none
    let written := if resident then ((s.group r.g).trap.map (·.written)).getD 0
      else match (s.team r.team).saved with
        | some v => ((v.groups.find? fun e => e.group.gidx == r.gidx).bind fun e => e.group.trap.map (·.written)).getD 0
        | none => 0
    let dest := match now with
      | some a => if a = written then none else some a
      | none => none
    let s0 := (s.touchVa (unitWho ctx true) (addr + 0x18) 8).learnAll r.team (s.recordLanes r resident) know
    let s1 := if resident then s0.restart r.g dest else s0.modTeam r.team fun t => resumeSaved t r.gidx dest
    let s2 := s1.modCtx ctx fun c => { c with records := tabDel c.records k }
    some (s2.progressed r.grid)

/-! ### Parking and advancing -/

/-- Lanes that park on the word they are at (R44). -/
def State.parkLanes (s : State) (g : Nat) (ls : List Nat) : State :=
  s.modLanes g ls fun _ y => { y with park := .retry, stamp := s.clock }

/-- Lanes that go on past a word of `n` code words. -/
def State.advance (s : State) (c : Cx) (n : Nat) : State :=
  s.modLanes c.g c.ls fun _ y => { y.advance n with stamp := s.clock, pass := false }

/-- Code words of an instruction, its literal or second word among them (R128, R129). -/
def sizeOf' (i : Instr) : Nat := (encode i).length

/-! ### Issue sets and the running set (R43, R50) -/

/-- The next running set after a stop of the set whose lowest lane is `low` (R50, rule 5); 0 where every set waits. -/
def Group.nextRunning (x : Group) (low : Nat) : BitVec 32 :=
  let heads := x.live.filter fun l => !(x.lane l).waits && (x.setOf l).headD 32 == l
  match heads.find? (fun l => decide (low < l)) with
  | some l => maskOf (x.setOf l)
  | none =>
    match heads.head? with
    | some l => maskOf (x.setOf l)
    | none => 0

/-- The running set chosen anew after a stop point, under DET. -/
def State.detStop (s : State) (c : Cx) : State :=
  if c.gr.pkt.det then s.modGroup c.g fun x => { x with running := x.nextRunning c.l0 } else s

/-- The running set after a split: the part that holds its lowest lane (R50, rule 2). -/
def State.detSplit (s : State) (c : Cx) : State :=
  if c.gr.pkt.det then s.modGroup c.g fun x => { x with running := maskOf (x.setOf c.l0) } else s

/-- The running set after a release, or after a stop point that releases none (R50, rules 5 and 6): of lanes released at different
JOINs, the set of the lowest (log 57). -/
def State.detRelease (s : State) (c : Cx) (ls : List Nat) : State :=
  match ls with
  | [] => s.detStop c
  | l :: _ => if c.gr.pkt.det then s.modGroup c.g fun x => { x with running := maskOf (x.setOf l) } else s

/-- A fresh identity. -/
def State.fresh1 (s : State) : State := { s with nextId := s.nextId + 1 }

end Sys2Proof.Machine
end

