-- ==== Sys2Proof/Machine/Operands.lean ====
section
/-!
DEFINITION. Operand forms (R89, R128, R131, Table 21.1), roles (Table 2.2), and the two ways an instruction issues: `issueAlu`
for the instructions that compute from registers to registers, with capture in a DEFER clause (R103-R107, R114), and
`issue` for every other.
-/

namespace Sys2Proof.Machine

/-! ### Operand forms -/

/-- A single vector operand. -/
def v1 (f : BitVec 7) : List Opd := [.v f.toNat]
/-- A pair. -/
def v2 (f : BitVec 7) : List Opd := [.v f.toNat, .v (f.toNat + 1)]
/-- The first three of a quad. -/
def v3 (f : BitVec 7) : List Opd := [.v f.toNat, .v (f.toNat + 1), .v (f.toNat + 2)]
/-- A quad. -/
def v4 (f : BitVec 7) : List Opd := [.v f.toNat, .v (f.toNat + 1), .v (f.toNat + 2), .v (f.toNat + 3)]
/-- A uniform register. -/
def s1 (f : BitVec 7) : List Opd := [.s f.toNat]
/-- A uniform pair. -/
def s2 (f : BitVec 7) : List Opd := [.s f.toNat, .s (f.toNat + 1)]
/-- A uniform quad. -/
def s4 (f : BitVec 7) : List Opd := [.s f.toNat, .s (f.toNat + 1), .s (f.toNat + 2), .s (f.toNat + 3)]
/-- A predicate. -/
def p1 (f : BitVec 4) : List Opd := [.p f.toNat]

/-- A literal sign-extended to 64 bits, as two words. -/
def lit64 (w : Word) : List Opd := [.imm w, .imm (if w.msb then 0xFFFFFFFF else 0)]

end Sys2Proof.Machine

namespace Sys2Proof

open Machine

/-- B as a vector register or literal. -/
def BOp.v : BOp → List Opd
  | .reg r => v1 r
  | .lit w => [.imm w]

/-- B as a uniform register or literal. -/
def BOp.s : BOp → List Opd
  | .reg r => s1 r
  | .lit w => [.imm w]

/-- B as a vector pair, or a literal sign-extended to 64 bits (R128). -/
def BOp.v2 : BOp → List Opd
  | .reg r => Machine.v2 r
  | .lit w => lit64 w

/-- B as a uniform pair, or a literal sign-extended. -/
def BOp.s2 : BOp → List Opd
  | .reg r => Machine.s2 r
  | .lit w => lit64 w

/-- B as a predicate; a literal names no register. -/
def POp.p : POp → List Opd
  | .reg p => p1 p
  | .lit w => [.imm w]

/-- The bit of a predicate operand for a lane: bit l of a literal gives lane l (R128). -/
def POp.bit (b : POp) (l : Nat) (w : Word) : Bool :=
  match b with
  | .reg _ => w != 0
  | .lit m => m.getLsbD l

/-- Bytes of a size (Table 21.1). -/
def Size.bytes : Size → Nat
  | .u8 | .s8 => 1
  | .u16 | .s16 => 2
  | .b32 => 4
  | .b64 => 8
  | .b128 => 16

/-- Data registers of a size. -/
def Size.words : Size → Nat
  | .b64 => 2
  | .b128 => 4
  | _ => 1

/-- The data operands of a size. -/
def Size.data (z : Size) (d : BitVec 7) : List Opd := (upto z.words).map fun k => .v (d.toNat + k)

/-- The words that bytes give, extended as Table 21.1 says. -/
def Size.extend (z : Size) (bs : List Byte) : List Word :=
  let x := leNat bs
  match z with
  | .u8 | .u16 | .b32 => [w32 x]
  | .s8 => [BitVec.ofInt 32 (signedOf 8 x)]
  | .s16 => [BitVec.ofInt 32 (signedOf 16 x)]
  | .b64 => [w32 x, w32 (x / 2 ^ 32)]
  | .b128 => [w32 x, w32 (x / 2 ^ 32), w32 (x / 2 ^ 64), w32 (x / 2 ^ 96)]

/-- The low bytes of data words. -/
def wordsBytes (n : Nat) (ws : List Word) : List Byte := (ws.flatMap fun w => leBytes 4 w.toNat).take n

end Sys2Proof

namespace Sys2Proof.Machine

/-- The source and destination operands of the instructions that `issue` runs. Those of `issueAlu` stand in their
`Alu`; device steps and instructions without register operands have none. -/
def operandsOf : Instr → List Opd × List Opd
  | .qcvt _ _ _ d a => (v1 a, v1 d)
  | .qamax _ d a => (v1 a, v1 d)
  | .movSV d a b => (v1 a ++ b.v, s1 d)
  | .shfl _ _ d a b => (v1 a ++ b.v, v1 d)
  | .voteAny d a | .voteAll d a => (p1 a, p1 d)
  | .voteBallot d a => (p1 a, s1 d)
  | .voteCount d a => (p1 a, v1 d)
  | .reduce _ d a b => (v1 a ++ b.p, s1 d)
  | .scan _ _ d a b => (v1 a ++ b.p, v1 d)
  | .envrd d _ => ([], v1 d)
  | .elect d => ([], p1 d)
  | .bra c _ => (match c with | .always => [] | .ifTrue p | .ifFalse p => p1 p, [])
  | .call _ => ([], [.abs 1054, .abs 1055])
  | .jmpi a | .ret a => (v2 a, [])
  | .calli d a => (v2 a, v2 d)
  | .pend a => (v1 a, [])
  | .vfree a n => ((upto n.toNat).map fun k => .v (a.toNat + k), [])
  | .ld _ z d a b => (v2 a ++ b.v, z.data d)
  | .st _ _ _ a b => (v2 a ++ b.v, [])
  | .lds z d a b => (v1 a ++ b.v, z.data d)
  | .sts _ _ a b => (v1 a ++ b.v, [])
  | .ldu z d a b => (s2 a ++ b.s, (upto z.words).map fun k => .s (d.toNat + k))
  | .atom _ nr w _ _ d a _ => (v2 a, if nr then [] else if w then v2 d else v1 d)
  | .cas w _ _ d a _ => (v2 a, if w then v2 d else v1 d)
  | .cctlWb a b | .cctlInv a b | .cctlWbinv a b => (v2 a ++ b.v, [])
  | .fetch d a b => (s2 a ++ v3 b, v1 d)
  | .fqry d a _ => (s2 a, v1 d)
  | .tex d a b => (s2 a ++ v2 b, v4 d)
  | .rngkey a => (v1 a, [.abs 1053])
  | .rng d a => (v2 a ++ [.abs 1053], v2 d)
  | .rmask d a b => (v1 a ++ b.v ++ [.abs 1053], p1 d)
  | .cpy a | .chain a | .coll a => (s2 a, [])
  | .sacqFree d _ | .sacqFilled d _ => ([], v1 d)
  | .spub a _ | .sfree a _ => (v1 a, [])
  | .mma _ _ _ _ b | .mmasp _ _ _ _ b => (s1 b, [])
  | .conv _ a b => (s1 a ++ s1 b, [])
  | .scacc _ _ b => (s2 b, [])
  | .aclr _ b => (b.s, [])
  | .ald _ a b => (s1 a ++ b.s, [])
  | .astFp32 _ a | .astBf16 _ a => (s1 a, [])
  | .tld _ a b => (s1 a ++ b.s, [])
  | .spawn a b => (v2 a ++ b.v, [])
  | .enq d a => (v1 d ++ v2 a, [])
  | .deq _ d a => (v1 a, v4 d)
  | .depset d a b => (v1 d ++ v2 a ++ b.v, [])
  | .depdec d b | .depadd d b => (v1 d ++ b.v, [])
  | .cmbopen _ d a => (v2 a, v1 d)
  | .cmbput d a => (v2 d ++ v2 a, [])
  | .cmbstat d a => (v1 a, v1 d)
  | .cmbclose a | .cmbcancel a => (v1 a, [])
  | .trace _ _ d a b => ((upto 8).map (fun k => .v (a.toNat + k)) ++ s2 b, v4 d)
  | .hitget d a b => (s2 a ++ b.v, v4 d)
  | .vapp d a b => (v1 d ++ v2 a ++ b.v, [])
  | .vconn d a b => (v4 d ++ v2 a ++ b.s, v4 d)
  | .vmrg d a b => (v2 d ++ v2 a ++ b.s, v4 d)
  | .vmrq d a b | .vget d a b => (v2 a ++ b.s, v4 d)
  | .vrwtConn d a b | .vrwtMrg d a b => (v2 a ++ b.v, v1 d)
  | .fopen a => (s4 a, [])
  | .fclose a | .eseal a => (s1 a, [])
  | .vret a => (v1 a, [])
  | .sysrd d _ => ([], v2 d)
  | .syswrTrapbase a | .syswrLattice _ a | .regionstatClearRegion a | .regionstatClearOvf a | .syswrPerfctl a
  | .syswrPerfcnt _ a | .syswrWschedcfg a | .syswrDetsel a | .syswrOther _ a => (v2 a, [])
  | .pxw a => (v2 a, [])
  | .resume a => (s2 a, [])
  | _ => ([], [])

/-- The data operands of a store or atomic: pending data makes it a chain entry, not a park (Table 4.3). -/
def dataOf : Instr → List Opd
  | .st _ z d _ _ | .sts z d _ _ => z.data d
  | .atom _ _ w _ _ _ _ b => if w then v2 b else v1 b
  | .cas w _ _ _ _ b => if w then v4 b else v2 b
  | _ => []

/-! ### Roles (Table 2.2) -/

/-- Whether groups of a role may issue an instruction: 0 V, 1 C, 2 M. -/
def roleOk (i : Instr) (role : Nat) : Bool :=
  match i with
  | .regroup | .tex .. | .spawn .. | .binflush | .cmbopen .. | .cmbput .. | .cmbstat .. | .cmbclose .. | .cmbcancel ..
  | .trace .. | .hitget .. | .vapp .. | .vconn .. | .vmrg .. | .vmrq .. | .vrwtConn .. | .vrwtMrg .. | .fopen ..
  | .fclose .. | .eseal .. | .vret .. | .vget .. | .ordb | .orde | .pxw .. => role == 0
  | .cpy .. | .chain .. | .coll .. => role == 1
  | .mma .. | .mmasp .. | .conv .. | .scacc .. | .aclr .. | .ald .. | .astFp32 .. | .astBf16 .. | .tld ..
  | .mwait .. => role == 2
  | _ => true

/-- The irreversible operations of R101. -/
def irreversible : Instr → Bool
  | .atom .. | .cas .. | .enq .. | .deq .. | .depset .. | .depdec .. | .depadd .. | .spawn .. | .binflush
  | .cmbopen .. | .cmbput .. | .cmbclose .. | .cmbcancel .. | .vapp .. | .vret .. | .eseal .. | .fopen .. | .fclose ..
  | .cpy .. | .chain .. | .coll .. | .pxw .. | .ordb | .orde | .syswrTrapbase .. | .syswrLattice ..
  | .regionstatClearRegion .. | .regionstatClearOvf .. | .syswrPerfctl .. | .syswrPerfcnt .. | .syswrWschedcfg ..
  | .syswrDetsel .. | .syswrOther .. | .trap .. | .resume .. | .cmbstat .. => true
  | _ => false

/-! ### Instructions that compute from registers to registers -/

/-- What such an instruction reads that is no register: its lane, the grid's seed, the context's lattice tables. -/
structure Env where
  lane : Nat
  seed : DWord
  lat : List (List (BitVec 16))

/-- An instruction as a function from source words to destination words. -/
structure Alu where
  srcs : List Opd
  dsts : List Opd
  f : Env → List Word → List Word
  /-- Sources that park when pending, even in a DEFER clause (R105). -/
  firm : List Opd := []
  /-- Parks on any pending source (Table 4.3). -/
  parks : Bool := false

/-- A source word. -/
def opn (w : List Word) (k : Nat) : Word := w.getD k 0

/-- A source pair from a place on. -/
def opn64 (w : List Word) (k : Nat) : Nat := pairNat (opn w k) (opn w (k + 1))

/-- One 32-bit source. -/
def alu1 (d a : List Opd) (g : Word → Word) : Alu := { srcs := a, dsts := d, f := fun _ w => [g (opn w 0)] }

/-- Two 32-bit sources. -/
def alu2 (d a b : List Opd) (g : Word → Word → Word) : Alu :=
  { srcs := a ++ b, dsts := d, f := fun _ w => [g (opn w 0) (opn w 1)] }

/-- Three 32-bit sources, of which the destination is the last. -/
def alu3 (d a b : List Opd) (g : Word → Word → Word → Word) : Alu :=
  { srcs := a ++ b ++ d, dsts := d, f := fun _ w => [g (opn w 0) (opn w 1) (opn w 2)] }

/-- Two 64-bit sources. -/
def alu64 (d a b : List Opd) (g : Nat → Nat → Nat) : Alu :=
  { srcs := a ++ b, dsts := d, f := fun _ w => pairWords (g (opn64 w 0) (opn64 w 2)) }

/-- What becomes of a lane at issue. -/
inductive Fate where
  | exec | park | capture | full
  deriving DecidableEq, Repr

/-- Whether an operand is pending for a lane. -/
def Group.isPending (x : Group) (l : Nat) (o : Opd) : Bool :=
  match o.reg (x.lane l) with
  | some r => (x.pending l r).isSome
  | none => false

/-- Residual entries of a thread. -/
def State.entries (s : State) (g l : Nat) : Nat := (s.resid.filter fun e => e.2.g == g && e.2.lane == l).length

/-- Residual entries that count against a thread's budget (R114). -/
def State.budgeted (s : State) (g l : Nat) : Nat := (s.resid.filter fun e => e.2.g == g && e.2.lane == l && !e.2.isHalf).length

/-- R103, R104, R107, R114 for one lane. -/
def State.fate (s : State) (c : Cx) (u : Alu) (l : Nat) : Fate :=
  let pend := c.x.isPending l
  if u.firm.any pend then .park
  else if u.srcs.any pend then
    if hDefer (c.x.lane l).hword && !u.parks then
      if s.residBudget c.x ≤ s.budgeted c.g l then .full else .capture
    else .park
  else if u.dsts.any pend then .park
  else .exec

/-- The environment of a lane. -/
def State.env (s : State) (gr : Grid) (l : Nat) : Env := ⟨l, gr.pkt.seed, (s.ctx gr.ctx).lattice⟩

/-- Results written to their destinations, in order. -/
def writeAll (x : Group) (l : Nat) : List PReg → List Word → Group
  | r :: rs, w :: ws => writeAll (x.writeReg l r w) l rs ws
  | _, _ => x

/-- A lane that executes: read, compute, write. -/
def State.aluLane (s : State) (c : Cx) (u : Alu) (x : Group) (l : Nat) : Group :=
  let ws := u.f (s.env c.gr l) (u.srcs.map (s.readOpd c.x l))
  writeAll x l (u.dsts.filterMap (·.reg (c.x.lane l))) ws

/-- Destinations marked pending under consecutive tags. -/
def tagAll (x : Group) (l : Nat) : List PReg → Nat → Group
  | [], _ => x
  | r :: rs, t => tagAll (x.markPending l r t) l rs (t + 1)

/-- An operand as a closure holds it (R105). -/
def State.captureOpd (s : State) (x : Group) (l : Nat) (o : Opd) : Src :=
  match o.reg (x.lane l) with
  | none => .ready (s.readOpd x l o)
  | some r =>
    match x.pending l r with
    | some t => .tag t
    | none => .ready (s.readOpd x l o)

/-- Whether an instruction is an LDU. -/
def isLdu : Instr → Bool
  | .ldu .. => true
  | _ => false

/-- Earlier loads owe uniform registers no write any more once the same set, or an instruction other than LDU, owes them a younger one (R106,
R384). -/
def State.supersede (s : State) (g : Nat) (lanes : List Nat) (i : Instr) (dsts : List PReg) : State :=
  let us := dsts.filter fun r => match r with | .s _ => true | _ => false
  if us = [] then s
  else
    let late (ls : List Nat) (ds : List (PReg × Nat)) : List Nat :=
      if !isLdu i || ls.any lanes.contains then (ds.filter fun d => us.contains d.1).map (·.2) else []
    { s with
      ops := tabMap s.ops fun _ o => if o.g == g then { o with stale := o.stale ++ late o.lanes o.dsts } else o
      resid := tabMap s.resid fun _ r => if r.g == g then { r with stale := r.stale ++ late (r.lane :: r.lanes) r.dsts } else r }

/-- A residual entry made for a lane, its destinations under new tags (R105). -/
def State.capture (s : State) (g l : Nat) (r : Resid) (dsts : List PReg) : State :=
  let s := s.supersede g (l :: r.lanes) r.ins dsts
  let t := s.nextId
  let s := { s with
    nextId := t + 1 + dsts.length
    resid := tabSet s.resid t { r with g := g, lane := l, dsts := dsts.zip ((upto dsts.length).map (t + 1 + ·)) } }
  s.modGroup g fun x => tagAll x l dsts (t + 1)

/-- The captures of an ALU instruction, lane by lane. -/
def State.captureAlu (s : State) (i : Instr) (c : Cx) (u : Alu) (ls : List Nat) : State :=
  ls.foldl (fun t l =>
    t.capture c.g l
      { g := c.g, lane := l, ins := i, kind := .alu, srcs := u.srcs.map (s.captureOpd c.x l), hdr := (c.x.lane l).hdr }
      (u.dsts.filterMap (·.reg (c.x.lane l)))) s

/-- Under DET a set waits as a whole: any lane that parks holds the others (log 20). -/
def holdAll (c : Cx) (parked : List Nat) : Bool := c.gr.pkt.det && parked != []

/-- Issue of an instruction that computes from registers to registers. -/
def issueAlu (i : Instr) (u : Alu) (s : State) : Out State :=
  match s.inFocus with
  | none => .fault .noIssueSet
  | some c =>
    let full := c.ls.filter fun l => s.fate c u l == .full
    if full != [] && !s.respark c.x then s.trap c (full.map fun l => (l, .residualFull, 0))
    else
      let parked := c.ls.filter fun l => s.fate c u l == .park || s.fate c u l == .full
      if holdAll c parked || parked.length == c.ls.length then
        .next ((s.parkLanes c.g c.ls).count (coreOf c.g) c.gr.ctx 4 c.ls.length)
      else
        let run := c.ls.filter fun l => s.fate c u l == .exec
        let capt := c.ls.filter fun l => s.fate c u l == .capture
        let t := s.modGroup c.g fun x => run.foldl (s.aluLane c u) x
        let t := t.captureAlu i c u capt
        let t := t.advance { c with ls := run ++ capt } (sizeOf' i)
        let t := t.parkLanes c.g parked
        let t := t.count (coreOf c.g) c.gr.ctx 3 capt.length
        .next (t.count (coreOf c.g) c.gr.ctx 4 parked.length)

/-! ### Every other instruction -/

/-- Whether an LD.ACQ of a thread has not returned (R200). -/
def State.acqOut (s : State) (g l : Nat) : Bool :=
  (s.ops.any fun e => e.2.g == g && e.2.lane == l && e.2.acq) ||
    s.resid.any fun e => e.2.g == g && e.2.lane == l && (match e.2.ins with | .ld true .. => true | _ => false)

/-- Whether a lane takes part in a residual entry. -/
def Resid.ofLane (r : Resid) (g l : Nat) : Bool := r.g == g && (r.lane == l || r.lanes.contains l)

/-- The entries that a captured load or read waits for; none where it is no such entry. -/
def Resid.after (r : Resid) : Option (List Nat) :=
  match r.kind with
  | .load after .. | .read after .. => some after
  | _ => none

/-- Captured loads of a thread that have not issued (R109, R200). -/
def State.heldLoads (s : State) (g l : Nat) : List (Nat × Resid) := s.resid.filter fun e => e.2.ofLane g l && e.2.after.isSome

/-- Whether a captured load waits for no entry any more. -/
def State.loadFree (s : State) (r : Resid) : Bool := r.after.any fun ks => ks.all fun k => (tabGet s.resid k).isNone

/-- Whether a captured load of a thread waits for no entry any more: later accesses let it issue first (R190). -/
def State.loadDue (s : State) (g l : Nat) : Bool := (s.heldLoads g l).any fun e => s.loadFree e.2

/-- The store chain of a thread, oldest entry first (R108). -/
def State.chain (s : State) (g l : Nat) : List (Nat × Resid) :=
  s.resid.filter fun e =>
    e.2.g == g && e.2.lane == l && (match e.2.kind with | .store .. | .atomic .. | .fence _ => true | _ => false)

/-- Whether an ICINV of a thread has not completed: its later releases wait (R140). -/
def State.icinvOut (s : State) (g l : Nat) : Bool := s.ops.any fun e => e.2.g == g && e.2.icinv && e.2.lanes.contains l

/-- Whether an earlier load of a thread has not returned its value (R109). -/
def State.loadsOut (s : State) (g l : Nat) : Bool :=
  (s.ops.any fun e => e.2.g == g && e.2.isLoad && (e.2.lane == l || e.2.lanes.contains l)) ||
    !(s.heldLoads g l).isEmpty

/-- Whether an earlier read of a thread that FENCE.ACQ covers has not been made or returned: a load, or an atomic in the chain
(R188). -/
def State.readsOut (s : State) (g l : Nat) : Bool :=
  s.loadsOut g l || (s.chain g l).any fun e => match e.2.kind with | .atomic .. => true | _ => false

/-- Whether a chain entry carries an acquire, or is a FENCE.FULL: what comes after it in program order waits (R191, R200). -/
def Resid.acquires (r : Resid) : Bool :=
  match r.kind, r.ins with
  | .fence full, _ => full
  | .atomic .., .atom _ _ _ o .. => o == .acq || o == .ar
  | .atomic .., .cas _ o .. => o == .acq || o == .ar
  | _, _ => false

/-- Instructions that carry a release (Table 8.2). -/
def releases : Instr → Bool
  | .st true .. | .fenceRel _ | .fenceFull _ | .enq .. | .depset .. | .depdec .. | .depadd .. | .cmbput .. | .eseal _
  | .resume _ | .spub .. | .sfree .. | .orde => true
  | .atom _ _ _ o .. | .cas _ o .. => o == .rel || o == .ar
  | _ => false

/-- SYSWR, SPUB and SFREE, which wait for the chains of all their active lanes (R411, R427). -/
def drainsAll : Instr → Bool
  | .spub .. | .sfree .. | .syswrTrapbase .. | .syswrLattice .. | .regionstatClearRegion .. | .regionstatClearOvf ..
  | .syswrPerfctl .. | .syswrPerfcnt .. | .syswrWschedcfg .. | .syswrDetsel .. | .syswrOther .. => true
  | _ => false

/-- Instructions that park until the chain is empty (R108, R109, R237, R332, R401, R427). -/
def drains (i : Instr) : Bool :=
  drainsAll i ||
    match i with
    | .enq .. | .depset .. | .depdec .. | .depadd .. | .cmbput .. | .eseal _ | .resume _ | .orde | .pxw .. | .cctlWb .. | .cctlInv ..
    | .cctlWbinv .. | .oprdy | .fenceAsync _ => true
    | _ => false

/-- Accesses that are neither captured nor appended: while the thread's chain holds an acquire or a FENCE.FULL they park, so that they are
made after it (R188, R191, R200, R277, R294). -/
def placed : Instr → Bool
  | .deq .. | .vconn .. | .vmrg .. | .vmrq .. | .vget .. | .vret .. | .fopen .. | .fclose ..
  | .vapp .. | .cmbopen .. | .cmbstat .. | .cmbclose .. | .cmbcancel .. | .trace .. | .hitget .. | .cpy .. | .chain .. | .coll ..
  | .conv .. | .sacqFree .. | .sacqFilled .. | .icinv .. => true
  | _ => false

/-- Engine commands that read memory as a plain load of the thread, or after its earlier releases: they park while the chain holds an
entry that they might overlap, or a release of CORE scope or wider (R109, R194, R252). -/
def readsAsEngine : Instr → Bool
  | .cpy .. | .chain .. | .coll .. | .trace .. | .hitget .. => true
  | _ => false

/-- Whether a chain entry is a release that a copy's reads come after (R194). -/
def Resid.releasesCore (r : Resid) : Bool :=
  let wide (sc : Scope) : Bool := !(sc == .thread || sc == .group)
  match r.kind, r.ins with
  | .fence _, .fenceRel sc => wide sc
  | .fence _, .fenceFull sc => wide sc
  | .store _ _ _ rel, _ => rel
  | .atomic .., .atom _ _ _ o sc .. => (o == .rel || o == .ar) && wide sc
  | .atomic .., .cas _ o sc .. => (o == .rel || o == .ar) && wide sc
  | _, _ => false

/-- Whether the thread's chain keeps an instruction back that is not to join it. -/
def State.ahead (s : State) (i : Instr) (g l : Nat) : Bool :=
  (placed i && (s.chain g l).any fun e => e.2.acquires) ||
    (readsAsEngine i && (s.chain g l).any fun e =>
      e.2.releasesCore || (match i with | .trace .. | .hitget .. => true | _ => false))

/-- Instructions that the chain takes in program order: they let captured loads issue first (R190). -/
def joinsChain : Instr → Bool
  | .st .. | .sts .. | .atom .. | .cas .. | .fenceRel _ | .fenceFull _ => true
  | _ => false

/-- Plain and acquiring loads. -/
def isLoad : Instr → Bool
  | .ld .. | .lds .. | .ldu .. => true
  | _ => false

/-- Instructions that wait for captured loads of their thread; of loads, those of the same bytes alone do (R109, R190). -/
def afterLoads (i : Instr) : Bool := (clsOf i == .memory && !isLoad i) || drains i || joinsChain i

/-- Whether a captured load reads some of these bytes. -/
def Resid.reads (r : Resid) (loc : Loc) (n : Nat) : Bool :=
  match r.kind with
  | .load _ p m _ => p.overlaps m loc n
  | _ => false

/-- Whether a captured load of a thread that has not issued reads some of these bytes: a later one waits for it (R190). -/
def State.loadMeets (s : State) (g l : Nat) (loc : Loc) (n : Nat) : Bool := (s.heldLoads g l).any fun e => e.2.reads loc n

/-- Whether an earlier captured load keeps an instruction back (R109, R188, R190). -/
def State.loadAhead (s : State) (i : Instr) (g l : Nat) : Bool :=
  (afterLoads i && s.loadDue g l) || ((drains i || (joinsChain i && s.chain g l == [])) && s.heldLoads g l != [])

/-- Loads and atomics, which a chain entry may capture: their pending destinations are looked at with that (R107). -/
def capturable : Instr → Bool
  | .ld .. | .lds .. | .ldu .. | .atom .. | .cas .. | .fetch .. | .fqry .. | .tex .. => true
  | _ => false

/-- Whether a lane parks before its instruction issues: a pending source (R103, R104), a destination owed a write
(R107), an LD.ACQ not returned before a memory instruction (R200), earlier accesses of its thread. -/
def State.stuck (s : State) (i : Instr) (c : Cx) (l : Nat) : Bool :=
  (operandsOf i).1.any (c.x.isPending l) || (!capturable i && (operandsOf i).2.any (c.x.isPending l)) ||
    (!hDefer (c.x.lane l).hword && (dataOf i).any (c.x.isPending l)) ||
    (clsOf i == .memory && s.acqOut c.g l) || (releases i && !joinsChain i && s.icinvOut c.g l) ||
    (releases i && joinsChain i && s.chain c.g l == [] && s.icinvOut c.g l) ||
    (drains i && s.chain c.g l != []) || s.ahead i c.g l || s.loadAhead i c.g l

/-- Whether a destination of a lane's load or atomic is owed a write, which it waits for unless it is captured (R107). -/
def State.dstOwed (i : Instr) (c : Cx) (l : Nat) : Bool := (operandsOf i).2.any (c.x.isPending l)

/-- Whether a system register index names a register (Table 22.8). -/
def sysIndexOk (x : Nat) : Bool :=
  x == 0 || x == 1 || x == 0x10 || (0x20 ≤ x && x ≤ 0x23) || x == 0x30 || (0x40 ≤ x && x ≤ 0x48) || x == 0x50 || x == 0x60

/-- Words whose index or selector names nothing (R354, R367, R426), and a command of one lane issued by more (R230): ILLEGAL. -/
def illegalAt (i : Instr) (lanes : Nat) : Bool :=
  match i with
  | .envrd _ x => 21 ≤ x.toNat
  | .fqry _ _ x => 8 ≤ x.toNat
  | .sysrd _ x => !sysIndexOk x.toNat
  | .syswrOther x _ => !sysIndexOk x.toNat
  | .mma .. | .mmasp .. | .conv .. => lanes != 1
  | _ => false

/-- Instructions that act once for their issue set and park as a whole. -/
def actsOnce : Instr → Bool
  | .ldu .. | .icinv _ | .sacqFree .. | .sacqFilled .. | .resume _ | .eseal _ | .fopen _ | .fclose _ => true
  | _ => false

/-- Lanes that cannot go on yet park; the effect is made for the others, if there are any (R44), which under DET are then the running set
(log 20). -/
def State.parkingEach (s : State) (c : Cx) (blocked : Nat → Bool) (k : Cx → State → Out State) : Out State :=
  let parked := c.ls.filter blocked
  let ls := c.ls.filter fun l => !blocked l
  if parked = [] then k c s
  else
    let t := (s.parkLanes c.g parked).count (coreOf c.g) c.gr.ctx 4 parked.length
    if ls = [] then .next t
    else
      let t := if c.gr.pkt.det then t.modGroup c.g fun x => { x with running := maskOf ls } else t
      k (c.again t ls) t

/-- Lanes that cannot go on yet park; the effect is made for the others, if there are any (R44; under DET the set waits as
a whole, log 20). -/
def State.parking (s : State) (c : Cx) (blocked : Nat → Bool) (k : Cx → State → Out State) : Out State :=
  let parked := c.ls.filter blocked
  if parked = [] then k c s
  else if holdAll c parked || parked.length == c.ls.length then
    .next ((s.parkLanes c.g c.ls).count (coreOf c.g) c.gr.ctx 4 c.ls.length)
  else
    let t := (s.parkLanes c.g parked).count (coreOf c.g) c.gr.ctx 4 parked.length
    k (c.again t (c.ls.filter fun l => !blocked l)) t

/-- Whether a lane's flag would pass 63 (R124). -/
def Cx.flagFull (c : Cx) (i : Instr) : Bool := c.ls.any fun l => (c.x.lane l).flagFull ((c.x.lane l).flagOf i)

/-- Whether a lane of an issue set parks before the instruction issues: by itself, or with the set. -/
def State.stuckIn (s : State) (i : Instr) (c : Cx) (l : Nat) : Bool :=
  if actsOnce i then c.ls.any (s.stuck i c)
  else s.stuck i c l || (drainsAll i && c.ls.any fun k => s.chain c.g k != [])

/-- A set that stalls: it has no effect, and other sets go first (R63). -/
def State.stall (s : State) (c : Cx) : State := s.modLanes c.g c.ls fun _ y => { y with stamp := s.clock }

/-- Issue of an instruction: an index that names nothing, role (R41), a shadow run that meets an irreversible operation
(R224), parking, the flag that would overflow, then its own checks and effect in the lanes that did not park. -/
def issue (i : Instr) (s : State) (k : Cx → State → Out State) : Out State :=
  match s.inFocus with
  | none => .fault .noIssueSet
  | some c =>
    if illegalAt i c.ls.length then s.trapAll c .illegal 0
    else if !roleOk i c.x.role then s.trapAll c .role 0
    else if irreversible i && (s.team c.x.team).shadow.isSome then .next (s.abandonCheck c.x.team)
    else
      s.parking c (fun l => s.stuckIn i c l) fun c t =>
        if c.flagFull i then .next ((t.stall c).count (coreOf c.g) c.gr.ctx 9 1) else k c t

/-- Lanes whose region has performed an irreversible operation (R101). -/
def State.irrevIn (s : State) (g : Nat) (ls : List Nat) : State := s.modLanes g ls fun _ y => { y with irrev := true }

/-- Active lanes marked irreversible (R101); a checked team's own run keeps its digest but its shadow stops. -/
def State.irrev (s : State) (c : Cx) : State := s.irrevIn c.g c.ls

/-- Words written to vector registers from a field on, in one lane. -/
def Group.writeV (x : Group) (l : Nat) (d : BitVec 7) (ws : List Word) : Group :=
  writeAll x l ((upto ws.length).map fun k => .v ((x.lane l).arch (d.toNat + k))) ws

/-- The issue set goes on past its word. -/
def State.done (s : State) (c : Cx) (i : Instr) : State :=
  let t := if irreversible i then s.irrev c else s
  t.advance c (sizeOf' i)

/-- Lanes whose flag is incremented (R124). -/
def Group.incFlags (x : Group) (ls : List Nat) (f : Option Nat) : Group :=
  { x with lanes := ls.foldl (fun t l => tabMod t l fun y => y.incFlag f) x.lanes }

/-- An operation that issues now and returns later: destinations pending, flags incremented (R102, R124). -/
def State.launch (s : State) (c : Cx) (i : Instr) (l : Nat) (lanes : List Nat) (dsts : List PReg) (o : MemOp) : State :=
  let t := s.nextId
  let flag := (c.x.lane l).flagOf i
  let s := { s with
    nextId := t + 1 + dsts.length
    ops := tabSet s.ops t
      { o with
        g := c.g, uid := c.x.uid, lane := l, lanes := lanes, flag := flag, issue := s.fresh, since := s.clock, hdr := (c.x.lane l).hdr
        dsts := dsts.zip ((upto dsts.length).map (t + 1 + ·)) } }
  s.modGroup c.g fun x => (tagAll x l dsts (t + 1)).incFlags lanes flag

/-- A memory-class instruction captured or appended: flags are incremented at capture (R112). -/
def State.captureMem (s : State) (c : Cx) (i : Instr) (l : Nat) (lanes : List Nat) (dsts : List PReg) (r : Resid) : State :=
  let flag := (c.x.lane l).flagOf i
  let know := if releases i then s.seenBy c.g l else []
  let s := s.capture c.g l
    { r with flag := flag, lanes := lanes, issue := s.fresh, hdr := (c.x.lane l).hdr, ins := i, know := know } dsts
  (s.modGroup c.g fun x => x.incFlags lanes flag).count (coreOf c.g) c.gr.ctx 3 1

/-- An operation without a result, which has performed and completes later: only its flag is left to count down. -/
def State.counted (s : State) (c : Cx) (i : Instr) (l : Nat) : State :=
  if ((c.x.lane l).flagOf i).isSome then s.launch c i l [l] [] {} else s

/-- One operation for the whole set. -/
def State.countedOnce (s : State) (c : Cx) (i : Instr) (o : MemOp) : State := s.launch c i c.l0 c.ls [] o

end Sys2Proof.Machine
end

