-- ==== Sys2Proof/Machine/Integer.lean ====
section
/-!
DEFINITION. Integer and logic instructions on vector registers, majors 0x00 to 0x0D and 0x10 to 0x19 (R313, R314, R318, R319, R321,
R324, R369-R371, R373-R377, R390-R392, R396, R414, R420).
-/

namespace Sys2Proof.Machine

/-! ### Results -/

/-- A bit as a word. -/
def bitWord (b : Bool) : Word := if b then 1 else 0

/-- An integer clamped to signed 32 bits. -/
def satS (x : Int) : Word := BitVec.ofInt 32 (max (-2147483648) (min 2147483647 x))

/-- An integer clamped to unsigned 32 bits. -/
def satU (x : Int) : Word := BitVec.ofInt 32 (max 0 (min 4294967295 x))

/-- `A + B` in the 32-bit forms of Table 20.13. -/
def addResult (f : AddForm) (a b : Word) : Word :=
  match f with
  | .ssat => satS (a.toInt + b.toInt)
  | .usat => satU (a.toNat + b.toNat)
  | _ => a + b

/-- `A - B` in the 32-bit forms of Table 20.13. -/
def subResult (f : AddForm) (a b : Word) : Word :=
  match f with
  | .ssat => satS (a.toInt - b.toInt)
  | .usat => satU ((a.toNat : Int) - b.toNat)
  | _ => a - b

/-- The 32-bit products of R376. -/
def mulResult (f : MulForm) (a b : Word) : Word :=
  match f with
  | .hi => BitVec.ofInt 32 (a.toInt * b.toInt / 4294967296)
  | .hiu => w32 (a.toNat * b.toNat / 4294967296)
  | _ => a * b

/-- The minimum, signed or unsigned. -/
def minResult (uns : Bool) (a b : Word) : Word := if (if uns then a.ult b else a.slt b) then a else b

/-- The maximum, signed or unsigned. -/
def maxResult (uns : Bool) (a b : Word) : Word := if (if uns then a.ult b else a.slt b) then b else a

/-- The truth of `A cc B` (R373). -/
def icondHolds (c : ICond) (a b : Word) : Bool :=
  match c with
  | .eq => a == b
  | .ne => a != b
  | .lt => a.slt b
  | .le => a.sle b
  | .gt => b.slt a
  | .ge => b.sle a
  | .ltu => a.ult b
  | .leu => a.ule b
  | .gtu => b.ult a
  | .geu => b.ule a

/-- Leading zero bits among the low `n` bits. -/
def leadingZeros : Nat → Nat → Nat
  | 0, _ => 0
  | n + 1, x => if bitAt x n then 0 else leadingZeros n x + 1

/-- Bit i is bit n - 1 - i of the low `n` bits. -/
def reverseBits : Nat → Nat → Nat
  | 0, _ => 0
  | n + 1, x => x % 2 * 2 ^ n + reverseBits n (x / 2)

/-- The field of BFI and BFX: start and length (R318). -/
def fieldOf (spec : Word) : Nat × Nat :=
  let st := bits spec.toNat 0 5
  (st, min (bits spec.toNat 5 6) (32 - st))

/-- BFI (R318). -/
def bfiResult (a spec d : Word) : Word :=
  let (st, len) := fieldOf spec
  let mask : Word := w32 ((2 ^ len - 1) * 2 ^ st)
  (d &&& ~~~mask) ||| (w32 (a.toNat * 2 ^ st) &&& mask)

/-- BFX (R319). -/
def bfxResult (signed : Bool) (a spec : Word) : Word :=
  let (st, len) := fieldOf spec
  let f := bits a.toNat st len
  if len = 0 then 0 else if signed then BitVec.ofInt 32 (signedOf len f) else w32 f

/-- Bits `n b + c` of the result are bit `b` of component `c` (Table 19.7). -/
def spread (n k w a : Nat) : Nat :=
  ((upto n).flatMap fun c => (upto k).map fun b => if bitAt a (w * c + b) then 2 ^ (n * b + c) else 0).foldl (· + ·) 0

/-- Bit `b` of the result is bit `n b + c` of the source. -/
def gather (n k c a : Nat) : Nat := ((upto k).map fun b => if bitAt a (n * b + c) then 2 ^ b else 0).foldl (· + ·) 0

/-- BITIL (R321). -/
def bitilResult (three : Bool) (a : Word) : Word :=
  if three then w32 (spread 3 10 10 a.toNat) else w32 (spread 2 16 16 a.toNat)

/-- BITDL (R321). -/
def bitdlResult (f : DealForm) (a : Word) : Word :=
  match f with
  | .c3of0 => w32 (gather 3 10 0 a.toNat)
  | .c3of1 => w32 (gather 3 10 1 a.toNat)
  | .c3of2 => w32 (gather 3 10 2 a.toNat)
  | .c2of0 => w32 (gather 2 16 0 a.toNat)
  | .c2of1 => w32 (gather 2 16 1 a.toNat)

/-- Shifts and the rotate over `w` bits (Table 22.6). -/
def shlNat (w a n : Nat) : Nat := a * 2 ^ (n % w) % 2 ^ w
/-- Zeros in. -/
def shrNat (w a n : Nat) : Nat := a / 2 ^ (n % w)
/-- The top bit copied in. -/
def sarNat (w a n : Nat) : Nat := wrap w (signedOf w a / (2 ^ (n % w) : Nat))
/-- Rotate left. -/
def rotlNat (w a n : Nat) : Nat := shlNat w a n + a / 2 ^ (w - n % w)

/-- A member of the SHL family. -/
def shiftAlu (wide : Bool) (d a : VField) (b : BOp) (g : Nat → Nat → Nat → Nat) : Alu :=
  if wide then { srcs := v2 a ++ b.v, dsts := v2 d, f := fun _ w => pairWords (g 64 (opn64 w 0) (opn w 2).toNat) }
  else { srcs := v1 a ++ b.v, dsts := v1 d, f := fun _ w => [w32 (g 32 (opn w 0).toNat (opn w 1).toNat)] }

/-- An 11-bit immediate, sign-extended. -/
def imm11 (i : BitVec 11) : Word := i.signExtend 32

/-- A 32-bit form with a B operand. -/
def vec2 (d a : VField) (b : BOp) (g : Word → Word → Word) : Alu := alu2 (v1 d) (v1 a) b.v g

/-- A form with a vector source. -/
def vec1 (d a : VField) (g : Word → Word) : Alu := alu1 (v1 d) (v1 a) g

/-! ### The instructions -/

/-- IADD (R369). -/
def iaddAlu (f : AddForm) (d a : VField) (b : BOp) : Alu :=
  if f = .w64 then alu64 (v2 d) (v2 a) b.v2 (· + ·) else vec2 d a b (addResult f)
/-- ISUB (R369). -/
def isubAlu (f : AddForm) (d a : VField) (b : BOp) : Alu :=
  if f = .w64 then alu64 (v2 d) (v2 a) b.v2 (fun x y => x + 2 ^ 64 - y) else vec2 d a b (subResult f)
/-- IMUL (R376). -/
def imulAlu (f : MulForm) (d a : VField) (b : BOp) : Alu :=
  if f = .w64 then alu64 (v2 d) (v2 a) b.v2 (· * ·) else vec2 d a b (mulResult f)
/-- IMAD (R374): D is a source. -/
def imadAlu (wide : Bool) (d a : VField) (b : BOp) : Alu :=
  if wide then
    { srcs := v2 a ++ b.v2 ++ v2 d, dsts := v2 d
      f := fun _ w => pairWords (opn64 w 4 + opn64 w 0 * opn64 w 2) }
  else alu3 (v1 d) (v1 a) b.v fun x y z => z + x * y
/-- IMIN (R375). -/
def iminAlu (uns : Bool) (d a : VField) (b : BOp) : Alu := vec2 d a b (minResult uns)
/-- IMAX (R375). -/
def imaxAlu (uns : Bool) (d a : VField) (b : BOp) : Alu := vec2 d a b (maxResult uns)
/-- AND (R313). -/
def andAlu (d a : VField) (b : BOp) : Alu := vec2 d a b (· &&& ·)
/-- ANDN (R313). -/
def andnAlu (d a : VField) (b : BOp) : Alu := vec2 d a b fun x y => x &&& ~~~y
/-- OR (R313). -/
def orAlu (d a : VField) (b : BOp) : Alu := vec2 d a b (· ||| ·)
/-- ORN (R313). -/
def ornAlu (d a : VField) (b : BOp) : Alu := vec2 d a b fun x y => x ||| ~~~y
/-- XOR (R313). -/
def xorAlu (d a : VField) (b : BOp) : Alu := vec2 d a b (· ^^^ ·)
/-- SHL (R420). -/
def shlAlu (wide : Bool) (d a : VField) (b : BOp) : Alu := shiftAlu wide d a b shlNat
/-- SHR (R420). -/
def shrAlu (wide : Bool) (d a : VField) (b : BOp) : Alu := shiftAlu wide d a b shrNat
/-- SAR (R420). -/
def sarAlu (wide : Bool) (d a : VField) (b : BOp) : Alu := shiftAlu wide d a b sarNat
/-- ROTL (R420). -/
def rotlAlu (wide : Bool) (d a : VField) (b : BOp) : Alu := shiftAlu wide d a b rotlNat
/-- CLZ (R324). -/
def clzAlu (d a : VField) : Alu := vec1 d a fun x => w32 (leadingZeros 32 x.toNat)
/-- POPC (R324). -/
def popcAlu (d a : VField) : Alu := vec1 d a fun x => w32 (popcount 32 x.toNat)
/-- BREV (R324). -/
def brevAlu (d a : VField) : Alu := vec1 d a fun x => w32 (reverseBits 32 x.toNat)
/-- IABS (R324). -/
def iabsAlu (d a : VField) : Alu := vec1 d a fun x => w32 x.toInt.natAbs
/-- INEG (R324). -/
def inegAlu (d a : VField) : Alu := vec1 d a fun x => 0 - x
/-- NOT (R324). -/
def notAlu (d a : VField) : Alu := vec1 d a fun x => ~~~x
/-- BFX (R319). -/
def bfxAlu (signed : Bool) (d a : VField) (b : BOp) : Alu := vec2 d a b (bfxResult signed)
/-- BFI (R318): D is a source. -/
def bfiAlu (d a : VField) (b : BOp) : Alu := alu3 (v1 d) (v1 a) b.v bfiResult
/-- BITIL (R321). -/
def bitilAlu (three : Bool) (d a : VField) : Alu := vec1 d a (bitilResult three)
/-- BITDL (R321). -/
def bitdlAlu (f : DealForm) (d a : VField) : Alu := vec1 d a (bitdlResult f)
/-- ICMP (R373). -/
def icmpAlu (c : ICond) (d : PField) (a : VField) (b : BOp) : Alu :=
  alu2 (p1 d) (v1 a) b.v fun x y => bitWord (icondHolds c x y)
/-- ISEL (R377): it waits for all three sources. -/
def iselAlu (p : PField) (d a : VField) (b : BOp) : Alu :=
  { srcs := v1 a ++ b.v ++ p1 p, dsts := v1 d, f := fun _ w => [if opn w 2 != 0 then opn w 0 else opn w 1] }
/-- IADDC (R370). -/
def iaddcAlu (p : PField) (d a : VField) (b : BOp) : Alu :=
  { srcs := v1 a ++ b.v ++ p1 p, dsts := v1 d ++ p1 p
    f := fun _ w =>
      let t := (opn w 0).toNat + (opn w 1).toNat + (opn w 2).toNat
      [w32 t, bitWord (2 ^ 32 ≤ t)] }
/-- IADDI (R371). -/
def iaddiAlu (d a : VField) (i : BitVec 11) : Alu := vec1 d a fun x => x + imm11 i
/-- ANDI (R314). -/
def andiAlu (d a : VField) (i : BitVec 11) : Alu := vec1 d a fun x => x &&& imm11 i
/-- ORI (R396). -/
def oriAlu (d a : VField) (i : BitVec 11) : Alu := vec1 d a fun x => x ||| imm11 i
/-- XORI (R444). -/
def xoriAlu (d a : VField) (i : BitVec 11) : Alu := vec1 d a fun x => x ^^^ imm11 i
/-- SHLI (R414). -/
def shliAlu (d a : VField) (i : BitVec 11) : Alu := vec1 d a fun x => w32 (shlNat 32 x.toNat i.toNat)
/-- SHRI (R414). -/
def shriAlu (d a : VField) (i : BitVec 11) : Alu := vec1 d a fun x => w32 (shrNat 32 x.toNat i.toNat)
/-- SARI (R414). -/
def sariAlu (d a : VField) (i : BitVec 11) : Alu := vec1 d a fun x => w32 (sarNat 32 x.toNat i.toNat)
/-- MULI (R392). -/
def muliAlu (d a : VField) (i : BitVec 11) : Alu := vec1 d a fun x => x * imm11 i
/-- MOVI (R391). -/
def moviAlu (d : VField) (i : BitVec 18) : Alu := { srcs := [], dsts := v1 d, f := fun _ _ => [i.signExtend 32] }
/-- MOVH (R390): D is a source. -/
def movhAlu (d : VField) (i : BitVec 18) : Alu := vec1 d d fun x => w32 (i.toNat * 2 ^ 14 + x.toNat % 2 ^ 14)

/-! ### Issued as words -/

/-- IADD, issued. -/
def execIadd (f : AddForm) (d a : VField) (b : BOp) (s : State) : Out State :=
  issueAlu (.iadd f d a b) (iaddAlu f d a b) s

/-- ISUB, issued. -/
def execIsub (f : AddForm) (d a : VField) (b : BOp) (s : State) : Out State :=
  issueAlu (.isub f d a b) (isubAlu f d a b) s

/-- IMUL, issued. -/
def execImul (f : MulForm) (d a : VField) (b : BOp) (s : State) : Out State :=
  issueAlu (.imul f d a b) (imulAlu f d a b) s

/-- IMAD, issued. -/
def execImad (wide : Bool) (d a : VField) (b : BOp) (s : State) : Out State :=
  issueAlu (.imad wide d a b) (imadAlu wide d a b) s

/-- IMIN, issued. -/
def execImin (uns : Bool) (d a : VField) (b : BOp) (s : State) : Out State :=
  issueAlu (.imin uns d a b) (iminAlu uns d a b) s

/-- IMAX, issued. -/
def execImax (uns : Bool) (d a : VField) (b : BOp) (s : State) : Out State :=
  issueAlu (.imax uns d a b) (imaxAlu uns d a b) s

/-- AND, issued. -/
def execAnd (d a : VField) (b : BOp) (s : State) : Out State :=
  issueAlu (.and d a b) (andAlu d a b) s

/-- ANDN, issued. -/
def execAndn (d a : VField) (b : BOp) (s : State) : Out State :=
  issueAlu (.andn d a b) (andnAlu d a b) s

/-- OR, issued. -/
def execOr (d a : VField) (b : BOp) (s : State) : Out State :=
  issueAlu (.or d a b) (orAlu d a b) s

/-- ORN, issued. -/
def execOrn (d a : VField) (b : BOp) (s : State) : Out State :=
  issueAlu (.orn d a b) (ornAlu d a b) s

/-- XOR, issued. -/
def execXor (d a : VField) (b : BOp) (s : State) : Out State :=
  issueAlu (.xor d a b) (xorAlu d a b) s

/-- SHL, issued. -/
def execShl (wide : Bool) (d a : VField) (b : BOp) (s : State) : Out State :=
  issueAlu (.shl wide d a b) (shlAlu wide d a b) s

/-- SHR, issued. -/
def execShr (wide : Bool) (d a : VField) (b : BOp) (s : State) : Out State :=
  issueAlu (.shr wide d a b) (shrAlu wide d a b) s

/-- SAR, issued. -/
def execSar (wide : Bool) (d a : VField) (b : BOp) (s : State) : Out State :=
  issueAlu (.sar wide d a b) (sarAlu wide d a b) s

/-- ROTL, issued. -/
def execRotl (wide : Bool) (d a : VField) (b : BOp) (s : State) : Out State :=
  issueAlu (.rotl wide d a b) (rotlAlu wide d a b) s

/-- CLZ, issued. -/
def execClz (d a : VField) (s : State) : Out State :=
  issueAlu (.clz d a) (clzAlu d a) s

/-- POPC, issued. -/
def execPopc (d a : VField) (s : State) : Out State :=
  issueAlu (.popc d a) (popcAlu d a) s

/-- BREV, issued. -/
def execBrev (d a : VField) (s : State) : Out State :=
  issueAlu (.brev d a) (brevAlu d a) s

/-- IABS, issued. -/
def execIabs (d a : VField) (s : State) : Out State :=
  issueAlu (.iabs d a) (iabsAlu d a) s

/-- INEG, issued. -/
def execIneg (d a : VField) (s : State) : Out State :=
  issueAlu (.ineg d a) (inegAlu d a) s

/-- NOT, issued. -/
def execNot (d a : VField) (s : State) : Out State :=
  issueAlu (.not d a) (notAlu d a) s

/-- BFX, issued. -/
def execBfx (signed : Bool) (d a : VField) (b : BOp) (s : State) : Out State :=
  issueAlu (.bfx signed d a b) (bfxAlu signed d a b) s

/-- BFI, issued. -/
def execBfi (d a : VField) (b : BOp) (s : State) : Out State :=
  issueAlu (.bfi d a b) (bfiAlu d a b) s

/-- BITIL, issued. -/
def execBitil (three : Bool) (d a : VField) (s : State) : Out State :=
  issueAlu (.bitil three d a) (bitilAlu three d a) s

/-- BITDL, issued. -/
def execBitdl (f : DealForm) (d a : VField) (s : State) : Out State :=
  issueAlu (.bitdl f d a) (bitdlAlu f d a) s

/-- ICMP, issued. -/
def execIcmp (c : ICond) (d : PField) (a : VField) (b : BOp) (s : State) : Out State :=
  issueAlu (.icmp c d a b) (icmpAlu c d a b) s

/-- ISEL, issued. -/
def execIsel (p : PField) (d a : VField) (b : BOp) (s : State) : Out State :=
  issueAlu (.isel p d a b) (iselAlu p d a b) s

/-- IADDC, issued. -/
def execIaddc (p : PField) (d a : VField) (b : BOp) (s : State) : Out State :=
  issueAlu (.iaddc p d a b) (iaddcAlu p d a b) s

/-- IADDI, issued. -/
def execIaddi (d a : VField) (imm : BitVec 11) (s : State) : Out State :=
  issueAlu (.iaddi d a imm) (iaddiAlu d a imm) s

/-- ANDI, issued. -/
def execAndi (d a : VField) (imm : BitVec 11) (s : State) : Out State :=
  issueAlu (.andi d a imm) (andiAlu d a imm) s

/-- ORI, issued. -/
def execOri (d a : VField) (imm : BitVec 11) (s : State) : Out State :=
  issueAlu (.ori d a imm) (oriAlu d a imm) s

/-- XORI, issued. -/
def execXori (d a : VField) (imm : BitVec 11) (s : State) : Out State :=
  issueAlu (.xori d a imm) (xoriAlu d a imm) s

/-- SHLI, issued. -/
def execShli (d a : VField) (imm : BitVec 11) (s : State) : Out State :=
  issueAlu (.shli d a imm) (shliAlu d a imm) s

/-- SHRI, issued. -/
def execShri (d a : VField) (imm : BitVec 11) (s : State) : Out State :=
  issueAlu (.shri d a imm) (shriAlu d a imm) s

/-- SARI, issued. -/
def execSari (d a : VField) (imm : BitVec 11) (s : State) : Out State :=
  issueAlu (.sari d a imm) (sariAlu d a imm) s

/-- MULI, issued. -/
def execMuli (d a : VField) (imm : BitVec 11) (s : State) : Out State :=
  issueAlu (.muli d a imm) (muliAlu d a imm) s

/-- MOVI, issued. -/
def execMovi (d : VField) (imm : BitVec 18) (s : State) : Out State :=
  issueAlu (.movi d imm) (moviAlu d imm) s

/-- MOVH, issued. -/
def execMovh (d : VField) (imm : BitVec 18) (s : State) : Out State :=
  issueAlu (.movh d imm) (movhAlu d imm) s

end Sys2Proof.Machine
end

