-- ==== Sys2Proof/Machine/Float.lean ====
section
/-!
DEFINITION. Floating-point instructions, majors 0x20 to 0x2C and 0x2F (R146-R150, R157-R159, R357-R362, R365, R397, R440), and the
results that other instructions share: minima, sums, stochastic conversion.
-/

namespace Sys2Proof.Machine

/-! ### Results -/

/-- A word read as FP32. -/
def asFp (w : Word) : Val := fp32.decode w.toNat

/-- An FP32 result. -/
def toFp (m : RMode) (v : Val) : Word := w32 (fp32.round m v)

/-- The canonical FP32 NaN. -/
def fpNan : Word := 0x7FC00000

/-- 1.0. -/
def fpOne : Word := 0x3F800000

/-- `.SAT` (R358). -/
def satFp (y : Word) : Word :=
  let v := asFp y
  if v.isNan || v.isNeg || v.isZero then 0 else if (asFp fpOne).lt v then fpOne else y

/-- A result of the FADD mould. -/
def mouldResult (sat : Bool) (m : RMode) (v : Val) : Word := if sat then satFp (toFp m v) else toFp m v

/-- IEEE 754 minimum: NaN gives the canonical NaN, -0 ranks below +0 (R365). -/
def fminW (a b : Word) : Word :=
  let x := asFp a
  let y := asFp b
  if x.isNan || y.isNan then fpNan else if x.lt y then a else if y.lt x then b else if x.isNeg then a else b

/-- IEEE 754 maximum. -/
def fmaxW (a b : Word) : Word :=
  let x := asFp a
  let y := asFp b
  if x.isNan || y.isNan then fpNan else if x.lt y then b else if y.lt x then a else if x.isNeg then b else a

/-- minimumNumber and maximumNumber over such an operation. -/
def numOf (g : Word → Word → Word) (a b : Word) : Word :=
  if (asFp a).isNan then (if (asFp b).isNan then fpNan else b) else if (asFp b).isNan then a else g a b

/-- `A + B` by RNE. -/
def faddW (a b : Word) : Word := toFp .rne ((asFp a).add .rne (asFp b))
/-- `A - B` by RNE. -/
def fsubW (a b : Word) : Word := toFp .rne ((asFp a).add .rne (asFp b).neg)
/-- `A × B` by RNE. -/
def fmulW (a b : Word) : Word := toFp .rne ((asFp a).mul (asFp b))

/-- The truth of an FCMP condition (R359). -/
def fcondHolds (c : FCond) (a b : Word) : Bool :=
  let x := asFp a
  let y := asFp b
  let un := x.isNan || y.isNan
  match c with
  | .eq => x.eqv y
  | .ne => un || !x.eqv y
  | .lt => x.lt y
  | .le => !un && !y.lt x
  | .gt => y.lt x
  | .ge => !un && !x.lt y
  | .un => un
  | .ord => !un

/-! ### Special functions (Tables 6.9 and 6.10) -/

/-- A free value kept within a range: outside it, zero stands for it (log 15). -/
def within (lo hi : Val) (w : Word) : Word :=
  let v := asFp w
  if v.isNan || v.lt lo || hi.lt v then 0 else w

/-- One, in fixed point with 128 fraction bits. -/
def fxOne : Int := (2 ^ 128 : Nat)

/-- A fixed-point product. -/
def fxMul (a b : Int) : Int := a * b / fxOne

/-- `exp a` of a fixed-point number below one, by the terms `k` to `k + n - 1` of its series. -/
def fxExp (a : Int) : Nat → Nat → Int
  | 0, _ => fxOne
  | n + 1, k => fxOne + fxMul a (fxExp a n (k + 1)) / k

/-- `(cos a, sin a)` of a fixed-point number below one, likewise. -/
def fxCis (a : Int) : Nat → Nat → Int × Int
  | 0, _ => (fxOne, 0)
  | n + 1, k =>
    let p := fxCis a n (k + 1)
    (fxOne - fxMul a p.2 / k, fxMul a p.1 / k)

/-- A number squared `n` times. -/
def fxSquares : Nat → Int → Int
  | 0, a => a
  | n + 1, a => fxSquares n (fxMul a a)

/-- `(cos a, sin a)` with the angle doubled `n` times. -/
def fxDoubles : Nat → Int × Int → Int × Int
  | 0, p => p
  | n + 1, p => fxDoubles n (fxMul p.1 p.1 - fxMul p.2 p.2, 2 * fxMul p.1 p.2)

/-- The first `n` fraction bits of `log2 z`, 1 ≤ z < 2, as an integer that `acc` begins. -/
def fxLog2 : Nat → Int → Int → Int
  | 0, _, acc => acc
  | n + 1, z, acc =>
    let y := fxMul z z
    if 2 * fxOne ≤ y then fxLog2 n (y / 2) (2 * acc + 1) else fxLog2 n y (2 * acc)

/-- A unit in the last place of an FP32 result near a value, as an exponent of two. -/
def ulpOf : Val → Int
  | .fin _ m e => if m = 0 then -149 else max (log2Of m e - 23) (-149)
  | _ => -149

/-- A free value kept within `2^q` of what `a` approximates: outside that, `a` rounded stands for it (R158, log 15). -/
def boundedBy (a : Val) (q : Int) (w : Word) : Word :=
  let top (x : Val) : Val :=
    match x with
    | .inf s => .fin s 1 128
    | x => x
  match (top (asFp w)).add .rne a.neg with
  | .fin _ m e => if (Val.fin false 1 q).lt (.fin false m e) then toFp .rne a else w
  | _ => toFp .rne a

/-- `log2 (m × 2^e)` to 64 fraction bits. -/
def log2Near (m : Nat) (e : Int) : Val :=
  let k := Nat.log2 m
  .scaled (log2Of m e * (2 ^ 64 : Nat) + fxLog2 64 (floorTo false m (-(k : Int)) (-128)) 0) (-64)

/-- `2^x` of a finite value below 128; far below the least subnormal a value that tells only that it is positive. -/
def exp2Near (s : Bool) (m : Nat) (e : Int) : Val :=
  let n := floorTo s m e 0
  if n < -200 then .fin false 1 (-400)
  else .scaled (fxExp (fxMul (floorTo s m e (-128) - n * fxOne) 0xB17217F7D1CF79ABC9E3B39803F2F6AF) 40 1) (n - 128)

/-- Whether a value is so small that the first terms of a series give the rest. -/
def isTiny (m : Nat) (e : Int) : Bool := (Val.fin false m e).lt (.fin false 1 (-40))

/-- `x - x³ / 2^k`, for values of which `x` less a small part of `x³` is the function. -/
def lessCube (s : Bool) (m : Nat) (e : Int) (k : Int) : Val := (Val.fin s m e).add .rne (.fin (!s) (m * m * m) (3 * e - k))

/-- `(cos x, sin x)` of a value of at most 2^15. -/
def cisNear (s : Bool) (m : Nat) (e : Int) : Val × Val :=
  if isTiny m e then ((Val.ofInt 1).add .rne (.fin true (m * m) (2 * e - 1)), lessCube s m e 3) else
  let p := fxDoubles 16 (fxCis (floorTo s m (e - 16) (-128)) 40 1)
  (.scaled p.1 (-128), .scaled p.2 (-128))

/-- `tanh x`; beyond 16 the value at 16, which is as near to one. -/
def tanhNear (s : Bool) (m : Nat) (e : Int) : Val :=
  if isTiny m e then lessCube s m e 2 else
  let a := if (Val.ofInt 16).lt (.fin false m e) then 16 * fxOne else floorTo false m e (-128)
  let t := fxSquares 6 (fxExp (-(a / 32)) 40 1)
  let y := (fxOne - t) * fxOne / (fxOne + t)
  .scaled (if s then -y else y) (-128)

/-- FRCP, correctly rounded. -/
def frcpW (a : Word) : Word :=
  match asFp a with
  | .nan => fpNan
  | .inf s => toFp .rne (.fin s 0 0)
  | .fin s m e => if m = 0 then toFp .rne (.inf s) else toFp .rne (recipVal s m e)

/-- FRSQ, correctly rounded. -/
def frsqW (a : Word) : Word :=
  match asFp a with
  | .nan => fpNan
  | .inf s => if s then fpNan else 0
  | .fin s m e => if m = 0 then toFp .rne (.inf s) else if s then fpNan else toFp .rne (rsqrtVal m e)

/-- FSQRT, correctly rounded. -/
def fsqrtW (a : Word) : Word :=
  match asFp a with
  | .nan => fpNan
  | .inf s => if s then fpNan else a
  | .fin s m e => if m = 0 then a else if s then fpNan else toFp .rne (sqrtVal m e)

/-- Whether `m × 2^e` is a power of two. -/
def isPow2 (m : Nat) : Bool := m == 2 ^ Nat.log2 m

/-- FLOG2. -/
def flog2W (a : Word) : Word :=
  match asFp a with
  | .nan => fpNan
  | .inf s => if s then fpNan else a
  | .fin s m e =>
    if m = 0 then toFp .rne (.inf true)
    else if s then fpNan
    else if isPow2 m then toFp .rne (.ofInt (log2Of m e))
    else
      let y := log2Near m e
      boundedBy y (if (Val.fin false 1 (-1)).lt (.fin s m e) && (Val.fin s m e).lt (.ofInt 2) then -22 else ulpOf y + 1) (Config.flog2 a)

/-- FEXP2: from 128 on the result is +∞, as 2^x lies more than 2 ulp beyond the greatest finite value (R158). -/
def fexp2W (a : Word) : Word :=
  match asFp a with
  | .nan => fpNan
  | .inf s => if s then 0 else a
  | .fin s m e =>
    let (n, rem, _) := splitAt m e 0
    let k : Int := if s then -(n : Int) else n
    if 128 ≤ floorTo s m e 0 then 0x7F800000
    else if rem = 0 then toFp .rne (.fin false 1 (max k (-200)))
    else boundedBy (exp2Near s m e) (ulpOf (exp2Near s m e) + 1) (Config.fexp2 a)

/-- FSIN or FCOS of a non-zero value; beyond 2^15 any value in [-1, 1]. -/
def circular (s : Bool) (m : Nat) (e : Int) (f : Val × Val → Val) (w : Word) : Word :=
  if (Val.ofInt 32768).lt (.fin false m e) then within (.ofInt (-1)) (.ofInt 1) w else boundedBy (f (cisNear s m e)) (-21) w

/-- FSIN. -/
def fsinW (a : Word) : Word :=
  match asFp a with
  | .nan | .inf _ => fpNan
  | .fin s m e => if m = 0 then a else circular s m e (·.2) (Config.fsin a)

/-- FCOS. -/
def fcosW (a : Word) : Word :=
  match asFp a with
  | .nan | .inf _ => fpNan
  | .fin s m e => if m = 0 then fpOne else circular s m e (·.1) (Config.fcos a)

/-- FTANH. -/
def ftanhW (a : Word) : Word :=
  match asFp a with
  | .nan => fpNan
  | .inf s => if s then 0xBF800000 else fpOne
  | .fin s m e =>
    if m = 0 then a
    else
      let y := tanhNear s m e
      boundedBy y (if (Val.fin false m e).lt (.fin false 1 (-10)) then -21 else ulpOf y + 1) (Config.ftanh a)

/-! ### Packed pairs and conversions -/

/-- The packed format. -/
def packFmt (bf : Bool) : Fmt := if bf then bf16 else fp16

/-- An element of a packed pair. -/
def elem (f : Fmt) (w : Word) (k : Nat) : Val := f.decode (bits w.toNat (16 * k) 16)

/-- Two elements, each by its function, rounded by RNE. -/
def packed (f : Fmt) (g : Nat → Val) : Word := w32 (f.round .rne (g 0) + 2 ^ 16 * f.round .rne (g 1))

/-- RINT (R361). -/
def rintW (m : RMode) (a : Word) : Word :=
  match asFp a with
  | .nan => fpNan
  | .inf _ => a
  | .fin s k e =>
    let n := roundInt m s k e
    if n = 0 then toFp .rne (.fin s 0 0) else toFp .rne (.ofInt n)

/-- FCVT (Table 20.10). -/
def fcvtW (m : RMode) (sel : CvtSel) (a : Word) : Word :=
  match sel with
  | .toFp16 => w32 (fp16.round m (asFp a))
  | .toBf16 => w32 (bf16.round m (asFp a))
  | .toFp8e4 => w32 (fp8e4.round m (asFp a))
  | .toFp8e5 => w32 (fp8e5.round m (asFp a))
  | .fromFp16 => toFp .rne (fp16.decode (bits a.toNat 0 16))
  | .fromBf16 => toFp .rne (bf16.decode (bits a.toNat 0 16))
  | .fromFp8e4 => toFp .rne (fp8e4.decode (bits a.toNat 0 8))
  | .fromFp8e5 => toFp .rne (fp8e5.decode (bits a.toNat 0 8))
  | .toInt32 => BitVec.ofInt 32 (roundClamp m (-2147483648) 2147483647 (asFp a))
  | .toInt8 => BitVec.ofInt 32 (roundClamp m (-128) 127 (asFp a))
  | .toUint8 => BitVec.ofInt 32 (roundClamp m 0 255 (asFp a))
  | .fromInt32 => toFp m (.ofInt a.toInt)
  | .fromUint32 => toFp m (.ofInt a.toNat)
  | .rint => rintW m a

/-- The narrow formats. -/
def narrowFmt : NarrowFmt → Fmt
  | .bf16 => bf16
  | .fp16 => fp16
  | .fp8e4 => fp8e4
  | .fp8e5 => fp8e5

/-- FCVTS (R362): the draw is made from the grid's seed, the thread's stream and the counter. -/
def fcvtsW (f : Fmt) (seed : DWord) (a counter stream : Word) : Word :=
  let v := asFp a
  if f.exact v then w32 (f.round .rne v)
  else w32 (f.roundSr (rngDraw (rngKeyOf seed stream) (counter.setWidth 64) 0) v)

/-- VQDEC (R440): eight weights as four BF16 pairs. -/
def vqdecW (table : List (BitVec 16)) (a : Word) : List Word :=
  let ws := (vq2Weights table (bits a.toNat 0 16)).map fun v => bf16.round .rne v
  (upto 4).map fun c => w32 (ws.getD (2 * c) 0 + 2 ^ 16 * ws.getD (2 * c + 1) 0)

/-! ### The instructions -/

/-- FADD (R358). -/
def faddAlu (sat : Bool) (m : RMode) (d a : VField) (b : BOp) : Alu :=
  vec2 d a b fun x y => mouldResult sat m ((asFp x).add m (asFp y))
/-- FSUB (R358). -/
def fsubAlu (sat : Bool) (m : RMode) (d a : VField) (b : BOp) : Alu :=
  vec2 d a b fun x y => mouldResult sat m ((asFp x).add m (asFp y).neg)
/-- FMUL (R358). -/
def fmulAlu (sat : Bool) (m : RMode) (d a : VField) (b : BOp) : Alu :=
  vec2 d a b fun x y => mouldResult sat m ((asFp x).mul (asFp y))
/-- FFMA (R358): D + A × B, rounded once. -/
def ffmaAlu (sat : Bool) (m : RMode) (d a : VField) (b : BOp) : Alu :=
  alu3 (v1 d) (v1 a) b.v fun x y z => mouldResult sat m ((asFp z).add m ((asFp x).mul (asFp y)))
/-- FMIN and FMIN.NUM (R365). -/
def fminAlu (num : Bool) (d a : VField) (b : BOp) : Alu := vec2 d a b (if num then numOf fminW else fminW)
/-- FMAX and FMAX.NUM (R365). -/
def fmaxAlu (num : Bool) (d a : VField) (b : BOp) : Alu := vec2 d a b (if num then numOf fmaxW else fmaxW)
/-- FCMP (R359). -/
def fcmpAlu (c : FCond) (d : PField) (a : VField) (b : BOp) : Alu :=
  alu2 (p1 d) (v1 a) b.v fun x y => bitWord (fcondHolds c x y)
/-- FABS (R357). -/
def fabsAlu (d a : VField) : Alu := vec1 d a fun x => x &&& 0x7FFFFFFF
/-- FNEG (R357). -/
def fnegAlu (d a : VField) : Alu := vec1 d a fun x => x ^^^ 0x80000000
/-- FCPYS (R357). -/
def fcpysAlu (d a : VField) (b : BOp) : Alu := vec2 d a b fun x y => (x &&& 0x7FFFFFFF) ||| (y &&& 0x80000000)
/-- FRCP (R360). -/
def frcpAlu (d a : VField) : Alu := vec1 d a frcpW
/-- FRSQ (R360). -/
def frsqAlu (d a : VField) : Alu := vec1 d a frsqW
/-- FSQRT (R360). -/
def fsqrtAlu (d a : VField) : Alu := vec1 d a fsqrtW
/-- FLOG2 (R360). -/
def flog2Alu (d a : VField) : Alu := vec1 d a flog2W
/-- FEXP2 (R360). -/
def fexp2Alu (d a : VField) : Alu := vec1 d a fexp2W
/-- FSIN (R360). -/
def fsinAlu (d a : VField) : Alu := vec1 d a fsinW
/-- FCOS (R360). -/
def fcosAlu (d a : VField) : Alu := vec1 d a fcosW
/-- FTANH (R360). -/
def ftanhAlu (d a : VField) : Alu := vec1 d a ftanhW
/-- PADD2 (R397). -/
def padd2Alu (bf : Bool) (d a : VField) (b : BOp) : Alu :=
  vec2 d a b fun x y => packed (packFmt bf) fun k => (elem (packFmt bf) x k).add .rne (elem (packFmt bf) y k)
/-- PMUL2 (R397). -/
def pmul2Alu (bf : Bool) (d a : VField) (b : BOp) : Alu :=
  vec2 d a b fun x y => packed (packFmt bf) fun k => (elem (packFmt bf) x k).mul (elem (packFmt bf) y k)
/-- PFMA2 (R397): D is a source. -/
def pfma2Alu (bf : Bool) (d a : VField) (b : BOp) : Alu :=
  alu3 (v1 d) (v1 a) b.v fun x y z =>
    packed (packFmt bf) fun k =>
      (elem (packFmt bf) z k).add .rne ((elem (packFmt bf) x k).mul (elem (packFmt bf) y k))
/-- FCVT (R361). -/
def fcvtAlu (m : RMode) (sel : CvtSel) (d a : VField) : Alu := vec1 d a (fcvtW m sel)
/-- FCVTS (R362): the stream register v1053 is an implicit source; pending, it parks the lane (R105). -/
def fcvtsAlu (f : NarrowFmt) (d a : VField) (b : BOp) : Alu :=
  { srcs := v1 a ++ b.v ++ [.abs 1053], dsts := v1 d, firm := [.abs 1053]
    f := fun e w => [fcvtsW (narrowFmt f) e.seed (opn w 0) (opn w 1) (opn w 2)] }
/-- VQDEC (R440). -/
def vqdecAlu (table : BitVec 2) (d a : VField) : Alu :=
  { srcs := v1 a, dsts := v4 d, f := fun e w => vqdecW (e.lat.getD table.toNat []) (opn w 0) }

/-! ### Issued as words -/

/-- FADD, issued. -/
def execFadd (sat : Bool) (m : RMode) (d a : VField) (b : BOp) (s : State) : Out State :=
  issueAlu (.fadd sat m d a b) (faddAlu sat m d a b) s

/-- FSUB, issued. -/
def execFsub (sat : Bool) (m : RMode) (d a : VField) (b : BOp) (s : State) : Out State :=
  issueAlu (.fsub sat m d a b) (fsubAlu sat m d a b) s

/-- FMUL, issued. -/
def execFmul (sat : Bool) (m : RMode) (d a : VField) (b : BOp) (s : State) : Out State :=
  issueAlu (.fmul sat m d a b) (fmulAlu sat m d a b) s

/-- FFMA, issued. -/
def execFfma (sat : Bool) (m : RMode) (d a : VField) (b : BOp) (s : State) : Out State :=
  issueAlu (.ffma sat m d a b) (ffmaAlu sat m d a b) s

/-- FMIN, issued. -/
def execFmin (num : Bool) (d a : VField) (b : BOp) (s : State) : Out State :=
  issueAlu (.fmin num d a b) (fminAlu num d a b) s

/-- FMAX, issued. -/
def execFmax (num : Bool) (d a : VField) (b : BOp) (s : State) : Out State :=
  issueAlu (.fmax num d a b) (fmaxAlu num d a b) s

/-- FCMP, issued. -/
def execFcmp (c : FCond) (d : PField) (a : VField) (b : BOp) (s : State) : Out State :=
  issueAlu (.fcmp c d a b) (fcmpAlu c d a b) s

/-- FABS, issued. -/
def execFabs (d a : VField) (s : State) : Out State :=
  issueAlu (.fabs d a) (fabsAlu d a) s

/-- FNEG, issued. -/
def execFneg (d a : VField) (s : State) : Out State :=
  issueAlu (.fneg d a) (fnegAlu d a) s

/-- FCPYS, issued. -/
def execFcpys (d a : VField) (b : BOp) (s : State) : Out State :=
  issueAlu (.fcpys d a b) (fcpysAlu d a b) s

/-- FRCP, issued. -/
def execFrcp (d a : VField) (s : State) : Out State :=
  issueAlu (.frcp d a) (frcpAlu d a) s

/-- FRSQ, issued. -/
def execFrsq (d a : VField) (s : State) : Out State :=
  issueAlu (.frsq d a) (frsqAlu d a) s

/-- FSQRT, issued. -/
def execFsqrt (d a : VField) (s : State) : Out State :=
  issueAlu (.fsqrt d a) (fsqrtAlu d a) s

/-- FLOG2, issued. -/
def execFlog2 (d a : VField) (s : State) : Out State :=
  issueAlu (.flog2 d a) (flog2Alu d a) s

/-- FEXP2, issued. -/
def execFexp2 (d a : VField) (s : State) : Out State :=
  issueAlu (.fexp2 d a) (fexp2Alu d a) s

/-- FSIN, issued. -/
def execFsin (d a : VField) (s : State) : Out State :=
  issueAlu (.fsin d a) (fsinAlu d a) s

/-- FCOS, issued. -/
def execFcos (d a : VField) (s : State) : Out State :=
  issueAlu (.fcos d a) (fcosAlu d a) s

/-- FTANH, issued. -/
def execFtanh (d a : VField) (s : State) : Out State :=
  issueAlu (.ftanh d a) (ftanhAlu d a) s

/-- PADD2, issued. -/
def execPadd2 (bf16 : Bool) (d a : VField) (b : BOp) (s : State) : Out State :=
  issueAlu (.padd2 bf16 d a b) (padd2Alu bf16 d a b) s

/-- PMUL2, issued. -/
def execPmul2 (bf16 : Bool) (d a : VField) (b : BOp) (s : State) : Out State :=
  issueAlu (.pmul2 bf16 d a b) (pmul2Alu bf16 d a b) s

/-- PFMA2, issued. -/
def execPfma2 (bf16 : Bool) (d a : VField) (b : BOp) (s : State) : Out State :=
  issueAlu (.pfma2 bf16 d a b) (pfma2Alu bf16 d a b) s

/-- FCVT, issued. -/
def execFcvt (m : RMode) (sel : CvtSel) (d a : VField) (s : State) : Out State :=
  issueAlu (.fcvt m sel d a) (fcvtAlu m sel d a) s

/-- FCVTS, issued. -/
def execFcvts (f : NarrowFmt) (d a : VField) (b : BOp) (s : State) : Out State :=
  issueAlu (.fcvts f d a b) (fcvtsAlu f d a b) s

/-- VQDEC, issued. -/
def execVqdec (table : BitVec 2) (d a : VField) (s : State) : Out State :=
  issueAlu (.vqdec table d a) (vqdecAlu table d a) s

end Sys2Proof.Machine
end

