-- ==== Sys2Proof/Machine/Access.lean ====
section
/-!
DEFINITION. Memory instructions: LD, ST, LDS, STS, LDU, ATOM, CAS, the fences, ICINV, CCTL (R108, R109, R112, R140, R168, R182, R184,
R200, R224, R225, R315-R317, R329-R332, R363, R372, R379-R384, R423-R425).
-/

namespace Sys2Proof.Machine

/-! ### Addresses -/

/-- The address of a load or store: a pair and a signed offset (R379). -/
def State.vaddr (s : State) (c : Cx) (l : Nat) (a : VField) (b : BOp) : Nat :=
  (BitVec.ofNat 64 (s.readPair c.x l a) + (s.readOpd c.x l (b.v.headD (.imm 0))).signExtend 64).toNat

/-- The place of a naturally aligned access to memory, or the cause it raises (R380). -/
def State.place (s : State) (w : Who) (acc : Acc) (va n : Nat) : Except (Cause × Nat) Loc :=
  if va % n != 0 then .error (.misaligned, va)
  else
    match s.xlate w acc va n with
    | .error e => .error (e, va)
    | .ok pa => .ok (.phys pa)

/-- The slice size of a group's team; handler teams and bin groups have no scratchpad (R59, R207). -/
def State.sliceBytes (s : State) (c : Cx) : Nat :=
  if (s.team c.x.team).handler.isSome || c.x.bin.isSome then 0 else c.gr.pkt.spad

/-- The scratchpad place of an address, for `n` bytes (R168). -/
def State.spadPlace (s : State) (c : Cx) (a n : Nat) : Except (Cause × Nat) Loc :=
  let t := s.team c.x.team
  let core := if bitAt a 31 then (if coreOf c.g % 2 = 0 then coreOf c.g + 1 else coreOf c.g - 1) else coreOf c.g
  if bits a 23 8 != 0 || s.sliceBytes c < bits a 0 23 + n || !t.cores.contains core then .error (.permission, a)
  else .ok (.spad c.x.team (t.cores.findIdx fun k => k == core) (bits a 0 23))

/-- The scratchpad place of a naturally aligned access (R382). -/
def State.spadAccess (s : State) (c : Cx) (a n : Nat) : Except (Cause × Nat) Loc :=
  if a % n != 0 then .error (.misaligned, a) else s.spadPlace c a n

/-- The cause of a place, if it has none. -/
def failOf {α : Type} : Except (Cause × Nat) α → Option (Cause × Nat)
  | .error e => some e
  | .ok _ => none

/-! ### The store chain -/

/-- Bytes of an atomic's location. -/
def atomBytes : Instr → Nat
  | .atom _ _ true .. | .cas true .. => 8
  | _ => 4

/-- Whether a later load of the thread waits for an entry: an overlap or a FENCE.FULL (R109), or ACQ or AR ordering
(R200). -/
def Resid.holds (r : Resid) (loc : Loc) (n : Nat) : Bool :=
  match r.kind with
  | .store p m _ _ => p.overlaps m loc n
  | .fence full => full
  | .atomic p _ =>
    p.overlaps (atomBytes r.ins) loc n ||
      (match r.ins with
        | .atom _ _ _ o .. | .cas _ o .. => o == .acq || o == .ar
        | _ => false)
  | _ => false

/-- The youngest chain entry that a load of these bytes waits for. -/
def State.behind (s : State) (g l : Nat) (loc : Loc) (n : Nat) : Option Nat :=
  (((s.chain g l).filter fun e => e.2.holds loc n).getLast?).map (·.1)

/-- The youngest entry that a read of the fetch unit waits for: one of some of its bytes, an acquire, or a FENCE.FULL (R109, R191, R200). -/
def State.behindAny (s : State) (g l : Nat) (ps : List Piece) : Option Nat :=
  (((s.chain g l).filter fun e => e.2.acquires || ps.any fun p => e.2.holds p.loc p.len).getLast?).map (·.1)

/-- What a load of these bytes is captured behind: that entry, and earlier captured loads of them (R109, R190). -/
def State.waitsFor (s : State) (g l : Nat) (loc : Loc) (n : Nat) : List Nat :=
  match s.behind g l loc n with
  | none => []
  | some e => e :: ((s.heldLoads g l).filter fun h => h.2.reads loc n).map (·.1)

/-- Whether a chain entry overlaps any of some pieces, or is a FENCE.FULL (R109's parking reads). -/
def State.chainMeets (s : State) (g l : Nat) (ps : List Piece) : Bool :=
  ps.any fun p => (s.behind g l p.loc p.len).isSome

/-- Whether a lane has room for a residual entry. -/
def State.room (s : State) (c : Cx) (l : Nat) : Bool := s.budgeted c.g l < s.residBudget c.x

/-- The check of R114 for a lane that captures. -/
def State.budgetCheck (s : State) (c : Cx) (l : Nat) (captures : Bool) : Option (Cause × Nat) :=
  must (!captures || s.room c l || s.respark c.x) .residualFull 0

/-- With RESPARK, a lane without room parks. -/
def State.noRoom (s : State) (c : Cx) (l : Nat) (captures : Bool) : Bool := captures && !s.room c l

/-! ### Performing -/

/-- The bytes that a load of a team reads; a shadow run reads its overlay where it holds them (R224). -/
def State.loadBytes (s : State) (team va : Nat) (loc : Loc) (n : Nat) : List Byte :=
  let bs := s.readLoc loc n
  match (s.team team).shadow, loc with
  | some sh, .phys _ => (bs.zip (upto n)).map fun p => tabGetD sh.overlay (va + p.2) p.1
  | _, _ => bs

/-- Bytes in a shadow run's overlay; past 64 KiB the check is abandoned (R224). -/
def State.overlayStore (s : State) (team va : Nat) (sh : Shadow) (bs : List Byte) : State :=
  let o := (bs.zip (upto bs.length)).foldl (fun t p => tabSet t (va + p.2) p.1) sh.overlay
  if 65536 < o.length then s.abandonCheck team else s.modTeam team fun t => { t with shadow := some { sh with overlay := o } }

/-- The digest of a checked team after a store (R225). -/
def digestStep (d : DWord) (va : Nat) (bs : List Byte) : DWord :=
  (bs.zip (upto bs.length)).foldl (fun d p => d + mix64 (BitVec.ofNat 64 ((va + p.2) * 256 + p.1.toNat))) d

/-- A store performs: discarded where its region is lost (R182), kept in the overlay of a shadow run. -/
def State.performStore (s : State) (g team va : Nat) (loc : Loc) (bs : List Byte) : State :=
  let t := s.team team
  match loc with
  | .spad .. => s.writeLoc (dieOf (coreOf g)) loc bs
  | .phys pa =>
    let s := if t.checked || t.shadow.isSome then s.modTeam team fun t => { t with digest := digestStep t.digest va bs } else s
    match t.shadow with
    | some sh => s.overlayStore team va sh bs
    | none => if s.lostAt pa bs.length then s else s.writeLoc (dieOf (coreOf g)) loc bs

/-- What an instruction orders by itself: the scope of its acquire and that of its release (Table 8.2). -/
def orderingOf : Instr → Option Scope × Option Scope
  | .ld true .. => (some .device, none)
  | .st true .. => (none, some .device)
  | .atom _ _ _ o sc .. | .cas _ o sc .. =>
    (if o == .acq || o == .ar then some sc else none, if o == .rel || o == .ar then some sc else none)
  | _ => (none, none)

/-- Whether a store of a team reaches its location: not one of a shadow run to memory, nor one to a lost region. -/
def State.reaches (s : State) (team : Nat) (loc : Loc) (n : Nat) : Bool :=
  match loc with
  | .phys pa => (s.team team).shadow.isNone && !s.lostAt pa n
  | .spad .. => true

/-- A store of a lane performs and takes its place among the writes (R188); `know` is what happens-before its release. -/
def State.storeAs (s : State) (i : Instr) (g l team va : Nat) (loc : Loc) (bs : List Byte) (know : Tab Nat) : State :=
  let n := bs.length
  let t := (s.performStore g team va loc bs).modRegion (s.thread g l) fun r => r.writes ⟨va, loc, n⟩
  if !s.reaches team loc n then t
  else
    match (orderingOf i).2 with
    | none => t.noteWrite g l loc n none []
    | some sc =>
      (t.noteWrite g l loc n (some (sc, know)) []).noteSync loc (s.syncsOf loc n)
        { time := s.clock, party := s.party g l, scope := sc, rmw := false, merges := false, size := n
          prev := leNat (s.readLoc loc n), rels := s.relsAt loc n }

/-- Whether the second access of a B128 store is left for later (R185), as a free value says: not under DET, nor in a shadow run, nor where the
store is to be `whole`. -/
def State.leaves (s : State) (g l team n : Nat) (whole : Bool) : Bool :=
  n == 16 && !whole && !(s.grid (s.group g).grid).pkt.det && (s.team team).shadow.isNone && (s.freeWord (2 ^ 57 + 4 * l)).getLsbD 0

/-- A store of a lane: one access, or two of 8 bytes for B128, of which the second may be left for later; with it the store's flag is then left
to count down (R185). -/
def State.storeParts (s : State) (i : Instr) (g l team va : Nat) (loc : Loc) (bs : List Byte) (know : Tab Nat) (whole : Bool)
    (lanes : List Nat) (flag : Option Nat) : State :=
  if !s.leaves g l team bs.length whole then s.storeAs i g l team va loc bs know
  else
    let a := if (s.freeWord (2 ^ 57 + 4 * l)).getLsbD 1 then 8 else 0
    let t := s.storeAs i g l team (va + a) (loc.add a) ((bs.drop a).take 8) know
    let b := 8 - a
    { t with
      nextId := t.nextId + 1
      resid := tabSet t.resid t.nextId
        { g := g, lane := l, lanes := lanes, flag := flag, ins := i, kind := .half (loc.add b) (va + b) ((bs.drop b).take 8), know := know } }

/-- Since when a read that a lane issues now may have been made: after its thread's last instruction and its last chain entry. -/
def State.readFloor (s : State) (g l : Nat) : Nat := max ((s.group g).lane l).stamp (s.ordOf (s.thread g l)).acted

/-- The bytes that a load of a lane reads: for B128 each half by itself, at any time after all that its thread did before (R185). -/
def State.loadParts (s : State) (g l team va : Nat) (loc : Loc) (n : Nat) : List Byte :=
  if n != 16 || (s.team team).shadow.isSome then s.loadBytes team va loc n
  else
    let part (k : Nat) : List Byte :=
      s.readSince (loc.add k) 8 (s.readFloor g l) (s.freeWord (2 ^ 59 + 2 * l + k / 8)).toNat
    part 0 ++ part 8

/-- Lanes have read a location: they acquire, by themselves or at a later fence, from the releases that the value read carries (R188);
`missed` is the write they have missed, if any. -/
def State.readAs (s : State) (i : Instr) (g : Nat) (ls : List Nat) (loc : Loc) (n : Nat) (rels : List Rel) (missed : Option AtomWrite) : State :=
  (ls.foldl (fun t l => (t.noteRead g l (orderingOf i).1 rels).modRegion (t.thread g l) fun r => r.reads loc n) s).noteReaders
    (gridKey (s.group g).grid :: ls.map (s.thread g)) loc n missed

/-! ### Regions that are not re-executable (R99) -/

/-- A piece that holds undefined values from now on; in a shadow run, its overlay. -/
def State.spoilPiece (s : State) (core team salt : Nat) (p : Piece) : State :=
  let bs := s.freeBytes salt p.len
  match (s.team team).shadow, p.loc with
  | some sh, .phys _ => s.overlayStore team p.va sh bs
  | _, loc => if s.reaches team loc p.len then s.writeLoc (dieOf core) loc bs else s

/-- Whether a register can take an undefined value: it is live, and owed no write. -/
def Group.spoils (x : Group) (l : Nat) (r : PReg) : Bool :=
  (x.pending l r).isNone && match r with | .v n => (tabGet (x.lane l).regs n).isSome | _ => true

/-- The registers and the memory that a region of a thread has written hold undefined values. -/
def State.spoilRegion (s : State) (g l core team : Nat) (r : Region) : State :=
  let t := (r.memWrote.zip (upto r.memWrote.length)).foldl (fun t e =>
    t.spoilPiece core team (2 ^ 60 + 2 ^ 40 * l + 2 ^ 16 * e.2) e.1) s
  t.modGroup g fun x => (r.regsWrote.zip (upto r.regsWrote.length)).foldl (fun x e =>
    if x.spoils l e.1 then x.writeReg l e.1 (s.freeWord (2 ^ 61 + 2 ^ 40 * l + e.2)) else x) x

/-- A thread's region ends; one that has been rolled back though it is not re-executable leaves undefined values. -/
def State.endRegion (s : State) (g l core team key : Nat) : State :=
  let r := s.region key
  let t := if r.back && r.broken then s.spoilRegion g l core team r else s
  { t with order := { t.order with regions := tabDel t.order.regions key } }

/-- A thread's region is rolled back: one that is not re-executable leaves undefined values now, and any shows in its re-execution what it
is. -/
def State.regionBack (s : State) (g l : Nat) : State :=
  let k := s.thread g l
  let r := s.region k
  if r.broken then (s.spoilRegion g l (coreOf g) (s.group g).team r).modRegion k fun r => { r with back := true }
  else s.modRegion k fun _ => { back := true }

/-- What an ATOM writes (Table 19.4), over `w` bits. -/
def atomNew (op : AtomOp) (w old b : Nat) : Nat :=
  match op with
  | .add => (old + b) % 2 ^ w
  | .min => if signedOf w b < signedOf w old then b else old
  | .max => if signedOf w old < signedOf w b then b else old
  | .umin => min old b
  | .umax => max old b
  | .and => (BitVec.ofNat 64 old &&& BitVec.ofNat 64 b).toNat
  | .or => (BitVec.ofNat 64 old ||| BitVec.ofNat 64 b).toNat
  | .xor => (BitVec.ofNat 64 old ^^^ BitVec.ofNat 64 b).toNat
  | .exch => b
  | .inc => if b ≤ old then 0 else old + 1
  | .dec => if old = 0 || b < old then b else old - 1
  | .fadd => (faddW (w32 old) (w32 b)).toNat

/-- The new value of an ATOM or CAS with its data words; none where nothing is written (R329). -/
def atomResult (i : Instr) (old : Nat) (ws : List Word) : Option Nat :=
  match i with
  | .atom op _ wide .. => some (if wide then atomNew op 64 old (opn64 ws 0) else atomNew op 32 old (opn ws 0).toNat)
  | .cas wide .. =>
    if wide then (if old = opn64 ws 0 then some (opn64 ws 2) else none)
    else if old = (opn ws 0).toNat then some (opn ws 1).toNat else none
  | _ => none

/-- Whether the host-range table declares a host address coherent (R184). -/
def State.coherentHost (s : State) (pa n : Nat) : Bool :=
  let h := pa - 0x4000000000000
  s.hostRanges.any fun r => decide (r.1 ≤ h) && decide (h + n ≤ r.1 + r.2.1) && r.2.2

/-- The agent that performs an atomic: the issuing die, the host for its memory outside the coherent ranges (R184), or the home of a peer's
line (R303). -/
def State.atomicAgent (s : State) (g : Nat) (loc : Loc) (n : Nat) : Nat :=
  match loc with
  | .phys pa => if (isHost pa && !s.coherentHost pa n) || isPeer pa then homeOf pa else dieOf (coreOf g)
  | .spad .. => dieOf (coreOf g)

/-- The scope of an ATOM or CAS. -/
def atomScope : Instr → Scope
  | .atom _ _ _ _ sc .. | .cas _ _ sc .. => sc
  | _ => .device

/-- Whether U takes an atomic (R179). -/
def mergesInU : Instr → Bool
  | .atom op nr _ _ sc .. =>
    nr && (op == .add || op == .and || op == .or || op == .xor || op == .min || op == .max || op == .umin || op == .umax) &&
      !(sc == .thread || sc == .group || sc == .core)
  | _ => false

/-- Bytes of a location that a load or an atomic reads. -/
def readBytes : Instr → Nat
  | .ld _ z .. | .lds z .. | .ldu z .. => z.bytes
  | i => atomBytes i

/-- Whether a read by lanes can miss a synchronising write: it is of an earlier step, nothing that happens-before the read knows it or a read
of it (R190), and it was made by another core, which shows it to its own first (R192), or, for an atomic that reads, by an atomic such that the
scope instance of one of the two does not contain the other's thread, unless U merges both (R193). -/
def State.misses (s : State) (g : Nat) (ls : List Nat) (i : Instr) (a : AtomWrite) : Bool :=
  let q := s.party g (ls.headD 0)
  decide (a.time < s.clock) &&
    (ls.all fun l => let seen := s.seenBy g l; !knows seen a.party.keys a.time && a.readers.all fun r => !knows seen [r.1] r.2) &&
    if isLoad i then a.party.core != q.core
    else a.rmw && !(scopeHolds (atomScope i) q a.party && scopeHolds a.scope a.party q) && !(a.merges && mergesInU i)

/-- The oldest write that a read by lanes misses, if it misses any, as a free value chooses among the last writes that it can miss. -/
def State.missed (s : State) (g : Nat) (ls : List Nat) (i : Instr) (loc : Loc) : Option AtomWrite :=
  if (s.team (s.group g).team).shadow.isSome then none
  else pick (s.freeWord (2 ^ 57 + 4 * ls.headD 0 + 2)).toNat ((s.syncsOf loc (readBytes i)).takeWhile (s.misses g ls i))

/-- The value that an atomic reads. -/
def State.atomOld (s : State) (g l : Nat) (i : Instr) (loc : Loc) : Nat :=
  match s.missed g [l] i loc with
  | some a => leNat (leBytes (atomBytes i) a.prev)
  | none => leNat (s.readLoc loc (atomBytes i))

/-- The releases that a read of a location meets, of the value before a write where it misses that. -/
def State.relsRead (s : State) (loc : Loc) (n : Nat) : Option AtomWrite → List Rel
  | some a => a.rels
  | none => s.relsAt loc n

/-- An atomic performs on the value it reads: the state, and the words of the old value. -/
def State.performAtomic (s : State) (g : Nat) (i : Instr) (loc : Loc) (ws : List Word) (old : Nat) : State × List Word :=
  let n := atomBytes i
  let agent := s.atomicAgent g loc n
  let t := s.touchLoc agent loc n
  let t := match atomResult i old ws with
    | some x => t.writeLoc agent loc (leBytes n x)
    | none => t
  (t, if n = 8 then pairWords old else [w32 old])

/-- An atomic of a lane performs, and takes its place among the reads and writes: it acquires, releases, and carries on the release
sequence of its location (R188). -/
def State.atomicAs (s : State) (g l : Nat) (i : Instr) (loc : Loc) (ws : List Word) (know : Tab Nat) : State × List Word :=
  let n := atomBytes i
  let rs := s.relsAt loc n
  let missed := s.missed g [l] i loc
  let old := s.atomOld g l i loc
  let p := s.performAtomic g i loc ws old
  let t := p.1.readAs i g [l] loc n (s.relsRead loc n missed) missed
  let know := joinTimes know (t.seenBy g l)
  if (atomResult i old ws).isSome then
    ((t.noteWrite g l loc n ((orderingOf i).2.map fun sc => (sc, know)) rs).noteSync loc
      (readWrites (gridKey (s.group g).grid :: [s.thread g l]) s.clock missed (s.syncsOf loc n))
      { time := s.clock, party := s.party g l, scope := atomScope i, merges := mergesInU i, size := n
        prev := leNat (s.readLoc loc n), rels := rs }, p.2)
  else (t, p.2)

/-! ### Loads -/

/-- What a load reads: the value before a write that it misses, or what `loadParts` gives. -/
def State.loadRead (s : State) (g l team va : Nat) (loc : Loc) (n : Nat) : Option AtomWrite → List Byte
  | some a => leBytes n a.prev
  | none => s.loadParts g l team va loc n

/-- One lane's load, which finds memory as it was at `s0`, the issue of its set: issued at once or captured behind the entries it waits for
(R109). -/
def State.loadLane (s : State) (s0 : State) (c : Cx) (i : Instr) (l : Nat) (lanes : List Nat) (va n : Nat) (loc : Loc) (after : List Nat)
    (dsts : List PReg) (ext : List Byte → List Word) : State :=
  let acq := match i with | .ld true .. => true | _ => false
  if after != [] then s.captureMem c i l lanes dsts { g := c.g, lane := l, ins := i, kind := .load after loc n va }
  else
    let missed := s0.missed c.g lanes i loc
    ((s.touchLoc (dieOf (coreOf c.g)) loc n).launch c i l lanes dsts
      { vals := ext (s0.loadRead c.g l c.x.team va loc n missed), va := va, isLoad := true, acq := acq
        pa := match loc with | .phys pa => some (pa, n) | _ => none }).readAs i c.g lanes loc n (s0.relsRead loc n missed) missed

/-- The TLB after an access of a lane, where it is to memory. -/
def State.fillFor (s : State) (c : Cx) (acc : Acc) (va : Nat) (loc : Loc) : State :=
  match loc with
  | .phys _ => s.fillTlb c.who acc va
  | .spad .. => s

/-- The loads of an issue set: checks in every lane, then one load per lane. -/
def State.loads (s : State) (c : Cx) (i : Instr) (z : Size) (d : VField) (va : Nat → Nat)
    (loc : Nat → Except (Cause × Nat) Loc) : Out State :=
  let n := z.bytes
  let after (l : Nat) : List Nat := match loc l with | .ok p => s.waitsFor c.g l p n | .error _ => []
  let meets (l : Nat) : Bool := match loc l with | .ok p => s.loadMeets c.g l p n | .error _ => false
  s.parking c (fun l => after l == [] && (State.dstOwed i c l || meets l)) fun c s =>
    s.checked c (fun l => firstOf [failOf (loc l), s.budgetCheck c l (after l != [])])
      (s.parking c (fun l => s.noRoom c l (after l != [])) fun c t =>
        .next ((c.ls.foldl (fun u l =>
          match loc l with
          | .ok p => (u.fillFor c .load (va l) p).loadLane t c i l [l] (va l) n p (after l)
              ((z.data d).filterMap (·.reg (c.x.lane l))) z.extend
          | .error _ => u) t).done c i))

/-- LD (R379). -/
def execLd (acq : Bool) (z : Size) (d a : VField) (b : BOp) (s : State) : Out State :=
  issue (.ld acq z d a b) s fun c t =>
    let va (l : Nat) : Nat := t.vaddr c l a b
    t.loads c (.ld acq z d a b) z d va fun l => t.place c.who .load (va l) z.bytes

/-- The scratchpad address of LDS and STS (R382). -/
def State.saddr (s : State) (c : Cx) (l : Nat) (a : VField) (b : BOp) : Nat :=
  (s.readOpd c.x l (.v a.toNat) + s.readOpd c.x l (b.v.headD (.imm 0))).toNat

/-- LDS (R382). -/
def execLds (z : Size) (d a : VField) (b : BOp) (s : State) : Out State :=
  issue (.lds z d a b) s fun c t =>
    let sa (l : Nat) : Nat := t.saddr c l a b
    t.loads c (.lds z d a b) z d sa fun l => t.spadAccess c (sa l) z.bytes

/-- The lanes for which the write owed to a uniform register is to be made: those of the LDU that owes it (R384). -/
def State.owers (s : State) (g t : Nat) : List Nat :=
  ((s.ops.filter fun e => e.2.g == g && e.2.dsts.any fun d => d.2 == t).flatMap fun e => e.2.lanes) ++
    (s.resid.filter fun e => e.2.g == g && e.2.dsts.any fun d => d.2 == t).flatMap fun e => e.2.lanes

/-- Whether a destination of an LDU is owed a write by an earlier LDU of a lane of the set (R107); one that another set's LDU owes does not
hold it back (R384, log 56). -/
def State.uniformOwed (s : State) (c : Cx) (z : Size) (d : SField) : Bool :=
  (upto z.words).any fun k =>
    match tabGet c.x.spend (d.toNat + k) with
    | some t => (s.owers c.g t).any fun l => c.ls.contains l
    | none => false

/-- LDU (R384): one load for the set, behind the youngest entry of each lane's chain that it waits for; captured, it takes an entry of the
residual budget of the lowest active lane alone (log 68). -/
def execLdu (z : Size) (d a : SField) (b : BOp) (s : State) : Out State :=
  issue (.ldu z d a b) s fun c t =>
    let va := (BitVec.ofNat 64 (t.readSPair c.x a) + (t.readOpd c.x c.l0 (b.s.headD (.imm 0))).signExtend 64).toNat
    let n := z.bytes
    match t.place c.who .load va n with
    | .error e => t.trapAll c e.1 e.2
    | .ok p =>
      let after := c.ls.flatMap fun l => t.waitsFor c.g l p n
      t.checked c (fun _ => t.budgetCheck c c.l0 (after != []))
        (t.parking c (fun _ => t.noRoom c c.l0 (after != []) || (after == [] && t.uniformOwed c z d) ||
            c.ls.any fun l => (t.behind c.g l p n).isNone && t.loadMeets c.g l p n) fun c t =>
          .next (((t.fillFor c .load va p).loadLane t c (.ldu z d a b) c.l0 c.ls va n p after
            ((upto z.words).map fun k => .s (d.toNat + k)) z.extend).done c (.ldu z d a b)))

/-! ### Stores -/

/-- Data words of a store or atomic. -/
def State.dataWords (s : State) (c : Cx) (i : Instr) (l : Nat) : List Word := (dataOf i).map (s.readOpd c.x l)

/-- Whether a lane's store or atomic joins the chain: data pending, or the chain not empty (R108). -/
def State.joins (s : State) (c : Cx) (i : Instr) (l : Nat) : Bool :=
  (dataOf i).any (c.x.isPending l) || s.chain c.g l != []

/-- One lane's store, performed at once or appended to the chain. -/
def State.storeLane (s : State) (c : Cx) (i : Instr) (l va n : Nat) (loc : Loc) (rel joins whole : Bool) : State :=
  if joins then
    s.captureMem c i l [l] []
      { g := c.g, lane := l, ins := i, kind := .store loc n va rel, srcs := (dataOf i).map (s.captureOpd c.x l) }
  else
    let flag := (c.x.lane l).flagOf i
    let t := s.storeParts i c.g l c.x.team va loc (wordsBytes n (s.dataWords c i l)) (s.seenBy c.g l) whole [l] flag
    if s.leaves c.g l c.x.team n whole then t.modGroup c.g fun x => x.incFlags [l] flag else t.counted c i l

/-- The stores of an issue set; lanes perform in ascending order, and none that meets another leaves a part for later (R423). -/
def State.stores (s : State) (c : Cx) (i : Instr) (n : Nat) (rel : Bool) (va : Nat → Nat)
    (loc : Nat → Except (Cause × Nat) Loc) : Out State :=
  let meets (l : Nat) (p : Loc) : Bool := c.ls.any fun k => k != l && match loc k with | .ok q => p.overlaps n q n | .error _ => false
  s.checked c (fun l => firstOf [failOf (loc l), s.budgetCheck c l (s.joins c i l)])
    (s.parking c (fun l => s.noRoom c l (s.joins c i l)) fun c t =>
      .next ((c.ls.foldl (fun u l =>
        match loc l with
        | .ok p => (u.fillFor c .store (va l) p).storeLane c i l (va l) n p rel (t.joins c i l) (n == 16 && meets l p)
        | .error _ => u) t).done c i))

/-- ST (R423). -/
def execSt (rel : Bool) (z : Size) (d a : VField) (b : BOp) (s : State) : Out State :=
  issue (.st rel z d a b) s fun c t =>
    let va (l : Nat) : Nat := t.vaddr c l a b
    t.stores c (.st rel z d a b) z.bytes rel va fun l => t.place c.who .store (va l) z.bytes

/-- STS (R425). -/
def execSts (z : Size) (d a : VField) (b : BOp) (s : State) : Out State :=
  issue (.sts z d a b) s fun c t =>
    let sa (l : Nat) : Nat := t.saddr c l a b
    t.stores c (.sts z d a b) z.bytes false sa fun l => t.spadAccess c (sa l) z.bytes

/-! ### Atomics -/

/-- Operations that a root port's AtomicOps cover, in no U form (R179, R184). -/
def nativeAtomic : Instr → Bool
  | .atom op nr w o sc d a b => op == .exch || (op == .add && !mergesInU (.atom op nr w o sc d a b))
  | .cas .. => true
  | _ => false

/-- Whether an atomic on a location can be performed (R184). -/
def State.hostAtomicOk (s : State) (i : Instr) (loc : Loc) : Bool :=
  match loc with
  | .phys pa =>
    !isHost pa || s.coherentHost pa (atomBytes i) || (nativeAtomic i && Config.rootAtomics) || Config.rootCas
  | .spad .. => true

/-- FADD at a scope wider than GROUP under DET (R316). -/
def detAtomic (i : Instr) (det : Bool) : Bool :=
  det && (match i with
    | .atom .fadd _ _ _ sc .. => !(sc == .thread || sc == .group)
    | _ => false)

/-- One lane's atomic: performed at once, its old value returned later, or appended to the chain. -/
def State.atomLane (s : State) (c : Cx) (i : Instr) (l va : Nat) (loc : Loc) (joins : Bool) : State :=
  let dsts := (operandsOf i).2.filterMap (·.reg (c.x.lane l))
  if joins then
    s.captureMem c i l [l] dsts
      { g := c.g, lane := l, ins := i, kind := .atomic loc va, srcs := (dataOf i).map (s.captureOpd c.x l) }
  else
    let r := s.atomicAs c.g l i loc (s.dataWords c i l) []
    if dsts = [] then r.1.counted c i l
    else
      r.1.launch c i l [l] dsts
        { vals := r.2, va := va, pa := match loc with | .phys pa => some (pa, atomBytes i) | _ => none }

/-- The atomics of an issue set, in ascending lane order (R315, R316). -/
def State.atomics (s : State) (c : Cx) (i : Instr) (a : VField) : Out State :=
  let va (l : Nat) : Nat := s.readPair c.x l a
  let loc (l : Nat) : Except (Cause × Nat) Loc := s.place c.who .atomic (va l) (atomBytes i)
  let hostOk (l : Nat) : Bool := match loc l with | .ok p => s.hostAtomicOk i p | .error _ => true
  s.parking c (fun l => !s.joins c i l && State.dstOwed i c l) fun c s =>
    s.checked c (fun l => firstOf [must (!detAtomic i c.gr.pkt.det) .determinism 0, failOf (loc l),
        must (hostOk l) .hostAtomic (va l), s.budgetCheck c l (s.joins c i l)])
      (s.parking c (fun l => s.noRoom c l (s.joins c i l)) fun c t =>
        .next (((c.ls.foldl (fun u l =>
          match loc l with
          | .ok p => (u.fillFor c .atomic (va l) p).atomLane c i l (va l) p (t.joins c i l)
          | .error _ => u) t).irrevIn c.g (c.ls.filter fun l => !t.joins c i l)).advance c (sizeOf' i)))

/-- ATOM (R315). -/
def execAtom (op : AtomOp) (nr wide : Bool) (o : Ord) (sc : Scope) (d a b : VField) (s : State) : Out State :=
  issue (.atom op nr wide o sc d a b) s fun c t => t.atomics c (.atom op nr wide o sc d a b) a

/-- CAS (R329). -/
def execCas (wide : Bool) (o : Ord) (sc : Scope) (d a b : VField) (s : State) : Out State :=
  issue (.cas wide o sc d a b) s fun c t => t.atomics c (.cas wide o sc d a b) a

/-! ### Fences -/

/-- A release fence of a lane performs; FENCE.FULL takes its place among all of them (R188, R191). -/
def State.fenceAs (s : State) (g l : Nat) (i : Instr) (know : Tab Nat) : State :=
  match i with
  | .fenceRel sc => s.fenceReleases g l sc know
  | .fenceFull sc => s.fenceFull g l sc
  | _ => s

/-- A release fence: appended to a chain that is not empty, else performed at once (R108, R363). -/
def State.releaseFence (s : State) (c : Cx) (i : Instr) (full : Bool) : Out State :=
  let joins (l : Nat) : Bool := s.chain c.g l != []
  s.checked c (fun l => s.budgetCheck c l (joins l))
    (s.parking c (fun l => s.noRoom c l (joins l)) fun c t =>
      .next ((c.ls.foldl (fun u l =>
        if joins l then u.captureMem c i l [l] [] { g := c.g, lane := l, ins := i, kind := .fence full }
        else u.fenceAs c.g l i (u.seenBy c.g l)) t).done c i))

/-- FENCE.ACQ (R363): it waits for every earlier load. -/
def execFenceAcq (sc : Scope) (s : State) : Out State :=
  issue (.fenceAcq sc) s fun c t => t.parking c (t.readsOut c.g) fun c t =>
    .next ((c.ls.foldl (fun u l => u.fenceAcquires c.g l sc) t).done c (.fenceAcq sc))

/-- FENCE.REL (R363). -/
def execFenceRel (sc : Scope) (s : State) : Out State :=
  issue (.fenceRel sc) s fun c t => t.releaseFence c (.fenceRel sc) false

/-- FENCE.FULL (R363). -/
def execFenceFull (sc : Scope) (s : State) : Out State :=
  issue (.fenceFull sc) s fun c t => t.parking c (t.loadsOut c.g) fun c t => t.releaseFence c (.fenceFull sc) true

/-- FENCE.ASYNC (R194, R363): it waits for the chain; later commands read what has been written until now. -/
def execFenceAsync (sc : Scope) (s : State) : Out State :=
  issue (.fenceAsync sc) s fun c t =>
    .next ((c.ls.foldl (fun u l => u.modOrd (u.thread c.g l) fun o => { o with async := some u.clock }) t).done c (.fenceAsync sc))

/-- The cores with an instruction cache that an ICINV reaches (R372). -/
def State.icinvCores (s : State) (c : Cx) (sc : Scope) : List Nat :=
  let here := coreOf c.g
  (s.cores.map (·.1)).filter fun k =>
    match sc with
    | .thread | .group | .core => k == here
    | .pair => k / 2 == here / 2
    | .team => (s.team c.x.team).cores.contains k
    | .die => dieOf k == dieOf here
    | .device | .host | .fabric => true

/-- ICINV (R372): once for the set; the cores' caches drop the context's words as it completes, and later releases wait for that. -/
def execIcinv (sc : Scope) (s : State) : Out State :=
  issue (.icinv sc) s fun c t =>
    .next ((t.countedOnce c (.icinv sc) { icinv := true, reach := t.icinvCores c sc, ctx := c.gr.ctx, grid := c.x.grid }).done c (.icinv sc))

/-! ### CCTL -/

/-- Whether a line has a byte in the physical pieces of a range; CCTL acts on whole 128-byte lines. -/
def inPieces (ps : List Piece) (line : Nat) : Bool :=
  ps.any fun p =>
    match p.loc with
    | .phys pa => decide (pa / 128 ≤ lineBase line / 128) && decide (lineBase line / 128 ≤ (pa + p.len - 1) / 128)
    | _ => false

/-- Lines of a range written back: their values are the home's now; `drop` also takes the dies' copies away, those of the host and of peers
standing (R331). -/
def State.writeBack (s : State) (ps : List Piece) (drop : Bool) : State :=
  let lease (e : Nat × Lease) : Option (Nat × Lease) :=
    if !inPieces ps e.1 then some e
    else
      let left := if drop then e.2.holders.filter fun h => 4 ≤ h.1 else e.2.holders
      if left = [] then none else some (e.1, ⟨left, []⟩)
  { s with leases := s.leases.filterMap lease }

/-- A range that CCTL acts on, page by page, or the failure of lowest rank among its pages (R203); a lost region fails no page (R332). -/
def State.cctlRun (s : State) (w : Who) (va n : Nat) : Except (Cause × Nat) (List Piece) :=
  ({ s with lost := [], ovf := [] } : State).xlateAll w .load va n

/-- The CCTL family (R331, R332). -/
def State.cctl (s : State) (c : Cx) (i : Instr) (a : VField) (b : BOp) (drop : Bool) : Out State :=
  let run (l : Nat) : Except (Cause × Nat) (List Piece) :=
    let n := (s.readOpd c.x l (b.v.headD (.imm 0))).toNat
    s.cctlRun c.who (s.readPair c.x l a) n
  s.checked c (fun l => failOf (run l))
    (.next ((c.ls.foldl (fun u l =>
      match run l with
      | .ok ps => (u.writeBack ps drop).counted c i l
      | .error _ => u) s).done c i))

/-- CCTL.WB (R331). -/
def execCctlWb (a : VField) (b : BOp) (s : State) : Out State :=
  issue (.cctlWb a b) s fun c t => t.cctl c (.cctlWb a b) a b false

/-- CCTL.INV (R331). -/
def execCctlInv (a : VField) (b : BOp) (s : State) : Out State :=
  issue (.cctlInv a b) s fun c t => t.cctl c (.cctlInv a b) a b true

/-- CCTL.WBINV (R331). -/
def execCctlWbinv (a : VField) (b : BOp) (s : State) : Out State :=
  issue (.cctlWbinv a b) s fun c t => t.cctl c (.cctlWbinv a b) a b true

end Sys2Proof.Machine
end

