-- ==== Sys2Proof/Machine/Engines.lean ====
section
/-!
DEFINITION. Stage rings (R175-R177, R410, R411), the copy engine (R244, R245, R333, R334, R343-R345) and the collectives
(R157, R338-R341).
-/

namespace Sys2Proof.Machine

/-! ### Stage rings (Table 7.9) -/

/-- A slot's state: 0 EMPTY, 1 PRODUCING, 2 PUBLISHED, 3 FULL, 4 CONSUMING, 5 RELEASED. -/
def Ring.state (r : Ring) (k : Nat) : Nat := tabGetD r.states k 0

/-- A slot's phase bit. -/
def Ring.phase (r : Ring) (k : Nat) : Bool := tabGetD r.phases k false

/-- A slot in another state. -/
def Ring.setState (r : Ring) (k v : Nat) : Ring := { r with states := tabSet r.states k v }

/-- The value of an acquired slot: its number and its phase bit. -/
def Ring.token (r : Ring) (k : Nat) : Word := w32 (k + if r.phase k then 256 else 0)

/-- SACQ.FREE; none while FREE is 0. -/
def Ring.acquireFree (r : Ring) : Option (Ring × Nat) :=
  if r.free = 0 then none
  else some ({ r.setState r.pi 1 with free := r.free - 1, pi := (r.pi + 1) % r.n }, r.pi)

/-- SACQ.FILLED; none while FILLED is 0. -/
def Ring.acquireFilled (r : Ring) : Option (Ring × Nat) :=
  if r.filled = 0 then none
  else some ({ r.setState r.ci 4 with filled := r.filled - 1, ci := (r.ci + 1) % r.n }, r.ci)

/-- While slot PC is PUBLISHED it becomes FULL. -/
def Ring.publishRun : Nat → Ring → Ring
  | 0, r => r
  | f + 1, r =>
    if r.state r.pc = 2 then
      publishRun f
        { r.setState r.pc 3 with phases := tabSet r.phases r.pc (!r.phase r.pc), filled := r.filled + 1, pc := (r.pc + 1) % r.n }
    else r

/-- While slot FC is RELEASED it becomes EMPTY. -/
def Ring.freeRun : Nat → Ring → Ring
  | 0, r => r
  | f + 1, r =>
    if r.state r.fc = 5 then freeRun f { r.setState r.fc 0 with free := r.free + 1, fc := (r.fc + 1) % r.n } else r

/-- SPUB of a slot; none where it is not PRODUCING. -/
def Ring.publish (r : Ring) (k : Nat) : Option Ring :=
  if k < r.n && r.state k == 1 then some ((r.setState k 2).publishRun r.n) else none

/-- SFREE of a slot; none where it is not CONSUMING. -/
def Ring.release (r : Ring) (k : Nat) : Option Ring :=
  if k < r.n && r.state k == 4 then some ((r.setState k 5).freeRun r.n) else none

/-- The slice of an issue set on its own core. -/
def State.ownSlice (s : State) (c : Cx) : Nat := (s.team c.x.team).cores.findIdx fun k => k == coreOf c.g

/-- A ring instance. -/
def State.ring? (s : State) (team slice id : Nat) : Option Ring := (s.slice? team slice).bind fun x => tabGet x.rings id

/-- A ring instance replaced. -/
def State.setRing (s : State) (team slice id : Nat) (r : Ring) : State :=
  s.modSlice team slice fun x => { x with rings := tabSet x.rings id r }

/-- SACQ: the set parks as a whole while the counter reads 0 (R410). -/
def State.sacq (s : State) (c : Cx) (i : Instr) (d : VField) (id : Nat) (acquire : Ring → Option (Ring × Nat)) : Out State :=
  let k := s.ownSlice c
  match s.ring? c.x.team k id with
  | none => s.trapAll c .order 0
  | some r =>
    match acquire r with
    | none => .next ((s.parkLanes c.g c.ls).count (coreOf c.g) c.gr.ctx 4 c.ls.length)
    | some (r', slot) =>
      let t := (s.setRing c.x.team k id r').modGroup c.g fun x => c.ls.foldl (fun x l => x.writeV l d [r.token slot]) x
      .next ((t.acquireAt c.g c.ls .core (ringSync c.x.team k id slot)).done c i)

/-- SACQ.FREE (R410). -/
def execSacqFree (d : VField) (ring : BitVec 4) (s : State) : Out State :=
  issue (.sacqFree d ring) s fun c t => t.sacq c (.sacqFree d ring) d ring.toNat Ring.acquireFree

/-- SACQ.FILLED (R410). -/
def execSacqFilled (d : VField) (ring : BitVec 4) (s : State) : Out State :=
  issue (.sacqFilled d ring) s fun c t => t.sacq c (.sacqFilled d ring) d ring.toNat Ring.acquireFilled

/-- SPUB and SFREE on the slot that the lowest lane names. -/
def State.sput (s : State) (c : Cx) (i : Instr) (a : VField) (id : Nat) (f : Ring → Nat → Option Ring) : Out State :=
  let k := s.ownSlice c
  let slot := (s.readOpd c.x c.l0 (.v a.toNat)).toNat % 64
  match (s.ring? c.x.team k id).bind fun r => f r slot with
  | none => s.trapAll c .order 0
  | some r => .next (((s.setRing c.x.team k id r).releaseAt c.g c.ls .core (ringSync c.x.team k id slot)).done c i)

/-- SPUB (R410). -/
def execSpub (a : VField) (ring : BitVec 4) (s : State) : Out State :=
  issue (.spub a ring) s fun c t => t.sput c (.spub a ring) a ring.toNat Ring.publish

/-- SFREE (R410). -/
def execSfree (a : VField) (ring : BitVec 4) (s : State) : Out State :=
  issue (.sfree a ring) s fun c t => t.sput c (.sfree a ring) a ring.toNat Ring.release

/-! ### Pieces -/

/-- A field of a record. -/
def fld (bs : List Byte) (ofs n : Nat) : Nat := leNat ((bs.drop ofs).take n)

/-- Whether bytes of a record are zero. -/
def zeros (bs : List Byte) (ofs n : Nat) : Bool := ((bs.drop ofs).take n).all (· == 0)

/-- A list cut into parts of one size. -/
def parts {α : Type} (n : Nat) : Nat → List α → List (List α)
  | 0, _ => []
  | k + 1, l => l.take n :: parts n k (l.drop n)

/-- Whether a place is in a lost region. -/
def State.lostLoc (s : State) (l : Loc) (n : Nat) : Bool :=
  match l with
  | .phys pa => s.lostAt pa n
  | .spad .. => false

/-- The bytes of pieces; those of a region lost since issue are undefined (R182). -/
def State.readPieces (s : State) (ps : List Piece) : List Byte :=
  ps.flatMap fun p => if s.lostLoc p.loc p.len then s.freeBytes (2 ^ 53 + p.va) p.len else s.readLoc p.loc p.len

/-- Bytes written to pieces, in order; those of a lost region are discarded (R182). -/
def State.writePieces (s : State) (agent : Nat) : List Piece → List Byte → State
  | [], _ => s
  | p :: r, bs =>
    (if s.lostLoc p.loc p.len then s else s.writeLoc agent p.loc (bs.take p.len)).writePieces agent r (bs.drop p.len)

/-- Pieces read by an agent. -/
def State.touchPieces (s : State) (agent : Nat) (ps : List Piece) : State :=
  ps.foldl (fun t p => t.touchLoc agent p.loc p.len) s

/-- The places of the single bytes of pieces. -/
def bytePlaces (ps : List Piece) : List Loc := ps.flatMap fun p => (upto p.len).map p.loc.add

/-- Whether any of `n` bytes at a place is among some pieces. -/
def hitsPieces (ps : List Piece) (l : Loc) (n : Nat) : Bool := ps.any fun p => p.loc.overlaps p.len l n

/-- Runs of virtual addresses translated, or the failure of lowest rank. -/
def State.xlateRuns (s : State) (w : Who) (acc : Acc) (runs : List (Nat × Nat)) : Except (Cause × Nat) (List Piece) :=
  runs.foldr (fun r e => joinPieces (s.xlateAll w acc r.1 r.2) e) (.ok [])

/-- The TLB after accesses to pieces. -/
def State.fillPieces (s : State) (w : Who) (acc : Acc) (ps : List Piece) : State :=
  ps.foldl (fun t p =>
    match p.loc with
    | .phys _ => t.fillTlb w acc p.va
    | .spad .. => t) s

/-! ### Commands of the copy engine -/

/-- The later of two moments. -/
def laterOf (a b : Option Nat) : Option Nat :=
  match a, b with
  | some x, some y => some (max x y)
  | some x, none => some x
  | none, y => y

/-- The owner of a command that an issue set issues. -/
def State.ownerOf (s : State) (c : Cx) (i : Instr) : Owner :=
  { g := c.g, uid := c.x.uid, lanes := c.ls, flag := c.y0.flagOf i, team := c.x.team, threads := c.ls.map (s.thread c.g)
    async := (c.ls.map fun l => (s.ordOf (s.thread c.g l)).async).foldl laterOf (some c.gr.accepted) }

/-- A command of an owner issued: its flag is incremented once in every active lane. -/
def State.commanded (s : State) (c : Cx) (i : Instr) : State :=
  ((c.ls.foldl (fun t l => t.noteCommand c.g l (c.y0.flagOf i)) s).modGroup c.g fun x => x.incFlags c.ls (c.y0.flagOf i)).done c i

/-- The completion of a command at its owner. -/
def State.ownerDone (s : State) (o : Owner) : State :=
  s.modGroup o.g fun x =>
    if x.uid = o.uid then { x with lanes := o.lanes.foldl (fun t l => tabMod t l fun y => y.decFlag o.flag) x.lanes } else x

/-- The aligned 4-byte word that a place lies in, by its first byte. -/
def Loc.word4 : Loc → Loc
  | .phys pa => .phys (pa - pa % 4)
  | .spad t i ofs => .spad t i (ofs - ofs % 4)

/-- The bytes that an engine reads for a command: an aligned 4-byte word that has been written since the thread's last FENCE.ASYNC or release,
or since its grid was accepted, may be seen as before any of those writes, each word as a free value chooses (R194). -/
def State.engineBytes (s : State) (since : Option Nat) (ps : List Piece) : List Byte :=
  let bs := s.readPieces ps
  let floor := since.getD 0
  let places := bytePlaces ps
  if places.all fun l => (s.moments l 1 floor).isEmpty then bs
  else
    (bs.zip places).map fun p =>
      let w := p.2.word4
      let salt := match w with | .phys pa => 2 * pa | .spad _ i ofs => 2 * (i * 2 ^ 23 + ofs) + 1
      match pick (s.freeWord (2 ^ 61 + salt)).toNat (s.moments w 4 floor) with
      | none => p.1
      | some t => undone t p.1 (s.pastOf p.2)

/-- The record of a command that an issue set issues: its alignment, its translation, its bytes, as the engine reads them (R194). -/
def State.readRecord (s : State) (c : Cx) (i : Instr) (a n : Nat) : Except (Cause × Nat) (List Byte) :=
  if a % 64 != 0 then .error (.misaligned, a)
  else
    match s.xlateAll c.who .load a n with
    | .error e => .error e
    | .ok ps => .ok (s.engineBytes (s.ownerOf c i).async ps)

/-- A command joins the copy engine's queue, its record having been read, or the set stalls while the queue is full (R334). -/
def State.joinCopy (s : State) (c : Cx) (i : Instr) (w : CopyWork) (rec : Nat × Nat) (reads writes : List Piece) : Out State :=
  let core := coreOf c.g
  if Config.copyQueue ≤ (s.core core).copyq.length then .next (s.stall c)
  else
    let t := (((s.touchVa c.who rec.1 rec.2).fillPieces c.who .load reads).fillPieces c.who .store writes)
    let cmd : CopyCmd := ⟨s.nextId, s.ownerOf c i, w⟩
    let t := { t with nextId := t.nextId + 1 }.modCore core fun k => { k with copyq := k.copyq ++ [cmd] }
    .next (t.commanded c i)

/-! ### CPY -/

/-- The starts of a copy's rows. -/
def rowStarts (base stride rows : Nat) : List Nat := (upto rows).map fun r => (base + r * stride) % 2 ^ 64

/-- A scratchpad row of a copy (R168). -/
def State.spadRow (s : State) (c : Cx) (a n : Nat) : Except (Cause × Nat) (List Piece) :=
  if 2 ^ 32 ≤ a then .error (.permission, a)
  else
    match s.spadPlace c a n with
    | .error e => .error e
    | .ok p => .ok [⟨a, p, n⟩]

/-- One side of a copy. -/
def State.copySide (s : State) (c : Cx) (acc : Acc) (spad : Bool) (base stride rows n : Nat) :
    Except (Cause × Nat) (List Piece) :=
  if spad then
    (rowStarts (base % 2 ^ 32) stride rows).foldr (fun a e => joinPieces (s.spadRow c a n) e) (.ok [])
  else s.xlateRuns c.who acc ((rowStarts base stride rows).map fun a => (a, n))

/-- Whether the fields of a copy record lie within Table 19.13 and its ring, if any, can take the copy (R345). -/
def copyOk (r : List Byte) (ring : Option Ring) : Bool :=
  let ctl := fld r 0x28 1
  let useRing := bitAt ctl 2
  1 ≤ fld r 0x10 4 && fld r 0x10 4 ≤ 16777216 && 1 ≤ fld r 0x14 4 && fld r 0x14 4 ≤ 65535 && ctl < 8 &&
    zeros r 0x2A 22 && (useRing || zeros r 0x29 1) &&
    (!useRing || (zeros r 8 8 &&
      match ring with
      | some g => decide (fld r 0x14 4 * fld r 0x10 4 ≤ g.size)
      | none => false))

/-- Both sides of a copy; a size of 0 names no bytes. -/
def State.copySides (s : State) (c : Cx) (r : List Byte) : Except (Cause × Nat) (List Piece × List Piece) :=
  let ctl := fld r 0x28 1
  let n := fld r 0x10 4
  let rows := fld r 0x14 4
  if n = 0 || rows = 0 then .ok ([], [])
  else
    let src := s.copySide c .load (bitAt ctl 0) (fld r 0 8) (fld r 0x18 8) rows n
    let dst := if bitAt ctl 2 then .ok [] else s.copySide c .store (bitAt ctl 1) (fld r 8 8) (fld r 0x20 8) rows n
    match src, dst with
    | .ok a, .ok b => .ok (a, b)
    | .error e, .error f => .error (worse e f)
    | .error e, .ok _ => .error e
    | .ok _, .error f => .error f

/-- CPY (R343, R345). -/
def execCpy (a : SField) (s : State) : Out State :=
  issue (.cpy a) s fun c t =>
    match t.readRecord c (.cpy a) (t.readSPair c.x a) 64 with
    | .error e => t.trapAll c e.1 e.2
    | .ok r =>
      match t.copySides c r with
      | .error e => t.trapAll c e.1 e.2
      | .ok (src, dst) =>
        let id := fld r 0x29 1
        let ring := if bitAt (fld r 0x28 1) 2 then some id else none
        if copyOk r (t.ring? c.x.team (t.ownSlice c) id) then t.joinCopy c (.cpy a) (.copy src dst ring) (t.readSPair c.x a, 64) src dst
        else t.trapAll c .order 0

/-- Copied bytes: those whose destination is a source byte too are undefined (R344). -/
def State.copied (s : State) (since : Option Nat) (src dst : List Piece) : List Byte :=
  let bs := s.engineBytes since src
  if dst.all fun p => !hitsPieces src p.loc p.len then bs
  else
    (bs.zip ((bytePlaces dst).zip (upto bs.length))).map fun p =>
      if hitsPieces src p.2.1 1 then (s.freeWord (2 ^ 54 + p.2.2)).setWidth 8 else p.1

/-- A copy performs; into a ring it acquires a slot first and publishes it last. None while no slot is free. -/
def State.performCopy (s : State) (core : Nat) (o : Owner) (src dst : List Piece) (ring : Option Nat) : Option State :=
  let agent := dieOf core
  match ring with
  | none => some (((s.touchPieces agent src).writePieces agent dst (s.copied o.async src dst)).engineWrote dst o.writers)
  | some id =>
    let k := (s.team o.team).cores.findIdx fun x => x == core
    match s.ring? o.team k id with
    | none => none
    | some r =>
      match r.acquireFree with
      | none => none
      | some (r', slot) =>
        let n := (src.map (·.len)).foldl (· + ·) 0
        let dst : List Piece := [⟨0, .spad o.team k (r.ofs + slot * r.size), n⟩]
        let t := ((s.touchPieces agent src).writePieces agent dst (s.copied o.async src dst)).engineWrote dst o.writers
        let rel : Rel := ⟨{ thread := 0, team := o.team, core := core }, .core, o.writers.map fun w => (w, s.clock)⟩
        some ((t.setRing o.team k id ((r'.publish slot).getD r')).publish (ringSync o.team k id slot) [rel])

/-! ### CHAIN -/

/-- Bytes of an element of SFMT or DFMT (Table 12.7). -/
def elemBytes (fmt : Nat) : Nat := if fmt = 0 ∨ fmt = 3 then 4 else if fmt ≤ 2 then 2 else 1

/-- The value of an element of a format: FP32, BF16, FP16, INT32. -/
def elemVal (fmt x : Nat) : Val :=
  match fmt with
  | 0 => fp32.decode x
  | 1 => bf16.decode x
  | 2 => fp16.decode x
  | _ => .ofInt (signedOf 32 x)

/-- `Round(fmt, RNE, v)` for FP32, BF16, FP16, INT32, FP8E4 and FP8E5. -/
def elemRound (fmt : Nat) (v : Val) : Nat :=
  match fmt with
  | 0 => fp32.round .rne v
  | 1 => bf16.round .rne v
  | 2 => fp16.round .rne v
  | 3 => wrap 32 (roundClamp .rne (-2147483648) 2147483647 v)
  | 4 => fp8e4.round .rne v
  | _ => fp8e5.round .rne v

/-- One step of R245. -/
def chainStep (op : Nat) (c x y : Word) : Word :=
  match op with
  | 0 => faddW x c
  | 1 => fmulW x c
  | 2 => faddW x y
  | 3 => fmulW x y
  | 4 => numOf fmaxW x c
  | 5 => numOf fminW x c
  | 6 => fexp2W x
  | 7 => frcpW x
  | 8 => frsqW x
  | 9 => ftanhW x
  | 10 => toFp .rne (asFp (x &&& 0x7FFFFFFF))
  | _ => toFp .rne (((asFp x).mul (asFp c)).add .rne (asFp y))

/-- An element of a CHAIN: its steps in order, then the result in DFMT. -/
def chainElem (r : List Byte) (x y : Nat) : Nat :=
  let sf := fld r 0x1C 1
  let conv (v : Nat) : Word := toFp .rne (elemVal sf v)
  let z := (upto (fld r 0x1E 1)).foldl (fun w n =>
    chainStep (fld r (0x20 + 8 * n) 1) (w32 (fld r (0x24 + 8 * n) 4)) w (conv y)) (conv x)
  elemRound (fld r 0x1D 1) (asFp z)

/-- Whether a step needs SRC2. -/
def needsSrc2 (op : Nat) : Bool := op == 2 || op == 3 || op == 11

/-- Whether the fields of a CHAIN record lie within Table 12.7 (R244, R245). -/
def chainOk (r : List Byte) : Bool :=
  let n := fld r 0x1E 1
  1 ≤ fld r 0x18 4 && fld r 0x18 4 ≤ 2 ^ 28 && fld r 0x1C 1 ≤ 3 && fld r 0x1D 1 ≤ 5 && 1 ≤ n && n ≤ 8 && zeros r 0x1F 1 &&
    zeros r 0x60 32 &&
    (upto 8).all fun k =>
      if k < n then
        fld r (0x20 + 8 * k) 1 ≤ 11 && zeros r (0x21 + 8 * k) 3 && (!needsSrc2 (fld r (0x20 + 8 * k) 1) || !zeros r 8 8)
      else zeros r (0x20 + 8 * k) 8

/-- A run of elements of a CHAIN or COLL record: its alignment, and its translation. -/
def State.elemRun (s : State) (w : Who) (acc : Acc) (va n e : Nat) : Except (Cause × Nat) (List Piece) :=
  if va % e != 0 then .error (.misaligned, va) else s.xlateAll w acc va (n * e)

/-- The pieces of SRC, SRC2 and DST, the failure of lowest rank (R203); a format outside the table names no bytes. -/
def State.chainSides (s : State) (w : Who) (r : List Byte) : Except (Cause × Nat) (List Piece × List Piece × List Piece) :=
  let n := fld r 0x18 4
  let sf := fld r 0x1C 1
  let df := fld r 0x1D 1
  let a := if 3 < sf then .ok [] else s.elemRun w .load (fld r 0 8) n (elemBytes sf)
  let b := if 3 < sf || zeros r 8 8 then .ok [] else s.elemRun w .load (fld r 8 8) n (elemBytes sf)
  let d := if 5 < df then .ok [] else s.elemRun w .store (fld r 0x10 8) n (elemBytes df)
  match joinPieces a (joinPieces b d), a, b, d with
  | _, .ok a, .ok b, .ok d => .ok (a, b, d)
  | .error e, _, _, _ => .error e
  | _, _, _, _ => .ok ([], [], [])

/-- CHAIN (R333, R244). -/
def execChain (a : SField) (s : State) : Out State :=
  issue (.chain a) s fun c t =>
    match t.readRecord c (.chain a) (t.readSPair c.x a) 128 with
    | .error e => t.trapAll c e.1 e.2
    | .ok r =>
      match t.chainSides c.who r with
      | .error e => t.trapAll c e.1 e.2
      | .ok (src, src2, dst) =>
        if chainOk r then t.joinCopy c (.chain a) (.chain r src src2 dst) (t.readSPair c.x a, 128) (src ++ src2) dst else t.trapAll c .order 0

/-- The places of elements. -/
def elemPlaces (ps : List Piece) (e : Nat) : List Loc :=
  ((bytePlaces ps).zip (upto ((ps.map (·.len)).foldl (· + ·) 0))).filterMap fun p => if p.2 % e = 0 then some p.1 else none

/-- A CHAIN performs (R245): an element that overlaps a source, other than one equal to DST, is undefined. -/
def State.performChain (s : State) (core : Nat) (since : Option Nat) (r : List Byte) (src src2 dst : List Piece) : State :=
  let agent := dieOf core
  let n := fld r 0x18 4
  let es := elemBytes (fld r 0x1C 1)
  let ed := elemBytes (fld r 0x1D 1)
  let xs := (parts es n (s.engineBytes since src)).map leNat
  let ys := if zeros r 8 8 then List.replicate n 0 else (parts es n (s.engineBytes since src2)).map leNat
  let other := (if fld r 0 8 = fld r 0x10 8 then [] else src) ++ (if fld r 8 8 = fld r 0x10 8 then [] else src2)
  let out := ((xs.zip ys).zip ((elemPlaces dst ed).zip (upto n))).flatMap fun p =>
    if hitsPieces other p.2.1 ed then s.freeBytes (2 ^ 55 + 8 * p.2.2) ed else leBytes ed (chainElem r p.1.1 p.1.2)
  ((s.touchPieces agent (src ++ src2)).writePieces agent dst out)

/-! ### Collectives -/

/-- Whether the fields of a collective record lie within Table 19.11, SRC, DST and PEERS aligned among them. -/
def collOk (r : List Byte) : Bool :=
  let op := fld r 0 1
  let n := fld r 4 2
  let e := elemBytes (fld r 2 1)
  op ≤ 3 && (if op ≤ 1 then fld r 1 1 ≤ 2 else fld r 1 1 == 0) && fld r 2 1 ≤ 3 && zeros r 3 1 && 1 ≤ n && n ≤ 1024 &&
    fld r 6 2 < n && 1 ≤ fld r 0x18 8 && fld r 0x18 8 ≤ 2 ^ 32 && fld r 0x2C 2 < n && zeros r 0x2E 18 &&
    fld r 8 8 % e == 0 && fld r 0x10 8 % e == 0 && fld r 0x20 8 % 2 == 0

/-- PEERS, SRC and DST of a record, translated; an OP or a format outside the table names no bytes of SRC and DST. -/
def State.collSides (s : State) (w : Who) (r : List Byte) : Except (Cause × Nat) (List Piece × List Piece × List Piece) :=
  let op := fld r 0 1
  let n := fld r 4 2
  let k := fld r 0x18 8
  let named := op ≤ 3 && fld r 2 1 ≤ 3
  let e := elemBytes (fld r 2 1)
  let p := s.xlateAll w .load (fld r 0x20 8) (2 * n)
  let a := if named then s.xlateAll w .load (fld r 8 8) ((if op = 1 then n * k else k) * e) else .ok []
  let d := if named then s.xlateAll w .store (fld r 0x10 8) ((if op = 2 then n * k else k) * e) else .ok []
  match joinPieces p (joinPieces a d), p, a, d with
  | _, .ok p, .ok a, .ok d => .ok (p, a, d)
  | .error e, _, _, _ => .error e
  | _, _, _, _ => .ok ([], [], [])

/-- A collective that an issue set issues. -/
def State.collOf (s : State) (c : Cx) (a : SField) (r : List Byte) (peers src dst : List Piece) : Coll :=
  let o := s.ownerOf c (.coll a)
  ⟨coreOf c.g, some o, none, r, s.engineBytes o.async peers, src, dst, o.async⟩

/-- COLL (R338, R341): a device takes up to 256 commands. -/
def execColl (a : SField) (s : State) : Out State :=
  issue (.coll a) s fun c t =>
    match t.readRecord c (.coll a) (t.readSPair c.x a) 64 with
    | .error e => t.trapAll c e.1 e.2
    | .ok r =>
      match t.collSides c.who r with
      | .error e => t.trapAll c e.1 e.2
      | .ok (peers, src, dst) =>
        if !collOk r then t.trapAll c .order 0
        else if 256 ≤ t.colls.length then .next (t.stall c)
        else
          let u := (t.touchVa c.who (t.readSPair c.x a) 64).touchPieces (dieOf (coreOf c.g)) peers
          let u := (u.fillPieces c.who .load (peers ++ src)).fillPieces c.who .store dst
          let u := { u with
            nextId := u.nextId + 1
            colls := tabSet u.colls u.nextId (t.collOf c a r peers src dst) }
          .next (u.commanded c (.coll a))

/-- Phase 1 and phase 2 of R157 over one block: the contributions of each rank. -/
def sumBlock (fmt : Nat) (ranks : List (List Val)) (n : Nat) : List Nat :=
  match maxExp ranks.flatten with
  | none =>
    (upto n).map fun k =>
      let vs := ranks.map fun r => r.getD k (.fin false 0 0)
      elemRound fmt (if vs.any (·.isNan) || (vs.contains (.inf false) && vs.contains (.inf true)) then .nan
        else (vs.find? fun v => v == .inf false || v == .inf true).getD (.fin false 0 0))
  | some e =>
    let q := e - 100
    (upto n).map fun k =>
      let vs := ranks.map fun r => r.getD k (.fin false 0 0)
      let total : Int := (vs.map fun v => match v with | .fin s m e => floorTo s m e q | _ => 0).foldl (· + ·) 0
      elemRound fmt (if vs.any (·.isNan) || (vs.contains (.inf false) && vs.contains (.inf true)) then .nan
        else (vs.find? fun v => v == .inf false || v == .inf true).getD (.scaled total q))

/-- MAX or MIN of two elements (R339). -/
def redPair (fmt red a b : Nat) : Nat :=
  if fmt = 3 then
    if red = 1 then (if signedOf 32 a < signedOf 32 b then b else a) else if signedOf 32 b < signedOf 32 a then b else a
  else
    let x := toFp .rne (elemVal fmt a)
    let y := toFp .rne (elemVal fmt b)
    elemRound fmt (asFp (if red = 1 then fmaxW x y else fminW x y))

/-- Red over every rank's elements, in blocks of 256. -/
def redAll (fmt red : Nat) (ranks : List (List Nat)) (n : Nat) : List Nat :=
  if red = 0 && fmt != 3 then
    (upto ((n + 255) / 256)).flatMap fun b =>
      sumBlock fmt (ranks.map fun r => ((r.drop (256 * b)).take 256).map (elemVal fmt)) (min 256 (n - 256 * b))
  else
    let f (a b : Nat) : Nat := if red = 0 then (a + b) % 2 ^ 32 else redPair fmt red a b
    (upto n).map fun k =>
      let one (x : Nat) : Nat := if fmt = 3 then x else elemRound fmt (elemVal fmt x)
      match ranks.map fun r => one (r.getD k 0) with
      | [] => 0
      | x :: r => r.foldl f x

/-- DST elements of a rank (R339), from every rank's SRC elements. -/
def collResult (r : List Byte) (srcs : List (List Nat)) : List Nat :=
  let k := fld r 0x18 8
  let red := redAll (fld r 2 1) (fld r 1 1)
  match fld r 0 1 with
  | 0 => red (srcs.map (·.take k)) k
  | 1 => red (srcs.map fun x => (x.drop (fld r 6 2 * k)).take k) k
  | 2 => srcs.flatMap (·.take k)
  | _ => (srcs.getD (fld r 0x2C 2) []).take k

/-- Whether another rank's command agrees with this one's (R340): OP, RED, FMT, N, COUNT, ROOT and the PEERS contents. -/
def collAgree (r peers : List Byte) (rank : Nat) (other : List Byte) : Bool :=
  other.take 3 == r.take 3 && fld other 4 2 == fld r 4 2 && fld other 6 2 == rank && fld other 0x18 8 == fld r 0x18 8 &&
    fld other 0x2C 2 == fld r 0x2C 2 && (other.drop 64).take peers.length == peers

end Sys2Proof.Machine
end

