-- ==== Sys2Proof/Machine/Teams.lean ====
section
/-!
DEFINITION. What the ends of threads bring about: rejoin barriers (R48, R49), regroup steps (R53-R55), team flush points (R61), the end
of groups and teams (R36, R208, R212), and the completion of grids (R62).
-/

namespace Sys2Proof.Machine

/-! ### Rejoin barriers -/

/-- E of a barrier. -/
def Group.enrolled (x : Group) (k : Nat) : BitVec 32 := tabGetD x.barE k 0
/-- A of a barrier. -/
def Group.arrived (x : Group) (k : Nat) : BitVec 32 := tabGetD x.barA k 0

/-- A group with both masks of a barrier replaced. -/
def Group.setBar (x : Group) (k : Nat) (e a : BitVec 32) : Group :=
  { x with barE := tabSet x.barE k e, barA := tabSet x.barA k a }

/-- Whether CheckRelease releases a barrier. -/
def Group.releases (x : Group) (k : Nat) : Bool := x.enrolled k != 0 && (x.enrolled k &&& ~~~x.arrived k) == 0

/-- A number for the word a lane waits at, among the lanes of a list. -/
def Group.place (x : Group) (ls : List Nat) (l : Nat) : Nat := ls.findIdx fun k => (x.lane k).pc == (x.lane l).pc

/-- CheckRelease (R48): the lanes that waited at one JOIN continue as one issue set. Identities from `id` on are used. -/
def Group.checkRelease (x : Group) (k id clock : Nat) : Group × List Nat :=
  if x.releases k then
    let w := lanesOf (x.arrived k)
    let ls := w.foldl (fun t l => tabMod t l fun y => { y.advance 1 with set := id + x.place w l, stamp := clock }) x.lanes
    ({ x.setBar k 0 0 with lanes := ls }, w)
  else (x, [])

/-- LEAVE of a barrier by lanes. -/
def Group.leaveBar (x : Group) (k : Nat) (m : BitVec 32) : Group :=
  x.setBar k (x.enrolled k &&& ~~~m) (x.arrived k &&& ~~~m)

/-- LEAVE of every barrier that a lane is enrolled in, in ascending order, each followed by CheckRelease (R49). -/
def Group.leaveAll (x : Group) (l id clock : Nat) : Group × List Nat :=
  (upto 8).foldl (fun (p : Group × List Nat) k =>
    if (p.1.enrolled k).getLsbD l then
      let q := (p.1.leaveBar k (maskOf [l])).checkRelease k (id + 32 * k) clock
      (q.1, p.2 ++ q.2)
    else p) (x, [])

/-! ### Regroup steps -/

/-- Insertion by key, stable. -/
def insertBy {α : Type} (key : α → Nat) (a : α) : List α → List α
  | [] => [a]
  | b :: r => if key a ≤ key b then a :: b :: r else b :: insertBy key a r

/-- A stable sort. -/
def sortBy {α : Type} (key : α → Nat) (l : List α) : List α := l.foldr (insertBy key) []

/-- Whether a group regroups with a team: it is the team's, or both are bin groups of one grid (R53). -/
def State.regroupsWith (s : State) (team : Nat) (x : Group) : Bool :=
  x.team == team || ((s.team team).dynamic && (s.team x.team).dynamic && x.grid == (s.team team).grid)

/-- The place of a group in R54's order of group indices; of bin groups, which all have index 0, the parent team's identifier and the
launch or pack number say it (log 57). -/
def State.regroupRank (s : State) (x : Group) : Nat :=
  match (s.team x.team).parent with
  | some p => (s.team p).tid * 2 ^ 64 + x.gidx
  | none => x.gidx

/-- The V groups that regroup with a team on a core, in order. -/
def State.vgroups (s : State) (team core : Nat) : List Nat :=
  (sortBy (fun e : Nat × Group => s.regroupRank e.2)
    (s.groups.filter fun e => s.regroupsWith team e.2 && coreOf e.1 == core && e.2.role == 0)).map (·.1)

/-- Whether every unfinished V-role thread of a team on a core stands, and there is one (R53). -/
def State.allStand (s : State) (team core : Nat) : Bool :=
  let ts := (s.vgroups team core).flatMap fun g => (s.group g).live.map fun l => ((s.group g).lane l).park
  ts != [] && ts.all (· == .stand)

/-- The moves of one lane number: from group slot, to group slot (R54). -/
def State.regroupMoves (s : State) (gs : List Nat) (l : Nat) : List (Nat × Nat) :=
  let stands (g : Nat) : Bool := !((s.group g).lane l).fin && ((s.group g).lane l).park == .stand
  let from' := sortBy (fun g => ((s.group g).lane l).pc.toNat) (gs.filter stands)
  let free := gs.filter fun g => ((s.group g).lane l).fin || stands g
  from'.zip free

/-- The uniform registers that a group keeps after it has received a thread: s0:s1, the argument address (R55). -/
def Group.argsOnly (x : Group) (args : DWord) : Group :=
  { x with sregs := [(0, args.setWidth 32), (1, (args >>> 32).setWidth 32)], sresident := [0, 1] }

/-- A group after a regroup step: its slots of the moves, refilled; under DET its running set is chosen anew, the set of its lowest lane
that can issue (log 57). -/
def State.regrouped (s : State) (gs : List Nat) (g : Nat) (args : DWord) : Group :=
  let x := s.group g
  let lanes := (upto 32).foldl (fun t l =>
    match (s.regroupMoves gs l).find? fun m => m.2 == g with
    | some m => tabSet t l { (s.group m.1).lane l with park := .none, stamp := s.clock }
    | none => if !(x.lane l).fin && (x.lane l).park == .stand then tabDel t l else t) x.lanes
  let moved := (upto 32).any fun l => (s.regroupMoves gs l).any fun m => m.2 == g && m.1 != g
  let x := { x with lanes := lanes, running := if (s.grid x.grid).pkt.det then 0 else x.running }
  if moved then x.argsOnly args else x

/-- Whether an access is to write uniform registers, which stay with their group. -/
def MemOp.toUniform (o : MemOp) : Bool := o.dsts.any fun d => match d.1 with | .s _ => true | _ => false

/-- An access after a regroup step: what stays with its group, and what follows each thread that has moved (R55). -/
def State.splitOp (s : State) (gs : List Nat) (o : MemOp) : List MemOp :=
  let moved (l : Nat) : Option Nat :=
    if (s.group o.g).uid = o.uid then ((s.regroupMoves gs l).find? fun m => m.1 == o.g && m.2 != o.g).map (·.2) else none
  let stay := o.lanes.filter fun l => (moved l).isNone
  let ofLane (l : Nat) : List (PReg × Nat) := if l = o.lane && !o.toUniform then o.dsts else []
  let goes := o.lanes.filterMap fun l => (moved l).map fun g =>
    { o with
      g := g, uid := (s.group g).uid, lane := l, lanes := [l], dsts := ofLane l
      vals := if ofLane l = [] then [] else o.vals, awaits := if ofLane l = [] then none else o.awaits }
  if goes = [] then [o]
  else if stay = [] && !o.toUniform then goes
  else
    { o with
      lanes := stay, dsts := if o.toUniform || stay.contains o.lane then o.dsts else []
      vals := if o.toUniform || stay.contains o.lane then o.vals else [] } :: goes

/-- THE REGROUP STEP of a team on a core (R54, R55); accesses that have not completed follow their threads. -/
def State.regroupStep (s : State) (team core : Nat) : State :=
  let gs := s.vgroups team core
  let gr := s.grid (s.team team).grid
  let t := gs.foldl (fun t g => t.setGroup g (s.regrouped gs g gr.pkt.args)) s
  (t.ops.filter fun e => s.splitOp gs e.2 != [e.2]).foldl (fun u e =>
    (s.splitOp gs e.2).foldl (fun (u : State) o =>
      if (tabGet u.ops e.1).isNone then { u with ops := tabSet u.ops e.1 o }
      else { u with ops := tabSet u.ops u.nextId o, nextId := u.nextId + 1 }) { u with ops := tabDel u.ops e.1 }) t

/-! ### The watchdog (R212) -/

/-- Whether any group of a grid is resident, shadow runs apart. -/
def State.anyResident (s : State) (k : Nat) : Bool :=
  s.groups.any fun e => e.2.grid == k && (s.team e.2.team).shadow.isNone

/-- Whether the watchdog of a grid is suspended (R212). -/
def State.watchSuspended (s : State) (k : Nat) : Bool :=
  !s.anyResident k ||
    (!(s.grid k).sectWait && s.teams.any fun e => e.2.grid == k && e.2.saving.isSome && e.2.saved.isNone)

/-- The watchdog stops or goes on as a save begins or ends; the time in between does not count (R212). -/
def State.rewatch (s : State) (k : Nat) : State :=
  s.modGrid k fun gr =>
    match s.watchSuspended k, gr.paused with
    | true, none => { gr with paused := some s.clock }
    | false, some t => { gr with paused := none, progress := gr.progress.map fun p => p + (s.clock - t) }
    | _, _ => gr

/-! ### The end of groups and teams -/

/-- A team ends (R208, R212): a handler team whose record no RESUME has freed ends the grid. -/
def State.endTeam (s : State) (k : Nat) : State :=
  let t := s.team k
  let s := s.modTeam k fun t => { t with finished := true }
  if t.shadow.isSome then s
  else
    match t.handler with
    | none => s.progressed t.grid
    | some n =>
      let s := s.progressed t.grid
      match tabGet (s.ctx (s.grid t.grid).ctx).records n with
      | none => s
      | some r => s.abortGrid t.grid (0x0100 + r.cause)

/-- A group all of whose slots are finished or empty ends (R36). -/
def State.endGroup (s : State) (g : Nat) : State :=
  match tabGet s.groups g with
  | none => s
  | some x =>
    if x.live != [] then s
    else
      let s := s.dropGroups fun h _ => h == g
      let s := s.modTeam x.team fun t => { t with groups := t.groups - 1 }
      let s := if (s.team x.team).dynamic then
          (s.modTeam x.team fun t => { t with finished := t.groups == 0 && !t.cores.isEmpty }).progressed x.grid
        else if (s.team x.team).groups = 0 then s.endTeam x.team
        else s
      s.rewatch x.grid

/-- The slice key of a core: its place in the team, or the core itself in a team of bin groups. -/
def Team.sliceKey (t : Team) (core : Nat) : Nat := if t.dynamic then core else t.cores.findIdx fun c => c == core

/-- The regroup timer of a team on a core. -/
def State.setTimer (s : State) (team core : Nat) (v : Option Nat) : State :=
  s.modTeam team fun t =>
    let k := t.sliceKey core
    { t with slices := tabSet t.slices k { tabGetD t.slices k {} with timer := v } }

/-- The teams that regroup as one with a team: it, or all of bin groups of its grid (R53). -/
def State.regroupTeams (s : State) (team : Nat) : List Nat :=
  if (s.team team).dynamic then (s.teams.filter fun e => e.2.dynamic && e.2.grid == (s.team team).grid).map (·.1) else [team]

/-- The regroup timer of teams that regroup as one on a core. -/
def State.timerOf (s : State) (team core : Nat) : Option Nat :=
  (s.regroupTeams team).findSome? fun k => let t := s.team k; (tabGetD t.slices (t.sliceKey core) {}).timer

/-- The regroup step made: the timer stops, and groups that it leaves empty end. -/
def State.regroupNow (s : State) (team core : Nat) : State :=
  let t := (s.regroupTeams team).foldl (fun t k => t.setTimer k core none) (s.regroupStep team core)
  (s.vgroups team core).foldl (fun t g => t.endGroup g) t

/-- The regroup step, if its first case holds. -/
def State.regroupCheck (s : State) (team core : Nat) : State :=
  if s.allStand team core then s.regroupNow team core else s

/-! ### Team flush points under DET (R61) -/

/-- The parent team whose staging lists a group's items go to. -/
def State.parentOf (s : State) (team : Nat) : Nat := ((s.team team).parent).getD team

/-- The groups of a team and of the bin groups that belong to it. -/
def State.familyOf (s : State) (p : Nat) : List Nat := (s.groups.filter fun e => s.parentOf e.2.team == p).map (·.1)

/-- The order of R61 among items. -/
def Item.key (i : Item) : Nat := i.entry.toNat * 2 ^ 128 + i.spawnIdx * 2 ^ 64 + i.seq

/-- A sorted list cut into bins of at most 32 items of one entry. -/
def packItems : Nat → List Item → List (DWord × List Item)
  | 0, _ => []
  | _, [] => []
  | f + 1, i :: r =>
    let b := (i :: r.takeWhile fun j => j.entry == i.entry).take 32
    (i.entry, b) :: packItems f ((i :: r).drop b.length)

/-- The items of a team packed into closed bins that wait for a group slot of the team's first core (log 57). -/
def State.packTeam (s : State) (p : Nat) : State :=
  let t := s.team p
  let packs := packItems t.staging.length (sortBy Item.key t.staging)
  let s := s.modTeam p fun t => { t with staging := [], packs := t.packs + packs.length }
  s.modCore (t.cores.headD 0) fun c =>
    { c with bins := (packs.zip (upto packs.length)).foldl (fun b e =>
        tabSet b (tabNext b + 32) ⟨t.grid, p, e.1.1, e.1.2, true, 0, t.packs + e.2⟩) c.bins }

/-- Whether a packed bin group of a team has not been launched. -/
def State.packsWait (s : State) (p : Nat) : Bool := s.cores.any fun e => e.2.bins.any fun b => b.2.closed && b.2.team == p && b.2.grid == (s.team p).grid && 32 ≤ b.1

/-- Whether a saved team has unfinished threads; a flush point waits for its restore (log 33). -/
def Team.savedLive (t : Team) : Bool :=
  match t.saved with
  | some v => v.groups.any fun e => e.group.live != []
  | none => false

/-- A team flush point, if it has come: the lists are packed and the lanes that wait go on, the running set being what it was (R50,
rule 4). -/
def State.flushCheck (s : State) (p : Nat) : State :=
  let fam := s.familyOf p
  let ready := fam.all fun g => (s.group g).live.all fun l => ((s.group g).lane l).park == .flush
  let away := s.teams.any fun e => s.parentOf e.1 == p && e.2.savedLive
  if ready && !s.packsWait p && !away then
    fam.foldl (fun t g => t.modGroup g fun x =>
      { x with
        lanes := tabMap x.lanes fun _ y => if y.park == .flush then { y.advance 1 with stamp := s.clock } else y })
      (s.packTeam p)
  else s

/-! ### Saves asked for (R214, R219) -/

/-- Whether a core holds an ordered section. -/
def State.sectionOn (s : State) (core : Nat) : Bool := s.groups.any fun e => coreOf e.1 == core && e.2.lanes.any fun l => l.2.inSect

/-- A save of a team is asked for (R214); pre-emption and quarantine abandon its check (R224). -/
def State.askSave (s : State) (t : Nat) (auto abandon : Bool) : State :=
  let tm := s.team t
  if tm.finished || tm.saving.isSome || tm.saved.isSome then s
  else
    let s := match s.shadowOf t with
      | some h => if abandon then s.abandonCheck h else s
      | none => s
    (s.modTeam t fun x => { x with saving := some s.clock, saveAuto := auto }).rewatch tm.grid

/-- What a key names in a table, under another key. -/
def tabMove {α : Type} (t : Tab α) (a b : Nat) : Tab α :=
  match tabGet t a with
  | some x => tabSet (tabDel t a) b x
  | none => t

/-- A bin group in another team of bin groups, with its threads' places in happens-before and their regions. -/
def State.moveGroup (s : State) (g team : Nat) : State :=
  let x := s.group g
  let o := x.lanes.foldl (fun (o : Order) e =>
    let a := Machine.threadKey x.team e.2.tix
    let b := Machine.threadKey team e.2.tix
    { o with threads := tabMove o.threads a b, regions := tabMove o.regions a b }) s.order
  { s with order := o }.modGroup g fun x => { x with team := team }

/-- The bin groups of a grid's team on a core, made a team of their own so that they are saved there (R214, log 33). -/
def State.splitTeam (s : State) (core k : Nat) : State :=
  let d := s.team k
  let gs := (s.groups.filter fun e => e.2.team == k && coreOf e.1 == core).map (·.1)
  if !d.dynamic || !d.cores.isEmpty || gs = [] then s
  else
    let n := s.nextId
    let own : Team := { d with cores := [core], groups := gs.length, slices := d.slices.filter fun e => e.1 == core }
    let teams := tabMod s.teams k fun t => { t with groups := t.groups - gs.length, slices := tabDel t.slices core }
    gs.foldl (fun t g => t.moveGroup g n) { s with nextId := n + 1, teams := tabSet teams n own }

/-- The bin groups of a core, of one grid or of every one, in teams of their own. -/
def State.splitBins (s : State) (grid : Option Nat) (core : Nat) : State :=
  s.teams.foldl (fun t e => if grid.all (· == e.2.grid) then t.splitTeam core e.1 else t) s

/-- Whether a team is to leave cores. -/
def Team.leaves (t : Team) (cores : List Nat) : Bool :=
  !t.finished && t.saved.isNone && t.cores.any fun c => cores.contains c

/-- The saves that a quiesce asks for on cores: of the teams, and of the bin groups, of grids with PREEMPT (R307). -/
def State.quiesceSaves (s : State) (cores : List Nat) : State :=
  let split (t : State) (core : Nat) : State :=
    t.grids.foldl (fun t e => if e.2.pkt.preempt then t.splitBins (some e.1) core else t) t
  let s := cores.foldl split s
  s.teams.foldl (fun t e =>
    if (t.grid e.2.grid).pkt.preempt && e.2.leaves cores && e.2.shadow.isNone then t.askSave e.1 true false else t) s

/-- Whether a core's die is being quiesced (R307). -/
def State.quiescing (s : State) (core : Nat) : Bool := (tabGet s.dies (dieOf core)).any (·.quiescing)

/-- The cores picked of a victim grid (R219). -/
def Grid.pickedCores (gr : Grid) : List Nat := gr.picked.map (·.1)

/-- Whether a team of a victim grid is to leave picked cores: handler teams are never pre-empted (R207). -/
def State.givesUp (s : State) (k : Nat) (t : Team) : Bool :=
  t.grid == k && t.handler.isNone && t.leaves (s.grid k).pickedCores

/-- Whether a pre-emption of a grid still waits for ordered sections (R219). -/
def State.sectionsAwaited (s : State) (k : Nat) : Bool := s.teams.any fun e => s.givesUp k e.2 && e.2.saving.isNone

/-- The teams on picked cores, shadow runs among them, are saved once no core of theirs that was picked holds an ordered section (R219,
R220). -/
def State.vacate (s : State) (k : Nat) : State :=
  let gr := s.grid k
  if gr.picked = [] then s
  else
    let s := gr.pickedCores.foldl (fun t c => t.splitBins (some k) c) s
    let s := s.teams.foldl (fun t e =>
      if !s.givesUp k e.2 then t
      else if e.2.cores.any fun c => gr.pickedCores.contains c && t.sectionOn c then t
      else t.askSave e.1 true true) s
    let waits := s.sectionsAwaited k
    (s.modGrid k fun g => { g with sectWait := g.sectWait && waits }).rewatch k

/-- What follows when threads of a group have exited: the group and its team may end, a regroup step or a flush point may
come about. -/
def State.afterExit (s : State) (c : Cx) : State :=
  let core := coreOf c.g
  let s := s.endGroup c.g
  let s := (s.regroupCheck c.x.team core).vacate c.x.grid
  if c.gr.pkt.det then s.flushCheck (s.parentOf c.x.team) else s

/-! ### Completion of a grid (R62) -/

/-- Whether a team of a grid is meant. -/
def State.teamIn (s : State) (k team : Nat) : Bool := (s.team team).grid == k

/-- Whether a grid has nothing left to run: every team and bin group finished, no item in a bin or list, no engine command, no ICINV. -/
def State.gridDone (s : State) (k : Nat) : Bool :=
  let gr := s.grid k
  gr.dealt == gr.teams && !gr.ended &&
    (s.teams.all fun e => e.2.grid != k || e.2.finished || (e.2.dynamic && e.2.saved.isNone) || e.2.shadow.isSome) &&
    (s.teams.all fun e => e.2.grid != k || e.2.staging.isEmpty) && (s.ops.all fun e => !(e.2.icinv && e.2.grid == k)) &&
    (s.groups.all fun e => e.2.grid != k || (s.team e.2.team).shadow.isSome) &&
    (s.cores.all fun e =>
      (e.2.bins.all fun b => b.2.grid != k) && (e.2.deque.all fun d => d.1 != k) &&
        (e.2.copyq.all fun q => !s.teamIn k q.own.team) && (e.2.mport.all fun q => !s.teamIn k q.own.team)) &&
    (s.colls.all fun e => e.2.grid != some k && (match e.2.own with | some q => !s.teamIn k q.team | none => true)) &&
    ((s.ctx gr.ctx).handlers.all fun n => (s.ctx gr.ctx).recordGrid n != some k)

end Sys2Proof.Machine
end

