-- ==== Sys2Proof/Machine/Queues.lean ====
section
/-!
DEFINITION. Spawn bins (R56-R61, R320, R422), queues from the device (R73-R76, R348-R352) and dependency counters (R77, R78, R295,
R346, R347).
-/

namespace Sys2Proof.Machine

/-! ### Spawn bins -/

/-- Bins of a core (R57); bins numbered from 32 on are packs that wait for a group slot under DET (R61). -/
def binsPerCore : Nat := 32

/-- A bin's key matches a grid and an entry. -/
def Bin.keyed (b : Bin) (grid : Nat) (entry : DWord) : Bool := b.grid == grid && b.entry == entry

/-- The bin an item goes into: its number and contents after the item; none where the lane stalls (R57). -/
def Core.place (c : Core) (grid team clock : Nat) (i : Item) : Option (Nat × Bin) :=
  let own := c.bins.filter fun b => b.1 < binsPerCore
  match own.find? fun b => b.2.keyed grid i.entry with
  | some (k, b) =>
    if b.closed || binsPerCore ≤ b.items.length then none
    else some (k, { b with items := b.items ++ [i], closed := binsPerCore ≤ b.items.length + 1 })
  | none =>
    match lowestFree own 0 binsPerCore with
    | none => none
    | some k => some (k, { grid := grid, team := team, entry := i.entry, items := [i], timer := clock })

/-- The item that a lane spawns, with the lane's place in the order of R61. -/
def State.spawnItem (s : State) (c : Cx) (l : Nat) (a : VField) (b : BOp) : Item :=
  let y := (s.group c.g).lane l
  ⟨BitVec.ofNat 64 (s.readPair c.x l a), s.readOpd c.x l (b.v.headD (.imm 0)), y.spawnIdx, y.spawnSeq⟩

/-- The place of the `n`-th staged item of a grid: in its spill region, past its last core area (R94). -/
def Cx.stagedAt (c : Cx) (n : Nat) : Nat := c.gr.pkt.spill.toNat + 0x848000 * c.gr.lc + 16 * n

/-- The 16 bytes of a staged item in the spill region (R61, R94): which they are the spec does not say, nor the order of the lists
(log 58). -/
def State.stageItem (s : State) (c : Cx) : State :=
  let n := (s.teams.map fun e => if e.2.grid = c.x.grid then e.2.staging.length else 0).foldl (· + ·) 0
  match s.putVa c.who (c.stagedAt (n - 1)) (s.freeBytes (2 ^ 42 + 16 * n) 16) with
  | .ok t => t
  | .error _ => s

/-- A lane's item placed: in a bin, or under DET in the staging list of its parent team; none where it stalls. -/
def State.spawnLane (s : State) (c : Cx) (l : Nat) (i : Item) : Option State :=
  let s' := s.modLane c.g l fun y => { y with spawnSeq := y.spawnSeq + 1 }
  if c.gr.pkt.det then some ((s'.modTeam (s.parentOf c.x.team) fun t => { t with staging := t.staging ++ [i] }).stageItem c)
  else
    match (s.core (coreOf c.g)).place c.x.grid c.x.team s.clock i with
    | none => none
    | some (k, b) => some (s'.modCore (coreOf c.g) fun q => { q with bins := tabSet q.bins k b })

/-- SPAWN (R56, R57, R422): lanes whose item finds no place park. -/
def execSpawn (a : VField) (b : BOp) (s : State) : Out State :=
  issue (.spawn a b) s fun c t =>
    t.checked c (fun l => must (t.readPair c.x l a % 4 == 0) .misaligned (t.readPair c.x l a))
      (let r := c.ls.foldl (fun (p : State × List Nat) l =>
          match p.1.spawnLane c l (t.spawnItem c l a b) with
          | some u => (u, p.2)
          | none => (p.1, p.2 ++ [l])) (t, [])
       let u := r.1.done { c with ls := c.ls.filter fun l => !r.2.contains l } (.spawn a b)
       .next ((u.parkLanes c.g r.2).count (coreOf c.g) c.gr.ctx 4 r.2.length))

/-- BINFLUSH (R60, R61, R320). -/
def execBinflush (s : State) : Out State :=
  issue .binflush s fun c t =>
    if c.gr.pkt.det then
      let t := (t.irrev c).count (coreOf c.g) c.gr.ctx 4 c.ls.length
      .next ((t.modLanes c.g c.ls fun _ y => { y with park := .flush, stamp := t.clock }).flushCheck (t.parentOf c.x.team))
    else
      .next ((t.modCore (coreOf c.g) fun q =>
        { q with bins := tabMap q.bins fun _ b => if b.grid = c.x.grid then { b with closed := true } else b }).done c
          .binflush)

/-! ### Lanes served in order -/

/-- Whether a lower lane of the set that a lane came to its word with has parked there, and is not among the lanes that issue now: it holds
the lane back (R336, R348, R351). -/
def Cx.heldBelow (c : Cx) (l : Nat) : Bool :=
  let y := c.x.lane l
  (c.x.lanes.filter fun e => decide (e.1 < l)).any fun e =>
    !c.ls.contains e.1 && !e.2.fin && e.2.inBody && e.2.pc == y.pc && e.2.set == y.set && e.2.park == .ring

/-- Lanes served in ascending order until one cannot be: it parks, and so do the lanes above it. Under DET the lanes that park stay
the running set (R50, log 20). -/
def State.inOrder (s : State) (c : Cx) (i : Instr) (serve : State → Nat → Option State) : Out State :=
  let r := c.ls.foldl (fun (p : State × List Nat) l =>
    if p.2 != [] || c.heldBelow l then (p.1, p.2 ++ [l])
    else
      match serve p.1 l with
      | some u => (u, [])
      | none => (p.1, [l])) (s, [])
  let u := r.1.done { c with ls := c.ls.filter fun l => !r.2.contains l } i
  let u := (u.modLanes c.g r.2 fun _ y => { y with park := .ring, stamp := s.clock }).count (coreOf c.g) c.gr.ctx 4 r.2.length
  .next (if c.gr.pkt.det && r.2 != [] then u.modGroup c.g fun x => { x with running := maskOf r.2 } else u)

/-! ### Queues -/

/-- The queue of ENQ and DEQ operands: bits [5:0]. -/
def queueOf (w : Word) : Nat := w.toNat % 64

/-- How many lower active lanes name the same queue. -/
def Cx.ahead (c : Cx) (q : Nat → Nat) (l : Nat) : Nat := (c.ls.filter fun k => decide (k < l) && q k == q l).length

/-- The translations of a ring slot and of the index block that ENQ writes, or DEQ reads, for a queue (R71, R349, R352). -/
def State.ringFail (s : State) (q idx : Nat) (acc : Acc) : List (Option (Cause × Nat)) :=
  let x := s.queue q
  [failOf (s.xlateAll x.who acc (x.slotAddr idx) x.slotBytes), failOf (s.xlateAll x.who acc (x.field 8 8) 8)]

/-- The copy of a queue's read index in its index block; where the block cannot be written, the queue faults as it does for the Drover (R71,
R75, log 61). -/
def State.copyIndex (s : State) (q : Nat) : State :=
  let x := s.queue q
  match s.putVa x.who (x.field 8 8 + 0x80) (leBytes 8 x.r) with
  | .ok t => t
  | .error _ => s.xlfault q

/-- The bytes that ENQ puts in a slot: a packet read as a load of the thread, or the four words of a task. -/
def State.enqBytes (s : State) (c : Cx) (l q : Nat) (a : VField) : Except (Cause × Nat) (List Byte) :=
  if (s.queue q).task then .ok (wordsBytes 16 ((v4 a).map (s.readOpd c.x l)))
  else
    let va := s.readPair c.x l a
    if va % 128 != 0 then .error (.misaligned, va) else s.readVa c.who va 128

/-- ENQ (R351, R352). -/
def execEnq (d a : VField) (s : State) : Out State :=
  issue (.enq d a) s fun c t =>
    let w (l : Nat) : Word := t.readOpd c.x l (.v d.toNat)
    let q (l : Nat) : Nat := queueOf (w l)
    let task (l : Nat) : Bool := (t.queue (q l)).task
    let held (l : Nat) : Bool := (c.x.lane l).park == .ring
    t.parking c (fun l => task l && a.toNat % 4 == 0 && (v4 a).any (c.x.isPending l)) fun c t =>
      t.checked c (fun l =>
        let x := t.queue (q l)
        let words := (v4 a).map (t.readOpd c.x l)
        firstOf ([must ((w l).toNat < 64) .illegal 0, must (!task l || (a.toNat % 4 == 0 && words.headD 0 != 0)) .illegal 0,
            failOf (t.enqBytes c l (q l) a),
            must ((x.en || held l) && x.device && x.ctxid == c.gr.ctx) .permission 0] ++
          (if x.en && x.device then t.ringFail (q l) (x.w + c.ahead q l) .store else [])))
        (t.inOrder c (.enq d a) fun u l =>
          let x := u.queue (q l)
          if !x.en || x.slots ≤ x.w - x.r || !x.hold.isEmpty then none
          else
            match t.enqBytes c l (q l) a with
            | .error _ => none
            | .ok bs =>
              match u.pushSlot (q l) bs with
              | .error _ => none
              | .ok v =>
                let v := if x.task then v else v.touchVa c.who (u.readPair c.x l a) 128
                let v := if c.gr.pkt.sys && !x.task then v.modQueue (q l) fun y => { y with privok := y.privok ++ [x.w] } else v
                some ((v.releaseAt c.g [l] .device (slotSync (q l) x.w)).counted c (.enq d a) l))

/-- DEQ (R348, R349): the entry is copied, and the read index passes it. -/
def execDeq (blocking : Bool) (d a : VField) (s : State) : Out State :=
  issue (.deq blocking d a) s fun c t =>
    let w (l : Nat) : Word := t.readOpd c.x l (.v a.toNat)
    let q (l : Nat) : Nat := queueOf (w l)
    let dsts (l : Nat) : List PReg := (v4 d).filterMap (·.reg (c.x.lane l))
    t.checked c (fun l =>
      let x := t.queue (q l)
      firstOf ([must ((w l).toNat < 64) .illegal 0, must (x.en && x.task && x.ctxid == c.gr.ctx) .permission 0] ++
        (if x.en && x.task && decide (x.r + c.ahead q l < x.w) then t.ringFail (q l) (x.r + c.ahead q l) .load else [])))
      (t.inOrder c (.deq blocking d a) fun u l =>
        let x := u.queue (q l)
        if x.r < x.w then
          match u.readVa x.who (x.slotAddr x.r) 16 with
          | .error _ => none
          | .ok bs =>
            let v := ((u.touchVa x.who (x.slotAddr x.r) 16).modQueue (q l) fun y => { y with r := y.r + 1 }).copyIndex (q l)
            some ((v.launch c (.deq blocking d a) l [l] (dsts l)
              { vals := (upto 4).map fun k => w32 (leNat ((bs.drop (4 * k)).take 4)) }).acquireAt c.g [l] .device
              (slotSync (q l) x.r))
        else if blocking then none
        else some (u.launch c (.deq blocking d a) l [l] (dsts l) { vals := [0, 0, 0, 0] }))

/-! ### Dependency counters -/

/-- B of a lane. -/
def State.readB (s : State) (c : Cx) (l : Nat) (b : BOp) : Nat := (s.readOpd c.x l (b.v.headD (.imm 0))).toNat

/-- DEPSET (R295, R346). -/
def execDepset (d a : VField) (b : BOp) (s : State) : Out State :=
  issue (.depset d a b) s fun c t =>
    let w (l : Nat) : Nat := (t.readOpd c.x l (.v d.toNat)).toNat
    let pkt (l : Nat) : Nat := t.readPair c.x l a
    t.checked c (fun l =>
      let x := t.queue (bits (w l) 16 6)
      firstOf [must (w l < 2 ^ 22) .illegal 0, must (pkt l % 128 == 0) .misaligned (pkt l),
        failOf (t.xlateAll c.who .load (pkt l) 128),
        must (x.en && !x.task && x.device && x.ctxid == c.gr.ctx) .permission 0])
      (.next ((c.ls.foldl (fun u l =>
        ((u.depset c.who (bits (w l) 0 16) (t.readB c l b) (pkt l) (bits (w l) 16 6) (u.seenBy c.g l)).noteRelease c.g l .device).counted c
          (.depset d a b) l) t).done c
          (.depset d a b)))

/-- A change of the counters that the lanes name, in ascending lane order. -/
def State.depChange (s : State) (c : Cx) (i : Instr) (d : VField) (b : BOp) (f : Nat → Int) : Out State :=
  let w (l : Nat) : Nat := (s.readOpd c.x l (.v d.toNat)).toNat
  s.checked c (fun l => must (w l < 65536) .illegal 0)
    (.next ((c.ls.foldl (fun u l => ((u.change (w l) (f (s.readB c l b)) (u.seenBy c.g l)).noteRelease c.g l .device).counted c i l) s).done c i))

/-- DEPDEC (R295, R346). -/
def execDepdec (d : VField) (b : BOp) (s : State) : Out State :=
  issue (.depdec d b) s fun c t => t.depChange c (.depdec d b) d b fun n => -(n : Int)

/-- DEPADD (R295, R346). -/
def execDepadd (d : VField) (b : BOp) (s : State) : Out State :=
  issue (.depadd d b) s fun c t => t.depChange c (.depadd d b) d b fun n => (n : Int)

end Sys2Proof.Machine
end

