-- ==== Sys2Proof/Machine/Combine.lean ====
section
/-!
DEFINITION. The Cooperage: combine slots, arrivals, releases and release records (R196, R281-R294, R335-R337).
-/

namespace Sys2Proof.Machine

/-! ### Slots -/

/-- A slot id (Table 16.1). -/
def slotId (die gen index : Nat) : Nat := die * 2 ^ 28 + gen * 2 ^ 16 + index

/-- Staging bytes of a slot (R281). -/
def stagingBytes (k width : Nat) : Nat := (k * width * 2 + 127) / 128 * 128

/-- The first byte of a die's combine region: as CTXSET gave it, or so that the region ends with the die's near memory (log 59). -/
def Cooper.region (k : Cooper) (die : Nat) : Nat := k.base.getD ((die + 1) * 0x800000000 - k.bytes)

/-- Where position `p` of a slot is staged (R281): the slot's area is one of its size in the region that its index picks (log 59). -/
def Cooper.stagedAt (k : Cooper) (die i : Nat) (x : CSlot) (p : Nat) : Nat :=
  let n := stagingBytes x.experts.length x.width
  k.region die + i * n % (k.bytes - n + 128) / 128 * 128 + p * (x.width * 2)

/-- The bytes of a vector staged in the combine region, where that lies in the die's near memory (R281, log 59). -/
def State.stage (s : State) (ctx die i : Nat) (x : CSlot) (p : Nat) (bs : List Byte) : State :=
  let pa := ((s.ctx ctx).coop die).stagedAt die i x p
  if inKind 0 pa bs.length && homeOf pa == die then s.storeRun die pa bs else s

/-- The current slot of an id, by its index; none where the id is stale (R282). -/
def Cooper.current (k : Cooper) (id : Nat) : Option CSlot :=
  match tabGet k.slots (bits id 0 16) with
  | some x => if tabGetD k.gens (bits id 0 16) 0 = bits id 16 12 then some x else none
  | none => none

/-- Staging bytes in use. -/
def Cooper.used (k : Cooper) : Nat := (k.slots.map fun e => stagingBytes e.2.experts.length e.2.width).foldl (· + ·) 0

/-- The index that CMBOPEN gives a slot (R285). -/
def Cooper.freeIndex (k : Cooper) (count width : Nat) : Option Nat :=
  if k.used + stagingBytes count width ≤ k.bytes then lowestFree k.slots 0 65536 else none

/-- Whether the listed experts ascend strictly. -/
def ascending : List Nat → Bool
  | a :: b :: r => decide (a < b) && ascending (b :: r)
  | _ => true

/-- Whether a slot descriptor lies within Table 16.2. -/
def slotDescOk (d : List Byte) : Bool :=
  let k := fld d 6 1
  let width := fld d 4 2
  let pol := fld d 7 1
  8 ≤ width && width ≤ 16384 && width % 8 == 0 && 1 ≤ k && k ≤ 8 && pol < 4 &&
    ascending ((upto k).map fun i => fld d (8 + i) 1) && zeros d (8 + k) (8 - k) &&
    ((upto k).all fun i => match fp32.decode (fld d (0x10 + 4 * i) 4) with | .fin .. => true | _ => false) &&
    zeros d (0x10 + 4 * k) (4 * (8 - k)) && fld d 0x30 8 % 16 == 0 && fld d 0x38 4 ≤ 10000000 && fld d 0x3E 1 ≤ 1 &&
    zeros d 0x3F 1 && (if pol = 3 then fld d 0x40 8 % 16 == 0 && !zeros d 0x40 8 else zeros d 0x40 8) &&
    (fld d 0x48 4 < 65536 || fld d 0x48 4 == 0xFFFFFFFF) && zeros d 0x4C 4

/-- The slot that a descriptor describes. -/
def slotOf (d : List Byte) (opener : Nat) (sys : Bool) (now : Nat) : CSlot :=
  let k := fld d 6 1
  { st := .opened, token := w32 (fld d 0 4), width := fld d 4 2, experts := (upto k).map fun i => fld d (8 + i) 1
    weights := (upto k).map fun i => w32 (fld d (0x10 + 4 * i) 4), policy := fld d 7 1, dest := fld d 0x30 8
    timeout := fld d 0x38 4, ogroup := fld d 0x3C 2, fp32out := fld d 0x3E 1 == 1, fallback := fld d 0x40 8
    counter := fld d 0x48 4, opener := opener, privileged := sys, since := now }

/-- Bytes of a slot's output. -/
def CSlot.outBytes (x : CSlot) : Nat := x.width * (if x.fp32out then 4 else 2)

/-! ### Release -/

/-- The bit of a position. -/
def bitSet (m i : Nat) : Bool := bitAt m i

/-- `WSum(fmt, T)` (R288). -/
def wsum (f : Fmt) (ts : List Val) : Nat := f.round .rne (matrixExact ts)

/-- Weights of the used positions under RENORM (R288). -/
def renorm (ws : List Word) (use : Nat → Bool) : List Word :=
  let s := fp32.decode (matrixSum (((ws.zip (upto ws.length)).filter fun p => use p.2).map fun p => asFp p.1))
  (ws.zip (upto ws.length)).map fun p => if use p.2 then toFp .rne (divVal (asFp p.1) s) else p.1

/-- The output of a slot: `v` gives each used position's data. -/
def CSlot.output (x : CSlot) (use : Nat → Bool) (u : List Word) (v : Nat → List Byte) : List Byte :=
  let fmt := if x.fp32out then fp32 else bf16
  let ps := (upto x.experts.length).filter use
  (upto x.width).flatMap fun j =>
    leBytes (if x.fp32out then 4 else 2)
      (wsum fmt (ps.map fun i => matMul (asFp (u.getD i 0)) (bf16.decode (fld (v i) (2 * j) 2))))

/-- Release(reason) of a slot up to its steps: reason, bitmaps and output are fixed (R288, R291). The fallback is what reading it
gives, if SUBST reads it. -/
def CSlot.formed (x : CSlot) (r : Release) (fallback : Option (List Byte)) : CSlot :=
  let k := x.experts.length
  let arr (i : Nat) : Bool := bitSet x.arrived i
  let late := r == .timeout || r == .closed
  let fills := late && x.policy == 3
  let sub := if fills then ((upto k).filter fun i => !arr i).foldl (fun m i => m + 2 ^ i) 0 else 0
  let u := if late && x.policy == 2 then renorm x.weights arr else x.weights
  let data (i : Nat) : List Byte := if arr i then tabGetD x.staged i [] else fallback.getD []
  let x := { x with st := .releasing, reason := some r, subst := sub, fault := sub != 0 && fallback.isNone }
  if r = .cancelled || x.fault then x else { x with out := x.output (fun i => arr i || fills) u data }

/-- Status of a release record (Table 16.4). -/
def CSlot.status (x : CSlot) : Nat :=
  if x.fault then 5
  else
    match x.reason with
    | some .timeout => 1
    | some .closed => 2
    | some .cancelled => 3
    | _ => 0

/-! ### Release records -/

/-- The 16 bytes of record `m`. -/
def RelRec.bytes (r : RelRec) (timedOut : Bool) (m : Nat) : List Byte :=
  leBytes 4 r.token.toNat ++ leBytes 4 r.id.toNat ++
    leBytes 4 (r.info ||| if timedOut then 0x40000 else 0).toNat ++ leBytes 4 (m + 1)

/-- The Cooperage's accesses for a context. -/
def coopWho (ctx : Nat) : Who := unitWho ctx true

/-- The first waiting record of a die written, a DEVICE-scope release of what happens-before the slot's (R196), if the ring has room and the
accesses succeed; its slot becomes FREE (R289). -/
def State.putRecord (s : State) (ctx die : Nat) : Option State :=
  let k := (s.ctx ctx).coop die
  match k.waiting, k.relq with
  | r :: _, some (base, n, block) =>
    let counted := if r.slot.isSome then .ok s else s.putVa (coopWho ctx) (block + 0x80) (leBytes 8 k.discards)
    match counted, s.readVa (coopWho ctx) block 8 with
    | .ok t, .ok cs =>
      if k.m < leNat cs + 2 ^ n then
        let timed := match r.slot.bind (tabGet k.slots) with | some x => x.timedOut | none => false
        match t.putRel (coopWho ctx) (base + 16 * (k.m % 2 ^ n)) (r.bytes timed k.m) .device r.know with
        | .error _ => none
        | .ok v =>
          some ((v.touchVa (coopWho ctx) block 8).modCoop ctx die fun c =>
            let c := { c with m := c.m + 1, waiting := c.waiting.drop 1 }
            match r.slot with
            | some i => c.freeSlot i
            | none => c)
      else none
    | _, _ => none
  | _, _ => none

/-- Records written while they can be. -/
def State.flushRecords : Nat → State → Nat → Nat → State
  | 0, s, _, _ => s
  | f + 1, s, ctx, die =>
    match s.putRecord ctx die with
    | some t => State.flushRecords f t ctx die
    | none => s

/-- A record appended to those that wait, and written if it can be; without a release queue there are no records (R289). -/
def State.appendRecord (s : State) (ctx die : Nat) (r : RelRec) : State :=
  match ((s.ctx ctx).coop die).relq with
  | none =>
    s.modCoop ctx die fun c =>
      match r.slot with
      | some i => c.freeSlot i
      | none => c
  | some _ =>
    let t := s.modCoop ctx die fun c => { c with waiting := c.waiting ++ [r] }
    t.flushRecords ((t.ctx ctx).coop die).waiting.length ctx die

/-- The kinds of discard, as bits of a record's byte 0x0A. -/
def lateBit : Nat := 1
/-- DUP. -/
def dupBit : Nat := 2
/-- UNREACH. -/
def unreachBit : Nat := 8
/-- SHORT. -/
def shortBit : Nat := 16

/-- Discard(kind) (R286): the count rises, and is written beside the consumer index. -/
def State.discard (s : State) (ctx die id expert kind : Nat) : State :=
  match ((s.ctx ctx).coop die).relq with
  | none => s
  | some (_, _, block) =>
    let t := s.modCoop ctx die fun c => { c with discards := c.discards + 1 }
    let n := ((t.ctx ctx).coop die).discards
    let t := match t.putVa (coopWho ctx) (block + 0x80) (leBytes 8 n) with
      | .ok v => v
      | .error _ => t
    t.appendRecord ctx die ⟨none, 0xFFFFFFFF, w32 id, w32 (expert % 256 + kind * 2 ^ 16 + 4 * 2 ^ 24), []⟩

/-- Whether a slot waits for one of lower token id in its group (R291). -/
def Cooper.mustWait (k : Cooper) (x : CSlot) : Bool :=
  x.ogroup != 0 && k.slots.any fun e => e.2.ogroup == x.ogroup && e.2.token.ult x.token && !e.2.recordDue

/-- The four steps of R196 on a RELEASING slot: destination, release, counter, record. -/
def State.releaseSteps (s : State) (ctx die i : Nat) : State :=
  let k := (s.ctx ctx).coop die
  match tabGet k.slots i with
  | none => s
  | some x =>
    let wrote := if x.fault || x.reason == some .cancelled then .ok s
      else s.putVa (unitWho ctx x.privileged) x.dest x.out
    let (t, x) := match wrote with
      | .ok t => (t, { x with recordDue := true })
      | .error _ => (s, { x with recordDue := true, fault := true })
    let t := t.modCoop ctx die fun c => { c with slots := tabSet c.slots i x }
    let t := if x.counter < 65536 then t.change x.counter (-1) x.know else t
    let id := slotId die (tabGetD k.gens i 0) i
    t.appendRecord ctx die
      ⟨some i, x.token, w32 id, w32 (x.arrived + x.subst * 2 ^ 8 + x.status * 2 ^ 24), x.know⟩

/-- Release(reason) of an OPEN slot, and CMBCANCEL's freeing: the steps follow at once, or when the group allows (R290, R291). -/
def State.releaseSlot (s : State) (ctx die i : Nat) (r : Release) : State :=
  match tabGet ((s.ctx ctx).coop die).slots i with
  | none => s
  | some x =>
    let w := unitWho ctx x.privileged
    let fb := (s.readVa w x.fallback (2 * x.width)).toOption
    let y := x.formed r fb
    let t := if y.subst = 0 then s else s.touchVa w x.fallback (2 * x.width)
    let t := t.modCoop ctx die fun c => { c with slots := tabSet c.slots i y }
    if ((t.ctx ctx).coop die).mustWait x then t else t.releaseSteps ctx die i

/-- An arrival taken by the Cooperage of its die (R286); `know` happens-before its CMBPUT. -/
def State.arrive (s : State) (ctx id expert : Nat) (data : List Byte) (know : Tab Nat) : State :=
  let die := id / 2 ^ 28
  let i := bits id 0 16
  match ((s.ctx ctx).coop die).current id with
  | none => s.discard ctx die id expert lateBit
  | some x =>
    if x.st != .opened then s.discard ctx die id expert lateBit
    else
      let p := x.experts.findIdx fun e => e == expert
      if x.experts.length ≤ p || bitSet x.arrived p then s.discard ctx die id expert dupBit
      else if data.length < 2 * x.width then s.discard ctx die id expert shortBit
      else
        let bs := data.take (2 * x.width)
        let x := { x with arrived := x.arrived + 2 ^ p, staged := tabSet x.staged p bs, know := joinTimes x.know know }
        let t := (s.stage ctx die i x p bs).modCoop ctx die fun c => { c with slots := tabSet c.slots i x }
        if x.arrived = 2 ^ x.experts.length - 1 then t.releaseSlot ctx die i .complete else t

/-! ### Instructions -/

/-- A descriptor read by a lane. -/
def State.slotDesc (s : State) (c : Cx) (l : Nat) (a : VField) : Except (Cause × Nat) (List Byte) :=
  let va := s.readPair c.x l a
  if va % 16 != 0 then .error (.misaligned, va) else s.readVa c.who va 80

/-- A die's slots after lanes have opened theirs in order; a blocking lane that finds no room holds back those after it (R336). -/
def Cooper.opened (blocking : Bool) : List (List Byte) → Cooper → Cooper
  | [], k => k
  | d :: r, k =>
    match k.freeIndex (fld d 6 1) (fld d 4 2) with
    | some i => Cooper.opened blocking r { k with slots := tabSet k.slots i (slotOf d 0 false 0) }
    | none => if blocking then k else Cooper.opened blocking r k

/-- The token ids that a slot of a group must exceed: those of its OPEN and RELEASING slots on the die (R291). -/
def groupTokens (k : Cooper) (g : Nat) : List Nat := (k.slots.filter fun e => e.2.ogroup == g).map (·.2.token.toNat)

/-- What DET asks of a descriptor (R293). -/
def detSlotOk (d : List Byte) : Bool := fld d 0x38 4 == 0 && fld d 0x3C 2 != 0

/-- The checks of a descriptor (R283, R289, R291, R293, R336). Under DET a descriptor that R293 refuses is refused in every lane
(R297). -/
def State.openChecks (s : State) (c : Cx) (blocking : Bool) (a : VField) (l : Nat) : Option (Cause × Nat) :=
  let k := (s.ctx c.gr.ctx).coop (dieOf (coreOf c.g))
  match s.slotDesc c l a with
  | .error e => some e
  | .ok d =>
    let descs (p : Nat → Bool) : List (List Byte) := (c.ls.filter p).filterMap fun m => (s.slotDesc c m a).toOption
    let lower := k.opened (blocking || c.gr.pkt.det) (descs fun m => decide (m < l))
    let g := fld d 0x3C 2
    let x := slotOf d 0 false 0
    firstOf [failOf (s.xlateAll c.who .store (fld d 0x30 8) x.outBytes),
      if fld d 7 1 % 4 = 3 then failOf (s.xlateAll c.who .load (fld d 0x40 8) (2 * x.width)) else none,
      must (slotDescOk d && k.relq.isSome && (g == 0 || (groupTokens lower g).all fun n => decide (n < fld d 0 4)) &&
        (!c.gr.pkt.det || (descs fun _ => true).all detSlotOk)) .combine 0]

/-- The pages of a lane's descriptor. -/
def State.descPieces (s : State) (c : Cx) (l : Nat) (a : VField) : List Piece :=
  match s.xlateAll c.who .load (s.readPair c.x l a) 80 with
  | .ok ps => ps
  | .error _ => []

/-- A slot opened for a lane (R285); none where there is no room. -/
def State.openSlot (s : State) (c : Cx) (d : List Byte) : Option (State × Nat) :=
  let die := dieOf (coreOf c.g)
  let k := (s.ctx c.gr.ctx).coop die
  match k.freeIndex (fld d 6 1) (fld d 4 2) with
  | none => none
  | some i =>
    some (s.modCoop c.gr.ctx die fun q => { q with slots := tabSet q.slots i (slotOf d c.x.grid c.gr.pkt.sys s.clock) },
      slotId die (tabGetD k.gens i 0) i)

/-- CMBOPEN (R285, R336); under DET as CMBOPEN.B (R293). -/
def execCmbopen (blocking : Bool) (d a : VField) (s : State) : Out State :=
  issue (.cmbopen blocking d a) s fun c t =>
    t.parking c (fun l => t.chainMeets c.g l (t.descPieces c l a)) fun c t =>
      t.checked c (t.openChecks c blocking a)
        (t.inOrder c (.cmbopen blocking d a) fun u l =>
          match t.slotDesc c l a with
          | .error _ => none
          | .ok bs =>
            let u := u.touchVa c.who (t.readPair c.x l a) 80
            match u.openSlot c bs with
            | some (v, id) => some (v.modGroup c.g fun x => x.writeV l d [w32 id])
            | none =>
              if blocking || c.gr.pkt.det then none
              else some (u.modGroup c.g fun x => x.writeV l d [0xFFFFFFFF]))

/-- The run of a CMBPUT's source: up to 32 KiB, ending early at a later page that fails (R337). -/
def State.putRun (s : State) (w : Who) : Nat → Nat → Nat → List Byte
  | 0, _, _ => []
  | f + 1, va, n =>
    if n = 0 then []
    else
      let k := min n (4096 - va % 4096)
      match s.readVa w va k with
      | .error _ => []
      | .ok bs => bs ++ s.putRun w f (va + k) (n - k)

/-- Whether a device number is in the fabric domain (R337). -/
def State.inDomain (s : State) (n : Nat) : Bool := n == s.flash.device || s.flash.peers.contains n

/-- CMBPUT (R286, R287, R337). -/
def execCmbput (d a : VField) (s : State) : Out State :=
  issue (.cmbput d a) s fun c t =>
    let id (l : Nat) : Nat := (t.readOpd c.x l (.v d.toNat)).toNat
    let ctl (l : Nat) : Nat := (t.readOpd c.x l (.v (d.toNat + 1))).toNat
    let src (l : Nat) : Nat := t.readPair c.x l a
    let dev (l : Nat) : Nat := bits (ctl l) 16 10
    let remote (l : Nat) : Bool := bitAt (ctl l) 31
    t.checked c (fun l =>
      firstOf [must (src l % 16 == 0) .misaligned (src l),
        failOf (t.xlateAll c.who .load (src l) (min 16 (4096 - src l % 4096))),
        must (bits (ctl l) 8 8 == 0 && bits (ctl l) 26 5 == 0 && id l / 2 ^ 28 ≤ 3 &&
          (!remote l || t.inDomain (dev l))) .combine 0])
      (.next ((c.ls.foldl (fun u l =>
        let run := t.putRun c.who 9 (src l) 32768
        let u := (u.fillTlb c.who .load (src l)).noteRelease c.g l (if remote l then .fabric else .device)
        let u := u.touchVa c.who (src l) run.length
        if remote l && dev l != t.flash.device then
          u.launch c (.cmbput d a) l [l] [] { vals := [], remote := some (dev l, id l, bits (ctl l) 0 8), ctx := c.gr.ctx }
        else (u.arrive c.gr.ctx (id l) (bits (ctl l) 0 8) run (u.seenBy c.g l)).counted c (.cmbput d a) l) t).done c (.cmbput d a)))

/-- The slot id of a lane. -/
def State.slotArg (s : State) (c : Cx) (a : VField) (l : Nat) : Nat := (s.readOpd c.x l (.v a.toNat)).toNat

/-- The checks of CMBSTAT, CMBCLOSE and CMBCANCEL. -/
def State.slotChecks (s : State) (c : Cx) (a : VField) (det : Bool) (l : Nat) : Option (Cause × Nat) :=
  firstOf [must (!(det && c.gr.pkt.det)) .determinism 0, must (s.slotArg c a l / 2 ^ 28 ≤ 3) .combine 0]

/-- The value of CMBSTAT (R335). -/
def State.slotStatus (s : State) (ctx id : Nat) : Nat :=
  match ((s.ctx ctx).coop (id / 2 ^ 28)).current id with
  | none => 2 ^ 16
  | some x =>
    x.arrived + (if x.st = .releasing then x.subst else 0) * 2 ^ 8 + (if x.timedOut then 2 ^ 17 else 0)

/-- CMBSTAT (R335). -/
def execCmbstat (d a : VField) (s : State) : Out State :=
  issue (.cmbstat d a) s fun c t =>
    t.checked c (t.slotChecks c a true)
      (.next ((t.modGroup c.g fun x => c.ls.foldl (fun x l =>
        x.writeV l d [w32 (t.slotStatus c.gr.ctx (t.slotArg c a l))]) x).done c (.cmbstat d a)))

/-- A current OPEN slot released for a reason; no effect on any other id (R290). -/
def State.closeSlot (s : State) (ctx id : Nat) (r : Release) : State :=
  match ((s.ctx ctx).coop (id / 2 ^ 28)).current id with
  | some x => if x.st = .opened then s.releaseSlot ctx (id / 2 ^ 28) (bits id 0 16) r else s
  | none => s

/-- CMBCLOSE (R290, R335). -/
def execCmbclose (a : VField) (s : State) : Out State :=
  issue (.cmbclose a) s fun c t =>
    t.checked c (t.slotChecks c a true)
      (.next ((c.ls.foldl (fun u l =>
        (u.closeSlot c.gr.ctx (t.slotArg c a l) .closed).counted c (.cmbclose a) l) t).done c (.cmbclose a)))

/-- CMBCANCEL (R290, R335). -/
def execCmbcancel (a : VField) (s : State) : Out State :=
  issue (.cmbcancel a) s fun c t =>
    t.checked c (t.slotChecks c a false)
      (.next ((c.ls.foldl (fun u l =>
        (u.closeSlot c.gr.ctx (t.slotArg c a l) .cancelled).counted c (.cmbcancel a) l) t).done c (.cmbcancel a)))

end Sys2Proof.Machine
end

