-- ==== Sys2Proof/Machine/Moves.lean ====
section
/-!
DEFINITION. Moves between register classes, predicate logic, and the instructions that write uniform registers (R388, R389, R398, R412,
R413, R417, R421).
-/

namespace Sys2Proof.Machine

/-- An instruction that writes a uniform register parks on a pending source (Table 4.3). -/
def uni (u : Alu) : Alu := { u with parks := true }

/-- A uniform form with a B operand. -/
def uni2 (d a : SField) (b : BOp) (g : Word → Word → Word) : Alu := uni (alu2 (s1 d) (s1 a) b.s g)

/-- MOV FN 0 (R388). -/
def movAlu (d a : VField) : Alu := vec1 d a fun x => x
/-- MOV FN 1. -/
def movVSAlu (d : VField) (a : SField) : Alu := alu1 (v1 d) (s1 a) fun x => x
/-- MOV FN 3. -/
def movPPAlu (d a : PField) : Alu := alu1 (p1 d) (p1 a) fun x => x
/-- MOV FN 4: acts once for its issue set. -/
def movSSAlu (d a : SField) : Alu := uni (alu1 (s1 d) (s1 a) fun x => x)
/-- MOV FN 5. -/
def movVPAlu (d : VField) (a : PField) : Alu := alu1 (v1 d) (p1 a) fun x => x
/-- MOV FN 6. -/
def movPVAlu (d : PField) (a : VField) : Alu := alu1 (p1 d) (v1 a) fun x => bitWord (x != 0)

/-- A member of the PAND family: bit l of a literal gives lane l (R398). -/
def predAlu (d a : PField) (b : POp) (g : Bool → Bool → Bool) : Alu :=
  { srcs := p1 a ++ b.p, dsts := p1 d
    f := fun e w => [bitWord (g (opn w 0 != 0) (b.bit e.lane (opn w 1)))] }

/-- PAND (R398). -/
def pandAlu (d a : PField) (b : POp) : Alu := predAlu d a b (· && ·)
/-- POR (R398). -/
def porAlu (d a : PField) (b : POp) : Alu := predAlu d a b (· || ·)
/-- PXOR (R398). -/
def pxorAlu (d a : PField) (b : POp) : Alu := predAlu d a b xor
/-- PNOT (R398). -/
def pnotAlu (d a : PField) : Alu := alu1 (p1 d) (p1 a) fun x => bitWord (x == 0)

/-- SMOVI (R421). -/
def smoviAlu (d : SField) (i : BitVec 18) : Alu := uni { srcs := [], dsts := s1 d, f := fun _ _ => [i.signExtend 32] }
/-- SADD (R412). -/
def saddAlu (d a : SField) (b : BOp) : Alu := uni2 d a b (· + ·)
/-- SSUB (R412). -/
def ssubAlu (d a : SField) (b : BOp) : Alu := uni2 d a b (· - ·)
/-- SMUL (R412). -/
def smulAlu (d a : SField) (b : BOp) : Alu := uni2 d a b (· * ·)
/-- SAND (R412). -/
def sandAlu (d a : SField) (b : BOp) : Alu := uni2 d a b (· &&& ·)
/-- SOR (R412). -/
def sorAlu (d a : SField) (b : BOp) : Alu := uni2 d a b (· ||| ·)
/-- SXOR (R412). -/
def sxorAlu (d a : SField) (b : BOp) : Alu := uni2 d a b (· ^^^ ·)
/-- SSHL (R412). -/
def sshlAlu (d a : SField) (b : BOp) : Alu := uni2 d a b fun x y => w32 (shlNat 32 x.toNat y.toNat)
/-- SSHR (R412). -/
def sshrAlu (d a : SField) (b : BOp) : Alu := uni2 d a b fun x y => w32 (shrNat 32 x.toNat y.toNat)
/-- SMIN (R412). -/
def sminAlu (d a : SField) (b : BOp) : Alu := uni2 d a b (minResult false)
/-- SMAX (R412). -/
def smaxAlu (d a : SField) (b : BOp) : Alu := uni2 d a b (maxResult false)
/-- SADD.64 (R412). -/
def sadd64Alu (d a : SField) (b : BOp) : Alu := uni (alu64 (s2 d) (s2 a) b.s2 (· + ·))
/-- SADDI (R413). -/
def saddiAlu (d a : SField) (i : BitVec 11) : Alu := uni (alu1 (s1 d) (s1 a) fun x => x + imm11 i)
/-- SCMP (R417): the bit goes into pD of every active lane. -/
def scmpAlu (c : ICond) (d : PField) (a : SField) (b : BOp) : Alu :=
  alu2 (p1 d) (s1 a) b.s fun x y => bitWord (icondHolds c x y)

/-- What a lane slot supplies to another lane: 0 if its thread has finished or it is empty (R388, R418). -/
def State.slotValue (s : State) (x : Group) (l : Nat) (o : Opd) : Word := if (x.lane l).fin then 0 else s.readOpd x l o

/-- MOV FN 2 (R388): also parks while A is pending in lane l. -/
def execMovSV (d : SField) (a : VField) (b : BOp) (s : State) : Out State :=
  issue (.movSV d a b) s fun c t =>
    let l := (t.readOpd c.x c.l0 (b.v.headD (.imm 0))).toNat % 32
    let o := Opd.v a.toNat
    if !(c.x.lane l).fin && c.x.isPending l o then .next ((t.parkLanes c.g c.ls).count (coreOf c.g) c.gr.ctx 4 c.ls.length)
    else
      .next ((t.modGroup c.g fun x => x.writeReg c.l0 (.s d.toNat) (t.slotValue c.x l o)).done c (.movSV d a b))

/-! ### Issued as words -/

/-- MOV, issued. -/
def execMov (d a : VField) (s : State) : Out State :=
  issueAlu (.mov d a) (movAlu d a) s

/-- MOVVS, issued. -/
def execMovVS (d : VField) (a : SField) (s : State) : Out State :=
  issueAlu (.movVS d a) (movVSAlu d a) s

/-- MOVPP, issued. -/
def execMovPP (d a : PField) (s : State) : Out State :=
  issueAlu (.movPP d a) (movPPAlu d a) s

/-- MOVSS, issued. -/
def execMovSS (d a : SField) (s : State) : Out State :=
  issueAlu (.movSS d a) (movSSAlu d a) s

/-- MOVVP, issued. -/
def execMovVP (d : VField) (a : PField) (s : State) : Out State :=
  issueAlu (.movVP d a) (movVPAlu d a) s

/-- MOVPV, issued. -/
def execMovPV (d : PField) (a : VField) (s : State) : Out State :=
  issueAlu (.movPV d a) (movPVAlu d a) s

/-- PAND, issued. -/
def execPand (d a : PField) (b : POp) (s : State) : Out State :=
  issueAlu (.pand d a b) (pandAlu d a b) s

/-- POR, issued. -/
def execPor (d a : PField) (b : POp) (s : State) : Out State :=
  issueAlu (.por d a b) (porAlu d a b) s

/-- PXOR, issued. -/
def execPxor (d a : PField) (b : POp) (s : State) : Out State :=
  issueAlu (.pxor d a b) (pxorAlu d a b) s

/-- PNOT, issued. -/
def execPnot (d a : PField) (s : State) : Out State :=
  issueAlu (.pnot d a) (pnotAlu d a) s

/-- SMOVI, issued. -/
def execSmovi (d : SField) (imm : BitVec 18) (s : State) : Out State :=
  issueAlu (.smovi d imm) (smoviAlu d imm) s

/-- SADD, issued. -/
def execSadd (d a : SField) (b : BOp) (s : State) : Out State :=
  issueAlu (.sadd d a b) (saddAlu d a b) s

/-- SSUB, issued. -/
def execSsub (d a : SField) (b : BOp) (s : State) : Out State :=
  issueAlu (.ssub d a b) (ssubAlu d a b) s

/-- SMUL, issued. -/
def execSmul (d a : SField) (b : BOp) (s : State) : Out State :=
  issueAlu (.smul d a b) (smulAlu d a b) s

/-- SAND, issued. -/
def execSand (d a : SField) (b : BOp) (s : State) : Out State :=
  issueAlu (.sand d a b) (sandAlu d a b) s

/-- SOR, issued. -/
def execSor (d a : SField) (b : BOp) (s : State) : Out State :=
  issueAlu (.sor d a b) (sorAlu d a b) s

/-- SXOR, issued. -/
def execSxor (d a : SField) (b : BOp) (s : State) : Out State :=
  issueAlu (.sxor d a b) (sxorAlu d a b) s

/-- SSHL, issued. -/
def execSshl (d a : SField) (b : BOp) (s : State) : Out State :=
  issueAlu (.sshl d a b) (sshlAlu d a b) s

/-- SSHR, issued. -/
def execSshr (d a : SField) (b : BOp) (s : State) : Out State :=
  issueAlu (.sshr d a b) (sshrAlu d a b) s

/-- SMIN, issued. -/
def execSmin (d a : SField) (b : BOp) (s : State) : Out State :=
  issueAlu (.smin d a b) (sminAlu d a b) s

/-- SMAX, issued. -/
def execSmax (d a : SField) (b : BOp) (s : State) : Out State :=
  issueAlu (.smax d a b) (smaxAlu d a b) s

/-- SADD64, issued. -/
def execSadd64 (d a : SField) (b : BOp) (s : State) : Out State :=
  issueAlu (.sadd64 d a b) (sadd64Alu d a b) s

/-- SADDI, issued. -/
def execSaddi (d a : SField) (imm : BitVec 11) (s : State) : Out State :=
  issueAlu (.saddi d a imm) (saddiAlu d a imm) s

/-- SCMP, issued. -/
def execScmp (c : ICond) (d : PField) (a : SField) (b : BOp) (s : State) : Out State :=
  issueAlu (.scmp c d a b) (scmpAlu c d a b) s

end Sys2Proof.Machine
end

