-- ==== Sys2Proof/Machine/Control.lean ====
section
/-!
DEFINITION. Control flow: branches, jumps, calls, EXIT, rejoin barriers, the window, liveness, regrouping (R47-R55, R90, R92, R110, R111,
R323, R326-R328, R356, R378, R435, R443).
-/

namespace Sys2Proof.Machine

/-- A PC-relative target (R130). -/
def relTarget (pc : DWord) {n : Nat} (ofs : BitVec n) : DWord := pc + ofs.signExtend 64 * 4

/-- A branch whose lanes go to `to l`, or on where it is none: targets are checked, the set splits by target, and each lane
first takes the change `pre` (R44, R50, R130). -/
def State.branch (s : State) (c : Cx) (dest : Nat → Option DWord) (pre : Nat → Group → Group) : Out State :=
  s.checked c (fun l => (dest l).bind fun a => s.badTarget c.who a.toNat)
    (let t := s.modGroup c.g fun x => c.ls.foldl (fun x l => pre l x) x
     let t := t.modLanes c.g c.ls fun l y =>
       match dest l with
       | some a => { y.goto a with stamp := s.clock }
       | none => { y.advance 1 with stamp := s.clock }
     .next (t.detSplit c))

/-- BRA (R323). -/
def execBra (b : BraCond) (ofs : BitVec 14) (s : State) : Out State :=
  issue (.bra b ofs) s fun c t =>
    let takes (l : Nat) : Bool :=
      match b with
      | .always => true
      | .ifTrue p => t.readOpd c.x l (.p p.toNat) != 0
      | .ifFalse p => t.readOpd c.x l (.p p.toNat) == 0
    t.branch c (fun l => if takes l then some (relTarget c.y0.pc ofs) else none) fun _ x => x

/-- JMP (R378). -/
def execJmp (ofs : BitVec 25) (s : State) : Out State :=
  issue (.jmp ofs) s fun c t => t.branch c (fun _ => some (relTarget c.y0.pc ofs)) fun _ x => x

/-- The address after a word, as two words. -/
def linkWords (pc : DWord) : List Word := pairWords (pc + 4).toNat

/-- CALL (R326): the link pair is v1054:v1055. -/
def execCall (ofs : BitVec 25) (s : State) : Out State :=
  issue (.call ofs) s fun c t =>
    t.branch c (fun _ => some (relTarget c.y0.pc ofs)) fun l x => writeAll x l [.v 1054, .v 1055] (linkWords c.y0.pc)

/-- A target held in a register pair. -/
def Cx.pairTarget (c : Cx) (s : State) (a : VField) (l : Nat) : DWord := BitVec.ofNat 64 (s.readPair c.x l a)

/-- JMPI (R327). -/
def execJmpi (a : VField) (s : State) : Out State :=
  issue (.jmpi a) s fun c t => t.branch c (fun l => some (c.pairTarget t a l)) fun _ x => x

/-- CALLI (R327): the target is read before D is written. -/
def execCalli (d a : VField) (s : State) : Out State :=
  issue (.calli d a) s fun c t =>
    t.branch c (fun l => some (c.pairTarget t a l)) fun l x => x.writeV l d (linkWords c.y0.pc)

/-- RET (R356). -/
def execRet (a : VField) (s : State) : Out State :=
  issue (.ret a) s fun c t => t.branch c (fun l => some (c.pairTarget t a l)) fun _ x => x

/-- NOP (R356). -/
def execNop (s : State) : Out State := issue .nop s fun c t => .next (t.done c .nop)

/-- YIELD (R356): which set issues next is left to the schedule. -/
def execYield (s : State) : Out State := issue .yield s fun c t => .next (t.done c .yield)

/-- BRP (R110); under DET no register counts as pending (R117). -/
def execBrp (ifPending : Bool) (p : VField) (ofs : BitVec 14) (s : State) : Out State :=
  issue (.brp ifPending p ofs) s fun c t =>
    let pend (l : Nat) : Bool := !c.gr.pkt.det && c.x.isPending l (.v p.toNat)
    t.branch c (fun l => if pend l == ifPending then some (relTarget c.y0.pc ofs) else none) fun _ x => x

/-- WBASE (R90). -/
def execWbase (n : BitVec 7) (s : State) : Out State :=
  issue (.wbase n) s fun c t =>
    .next ((t.modLanes c.g c.ls fun _ y => { y with wb := 16 * n.toNat }).done c (.wbase n))

/-- A lane whose registers are no longer live. -/
def Lane.free (y : Lane) (rs : List Nat) : Lane :=
  { y with
    regs := y.regs.filter fun e => !rs.contains e.1
    resident := y.resident.filter fun r => !rs.contains r }

/-- VFREE (R92). -/
def execVfree (a n : BitVec 7) (s : State) : Out State :=
  issue (.vfree a n) s fun c t =>
    .next ((t.modLanes c.g c.ls fun _ y => y.free ((upto n.toNat).map fun k => y.arch (a.toNat + k))).done c
      (.vfree a n))

/-- PEND (R111): a pending register parks the lane; then it goes on. -/
def execPend (a : VField) (s : State) : Out State := issue (.pend a) s fun c t => .next (t.done c (.pend a))

/-- ENROL (R48). -/
def execEnrol (k : KField) (s : State) : Out State :=
  issue (.enrol k) s fun c t =>
    .next ((t.modGroup c.g fun x => x.setBar k.toNat (x.enrolled k.toNat ||| maskOf c.ls) (x.arrived k.toNat)).done c
      (.enrol k))

/-- A release check of one barrier in the state, with the running set of R50 after it; a release by LEAVE counts as one by JOIN there
(log 57). -/
def State.releaseBar (s : State) (c : Cx) (k : Nat) (stops : Bool) : State :=
  let r := (s.group c.g).checkRelease k s.nextId s.clock
  let t := { s.setGroup c.g r.1 with nextId := s.nextId + 32 }
  if r.2 != [] then t.detRelease c r.2 else if stops then t.detStop c else t

/-- JOIN (R48): enrolled lanes wait, the others continue at once. -/
def execJoin (k : KField) (s : State) : Out State :=
  issue (.join k) s fun c t =>
    let e := c.x.enrolled k.toNat
    let waits := c.ls.filter fun l => e.getLsbD l
    let goes := c.ls.filter fun l => !e.getLsbD l
    let t := (t.modLanes c.g waits fun _ y => { y with park := .join k.toNat, stamp := t.clock }).count (coreOf c.g) c.gr.ctx 4 waits.length
    let t := t.advance { c with ls := goes } 1
    let t := t.modGroup c.g fun x => x.setBar k.toNat e (x.arrived k.toNat ||| maskOf waits)
    .next (t.releaseBar c k.toNat (waits != []))

/-- LEAVE (R48). -/
def execLeave (k : KField) (s : State) : Out State :=
  issue (.leave k) s fun c t =>
    let t := (t.modGroup c.g fun x => x.leaveBar k.toNat (maskOf c.ls)).done c (.leave k)
    .next (t.releaseBar c k.toNat false)

/-- Accesses of lanes that finish are discarded, but a load into uniform registers, which are the group's, a remote put and an ICINV. -/
def State.dropLanes (s : State) (g : Nat) (ls : List Nat) : State :=
  let ops := tabMap s.ops fun _ o => if o.g == g then { o with lanes := o.lanes.filter fun l => !ls.contains l } else o
  { s with ops := ops.filter fun e =>
      !(e.2.g == g && e.2.lanes.isEmpty) || e.2.remote.isSome || e.2.icinv ||
        e.2.dsts.any fun d => match d.1 with | .s _ => true | _ => false }

/-- What a lane's ordered section does at the place that stands for its pixel. -/
def State.sectionOf (s : State) (c : Cx) (l : Nat) (f : State → Nat → State) : State :=
  match (c.x.lane l).frag with
  | some q => f s (sectionSync c.x.grid q.x q.y)
  | none => s

/-- What a thread has acquired happens-before the completion of its grid (R68). -/
def State.leaveKnown (s : State) (c : Cx) (l : Nat) : State :=
  let seen := (s.ordOf (s.thread c.g l)).seen
  if seen = (s.grid c.x.grid).know then s else s.modGrid c.x.grid fun gr => { gr with gained := joinTimes gr.gained seen }

/-- ORDE of the lanes that exit inside a section (R276). -/
def State.closeSections (s : State) (c : Cx) : State :=
  (c.ls.filter fun l => (c.x.lane l).inSect).foldl (fun u l => u.sectionOf c l fun u k => u.releaseAt c.g [l] .device k) s

/-- The threads of a set finish (R356): ORDE, LEAVE of every barrier, and the lane is finished; its loads are
discarded. Under DET a release that EXIT makes counts as one by JOIN (log 57). -/
def State.finishLanes (s : State) (c : Cx) : State :=
  let s := c.ls.foldl (fun t l => t.leaveKnown c l) (s.closeSections c)
  let p := c.ls.foldl (fun (p : State × List Nat) l =>
    let t := p.1
    let r := (t.group c.g).leaveAll l t.nextId t.clock
    let x := r.1.setLane l { r.1.lane l with fin := true, inSect := false, sectDone := true, park := .none, flags := [] }
    ({ t.setGroup c.g x with nextId := t.nextId + 256 }, p.2 ++ r.2)) (s, [])
  ((p.1.dropLanes c.g c.ls).detRelease c p.2).afterExit c

/-- EXIT (R356): it first waits for the thread's residuals (R113). -/
def execExit (s : State) : Out State :=
  issue .exit s fun c t =>
    t.parking c (fun l => t.entries c.g l != 0) fun c t => .next (t.finishLanes c)

/-- REGROUP (R51-R53). -/
def execRegroup (s : State) : Out State :=
  issue .regroup s fun c t =>
    let enrolled (l : Nat) : Bool := (upto 8).any fun k => (c.x.enrolled k).getLsbD l
    t.checked c (fun l => must (!enrolled l) .order 0)
      (t.parking c (fun l => t.entries c.g l != 0 || !(c.x.lane l).flagsZero) fun c t =>
        let core := coreOf c.g
        let t := (t.modLanes c.g c.ls fun _ y => { y.advance 1 with park := .stand, stamp := t.clock, pass := false }).count core c.gr.ctx 4
          c.ls.length
        let t := if c.gr.pkt.det || (t.timerOf c.x.team core).isSome then t else t.setTimer c.x.team core (some t.clock)
        .next ((t.detStop c).regroupCheck c.x.team core))

end Sys2Proof.Machine
end

