-- ==== Sys2Proof/Machine/Matrix.lean ====
section
/-!
DEFINITION. The matrix port: its commands at issue and at completion, and OPRDY (R151-R153, R195, R230-R241, R311, R312, R342,
R385-R387, R393, R394, R415, R430).
-/

namespace Sys2Proof.Machine

/-! ### Registers of the port -/

/-- A tile of a slice; 0 rows until TLD (R231). -/
def Slice.tile (x : Slice) (n : Nat) : Tile := tabGetD x.tiles n {}

/-- An accumulator of a slice. -/
def Slice.acc (x : Slice) (n : Nat) : Accum := tabGetD x.accs n {}

/-- The slice of a command. -/
def State.sliceOf (s : State) (team i : Nat) : Slice := (s.slice? team i).getD {}

/-- The tiles (false) and accumulators (true) that a port command names. -/
def portRegs : Instr → List (Bool × Nat)
  | .mma _ _ d a _ | .mmasp _ _ d a _ => [(true, d.toNat), (false, a.toNat)]
  | .conv d .. => [(true, d.toNat)]
  | .scacc d a _ => [(true, d.toNat), (true, a.toNat)]
  | .aclr d _ | .ald d .. | .astFp32 d _ | .astBf16 d _ | .mwait d => [(true, d.toNat)]
  | .tld d .. => [(false, d.toNat)]
  | _ => []

/-- The registers of a command in a port; the follower's part of a pair command names its accumulator only. -/
def MatCmd.regs (m : MatCmd) : List (Bool × Nat) := if m.follower then [(true, m.acc)] else portRegs m.ins

/-- Whether two commands of a port name a common register (R236). -/
def MatCmd.meets (a b : MatCmd) : Bool := a.own.team == b.own.team && a.regs.any fun r => b.regs.contains r

/-- The rows that a command gives a register when it performs. -/
def MatCmd.rowsOf (m : MatCmd) (r : Bool × Nat) : Option Nat :=
  match m.ins with
  | .tld d .. => if r = (false, d.toNat) then some (m.args.getD 1 0 % 512) else none
  | .aclr d _ => if r = (true, d.toNat) then m.args[0]? else none
  | .ald d .. => if r = (true, d.toNat) then m.args[1]? else none
  | _ => none

/-- Rows of a register after every command issued so far on a core. -/
def State.rowsAhead (s : State) (core team slice : Nat) (r : Bool × Nat) : Nat :=
  let x := s.sliceOf team slice
  ((s.core core).mport.filter fun m => m.own.team == team).foldl (fun n m => (m.rowsOf r).getD n)
    (if r.1 then (x.acc r.2).rows else (x.tile r.2).rows)

/-! ### Issue -/

/-- The partner of a core. -/
def partner (core : Nat) : Nat := if core % 2 = 0 then core + 1 else core - 1

/-- A check of a row count (R231, R235). -/
def rowsOk (r : Nat) : Bool := 16 ≤ r && r ≤ 256 && r % 16 == 0

/-- A command joins the port of its core, and its follower's part the port of the partner. -/
def State.joinPort (s : State) (c : Cx) (i : Instr) (m : MatCmd) : Out State :=
  let core := coreOf c.g
  let t := { s with nextId := s.nextId + 1 }.modCore core fun k => { k with mport := k.mport ++ [m] }
  let t :=
    if m.pair then
      t.modCore (partner core) fun k =>
        { k with mport := k.mport ++
            [{ m with follower := true, slice := (s.team c.x.team).cores.findIdx fun k => k == partner core }] }
    else t
  .next (t.commanded c i)

/-- What happens-before the issue of an instruction by a set. -/
def State.knownTo (s : State) (c : Cx) : Tab Nat := s.seenOf c.g c.ls

/-- A command of the set in focus. -/
def State.portCmd (s : State) (c : Cx) (i : Instr) (args : List Nat) : MatCmd :=
  { id := s.nextId, own := s.ownerOf c i, slice := s.ownSlice c, ins := i, args := args, since := s.clock, know := s.knownTo c }

/-- Checks made once, in rank order, and then the command. -/
def State.port (s : State) (c : Cx) (i : Instr) (fs : List (Option (Cause × Nat))) (m : MatCmd) : Out State :=
  s.checkedOnce c (firstOf fs) (s.joinPort c i m)

/-- A uniform operand as a number. -/
def State.uni (s : State) (c : Cx) (o : List Opd) : Nat := (s.readOpd c.x c.l0 (o.headD (.imm 0))).toNat

/-- Whether a run of bytes from a slice offset on lies below the slice's end; a run of no bytes needs an offset alone. -/
def inSlice (sa n size : Nat) : Bool := !bitAt sa 31 && (n == 0 || sa + n ≤ size)

/-- The offset of the B window in a slice (R169). -/
def windowBase : Nat := 0x600000

/-- Depth of one command per row, and bytes of a B element (Table 12.2). -/
def matDepth : MatFmt → Nat
  | .bf16 | .fp16 => 32
  | .fp8e4 | .fp8e5 | .int8 => 64
  | .vq2 => 128

/-- Bytes of an element of B. -/
def matBytes : MatFmt → Nat
  | .bf16 | .fp16 => 2
  | _ => 1

/-- The checks of s(B) (R233). -/
def windowChecks (vq2 : Bool) (sb n : Nat) : List (Option (Cause × Nat)) :=
  [must (bits sb 2 5 == 0 && (vq2 || bits sb 0 2 == 0)) .misaligned sb,
   must (sb / 128 * 128 + n ≤ 0x200000) .permission sb]

/-- MMA and MMASP at issue (R385, R386). -/
def State.mmaIssue (s : State) (c : Cx) (i : Instr) (solo : Bool) (f : MatFmt) (d : AField) (a : TField) (b : SField) :
    Out State :=
  let core := coreOf c.g
  let sb := (s.readReg c.x c.l0 (.s b.toNat)).toNat
  let n := matDepth f * 64 * matBytes f
  let m := s.rowsAhead core c.x.team (s.ownSlice c) (false, a.toNat)
  let t := s.team c.x.team
  let other := t.cores.findIdx fun k => k == partner core
  let rowsHere := s.rowsAhead core c.x.team (s.ownSlice c) (true, d.toNat) == m
  let rowsThere := solo || s.rowsAhead (partner core) c.x.team other (true, d.toNat) == m
  let paired := solo || (core % 2 == 0 && t.cores.contains (partner core))
  s.port c i (windowChecks (f == .vq2) sb n ++ [must (paired && m != 0 && rowsHere && rowsThere) .order 0])
    { s.portCmd c i [sb] with
      lat := (s.ctx c.gr.ctx).lattice.getD (sb % 4) [], pair := !solo, acc := d.toNat
      window := [(windowBase + sb / 128 * 128, n)] }

/-- MMA (R385). -/
def execMma (solo : Bool) (f : MatFmt) (d : AField) (a : TField) (b : SField) (s : State) : Out State :=
  issue (.mma solo f d a b) s fun c t => t.mmaIssue c (.mma solo f d a b) solo f d a b

/-- MMASP (R385). -/
def execMmasp (solo : Bool) (f : MatFmt) (d : AField) (a : TField) (b : SField) (s : State) : Out State :=
  issue (.mmasp solo f d a b) s fun c t => t.mmaIssue c (.mmasp solo f d a b) solo f d a b

/-- Whether the latest write of a byte is readied for a command: an OPRDY that it happens-before happens-before the command's issue
(R237). -/
def SByte.readyFor (b : SByte) (m : MatCmd) : Bool := decide (b.wrote ≤ m.since) && b.ready.any fun e => knows m.know [e.1] e.2

/-- A byte that a port command reads: its value where its latest write is readied, else undefined (R237). -/
def State.portByte (s : State) (x : Slice) (m : MatCmd) (ofs : Nat) : Byte :=
  let u := (s.freeWord (2 ^ 56 + ofs)).setWidth 8
  match tabGet x.bytes ofs with
  | none => u
  | some b => if b.readyFor m then b.val else u

/-- A run of such bytes. -/
def State.portBytes (s : State) (x : Slice) (m : MatCmd) (ofs n : Nat) : List Byte := (upto n).map fun k => s.portByte x m (ofs + k)

/-- Whether any of some bytes was written after a moment. -/
def Slice.writtenSince (x : Slice) (since : Nat) (rs : List (Nat × Nat)) : Bool :=
  rs.any fun r => (upto r.2).any fun k =>
    match tabGet x.bytes (r.1 + k) with
    | some b => decide (since < b.wrote)
    | none => false

/-- The fields of a CONV shape record (Table 12.5). -/
structure Shape where
  input : Nat
  h : Nat
  w : Nat
  c : Nat
  r : Nat
  s : Nat
  sy : Nat
  sx : Nat
  dy : Nat
  dx : Nat
  pt : Nat
  pl : Nat
  oy0 : Nat
  ox0 : Nat
  ow : Nat
  m : Nat
  pad : Nat
  fmt : Nat

/-- A shape record read. -/
def shapeOf (b : List Byte) : Shape :=
  { input := fld b 0 4, h := fld b 4 2, w := fld b 6 2, c := fld b 8 2, r := fld b 0xA 1, s := fld b 0xB 1
    sy := fld b 0xC 1, sx := fld b 0xD 1, dy := fld b 0xE 1, dx := fld b 0xF 1, pt := fld b 0x10 2, pl := fld b 0x12 2
    oy0 := fld b 0x14 2, ox0 := fld b 0x16 2, ow := fld b 0x18 2, m := fld b 0x1A 2, pad := fld b 0x1C 4
    fmt := fld b 0x20 1 }

/-- A format by its number (Table 12.2). -/
def matFmtOf : Nat → MatFmt
  | 0 => .bf16
  | 1 => .fp16
  | 2 => .fp8e4
  | 3 => .fp8e5
  | 4 => .int8
  | _ => .vq2

/-- Whether a shape record lies within Table 12.5. -/
def shapeOk (b : List Byte) : Bool :=
  let z := shapeOf b
  let e := matBytes (matFmtOf z.fmt)
  z.fmt ≤ 4 && z.input % 64 == 0 && 1 ≤ z.h && z.h ≤ 4096 && 1 ≤ z.w && z.w ≤ 4096 &&
    z.c % matDepth (matFmtOf z.fmt) == 0 && 32 ≤ z.c && z.c ≤ 4096 && 1 ≤ z.r && z.r ≤ 15 && 1 ≤ z.s && z.s ≤ 15 &&
    1 ≤ z.sy && z.sy ≤ 8 && 1 ≤ z.sx && z.sx ≤ 8 && 1 ≤ z.dy && z.dy ≤ 8 && 1 ≤ z.dx && z.dx ≤ 8 && z.pt ≤ 15 && z.pl ≤ 15 &&
    1 ≤ z.ow && z.ow ≤ 4096 && rowsOk z.m && z.pad < 2 ^ (8 * e) && zeros b 0x21 31

/-- The input place of row `m`, filter place (r, s), if it lies in the image (R241). -/
def Shape.inputAt (z : Shape) (m r s : Nat) : Option Nat :=
  let q := z.oy0 * z.ow + z.ox0 + m
  let y : Int := (q / z.ow * z.sy + r * z.dy : Nat) - (z.pt : Nat)
  let x : Int := (q % z.ow * z.sx + s * z.dx : Nat) - (z.pl : Nat)
  if 0 ≤ y && y < z.h && 0 ≤ x && x < z.w then some ((y.toNat * z.w + x.toNat) * z.c) else none

/-- Whether a record names the bytes of its filter, and those of its input. -/
def windowNamed (z : Shape) : Bool := z.fmt ≤ 4
/-- The input has rows of `ow` places. -/
def inputNamed (z : Shape) : Bool := z.fmt ≤ 4 && 1 ≤ z.ow

/-- Whether every input element lies within the slice. -/
def Shape.inSlice (z : Shape) (size : Nat) : Bool :=
  (upto z.m).all fun m => (upto z.r).all fun r => (upto z.s).all fun k =>
    match z.inputAt m r k with
    | some p => decide (z.input + (p + z.c) * matBytes (matFmtOf z.fmt) ≤ size)
    | none => true

/-- Runs of bytes of a slice that the array reads for a command's threads, in their regions (R99). -/
def State.regionPort (s : State) (m : MatCmd) (slice : Nat) (rs : List (Nat × Nat)) : State :=
  m.own.threads.foldl (fun t k => t.modRegion k fun r => rs.foldl (fun r e => r.reads (.spad m.own.team slice e.1) e.2) r) s

/-- CONV (R240-R242, R342): the record is read and checked at issue. -/
def execConv (d : AField) (a b : SField) (s : State) : Out State :=
  issue (.conv d a b) s fun c t =>
    let sa := (t.readReg c.x c.l0 (.s a.toNat)).toNat
    let sb := (t.readReg c.x c.l0 (.s b.toNat)).toNat
    let size := t.sliceBytes c
    let m := t.portCmd c (.conv d a b) [sa, sb]
    let rec' := t.portBytes (t.sliceOf c.x.team (t.ownSlice c)) m sa 64
    let z := shapeOf rec'
    let n := z.r * z.s * z.c * 64 * matBytes (matFmtOf z.fmt)
    (t.regionPort m m.slice [(sa, 64)]).port c (.conv d a b)
      [must (sa % 64 == 0) .misaligned sa, must (bits sb 0 7 == 0) .misaligned sb,
       must (sa + 64 ≤ size) .permission sa, must (!windowNamed z || sb + n ≤ 0x200000) .permission sb,
       must (!inputNamed z || z.inSlice size) .permission z.input,
       must (shapeOk rec' && t.rowsAhead (coreOf c.g) c.x.team (t.ownSlice c) (true, d.toNat) == z.m) .order 0]
      { m with record := rec', acc := d.toNat, window := [(windowBase + sb, n)] }

/-- The bytes of SCACC's row and column scales: offset and length of each (Table 22.5). -/
def scaleRuns (sb ctl rows : Nat) : (Nat × Nat) × (Nat × Nat) :=
  ((sb, if bitAt ctl 0 then rows else 4 * rows), (sb + 1024, if bitAt ctl 1 then 64 else 256))

/-- The parts of runs that lie in the B window. -/
def inWindow (rs : List (Nat × Nat)) : List (Nat × Nat) :=
  rs.filterMap fun r => if r.1 + r.2 ≤ windowBase then none else some (max r.1 windowBase, r.1 + r.2 - max r.1 windowBase)

/-- SCACC (R415). -/
def execScacc (d a : AField) (b : SField) (s : State) : Out State :=
  issue (.scacc d a b) s fun c t =>
    let sb := (t.readReg c.x c.l0 (.s b.toNat)).toNat
    let ctl := (t.readReg c.x c.l0 (.s (b.toNat + 1))).toNat
    let rows (k : AField) : Nat := t.rowsAhead (coreOf c.g) c.x.team (t.ownSlice c) (true, k.toNat)
    let runs := scaleRuns sb ctl (rows d)
    let top := max (runs.1.1 + runs.1.2) (runs.2.1 + runs.2.2)
    t.port c (.scacc d a b)
      [must (sb % 64 == 0) .misaligned sb, must (top ≤ t.sliceBytes c) .permission sb,
       must (rows d == rows a && rows d != 0 && ctl < 8) .order 0]
      { t.portCmd c (.scacc d a b) [sb, ctl] with acc := d.toNat, window := inWindow [runs.1, runs.2] }

/-- ACLR (R311). -/
def execAclr (d : AField) (b : BOp) (s : State) : Out State :=
  issue (.aclr d b) s fun c t =>
    let r := t.uni c b.s
    t.port c (.aclr d b) [must (rowsOk r) .order 0] (t.portCmd c (.aclr d b) [r])

/-- ALD (R311). -/
def execAld (d : AField) (a : SField) (b : BOp) (s : State) : Out State :=
  issue (.ald d a b) s fun c t =>
    let sa := t.uni c (s1 a)
    let r := t.uni c b.s
    t.port c (.ald d a b)
      [must (sa % 256 == 0) .misaligned sa, must (inSlice sa (256 * r) (t.sliceBytes c)) .permission sa, must (rowsOk r) .order 0]
      (t.portCmd c (.ald d a b) [sa, r])

/-- AST at issue: `w` bytes for each row. -/
def State.astIssue (s : State) (c : Cx) (i : Instr) (d : AField) (a : SField) (w : Nat) : Out State :=
  let sa := s.uni c (s1 a)
  let r := s.rowsAhead (coreOf c.g) c.x.team (s.ownSlice c) (true, d.toNat)
  s.port c i
    [must (sa % w == 0) .misaligned sa, must (inSlice sa (w * r) (s.sliceBytes c)) .permission sa]
    (s.portCmd c i [sa])

/-- AST.FP32 (R311). -/
def execAstFp32 (d : AField) (a : SField) (s : State) : Out State :=
  issue (.astFp32 d a) s fun c t => t.astIssue c (.astFp32 d a) d a 256

/-- AST.BF16 (R311). -/
def execAstBf16 (d : AField) (a : SField) (s : State) : Out State :=
  issue (.astBf16 d a) s fun c t => t.astIssue c (.astBf16 d a) d a 128

/-- TLD (R430). -/
def execTld (d : TField) (a : SField) (b : BOp) (s : State) : Out State :=
  issue (.tld d a b) s fun c t =>
    let sa := t.uni c (s1 a)
    let sb := t.uni c b.s
    let m := bits sb 0 9
    let n := if bitAt sb 31 then 80 * m else 64 * m
    t.port c (.tld d a b)
      [must (sa % 64 == 0) .misaligned sa, must (inSlice sa n (t.sliceBytes c)) .permission sa,
       must (bits sb 9 22 == 0 && rowsOk m) .order 0]
      (t.portCmd c (.tld d a b) [sa, sb])

/-- MWAIT (R393). -/
def execMwait (d : AField) (s : State) : Out State :=
  issue (.mwait d) s fun c t => t.port c (.mwait d) [] (t.portCmd c (.mwait d) [])

/-- A byte after a thread's OPRDY: its latest write is readied if it happens-before the OPRDY; of several by one thread the first counts. -/
def SByte.readied (b : SByte) (thread : Nat) (know : Tab Nat) (now : Nat) : SByte :=
  if knows know b.writers b.wrote && (tabGet b.ready thread).isNone then { b with ready := tabSet b.ready thread now } else b

/-- A slice after a thread's OPRDY (R237). -/
def Slice.readied (x : Slice) (thread : Nat) (know : Tab Nat) (now : Nat) : Slice :=
  { x with bytes := tabMap x.bytes fun _ b => b.readied thread know now }

/-- OPRDY of a lane: the writes on both cores of the pair that happen-before it are readied for the matrix ports (R237). -/
def State.readyFrom (s : State) (c : Cx) (l : Nat) : State :=
  let ks := (s.team c.x.team).cores
  let know := s.seenBy c.g l
  s.modTeam c.x.team fun tm =>
    { tm with slices := tabMap tm.slices fun k x =>
        if (ks.getD k Config.cores) / 2 = coreOf c.g / 2 then x.readied (s.thread c.g l) know s.clock else x }

/-- OPRDY (R394). -/
def execOprdy (s : State) : Out State :=
  issue .oprdy s fun c t =>
    let t := c.ls.foldl (fun u l => u.readyFrom c l) t
    .next ((c.ls.foldl (fun u l =>
      if ((c.x.lane l).flagOf .oprdy).isSome then u.launch c .oprdy l [l] [] { engine := true } else u) t).done c .oprdy)

/-! ### What the commands compute -/

/-- An element of a floating-point format. -/
def matElem (f : MatFmt) (x : Nat) : Val :=
  match f with
  | .bf16 => bf16.decode x
  | .fp16 => fp16.decode x
  | .fp8e5 => fp8e5.decode x
  | _ => fp8e4.decode x

/-- Elements of `e` bytes. -/
def elems (e : Nat) (bs : List Byte) : List Nat := (parts e (bs.length / e) bs).map leNat

/-- One step over 32 products, FP (R151). -/
def stepFp (acc : Word) (a b : List Val) : Word :=
  w32 (matrixSum (asFp acc :: (a.zip b).map fun p => matMul p.1 p.2))

/-- One step over 32 products, INT8. -/
def stepInt (acc : Word) (a b : List Nat) : Word :=
  acc + BitVec.ofInt 32 (((a.zip b).map fun p => signedOf 8 p.1 * signedOf 8 p.2).foldl (· + ·) 0)

/-- Steps of 32 in ascending order. -/
def steps {α : Type} (f : Word → List α → List α → Word) : Nat → Word → List α → List α → Word
  | 0, acc, _, _ => acc
  | h + 1, acc, a, b => steps f h (f acc (a.take 32) (b.take 32)) (a.drop 32) (b.drop 32)

/-- Column `j` of a block in B order. -/
def columns (b : List Nat) : List (List Nat) :=
  let rows := parts 64 (b.length / 64) b
  (upto 64).map fun j => rows.map fun r => r.getD j 0

/-- R234 over rows of A values, and a block of `b` patterns in B order. -/
def mmaFp (f : MatFmt) (rows : List (List Val)) (b : List Nat) (acc : List Word) : List Word :=
  let cols := (columns b).map fun c => c.map (matElem f)
  (rows.zip (parts 64 rows.length acc)).flatMap fun p =>
    (cols.zip p.2).map fun q => steps stepFp (b.length / 2048) q.2 p.1 q.1

/-- R234 in INT8. -/
def mmaInt (rows : List (List Nat)) (b : List Nat) (acc : List Word) : List Word :=
  let cols := columns b
  (rows.zip (parts 64 rows.length acc)).flatMap fun p =>
    (cols.zip p.2).map fun q => steps stepInt (b.length / 2048) q.2 p.1 q.1

/-- A tile's rows as values, through the lattice table for VQ2; `sparse` zeroes the unmarked elements. -/
def tileVals (f : MatFmt) (lat : List (BitVec 16)) (sparse : Bool) (t : Tile) : List (List Val) :=
  let mask (i k : Nat) : Bool :=
    !sparse || (if k < 64 then (t.bitmap.getD i 0).getLsbD k else (t.bitmapHi.getD i 0).getLsbD (k - 64))
  let vals (row : List Byte) : List Val :=
    match f with
    | .vq2 => (elems 2 (row.take 32)).flatMap (vq2Weights lat)
    | _ => (elems (matBytes f) row).map (matElem f)
  ((parts 64 t.rows t.bytes).zip (upto t.rows)).map fun p =>
    ((vals p.1).zip (upto (matDepth f))).map fun q => if mask p.2 q.2 then q.1 else .fin false 0 0

/-- A tile's INT8 patterns, unmarked elements zero. -/
def tileInts (sparse : Bool) (t : Tile) : List (List Nat) :=
  ((parts 64 t.rows t.bytes).zip (upto t.rows)).map fun p =>
    ((elems 1 p.1).zip (upto 64)).map fun q => if !sparse || (t.bitmap.getD p.2 0).getLsbD q.2 then q.1 else 0

/-- R234 for a tile. -/
def mmaTile (f : MatFmt) (lat : List (BitVec 16)) (sparse : Bool) (t : Tile) (b : List Nat) (acc : List Word) : List Word :=
  if f = .int8 then mmaInt (tileInts sparse t) b acc else mmaFp f (tileVals f lat sparse t) b acc

/-- The undefined words of a result. -/
def State.freeCells (s : State) (salt n : Nat) : List Word := s.freeWords (2 ^ 57 + salt * 2 ^ 20) n

/-- An accumulator of a slice replaced. -/
def State.setAcc (s : State) (team slice d : Nat) (a : Accum) : State :=
  s.modSlice team slice fun x => { x with accs := tabSet x.accs d a }

/-- One core's part of MMA or MMASP (R234): the tile stands in slice `ti`, B and the accumulator in slice `si`. -/
def State.mmaPart (s : State) (m : MatCmd) (f : MatFmt) (sparse : Bool) (a : TField) (ti si : Nat) (spoiled : Bool) : State :=
  let x := s.sliceOf m.own.team si
  let t := (s.sliceOf m.own.team ti).tile a.toNat
  let acc := x.acc m.acc
  let (ofs, n) := m.window.headD (0, 0)
  let cells :=
    if spoiled then s.freeCells si (64 * acc.rows)
    else mmaTile f m.lat sparse t (elems (matBytes f) (s.portBytes x m ofs n)) acc.cells
  s.setAcc m.own.team si m.acc { acc with cells := cells }

/-- Row `m` of a CONV's generated A (R241). -/
def convRow (z : Shape) (e : Nat) (input : Nat → Nat → List Byte) (m : Nat) : List Nat :=
  (upto z.r).flatMap fun r => (upto z.s).flatMap fun k =>
    match z.inputAt m r k with
    | some p => elems e (input (z.input + p * e) (z.c * e))
    | none => List.replicate z.c z.pad

/-- CONV performs (R240). -/
def State.convPart (s : State) (m : MatCmd) : State :=
  let z := shapeOf m.record
  let f := matFmtOf z.fmt
  let x := s.sliceOf m.own.team m.slice
  let acc := x.acc m.acc
  let (ofs, n) := m.window.headD (0, 0)
  let cells :=
    if x.writtenSince m.since m.window then s.freeCells m.slice (64 * acc.rows)
    else
      let rows := (upto z.m).map (convRow z (matBytes f) (s.portBytes x m))
      let b := elems (matBytes f) (s.portBytes x m ofs n)
      if f = .int8 then mmaInt rows b acc.cells else mmaFp f (rows.map fun r => r.map (matElem f)) b acc.cells
  s.setAcc m.own.team m.slice m.acc { acc with cells := cells }

/-- A scale of SCACC: E8M0 or FP32. -/
def scaleVal (e8 : Bool) (bs : List Byte) (k : Nat) : Val :=
  if e8 then e8m0 (fld bs k 1) else fp32.decode (fld bs (4 * k) 4)

/-- SCACC performs (R153, R415): scale bytes of the B window written meanwhile make its result undefined (R195). A zero partial sum or scale
with a NaN or an infinity gives NaN: R151's word on a zero factor is read as one on the products of matrix steps (log 69). -/
def State.scaccPart (s : State) (m : MatCmd) (a : AField) : State :=
  let sb := m.args.getD 0 0
  let ctl := m.args.getD 1 0
  let x := s.sliceOf m.own.team m.slice
  let f := x.acc m.acc
  let p := x.acc a.toNat
  let runs := scaleRuns sb ctl f.rows
  let rs := s.portBytes x m runs.1.1 runs.1.2
  let cs := s.portBytes x m runs.2.1 runs.2.2
  let term (i j : Nat) (w : Word) : Val :=
    let v := if bitAt ctl 2 then Val.ofInt w.toInt else asFp w
    ((scaleVal (bitAt ctl 0) rs i).mul (scaleVal (bitAt ctl 1) cs j)).mul v
  let cells :=
    if x.writtenSince m.since m.window then s.freeCells m.slice (64 * f.rows)
    else
      ((f.cells.zip p.cells).zip (upto (64 * f.rows))).map fun q =>
        w32 (matrixSum [asFp q.1.1, term (q.2 / 64) (q.2 % 64) q.1.2])
  s.setAcc m.own.team m.slice m.acc { f with cells := cells }

/-- TLD performs (R231, R430). -/
def State.tldPart (s : State) (m : MatCmd) (d : TField) : State :=
  let sa := m.args.getD 0 0
  let sb := m.args.getD 1 0
  let rows := bits sb 0 9
  let x := s.sliceOf m.own.team m.slice
  let bs := s.portBytes x m sa (64 * rows)
  let map := s.portBytes x m (sa + 64 * rows) (16 * rows)
  let half (k : Nat) : List DWord :=
    if bitAt sb 31 then (upto rows).map fun i => BitVec.ofNat 64 (fld map (16 * i + 8 * k) 8)
    else List.replicate rows (BitVec.allOnes 64)
  s.modSlice m.own.team m.slice fun x => { x with tiles := tabSet x.tiles d.toNat ⟨rows, bs, half 0, half 1⟩ }

/-- ALD performs. -/
def State.aldPart (s : State) (m : MatCmd) (d : AField) : State :=
  let r := m.args.getD 1 0
  let bs := s.portBytes (s.sliceOf m.own.team m.slice) m (m.args.getD 0 0) (256 * r)
  s.setAcc m.own.team m.slice d.toNat ⟨r, (elems 4 bs).map w32⟩

/-- AST performs. -/
def State.astPart (s : State) (m : MatCmd) (core : Nat) (d : AField) (f : Word → List Byte) : State :=
  let a := (s.sliceOf m.own.team m.slice).acc d.toNat
  let loc : Loc := .spad m.own.team m.slice (m.args.getD 0 0)
  let bs := a.cells.flatMap f
  let t := (s.writeLoc (dieOf core) loc bs).stamp loc bs.length (m.own.writers ++ m.own.threads.map fun t => accumKey t d.toNat) []
  m.own.threads.foldl (fun t k => t.modRegion k fun r => r.writes ⟨0, loc, bs.length⟩) t

/-- The bytes of its own slice that a port command reads as it performs, CONV's record being read before. -/
def State.portRuns (s : State) (m : MatCmd) : List (Nat × Nat) :=
  let sa := m.args.getD 0 0
  let sb := m.args.getD 1 0
  match m.ins with
  | .mma .. | .mmasp .. => m.window
  | .conv .. =>
    let z := shapeOf m.record
    let e := matBytes (matFmtOf z.fmt)
    m.window ++ (upto z.m).flatMap fun j => (upto z.r).flatMap fun r => (upto z.s).filterMap fun k =>
      (z.inputAt j r k).map fun p => (z.input + p * e, z.c * e)
  | .scacc .. =>
    let rs := scaleRuns sa sb ((s.sliceOf m.own.team m.slice).acc m.acc).rows
    [rs.1, rs.2]
  | .tld .. => [(sa, (if bitAt sb 31 then 80 else 64) * bits sb 0 9)]
  | .ald .. => [(sa, 256 * sb)]
  | _ => []

/-- The regions of a command's threads after what it reads as it performs, in the partner's slice too (R99). -/
def State.portReads (s : State) (core : Nat) (m : MatCmd) : State :=
  let t := s.regionPort m m.slice (s.portRuns m)
  if m.pair then t.regionPort m ((s.team m.own.team).cores.findIdx fun k => k == partner core) m.window else t

/-- The commands completed on a core and its partner, changed by a function. -/
def State.modDone (s : State) (core : Nat) (f : List MatCmd → List MatCmd) : State :=
  let change (t : State) (k : Nat) : State := t.modCore k fun c => { c with munwaited := f c.munwaited }
  change (change s core) (partner core)

/-- An accumulator written anew no longer holds the results of earlier commands. -/
def State.overwrite (s : State) (core : Nat) (m : MatCmd) (d : AField) : State :=
  s.modDone core fun us => us.map fun u =>
    if u.own.team == m.own.team && u.acc == d.toNat && decide (u.id < m.id) then { u with held := false } else u

/-- Commands that an MWAIT has waited for, and that drew on none that no MWAIT has, are done with (R195). -/
def settled (us : List MatCmd) : List MatCmd :=
  us.filter fun u => !u.done || u.drew.any fun k => us.any fun v => v.id == k && !v.done

/-- An MWAIT for an accumulator completes. -/
def State.settle (s : State) (core : Nat) (m : MatCmd) (d : AField) : State :=
  s.modDone core fun us => settled (us.map fun u =>
    if u.own.team == m.own.team && u.acc == d.toNat && decide (u.id < m.id) then { u with done := true } else u)

/-- The commands whose results accumulators hold, with those that they drew on. -/
def State.drawn (s : State) (core team : Nat) (accs : List Nat) : List Nat :=
  let us := (s.core core).munwaited.filter fun u => u.own.team == team && u.put.isNone && u.held && accs.contains u.acc
  us.flatMap fun u => u.id :: u.drew

/-- A command of a port performs. -/
def State.performPort (s : State) (core : Nat) (m : MatCmd) : State :=
  match m.ins with
  | .mma _ f _ a _ | .mmasp _ f _ a _ =>
    let sparse := match m.ins with | .mmasp .. => true | _ => false
    let there := (s.team m.own.team).cores.findIdx fun k => k == partner core
    let spoiled := (s.sliceOf m.own.team m.slice).writtenSince m.since m.window ||
      (m.pair && (s.sliceOf m.own.team there).writtenSince m.since m.window)
    let t := s.mmaPart m f sparse a m.slice m.slice spoiled
    if m.pair then t.mmaPart m f sparse a m.slice there spoiled else t
  | .conv .. => s.convPart m
  | .scacc _ a _ => s.scaccPart m a
  | .tld d .. => s.tldPart m d
  | .aclr d _ =>
    let r := m.args.getD 0 0
    (s.setAcc m.own.team m.slice d.toNat ⟨r, List.replicate (64 * r) 0⟩).overwrite core m d
  | .ald d .. => (s.aldPart m d).overwrite core m d
  | .astFp32 d _ => s.astPart m core d fun w => leBytes 4 w.toNat
  | .astBf16 d _ => s.astPart m core d fun w => leBytes 2 (bf16.round .rne (asFp w))
  | .mwait d =>
    m.own.threads.foldl (fun t k => t.modOrd k fun o =>
      { o with waited := o.waited ++ (m.own.flag.toList.map fun f => (f, d.toNat, s.clock)) }) (s.settle core m d)
  | _ => s

/-- Whether R195 applies to a command after it has completed. -/
def awaited : Instr → Bool
  | .mma .. | .mmasp .. | .conv .. | .scacc .. | .astFp32 .. | .astBf16 .. => true
  | _ => false

/-- What is kept of a command on a core as it completes: what it drew on, and what an AST has written. -/
def State.doneAs (s : State) (core : Nat) (m : MatCmd) : MatCmd :=
  let ast (d : AField) (e : Nat) : MatCmd :=
    { m with
      acc := d.toNat, drew := s.drawn core m.own.team [d.toNat]
      put := some (m.args.getD 0 0, e * ((s.sliceOf m.own.team m.slice).acc d.toNat).cells.length, s.clock) }
  match m.ins with
  | .scacc _ a _ => { m with drew := s.drawn core m.own.team [m.acc, a.toNat] }
  | .astFp32 d _ => ast d 4
  | .astBf16 d _ => ast d 2
  | _ => m

/-- Whether no earlier command of a port names a register of one of its commands (R236). -/
def State.freeIn (s : State) (core : Nat) (m : MatCmd) : Bool :=
  ((s.core core).mport.takeWhile fun e => e.id != m.id).all fun e => !e.meets m

/-- The core whose port a command stands in, the leader's for a pair command. -/
def State.portOf (s : State) (id : Nat) : Nat :=
  ((s.cores.find? fun e => e.2.mport.any fun m => m.id == id && !m.follower).map (·.1)).getD 0

/-- The command `id` of a port, if nothing before it on its ports holds it back: commands with no common register overlap, and complete
in any order (R236, R446). -/
def State.portFree (s : State) (core id : Nat) : Option MatCmd :=
  (s.core core).mport.find? fun m =>
    m.id == id && !m.follower && s.freeIn core m &&
      (!m.pair || (((s.core (partner core)).mport.find? fun e => e.id == m.id).all (s.freeIn (partner core))))

/-- A port command completes: it leaves its ports, and stays among those that an MWAIT has yet to wait for. -/
def State.portDone (s : State) (core : Nat) (m : MatCmd) : State :=
  let leave (t : State) (k : Nat) : State :=
    t.modCore k fun c =>
      { c with
        mport := c.mport.filter fun e => e.id != m.id
        munwaited := c.munwaited ++ (if awaited m.ins then (c.mport.filter fun e => e.id == m.id).map (s.doneAs k) else []) }
  let t := (s.portReads core m).performPort core m
  let t := if m.pair then leave (leave t core) (partner core) else leave t core
  t.ownerDone m.own

end Sys2Proof.Machine
end

