-- ==== Sys2Proof/Machine/Lanes.lean ====
section
/-!
DEFINITION. Instructions across the lanes of an issue set: SHFL, VOTE, REDUCE, SCAN, QAMAX, QCVT (R46, R154-R156, R402-R404, R416,
R418, R439), and ENVRD and ELECT (R350, R354).
-/

namespace Sys2Proof.Machine

/-! ### The tree of R155 -/

/-- One level: adjacent results combined, the lower lanes on the left. -/
def pairUp (f : Word → Word → Word) : List Word → List Word
  | a :: b :: r => f a b :: pairUp f r
  | l => l

/-- The root over 32 leaves. -/
def treeRoot (f : Word → Word → Word) (l : List Word) : Word :=
  (pairUp f (pairUp f (pairUp f (pairUp f (pairUp f l))))).headD 0

/-- Operation and identity of a REDUCE (Table 6.7). -/
def redOp : RedOp → (Word → Word → Word) × Word
  | .iadd => ((· + ·), 0)
  | .imin => (minResult false, 0x7FFFFFFF)
  | .imax => (maxResult false, 0x80000000)
  | .umin => (minResult true, 0xFFFFFFFF)
  | .umax => (maxResult true, 0)
  | .and => ((· &&& ·), 0xFFFFFFFF)
  | .or => ((· ||| ·), 0)
  | .xor => ((· ^^^ ·), 0)
  | .fadd => (faddW, 0x80000000)
  | .fmin => (fminW, 0x7F800000)
  | .fmax => (fmaxW, 0xFF800000)

/-- Operation and identity of a SCAN. -/
def scanOp : ScanOp → (Word → Word → Word) × Word
  | .iadd => redOp .iadd
  | .fadd => redOp .fadd
  | .imax => redOp .imax
  | .imin => redOp .imin

/-- The leaves: selected lanes supply A, every other lane the identity. -/
def leaves (e : Word) (sel : Nat → Bool) (v : Nat → Word) : List Word := (upto 32).map fun l => if sel l then v l else e

/-- Whether a lane is active and selected by the mask operand B. -/
def Cx.selected (c : Cx) (s : State) (b : POp) (l : Nat) : Bool :=
  c.ls.contains l && b.bit l (s.readOpd c.x l (b.p.headD (.imm 0)))

/-- A of a lane. -/
def Cx.vecA (c : Cx) (s : State) (a : VField) (l : Nat) : Word := s.readOpd c.x l (.v a.toNat)

/-- A predicate of a lane. -/
def Cx.predA (c : Cx) (s : State) (a : PField) (l : Nat) : Bool := s.readOpd c.x l (.p a.toNat) != 0

/-- A value written to a register of every active lane. -/
def State.writeEach (s : State) (c : Cx) (o : Opd) (v : Nat → Word) : State :=
  s.modGroup c.g fun x => c.ls.foldl (fun x l =>
    match o.reg (c.x.lane l) with
    | some r => x.writeReg l r (v l)
    | none => x) x

/-- An instruction whose results are written before the issue set's next word. -/
def State.finish (s : State) (c : Cx) (i : Instr) (o : Opd) (v : Nat → Word) : Out State :=
  .next ((s.writeEach c o v).done c i)

/-- REDUCE (R404). -/
def execReduce (op : RedOp) (d : SField) (a : VField) (b : POp) (s : State) : Out State :=
  issue (.reduce op d a b) s fun c t =>
    t.finish c (.reduce op d a b) (.s d.toNat) fun _ =>
      treeRoot (redOp op).1 (leaves (redOp op).2 (c.selected t b) (c.vecA t a))

/-- SCAN (R416). -/
def execScan (excl : Bool) (op : ScanOp) (d a : VField) (b : POp) (s : State) : Out State :=
  issue (.scan excl op d a b) s fun c t =>
    t.finish c (.scan excl op d a b) (.v d.toNat) fun i =>
      treeRoot (scanOp op).1 (leaves (scanOp op).2
        (fun l => c.selected t b l && (if excl then decide (l < i) else decide (l ≤ i))) (c.vecA t a))

/-- VOTE.ANY (R439). -/
def execVoteAny (d a : PField) (s : State) : Out State :=
  issue (.voteAny d a) s fun c t =>
    t.finish c (.voteAny d a) (.p d.toNat) fun _ => bitWord (c.ls.any (c.predA t a))

/-- VOTE.ALL (R439). -/
def execVoteAll (d a : PField) (s : State) : Out State :=
  issue (.voteAll d a) s fun c t =>
    t.finish c (.voteAll d a) (.p d.toNat) fun _ => bitWord (c.ls.all (c.predA t a))

/-- VOTE.BALLOT (R439). -/
def execVoteBallot (d : SField) (a : PField) (s : State) : Out State :=
  issue (.voteBallot d a) s fun c t =>
    t.finish c (.voteBallot d a) (.s d.toNat) fun _ => maskOf (c.ls.filter (c.predA t a))

/-- VOTE.COUNT (R439). -/
def execVoteCount (d : VField) (a : PField) (s : State) : Out State :=
  issue (.voteCount d a) s fun c t =>
    t.finish c (.voteCount d a) (.v d.toNat) fun _ => w32 (c.ls.filter (c.predA t a)).length

/-- ELECT (R350). -/
def execElect (d : PField) (s : State) : Out State :=
  issue (.elect d) s fun c t => t.finish c (.elect d) (.p d.toNat) fun l => bitWord (l == c.l0)

/-! ### SHFL -/

/-- The source lane of SHFL (R418). -/
def shflSource (w : Nat) (m : ShflMode) (l b : Nat) : Nat :=
  let o := l % w
  let base := l - o
  match m with
  | .idx => base + b % w
  | .up => if b ≤ o then l - b else l
  | .down => if o + b < w then l + b else l
  | .xor => base + ((BitVec.ofNat 32 o) ^^^ (BitVec.ofNat 32 (b % w))).toNat

/-- The width of a SHFL sub-group. -/
def shflWidth : ShflWidth → Nat
  | .w32 => 32
  | .w16 => 16
  | .w8 => 8
  | .w4 => 4

/-- SHFL (R418): D is pending until written; a lane outside the set whose A is pending supplies it when it lands. -/
def execShfl (w : ShflWidth) (m : ShflMode) (d a : VField) (b : BOp) (s : State) : Out State :=
  issue (.shfl w m d a b) s fun c t =>
    let one (u : State) (l : Nat) : State :=
      let src := shflSource (shflWidth w) m l (t.readOpd c.x l (b.v.headD (.imm 0))).toNat
      let o := Opd.v a.toNat
      let tag := if (c.x.lane src).fin then none else (o.reg (c.x.lane src)).bind (c.x.pending src)
      u.launch c (.shfl w m d a b) l [l] [.v ((c.x.lane l).arch d.toNat)]
        { vals := [t.slotValue c.x src o], awaits := tag }
    .next ((c.ls.foldl one t).done c (.shfl w m d a b))

/-! ### Blocks (R154, R402, R403) -/

/-- Lanes of the block of a lane. -/
def blockOf (n32 : Bool) (l : Nat) : List Nat := if n32 then upto 32 else (upto 16).map (l / 16 * 16 + ·)

/-- The contributions of a block: active lanes supply A, the others +0. -/
def Cx.block (c : Cx) (s : State) (n32 : Bool) (a : VField) (l : Nat) : List Word :=
  (blockOf n32 l).map fun k => if c.ls.contains k then c.vecA s a k else 0

/-- The largest magnitude of a block, in FP32. -/
def absMax (l : List Word) : Word := l.foldl (fun m w => fmaxW m (w &&& 0x7FFFFFFF)) 0

/-- QAMAX (R402). -/
def execQamax (n32 : Bool) (d a : VField) (s : State) : Out State :=
  issue (.qamax n32 d a) s fun c t =>
    t.finish c (.qamax n32 d a) (.v d.toNat) fun l => absMax (c.block t n32 a l)

/-- `H_n x` (R154): each element a MatrixSum of signed terms. -/
def hadamardBlock (xs : List Word) : List Word :=
  (upto xs.length).map fun i =>
    w32 (matrixSum ((upto xs.length).map fun j =>
      let v := asFp (xs.getD j 0)
      if popcount 6 ((BitVec.ofNat 6 i) &&& (BitVec.ofNat 6 j)).toNat % 2 = 1 then v.neg else v))

/-- Scale exponent and quantisation of a format Q. -/
def quantExp : QuantFmt → Int
  | .fp8e4 => 8
  | .fp8e5 => 15
  | .int8 => 6

/-- The scale exponent of a block maximum: `⌊log2 a⌋ - e_Q`, clamped. -/
def scaleExp (q : QuantFmt) (a : Word) : Int :=
  match asFp a with
  | .fin _ m e => if m = 0 then -127 else max (-127) (min 127 (log2Of m e - quantExp q))
  | _ => 127

/-- A value divided by `2^x`. -/
def Val.shift (v : Val) (x : Int) : Val :=
  match v with
  | .fin s m e => .fin s m (e - x)
  | v => v

/-- A float element, overflow clamped to the largest finite value. -/
def quantFp (f : Fmt) (v : Val) : Nat :=
  let x := f.round .rne v
  if x % 2 ^ (f.ebits + f.mbits) = f.infBits then f.signed v.isNeg f.maxBits else x

/-- An element of a block (R154, step 4). -/
def quantElem (q : QuantFmt) (v : Val) : Nat :=
  match q with
  | .fp8e4 => quantFp fp8e4 v
  | .fp8e5 => quantFp fp8e5 v
  | .int8 => wrap 8 (roundClamp .rne (-127) 127 v)

/-- The canonical NaN of Q, or 0 for INT8. -/
def quantNan : QuantFmt → Nat
  | .fp8e4 => fp8e4.nan
  | .fp8e5 => fp8e5.nan
  | .int8 => 0

/-- Element and scale of one lane of a block (R403). -/
def quantLane (q : QuantFmt) (ys : List Word) (k : Nat) : Word :=
  let a := absMax ys
  match asFp a with
  | .fin _ m _ =>
    if m = 0 then 0
    else
      let x := scaleExp q a
      w32 (quantElem q ((asFp (ys.getD k 0)).shift x) + 256 * (x + 127).toNat)
  | _ => w32 (quantNan q + 0xFF00)

/-- QCVT (R403). -/
def execQcvt (q : QuantFmt) (hadamard n32 : Bool) (d a : VField) (s : State) : Out State :=
  issue (.qcvt q hadamard n32 d a) s fun c t =>
    t.finish c (.qcvt q hadamard n32 d a) (.v d.toNat) fun l =>
      let xs := c.block t n32 a l
      quantLane q (if hadamard then hadamardBlock xs else xs) (if n32 then l else l % 16)

/-! ### ENVRD -/

/-- Whether a die is in service, neither parked nor quiescing (R15). -/
def State.dieUp (s : State) (d : Nat) : Bool :=
  match tabGet s.dies d with
  | some x => x.inService && !x.quiescing && !x.parked
  | none => false

/-- Cores in service that are not quarantined. -/
def State.coresInService (s : State) : Nat :=
  ((upto Config.cores).filter fun k => s.dieUp (dieOf k) && !(s.core k).quarantined).length

/-- A field of a packet as its bytes hold it. -/
def Packet.at (p : Packet) (ofs n : Nat) : Nat := leNat ((p.raw.drop ofs).take n)

/-- The coordinates of a team. -/
def teamCoord (p : Packet) (tid k : Nat) : Nat :=
  match k with
  | 0 => tid % p.gx
  | 1 => tid / p.gx % p.gy
  | _ => tid / (p.gx * p.gy)

/-- The slice of a core of a team. -/
def Team.sliceOf (t : Team) (core : Nat) : Nat := t.cores.findIdx fun c => c == core

/-- The phase of a die's refresh period at a moment (R174). -/
def Die.phaseAt (d : Die) (now : Nat) : Nat :=
  match d.phaseNext with
  | some (p, t) => if t ≤ now then p else d.phase
  | none => d.phase

/-- The next period boundary of a die after a moment. -/
def Die.nextPeriod (d : Die) (now : Nat) : Nat := now + (10000 - (now + d.phaseAt now) % 10000)

/-- WSCHED of a die (Table 7.6). -/
def State.wsched (s : State) (die : Nat) : Nat :=
  let x := (s.clock + (tabGetD s.dies die {}).phaseAt s.clock) % 10000
  (625 - x % 625) * 16 + x / 625

/-- The value of an ENVRD index in one lane (Table 20.3). -/
def State.envrdWord (s : State) (c : Cx) (l idx : Nat) : Nat :=
  let p := c.gr.pkt
  let t := s.team c.x.team
  let named := if t.handler.isSome then s.team t.faulty else t
  let bin := c.x.bin.isSome
  let none' := bin || named.dynamic
  let raster := p.kind == 3
  let asDet := p.det || t.shadow.isSome
  match idx with
  | 0 => l
  | 1 => if bin then 0 else c.x.gidx
  | 2 => if none' then 0xFFFFFFFF else if raster then named.tid else teamCoord p named.tid 0
  | 3 => if none' then 0xFFFFFFFF else if raster then 0 else teamCoord p named.tid 1
  | 4 => if none' then 0xFFFFFFFF else if raster then 0 else teamCoord p named.tid 2
  | 5 =>
    match c.x.bin with
    | some (n, _) => n
    | none =>
      if t.handler.isSome then 32
      else if raster then min p.teamSize (c.gr.frags.length - t.tid * p.teamSize)
      else p.teamSize
  | 6 => if raster then c.gr.teams else p.gx
  | 7 => if raster then 1 else p.gy
  | 8 => if raster then 1 else p.gz
  | 9 => c.x.role
  | 10 => if asDet then t.lcore + t.sliceOf (coreOf c.g) else coreOf c.g % Config.coresPerDie
  | 11 => dieOf (coreOf c.g)
  | 12 => if p.det || p.pmap then c.gr.lc else s.coresInService
  | 13 => bits p.seed.toNat 0 32
  | 14 => bits p.seed.toNat 32 32
  | 15 => if p.det then 0 else bits s.clock 0 32
  | 16 => if p.det then 0 else bits s.clock 32 32
  | 17 => (c.x.lane l).wb
  | 18 => if asDet then 1 else 0
  | 19 => if raster then p.at 0x74 4 else 0
  | _ => if p.det then 0 else s.wsched (dieOf (coreOf c.g))

/-- ENVRD (R354). -/
def execEnvrd (d : VField) (index : BitVec 18) (s : State) : Out State :=
  issue (.envrd d index) s fun c t =>
    t.finish c (.envrd d index) (.v d.toNat) fun l => w32 (t.envrdWord c l index.toNat)

end Sys2Proof.Machine
end

