-- ==== Sys2Proof/Machine/Sample.lean ====
section
/-!
DEFINITION. The fetch unit: FETCH, FQRY and TEX (R170, R242, R243, R267, R268, R364, R367, R428, R429), and the random-bit
instructions (R149, R150, R407-R409).
-/

namespace Sys2Proof.Machine

/-! ### Reads through the fetch cache -/

/-- A reader of the fetch cache: who reads, and the moment after which a stored byte reads as undefined (R170). -/
structure FetchCx where
  w : Who
  start : Nat

/-- The reader of an issue set. -/
def Cx.fetcher (c : Cx) (s : State) : FetchCx :=
  ⟨c.who, min (tabGetD c.gr.starts (coreOf c.g) s.clock) (s.team c.x.team).started⟩

/-- What some reads come to: the failure of lowest rank, if one failed (R203); their value, none where it is undefined or one failed; and
the runs of bytes read. -/
structure Reads (α : Type) where
  fail : Option (Cause × Nat) := none
  val : Option α := none
  runs : List (Nat × Nat) := []
  deriving DecidableEq

/-- Reads that all succeed and give a value. -/
def Reads.gives {α : Type} (r : Reads α) (x : α) : Prop := r.fail = none ∧ r.val = some x

/-- A value without a read. -/
def readless {α : Type} (x : Option α) : Reads α := { val := x }

/-- Reads, and those that depend on their value. -/
def andThen {α β : Type} (r : Reads α) (k : α → Reads β) : Reads β :=
  match r.val with
  | none => { fail := r.fail, runs := r.runs }
  | some x =>
    let q := k x
    { fail := firstOf [r.fail, q.fail], val := q.val, runs := r.runs ++ q.runs }

/-- Reads made side by side. -/
def readBoth {α β γ : Type} (f : α → β → γ) (a : Reads α) (b : Reads β) : Reads γ :=
  { fail := firstOf [a.fail, b.fail]
    val := match a.val, b.val with | some x, some y => some (f x y) | _, _ => none
    runs := a.runs ++ b.runs }

/-- Several reads, all of them made. -/
def readAll {α β : Type} (f : α → Reads β) : List α → Reads (List β)
  | [] => readless (some [])
  | a :: r => readBoth List.cons (f a) (readAll f r)

/-- What reads of an issue set leave: translations (R165), and who holds the lines (R199). -/
def State.afterReads (s : State) (w : Who) (runs : List (Nat × Nat)) : State :=
  runs.eraseDups.foldl (fun t r =>
    match t.xlateAll w .load r.1 r.2 with
    | .error _ => t
    | .ok ps => (t.fillPieces w .load ps).touchPieces w.agent ps) s

/-- A read of `n` bytes through the fetch cache; undefined where a byte was stored too late for it (R170). -/
def State.fetchBytes (s : State) (f : FetchCx) (va n : Nat) : Reads (List Byte) :=
  let va := va % 2 ^ 64
  match s.xlateAll f.w .load va n with
  | .error e => { fail := some e }
  | .ok ps =>
    let fresh := ps.all fun p =>
      match p.loc with
      | .phys pa => (upto p.len).all fun k => s.storedAt (pa + k) ≤ f.start
      | _ => true
    let bs := ps.flatMap fun p => match p.loc with | .phys pa => memRead s.mem pa p.len | _ => []
    { val := if fresh then some bs else none, runs := [(va, n)] }

/-! ### FETCH -/

/-- Whether every field of a handle descriptor lies within Table 12.6. -/
def handleOk (d : List Byte) : Bool :=
  let fmt := fld d 8 1
  let dims := fld d 10 1
  let ext (k : Nat) : Nat := fld d (0x10 + 4 * k) 4
  fmt ≤ 3 && fld d 9 1 ≤ 4 && (fmt != 3 || fld d 9 1 == 2) && 1 ≤ dims && dims ≤ 3 &&
    (if fmt = 3 then fld d 11 1 ≤ 3 else fld d 11 1 == 0) && zeros d 12 4 &&
    ((upto 3).all fun k => 1 ≤ ext k && ext k ≤ 2 ^ 31 && (k < dims || ext k == 1)) &&
    (fmt == 0 || fmt == 3 || zeros d 0x28 8) && (fmt == 3 || zeros d 0x30 8) && zeros d 0x38 8

/-- ESIZE as a load size. -/
def esize : Nat → Size
  | 0 => .u8
  | 1 => .s8
  | 2 => .u16
  | 3 => .s16
  | _ => .b32

/-- An element narrowed to ESIZE and extended as LD does. -/
def narrow (z : Size) (x : Nat) : Word := (z.extend (leBytes z.bytes x)).headD 0

/-- The sum of signed fields 1 to `n` of `w` bits, packed from bit 0. -/
def deltaSum (x w : Nat) : Nat → Int
  | 0 => 0
  | n + 1 => deltaSum x w n + (if w = 0 then 0 else signedOf w (bits x (w * n) w))

/-- The element of R243 within a block, for FMT 1 and 2. -/
def State.blockElem (s : State) (f : FetchCx) (fmt e base t : Nat) : Reads Nat :=
  if fmt = 1 then
    andThen (s.fetchBytes f base 8) fun h =>
      let w := fld h 4 1
      if 32 < w || !zeros h 5 3 then readless none
      else
        andThen (s.fetchBytes f (base + 8) ((t * w + 7) / 8)) fun bs =>
          readless (some (wrap 32 (fld h 0 4 + deltaSum (leNat bs) w t)))
  else
    andThen (s.fetchBytes f base 8) fun h =>
      let m := leNat h
      if bitAt m t then
        andThen (s.fetchBytes f (base + 8 + e * popcount t m) e) fun bs => readless (some (leNat bs))
      else readless (some 0)

/-- The element at (x, y, z) of a descriptor (R243). -/
def State.fetchElem (s : State) (f : FetchCx) (lat : List (List (BitVec 16))) (d : List Byte) (x y z : Nat) :
    Reads Word :=
  if !handleOk d then readless none
  else
    let fmt := fld d 8 1
    let dims := fld d 10 1
    let sz := esize (fld d 9 1)
    let y := if 2 ≤ dims then y else 0
    let z := if 3 ≤ dims then z else 0
    let xe := fld d 0x10 4
    let ye := fld d 0x14 4
    if xe ≤ x || ye ≤ y || fld d 0x18 4 ≤ z then readless (some (w32 (fld d 0x1C 4)))
    else
      let base := fld d 0 8
      let row := z * ye + y
      let b := row * ((xe + 63) / 64) + x / 64
      let flat := base + y * fld d 0x20 8 + z * fld d 0x28 8
      if fmt = 0 then
        andThen (s.fetchBytes f (flat + x * sz.bytes) sz.bytes) fun bs => readless (some (narrow sz (leNat bs)))
      else if fmt = 3 then
        readBoth (fun ib sb =>
            let w := (vq2Weights (lat.getD (fld d 11 1) []) (leNat ib)).getD (x % 8) .nan
            narrow sz (bf16.round .rne (w.mul (e8m0 (leNat sb)))))
          (s.fetchBytes f (flat + 2 * (x / 8)) 2) (s.fetchBytes f (fld d 0x30 8 + b) 1)
      else
        andThen (s.fetchBytes f (fld d 0x20 8 + 4 * b) 4) fun tb =>
          andThen (s.blockElem f fmt sz.bytes (base + 16 * leNat tb) (x % 64)) fun v => readless (some (narrow sz v))

/-- The places of a lane's reads. -/
def State.runPieces (s : State) (c : Cx) (runs : List (Nat × Nat)) : List Piece :=
  runs.flatMap fun r => ((s.xlateAll c.who .load r.1 r.2).toOption).getD []

/-- A lane's reads, as reads of its region (R99). -/
def State.regionReads (s : State) (c : Cx) (l : Nat) (runs : List (Nat × Nat)) : State :=
  s.modRegion (s.thread c.g l) fun r => (s.runPieces c runs).foldl (fun r p => r.reads p.loc p.len) r

/-- The reads of an instruction of the traversal unit: causes in every lane first, then pending results; an undefined one is a free value, of a
kind named by `salt`. -/
def State.unitReads (s : State) (c : Cx) (i : Instr) (salt : Nat) (o : MemOp) (dsts : Nat → List PReg) (r : Nat → Reads (List Word)) :
    Out State :=
  s.checked c (fun l => (r l).fail)
    (.next ((c.ls.foldl (fun u l =>
      u.launch c i l [l] (dsts l) { o with vals := (r l).val.getD (s.freeWords (salt + 64 * l) (dsts l).length) })
      (c.ls.foldl (fun u l => u.regionReads c l (r l).runs) (s.afterReads c.who (c.ls.flatMap fun l => (r l).runs)))).done c i))

/-- One lane's read by the fetch unit, made at once or captured behind an entry of its chain (R109, R200). -/
def State.fetchLane (s : State) (c : Cx) (i : Instr) (l : Nat) (after : List Nat) (ps : List Piece) (dsts : List PReg) (vals : List Word) :
    State :=
  if after = [] then s.launch c i l [l] dsts { vals := vals, isLoad := true }
  else s.captureMem c i l [l] dsts { g := c.g, lane := l, ins := i, kind := .read after vals ps s.clock }

/-- The loads of a fetch instruction: causes in every lane first, then pending results; an undefined one is a free value. -/
def State.fetchLanes (s : State) (c : Cx) (i : Instr) (dsts : Nat → List PReg) (r : Nat → Reads (List Word)) : Out State :=
  let ps (l : Nat) : List Piece := s.runPieces c (r l).runs
  let after (l : Nat) : List Nat := (s.behindAny c.g l (ps l)).toList
  s.parking c (fun l => after l == [] && State.dstOwed i c l) fun c s =>
    s.checked c (fun l => firstOf [(r l).fail, s.budgetCheck c l (after l != [])])
      (s.parking c (fun l => s.noRoom c l (after l != [])) fun c s =>
        .next ((c.ls.foldl (fun u l =>
          u.fetchLane c i l (after l) (ps l) (dsts l) ((r l).val.getD (s.freeWords (2 ^ 24 + 64 * l) (dsts l).length)))
          (c.ls.foldl (fun u l => u.regionReads c l (r l).runs) (s.afterReads c.who (c.ls.flatMap fun l => (r l).runs)))).done c i))

/-- Registers of a field run in a lane. -/
def Cx.regs (c : Cx) (l : Nat) (d : BitVec 7) (n : Nat) : List PReg :=
  (upto n).map fun k => .v ((c.x.lane l).arch (d.toNat + k))

/-- FETCH (R364). -/
def execFetch (d : VField) (a : SField) (b : VField) (s : State) : Out State :=
  issue (.fetch d a b) s fun c t =>
    let h := t.readSPair c.x a
    let v (l k : Nat) : Nat := (t.readOpd c.x l (.v (b.toNat + k))).toNat
    t.checkedOnce c (must (h % 64 == 0) .misaligned h)
      (t.fetchLanes c (.fetch d a b) (fun l => c.regs l d 1) fun l =>
        andThen (t.fetchBytes (c.fetcher t) h 64) fun hd =>
          andThen (t.fetchElem (c.fetcher t) (t.ctx c.gr.ctx).lattice hd (v l 0) (v l 1) (v l 2)) fun w =>
            readless (some [w]))

/-- The value of an FQRY selector (R367). -/
def fqryValue (d : List Byte) (sel : Nat) : Nat :=
  match sel with
  | 0 => fld d 0 4
  | 1 => fld d 4 4
  | 2 => fld d 8 4
  | 3 => fld d 0x10 4
  | 4 => fld d 0x14 4
  | 5 => fld d 0x18 4
  | 6 => fld d 0x1C 4
  | _ => (fld d 0x10 4 + 63) / 64

/-- FQRY (R367). -/
def execFqry (d : VField) (a : SField) (sel : BitVec 7) (s : State) : Out State :=
  issue (.fqry d a sel) s fun c t =>
    let h := t.readSPair c.x a
    t.checkedOnce c (must (h % 64 == 0) .misaligned h)
      (t.fetchLanes c (.fqry d a sel) (fun l => c.regs l d 1) fun _ =>
        andThen (t.fetchBytes (c.fetcher t) h 64) fun hd => readless (some [w32 (fqryValue hd sel.toNat)]))

/-! ### TEX -/

/-- `floor` of a finite value. -/
def floorVal : Val → Int
  | .fin s m e => floorTo s m e 0
  | _ => 0

/-- A texel coordinate along an axis of `n`: clamped, or repeated; an infinite product lies beyond every edge, and has no
place when repeated. -/
def wrapCoord (rep : Bool) (n : Nat) (x : Val) (ofs : Int) : Option Nat :=
  match x with
  | .nan => some 0
  | .inf neg => if rep then none else some (if neg then 0 else n - 1)
  | x =>
    let k := floorVal x + ofs
    some (if rep then (k % (n : Int)).toNat else (max 0 (min k ((n : Int) - 1))).toNat)

/-- `c / 255` rounded to FP32. -/
def unorm8 (c : Nat) : Word := toFp .rne (stickyVal false (c * 2 ^ 48 / 255) (c * 2 ^ 48 % 255 == 0) (-48))

/-- The components of a texel (R428). -/
def texelWords (fmt : Nat) (bs : List Byte) : List Word :=
  match fmt with
  | 0 => (upto 4).map fun k => unorm8 (fld bs k 1)
  | 1 => (upto 4).map fun k => toFp .rne (fp16.decode (fld bs (2 * k) 2))
  | _ => [w32 (leNat bs), 0, 0, fpOne]

/-- Bytes of a texel. -/
def texelBytes (fmt : Nat) : Nat := if fmt = 1 then 8 else 4

/-- Whether a sampler record of modes 0 and 1 lies within Table 22.10. -/
def samplerOk (r : List Byte) : Bool :=
  let fmt := fld r 1 1
  fld r 0 1 ≤ 1 && fmt ≤ 2 && fld r 2 1 ≤ 1 && zeros r 3 5 && fld r 8 8 % 16 == 0 &&
    1 ≤ fld r 0x10 2 && fld r 0x10 2 ≤ 16384 && 1 ≤ fld r 0x12 2 && fld r 0x12 2 ≤ 16384 &&
    fld r 0x14 4 % 16 == 0 && fld r 0x10 2 * texelBytes fmt ≤ fld r 0x14 4 && zeros r 0x18 40

/-- Whether a neural sampler record lies within Table 14.10. -/
def neuralOk (r : List Byte) : Bool :=
  zeros r 1 7 && fld r 8 8 % 32 == 0 && 1 ≤ fld r 0x10 2 && fld r 0x10 2 ≤ 16384 && 1 ≤ fld r 0x12 2 &&
    fld r 0x12 2 ≤ 16384 && zeros r 0x14 4 && fld r 0x18 8 % 64 == 0 && zeros r 0x20 32

/-- An integer as FP32. -/
def fpOf (n : Nat) : Word := toFp .rne (.ofInt n)

/-- One half in FP32. -/
def fpHalf : Word := 0x3F000000

/-- Position along an axis, its whole part and the fraction (R268). -/
def axis (u : Word) (n : Nat) : Val × Word :=
  let sx := fsubW (fmulW u (fpOf n)) fpHalf
  let x0 := match asFp sx with | .fin s m e => Val.ofInt (floorTo s m e 0) | v => v
  (asFp sx, toFp .rne ((asFp sx).add .rne x0.neg))

/-- The four bilinear weights of R268. -/
def bilinear (fx fy : Word) : List Word :=
  let gx := fsubW fpOne fx
  let gy := fsubW fpOne fy
  [fmulW gx gy, fmulW fx gy, fmulW gx fy, fmulW fx fy]

/-- The corners of a bilinear cell: offsets along x and y. -/
def corners : List (Int × Int) := [(0, 0), (1, 0), (0, 1), (1, 1)]

/-- A texel of a mode 0 or 1 record. -/
def State.texel (s : State) (f : FetchCx) (r : List Byte) (x y : Val) (o : Int × Int) : Reads (List Word) :=
  let rep := fld r 2 1 == 1
  let fmt := fld r 1 1
  match wrapCoord rep (fld r 0x10 2) x o.1, wrapCoord rep (fld r 0x12 2) y o.2 with
  | some i, some j =>
    andThen (s.fetchBytes f (fld r 8 8 + j * fld r 0x14 4 + i * texelBytes fmt) (texelBytes fmt)) fun bs =>
      readless (some (texelWords fmt bs))
  | _, _ => readless none

/-- Modes 0 and 1 (R428). -/
def State.texPlain (s : State) (f : FetchCx) (r : List Byte) (u v : Word) : Reads (List Word) :=
  if !samplerOk r then readless none
  else
    match asFp u, asFp v with
    | .fin .., .fin .. =>
      if fld r 0 1 = 0 then
        s.texel f r (asFp (fmulW u (fpOf (fld r 0x10 2)))) (asFp (fmulW v (fpOf (fld r 0x12 2)))) (0, 0)
      else
        let ax := axis u (fld r 0x10 2)
        let ay := axis v (fld r 0x12 2)
        let ws := bilinear ax.2 ay.2
        andThen (readAll (s.texel f r ax.1 ay.1) corners) fun ts =>
          readless (some ((upto 4).map fun k =>
            let p (j : Nat) : Word := fmulW (ws.getD j 0) ((ts.getD j []).getD k 0)
            faddW (faddW (faddW (p 0) (p 1)) (p 2)) (p 3)))
    | _, _ => readless (some (List.replicate 4 fpNan))

/-- `sum` rounded to FP16, as a value. -/
def roundF16 (w : Word) : Val := fp16.decode (fp16.round .rne (asFp w))

/-- A layer of the neural sampler: `{b[j]} ∪ {x[i] × W[i][j]}`. -/
def layerSum (wb bb : List Byte) (x : List Val) (j : Nat) : Word :=
  w32 (matrixSum (fp16.decode (fld bb (2 * j) 2) ::
    (upto 16).map fun i => matMul (x.getD i .nan) (fp16.decode (fld wb (2 * (16 * i + j)) 2))))

/-- Mode 7 (R267, R268). -/
def State.texNeural (s : State) (f : FetchCx) (r : List Byte) (u v : Word) : Reads (List Word) :=
  if !neuralOk r then readless none
  else if (asFp u).isNan || (asFp v).isNan then readless (some (List.replicate 4 fpNan))
  else
    let gw := fld r 0x10 2
    let gh := fld r 0x12 2
    let ax := axis u gw
    let ay := axis v gh
    let ws := (bilinear ax.2 ay.2).map asFp
    let cell (o : Int × Int) : Reads (List Byte) :=
      let i := (wrapCoord false gw ax.1 o.1).getD 0
      let j := (wrapCoord false gh ay.1 o.2).getD 0
      s.fetchBytes f (fld r 8 8 + 32 * (j * gw + i)) 32
    readBoth (fun ls w =>
        let z := (upto 16).map fun k =>
          roundF16 (w32 (matrixSum ((upto 4).map fun j =>
            matMul (ws.getD j .nan) (fp16.decode (fld (ls.getD j []) (2 * k) 2)))))
        let h := (upto 16).map fun j => roundF16 (fmaxW (layerSum w (w.drop 512) z j) 0)
        (upto 4).map fun j => layerSum (w.drop 544) (w.drop 1056) h j)
      (readAll cell corners) (s.fetchBytes f (fld r 0x18 8) 1088)

/-- TEX (R428, R429). -/
def execTex (d : VField) (a : SField) (b : VField) (s : State) : Out State :=
  issue (.tex d a b) s fun c t =>
    let h := t.readSPair c.x a
    let f := c.fetcher t
    t.checkedOnce c (must (h % 64 == 0) .misaligned h)
      (t.fetchLanes c (.tex d a b) (fun l => c.regs l d 4) fun l =>
        let u := t.readOpd c.x l (.v b.toNat)
        let v := t.readOpd c.x l (.v (b.toNat + 1))
        andThen (t.fetchBytes f h 64) fun r =>
          if fld r 0 1 = 7 then t.texNeural f r u v else t.texPlain f r u v)

/-! ### Random bits -/

/-- The thread's key: its stream counts as 0 while v1053 is not live (R409). -/
def State.threadKey (s : State) (c : Cx) (l : Nat) : DWord := rngKeyOf c.gr.pkt.seed (s.readOpd c.x l (.abs 1053))

/-- RNGKEY (R409). -/
def execRngkey (a : VField) (s : State) : Out State :=
  issue (.rngkey a) s fun c t => t.finish c (.rngkey a) (.abs 1053) (c.vecA t a)

/-- RNG (R408). -/
def execRng (d a : VField) (s : State) : Out State :=
  issue (.rng d a) s fun c t =>
    .next ((t.modGroup c.g fun x => c.ls.foldl (fun x l =>
      x.writeV l d (pairWords (rngBlock (t.threadKey c l) (BitVec.ofNat 64 (t.readPair c.x l a))).toNat)) x).done c
      (.rng d a))

/-- RMASK (R407). -/
def execRmask (d : PField) (a : VField) (b : BOp) (s : State) : Out State :=
  issue (.rmask d a b) s fun c t =>
    t.finish c (.rmask d a b) (.p d.toNat) fun l =>
      let p := (t.readOpd c.x l (b.v.headD (.imm 0))).toNat
      bitWord (decide (rngDraw (t.threadKey c l) ((c.vecA t a l).setWidth 64) (bits p 16 2) < bits p 0 16))

end Sys2Proof.Machine
end

