-- ==== Sys2Proof/Machine/Rays.lean ====
section
/-!
DEFINITION. The traversal unit: TRACE and HITGET (R250-R256, R368, R431).
-/

namespace Sys2Proof.Machine

/-! ### Structures (Tables 14.1 to 14.3) -/

/-- A read by the traversal: a plain load of the thread. -/
def State.structBytes (s : State) (w : Who) (team va n : Nat) : Reads (List Byte) :=
  match s.xlateAll w .load (va % 2 ^ 64) n with
  | .error e => { fail := some e }
  | .ok ps => { val := some (ps.flatMap fun p => s.loadBytes team p.va p.loc p.len), runs := [(va % 2 ^ 64, n)] }

/-- Whether a header lies within Table 14.1. -/
def headerOk (h : List Byte) : Bool :=
  fld h 0 8 % 64 == 0 && fld h 8 8 % 16 == 0 && 1 ≤ fld h 0x10 4 && fld h 0x10 4 ≤ 2 ^ 31 && fld h 0x18 1 ≤ 1 &&
    zeros h 0x19 3 && (fld h 0x18 1 == 0 || zeros h 0x1C 4) && zeros h 0x20 32

/-- A depth-first walk of a tree. -/
structure TreeWalk where
  /-- The nodes walked whole. -/
  walked : List Nat := []
  leaves : List Nat := []
  /-- A reference cycle, or a leaf that names nothing. -/
  broken : Bool := false
  /-- The failure of lowest rank, and the runs read. -/
  fail : Option (Cause × Nat) := none
  runs : List (Nat × Nat) := []

/-- The walk from a list of references, each with the nodes above it, that reads at most `visits` nodes, the parent field and the refit counter
apart; a node that is reached again is not read again. Every box is accepted, as R254 allows (log 23). -/
def State.walkFrom (s : State) (w : Who) (team base count : Nat) : Nat → Nat → List (Nat × List Nat) → TreeWalk → TreeWalk
  | 0, _, _, k => k
  | _ + 1, _, [], k => k
  | f + 1, visits, (r, above) :: rs, k =>
    if bitAt r 31 then
      let p := bits r 0 31
      s.walkFrom w team base count f visits rs
        (if count ≤ p then { k with broken := true } else if k.leaves.contains p then k else { k with leaves := k.leaves ++ [p] })
    else if above.contains r then s.walkFrom w team base count f visits rs { k with broken := true }
    else if k.walked.contains r || visits = 0 then s.walkFrom w team base count f visits rs k
    else
      let n := s.structBytes w team (base + 64 * r) 56
      let below : List (Nat × List Nat) :=
        match n.val with
        | none => []
        | some b => [(fld b 0x30 4, r :: above), (fld b 0x34 4, r :: above)]
      s.walkFrom w team base count f (visits - 1) (below ++ rs)
        { k with walked := r :: k.walked, fail := firstOf [k.fail, n.fail], runs := k.runs ++ n.runs }

/-- The walk of a structure's tree; that of a structure outside R250 or R251 stops after 2 × count node visits (R251). -/
def State.treeWalk (s : State) (w : Who) (team : Nat) (ok : Bool) (h : List Byte) : TreeWalk :=
  let n := fld h 0x10 4
  s.walkFrom w team (fld h 0 8) n (2 ^ 33) (if ok then 2 ^ 31 else 2 * n) [(fld h 0x14 4, [])] {}

/-- Whether the tree and the primitives of a kind-0 structure keep R250. What its reader cannot read breaks nothing (log 23). -/
def State.trianglesOk (s : State) (w : Who) (team : Nat) (h : List Byte) : Bool :=
  !(s.treeWalk w team true h).broken &&
    (upto (fld h 0x10 4)).all fun p => (s.structBytes w team (fld h 8 8 + 48 * p + 0x28) 8).val.all fun b => zeros b 0 8

/-- An instance record and the header that it names, where they can be read. -/
def State.instance? (s : State) (w : Who) (team : Nat) (h : List Byte) (k : Nat) : Option (List Byte × List Byte) :=
  match (s.structBytes w team (fld h 8 8 + 64 * k) 64).val with
  | some r => ((s.structBytes w team (fld r 0x30 8) 64).val).map fun g => (r, g)
  | none => none

/-- Whether FIRST rises strictly and the ranges of a kind-1 structure do not overlap (R251). -/
def State.rangesOk (s : State) (w : Who) (team : Nat) (h : List Byte) : Bool :=
  (upto (fld h 0x10 4 - 1)).all fun k =>
    match s.instance? w team h k, s.instance? w team h (k + 1) with
    | some a, some b => decide (fld a.1 0x38 4 < fld b.1 0x38 4) && decide (fld a.1 0x38 4 + fld a.2 0x10 4 ≤ fld b.1 0x38 4)
    | _, _ => true

/-- Whether a structure keeps R250 and R251. -/
def State.structOk (s : State) (w : Who) (team : Nat) (h : List Byte) : Bool :=
  headerOk h &&
    (if fld h 0x18 1 = 0 then s.trianglesOk w team h
    else
      !(s.treeWalk w team true h).broken && s.rangesOk w team h &&
        (upto (fld h 0x10 4)).all fun k =>
          match s.instance? w team h k with
          | none => true
          | some (r, g) => fld r 0x30 8 % 64 == 0 && headerOk g && fld g 0x18 1 == 0 && s.trianglesOk w team g)

/-- The header of a structure: none where it is outside Table 14.1. -/
def State.header (s : State) (w : Who) (team va : Nat) : Reads (List Byte) :=
  andThen (s.structBytes w team va 64) fun h => readless (if headerOk h then some h else none)

/-- Words of a structure, which are undefined where it is outside R250 or R251 (R251). -/
def Reads.within {α : Type} (r : Reads α) (ok : Bool) : Reads α := if ok then r else { r with val := none }

/-! ### Rays and triangles (R252, R253) -/

/-- A vector of FP32 words. -/
structure V3 where
  x : Word
  y : Word
  z : Word

/-- `a / b` by RNE. -/
def fdivW (a b : Word) : Word := toFp .rne (divVal (asFp a) (asFp b))

/-- `a ≤ b`, false where either is NaN. -/
def fleW (a b : Word) : Bool := fcondHolds .le a b

/-- Componentwise difference. -/
def V3.sub (a b : V3) : V3 := ⟨fsubW a.x b.x, fsubW a.y b.y, fsubW a.z b.z⟩

/-- Cross(a, b). -/
def V3.cross (a b : V3) : V3 :=
  ⟨fsubW (fmulW a.y b.z) (fmulW a.z b.y), fsubW (fmulW a.z b.x) (fmulW a.x b.z), fsubW (fmulW a.x b.y) (fmulW a.y b.x)⟩

/-- Dot(a, b). -/
def V3.dot (a b : V3) : Word := faddW (faddW (fmulW a.x b.x) (fmulW a.y b.y)) (fmulW a.z b.z)

/-- A vector of a record. -/
def v3At (bs : List Byte) (ofs : Nat) : V3 := ⟨w32 (fld bs ofs 4), w32 (fld bs (ofs + 4) 4), w32 (fld bs (ofs + 8) 4)⟩

/-- Map(k, x, w) of an instance record. -/
def mapPoint (r : List Byte) (v : V3) (w : Word) : V3 :=
  let row (j : Nat) : Word :=
    let m (i : Nat) : Word := w32 (fld r (16 * j + 4 * i) 4)
    faddW (faddW (faddW (fmulW (m 0) v.x) (fmulW (m 1) v.y)) (fmulW (m 2) v.z)) (fmulW w (m 3))
  ⟨row 0, row 1, row 2⟩

/-- A ray. -/
structure Ray where
  o : V3
  tmin : Word
  d : V3
  tmax : Word

/-- A hit: t, u, v and the index that TRACE reports. -/
structure Hit where
  t : Word
  u : Word
  v : Word
  index : Nat

/-- Whether a determinant is culled. -/
def culled (c : Cull) (det : Word) : Bool :=
  match c with
  | .none => false
  | .back => fcondHolds .lt det 0
  | .front => fcondHolds .gt det 0
  | .all => true

/-- The determinant, t, u and v of a ray and a triangle (R253). -/
def triPlane (y : Ray) (prim : List Byte) : Word × Word × Word × Word :=
  let p0 := v3At prim 0
  let e1 := (v3At prim 0xC).sub p0
  let e2 := (v3At prim 0x18).sub p0
  let s := y.o.sub p0
  let q := y.d.cross e2
  let r := s.cross e1
  let det := e1.dot q
  (det, fdivW (e2.dot r) det, fdivW (s.dot q) det, fdivW (y.d.dot r) det)

/-- Tri(o, d, p0, p1, p2, tmin, tmax, cull). -/
def triHit (c : Cull) (y : Ray) (prim : List Byte) (index : Nat) : Option Hit :=
  let (det, t, u, v) := triPlane y prim
  if (asFp det).isZero || (asFp det).isNan || culled c det then none
  else if fleW 0 u && fleW 0 v && fleW (faddW u v) fpOne && fleW y.tmin t && fleW t y.tmax then some ⟨t, u, v, index⟩
  else none

/-- The hits of a ray among the leaves of a kind-0 structure. -/
def State.hitsIn (s : State) (w : Who) (team : Nat) (ok : Bool) (c : Cull) (y : Ray) (h : List Byte) (first : Nat) : Reads (List Hit) :=
  let k := s.treeWalk w team ok h
  andThen { fail := k.fail, val := some k.leaves, runs := k.runs } fun ls =>
    andThen (readAll (fun p =>
      andThen (s.structBytes w team (fld h 8 8 + 48 * p) 48) fun prim => readless (some (triHit c y prim (first + p)))) ls) fun hs =>
        readless (some (hs.filterMap fun x => x))

/-- The hits of a ray in an instance. -/
def State.hitsInInstance (s : State) (w : Who) (team : Nat) (ok : Bool) (c : Cull) (y : Ray) (h : List Byte) (k : Nat) :
    Reads (List Hit) :=
  andThen (s.structBytes w team (fld h 8 8 + 64 * k) 64) fun r =>
    andThen (s.header w team (fld r 0x30 8)) fun g =>
      if fld g 0x18 1 != 0 then readless none
      else s.hitsIn w team ok c ⟨mapPoint r y.o fpOne, y.tmin, mapPoint r y.d 0, y.tmax⟩ g (fld r 0x38 4)

/-- Every hit of a ray in a structure. -/
def State.hitsOf (s : State) (w : Who) (team : Nat) (c : Cull) (y : Ray) (h : List Byte) : Reads (List Hit) :=
  let ok := s.structOk w team h
  (if fld h 0x18 1 = 0 then s.hitsIn w team ok c y h 0
  else
    let k := s.treeWalk w team ok h
    andThen { fail := k.fail, val := some k.leaves, runs := k.runs } fun ks =>
      andThen (readAll (s.hitsInInstance w team ok c y h) ks) fun hs => readless (some hs.flatten)).within ok

/-- Whether hit `a` comes before `b`: smaller t, then lower index (R255). -/
def Hit.before (a b : Hit) : Bool := fcondHolds .lt a.t b.t || (fcondHolds .eq a.t b.t && decide (a.index < b.index))

/-- The first hit of several. -/
def closest : List Hit → Option Hit
  | [] => none
  | h :: r =>
    match closest r with
    | none => some h
    | some g => if g.before h then some g else some h

/-- The words of Table 14.4. -/
def hitWords : Option Hit → List Word
  | some h => [h.t, w32 h.index, h.u, h.v]
  | none => [0x7F800000, 0xFFFFFFFF, 0, 0]

/-- A ray misses for its own sake: a NaN component, or tmin > tmax. -/
def Ray.misses (y : Ray) : Bool :=
  [y.o.x, y.o.y, y.o.z, y.tmin, y.d.x, y.d.y, y.d.z, y.tmax].any (fun w => (asFp w).isNan) || fcondHolds .gt y.tmin y.tmax

/-- The words that TRACE returns in a lane; any hit is a free choice among the hits, the closest under DET. -/
def State.traceWords (s : State) (c : Cx) (l : Nat) (cull : Cull) (any : Bool) (y : Ray) (hva : Nat) : Reads (List Word) :=
  andThen (s.header c.who c.x.team hva) fun h =>
    if y.misses then (readless (some (hitWords none))).within (s.structOk c.who c.x.team h)
    else
      andThen (s.hitsOf c.who c.x.team cull y h) fun hs =>
        readless (some (hitWords
          (if any && !c.gr.pkt.det && !hs.isEmpty then hs[(s.freeWord (2 ^ 58 + l)).toNat % hs.length]? else closest hs)))

/-- The words of HITGET (R256, R368): the records of a kind-1 structure are read whole. -/
def State.hitgetWords (s : State) (c : Cx) (p hva : Nat) : Reads (List Word) :=
  let none4 : Reads (List Word) := readless (some (List.replicate 4 0xFFFFFFFF))
  let geometry (h : List Byte) (i : Nat) : Reads Nat :=
    andThen (s.structBytes c.who c.x.team (fld h 8 8 + 48 * i) 48) fun b => readless (some (fld b 0x24 4))
  andThen (s.header c.who c.x.team hva) fun h =>
    let n := fld h 0x10 4
    (if fld h 0x18 1 = 0 then
      if n ≤ p then none4
      else andThen (geometry h p) fun g => readless (some [w32 (fld h 0x1C 4), w32 g, 0, w32 p])
    else
      andThen (s.structBytes c.who c.x.team (fld h 8 8) (64 * n)) fun rs =>
        match ((upto n).filter fun k => fld rs (64 * k + 0x38) 4 ≤ p).getLast? with
        | none => none4
        | some k =>
          let first := fld rs (64 * k + 0x38) 4
          andThen (s.header c.who c.x.team (fld rs (64 * k + 0x30) 8)) fun g =>
            if fld g 0x18 1 != 0 then readless none
            else if fld g 0x10 4 ≤ p - first then none4
            else
              andThen (geometry g (p - first)) fun x =>
                readless (some [w32 k, w32 x, w32 (fld rs (64 * k + 0x3C) 4), w32 (p - first)])).within (s.structOk c.who c.x.team h)

/-! ### Instructions -/

/-- Traversal commands of an issue set. -/
def State.traverse (s : State) (c : Cx) (i : Instr) (d : VField) (r : Nat → Reads (List Word)) : Out State :=
  s.unitReads c i (2 ^ 59) { engine := true } (fun l => c.regs l d 4) r

/-- A lane with a chain entry waits for it before its traversal reads (R109, log 24). -/
def State.chainFirst (s : State) (c : Cx) (l : Nat) : Bool := s.chain c.g l != []

/-- TRACE (R252-R255, R431). -/
def execTrace (cull : Cull) (any : Bool) (d a : VField) (b : SField) (s : State) : Out State :=
  issue (.trace cull any d a b) s fun c t =>
    let h := t.readSPair c.x b
    let v (l k : Nat) : Word := t.readOpd c.x l (.v (a.toNat + k))
    let ray (l : Nat) : Ray := ⟨⟨v l 0, v l 1, v l 2⟩, v l 3, ⟨v l 4, v l 5, v l 6⟩, v l 7⟩
    t.checkedOnce c (must (h % 64 == 0) .misaligned h)
      (t.parking c (t.chainFirst c) fun c t =>
        t.traverse c (.trace cull any d a b) d fun l => t.traceWords c l cull any (ray l) h)

/-- HITGET (R256, R368). -/
def execHitget (d : VField) (a : SField) (b : BOp) (s : State) : Out State :=
  issue (.hitget d a b) s fun c t =>
    let h := t.readSPair c.x a
    t.checkedOnce c (must (h % 64 == 0) .misaligned h)
      (t.parking c (t.chainFirst c) fun c t =>
        t.traverse c (.hitget d a b) d fun l => t.hitgetWords c (t.readOpd c.x l (b.v.headD (.imm 0))).toNat h)

end Sys2Proof.Machine
end

