-- ==== Sys2Proof/Machine/Graph.lean ====
section
/-!
DEFINITION. The Joinery and its vertex graph (R257-R265, R277, R278, R355, R366, R433-R442).
-/

namespace Sys2Proof.Machine

/-! ### Vertex records (Tables 14.5 and 14.6) -/

/-- A word of a record. -/
def Vertex.word (r : Vertex) (k : Nat) : Word := r.words.getD k 0

/-- The flags at 0x16. -/
def Vertex.flags (r : Vertex) : Nat := (r.word 5).toNat / 65536

/-- KIND is light. -/
def Vertex.light (r : Vertex) : Bool := bitAt r.flags 0

/-- DEPTH. -/
def Vertex.depth (r : Vertex) : Nat := bits r.flags 1 4

/-- DELTA. -/
def Vertex.delta (r : Vertex) : Bool := bitAt r.flags 5

/-- NOMERGE. -/
def Vertex.nomerge (r : Vertex) : Bool := bitAt r.flags 6

/-- PREVNM. -/
def Vertex.prevnm (r : Vertex) : Bool := bitAt r.flags 7

/-- P_self. -/
def Vertex.pSelf (r : Vertex) : Word := r.word 6

/-- P_prev. -/
def Vertex.pPrev (r : Vertex) : Word := r.word 7

/-- C. -/
def Vertex.c (r : Vertex) : Word := r.word 8

/-- M. -/
def Vertex.m (r : Vertex) : Word := r.word 9

/-- Position. -/
def Vertex.pos (r : Vertex) : V3 := ⟨r.word 0, r.word 1, r.word 2⟩

/-- The epoch slot of a vertex id. -/
def epochOf (id : Nat) : Nat := id / 2 ^ 26

/-- Index 0x3FF_FFFF, which is never a vertex. -/
def noIndex (id : Nat) : Bool := bits id 0 26 == 0x3FFFFFF

/-- Finite and above zero. -/
def posFinite (w : Word) : Bool :=
  match asFp w with
  | .fin s m _ => !s && m != 0
  | _ => false

/-- Negative or not finite. -/
def negOrNotFinite (w : Word) : Bool :=
  match asFp w with
  | .fin s m _ => s && m != 0
  | _ => true

/-- `1 + a`. -/
def onePlus (a : Word) : Word := faddW fpOne a

/-! ### Appends -/

/-- The words that an image does not give: flags, P_prev, C, M and the path id, of a vertex without a predecessor. -/
def rootVertex (img : List Word) (id order : Nat) : Vertex :=
  let w5 := (img.getD 5 0).toNat
  let flags := bits w5 16 1 + bits w5 21 2 * 2 ^ 5 + 2 ^ 7
  ⟨img.take 5 ++ [w32 (bits w5 0 16 + flags * 65536), img.getD 6 0, 0, 0, 0, 0, 0xFFFFFFFF, w32 id, img.getD 13 0,
    img.getD 14 0, 0], order⟩

/-- The record of a vertex with a predecessor (R258). -/
def nextVertex (img : List Word) (pr : Vertex) (order : Nat) : Vertex :=
  let w5 := (img.getD 5 0).toNat
  let q := img.getD 10 0
  let depth := pr.depth + 1
  let flags := bits w5 16 1 + depth * 2 + bits w5 21 2 * 2 ^ 5 + if pr.delta || pr.nomerge then 2 ^ 7 else 0
  let rho := fdivW q pr.pPrev
  let c := if 2 ≤ depth then fmulW rho (onePlus pr.c) else 0
  let m := if 2 ≤ depth then faddW (if pr.prevnm then 0 else q) (fmulW rho pr.m) else 0
  ⟨img.take 5 ++ [w32 (bits w5 0 16 + flags * 65536), img.getD 6 0, pr.pSelf, c, m, 0, img.getD 11 0, w32 pr.path,
    img.getD 13 0, img.getD 14 0, 0], order⟩

/-- The vertex that an image gives at an id, if the checks of R258 hold. -/
def Ctx.newVertex (c : Ctx) (id : Nat) (img : List Word) : Option Vertex :=
  let pred := (img.getD 11 0).toNat
  if (tabGetD c.epochs (epochOf id) {}).st != .opened || noIndex id || (tabGet c.verts id).isSome ||
      !posFinite (img.getD 6 0) then none
  else if pred = 0xFFFFFFFF then some (rootVertex img id c.joinery)
  else if epochOf pred != epochOf id then none
  else
    match tabGet c.verts pred with
    | none => none
    | some pr =>
      if pr.light != bitAt (img.getD 5 0).toNat 16 || pr.depth == 15 || (1 ≤ pr.depth && negOrNotFinite (img.getD 10 0)) then
        none
      else some (nextVertex img pr c.joinery)

/-- VAPP of one lane: none is VGRAPH. A depth-0 light vertex is a light path (R259). -/
def Ctx.append (c : Ctx) (id : Nat) (img : List Word) : Option Ctx :=
  match c.newVertex id img with
  | none => none
  | some v =>
    let e := epochOf id
    let lights := if v.light && v.depth == 0 then 1 else 0
    some { c with
      verts := tabSet c.verts id v
      joinery := c.joinery + 1
      epochs := tabMod c.epochs e fun x => { x with lights := x.lights + lights } }

/-! ### Epochs and frames -/

/-- n_L of a bitmap (R260). -/
def Ctx.lightPaths (c : Ctx) (bitmap : DWord) : Nat :=
  ((c.epochs.filter fun e => bitmap.getLsbD e.1).map fun e => e.2.lights - e.2.lightsRetired).foldl (· + ·) 0

/-- eta of a frame. -/
def frameEta (lights : Nat) (h2 : Word) : Word := fmulW (fmulW (toFp .rne (Val.ofInt lights)) 0x40490FDB) h2

/-- FOPEN (R260): bitmap, radius, and the word with frame and append epoch; none is VGRAPH. -/
def Ctx.openFrame (c : Ctx) (grid : Nat) (bitmap : DWord) (h w : Word) : Option Ctx :=
  let f := bits w.toNat 0 8
  let a := bits w.toNat 8 6
  let st := (tabGetD c.epochs a {}).st
  if w.toNat / 2 ^ 14 != 0 || (tabGet c.frames f).isSome || bitmap.getLsbD a || !posFinite h ||
      !((upto 64).all fun e => !bitmap.getLsbD e || (tabGetD c.epochs e {}).st == .sealed) ||
      !(st == .free || st == .opened) then none
  else
    let h2 := fmulW h h
    some { c with
      frames := tabSet c.frames f ⟨bitmap, a, h2, frameEta (c.lightPaths bitmap) h2, c.joinery, grid⟩
      epochs := if st = .free then tabSet c.epochs a { st := .opened } else c.epochs
      joinery := c.joinery + 1 }

/-- FCLOSE. -/
def Ctx.shutFrame (c : Ctx) (f : Nat) : Option Ctx :=
  if (tabGet c.frames f).isNone then none else some { c.closeFrame f with joinery := c.joinery + 1 }

/-- ESEAL (R259). -/
def Ctx.sealEpoch (c : Ctx) (e : Nat) : Option Ctx :=
  if (tabGetD c.epochs e {}).st != .opened || c.frames.any fun f => f.2.append == e then none
  else some { c with epochs := tabMod c.epochs e fun x => { x with st := .sealed }, joinery := c.joinery + 1 }

/-- VRET of one lane (R261). -/
def Ctx.retire (c : Ctx) (id : Nat) : Option Ctx :=
  let e := epochOf id
  let x := tabGetD c.epochs e {}
  if x.st != .sealed then none
  else if noIndex id then
    some { c with epochs := tabSet c.epochs e { x with st := .retiring }, joinery := c.joinery + 1 }.sweep
  else
    match tabGet c.verts id with
    | none => none
    | some v =>
      if v.depth != 0 || (tabGet x.retired id).isSome then none
      else
        let x := { x with retired := tabSet x.retired id c.joinery, lightsRetired := x.lightsRetired + if v.light then 1 else 0 }
        some { c with epochs := tabSet c.epochs e x, joinery := c.joinery + 1 }.sweep

/-- A vertex of a frame's set (R260, R262). -/
def Ctx.inFrame (c : Ctx) (f : Frame) (id : Nat) : Option Vertex :=
  if f.bitmap.getLsbD (epochOf id) then
    match tabGet c.verts id with
    | none => none
    | some v =>
      match tabGet (tabGetD c.epochs (epochOf id) {}).retired v.path with
      | some n => if n < f.opened then none else some v
      | none => some v
  else none

/-! ### Weights (R263-R265) -/

/-- `1 / (1 + s)`. -/
def weightOf (s : Word) : Word := fdivW fpOne (onePlus s)

/-- Side(r, Qa, Qb): F and G. -/
def sideOf (r : Vertex) (qa qb : Word) : Word × Word :=
  let rb := fdivW qb r.pSelf
  let ra := if 1 ≤ r.depth then fdivW qa r.pPrev else 0
  let f := fmulW rb (faddW (fmulW ra (onePlus r.c)) fpOne)
  let qb' := if r.delta || r.nomerge then 0 else qb
  let qa' := if r.depth = 0 || r.prevnm then 0 else qa
  (f, faddW qb' (fmulW rb (faddW qa' (fmulW ra r.m))))

/-- Half(r, Qa): F and G. -/
def halfOf (r : Vertex) (qa : Word) : Word × Word :=
  let ra := if 1 ≤ r.depth then fdivW qa r.pPrev else 0
  let qa' := if r.depth = 0 || r.prevnm then 0 else qa
  (fdivW (faddW qa' (fmulW ra r.m)) r.pSelf, fdivW (onePlus (fmulW ra (onePlus r.c))) r.pSelf)

/-- The parts of a refused connection or merge. -/
def refusedParts : Word × Word := (0x7F800000, 0)

/-- A and B of a connection. -/
def connParts (l e : Vertex) (q : Nat → Word) : Word × Word :=
  if l.delta || e.delta then refusedParts
  else (faddW (sideOf l (q 0) (q 1)).1 (sideOf e (q 2) (q 3)).1, faddW (sideOf l (q 0) (q 1)).2 (sideOf e (q 2) (q 3)).2)

/-- The merge test (R264). -/
def mergeTest (h2 : Word) (l e : Vertex) : Bool :=
  let d := e.pos.sub l.pos
  fleW (faddW (faddW (fmulW d.x d.x) (fmulW d.y d.y)) (fmulW d.z d.z)) h2

/-- Whether a record takes part in merges. -/
def Vertex.merges (v : Vertex) : Bool := !v.delta && !v.nomerge

/-- A and B of a merge. -/
def mergeParts (h2 : Word) (l e : Vertex) (q : Nat → Word) : Word × Word :=
  if !mergeTest h2 l e || !l.merges || !e.merges then refusedParts
  else (faddW (halfOf l (q 0)).1 (halfOf e (q 1)).1, faddW (halfOf l (q 0)).2 (halfOf e (q 1)).2)

/-- The weight of a connection's parts under an eta. -/
def connWeight (a b eta : Word) : Word := weightOf (faddW a (fmulW eta b))

/-- The weight of a merge's parts under an eta. -/
def mergeWeight (a b eta : Word) : Word := weightOf (faddW a (fdivW b eta))

/-! ### The Joinery's order -/

/-- What an instruction does in one lane, in the state that lower lanes leave: the state after it and its words, or the address that
VGRAPH records. -/
abbrev GraphOp := Ctx → Nat → Except Nat (Ctx × List Word)

/-- The lanes of an issue set in ascending order (R278, R433): the state after them, and what each gave. -/
def graphRun (f : GraphOp) : List Nat → Ctx → Ctx × Tab (Except Nat (List Word))
  | [], c => (c, [])
  | l :: r, c =>
    match f c l with
    | .ok (d, ws) => ((graphRun f r d).1, (l, .ok ws) :: (graphRun f r d).2)
    | .error a => ((graphRun f r c).1, (l, .error a) :: (graphRun f r c).2)

/-- The VGRAPH check of a lane. -/
def graphFail (r : Tab (Except Nat (List Word))) (l : Nat) : Option (Cause × Nat) :=
  match tabGet r l with
  | some (.error a) => some (.vgraph, a)
  | _ => none

/-- A form that acts for each lane: its checks, then the reads it makes, its effect on the graph and its pending results. -/
def State.graphLanes (s : State) (c : Cx) (i : Instr) (pre : Nat → Option (Cause × Nat)) (reads : State → State)
    (dsts : Nat → List PReg) (f : GraphOp) : Out State :=
  let r := graphRun f c.ls (s.ctx c.gr.ctx)
  s.checked c (fun l => firstOf [pre l, graphFail r.2 l])
    (.next ((c.ls.foldl (fun u l =>
      match tabGet r.2 l with
      | some (.ok ws) => if dsts l = [] then u.counted c i l else u.launch c i l [l] (dsts l) { vals := ws }
      | _ => u) ((reads s).modCtx c.gr.ctx fun _ => r.1)).done c i))

/-- A form that acts for each lane on the graph alone. -/
def State.graphOnly (s : State) (c : Cx) (i : Instr) (dsts : Nat → List PReg) (f : GraphOp) : Out State :=
  s.graphLanes c i (fun _ => none) (fun t => t) dsts f

/-- A form that acts once for its issue set; `ord` is what it orders (R197). -/
def State.graphOnce (s : State) (c : Cx) (i : Instr) (a : Nat) (f : Ctx → Option Ctx) (ord : State → State) : Out State :=
  match f (s.ctx c.gr.ctx) with
  | none => s.trapAll c .vgraph a
  | some d => .next (((ord (s.modCtx c.gr.ctx fun _ => d)).countedOnce c i {}).done c i)

/-- The bits of a uniform register. -/
def State.sreg (s : State) (c : Cx) (a : SField) (k : Nat) : Word := s.readOpd c.x c.l0 (.s (a.toNat + k))

/-! ### Instructions -/

/-- What happens-before an epoch's ESEAL, or its VAPPs, is added to. -/
def Ctx.epochKnows (x : Ctx) (e : Nat) (know : Tab Nat) (behind : List Nat) : Ctx :=
  { x with epochs := tabMod x.epochs e fun p => { p with know := joinTimes p.know know, behind := p.behind ++ behind } }

/-- What happens-before the ESEALs of the epochs that a bitmap names. -/
def Ctx.sealsKnow (x : Ctx) (bitmap : DWord) : Tab Nat :=
  (x.epochs.filter fun e => bitmap.getLsbD e.1).foldl (fun t e => joinTimes t e.2.know) []

/-- FOPEN (R366): it acquires the ESEALs of its epochs at DEVICE scope (R197). -/
def execFopen (a : SField) (s : State) : Out State :=
  issue (.fopen a) s fun c t =>
    let bitmap := t.sreg c a 1 ++ t.sreg c a 0
    t.graphOnce c (.fopen a) (bits (t.sreg c a 3).toNat 0 8)
      (fun x => x.openFrame c.x.grid bitmap (t.sreg c a 2) (t.sreg c a 3))
      fun u => c.ls.foldl (fun u l => u.learn (u.thread c.g l) ((t.ctx c.gr.ctx).sealsKnow bitmap)) u

/-- FCLOSE (R366). -/
def execFclose (a : SField) (s : State) : Out State :=
  issue (.fclose a) s fun c t =>
    let f := bits (t.sreg c a 0).toNat 0 8
    t.graphOnce c (.fclose a) f (fun x => x.shutFrame f) fun u => u

/-- Whether chain entries that come before an epoch's VAPPs in program order have not performed: its ESEAL, which covers them, waits (R189,
R197). -/
def State.sealHeld (s : State) (ctx e : Nat) : Bool :=
  (tabGetD (s.ctx ctx).epochs e {}).behind.any fun k => (tabGet s.resid k).isSome

/-- ESEAL (R355): a DEVICE-scope release of the epoch's VAPPs and of what comes before it (R197); VGRAPH records the slot (log 25). -/
def execEseal (a : SField) (s : State) : Out State :=
  issue (.eseal a) s fun c t =>
    let e := bits (t.sreg c a 0).toNat 0 6
    t.parking c (fun _ => t.sealHeld c.gr.ctx e) fun c t =>
      t.graphOnce c (.eseal a) e (fun x => (x.sealEpoch e).map fun y => y.epochKnows e (t.seenOf c.g c.ls) [])
        fun u => c.ls.foldl (fun u l => u.noteRelease c.g l .device) u

/-- VRET (R441). -/
def execVret (a : VField) (s : State) : Out State :=
  issue (.vret a) s fun c t =>
    let id (l : Nat) : Nat := (t.readOpd c.x l (.v a.toNat)).toNat
    t.graphOnly c (.vret a) (fun _ => []) fun x l =>
      match x.retire (id l) with
      | some d => .ok (d, [])
      | none => .error (id l)

/-- The image of a lane's VAPP. -/
def State.imagePieces (s : State) (c : Cx) (a : VField) (b : BOp) (l : Nat) : Except (Cause × Nat) (List Piece) :=
  let va := s.vaddr c l a b
  if va % 64 != 0 then .error (.misaligned, va) else s.xlateAll c.who .load va 64

/-- The words of pieces. -/
def State.pieceWords (s : State) (ps : List Piece) : List Word := (parts 4 16 (s.readPieces ps)).map fun b => w32 (leNat b)

/-- VAPP (R258, R433): a lane whose image a chain entry overlaps waits for it. -/
def execVapp (d a : VField) (b : BOp) (s : State) : Out State :=
  issue (.vapp d a b) s fun c t =>
    t.parking c (fun l =>
        match t.imagePieces c a b l with
        | .ok ps => t.chainMeets c.g l ps
        | .error _ => false) fun c t =>
      let img (l : Nat) : Except (Cause × Nat) (List Piece) := t.imagePieces c a b l
      let id (l : Nat) : Nat := (t.readOpd c.x l (.v d.toNat)).toNat
      let reads (u : State) : State := c.ls.foldl (fun u l =>
        match img l with
        | .ok ps => (u.fillPieces c.who .load ps).touchPieces (dieOf (coreOf c.g)) ps
        | .error _ => u) u
      t.graphLanes c (.vapp d a b) (fun l => failOf (img l)) reads (fun _ => []) fun x l =>
        match img l with
        | .error e => .error e.2
        | .ok ps =>
          match x.append (id l) (t.pieceWords ps) with
          | some y => .ok (y.epochKnows (epochOf (id l)) (t.seenBy c.g l) ((t.chain c.g l).map (·.1)), [])
          | none => .error (id l)

/-- A query in the frame that s(B) names: VGRAPH with the frame's number where it is not open. -/
def inNamed (f : Nat) (q : Ctx → Frame → Nat → Except Nat (List Word)) : GraphOp := fun x l =>
  match tabGet x.frames f with
  | none => .error f
  | some fr =>
    match q x fr l with
    | .ok ws => .ok (x, ws)
    | .error a => .error a

/-- A vertex of a frame's set, of the KIND asked for if any. -/
def Ctx.operand (x : Ctx) (f : Frame) (kind : Option Bool) (id : Nat) : Except Nat Vertex :=
  match x.inFrame f id with
  | none => .error id
  | some v => if kind.all (· == v.light) then .ok v else .error id

/-- A light vertex and an eye vertex of a frame's set. -/
def Ctx.operandPair (x : Ctx) (f : Frame) (l e : Nat) (k : Vertex → Vertex → List Word) : Except Nat (List Word) :=
  match x.operand f (some true) l with
  | .error a => .error a
  | .ok v =>
    match x.operand f (some false) e with
    | .error a => .error a
    | .ok w => .ok (k v w)

/-- VCONN (R263, R434). -/
def execVconn (d a : VField) (b : BOp) (s : State) : Out State :=
  issue (.vconn d a b) s fun c t =>
    let v (r : VField) (l k : Nat) : Word := t.readOpd c.x l (.v (r.toNat + k))
    let f := bits (t.readOpd c.x c.l0 (b.s.headD (.imm 0))).toNat 0 8
    t.graphOnly c (.vconn d a b) (fun l => c.regs l d 4) (inNamed f fun x fr l =>
      x.operandPair fr (v a l 0).toNat (v a l 1).toNat fun p e =>
        let w := connParts p e (v d l)
        [connWeight w.1 w.2 fr.eta, w.1, w.2, fr.eta])

/-- VMRG (R264, R437). -/
def execVmrg (d a : VField) (b : BOp) (s : State) : Out State :=
  issue (.vmrg d a b) s fun c t =>
    let v (r : VField) (l k : Nat) : Word := t.readOpd c.x l (.v (r.toNat + k))
    let f := bits (t.readOpd c.x c.l0 (b.s.headD (.imm 0))).toNat 0 8
    t.graphOnly c (.vmrg d a b) (fun l => c.regs l d 4) (inNamed f fun x fr l =>
      x.operandPair fr (v a l 0).toNat (v a l 1).toNat fun p e =>
        let w := mergeParts fr.h2 p e (v d l)
        [mergeWeight w.1 w.2 fr.eta, w.1, w.2, fr.eta])

/-- The light vertices that a query returns, rising. -/
def Ctx.candidates (x : Ctx) (f : Frame) (e : Vertex) (cursor : Nat) : List Nat :=
  (x.verts.filter fun p =>
    decide (cursor ≤ p.1) && p.2.light && p.2.merges && (x.inFrame f p.1).isSome && mergeTest f.h2 p.2 e).map (·.1)

/-- VMRQ (R262, R438). -/
def execVmrq (d a : VField) (b : BOp) (s : State) : Out State :=
  issue (.vmrq d a b) s fun c t =>
    let v (l k : Nat) : Nat := (t.readOpd c.x l (.v (a.toNat + k))).toNat
    let f := bits (t.readOpd c.x c.l0 (b.s.headD (.imm 0))).toNat 0 8
    t.graphOnly c (.vmrq d a b) (fun l => c.regs l d 4) (inNamed f fun x fr l =>
      match x.operand fr (some false) (v l 0) with
      | .error e => .error e
      | .ok e =>
        let ids := x.candidates fr e (v l 1)
        .ok ((upto 4).map fun k => w32 (ids.getD k 0xFFFFFFFF)))

/-- VGET (R436). -/
def execVget (d a : VField) (b : BOp) (s : State) : Out State :=
  issue (.vget d a b) s fun c t =>
    let v (l k : Nat) : Nat := (t.readOpd c.x l (.v (a.toNat + k))).toNat
    let f := bits (t.readOpd c.x c.l0 (b.s.headD (.imm 0))).toNat 0 8
    t.graphOnly c (.vget d a b) (fun l => c.regs l d 4) (inNamed f fun x fr l =>
      match x.operand fr none (v l 0) with
      | .error e => .error e
      | .ok r => if 3 < v l 1 then .error (v l 0) else .ok ((upto 4).map fun k => r.word (4 * v l 1 + k)))

/-- VRWT in each lane. -/
def State.reweight (s : State) (c : Cx) (i : Instr) (d a : VField) (b : BOp) (f : Word → Word → Word → Word) : Out State :=
  let v (l k : Nat) : Word := s.readOpd c.x l (.v (a.toNat + k))
  .next ((s.modGroup c.g fun x => c.ls.foldl (fun x l =>
    x.writeV l d [f (v l 0) (v l 1) (s.readOpd c.x l (b.v.headD (.imm 0)))]) x).done c i)

/-- VRWT.CONN (R442). -/
def execVrwtConn (d a : VField) (b : BOp) (s : State) : Out State :=
  issue (.vrwtConn d a b) s fun c t => t.reweight c (.vrwtConn d a b) d a b connWeight

/-- VRWT.MRG (R442). -/
def execVrwtMrg (d a : VField) (b : BOp) (s : State) : Out State :=
  issue (.vrwtMrg d a b) s fun c t => t.reweight c (.vrwtMrg d a b) d a b mergeWeight

end Sys2Proof.Machine
end

