-- ==== Sys2Proof/Machine/System.lean ====
section
/-!
DEFINITION. System words: TRAP, BKPT, RESUME, system registers, ordered sections, PXW, and the word that encodes nothing (R135, R183,
R209, R275, R276, R322, R395, R400, R401, R406, R426, R427, R432).
-/

namespace Sys2Proof.Machine

/-! ### Traps on purpose -/

/-- TRAP and BKPT: lanes that a RESUME has restarted here pass, the others raise the cause with a number as their address. -/
def State.trapWord (s : State) (c : Cx) (i : Instr) (k : Cause) (a : Nat) : Out State :=
  s.checked c (fun l => must (c.x.lane l).pass k a) (.next (s.done c i))

/-- TRAP (R432). -/
def execTrap (code : BitVec 18) (s : State) : Out State :=
  issue (.trap code) s fun c t => t.trapWord c (.trap code) .software code.toNat

/-- BKPT (R322). -/
def execBkpt (tag : BitVec 7) (s : State) : Out State :=
  issue (.bkpt tag) s fun c t => t.trapWord c (.bkpt tag) .breakpoint tag.toNat

/-- A word that encodes no instruction (R135). -/
def execIllegalWord (w : Word) (s : State) : Out State :=
  issue (.illegalWord w) s fun c t => t.trapAll c .illegal 0

/-- RESUME (R209, R406). -/
def execResume (a : SField) (s : State) : Out State :=
  issue (.resume a) s fun c t =>
    match t.resumeAt c.gr.ctx (t.readSPair c.x a) (t.seenOf c.g c.ls) with
    | none => t.trapAll c .illegal 0
    | some u => .next (u.done c (.resume a))

/-! ### System registers (Table 22.8) -/

/-- Registers that only a grid with SYSPRIV may name. -/
def sysPrivileged (index : Nat) : Bool := 2 ≤ index

/-- REGIONSTAT (Table 7.12). -/
def State.regionstat (s : State) : Nat :=
  (match s.lost with
    | [] => 0
    | (r, _) :: _ => r * 2 ^ 12 + 1) + min 1023 s.lost.length * 4 + if s.ovf = [] then 0 else 2

/-- DETSEL (Table 9.8). -/
def State.detsel (s : State) : Nat := s.match_ + s.abandon * 2 ^ 32 + s.mismatch * 2 ^ 48

/-- A count: cycles since a moment where SEL is 1, a free value where SEL names events of the caches, which are not modelled
(log 10). -/
def State.perfCount (s : State) (core ctx n : Nat) : DWord :=
  let v := tabGetD (s.core core).perf (ctx * 8 + n) 0
  let sel := bits (s.ctx ctx).perfctl.toNat (8 * n) 8
  if sel = 1 then v + BitVec.ofNat 64 s.clock
  else if sel = 6 ∨ sel = 7 then Config.freeValue (s.fresh * 2 ^ 64 + 2 ^ 60 + core * 8 + n)
  else v

/-- A count set. -/
def State.setPerfCount (s : State) (core ctx n : Nat) (v : DWord) : State :=
  let sel := bits (s.ctx ctx).perfctl.toNat (8 * n) 8
  s.modCore core fun c =>
    { c with perf := tabSet c.perf (ctx * 8 + n) (if sel = 1 then v - BitVec.ofNat 64 s.clock else v) }

/-- PERFCTL written: every count goes on from where it stands. -/
def State.setPerfctl (s : State) (ctx : Nat) (v : DWord) : State :=
  let old := (s.ctx ctx).perfctl.toNat
  let special (sel : Nat) : Bool := sel == 1 || sel == 6 || sel == 7
  let moved := (upto 8).filter fun n =>
    bits old (8 * n) 8 != bits v.toNat (8 * n) 8 && (special (bits old (8 * n) 8) || bits v.toNat (8 * n) 8 == 1)
  let t := s.modCtx ctx fun c => { c with perfctl := v }
  moved.foldl (fun t n => (upto Config.cores).foldl (fun t k => t.setPerfCount k ctx n (s.perfCount k ctx n)) t) t

/-- The value that SYSRD gives. -/
def State.sysValue (s : State) (c : Cx) (index : Nat) : Nat :=
  let x := s.ctx c.gr.ctx
  if index = 0 then c.gr.ctx
  else if index = 1 then (if c.gr.pkt.sys then 1 else 0)
  else if index = 0x10 then x.trapbase.toNat
  else if index = 0x30 then s.regionstat
  else if index = 0x40 then x.perfctl.toNat
  else if 0x41 ≤ index ∧ index ≤ 0x48 then (s.perfCount (coreOf c.g) c.gr.ctx (index - 0x41)).toNat
  else if index = 0x50 then (if s.walign then 1 else 0)
  else if index = 0x60 then s.detsel
  else 0

/-- The privilege check of a system register. -/
def Cx.sysCheck (c : Cx) (index : Nat) : Option (Cause × Nat) := must (!sysPrivileged index || c.gr.pkt.sys) .privilege 0

/-- SYSRD (R426). -/
def execSysrd (d : VField) (index : BitVec 11) (s : State) : Out State :=
  issue (.sysrd d index) s fun c t =>
    t.checkedOnce c (c.sysCheck index.toNat)
      (let ws := pairWords (t.sysValue c index.toNat)
       .next ((t.modGroup c.g fun x => c.ls.foldl (fun x l => x.writeV l d ws) x).done c (.sysrd d index)))

/-- A SYSWR: the privilege check, then the effect of the lowest lane's value. -/
def State.syswr (s : State) (c : Cx) (i : Instr) (index : Nat) (a : VField) (f : Nat → State) : Out State :=
  s.checkedOnce c (c.sysCheck index) (.next ((f (s.readPair c.x c.l0 a)).done c i))

/-- The bits of TRAPBASE that are not zero (Table 9.2). -/
def trapbaseMask (x : Nat) : DWord := BitVec.ofNat 64 (bits x 12 45 * 2 ^ 12 + bits x 0 4)

/-- SYSWR TRAPBASE (R204, R427). -/
def execSyswrTrapbase (a : VField) (s : State) : Out State :=
  issue (.syswrTrapbase a) s fun c t =>
    t.syswr c (.syswrTrapbase a) 0x10 a fun x => t.modCtx c.gr.ctx fun k => { k with trapbase := trapbaseMask x }

/-- SYSWR LATTICEn (R145, R427): the image is read, and the set waits until every copy is made. -/
def execSyswrLattice (n : BitVec 2) (a : VField) (s : State) : Out State :=
  issue (.syswrLattice n a) s fun c t =>
    let va := t.readPair c.x c.l0 a
    t.checkedOnce c (c.sysCheck (0x20 + n.toNat))
      (match (if va % 1024 != 0 then .error (.misaligned, va) else t.readVa c.who va 1024 : Except (Cause × Nat) (List Byte)) with
       | .error e => t.trapAll c e.1 e.2
       | .ok bs =>
         let image := (parts 2 512 bs).map fun b => BitVec.ofNat 16 (leNat b)
         let u := ((t.touchVa c.who va 1024).irrev c).modCtx c.gr.ctx fun k =>
           { k with latCopies := k.latCopies ++ [⟨n.toNat, image, c.g, c.x.uid, c.ls⟩] }
         .next ((u.modLanes c.g c.ls fun _ y => { y with park := .copy, stamp := t.clock, pass := false }).count (coreOf c.g) c.gr.ctx 4
           c.ls.length))

/-- A write of REGIONSTAT (R183). -/
def State.writeRegionstat (s : State) (x : Nat) : State :=
  let t := if bitAt x 0 then { s with lost := tabDel s.lost (bits x 12 40) } else s
  if bitAt x 1 then { t with ovf := [] } else t

/-- SYSWR REGIONSTAT with LOST set (R183); a value with OVF set also clears OVF. -/
def execRegionstatClearRegion (a : VField) (s : State) : Out State :=
  issue (.regionstatClearRegion a) s fun c t => t.syswr c (.regionstatClearRegion a) 0x30 a t.writeRegionstat

/-- SYSWR REGIONSTAT with OVF set, the same word. -/
def execRegionstatClearOvf (a : VField) (s : State) : Out State :=
  issue (.regionstatClearOvf a) s fun c t => t.syswr c (.regionstatClearOvf a) 0x30 a t.writeRegionstat

/-- SYSWR PERFCTL (Table 22.9). -/
def execSyswrPerfctl (a : VField) (s : State) : Out State :=
  issue (.syswrPerfctl a) s fun c t =>
    t.syswr c (.syswrPerfctl a) 0x40 a fun x => t.setPerfctl c.gr.ctx (BitVec.ofNat 64 x)

/-- SYSWR PERFCNTn: the count on the issuing core. -/
def execSyswrPerfcnt (n : BitVec 3) (a : VField) (s : State) : Out State :=
  issue (.syswrPerfcnt n a) s fun c t =>
    t.syswr c (.syswrPerfcnt n a) (0x41 + n.toNat) a fun x =>
      t.setPerfCount (coreOf c.g) c.gr.ctx n.toNat (BitVec.ofNat 64 x)

/-- The phases that the dies take at their next period boundaries: one for all with ALIGN, else any (R172, R174). -/
def State.alignPhases (s : State) (align : Bool) : State :=
  { s with
    walign := align
    dies := tabMap s.dies fun d x =>
      { x with
        phase := x.phaseAt s.clock
        phaseNext := some ((s.freeWord (if align then 2 ^ 44 else 2 ^ 44 + 1 + d)).toNat % 10000, x.nextPeriod s.clock) } }

/-- SYSWR WSCHEDCFG (R174): it takes effect at the next period boundary. -/
def execSyswrWschedcfg (a : VField) (s : State) : Out State :=
  issue (.syswrWschedcfg a) s fun c t =>
    t.syswr c (.syswrWschedcfg a) 0x50 a fun x => t.alignPhases (bitAt x 0)

/-- SYSWR DETSEL (R223): MATCH, and both counts cleared. -/
def execSyswrDetsel (a : VField) (s : State) : Out State :=
  issue (.syswrDetsel a) s fun c t =>
    t.syswr c (.syswrDetsel a) 0x60 a fun x => { t with match_ := bits x 0 10, mismatch := 0, abandon := 0 }

/-- SYSWR of CTXID or PRIV, which has no effect; any other index is ILLEGAL. -/
def execSyswrOther (index : BitVec 11) (a : VField) (s : State) : Out State :=
  issue (.syswrOther index a) s fun c t => t.syswr c (.syswrOther index a) index.toNat a fun _ => t

/-! ### Ordered sections (R276) -/

/-- Lanes of a grid's groups, resident or saved, those of shadow runs apart. -/
def State.lanesOfGrid (s : State) (k : Nat) : List Lane :=
  (s.groups.filter fun e => e.2.grid == k && (s.team e.2.team).shadow.isNone).flatMap (fun e => e.2.lanes.map (·.2)) ++
    (s.teams.filter fun e => e.2.grid == k).flatMap fun e =>
      match e.2.saved with
      | some v => v.groups.flatMap fun g => g.group.lanes.map (·.2)
      | none => []

/-- Whether a fragment of a grid has executed ORDE or exited. -/
def State.fragPassed (s : State) (k n : Nat) : Bool :=
  match (s.lanesOfGrid k).find? fun y => match y.frag with | some f => f.num == n | none => false with
  | some y => y.sectDone || y.fin
  | none => s.teams.any fun e => e.2.grid == k && e.2.tid == n / (s.grid k).pkt.teamSize && e.2.handler.isNone && e.2.shadow.isNone && !e.2.dynamic

/-- Whether a fragment's turn for its pixel has come: every earlier fragment of the grid and pixel has passed. -/
def State.turnOf (s : State) (k : Nat) (f : Frag) : Bool :=
  (((s.grid k).frags.zip (upto f.num)).filter fun p => p.1.2.1 == f.x && p.1.2.2.1 == f.y).all fun p => s.fragPassed k p.2

/-- ORDB (R276, R395): a lane whose turn has not come parks by itself, under DET too; a thread without a fragment has no section to enter (log 26). -/
def execOrdb (s : State) : Out State :=
  issue .ordb s fun c t =>
    t.checked c (fun l => must (c.gr.pkt.kind == 3 && !(c.x.lane l).inSect && (c.x.lane l).frag.isSome) .order 0)
      (t.parkingEach c (fun l => match (c.x.lane l).frag with | some f => !t.turnOf c.x.grid f | none => false) fun c t =>
        .next ((c.ls.foldl (fun u l => u.sectionOf c l fun u k => u.acquireAt c.g [l] .device k)
          (t.modLanes c.g c.ls fun _ y => { y with inSect := true })).done c .ordb))

/-- ORDE (R276, R395). -/
def execOrde (s : State) : Out State :=
  issue .orde s fun c t =>
    t.checked c (fun l => must (c.x.lane l).inSect .order 0)
      (.next (((c.ls.foldl (fun u l => u.sectionOf c l fun u k => u.releaseAt c.g [l] .device k)
        (t.modLanes c.g c.ls fun _ y => { y with inSect := false, sectDone := true })).done c .orde).vacate c.x.grid))

/-- The address of a fragment's pixel in the target. -/
def pixelAddr (p : Packet) (f : Frag) : Nat := (p.args.toNat + 4096 * p.at 0x74 4 + 8 * (f.x + p.at 0x20 2 * f.y)) % 2 ^ 64

/-- PXW (R275, R400, R401). -/
def execPxw (a : VField) (s : State) : Out State :=
  issue (.pxw a) s fun c t =>
    let frag (l : Nat) : Option Frag := if c.gr.pkt.kind = 3 then (c.x.lane l).frag else none
    let va (l : Nat) : Nat := match frag l with | some f => pixelAddr c.gr.pkt f | none => 0
    let loc (l : Nat) : Except (Cause × Nat) Loc :=
      match frag l with
      | some _ => t.place c.who .store (va l) 8
      | none => .error (.order, 0)
    t.checked c (fun l => failOf (loc l))
      (.next ((c.ls.foldl (fun u l =>
        match loc l with
        | .ok p =>
          ((u.fillFor c .store (va l) p).performStore c.g c.x.team (va l) p (leBytes 8 (t.readPair c.x l a))).counted c
            (.pxw a) l
        | .error _ => u) t).done c (.pxw a)))

end Sys2Proof.Machine
end

