-- ==== Sys2Proof/Machine/Complete.lean ====
section
/-!
DEFINITION. Completions: accesses, closures and chain entries (R102, R105-R116, R124, R126), engine, matrix and copy commands (R239,
R344, R446), collectives (R157, R339, R340), page walks (R165), lattice copies (R145).
-/

namespace Sys2Proof.Machine

/-! ### Delivery -/

/-- An operand that waits for a tag takes its value. -/
def Src.fill (t : Nat) (w : Word) : Src → Src
  | .ready v => .ready v
  | .tag u => if u = t then .ready w else .tag u

/-- A register as a value lands under a tag: it is written if the tag is its current one (R106), or if it is a uniform register and the value
one of an LDU that another set's has overtaken, the last returned standing (R384). -/
def Group.landed (x : Group) (l : Nat) (r : PReg) (t : Nat) (w : Word) (stands : Bool) : Group :=
  if x.pending l r = some t then (x.writeReg l r w).clearPending l r
  else
    match r with
    | .s _ => if stands then x.writeReg l r w else x
    | _ => x

/-- A value lands under a tag: in its register, if the tag is still the current one, in the closures and chain entries that hold the
tag, and in the SHFL that waits for it (R106). A lane that has parked is eligible from then on (R86). -/
def State.land (s : State) (g uid l : Nat) (r : PReg) (t : Nat) (w : Word) (stands : Bool) : State :=
  let s := s.modGroup g fun x => if x.uid = uid then (x.landed l r t w stands).wake s.clock else x
  { s with
    resid := tabMap s.resid fun _ e => { e with srcs := e.srcs.map (Src.fill t w) }
    ops := tabMap s.ops fun _ o => if o.awaits = some t then { o with awaits := none, vals := [w] } else o }

/-- Values landed under their tags, in order; `stands` says which stand though their tag is not the current one. -/
def State.landAll (s : State) (g uid l : Nat) (stands : Nat → Bool) : List (PReg × Nat) → List Word → State
  | (r, t) :: ds, w :: ws => (s.land g uid l r t w (stands t)).landAll g uid l stands ds ws
  | _, _ => s

/-- A flag counts down in lanes of a group. -/
def State.countDown (s : State) (g uid : Nat) (ls : List Nat) (f : Option Nat) : State :=
  s.modGroup g fun x =>
    if x.uid = uid then ({ x with lanes := ls.foldl (fun t l => tabMod t l fun y => y.decFlag f) x.lanes } : Group).wake s.clock else x

/-- An operation leaves the table, its values having landed and its flag counted down. -/
def State.finishOp (s : State) (id : Nat) (o : MemOp) (vals : List Word) : State :=
  let t := s.landAll o.g o.uid o.lane (fun n => o.toUniform && !o.stale.contains n) o.dsts vals
  { t.countDown o.g o.uid o.lanes o.flag with ops := tabDel t.ops id }

/-- A result for every destination. -/
def MemOp.full (o : MemOp) : Bool := o.vals.length == o.dsts.length

/-- Whether entries of the chains of an operation's lanes that were appended before it have not performed. -/
def State.chainBefore (s : State) (id : Nat) (o : MemOp) : Bool :=
  s.resid.any fun e => e.2.g == o.g && o.lanes.contains e.2.lane && decide (e.1 < id) &&
    match e.2.kind with | .store .. | .atomic .. | .fence _ | .half .. => true | _ => false

/-- MEMORY_ACCESS_COMPLETE (R126): not for an engine's query, a SHFL whose source is owed a write, a remote put, an access whose data is lost,
or an ICINV before the stores and releases that come before it (R140). -/
def execMemoryAccessComplete (id : Nat) (s : State) : Out State :=
  match tabGet s.ops id with
  | none => .fault .notEnabled
  | some o =>
    if o.engine || o.awaits.isSome || o.remote.isSome || (o.lost && o.dsts != []) || !(o.full || o.dsts == []) ||
        (o.icinv && s.chainBefore id o) then
      .fault .notEnabled
    else .next ((if o.icinv then s.dropCode o.ctx o.reach.contains 0 (2 ^ 64) else s).finishOp id o o.vals)

/-- ENGINE_COMMAND_COMPLETE (R126): OPRDY, TRACE and HITGET. -/
def execEngineCommandComplete (id : Nat) (s : State) : Out State :=
  match tabGet s.ops id with
  | none => .fault .notEnabled
  | some o => if o.engine then .next (s.finishOp id o o.vals) else .fault .notEnabled

/-- DEFERRED_ERROR_TRAP (R116, R206): an access that returns a value, and whose data is lost with its region, is to be reported at the next
headers; its destinations hold undefined values. -/
def execDeferredErrorTrap (id : Nat) (s : State) : Out State :=
  match tabGet s.ops id with
  | none => .fault .notEnabled
  | some o =>
    if !o.lost || o.dsts == [] then .fault .notEnabled
    else
      let t := s.finishOp id o (s.freeWords (2 ^ 56) o.dsts.length)
      let dst := match o.dsts.head? with
        | some (.v n, _) | some (.s n, _) | some (.p n, _) => n
        | none => 0xFFFF
      .next (t.modGroup o.g fun x =>
        if x.uid = o.uid then
          { x with lost := x.lost ++ (if o.toUniform then o.lanes else [o.lane]).map fun l => ⟨l, o.va, o.hdr, dst, o.issue⟩ }
        else x)

/-! ### Closures -/

/-- The function that an instruction which can be captured, or which computes from registers to registers, stands for. -/
def Instr.alu : Instr → Option Alu
  | .iadd f d a b => some (iaddAlu f d a b)
  | .isub f d a b => some (isubAlu f d a b)
  | .imul f d a b => some (imulAlu f d a b)
  | .imad wide d a b => some (imadAlu wide d a b)
  | .imin uns d a b => some (iminAlu uns d a b)
  | .imax uns d a b => some (imaxAlu uns d a b)
  | .and d a b => some (andAlu d a b)
  | .andn d a b => some (andnAlu d a b)
  | .or d a b => some (orAlu d a b)
  | .orn d a b => some (ornAlu d a b)
  | .xor d a b => some (xorAlu d a b)
  | .shl wide d a b => some (shlAlu wide d a b)
  | .shr wide d a b => some (shrAlu wide d a b)
  | .sar wide d a b => some (sarAlu wide d a b)
  | .rotl wide d a b => some (rotlAlu wide d a b)
  | .clz d a => some (clzAlu d a)
  | .popc d a => some (popcAlu d a)
  | .brev d a => some (brevAlu d a)
  | .iabs d a => some (iabsAlu d a)
  | .ineg d a => some (inegAlu d a)
  | .not d a => some (notAlu d a)
  | .bfx signed d a b => some (bfxAlu signed d a b)
  | .bfi d a b => some (bfiAlu d a b)
  | .bitil three d a => some (bitilAlu three d a)
  | .bitdl f d a => some (bitdlAlu f d a)
  | .icmp c d a b => some (icmpAlu c d a b)
  | .isel p d a b => some (iselAlu p d a b)
  | .iaddc p d a b => some (iaddcAlu p d a b)
  | .mov d a => some (movAlu d a)
  | .movVS d a => some (movVSAlu d a)
  | .movPP d a => some (movPPAlu d a)
  | .movSS d a => some (movSSAlu d a)
  | .movVP d a => some (movVPAlu d a)
  | .movPV d a => some (movPVAlu d a)
  | .pand d a b => some (pandAlu d a b)
  | .por d a b => some (porAlu d a b)
  | .pxor d a b => some (pxorAlu d a b)
  | .pnot d a => some (pnotAlu d a)
  | .iaddi d a imm => some (iaddiAlu d a imm)
  | .andi d a imm => some (andiAlu d a imm)
  | .ori d a imm => some (oriAlu d a imm)
  | .xori d a imm => some (xoriAlu d a imm)
  | .shli d a imm => some (shliAlu d a imm)
  | .shri d a imm => some (shriAlu d a imm)
  | .sari d a imm => some (sariAlu d a imm)
  | .muli d a imm => some (muliAlu d a imm)
  | .movi d imm => some (moviAlu d imm)
  | .movh d imm => some (movhAlu d imm)
  | .smovi d imm => some (smoviAlu d imm)
  | .sadd d a b => some (saddAlu d a b)
  | .ssub d a b => some (ssubAlu d a b)
  | .smul d a b => some (smulAlu d a b)
  | .sand d a b => some (sandAlu d a b)
  | .sor d a b => some (sorAlu d a b)
  | .sxor d a b => some (sxorAlu d a b)
  | .sshl d a b => some (sshlAlu d a b)
  | .sshr d a b => some (sshrAlu d a b)
  | .smin d a b => some (sminAlu d a b)
  | .smax d a b => some (smaxAlu d a b)
  | .sadd64 d a b => some (sadd64Alu d a b)
  | .saddi d a imm => some (saddiAlu d a imm)
  | .scmp c d a b => some (scmpAlu c d a b)
  | .fadd sat m d a b => some (faddAlu sat m d a b)
  | .fsub sat m d a b => some (fsubAlu sat m d a b)
  | .fmul sat m d a b => some (fmulAlu sat m d a b)
  | .ffma sat m d a b => some (ffmaAlu sat m d a b)
  | .fmin num d a b => some (fminAlu num d a b)
  | .fmax num d a b => some (fmaxAlu num d a b)
  | .fcmp c d a b => some (fcmpAlu c d a b)
  | .fabs d a => some (fabsAlu d a)
  | .fneg d a => some (fnegAlu d a)
  | .fcpys d a b => some (fcpysAlu d a b)
  | .frcp d a => some (frcpAlu d a)
  | .frsq d a => some (frsqAlu d a)
  | .fsqrt d a => some (fsqrtAlu d a)
  | .flog2 d a => some (flog2Alu d a)
  | .fexp2 d a => some (fexp2Alu d a)
  | .fsin d a => some (fsinAlu d a)
  | .fcos d a => some (fcosAlu d a)
  | .ftanh d a => some (ftanhAlu d a)
  | .padd2 bf16 d a b => some (padd2Alu bf16 d a b)
  | .pmul2 bf16 d a b => some (pmul2Alu bf16 d a b)
  | .pfma2 bf16 d a b => some (pfma2Alu bf16 d a b)
  | .fcvt m sel d a => some (fcvtAlu m sel d a)
  | .fcvts f d a b => some (fcvtsAlu f d a b)
  | .vqdec table d a => some (vqdecAlu table d a)
  | _ => none

/-- A value of a source that has landed. -/
def Src.value : Src → Word
  | .ready w => w
  | .tag _ => 0

/-- Whether every source has landed. -/
def Resid.landed (r : Resid) : Bool :=
  r.srcs.all fun x =>
    match x with
    | .ready _ => true
    | .tag _ => false

/-- The source values. -/
def Resid.values (r : Resid) : List Word := r.srcs.map Src.value

/-- Whether a residual entry is a closure. -/
def Resid.isAlu (r : Resid) : Bool := r.kind == .alu

/-- The PRIO of the grid of a group. -/
def State.prioOf (s : State) (g : Nat) : Nat := (s.grid (s.group g).grid).pkt.prio

/-- The closure of a core that the residual slot takes, of those whose sources have landed: of the highest grid PRIO, the oldest (R86,
R106). -/
def State.readyClosure (s : State) (core : Nat) : Option (Nat × Resid) :=
  let rs := s.resid.filter fun e => coreOf e.2.g == core && e.2.isAlu && e.2.landed
  rs.find? fun e => rs.all fun f => s.prioOf f.2.g ≤ s.prioOf e.2.g

/-- CLOSURE_RUN (R106): the core's oldest ready closure computes and delivers. -/
def execClosureRun (id : Nat) (s : State) : Out State :=
  match tabGet s.resid id with
  | none => .fault .notEnabled
  | some r =>
    match s.readyClosure (coreOf r.g), Instr.alu r.ins with
    | some (k, _), some u =>
      if k = id then
        let x := s.group r.g
        let ws := u.f (s.env (s.grid x.grid) r.lane) r.values
        .next ({ s with resid := tabDel s.resid id }.landAll r.g x.uid r.lane (fun _ => false) r.dsts ws)
      else .fault .notEnabled
    | _, _ => .fault .notEnabled

/-! ### Chain entries -/

/-- The size of a load. -/
def loadSize : Instr → Size
  | .ld _ z .. | .lds z .. | .ldu z .. => z
  | _ => .b32

/-- Whether a chain entry carries a release (Table 8.2). -/
def Resid.releases (r : Resid) : Bool :=
  match r.kind with
  | .fence _ => true
  | .store _ _ _ rel => rel
  | .atomic .. => Machine.releases r.ins
  | _ => false

/-- Whether a load that was captured before an entry, and that has a lane of it, has not issued. -/
def State.olderLoad (s : State) (id : Nat) (r : Resid) : Bool :=
  (r.lane :: r.lanes).any fun l => (s.heldLoads r.g l).any fun e => decide (e.1 < id)

/-- Whether a load or chain entry of a thread can go on: a load once the entries it waits for have performed, an entry once its data has
landed and it is the oldest of its chain, after the loads captured before it (R190), a release after the thread's ICINVs (R108, R109,
R140). -/
def State.chainReady (s : State) (id : Nat) (r : Resid) : Bool :=
  match r.kind with
  | .alu => false
  | .half .. => true
  | .load .. | .read .. => s.loadFree r
  | _ => !s.olderLoad id r && r.landed && ((s.chain r.g r.lane).head?.map (·.1) == some id) && !(r.releases && s.icinvOut r.g r.lane)

/-- What is left of an entry whose value returns later. -/
def Resid.toOp (r : Resid) (s : State) (vals : List Word) (va : Nat) (loc : Loc) (n : Nat) (isLoad : Bool) : MemOp :=
  { g := r.g, uid := (s.group r.g).uid, lane := r.lane, lanes := r.lanes, dsts := r.dsts, vals := vals, flag := r.flag, va := va
    pa := match loc with | .phys pa => some (pa, n) | _ => none
    hdr := r.hdr, issue := r.issue, since := s.clock, stale := r.stale, isLoad := isLoad, lost := s.lostLoc loc n
    acq := match r.ins with | .ld true .. => true | _ => false }

/-- What happens-before a release in the chain as it performs: what did at its place in program order, and what the thread has done. -/
def Resid.knowNow (r : Resid) (s : State) : Tab Nat := joinTimes r.know [(s.thread r.g r.lane, s.clock)]

/-- What an atomic of the chain has acquired happens-before the releases that come after it in the chain (R188). -/
def State.chainKnows (s : State) (r : Resid) : State :=
  match (orderingOf r.ins).1 with
  | none => s
  | some _ =>
    let know := (s.ordOf (s.thread r.g r.lane)).seen
    { s with resid := tabMap s.resid fun _ e =>
        if e.g == r.g && e.lane == r.lane && e.know != [] then { e with know := joinTimes e.know know } else e }

/-- The second access of a B128 store is made, and the store's flag counts down (R112, R185). -/
def State.performHalf (s : State) (id : Nat) (r : Resid) : State :=
  match r.kind with
  | .half loc va bs =>
    let x := s.group r.g
    let t := ({ s with resid := tabDel s.resid id } : State).noteActed r.g r.lane
    (t.storeAs r.ins r.g r.lane x.team va loc bs (r.knowNow t)).countDown r.g x.uid r.lanes r.flag
  | _ => s

/-- The second accesses of a thread's B128 stores, which come before all that it does next (R188). -/
def State.finishHalves (s : State) (g l : Nat) : State :=
  (s.resid.filter fun e => e.2.g == g && e.2.lane == l && e.2.isHalf).foldl (fun t e => t.performHalf e.1 e.2) s

/-- Whether an ESEAL of an epoch is to cover a chain entry, a VAPP having come after it (R197). -/
def State.sealWaits (s : State) (id : Nat) : Bool := s.ctxs.any fun c => c.2.epochs.any fun e => e.2.behind.contains id

/-- The epochs whose VAPPs come after a chain entry know it as it has performed (R197). -/
def State.sealLearns (s : State) (id : Nat) (know : Tab Nat) : State :=
  let learn (e : Epoch) : Epoch :=
    if e.behind.contains id then { e with behind := e.behind.filter (· != id), know := joinTimes e.know know } else e
  if s.sealWaits id then
    { s with ctxs := tabMap s.ctxs fun _ c => { c with epochs := tabMap c.epochs fun _ e => learn e } }
  else s

/-- A load or chain entry performs, the thread's halves having done so. -/
def State.performEntry (s : State) (id : Nat) (r : Resid) : State :=
  let x := s.group r.g
  let t := ({ s with resid := tabDel s.resid id } : State).noteActed r.g r.lane
  let done (u : State) : State := u.countDown r.g x.uid r.lanes r.flag
  match r.kind with
  | .alu => s
  | .half .. => s.performHalf id r
  | .store loc n va _ =>
    let whole := s.sealWaits id
    let u := t.storeParts r.ins r.g r.lane x.team va loc (wordsBytes n r.values) (r.knowNow t) whole r.lanes r.flag
    if t.leaves r.g r.lane x.team n whole then u else done u
  | .fence _ => done (t.fenceAs r.g r.lane r.ins (r.knowNow t))
  | .load _ loc n va =>
    let ls := r.lane :: r.lanes.filter fun l => l != r.lane
    let missed := s.missed r.g ls r.ins loc
    let vals := (loadSize r.ins).extend (s.loadRead r.g r.lane x.team va loc n missed)
    ({ t.touchLoc (dieOf (coreOf r.g)) loc n with ops := tabSet t.ops id (r.toOp s vals va loc n true) } : State).readAs r.ins
      r.g ls loc n (s.relsRead loc n missed) missed
  | .read _ vals ps since =>
    let vals := if ps.all fun p => (s.moments p.loc p.len since).isEmpty then vals else s.freeWords (2 ^ 62 + 64 * id) vals.length
    { t with ops := tabSet t.ops id (r.toOp s vals 0 (.spad 0 0 0) 0 true) }
  | .atomic loc va =>
    if s.lostLoc loc (atomBytes r.ins) then
      if r.dsts = [] then done t
      else { t with ops := tabSet t.ops id (r.toOp s [] va loc (atomBytes r.ins) false) }
    else
      let p := t.atomicAs r.g r.lane r.ins loc r.values r.know
      let u := (p.1.irrevIn r.g [r.lane]).chainKnows r
      if r.dsts = [] then done u
      else { u with ops := tabSet u.ops id (r.toOp s p.2 va loc (atomBytes r.ins) false) }

/-- CHAIN_ENTRY_PERFORM (R108, R109, R112). -/
def execChainEntryPerform (id : Nat) (s : State) : Out State :=
  match tabGet s.resid id with
  | none => .fault .notEnabled
  | some r =>
    if !s.chainReady id r then .fault .notEnabled
    else if r.isHalf then .next (s.performHalf id r)
    else
      let t := (r.lane :: r.lanes.filter fun l => l != r.lane).foldl (fun t l => t.finishHalves r.g l) s
      .next ((t.performEntry id r).sealLearns id [(s.thread r.g r.lane, s.clock)])

/-! ### Engines -/

/-- MATRIX_COMMAND_COMPLETE (R239, R446): a command that its port lets go. -/
def execMatrixCommandComplete (id : Nat) (s : State) : Out State :=
  let core := s.portOf id
  match s.portFree core id with
  | none => .fault .notEnabled
  | some m => .next ((s.portDone core m).count core (s.grid (s.team m.own.team).grid).ctx 8 1)

/-- COPY_COMMAND_COMPLETE (R334, R344): the oldest command of the copy engine, unless it waits for a ring slot. -/
def execCopyCommandComplete (core : Nat) (s : State) : Out State :=
  match (s.core core).copyq with
  | [] => .fault .notEnabled
  | q :: r =>
    let t := s.modCore core fun c => { c with copyq := r }
    match q.work with
    | .chain rec src src2 dst => .next ((t.performChain core q.own.async rec src src2 dst).ownerDone q.own)
    | .copy src dst ring =>
      match t.performCopy core q.own src dst ring with
      | none => .fault .notEnabled
      | some u => .next (u.ownerDone q.own)

/-- Whether the ranks of a collective agree (R340). -/
def collsAgree (r peers : List Byte) (device : Nat) (others : List (List Byte)) : Bool :=
  let n := fld r 4 2
  let rank := fld r 6 2
  let ids := (upto n).map fun q => fld peers (2 * q) 2
  fld peers (2 * rank) 2 == device && (upto n).all (fun q => (ids.take q).all fun k => k != ids.getD q 0) &&
    (upto n).all fun q => q == rank || collAgree r peers q (others.getD q [])

/-- The source bytes of every rank: this one's own, and what the others sent. -/
def collSources (r own : List Byte) (others : List (List Byte)) : List (List Byte) :=
  let n := fld r 4 2
  (upto n).map fun q => if q = fld r 6 2 then own else (others.getD q []).drop (64 + 2 * n)

/-- COLLECTIVE_COMPLETE (R339, R340): `peers` holds, for each rank, its record, its PEERS contents and its SRC bytes. -/
def execCollectiveComplete (id : Nat) (peers : List (List Byte)) (s : State) : Out State :=
  match tabGet s.colls id with
  | none => .fault .notEnabled
  | some q =>
    let r := q.record
    let n := fld r 4 2
    let earlier := s.colls.any fun e => decide (e.1 < id) && fld e.2.record 0x28 4 == fld r 0x28 4
    if earlier || peers.length != n then .fault .notEnabled
    else
      let agent := dieOf q.core
      let e := elemBytes (fld r 2 1)
      let size := (q.dst.map (·.len)).foldl (· + ·) 0
      let out :=
        if collsAgree r q.peers s.flash.device peers then
          (collResult r ((collSources r (s.engineBytes q.since q.src) peers).map (elems e))).flatMap (leBytes e)
        else s.freeBytes (2 ^ 54) size
      let t := { (s.touchPieces agent q.src).writePieces agent q.dst out with colls := tabDel s.colls id }
      let t := match q.own with
        | some o => t.ownerDone o
        | none => t
      .next (match q.grid with
        | some k => t.modGrid k fun gr => { gr with done := true }
        | none => t)

/-! ### Page walks and lattice copies -/

/-- PAGE_WALK_COMPLETE (R165): a walk that ends in a translation some access may use fills the core's TLB; one that raises a fault, or
PERMISSION for every access, fills nothing, and the fault is raised at the access. -/
def execPageWalkComplete (core ctx va : Nat) (s : State) : Out State :=
  if Config.cores ≤ core || (tabGet s.ctxs ctx).isNone || (s.tlbHit core ctx va).isSome then .fault .notEnabled
  else
    match s.walk ctx va with
    | none => .next s
    | some e =>
      if [Acc.load, .store, .atomic, .fetch].all (fun a => !e.allows true a) then .next s
      else .next (s.modCore core fun c =>
        { c with tlb := (if Config.tlbEntries ≤ c.tlb.length then c.tlb.drop 1 else c.tlb) ++ [e] })

/-- LATTICE_COPY_COMPLETE (R145): the oldest copy of the context is made on every core, and its SYSWR completes. -/
def execLatticeCopyComplete (ctx : Nat) (s : State) : Out State :=
  match (s.ctx ctx).latCopies with
  | [] => .fault .notEnabled
  | q :: r =>
    let t := s.modCtx ctx fun c => { c with latCopies := r, lattice := c.lattice.set q.table q.image }
    .next (t.modGroup q.g fun x =>
      if x.uid = q.uid then
        { x with lanes := q.lanes.foldl (fun m l =>
            tabMod m l fun y => if y.park = .copy then { y.advance 1 with stamp := s.clock } else y) x.lanes }
      else x)

end Sys2Proof.Machine
end

