-- ==== Sys2Proof/Machine/Launch.lean ====
section
/-!
DEFINITION. Launch packets and what the Drover checks of them (R64-R67, R82-R84, R169, R175, R269, R272, R341), the room of a core, the
start of teams (R30, R36, R37, R40, R223, R274), and the rasteriser's coverage (R273).
-/

namespace Sys2Proof.Machine

/-! ### Fields (Table 3.1) -/

/-- The packet that 128 bytes describe; a KIND 3 packet has no bin timer field and no Y and Z extents. -/
def parsePacket (b : List Byte) : Packet :=
  let raster := fld b 0 1 == 3
  { kind := fld b 0 1, prio := fld b 1 1, flags := fld b 2 2, resid := fld b 4 4, entry := BitVec.ofNat 64 (fld b 8 8)
    args := BitVec.ofNat 64 (fld b 0x10 8)
    gx := if raster then 1 else fld b 0x18 4
    gy := if raster then 1 else fld b 0x1C 4
    gz := if raster then 1 else fld b 0x20 4
    teamSize := fld b 0x24 4, roles := [fld b 0x28 2, fld b 0x2A 2, fld b 0x2C 2]
    vbud := [fld b 0x30 2, fld b 0x32 2, fld b 0x34 2], ubud := fld b 0x36 2, spad := fld b 0x38 4
    ringTab := fld b 0x3C 4, map := BitVec.ofNat 64 (fld b 0x40 8), signal := BitVec.ofNat 64 (fld b 0x48 8)
    counter := fld b 0x50 4, seed := BitVec.ofNat 64 (fld b 0x58 8), handler := BitVec.ofNat 64 (fld b 0x60 8)
    spill := BitVec.ofNat 64 (fld b 0x68 8), watchdog := fld b 0x70 4
    binTimer := if raster then 0 else fld b 0x74 4
    raw := b }

/-- Groups of a role. -/
def Packet.roleGroups (p : Packet) (r : Nat) : Nat := p.roles.getD r 0

/-- Groups of a team. -/
def Packet.groups (p : Packet) : Nat := p.teamSize / 32

/-- The watchdog period in cycles (offset 0x70). -/
def Packet.watchCycles (p : Packet) : Nat := (if p.watchdog = 0 then 2000 else p.watchdog) * 2500000

/-- The bin timer in cycles (offset 0x74). -/
def Packet.binCycles (p : Packet) : Nat := (if p.binTimer = 0 then 2000 else p.binTimer) * 5 / 2

/-- A completion signal field that passes its check. -/
def signalOk (b : List Byte) : Bool := fld b 0x48 8 != 0 && fld b 0x48 8 % 8 == 0

/-- The signal, the counter and the last field, which every KIND keeps. -/
def endOk (b : List Byte) : Bool :=
  fld b 1 1 ≤ 7 && signalOk b && (fld b 0x50 4 < 65536 || fld b 0x50 4 == 0xFFFFFFFF) && zeros b 0x78 8

/-- Offsets 0x00-0x0F and the fields of `endOk` (R65). -/
def keptOk (b : List Byte) : Bool :=
  endOk b && fld b 2 2 < 64 && 1 ≤ fld b 4 4 && fld b 4 4 ≤ 64 && fld b 8 8 != 0 && fld b 8 8 % 4 == 0

/-- A budget of a role with or without groups. -/
def budgetOk (groups budget : Nat) : Bool := if groups = 0 then budget == 0 else 1 ≤ budget && budget ≤ 1056

/-- The fields from the team size on that KIND 1 and KIND 3 share. -/
def teamOk (b : List Byte) : Bool :=
  let p := parsePacket b
  let map := fld b 0x40 8
  keptOk b && 32 ≤ p.teamSize && p.teamSize ≤ 32768 && p.teamSize % 32 == 0 &&
    (p.roleGroups 0 + p.roleGroups 1 + p.roleGroups 2) * 32 == p.teamSize && 1 ≤ p.roleGroups 0 && zeros b 0x2E 2 &&
    ((upto 3).all fun r => budgetOk (p.roleGroups r) (p.vbud.getD r 0)) && 1 ≤ p.ubud && p.ubud ≤ 128 &&
    p.spad ≤ 8388608 && p.spad % 128 == 0 && p.ringTab % 8 == 0 && (p.pmap == (map != 0 && map % 16 == 0)) &&
    fld b 0x60 8 % 4 == 0 && fld b 0x68 8 != 0 && fld b 0x68 8 % 128 == 0 && p.watchdog ≤ 600000

/-- KIND 1. -/
def gridOk (b : List Byte) : Bool :=
  let p := parsePacket b
  teamOk b && 1 ≤ p.gx && p.gx < 2 ^ 31 && 1 ≤ p.gy && p.gy ≤ 65535 && 1 ≤ p.gz && p.gz ≤ 65535 && zeros b 0x54 4 &&
    (p.binTimer == 0 || (100 ≤ p.binTimer && p.binTimer ≤ 100000))

/-- A target extent. -/
def extentOk (n : Nat) : Bool := 1 ≤ n && n ≤ 16384

/-- A finite FP32 that is not negative. -/
def notNegative (x : Nat) : Bool :=
  match fp32.decode x with
  | .fin s m _ => !s || m == 0
  | _ => false

/-- KIND 2 (Table 14.11). -/
def reprojectOk (b : List Byte) : Bool :=
  keptOk b && fld b 0x10 8 % 8 == 0 && fld b 0x18 8 % 4 == 0 && fld b 0x20 8 % 64 == 0 && fld b 0x28 8 % 64 == 0 &&
    fld b 0x30 8 % 8 == 0 && fld b 0x38 8 % 8 == 0 && extentOk (fld b 0x40 2) && extentOk (fld b 0x42 2) &&
    notNegative (fld b 0x44 4) && fld b 0x54 1 < 64 && zeros b 0x55 3 && fld b 0x58 8 % 128 == 0 &&
    notNegative (fld b 0x60 4) && zeros b 0x64 20

/-- KIND 3 (Table 14.12). -/
def rasterOk (b : List Byte) : Bool :=
  let p := parsePacket b
  teamOk b && p.roleGroups 1 == 0 && p.roleGroups 2 == 0 && fld b 0x18 8 % 16 == 0 && extentOk (fld b 0x20 2) &&
    extentOk (fld b 0x22 2) && 1 ≤ fld b 0x54 4 && fld b 0x54 4 ≤ 2 ^ 31

/-- KIND 4 (R341). -/
def collectiveOk (b : List Byte) : Bool := keptOk b && fld b 0x10 8 % 64 == 0 && zeros b 0x18 0x30 && zeros b 0x54 0x24

/-- KIND 5 (R65). -/
def markerOk (b : List Byte) : Bool := endOk b && zeros b 2 0x46 && zeros b 0x54 0x24

/-- The checks of Table 3.1 and R65. -/
def packetOk (b : List Byte) : Bool :=
  match fld b 0 1 with
  | 1 => gridOk b
  | 2 => reprojectOk b
  | 3 => rasterOk b
  | 4 => collectiveOk b
  | 5 => markerOk b
  | _ => false

/-! ### Stage rings (R175) -/

/-- A row of the ring table: id, slots, slot size, offset. -/
def ringRow (t : List Byte) (k : Nat) : Nat × Nat × Nat × Nat :=
  (fld t (8 + 16 * k) 1, fld t (9 + 16 * k) 1, fld t (0xC + 16 * k) 4, fld t (0x10 + 16 * k) 4)

/-- A row within Table 7.8 and within the slice. -/
def ringRowOk (t : List Byte) (spad k : Nat) : Bool :=
  let (i, n, z, o) := ringRow t k
  i < 16 && 2 ≤ n && n ≤ 64 && zeros t (0xA + 16 * k) 2 && z % 128 == 0 && 128 ≤ z && z ≤ 1048576 && o % 128 == 0 &&
    zeros t (0x14 + 16 * k) 4 && o + n * z ≤ spad

/-- Two rings of different ids that do not overlap. -/
def ringsApart (a b : Nat × Nat × Nat × Nat) : Bool :=
  a.1 != b.1 && (a.2.2.2 + a.2.1 * a.2.2.1 ≤ b.2.2.2 || b.2.2.2 + b.2.1 * b.2.2.1 ≤ a.2.2.2)

/-- The rings of a table of bytes, if the Drover accepts it. -/
def ringsOf (t : List Byte) (n spad : Nat) : Option (List (Nat × Nat × Nat × Nat)) :=
  if zeros t 4 4 && ((upto n).all fun k => ringRowOk t spad k) &&
      ((upto n).all fun k => (upto k).all fun j => ringsApart (ringRow t j) (ringRow t k)) then
    some ((upto n).map (ringRow t))
  else none

/-- The rings of a packet; a table that cannot be read, or an entry in no image, fails (log 32). -/
def State.packetRings (s : State) (w : Who) (p : Packet) : Option (List (Nat × Nat × Nat × Nat)) :=
  if p.ringTab = 0 then some []
  else
    match s.imageAt w.ctx p.entry.toNat with
    | none => none
    | some i =>
      match s.readVa w (i.base + p.ringTab) 8 with
      | .error _ => none
      | .ok h =>
        let n := fld h 0 4
        if n < 1 || 16 < n then none
        else
          match s.readVa w (i.base + p.ringTab) (8 + 16 * n) with
          | .error _ => none
          | .ok t => ringsOf t n p.spad

/-! ### Fit and room (R37, R67, R169) -/

/-- What groups ask of a core. -/
structure Need where
  groups : Nat := 0
  regs : Nat := 0
  resid : Nat := 0
  spad : Nat := 0
  deriving DecidableEq, Repr

/-- The sum of two. -/
def Need.add (a b : Need) : Need := ⟨a.groups + b.groups, a.regs + b.regs, a.resid + b.resid, a.spad + b.spad⟩

/-- Within what a core has. -/
def Need.fits (a : Need) : Bool := a.groups ≤ 64 && a.regs ≤ 98304 && a.resid ≤ 32768 && a.spad ≤ 8388608

/-- The role of a group index (R40). -/
def Packet.roleOf (p : Packet) (g : Nat) : Nat :=
  if g < p.roleGroups 0 then 0 else if g < p.roleGroups 0 + p.roleGroups 1 then 1 else 2

/-- What a group of a role asks. -/
def Packet.groupNeed (p : Packet) (role : Nat) : Need := ⟨1, 32 * p.vbud.getD role 0, 32 * p.resid, 0⟩

/-- What a handler team asks (R207). -/
def handlerNeed : Need := ⟨1, 32 * 64, 32 * 8, 0⟩

/-- What slice `k` of a team on `c` cores asks. -/
def Packet.sliceNeed (p : Packet) (c k : Nat) : Need :=
  ((upto p.groups).filter fun g => g % c == k).foldl (fun n g => n.add (p.groupNeed (p.roleOf g))) ⟨0, 0, 0, p.spad⟩

/-- Fittable on `c` cores. -/
def Packet.fittable (p : Packet) (c : Nat) : Bool :=
  (p.roleGroups 2 == 0 || p.spad == 8388608) && (upto c).all fun k => (p.sliceNeed c k).fits

/-- The least core count of a team. -/
def Packet.width (p : Packet) : Nat := (p.groups + 63) / 64

/-- The core count under DET (R84). -/
def Packet.detWidth (p : Packet) : Nat :=
  ([1, 2, 4, 5, 8, 10, 16].find? fun c =>
    decide (p.width ≤ c) && (p.roleGroups 2 == 0 || p.width < 2 || c % 2 == 0)).getD 16

/-- What the groups and slices resident on a core take. -/
def State.coreUse (s : State) (core : Nat) : Need :=
  let ofGroup (n : Need) (e : Nat × Group) : Need :=
    if coreOf e.1 != core then n
    else if (s.team e.2.team).handler.isSome then n.add handlerNeed
    else n.add ((s.grid e.2.grid).pkt.groupNeed e.2.role)
  let ofTeam (n : Need) (e : Nat × Team) : Need :=
    let t := e.2
    if t.cores.contains core && !t.finished && t.saved.isNone && !t.dynamic && t.handler.isNone then
      n.add ⟨0, 0, 0, (s.grid t.grid).pkt.spad⟩
    else n
  s.teams.foldl ofTeam (s.groups.foldl ofGroup {})

/-- Whether a core takes placement: its die in service, not quarantined. -/
def State.coreUp (s : State) (core : Nat) : Bool := core < Config.cores && s.dieUp (dieOf core) && !(s.core core).quarantined

/-- Whether a core has been picked of a victim grid for a packet that is not this grid's (R220). -/
def State.pickedAway (s : State) (k : Nat) (gr : Grid) (core : Nat) : Bool :=
  s.grids.any fun e => e.2.picked.any fun p =>
    p.1 == core &&
      !(e.1 != k && p.2.1 == gr.queue && (p.2.2 == some k || (p.2.2.isNone && (tabGet s.grids k).isNone)))

/-- Whether a core is open to a grid: no weight-store writes that it must wait for (R171), and not given to another packet (R220). -/
def State.coreOpen (s : State) (k : Nat) (gr : Grid) (core : Nat) : Bool :=
  s.coreUp core && gr.wloads.all (fun p => p.1 != dieOf core) && !s.pickedAway k gr core

/-- Whether a core has room. -/
def State.hasRoom (s : State) (core : Nat) (n : Need) : Bool := ((s.coreUse core).add n).fits

/-- Whether cores are open to a grid and have room for a team of it, slice by slice. -/
def State.teamRoom (s : State) (k : Nat) (gr : Grid) (cores : List Nat) : Bool :=
  (cores.zip (upto cores.length)).all fun e => s.coreOpen k gr e.1 && s.hasRoom e.1 (gr.pkt.sliceNeed cores.length e.2)

/-! ### Placement maps (R82, R84) -/

/-- Dies in service. -/
def State.diesUp (s : State) : List Nat := (upto 4).filter s.dieUp

/-- The modulo map. -/
def moduloMap (lc c : Nat) : List (Nat × Nat) := (upto (lc / c)).map fun i => (i * c, c)

/-- An entry of a map within R82. -/
def mapEntryOk (p : Packet) (lc e : Nat) : Bool :=
  let first := bits e 0 16
  let c := bits e 16 8
  bits e 24 8 == 0 && first + c ≤ lc && p.width ≤ c && c ≤ p.groups && first / 160 == (first + c - 1) / 160 &&
    (p.roleGroups 2 == 0 || c < 2 || (first % 2 == 0 && c % 2 == 0))

/-- LC and the entries of a packet's map, if it passes (R82). -/
def State.readMap (s : State) (w : Who) (p : Packet) : Option (Nat × List (Nat × Nat)) :=
  match s.readVa w p.map.toNat 16 with
  | .error _ => none
  | .ok h =>
    let lc := fld h 0 4
    let n := fld h 4 4
    if lc < 1 || 640 < lc || n < 1 || 2 ^ 20 < n || !zeros h 8 8 then none
    else
      match s.readVa w (p.map.toNat + 16) (4 * n) with
      | .error _ => none
      | .ok b =>
        let es := (parts 4 n b).map leNat
        let map := es.map fun e => (bits e 0 16, bits e 16 8)
        if es.all (mapEntryOk p lc) && (!p.det || map == moduloMap lc p.detWidth) then some (lc, map) else none

/-- LC and the entries of a packet; none of either where it is placed without a map. -/
def State.packetMap (s : State) (w : Who) (p : Packet) : Option (Nat × List (Nat × Nat)) :=
  if p.pmap then s.readMap w p
  else if p.det then some (160 * s.diesUp.length, moduloMap (160 * s.diesUp.length) p.detWidth)
  else some (0, [])

/-! ### The rasteriser (R273) -/

/-- An FP32 as a multiple of 2^-150. -/
def fixedOf (w : Word) : Option Int :=
  match asFp w with
  | .fin s m e => some (if s then -((m * 2 ^ (e + 150).toNat : Nat) : Int) else ((m * 2 ^ (e + 150).toNat : Nat) : Int))
  | _ => none

/-- A point of a plane. -/
abbrev Pt := Int × Int

/-- The edge function of a to b at a point. -/
def edgeAt (a b c : Pt) : Int := (b.1 - a.1) * (c.2 - a.2) - (b.2 - a.2) * (c.1 - a.1)

/-- Whether an edge covers a point at which its function is `e`. -/
def edgeCovers (a b : Pt) (e : Int) : Bool :=
  decide (0 < e) || (e == 0 && (decide (b.2 - a.2 < 0) || (b.2 == a.2 && decide (a.1 < b.1))))

/-- A vertex of a primitive in the plane. -/
def vertexPt (prim : List Byte) (ofs : Nat) : Option Pt :=
  match fixedOf (w32 (fld prim ofs 4)), fixedOf (w32 (fld prim (ofs + 4) 4)) with
  | some x, some y => some (x, y)
  | _, _ => none

/-- E1, E2 and A of a covered pixel. -/
def coverAt (a b c : Pt) (x y : Nat) : Option (Int × Int × Int) :=
  let p : Pt := ((2 * x + 1) * 2 ^ 149, (2 * y + 1) * 2 ^ 149)
  let e0 := edgeAt b c p
  let e1 := edgeAt c a p
  let e2 := edgeAt a b p
  let area := e0 + e1 + e2
  let sgn : Int := if area < 0 then -1 else 1
  if area ≠ 0 && edgeCovers b c (sgn * e0) && edgeCovers c a (sgn * e1) && edgeCovers a b (sgn * e2) then
    some (sgn * e1, sgn * e2, sgn * area)
  else none

/-- The words v2 to v5 of a fragment. -/
def fragWords (prim : List Byte) (e : Int × Int × Int) : List Word :=
  let u := toFp .rne (divVal (Val.ofInt e.1) (Val.ofInt e.2.2))
  let v := toFp .rne (divVal (Val.ofInt e.2.1) (Val.ofInt e.2.2))
  let z (k : Nat) : Word := w32 (fld prim (12 * k + 8) 4)
  [u, v, faddW (faddW (z 0) (fmulW u (fsubW (z 1) (z 0)))) (fmulW v (fsubW (z 2) (z 0))), w32 (fld prim 0x24 4)]

/-- The fragments of a triangle, by row and column; vertices that are not finite cover nothing (log 31). -/
def triFrags (prim : List Byte) (t w h : Nat) : List (Nat × Nat × Nat × List Word) :=
  match vertexPt prim 0, vertexPt prim 0xC, vertexPt prim 0x18 with
  | some a, some b, some c =>
    (upto h).flatMap fun y => (upto w).filterMap fun x => (coverAt a b c x y).map fun e => (t, x, y, fragWords prim e)
  | _, _, _ => []

/-- Bytes that a unit reads; undefined where the read fails (log 30). -/
def State.unitBytes (s : State) (w : Who) (va n salt : Nat) : List Byte :=
  match s.readVa w va n with
  | .ok b => b
  | .error _ => s.freeBytes (2 ^ 50 + salt * 64) n

/-- The fragments of a KIND 3 packet. -/
def State.rasterFrags (s : State) (w : Who) (b : List Byte) : List (Nat × Nat × Nat × List Word) :=
  (upto (fld b 0x54 4)).flatMap fun t =>
    triFrags (s.unitBytes w (fld b 0x18 8 + 48 * t) 48 t) t (fld b 0x20 2) (fld b 0x22 2)

/-! ### Admission (R64) -/

/-- What the Drover has found of a packet that it accepts. -/
structure Plan where
  pkt : Packet
  rings : List (Nat × Nat × Nat × Nat) := []
  lc : Nat := 0
  entries : List (Nat × Nat) := []
  teams : Nat := 0
  frags : List (Nat × Nat × Nat × List Word) := []
  /-- The sides of a KIND 4 packet's collective, with its record. -/
  coll : Option (List Byte × List Piece × List Piece × List Piece) := none
  deriving DecidableEq, Repr

/-- The core counts that placement would use. -/
def Plan.widths (p : Plan) : List Nat := if p.entries = [] then [p.pkt.width] else p.entries.map (·.2)

/-- The record and sides of a KIND 4 packet's collective; one that fails its checks is a failed check of the packet (log 34). -/
def State.packetColl (s : State) (w : Who) (p : Packet) : Option (List Byte × List Piece × List Piece × List Piece) :=
  match s.readVa w p.args.toNat 64 with
  | .error _ => none
  | .ok r =>
    match s.collSides w r with
    | .error _ => none
    | .ok q => if collOk r then some (r, q) else none

/-- The checks of a packet, in the order of R64: the plan, or the status of its rejection. -/
def State.accepts (s : State) (q : Nat) (b : List Byte) : Except Nat Plan :=
  let p := parsePacket b
  let x := s.queue q
  let w := unitWho x.ctxid p.sys
  if !packetOk b then .error 1
  else
    let threads := p.kind == 1 || p.kind == 3
    match (if threads then s.packetRings w p else some []), (if p.kind = 4 then s.packetColl w p else none) with
    | none, _ => .error 1
    | some rings, coll =>
      if p.kind = 4 && coll.isNone then .error 1
      else if p.sys && !x.priv && !x.privok.contains x.r then .error 4
      else if !threads then .ok { pkt := p, coll := coll }
      else
        match s.packetMap w p with
        | none => .error 2
        | some (lc, entries) =>
          let frags := if p.kind = 3 then s.rasterFrags w b else []
          let plan : Plan :=
            { pkt := p, rings := rings, lc := lc, entries := entries, frags := frags
              teams := if p.kind = 3 then (frags.length + p.teamSize - 1) / p.teamSize else p.gx * p.gy * p.gz }
          if plan.widths.all p.fittable then .ok plan else .error 3

/-- What the checks of a packet read: its ring table and map, a raster packet's primitives, a collective's record and peers. -/
def State.packetRuns (s : State) (w : Who) (b : List Byte) : List (Nat × Nat) :=
  let p := parsePacket b
  let word (va : Nat) : Nat := match s.readVa w va 4 with | .ok x => leNat x | .error _ => 0
  let threads := p.kind == 1 || p.kind == 3
  let table := match s.imageAt w.ctx p.entry.toNat with
    | some i => if threads && p.ringTab != 0 then [(i.base + p.ringTab, 8 + 16 * min 16 (word (i.base + p.ringTab)))] else []
    | none => []
  let map := if threads && p.pmap then [(p.map.toNat, 16 + 4 * min (2 ^ 20) (word (p.map.toNat + 4)))] else []
  let prims := if p.kind = 3 then [(fld b 0x18 8, 48 * fld b 0x54 4)] else []
  let coll := if p.kind = 4 then [(p.args.toNat, 64)] else []
  table ++ map ++ prims ++ coll

/-- Who holds the lines that the checks of a packet read (R199). -/
def State.touchPacket (s : State) (q : Nat) (b : List Byte) : State :=
  if packetOk b then
    let w := unitWho (s.queue q).ctxid (parsePacket b).sys
    (s.packetRuns w b).foldl (fun t r => t.touchVa w r.1 r.2) s
  else s

/-! ### Starting threads (R30, R36, R37, R40, R274) -/

/-- A slice at the start of its team (R176). -/
def newSlice (rings : List (Nat × Nat × Nat × Nat)) (seed : Nat) : Slice :=
  { seed := seed
    rings := rings.foldl (fun t r => tabSet t r.1 { n := r.2.1, size := r.2.2.1, ofs := r.2.2.2, free := r.2.1 }) [] }

/-- A thread at its entry, with values in v0 on. -/
def newLane (entry : DWord) (index spawn : Nat) (vs : List Word) (frag : Option Frag) (clock : Nat) : Lane :=
  { pc := entry, hdr := entry, rgnHdr := entry, tix := index, spawnIdx := spawn, frag := frag, stamp := clock
    regs := (upto vs.length).zip vs, resident := upto vs.length }

/-- A group of started threads: s0:s1 hold an address, and under DET every lane is the running set. -/
def newGroup (k team gidx role : Nat) (args : DWord) (lanes : Tab Lane) (det : Bool) : Group :=
  { ({ grid := k, team := team, gidx := gidx, role := role, lanes := lanes } : Group).argsOnly args with
    running := if det then maskOf (lanes.map (·.1)) else 0 }

/-- A group put in the lowest free slot of a core (log 67); its threads have acquired what happens-before the grid's first instruction (R78). -/
def State.addGroup (s : State) (core : Nat) (x : Group) : State :=
  match lowestFree s.groups (core * Config.slotsPerCore) Config.slotsPerCore with
  | none => s
  | some g =>
    ({ s with groups := tabSet s.groups g { x with uid := s.nextId }, nextId := s.nextId + 1 } : State).learnAll x.team x.lanes
      (s.grid x.grid).know

/-- The thread of a lane slot of a team of a grid, if the slot is not empty. -/
def Grid.thread (gr : Grid) (tid g l clock : Nat) : Option Lane :=
  let index := 32 * g + l
  if gr.pkt.kind = 3 then
    (gr.frags[tid * gr.pkt.teamSize + index]?).map fun f =>
      newLane gr.pkt.entry index index (w32 (f.2.1 + 2 ^ 16 * f.2.2.1) :: w32 f.1 :: f.2.2.2)
        (some ⟨f.2.1, f.2.2.1, tid * gr.pkt.teamSize + index⟩) clock
  else some (newLane gr.pkt.entry index index [] none clock)

/-- The threads of a group of a team. -/
def Grid.threads (gr : Grid) (tid g clock : Nat) : Tab Lane :=
  (upto 32).filterMap fun l => (gr.thread tid g l clock).map fun y => (l, y)

/-- A team's groups started on its cores. -/
def State.startGroups (s : State) (k team tid : Nat) (cores : List Nat) : State :=
  let gr := s.grid k
  (upto gr.pkt.groups).foldl (fun s g =>
    let ls := gr.threads tid g s.clock
    if ls = [] then s
    else
      (s.addGroup (cores.getD (g % cores.length) 0) (newGroup k team g (gr.pkt.roleOf g) gr.pkt.args ls gr.pkt.det)).modTeam
        team fun t => { t with groups := t.groups + 1 }) s

/-- The cores on which a grid starts are marked (R170). -/
def Grid.mark (gr : Grid) (cores : List Nat) (clock : Nat) : Grid :=
  { gr with starts := cores.foldl (fun t c => if (tabGet t c).isSome then t else tabSet t c clock) gr.starts }

/-- A team of a grid started on cores: a copy of it for checking, if `shadow` names the primary. -/
def State.startTeam (s : State) (k tid : Nat) (cores : List Nat) (lcore : Nat) (shadow : Option Nat) : State :=
  let gr := s.grid k
  let team := s.nextId
  let t : Team :=
    { grid := k, tid := tid, cores := cores, lcore := lcore, started := s.clock
      shadow := shadow.map fun p => { primary := p }
      slices := (upto cores.length).map fun j => (j, newSlice gr.rings (team * 1024 + j)) }
  let s := { s with nextId := team + 1, teams := tabSet s.teams team t }
  let s := s.modGrid k fun gr => (gr.mark cores s.clock)
  s.startGroups k team tid cores

/-- Whether a team is selected for checking (R223). -/
def State.selected (s : State) (p : Packet) (tid : Nat) : Bool :=
  p.check && bits (mix64 (p.seed ^^^ mix64 (BitVec.ofNat 64 tid))).toNat 0 10 == s.match_

/-- The runs of `c` cores of a die, lowest first; a run of several starts at an even core (R83). -/
def dieRuns (die c : Nat) : List (List Nat) :=
  (upto 160).filterMap fun f =>
    if f + c ≤ 160 && (c < 2 || f % 2 == 0) then some ((upto c).map fun j => 160 * die + f + j) else none

/-- The other cores of a die on which a shadow run has room: the lowest run. -/
def State.shadowCores (s : State) (k : Nat) (gr : Grid) (cores : List Nat) : Option (List Nat) :=
  (dieRuns (dieOf (cores.headD 0)) cores.length).find? fun r => r.all (fun x => !cores.contains x) && s.teamRoom k gr r

/-- The check of a team started: its shadow run, or an abandoned check (R223, R224). -/
def State.startCheck (s : State) (k team tid : Nat) (cores : List Nat) (lcore : Nat) : State :=
  let gr := s.grid k
  if s.selected gr.pkt tid then
    match s.shadowCores k gr cores with
    | none => { s with abandon := min 65535 (s.abandon + 1) }
    | some r =>
      let s := s.modTeam team fun t => { t with checked := true }
      s.startTeam k tid r (if gr.pkt.det then lcore else cores.headD 0 % Config.coresPerDie) (some team)
  else s

/-- A team placed: it starts. The grid's first start is a progress event; the watchdog goes on if it stood still because no team was
resident (R212). -/
def State.placeTeam (s : State) (k tid : Nat) (cores : List Nat) (lcore : Nat) : State :=
  let team := s.nextId
  let t := s.startTeam k tid cores lcore none
  let t := if (s.grid k).started then t.rewatch k
    else (t.modGrid k fun gr => { gr with started := true }).progressed k
  t.startCheck k team tid cores lcore

end Sys2Proof.Machine
end

