-- ==== Sys2Proof/Machine/Drover.lean ====
section
/-!
DEFINITION. The Drover: the choice of a packet, dealing and placement (R80-R85), the ends of grids (R62, R68, R212), held copies (R79),
the queue-table window (R70, R71, R74, R75, R299), handler teams (R207), bins and regroup timers (R53, R58, R59), and the reprojection
unit (R270, R271).
-/

namespace Sys2Proof.Machine

/-! ### Placement -/

/-- How teams of a grid are placed: at fixed cores, dealt to deques, or directly. -/
inductive PlaceMode where
  | fixed | dealt | direct
  deriving DecidableEq, Repr

/-- The mode of a grid (R82-R84). -/
def Grid.mode (gr : Grid) : PlaceMode := if gr.entries != [] then .fixed else if gr.pkt.width ≤ 1 then .dealt else .direct

/-- The cores of an entry of a map. -/
def entryCores (e : Nat × Nat) : List Nat := (upto e.2).map fun j => e.1 + j

/-- Teams of a grid that have started or are saved, without copies, bin groups and handlers. -/
def State.ownTeams (s : State) (k : Nat) : List Team :=
  (s.teams.filter fun e => e.2.grid == k && e.2.shadow.isNone && !e.2.dynamic && e.2.handler.isNone).map (·.2)

/-- The next team of each entry of a grid's map, in ascending order of team. -/
def State.nextFixed (s : State) (k : Nat) (gr : Grid) : List (Nat × Nat × Nat) :=
  let n := gr.entries.length
  let nexts := (gr.entries.zip (upto n)).filterMap fun e =>
    let tid := e.2 + n * ((s.ownTeams k).filter fun t => t.tid % n == e.2).length
    if tid < gr.teams then some (tid, e.1) else none
  sortBy (·.1) nexts

/-- A run of cores for a team placed directly: the lowest die, then the lowest first core (R83). -/
def State.directRun (s : State) (k : Nat) (gr : Grid) : Option (List Nat) :=
  (s.diesUp.flatMap fun d => dieRuns d gr.pkt.width).find? fun r => s.teamRoom k gr r

/-- Whether a grid has a saved team that waits for its restore, which goes before any other start (R220). -/
def State.savedWaits (s : State) (k : Nat) : Bool := s.teams.any fun e => e.2.grid == k && e.2.saved.isSome

/-- The next team that can be placed directly: its identifier, cores and first logical core. -/
def State.placeable (s : State) (k : Nat) (gr : Grid) : Option (Nat × List Nat × Nat) :=
  match gr.mode with
  | .dealt => none
  | .direct => if gr.dealt < gr.teams then (s.directRun k gr).map fun r => (gr.dealt, r, 0) else none
  | .fixed =>
    ((s.nextFixed k gr).find? fun e => s.teamRoom k gr (entryCores e.2)).map fun e => (e.1, entryCores e.2, e.2.1)

/-- TEAM_PLACE (R83, R84). -/
def execTeamPlace (grid : Nat) (s : State) : Out State :=
  match tabGet s.grids grid with
  | none => .fault .notEnabled
  | some gr =>
    if s.savedWaits grid then .fault .notEnabled
    else
      match s.placeable grid gr with
      | none => .fault .notEnabled
      | some (tid, cores, lcore) =>
        .next ((s.modGrid grid fun g => { g with dealt := g.dealt + 1 }).placeTeam grid tid cores lcore)

/-! ### Deques (R83) -/

/-- The core with the fewest entries, of those that hold fewer than 8 of a grid. -/
def State.dequeFor (s : State) (k : Nat) : Option Nat :=
  ((upto Config.cores).filter fun c => s.coreUp c && decide (((s.core c).deque.filter fun e => e.1 == k).length < 8)).foldl
    (fun best c =>
      match best with
      | none => some c
      | some b => if (s.core c).deque.length < (s.core b).deque.length then some c else some b) none

/-- Teams dealt in ascending order, at most a number of them. -/
def State.dealUpTo : Nat → State → Nat → State
  | 0, s, _ => s
  | f + 1, s, k =>
    let gr := s.grid k
    if gr.mode != .dealt || gr.teams ≤ gr.dealt then s
    else
      match s.dequeFor k with
      | none => s
      | some c =>
        State.dealUpTo f
          ((s.modCore c fun q => { q with deque := q.deque ++ [(k, gr.dealt)] }).modGrid k fun g => { g with dealt := g.dealt + 1 }) k

/-- Every team dealt that the deques take. -/
def State.deal (s : State) (k : Nat) : State := s.dealUpTo (8 * Config.cores) k

/-- Whether a core can start a dealt team. -/
def State.canStart (s : State) (core : Nat) (e : Nat × Nat) : Bool :=
  match tabGet s.grids e.1 with
  | none => false
  | some gr => !s.savedWaits e.1 && s.teamRoom e.1 gr [core]

/-- A dealt team starts on a core, and the next ones are dealt. -/
def State.startDealt (s : State) (core : Nat) (e : Nat × Nat) : State :=
  (s.placeTeam e.1 e.2 [core] 0).deal e.1

/-- OWNER_POP: the bottom entry. -/
def execOwnerPop (core : Nat) (s : State) : Out State :=
  match (s.core core).deque.getLast? with
  | none => .fault .notEnabled
  | some e =>
    if s.canStart core e then
      .next ((s.modCore core fun q => { q with deque := q.deque.dropLast }).startDealt core e)
    else .fault .notEnabled

/-- The longest deque of a die: the lowest core of equals. -/
def State.longestDeque (s : State) (die : Nat) : Option Nat :=
  ((upto 160).map (160 * die + ·)).foldl (fun best c =>
    match best with
    | none => if (s.core c).deque = [] then none else some c
    | some b => if (s.core b).deque.length < (s.core c).deque.length then some c else some b) none

/-- The deque that a thief steals from: of its own die, else of the others in ascending number. -/
def State.stealFrom (s : State) (core : Nat) : Option Nat :=
  (dieOf core :: (upto 4).filter (· != dieOf core)).findSome? s.longestDeque

/-- THIEF_STEAL: the top entry of the longest deque. -/
def execThiefSteal (core : Nat) (s : State) : Out State :=
  if (s.core core).deque != [] then .fault .notEnabled
  else
    match s.stealFrom core with
    | none => .fault .notEnabled
    | some v =>
      match (s.core v).deque with
      | [] => .fault .notEnabled
      | e :: r =>
        if s.canStart core e then .next ((s.modCore v fun q => { q with deque := r }).startDealt core e)
        else .fault .notEnabled

/-! ### The choice of a packet (R80, R81, R18) -/

/-- The PRIO of a queue's head. -/
def State.headPrio (s : State) (q : Nat) : Nat := (s.queue q).prio

/-- The effective priority of a queue's head: a level more for each full 2 ms since it became the head (R80). -/
def State.headLevel (s : State) (q : Nat) : Nat :=
  let x := s.queue q
  min 7 (x.prio + max x.boost ((s.clock - x.since) / 5000000))

/-- The grid that a plan becomes, `know` being what its packet brings (R78). -/
def State.planGrid (s : State) (q : Nat) (p : Plan) (know : Tab Nat) : Grid :=
  let ctx := (s.queue q).ctxid
  { ctx := ctx, id := (s.ctx ctx).nextGrid, queue := q, pkt := p.pkt, rings := p.rings, lc := p.lc, entries := p.entries
    teams := p.teams, frags := p.frags, accepted := s.clock, level := s.headLevel q, know := know
    wloads := (s.dies.flatMap fun d => d.2.held.filterMap fun h => h.load.map fun n => (d.1, n)).eraseDups }

/-- Whether a plan can be placed at all: its cores in service, and room for its first team where it is placed directly. -/
def State.planReady (s : State) (gr : Grid) : Bool :=
  gr.teams == 0 ||
    match gr.mode with
    | .dealt => (s.dequeFor s.nextId).isSome
    | .direct => (s.placeable s.nextId gr).isSome
    | .fixed => (gr.entries.all fun e => (entryCores e).all s.coreUp) && (s.placeable s.nextId gr).isSome

/-- The head of a queue. -/
def State.headBytes (s : State) (q : Nat) : Except (Cause × Nat) (List Byte) :=
  let x := s.queue q
  s.readVa x.who (x.slotAddr x.r) 128

/-- Whether a launch-mode queue has a head. -/
def State.hasHead (s : State) (q : Nat) : Bool :=
  let x := s.queue q
  x.en && !x.task && x.r < x.w

/-- Whether every earlier packet of a queue has been dealt. -/
def State.allDealt (s : State) (q : Nat) : Bool := s.grids.all fun e => e.2.queue != q || e.2.dealt == e.2.teams

/-- Whether every earlier packet of a queue has completed. -/
def State.pastDone (s : State) (q : Nat) : Bool := s.grids.all fun e => e.2.queue != q || e.2.ended

/-- Whether the head of a queue can be taken; a KIND 5 packet waits for the earlier ones, whether or not it passes its checks (R81). -/
def State.canTake (s : State) (q : Nat) : Bool :=
  1 ≤ s.level && s.hasHead q && s.allDealt q &&
    match s.headBytes q with
    | .error _ => true
    | .ok b =>
      match s.accepts q b with
      | .error _ => (parsePacket b).kind != 5 || s.pastDone q
      | .ok p =>
        if p.pkt.kind = 5 then s.pastDone q
        else if p.pkt.kind = 4 then s.colls.length < 256
        else if p.pkt.kind = 2 then true
        else s.planReady (s.planGrid q p [])

/-- The queue that the Drover serves next: the highest level, then round robin after the queue last served at it. -/
def State.droverChoice (s : State) : Option Nat :=
  let ready := (upto 64).filter s.canTake
  let level := ready.foldl (fun m q => max m (s.headLevel q)) 0
  let here := ready.filter fun q => s.headLevel q == level
  match here.find? (fun q => decide (tabGetD s.rr level 63 < q)) with
  | some q => some q
  | none => here.head?

/-! ### The reprojection unit (R270) -/

/-- What a pixel of a reprojection comes to. -/
inductive PixelOut where
  | pass (p t : Word)
  | fail
  | open' (a b : Word) (failed : Bool)

/-- The primitive of a global index, with the ray in its space: none where HITGET gives none; left open where the structure is outside
R250 or R251. -/
def State.reprojectPrim (s : State) (w : Who) (hva : Nat) (y : Ray) (p : Nat) : Reads (Option (Ray × List Byte)) :=
  andThen (s.header w 0 hva) fun h =>
    let n := fld h 0x10 4
    let prim (g : List Byte) (y : Ray) (i : Nat) : Reads (Option (Ray × List Byte)) :=
      if fld g 0x10 4 ≤ i then readless (some none)
      else andThen (s.structBytes w 0 (fld g 8 8 + 48 * i) 48) fun b => readless (some (some (y, b)))
    (if fld h 0x18 1 = 0 then prim h y p
    else
      andThen (s.structBytes w 0 (fld h 8 8) (64 * n)) fun rs =>
        match ((upto n).filter fun k => fld rs (64 * k + 0x38) 4 ≤ p).getLast? with
        | none => readless (some none)
        | some k =>
          let r := (rs.drop (64 * k)).take 64
          andThen (s.header w 0 (fld r 0x30 8)) fun g =>
            if fld g 0x18 1 != 0 then readless none
            else prim g ⟨mapPoint r y.o fpOne, y.tmin, mapPoint r y.d 0, y.tmax⟩ (p - fld r 0x38 4)).within (s.structOk w 0 h)

/-- The test of R270 on one pixel, and the runs of bytes that it reads. -/
def State.reprojectPixel (s : State) (w : Who) (b : List Byte) (x y : Nat) : PixelOut × List (Nat × Nat) :=
  let width := fld b 0x40 2
  let height := fld b 0x42 2
  let i := x + width * y
  let mv := s.unitBytes w (fld b 0x18 8 + 4 * i) 4 (4 * i)
  let first := (fld b 0x18 8 + 4 * i, 4)
  let fx := faddW (fpOf x) fpHalf
  let fy := faddW (fpOf y) fpHalf
  let px := faddW fx (toFp .rne (fp16.decode (fld mv 0 2)))
  let py := faddW fy (toFp .rne (fp16.decode (fld mv 2 2)))
  if !(fleW 0 px && fcondHolds .lt px (fpOf width) && fleW 0 py && fcondHolds .lt py (fpOf height)) then (.fail, [first])
  else
    let j := (floorVal (asFp px)).toNat + width * (floorVal (asFp py)).toNat
    let prev := s.unitBytes w (fld b 0x10 8 + 8 * j) 8 (4 * i + 1)
    let p := fld prev 0 4
    let z0 := w32 (fld prev 4 4)
    let second := (fld b 0x10 8 + 8 * j, 8)
    if p = 0xFFFFFFFF then (.fail, [first, second])
    else
      let cam := s.unitBytes w (fld b 0x20 8) 64 (4 * i + 2)
      let axis (d00 dx dy : Word) : Word := faddW (faddW d00 (fmulW fx dx)) (fmulW fy dy)
      let d00 := v3At cam 0xC
      let dx := v3At cam 0x18
      let dy := v3At cam 0x24
      let ray : Ray := ⟨v3At cam 0, 0, ⟨axis d00.x dx.x dy.x, axis d00.y dx.y dy.y, axis d00.z dx.z dy.z⟩, 0x7F800000⟩
      let found := s.reprojectPrim w (fld b 0x28 8) ray p
      (match found.val with
      | some none => .fail
      | some (some (ray, prim)) =>
        let (det, t, u, v) := triPlane ray prim
        let margin := w32 (fld b 0x60 4)
        let least := margin ^^^ 0x80000000
        let off := fsubW t z0 &&& 0x7FFFFFFF
        if !(asFp det).isZero && !(asFp det).isNan && fleW least u && fleW least v &&
            fleW (faddW u v) (faddW fpOne margin) && fleW off (fmulW (w32 (fld b 0x44 4)) z0) then .pass (w32 p) t
        else .fail
      | none => .open' (s.freeWord (2 ^ 49 + 4 * i)) (s.freeWord (2 ^ 49 + 4 * i + 1)) ((s.freeWord (2 ^ 49 + 4 * i + 2)).getLsbD 0),
    [first, second, (fld b 0x20 8, 64)] ++ found.runs)

/-- A write of the unit; one whose translation fails is dropped (log 30). -/
def State.unitWrite (s : State) (w : Who) (va : Nat) (bs : List Byte) : State :=
  match s.putVa w va bs with
  | .ok t => t
  | .error _ => s

/-- The pass over a frame: the state, and how many pixels failed. -/
def State.reproject (s : State) (w : Who) (b : List Byte) : State × Nat :=
  let width := fld b 0x40 2
  (upto (width * fld b 0x42 2)).foldl (fun (a : State × Nat) i =>
    let r := s.reprojectPixel w b (i % width) (i / width)
    let put (p t : Word) (failed : Bool) : State × Nat :=
      let u := (r.2.foldl (fun u k => u.touchVa w k.1 k.2) a.1).unitWrite w (fld b 0x30 8 + 8 * i) (leBytes 4 p.toNat ++ leBytes 4 t.toNat)
      if failed then (u.unitWrite w (fld b 0x38 8 + 8 + 4 * a.2) (leBytes 4 i), a.2 + 1) else (u, a.2)
    match r.1 with
    | .pass p t => put p t false
    | .fail => put 0xFFFFFFFF 0x7F800000 true
    | .open' p t f => put p t f) (s, 0)

/-! ### Taking a packet -/

/-- The copies held for a queue go with it when a fault of the Drover clears EN (R71, R79). -/
def State.shutQueue (s : State) (q : Nat) : State := (s.xlfault q).dropHolds q

/-- A rejected packet (R68). -/
def State.reject (s : State) (q : Nat) (b : List Byte) (status : Nat) (know : Tab Nat) : State :=
  let x := s.queue q
  s.writeSignal q x.ctxid x.priv (fld b 0x48 8) status know

/-- A packet accepted: its grid, and its first teams or its work. A KIND 4 packet's collective, which no core issues, reads and writes as an
agent of core 0 (log 71). -/
def State.accept (s : State) (q : Nat) (p : Plan) (know : Tab Nat) : State :=
  let gr := s.planGrid q p know
  let k := s.nextId
  let t := { s with nextId := k + 1, grids := tabSet s.grids k gr }.modCtx gr.ctx fun c => { c with nextGrid := c.nextGrid + 1 }
  let w := unitWho gr.ctx gr.pkt.sys
  match gr.pkt.kind with
  | 2 =>
    let r := t.reproject w gr.pkt.raw
    r.1.modGrid k fun g => { g with done := true, count := r.2 }
  | 4 =>
    match p.coll with
    | none => t
    | some (rec, peers, src, dst) =>
      { t.touchPieces 0 peers with
        nextId := t.nextId + 1
        colls := tabSet t.colls t.nextId ⟨0, none, some k, rec, t.readPieces peers, src, dst, some t.clock⟩ }
  | 5 => t.modGrid k fun g => { g with done := true }
  | _ => t.deal k

/-- The cores picked for the head of a queue: they go to its grid as it is taken, or back if it is rejected (R220). -/
def State.givePicks (s : State) (q : Nat) (k : Option Nat) : State :=
  { s with grids := tabMap s.grids fun _ g =>
      { g with picked := g.picked.filterMap fun p =>
          if p.2.1 == q && p.2.2.isNone then k.map fun n => (p.1, q, some n) else some p } }

/-- The head of a queue taken: copied out, the read index past it, checked (R64, R71, R73). -/
def State.takePacket (s : State) (q : Nat) : State :=
  let x := s.queue q
  match s.headBytes q with
  | .error _ => s.shutQueue q
  | .ok b =>
    match s.putVa x.who (x.field 8 8 + 0x80) (leBytes 8 (x.r + 1)) with
    | .error _ => s.shutQueue q
    | .ok t =>
      let verdict := s.accepts q b
      let know := s.knownAt (slotSync q x.r)
      let t := { t with rr := tabSet t.rr (s.headLevel q) q }
      let t := t.touchPacket q b
      let t := (t.touchVa x.who (x.slotAddr x.r) 128).modQueue q fun y =>
        { y with r := y.r + 1, boost := 0, since := s.clock, privok := y.privok.filter fun i => i != x.r }
      match verdict with
      | .error st => ((t.newHead q).givePicks q none).reject q b st know
      | .ok p => ((t.newHead q).givePicks q (some t.nextId)).accept q p know

/-- DROVER_TAKE_PACKET (R64, R80, R81). -/
def execDroverTakePacket (q : Nat) (s : State) : Out State :=
  if s.droverChoice = some q then .next (s.takePacket q) else .fault .notEnabled

/-- A timed event that is due at a moment comes no earlier. -/
def State.atLeast (s : State) (t : Nat) : State := { s with clock := max s.clock t }

/-- EFFECTIVE_PRIORITY_AGEING (R80): one level for each full 2 ms at the head. -/
def execEffectivePriorityAgeing (q : Nat) (s : State) : Out State :=
  let x := s.queue q
  if s.hasHead q && s.headPrio q + x.boost < 7 then
    .next ((s.atLeast (x.since + 5000000 * (x.boost + 1))).modQueue q fun y => { y with boost := y.boost + 1 })
  else .fault .notEnabled

/-! ### The ends of grids -/

/-- Whether a KIND 1, 3 or 4 grid is done. -/
def State.gridOver (s : State) (k : Nat) (gr : Grid) : Bool :=
  if gr.pkt.kind = 4 then gr.done && !gr.ended else (gr.pkt.kind == 1 || gr.pkt.kind == 3) && s.gridDone k

/-- GRID_COMPLETE (R62, R68). -/
def execGridComplete (grid : Nat) (s : State) : Out State :=
  match tabGet s.grids grid with
  | none => .fault .notEnabled
  | some gr => if s.gridOver grid gr then .next (s.finishGrid grid 0) else .fault .notEnabled

/-- MARKER_COMPLETE (R81). -/
def execMarkerComplete (grid : Nat) (s : State) : Out State :=
  match tabGet s.grids grid with
  | none => .fault .notEnabled
  | some gr =>
    if gr.pkt.kind = 5 && !gr.ended && (s.grids.all fun e => decide (grid ≤ e.1) || e.2.queue != gr.queue || e.2.ended) then .next (s.finishGrid grid 0)
    else .fault .notEnabled

/-- The follow-up packet of a reprojection, with its Grid X set (R271). -/
def followUp (b : List Byte) (count : Nat) : List Byte :=
  let size := fld b 0x24 4
  putBytes b 0x18 (leBytes 4 (max 1 ((count + size - 1) / size)))

/-- REPROJECTION_COMPLETE (R271). -/
def execReprojectionComplete (grid : Nat) (s : State) : Out State :=
  match tabGet s.grids grid with
  | none => .fault .notEnabled
  | some gr =>
    if gr.pkt.kind != 2 || gr.ended then .fault .notEnabled
    else
      let b := gr.pkt.raw
      let w := unitWho gr.ctx gr.pkt.sys
      let t := s.unitWrite w (fld b 0x38 8) (leBytes 4 gr.count ++ leBytes 4 0)
      let t := if fld b 0x58 8 = 0 then t
        else (t.touchVa w (fld b 0x58 8) 128).deliver (fld b 0x54 1)
          ⟨followUp (t.unitBytes w (fld b 0x58 8) 128 (2 ^ 30)) gr.count, none, t.gridKnows grid⟩
      .next (t.finishGrid grid 0)

/-- HOLD_LIST_DELIVERY (R79). -/
def execHoldListDelivery (q : Nat) (s : State) : Out State :=
  let x := s.queue q
  match x.hold with
  | [] => .fault .notEnabled
  | h :: r =>
    if x.slots ≤ x.w - x.r then .fault .notEnabled
    else
      match (s.modQueue q fun y => { y with hold := r }).pushHeld q h with
      | .ok t => .next t
      | .error _ => .next (s.shutQueue q)

/-- WATCHDOG_EXPIRY (R212, R213). -/
def execWatchdogExpiry (grid : Nat) (s : State) : Out State :=
  match tabGet s.grids grid with
  | none => .fault .notEnabled
  | some gr =>
    match gr.progress with
    | none => .fault .notEnabled
    | some t =>
      if s.watchSuspended grid || gr.paused.isSome then .fault .notEnabled
      else .next ((s.atLeast (t + gr.pkt.watchCycles)).abortGrid grid 0x11)

/-! ### The queue-table window (R70, R71, R74, R75, R299) -/

/-- The parts of a window write: its offset and bytes, whole or by 8 bytes. -/
def windowParts (ofs : Nat) (d : List Byte) : List (Nat × List Byte) :=
  let n := d.length
  if (n == 1 || n == 2 || n == 4 || n == 8) && ofs % n == 0 then [(ofs, d)]
  else if 8 < n && n % 8 == 0 && ofs % 8 == 0 then (upto (n / 8)).map fun k => (ofs + 8 * k, (d.drop (8 * k)).take 8)
  else []

/-- A descriptor within Table 3.5 that names a live context (R71). -/
def State.descOk (s : State) (x : Queue) : Bool :=
  (1 ≤ x.ctxid && x.ctxid ≤ 4095 && (tabGet s.ctxs x.ctxid).isSome) && 1 ≤ x.field 0x10 1 && x.field 0x10 1 ≤ 16 &&
    x.field 0 8 % (if x.task then 16 else 128) == 0 && x.field 8 8 % 256 == 0 && x.field 0x11 1 < 16 && zeros x.desc 0x18 40

/-- EN goes from 0 to 1: STATUS is cleared, and the indices are loaded and checked (R74). -/
def State.openQueue (s : State) (q : Nat) (x : Queue) : State :=
  let x := { x.setField 0x14 4 0 with boost := 0, since := s.clock, privok := [] }
  let s := (s.modQueue q fun _ => x).touchVa x.who (x.field 8 8) 256
  match s.readVa x.who (x.field 8 8) 8, s.readVa x.who (x.field 8 8 + 0x80) 8 with
  | .ok w, .ok r =>
    let w := leNat w
    let r := leNat r
    if w < r || r + x.slots < w then s.modQueue q fun x => ({ x with w := w, r := r }.orStatus 1).disable
    else (s.modQueue q fun x => { x with w := w, r := r }).newHead q
  | _, _ => s.xlfault q

/-- Bytes of a descriptor after a write; STATUS is read-only. -/
def writeDesc (d : List Byte) (o : Nat) (bs : List Byte) : List Byte :=
  putBytes (putBytes d o bs) 0x14 ((d.drop 0x14).take 4)

/-- One part of a window write (R70, R71). -/
def State.windowPart (s : State) (ofs : Nat) (bs : List Byte) : State :=
  let q := ofs / 64
  let o := ofs % 64
  let x := s.queue q
  let covers := o ≤ 0x11 && 0x11 < o + bs.length
  let sets := covers && bitAt (fld bs (0x11 - o) 1) 0
  if x.en then
    if covers && !sets then (s.modQueue q fun y => y.disable).dropHolds q else s
  else
    let y := { x with desc := writeDesc x.desc o bs }
    if sets && s.descOk y then s.openQueue q y else s.modQueue q fun _ => if sets then y.disable else y

/-- A write to the window, part by part. -/
def State.windowWrite (s : State) (ofs : Nat) (d : List Byte) : Out State :=
  if 0x1000 < ofs + d.length then .fault .notEnabled
  else .next ((windowParts ofs d).foldl (fun t p => t.windowPart p.1 p.2) s)

/-- QUEUE_DESCRIPTOR_WRITE (R70, R299). -/
def execQueueDescriptorWrite (offset : Nat) (data : List Byte) (s : State) : Out State := s.windowWrite offset data

/-- QUEUE_ENABLE (R71, R74): a window write that sets EN. -/
def execQueueEnable (offset : Nat) (data : List Byte) (s : State) : Out State := s.windowWrite offset data

/-- QUEUE_DISABLE (R70): a window write that clears EN. -/
def execQueueDisable (offset : Nat) (data : List Byte) (s : State) : Out State := s.windowWrite offset data

/-- WRITE_INDEX_ADVANCE (R73, R75): the write index in the index block has changed. -/
def execWriteIndexAdvance (q : Nat) (s : State) : Out State :=
  let x := s.queue q
  if !x.en || x.device then .fault .notEnabled
  else
    match s.readVa x.who (x.field 8 8) 8 with
    | .error _ => .next (s.shutQueue q)
    | .ok b =>
      let w := leNat b
      if w = x.w then .fault .notEnabled
      else if w < x.w || x.r + x.slots < w then .next (s.modQueue q fun y => (y.orStatus 1).disable)
      else
        let t := (s.touchVa x.who (x.field 8 8) 8).modQueue q fun y => { y with w := w }
        .next (if x.w = x.r then t.newHead q else t)

/-! ### Handler teams (R207) -/

/-- Whether a core starts groups of resident grids: its die in service and not parked, though it be quiescing (R307, R309). -/
def State.coreRuns (s : State) (core : Nat) : Bool :=
  let d := tabGetD s.dies (dieOf core) {}
  d.inService && !d.parked

/-- HANDLER_TEAM_START: the lowest core of the faulting group's die with room. -/
def execHandlerTeamStart (ctx record : Nat) (s : State) : Out State :=
  let c := s.ctx ctx
  match tabGet c.records record with
  | none => .fault .notEnabled
  | some r =>
    let gr := s.grid r.grid
    let die := dieOf (coreOf r.g)
    let open' (x : Nat) : Bool :=
      s.coreRuns x && !(s.core x).quarantined && !s.pickedAway r.grid gr x && s.hasRoom x handlerNeed
    match ((upto 160).map (160 * die + ·)).find? open' with
    | none => .fault .notEnabled
    | some core =>
      if !c.handlers.contains record then .fault .notEnabled
      else
        let k := s.nextId
        let t : Team :=
          { grid := r.grid, tid := 0, cores := [core], groups := 1, handler := some record, faulty := r.team, started := s.clock
            lcore := core % Config.coresPerDie, slices := [(0, newSlice [] (k * 1024))] }
        let lanes := (upto 32).map fun l => (l, newLane gr.pkt.handler l l [] none s.clock)
        let u := { s with nextId := k + 1, teams := tabSet s.teams k t }
        let u := u.modCtx ctx fun c => { c with handlers := c.handlers.filter fun n => n != record }
        let u := (u.modGrid r.grid fun g => g.mark [core] s.clock).learnAll k lanes r.know
        .next ((u.addGroup core (newGroup r.grid k 0 0 (BitVec.ofNat 64 r.addr) lanes gr.pkt.det)).rewatch r.grid)

/-! ### Bins and timers (R53, R58, R59, R61) -/

/-- REGROUP_TIMER_EXPIRY: 1,024 cycles after the first thread came to stand; a saved team's timer counts afresh from its restore (R405). -/
def execRegroupTimerExpiry (team core : Nat) (s : State) : Out State :=
  let t := s.team team
  match (tabGetD t.slices (t.sliceKey core) {}).timer with
  | none => .fault .notEnabled
  | some n =>
    if t.saved.isSome then .fault .notEnabled else .next ((s.atLeast (n + 1024)).regroupNow team core)

/-- BIN_TIMER_EXPIRY: the bin closes. -/
def execBinTimerExpiry (core bin : Nat) (s : State) : Out State :=
  match tabGet (s.core core).bins bin with
  | none => .fault .notEnabled
  | some b =>
    if b.closed then .fault .notEnabled
    else
      .next ((s.atLeast (b.timer + (s.grid b.grid).pkt.binCycles)).modCore core fun c =>
        { c with bins := tabMod c.bins bin fun x => { x with closed := true } })

/-- The team of bin groups that a bin's group joins: the grid's, or its parent's under DET. -/
def State.dynamicTeam (s : State) (grid : Nat) (parent : Option Nat) : Option Nat :=
  (s.teams.find? fun e => e.2.grid == grid && e.2.dynamic && e.2.cores.isEmpty && e.2.parent == parent).map (·.1)

/-- A state that holds the team of bin groups, and the team. -/
def State.withDynamic (s : State) (grid : Nat) (parent : Option Nat) : State × Nat :=
  match s.dynamicTeam grid parent with
  | some k => (s, k)
  | none =>
    let lcore := match parent with | some p => (s.team p).lcore | none => 0
    ({ s with
        nextId := s.nextId + 1
        teams := tabSet s.teams s.nextId
          { grid := grid, tid := 0, dynamic := true, parent := parent, lcore := lcore, started := s.clock } }, s.nextId)

/-- The threads of a bin group: item k in lane k, its payload in v0. -/
def binLanes (items : List Item) (pack clock : Nat) : Tab Lane :=
  (items.zip (upto items.length)).map fun e =>
    (e.2, newLane e.1.entry (32 * pack + e.2) (2 ^ 15 + 32 * pack + e.2) [e.1.payload] none clock)

/-- BIN_LAUNCH: a closed bin becomes a group on its core. -/
def execBinLaunch (core bin : Nat) (s : State) : Out State :=
  match tabGet (s.core core).bins bin with
  | none => .fault .notEnabled
  | some b =>
    let gr := s.grid b.grid
    if !b.closed || !s.coreRuns core || !s.hasRoom core (gr.pkt.groupNeed 0) then .fault .notEnabled
    else
      let r := s.withDynamic b.grid (if gr.pkt.det then some b.team else none)
      let pack := if gr.pkt.det then b.pack else (r.1.team r.2).packs
      let x := newGroup b.grid r.2 pack 0 gr.pkt.args (binLanes b.items pack s.clock) gr.pkt.det
      let t := r.1.modTeam r.2 fun t => { t with groups := t.groups + 1, packs := t.packs + 1 }
      let t := t.modCore core fun c => { c with bins := tabDel c.bins bin }
      let t := ((t.modGrid b.grid fun g => g.mark [core] s.clock).addGroup core
        { x with bin := some (b.items.length, pack) }).rewatch b.grid
      .next (if s.quiescing core then t.quiesceSaves [core] else t)

end Sys2Proof.Machine
end

