-- ==== Sys2Proof/Machine/Saves.lean ====
section
/-!
DEFINITION. Saves and restores of teams (R97, R214-R218), spatial pre-emption (R219, R220), parity errors and quarantine (R100, R101, R221,
R222), and the comparison of checked runs (R225).
-/

namespace Sys2Proof.Machine

/-! ### Records (Tables 4.2, 9.5 and 9.6) -/

/-- Bytes padded with zeros to a multiple of 8. -/
def pad8 (l : List Byte) : List Byte := l ++ List.replicate ((8 - l.length % 8) % 8) 0

/-- A bitmap of `n` bytes of the keys of a table. -/
def keyBitmap (n : Nat) (t : Tab Word) : List Byte :=
  (upto n).map fun k => BitVec.ofNat 8 (((upto 8).filter fun b => (tabGet t (8 * k + b)).isSome).foldl (fun m b => m + 2 ^ b) 0)

/-- The values of a table. -/
def valueBytes (t : Tab Word) : List Byte := t.flatMap fun e => leBytes 4 e.2.toNat

/-- A vector record. -/
def vectorRecord (y : Lane) : List Byte :=
  pad8 (leBytes 2 y.wb ++ leBytes 2 y.regs.length ++ leBytes 4 0 ++ keyBitmap 132 y.regs ++ leBytes 4 0 ++ valueBytes y.regs)

/-- A uniform record. -/
def uniformRecord (x : Group) : List Byte := pad8 (keyBitmap 16 x.sregs ++ valueBytes x.sregs)

/-- A predicate record. -/
def predRecord (x : Group) : List Byte :=
  (upto 16).flatMap fun p => leBytes 4 (maskOf ((x.lanes.filter fun e => e.2.preds.getLsbD p).map (·.1))).toNat

/-- A barrier record. -/
def barrierRecord (x : Group) : List Byte :=
  (upto 8).flatMap fun k => leBytes 4 (x.enrolled k).toNat ++ leBytes 4 (x.arrived k).toNat

/-- The mask of lanes of a group with a property. -/
def Group.maskWhere (x : Group) (p : Nat → Lane → Bool) : Nat := (maskOf ((x.lanes.filter fun e => p e.1 e.2).map (·.1))).toNat

/-- Waits at a JOIN. -/
def Lane.atJoin (y : Lane) : Bool := match y.park with | .join _ => true | _ => false

/-- The stream position of a header, or the address itself. -/
def Image.position (i : Image) (pc : Nat) : Nat := tabGetD i.pos ((pc - i.code) / 4) pc

/-- A group record: in a portable save, program counters are stream positions (R218). -/
def groupRecord (x : Group) (trap : Nat) (pcOf : Nat → Nat) : List Byte :=
  let faults := match x.trap with | some t => t.faults.map (·.1) | none => []
  leBytes 2 x.gidx ++ leBytes 1 x.role ++ leBytes 1 0 ++ leBytes 4 (x.maskWhere fun _ y => y.fin) ++
    leBytes 4 (maskOf ((upto 32).filter fun l => (tabGet x.lanes l).isNone)).toNat ++ leBytes 4 (maskOf faults).toNat ++
    leBytes 4 (x.maskWhere fun _ y => y.atJoin) ++ leBytes 4 (x.maskWhere fun _ y => y.park == .stand) ++ leBytes 8 trap ++
    (upto 32).flatMap fun l => leBytes 8 (match tabGet x.lanes l with | some y => pcOf y.pc.toNat | none => 0)

/-- A group and the records of its registers. -/
def groupBytes (x : Group) (trap : Nat) (pcOf : Nat → Nat) : List Byte :=
  groupRecord x trap pcOf ++ ((upto 32).flatMap fun l => vectorRecord (tabGetD x.lanes l {})) ++ uniformRecord x ++ predRecord x ++
    barrierRecord x

/-- The tile record. -/
def tileRecord (x : Slice) : List Byte :=
  (upto 16).flatMap fun t => let v := x.tile t; leBytes 4 v.rows ++ leBytes 4 0 ++ (v.bytes.take (64 * v.rows))

/-- The accumulator record. -/
def accRecord (x : Slice) : List Byte :=
  (upto 8).flatMap fun a =>
    let v := x.acc a
    leBytes 4 v.rows ++ leBytes 4 64 ++ (v.cells.take (64 * v.rows)).flatMap fun w => leBytes 4 w.toNat

/-- A ring record. -/
def ringRecord (id : Nat) (r : Ring) : List Byte :=
  [id, r.free, r.filled, r.pi, r.ci, r.pc, r.fc, 0].flatMap (leBytes 1) ++
    leBytes 8 (((upto 64).filter r.phase).foldl (fun m k => m + 2 ^ k) 0) ++
    leBytes 24 ((upto 64).foldl (fun m k => m + r.state k * 8 ^ k) 0)

/-- What follows the header of a slice's record: its groups in ascending group index, tiles, accumulators, bytes, rings. -/
def sliceBytes (gs : List (Group × Nat)) (x : Slice) (spad : Nat) (pcOf : Nat → Nat) : List Byte :=
  (gs.flatMap fun g => groupBytes g.1 g.2 pcOf) ++ tileRecord x ++ accRecord x ++ (upto spad).map x.byte ++
    x.rings.flatMap fun r => ringRecord r.1 r.2

/-- Scratchpad bytes of a team's slices: handler teams and bin groups have none (R59, R207). -/
def Grid.spadOf (gr : Grid) (t : Team) : Nat := if t.dynamic || t.handler.isSome then 0 else gr.pkt.spad

/-- The team identifier in a record: bin groups have that of Table 9.2. -/
def Team.recordId (t : Team) : Nat := if t.dynamic then 2 ^ 64 - 1 else t.tid

/-- The record of a slice (R215). -/
def sliceRecord (gr : Grid) (t : Team) (k mode : Nat) (gs : List (Group × Nat)) (pcOf : Nat → Nat) : List Byte :=
  let x := tabGetD t.slices k {}
  let body := sliceBytes gs x (gr.spadOf t) pcOf
  leBytes 4 0x31564153 ++ leBytes 4 Config.buildTag.toNat ++ leBytes 8 gr.id ++ leBytes 8 t.recordId ++ leBytes 2 k ++
    leBytes 2 t.cores.length ++ leBytes 2 gs.length ++ leBytes 1 mode ++ leBytes 1 0 ++ leBytes 4 body.length ++
    leBytes 4 (gr.spadOf t) ++ leBytes 4 x.rings.length ++ List.replicate 20 0 ++ body

/-! ### The exact stop (R214) -/

/-- Whether a group has nothing outstanding: closures, chain entries, flags, accesses, lattice copies. -/
def State.groupDrained (s : State) (g : Nat) : Bool :=
  (s.resid.all fun e => e.2.g != g) && (s.ops.all fun e => e.2.g != g || e.2.remote.isSome) &&
    (s.group g).lanes.all fun e => e.2.fin || (e.2.flagsZero && e.2.park != .copy)

/-- Whether a team has no engine command. -/
def State.enginesIdle (s : State) (t : Nat) : Bool :=
  (s.cores.all fun e => (e.2.copyq.all fun q => q.own.team != t) && (e.2.mport.all fun q => q.own.team != t)) &&
    s.colls.all fun e => match e.2.own with | some o => o.team != t | none => true

/-- The image that a grid's code comes from. -/
def State.gridImage (s : State) (gr : Grid) : Option Image := s.imageAt gr.ctx gr.pkt.entry.toNat

/-- Whether a lane of a group stands at the first piece of a portable clause of its grid's image (R218). -/
def State.atPortable (s : State) (x : Group) (y : Lane) : Bool :=
  let gr := s.grid x.grid
  match s.gridImage gr with
  | some i => !y.inBody && s.imageAt gr.ctx y.pc.toNat == some i && (tabGet i.pos ((y.pc.toNat - i.code) / 4)).isSome
  | none => false

/-- Whether a group is suspended inside a clause body. -/
def Group.midBody (x : Group) : Bool := x.trap.isSome && x.live.any fun l => (x.lane l).inBody

/-- Whether a portable save can be made of a team: its grid's image came from an HPE file, and the context holds no group suspended inside a
clause body (R218). -/
def State.portable (s : State) (team : Nat) : Bool :=
  let gr := s.grid (s.team team).grid
  let here (k : Nat) : Bool := (s.grid k).ctx == gr.ctx
  (match s.gridImage gr with | some i => i.hpe | none => false) &&
    !(s.groups.any fun e => here e.2.grid && e.2.midBody) &&
    !(s.teams.any fun e => here e.2.grid && match e.2.saved with | some v => v.groups.any fun g => g.group.midBody | none => false)

/-- The instruction that a lane in a body is at, from the words fetched with its header. -/
def Lane.instr (y : Lane) : Option Instr :=
  let k := (y.pc - y.hdr).toNat / 4
  match y.body.getD (k - 1) none with
  | none => none
  | some w =>
    match decodeWord w (y.body.getD k none) with
    | .ok (i, _) => some i
    | .error _ => none

/-- Instructions that can wait on other groups: their lanes have stopped where they park (R214). -/
def waitsOnOthers : Instr → Bool
  | .spawn .. | .ordb | .sacqFree .. | .sacqFilled .. => true
  | _ => false

/-- Whether a lane has stopped for a portable save: at a portable header, or parked until others act. -/
def State.laneStopped (s : State) (x : Group) (y : Lane) : Bool :=
  s.atPortable x y ||
    match y.park with
    | .none | .copy => false
    | .retry => y.instr.any waitsOnOthers
    | .ring | .join _ | .stand | .flush => true

/-- The group slots of a team, in ascending group index. -/
def State.teamSlots (s : State) (t : Nat) : List Nat :=
  (sortBy (fun e : Nat × Group => e.2.gidx) (s.groups.filter fun e => e.2.team == t)).map (·.1)

/-- Whether every group of a team has reached its exact stop: for a portable save, issue sets first run to the end of their clauses. -/
def State.stopped (s : State) (t : Nat) : Bool :=
  let portable := s.portable t
  s.enginesIdle t && (s.teamSlots t).all fun g =>
    let x := s.group g
    s.groupDrained g && (!portable || x.trap.isSome || x.live.all fun l => s.laneStopped x (x.lane l))

/-- MODE of a save: portable where every program counter is a portable header. -/
def State.saveMode (s : State) (t : Nat) : Nat :=
  let all := (s.teamSlots t).all fun g => (s.group g).live.all fun l => s.atPortable (s.group g) ((s.group g).lane l)
  if s.portable t && all then 1 else 0

/-- The address of a group's trap record, or 0. -/
def State.recordAddr (s : State) (ctx : Nat) (x : Group) : Nat :=
  match x.trap with
  | some t => ((t.record.bind (tabGet (s.ctx ctx).records)).map (·.addr)).getD 0
  | none => 0

/-- Writes a u64 with system privilege, where it can be. -/
def State.pokeVa (s : State) (ctx va n : Nat) : State :=
  match s.putVa (unitWho ctx true) va (leBytes 8 n) with
  | .ok t => t
  | .error _ => s

/-- The save pool of a context is free again once no team of it is saved. -/
def State.freePool (s : State) (ctx : Nat) : State :=
  if s.teams.any fun e => e.2.saved.isSome && (s.grid e.2.grid).ctx == ctx then s
  else s.modCtx ctx fun c => { c with poolUsed := 0 }

/-- The records of a team written to the context's save pool from its first free byte on; none where the pool is too small or cannot
be written (log 33). -/
def State.writeSave (s : State) (team : Nat) : Option State :=
  let t := s.team team
  let gr := s.grid t.grid
  let s := s.freePool gr.ctx
  let mode := s.saveMode team
  let pcOf (pc : Nat) : Nat := if mode = 1 then (match s.gridImage gr with | some i => i.position pc | none => pc) else pc
  let slots := s.teamSlots team
  let c := s.ctx gr.ctx
  match c.pool with
  | none => none
  | some (base, size) =>
    let sliceOf (g : Nat) : Nat := t.cores.findIdx fun k => k == coreOf g
    let recs := (upto t.cores.length).map fun k =>
      sliceRecord gr t k mode
        ((slots.filter fun g => sliceOf g == k).map fun g => (s.group g, s.recordAddr gr.ctx (s.group g))) pcOf
    let bytes := recs.flatten
    if size < c.poolUsed + bytes.length then none
    else
      match s.putVa (unitWho gr.ctx true) (base + c.poolUsed) bytes with
      | .error _ => none
      | .ok u =>
        let addrs := (upto recs.length).map fun k => base + c.poolUsed + ((recs.take k).map List.length).foldl (· + ·) 0
        let saved : Saved :=
          { groups := slots.map fun g => ⟨sliceOf g, s.group g⟩
            records := addrs, bytes := bytes.length, mode := mode, auto := t.saveAuto }
        let u := slots.foldl (fun u g =>
          let a := s.recordAddr gr.ctx (s.group g)
          if a = 0 then u else u.pokeVa gr.ctx (a + 0x150) (addrs.getD (sliceOf g) 0)) u
        let u := u.dropGroups fun _ x => x.team == team
        let u := u.modTeam team fun x => { x with saving := none, saved := some saved }
        some ((u.modCtx gr.ctx fun c => { c with poolUsed := c.poolUsed + bytes.length }).rewatch t.grid)

/-- EXACT_STOP (R214-R216): the save is written, or the grid is aborted with SAVE_LOST. -/
def execExactStop (team : Nat) (s : State) : Out State :=
  if (s.team team).saving.isSome && (s.team team).saved.isNone && s.stopped team then
    match s.writeSave team with
    | some t => .next t
    | none => .next (s.abortGrid (s.team team).grid 0x12)
  else .fault .notEnabled

/-- SAVE_BOUND_EXPIRY (R216). -/
def execSaveBoundExpiry (team : Nat) (s : State) : Out State :=
  match (s.team team).saving with
  | none => .fault .notEnabled
  | some t => .next ((s.atLeast (t + 5000000)).abortGrid (s.team team).grid 0x12)

/-! ### Restores (R217) -/

/-- Keys of a bitmap of `n` bytes. -/
def bitmapKeys (b : List Byte) (ofs n : Nat) : List Nat := (upto (8 * n)).filter fun k => bitAt (fld b (ofs + k / 8) 1) (k % 8)

/-- The table of a bitmap and the values from an offset on. -/
def readTab (b : List Byte) (keys : List Nat) (ofs : Nat) : Tab Word :=
  (keys.zip (upto keys.length)).map fun e => (e.1, w32 (fld b (ofs + 4 * e.2) 4))

/-- A multiple of 8 from a number on. -/
def up8 (n : Nat) : Nat := (n + 7) / 8 * 8

/-- A lane with the registers of its vector record, and where the record ends. -/
def readVector (b : List Byte) (ofs : Nat) (y : Lane) : Lane × Nat :=
  let keys := bitmapKeys b (ofs + 8) 132
  let regs := readTab b keys (ofs + 0x90)
  ({ y with wb := fld b ofs 2, regs := regs, resident := y.resident.filter fun r => keys.contains r },
    ofs + up8 (0x90 + 4 * keys.length))

/-- Lane slots as a group record's masks have them (Table 9.6): EMPTY slots hold no thread, FIN ones a finished one. A lane at a JOIN waits at
the barrier where it has arrived. -/
def readMasks (b : List Byte) (ofs : Nat) (x : Group) : Tab Lane :=
  let mask (k : Nat) (l : Nat) : Bool := bitAt (fld b (ofs + k) 4) l
  let slots := (upto 32).foldl (fun (t : Tab Lane) l =>
    if mask 8 l then tabDel t l else if (tabGet t l).isSome then t else tabSet t l {}) x.lanes
  tabMap slots fun l y =>
    let at' := (upto 8).find? fun k => (x.arrived k).getLsbD l
    let park := match y.park, mask 0x10 l, mask 0x14 l with
      | .join k, true, _ => Park.join k
      | _, true, _ => (at'.map Park.join).getD .none
      | _, false, true => .stand
      | .join _, false, false | .stand, false, false => .none
      | p, false, false => p
    { y with fin := mask 4 l, park := park }

/-- A group with its masks and the registers of its records, and where they end; `pcOf` gives the address that a recorded program counter
stands for. A lane that the record has elsewhere goes there. -/
def readGroup (b : List Byte) (ofs : Nat) (pcOf : Nat → Nat) (x : Group) : Group × Nat :=
  let lanes := (upto 32).foldl (fun (p : Tab Lane × Nat) l =>
    let r := readVector b p.2 (tabGetD p.1 l {})
    (tabMod p.1 l fun _ => r.1, r.2)) (x.lanes, ofs + 288)
  let keys := bitmapKeys b lanes.2 16
  let sregs := readTab b keys (lanes.2 + 16)
  let o := lanes.2 + up8 (16 + 4 * keys.length)
  let preds (l : Nat) : BitVec 16 :=
    BitVec.ofNat 16 (((upto 16).filter fun p => bitAt (fld b (o + 4 * p) 4) l).foldl (fun m p => m + 2 ^ p) 0)
  let bars := o + 64
  let x := (upto 8).foldl (fun x k =>
    x.setBar k (w32 (fld b (bars + 8 * k) 4)) (w32 (fld b (bars + 8 * k + 4) 4)))
    { x with lanes := tabMap lanes.1 fun l y => { y with preds := preds l }, sregs := sregs }
  let place (l : Nat) (y : Lane) : Lane :=
    let pc := BitVec.ofNat 64 (pcOf (fld b (ofs + 0x20 + 8 * l) 8))
    if y.fin || y.pc = pc then y else { y.goto pc with park := y.park }
  ({ x with
      sresident := x.sresident.filter fun r => keys.contains r
      lanes := tabMap (readMasks b ofs x) fun l y => { place l y with body := [] }
      trap := x.trap.map fun t => { t with faults := t.faults.filter fun e => bitAt (fld b (ofs + 0xC) 4) e.1 } }, bars + 64)

/-- Tiles read, and where they end. -/
def readTiles (b : List Byte) (ofs : Nat) (x : Slice) : Slice × Nat :=
  (upto 16).foldl (fun (p : Slice × Nat) t =>
    let rows := fld b p.2 4
    let n := min rows 256 * 64
    let v := p.1.tile t
    ({ p.1 with tiles := if rows = 0 then p.1.tiles else tabSet p.1.tiles t { v with rows := rows, bytes := (b.drop (p.2 + 8)).take n } },
      p.2 + 8 + n)) (x, ofs)

/-- Accumulators read, and where they end. -/
def readAccs (b : List Byte) (ofs : Nat) (x : Slice) : Slice × Nat :=
  (upto 8).foldl (fun (p : Slice × Nat) a =>
    let rows := fld b p.2 4
    let n := min rows 256 * 64
    let cells := (parts 4 n ((b.drop (p.2 + 8)).take (4 * n))).map fun w => w32 (leNat w)
    ({ p.1 with accs := if rows = 0 then p.1.accs else tabSet p.1.accs a ⟨rows, cells⟩ }, p.2 + 8 + 4 * n)) (x, ofs)

/-- Scratchpad bytes read: those that differ are written. -/
def readSpad (b : List Byte) (ofs n clock : Nat) (x : Slice) : Slice :=
  (upto n).foldl (fun y k =>
    let v := (b.drop (ofs + k)).headD 0
    if x.byte k = v then y else y.write clock k [v]) x

/-- A ring read. -/
def readRing (b : List Byte) (ofs : Nat) (r : Ring) : Ring :=
  let f (k : Nat) : Nat := fld b (ofs + k) 1
  { r with
    free := f 1, filled := f 2, pi := f 3, ci := f 4, pc := f 5, fc := f 6,
    phases := (upto r.n).map fun k => (k, bitAt (fld b (ofs + 8) 8) k)
    states := (upto r.n).map fun k => (k, bits (fld b (ofs + 16) 24) (3 * k) 3) }

/-- A slice and its groups read from a record; the regroup timer counts afresh (R405). -/
def readSlice (b : List Byte) (pcOf : Nat → Nat) (clock : Nat) (gs : List Group) (x : Slice) : List Group × Slice :=
  let p := gs.foldl (fun (p : List Group × Nat) g => let r := readGroup b p.2 pcOf g; (p.1 ++ [r.1], r.2)) ([], 64)
  let t := readTiles b p.2 x
  let a := readAccs b t.2 t.1
  let spad := fld b 0x24 4
  let y := readSpad b a.2 spad clock a.1
  let rings := (y.rings.zip (upto y.rings.length)).map fun e => (e.1.1, readRing b (a.2 + spad + 40 * e.2) e.1.2)
  (p.1, { y with rings := rings, timer := y.timer.map fun _ => clock })

/-- The address that a stream position stands for in an image: the first piece of its clause (R218). -/
def Image.addressOf (i : Image) (p : Nat) : Nat :=
  match i.pos.find? fun e => e.2 == p with
  | some e => i.code + 4 * e.1
  | none => p

/-- MODE of a record. -/
def recordMode (b : List Byte) : Nat := fld b 0x1E 1

/-- Whether a record can be restored in a grid: a native one bears this part's build tag, the file of a portable one is registered (R217,
R218). -/
def State.recordOk (s : State) (gr : Grid) (h : List Byte) : Bool :=
  fld h 0 4 == 0x31564153 &&
    (if recordMode h = 0 then fld h 4 4 == Config.buildTag.toNat
      else match s.gridImage gr with | some i => i.hpe | none => false)

/-- The bytes of the records of a saved team of a grid, if they can be read and restored. -/
def State.saveRecords (s : State) (gr : Grid) (v : Saved) : Option (List (List Byte)) :=
  v.records.foldl (fun acc a =>
    match acc, s.readVa (unitWho gr.ctx true) a 64 with
    | some l, .ok h =>
      if !s.recordOk gr h then none
      else
        match s.readVa (unitWho gr.ctx true) a (64 + fld h 0x20 4) with
        | .ok b => some (l ++ [b])
        | .error _ => none
    | _, _ => none) (some [])

/-- Whether cores can take a saved team: as many as it had, of one die, in ascending number as its slices are (R37). A team with M groups, and
the logical pairs under a placement map or DET, go to pairs with even leaders (R217, R220). -/
def coresOk (gr : Grid) (t : Team) (cores : List Nat) : Bool :=
  let c := t.cores.length
  let paired := !t.dynamic && t.handler.isNone && (gr.pkt.det || gr.pkt.pmap || gr.pkt.roleGroups 2 != 0)
  cores.length == c && ((upto (c - 1)).all fun i => decide (cores.getD i 0 < cores.getD (i + 1) 0)) &&
    (cores.all fun k => k < Config.cores && dieOf k == dieOf (cores.headD 0)) &&
    (!paired ||
      (upto (c - 1)).all fun i => (t.lcore + i) % 2 != 0 || (cores.getD i 0 % 2 == 0 && cores.getD (i + 1) 0 == cores.getD i 0 + 1))

/-- A group put back on a core: a RESUME that completed meanwhile restarts it (R209, R217). -/
def State.putBack (s : State) (ctx core : Nat) (x : Group) : State :=
  match lowestFree s.groups (core * Config.slotsPerCore) Config.slotsPerCore with
  | none => s
  | some g =>
    let s := ({ s with groups := tabSet s.groups g x } : State).groupActed g
    match x.trap with
    | none => s
    | some t =>
      match t.resumed with
      | some dest => s.restart g dest
      | none =>
        match t.record with
        | none => s
        | some n =>
          (s.modCtx ctx fun c => { c with records := tabMod c.records n fun r => { r with g := g } }).pokeVa ctx
            ((tabGetD (s.ctx ctx).records n ⟨0, 0, 0, 0, 0, 0, []⟩).addr + 0x150) 0

/-- A saved team put on cores from its records. -/
def State.restoreTeam (s : State) (team : Nat) (cores : List Nat) (v : Saved) (recs : List (List Byte)) : State :=
  let t := s.team team
  let ctx := (s.grid t.grid).ctx
  let gr := s.grid t.grid
  let pcOf (b : List Byte) (p : Nat) : Nat :=
    if recordMode b = 0 then p else match s.gridImage gr with | some i => i.addressOf p | none => p
  let key (cs : List Nat) (k : Nat) : Nat := if t.dynamic then cs.getD k 0 else k
  let read := (upto cores.length).map fun k =>
    let b := recs.getD k []
    readSlice b (pcOf b) s.clock ((v.groups.filter fun g => g.slice == k).map (·.group)) (tabGetD t.slices (key t.cores k) {})
  let s := s.modTeam team fun x =>
    { x with
      cores := cores, saved := none, saving := none,
      slices := (upto cores.length).map fun k => (key cores k, ((read.map (·.2)).getD k {})) }
  let s := s.modGrid t.grid fun gr => gr.mark cores s.clock
  let s := (upto cores.length).foldl (fun s k =>
    ((read.map (·.1)).getD k []).foldl (fun s x => s.putBack ctx (cores.getD k 0) x) s) s
  let s := (s.teamSlots team).foldl (fun s g => s.endGroup g) ((s.freePool ctx).rewatch t.grid)
  if gr.pkt.det then s.flushCheck (s.parentOf team) else s

/-- What slice `k` of a saved team asks of a core. -/
def State.savedNeed (s : State) (t : Team) (k : Nat) : Need :=
  let p := (s.grid t.grid).pkt
  if t.handler.isSome then handlerNeed
  else if t.dynamic then (upto t.groups).foldl (fun n _ => n.add (p.groupNeed 0)) {}
  else p.sliceNeed t.cores.length k

/-- Whether a saved team can go back on cores. -/
def State.canRestore (s : State) (t : Team) (cores : List Nat) : Bool :=
  let gr := s.grid t.grid
  coresOk gr t cores && (cores.zip (upto cores.length)).all fun e => s.coreOpen t.grid gr e.1 && s.hasRoom e.1 (s.savedNeed t e.2)

/-- TEAM_RESTORE (R217, R220): a team that the Drover has saved, and not before the quiesce of a die that it left is over (R307). -/
def execTeamRestore (team : Nat) (cores : List Nat) (s : State) : Out State :=
  let t := s.team team
  match t.saved with
  | none => .fault .notEnabled
  | some v =>
    if !v.auto || t.cores.any s.quiescing || !s.canRestore t cores then .fault .notEnabled
    else
      match s.saveRecords (s.grid t.grid) v with
      | none => .fault .notEnabled
      | some recs => .next (s.restoreTeam team cores v recs)

/-! ### Spatial pre-emption (R219, R220) -/

/-- A packet that waits to be placed: its grid, with its key if it has been taken, and effective priority, which is that at its taking then
(R80). It is the head of its queue, or its teams are dealt and no core has started one. -/
def State.waitingPacket (s : State) (q : Nat) : Option (Option Nat × Grid × Nat) :=
  let idle := s.grids.find? fun e =>
    e.2.queue == q && !e.2.ended && !e.2.started && e.2.mode == .dealt && decide (0 < e.2.teams) &&
      !(upto Config.cores).any fun c => s.teamRoom e.1 e.2 [c]
  match idle with
  | some e => some (some e.1, e.2, e.2.level)
  | none =>
    if s.level = 0 || !s.hasHead q || !s.allDealt q then none
    else
      match s.headBytes q with
      | .error _ => none
      | .ok b =>
        match s.accepts q b with
        | .error _ => none
        | .ok p =>
          let gr := s.planGrid q p []
          if (p.pkt.kind == 1 || p.pkt.kind == 3) && !s.planReady gr then some (none, gr, s.headLevel q) else none

/-- The cores that a waiting packet can use: any, or those of its first team under a map. -/
def Grid.wants (gr : Grid) (core : Nat) : Bool :=
  match gr.entries with
  | [] => true
  | e :: _ => (entryCores e).contains core

/-- The cores of a victim grid that are not picked yet, in the order in which they are: no ordered section, no handler team, lowest number. -/
def State.victimCores (s : State) (k : Nat) (gr : Grid) : List Nat :=
  let held := (upto Config.cores).filter fun c =>
    gr.wants c && !(s.grid k).pickedCores.contains c && ((s.teams.any fun e => e.2.grid == k && e.2.handler.isNone && e.2.leaves [c]) ||
      s.groups.any fun e => e.2.grid == k && coreOf e.1 == c && (s.team e.2.team).dynamic)
  let rank (c : Nat) : Nat :=
    (if s.sectionOn c then 2 else 0) +
      if s.teams.any fun e => e.2.handler.isSome && !e.2.finished && e.2.cores.contains c then 1 else 0
  sortBy rank held

/-- Cores that a waiting packet needs of a victim. -/
def State.coresNeeded (s : State) (k : Nat) (gr : Grid) : Nat :=
  match gr.mode with
  | .dealt => 1
  | .direct => gr.pkt.width
  | .fixed => (s.victimCores k gr).length

/-- Whether a packet that waits has victim cores picked for it already. -/
def State.hasPicks (s : State) (q : Nat) (key : Option Nat) : Bool := s.grids.any fun e => e.2.picked.any fun p => p.2.1 == q && p.2.2 == key

/-- Whether a grid is a victim that gives up these cores to a waiting packet: it counts with its PRIO as launched (log 70). -/
def State.isVictim (s : State) (k : Nat) (v : Grid) (gr : Grid) (level : Nat) (cores : List Nat) : Bool :=
  let n := s.coresNeeded k gr
  v.pkt.preempt && v.pkt.prio + 2 ≤ level && 1 ≤ n && cores.length == n && (s.victimCores k gr).take n == cores

/-- SPATIAL_PREEMPTION (R219): the cores are picked, and the saves of the teams on them are requested; where an earlier pre-emption of the
grid still waits for sections, the wait is one. -/
def execSpatialPreemption (q : Nat) (cores : List Nat) (s : State) : Out State :=
  match s.waitingPacket q with
  | none => .fault .notEnabled
  | some (key, gr, level) =>
    match if s.hasPicks q key then none else s.grids.find? fun e => s.isVictim e.1 e.2 gr level cores with
    | none => .fault .notEnabled
    | some (k, _) =>
      let waits := s.sectionsAwaited k
      .next ((s.modGrid k fun v =>
        { v with
          picked := v.picked ++ cores.map fun c => (c, q, key)
          pickedAt := if waits then v.pickedAt else s.clock, sectWait := waits && v.sectWait }).vacate k)

/-- PREEMPTION_WAIT_EXPIRY (R219): after 100 µs of waiting for ordered sections the watchdog runs. -/
def execPreemptionWaitExpiry (grid : Nat) (s : State) : Out State :=
  match tabGet s.grids grid with
  | none => .fault .notEnabled
  | some gr =>
    if gr.sectWait || !s.sectionsAwaited grid then .fault .notEnabled
    else .next (((s.atLeast (gr.pickedAt + 250000)).modGrid grid fun g => { g with sectWait := true }).rewatch grid)

/-! ### Parity errors (R100, R101, R221, R222) -/

/-- A thread rolled back to the start of its region. -/
def Lane.rollBack (y : Lane) : Lane :=
  if y.fin then y
  else
    { y.goto y.rgnHdr with
      wb := y.rgnWb, flags := [], pend := [], ppend := [], rollbacks := y.rollbacks + 1, pass := false }

/-- A group rolled back: pending marks and flags are clear, and no lane waits at a JOIN any more. -/
def Group.rollBack (x : Group) (det : Bool) : Group :=
  let y := { x with
    lanes := tabMap x.lanes fun _ y => y.rollBack
    spend := [], lost := [], barA := [] }
  { y with running := if det then maskOf (y.setOf (y.live.headD 0)) else 0 }

/-- A core quarantined: every team on it is saved, bin groups and shadow runs among them (R222). -/
def State.quarantine (s : State) (core : Nat) : State :=
  let s := s.modCore core fun c => { c with quarantined := true }
  let s := if s.worn.contains (.core core) then s else { s with worn := s.worn ++ [.core core] }
  let s := s.splitBins none core
  s.teams.foldl (fun t e =>
    if e.2.leaves [core] then t.askSave e.1 true true else t) s

/-- PARITY_ERROR: the group is rolled back once its engine commands have completed, as its accesses do: a store's second half is made, an
ICINV takes its effect, and what was read is discarded (R100). A region with an irreversible operation, a register that a save reads (R219),
and the sixth failure of a region end the grid with PARITY_LOST; the third failure quarantines the core. -/
def execParityError (gslot : Nat) (s : State) : Out State :=
  match tabGet s.groups gslot with
  | none => .fault .notEnabled
  | some x =>
    let live := x.live.map x.lane
    if ((s.team x.team).saving.isSome && s.stopped x.team) || live.any (·.irrev) then .next (s.abortGrid x.grid 0x10)
    else if x.trap.isSome || !s.enginesIdle x.team || live = [] then .fault .notEnabled
    else
      let s := (x.lanes.foldl (fun t e => t.finishHalves gslot e.1) s).endIcinvs fun o => o.g == gslot
      let s := { s with
        ops := s.ops.filter fun e => e.2.g != gslot || e.2.remote.isSome
        resid := s.resid.filter fun e => e.2.g != gslot }
      let s := s.setGroup gslot (x.rollBack (s.grid x.grid).pkt.det)
      let s := x.live.foldl (fun s l => s.regionBack gslot l) s
      if live.any fun y => 6 ≤ y.rollbacks + 1 then .next (s.abortGrid x.grid 0x10)
      else if live.any fun y => y.rollbacks + 1 = 3 then .next (s.quarantine (coreOf gslot))
      else .next s

/-! ### Checking (R225) -/

/-- The cores that have had three digest mismatches are worn (R308). -/
def State.wornByMismatch (s : State) (cores : List Nat) : State :=
  cores.foldl (fun t c =>
    if 3 ≤ (t.errors.filter fun e => e.cores.contains c).length && !t.worn.contains (.core c) then
      { t with worn := t.worn ++ [.core c] }
    else t) s

/-- DIGEST_COMPARE. -/
def execDigestCompare (team : Nat) (s : State) : Out State :=
  let t := s.team team
  match s.shadowOf team with
  | none => .fault .notEnabled
  | some h =>
    let sh := s.team h
    if !t.finished || !sh.finished then .fault .notEnabled
    else
      let u := { s with teams := tabDel s.teams h }.modTeam team fun x => { x with checked := false }
      let cores := [t.cores.headD 0, sh.cores.headD 0]
      let u := if t.digest = sh.digest then u
        else
          { u with
            mismatch := min 65535 (u.mismatch + 1)
            errors := u.errors ++ [(⟨(s.grid t.grid).id, t.tid, cores⟩ : ErrRec)] }.wornByMismatch cores
      .next (u.reapGrid t.grid)

end Sys2Proof.Machine
end

