-- ==== Sys2Proof/Machine/Translate.lean ====
section
/-!
DEFINITION. The translator of portable streams (R136-R139), and the checks of a native image at its registration (R118, R119).
-/

namespace Sys2Proof.Machine

/-! ### Portable streams (Tables 5.11 to 5.13) -/

/-- An instruction of a stream: its place and words, and what the words decode to. -/
structure PInstr where
  at' : Nat
  words : List Word
  ins : Option Instr
  deriving DecidableEq, Repr

/-- A portable clause: the place of its header, the header, its wait distances, its instructions. -/
structure PClause where
  at' : Nat
  hdr : Word
  waits : List Nat
  body : List PInstr
  deriving DecidableEq, Repr

/-- Whether a word brings in the word after it as its literal or second word (R128, Table 5.6), be its register fields what they may: with
those of D and A zero it lacks nothing but that word. A word of ATOM's or CAS's opcode with an FN that Table 5.6 does not list is no ATOM
or CAS, and brings in none (log 74). -/
def takesWord (w : Word) : Bool :=
  match decodeWord (w &&& 0xFFE0007F) none with
  | .error .following => true
  | _ => false

/-- The instructions of body words: a word that encodes nothing counts as one, with the word that it brings in. -/
def cutBody : Nat → Nat → List Word → List PInstr
  | 0, _, _ => []
  | _, _, [] => []
  | f + 1, p, w :: r =>
    match decodeWord w r.head? with
    | .ok (i, n) => ⟨p, (w :: r).take n, some i⟩ :: cutBody f (p + n) (r.drop (n - 1))
    | .error _ =>
      let n := if takesWord w then 2 else 1
      ⟨p, (w :: r).take n, none⟩ :: cutBody f (p + n) (r.drop (n - 1))

/-- The clauses of a stream from a place on, if they follow R137. -/
def cutStream : Nat → Nat → List Word → Option (List PClause)
  | 0, _, _ => none
  | _, _, [] => some []
  | f + 1, p, h :: r =>
    let count := bits h.toNat 20 12
    let nwait := bits h.toNat 16 4
    let waits := r.take nwait
    let body := (r.drop nwait).take count
    if count = 0 || bits h.toNat 8 8 != 0 || bits h.toNat 0 5 != 0 || waits.length != nwait || body.length != count ||
        waits.any (fun w => bits w.toNat 16 16 == 0 || bits w.toNat 0 16 != 0) then none
    else
      match cutStream f (p + 1 + nwait + count) (r.drop (nwait + count)) with
      | none => none
      | some cs =>
        some (⟨p, h, waits.map fun w => bits w.toNat 16 16, cutBody count (p + 1 + nwait) body⟩ :: cs)

/-- The class that an instruction counts in. -/
def PInstr.cls (i : PInstr) : Cls := match i.ins with | some x => clsOf x | none => .neither

/-- A wait that has been resolved: the clause it is on, the place of the instruction it names, that instruction's class. -/
structure Wait where
  clause : Nat
  named : Nat
  cls : Cls
  deriving DecidableEq, Repr

/-- The waits of a stream, if each names a counted instruction (R137): `before` holds the instructions so far. -/
def resolveWaits : List PClause → List PInstr → Option (List Wait)
  | [], _ => some []
  | c :: r, before =>
    let here := c.waits.map fun d => if d ≤ before.length then before[before.length - d]? else none
    if here.any (fun x => match x with | some i => i.cls == .neither | none => true) then none
    else
      match resolveWaits r (before ++ c.body) with
      | none => none
      | some ws => some ((here.filterMap fun x => x.map fun i => ⟨c.at', i.at', i.cls⟩) ++ ws)

/-! ### Pieces (R138) -/

/-- Whole instructions that fit in 16 words, and the rest. -/
def cutPiece : Nat → List PInstr → List PInstr × List PInstr
  | _, [] => ([], [])
  | n, i :: r =>
    if i.words.length ≤ n then
      let p := cutPiece (n - i.words.length) r
      (i :: p.1, p.2)
    else ([], i :: r)

/-- The pieces of a body. -/
def pieces : Nat → List PInstr → List (List PInstr)
  | 0, _ => []
  | _, [] => []
  | f + 1, l => let p := cutPiece 16 l; p.1 :: pieces f p.2

/-- Words of a piece's body. -/
def pieceWords (p : List PInstr) : Nat := (p.map fun i => i.words.length).foldl (· + ·) 0

/-- A native clause: its header, and its instructions. -/
structure NClause where
  hdr : Word
  body : List PInstr
  /-- The portable header it begins, if it is a first piece. -/
  first : Option Nat
  deriving DecidableEq, Repr

/-- The header of a piece: a named memory-class instruction counts on f0, a named engine-class instruction on f1, and the first piece
waits for the flags that its clause names. -/
def pieceHeader (c : PClause) (ws : List Wait) (first : Bool) (p : List PInstr) : Word :=
  let named (k : Cls) : Bool := p.any fun i => ws.any fun w => w.named == i.at' && w.cls == k
  let waits (k : Cls) : Bool := first && ws.any fun w => w.clause == c.at' && w.cls == k
  w32 ((if waits .memory then 2 ^ 20 else 0) + (if waits .engine then 2 ^ 21 else 0) +
    (if named .memory then 0 else 15) * 2 ^ 16 + (if named .engine then 1 else 15) * 2 ^ 12 + pieceWords p % 16 * 2 ^ 8 +
    (if first && hIdem c.hdr then 2 ^ 7 else 0) + (if hDefer c.hdr then 2 ^ 6 else 0) +
    if first && hYield c.hdr then 2 ^ 5 else 0)

/-- The native clauses of a portable clause. -/
def nativeClauses (ws : List Wait) (c : PClause) : List NClause :=
  let ps := pieces c.body.length c.body
  (ps.zip (upto ps.length)).map fun e =>
    ⟨pieceHeader c ws (e.2 == 0) e.1, e.1, if e.2 = 0 then some c.at' else none⟩

/-- Code words that stand before each native clause. -/
def starts : Nat → List NClause → List (Nat × NClause)
  | _, [] => []
  | n, c :: r => (n, c) :: starts (n + 1 + pieceWords c.body) r

/-- The offset of a branch, and the branch with another. -/
def branchOf : Instr → Option (Int × (Int → Option Instr))
  | .bra c ofs => some (ofs.toInt, fun x => if -8192 ≤ x ∧ x < 8192 then some (.bra c (BitVec.ofInt 14 x)) else none)
  | .brp f p ofs => some (ofs.toInt, fun x => if -8192 ≤ x ∧ x < 8192 then some (.brp f p (BitVec.ofInt 14 x)) else none)
  | .jmp ofs => some (ofs.toInt, fun x => if -16777216 ≤ x ∧ x < 16777216 then some (.jmp (BitVec.ofInt 25 x)) else none)
  | .call ofs => some (ofs.toInt, fun x => if -16777216 ≤ x ∧ x < 16777216 then some (.call (BitVec.ofInt 25 x)) else none)
  | _ => none

/-- The words of an instruction at a native place: a branch goes to the first piece of its target clause; none where its target is no
portable header, or too far (log 38). -/
def relocated (first : List (Nat × Nat)) (here : Nat) (i : PInstr) : Option (List Word) :=
  match i.ins with
  | none => some i.words
  | some x =>
    match branchOf x with
    | none => some i.words
    | some (ofs, put) =>
      match first.find? fun e => (e.1 : Int) == i.at' + ofs with
      | none => none
      | some e => (put ((e.2 : Int) - here)).map encode

/-- The words of a body from a native place on. -/
def bodyWords (first : List (Nat × Nat)) : Nat → List PInstr → Option (List Word)
  | _, [] => some []
  | n, i :: r =>
    match relocated first n i, bodyWords first (n + i.words.length) r with
    | some a, some b => some (a ++ b)
    | _, _ => none

/-- The code of native clauses. -/
def codeOf (first : List (Nat × Nat)) : List (Nat × NClause) → Option (List Word)
  | [] => some []
  | (n, c) :: r =>
    match bodyWords first (n + 1) c.body, codeOf first r with
    | some a, some b => some (c.hdr :: a ++ b)
    | _, _ => none

/-! ### Files -/

/-- The words of bytes. -/
def wordsOf (b : List Byte) : List Word := (parts 4 (b.length / 4) b).map fun w => w32 (leNat w)

/-- A multiple of a number from another on. -/
def upTo' (n k : Nat) : Nat := (n + k - 1) / k * k

/-- Bytes placed after others from an offset on. -/
def placeAt (b : List Byte) (ofs : Nat) (d : List Byte) : List Byte := b ++ List.replicate (ofs - b.length) 0 ++ d

/-- A file's header within Table 5.11, its parts within its bytes (log 75). -/
def hpeOk (b : List Byte) : Bool :=
  let ring := fld b 0x14 4
  64 ≤ b.length && fld b 0 4 == 0x31455048 && fld b 4 2 == 1 && zeros b 6 2 && 1 ≤ fld b 8 4 && fld b 8 4 ≤ 16777216 &&
    fld b 0xC 4 ≤ 65535 && fld b 0x10 4 % 8 == 0 && ring % 8 == 0 && fld b 0x18 4 % 8 == 0 && zeros b 0x20 32 &&
    0x40 + 4 * fld b 8 4 ≤ b.length && fld b 0x10 4 + 72 * fld b 0xC 4 ≤ b.length &&
    (ring == 0 || ring + 8 + 16 * fld b ring 4 ≤ b.length) && fld b 0x18 4 + fld b 0x1C 4 ≤ b.length

/-- A translated image: its bytes, W, the offset of the clause map, and the stream positions of its portable headers. -/
structure Translated where
  bytes : List Byte
  words : Nat
  mapOfs : Nat
  pos : Tab Nat
  deriving DecidableEq, Repr

/-- The entries of a file with their indices made native; none where one names no portable header. -/
def entriesOf (b : List Byte) (first : List (Nat × Nat)) : Option (List Byte) :=
  let rows := (upto (fld b 0xC 4)).map fun k => (b.drop (fld b 0x10 4 + 72 * k)).take 72
  rows.foldr (fun r acc =>
    match first.find? fun e => e.1 == fld r 0 4, acc with
    | some e, some l => some (leBytes 4 e.2 ++ r.drop 4 ++ l)
    | _, _ => none) (some [])

/-- The words of a clause map. -/
def mapWords (w : Nat) (heads : List Nat) : List Byte :=
  (upto ((w + 31) / 32)).flatMap fun k =>
    leBytes 4 ((upto 32).foldl (fun m j => if heads.contains (32 * k + j) then m + 2 ^ j else m) 0)

/-- THE TRANSLATION of a file; none is BADHPE (R138, R139): so are an entry that names no portable header, and code of more words than a clause
map can have (log 75). -/
def translate (b : List Byte) : Option Translated :=
  if !hpeOk b then none
  else
    let s := fld b 8 4
    match cutStream (s + 1) 0 (wordsOf ((b.drop 0x40).take (4 * s))) with
    | none => none
    | some cs =>
      match resolveWaits cs [] with
      | none => none
      | some ws =>
        let ns := starts 0 (cs.flatMap (nativeClauses ws))
        let first := ns.filterMap fun e => e.2.first.map fun p => (p, e.1)
        match codeOf first ns, entriesOf b first with
        | some code, some entries =>
          let w := code.length
          let mapOfs := upTo' (0x40 + 4 * w) 8
          let map := mapWords w (ns.map (·.1))
          let entOfs := upTo' (mapOfs + map.length) 8
          let ring := fld b 0x14 4
          let rings := if ring = 0 then [] else (b.drop ring).take (8 + 16 * fld b ring 4)
          let ringOfs := upTo' (entOfs + entries.length) 8
          let data := (b.drop (fld b 0x18 4)).take (fld b 0x1C 4)
          let head := leBytes 4 0x314D494E ++ leBytes 4 Config.buildTag.toNat ++ leBytes 4 w ++ leBytes 4 mapOfs ++
            leBytes 4 (fld b 0xC 4) ++ leBytes 4 entOfs ++ List.replicate 40 0
          let img := placeAt (placeAt (head ++ code.flatMap fun x => leBytes 4 x.toNat) mapOfs map) entOfs entries
          let img := if rings = [] then img else placeAt img ringOfs rings
          let img := if data = [] then img else placeAt img (upTo' img.length 4096) data
          if w ≤ 16777216 then some ⟨img, w, mapOfs, first.map fun e => (e.2, e.1)⟩ else none
        | _, _ => none

/-! ### Native images (R119) -/

/-- A clause-map bit of an image's bytes. -/
def imageBit (b : List Byte) (n : Nat) : Bool := bitAt (fld b (fld b 0xC 4 + n / 32 * 4) 4) (n % 32)

/-- Whether the clause at a header lies within the image and holds no other header. -/
def clauseOk (b : List Byte) (h : Nat) : Bool :=
  let n := hLen (w32 (fld b (0x40 + 4 * h) 4))
  h + n < fld b 8 4 && (upto n).all fun k => !imageBit b (h + 1 + k)

/-- The checks of registration but MAGIC and the build tag. -/
def imageOk (b : List Byte) : Bool :=
  let w := fld b 8 4
  let map := fld b 0xC 4
  let e := fld b 0x10 4
  let ent := fld b 0x14 4
  1 ≤ w && w ≤ 16777216 && map % 8 == 0 && 0x40 + 4 * w ≤ map && e ≤ 65535 && ent % 8 == 0 && zeros b 0x18 40 &&
    map + 4 * ((w + 31) / 32) ≤ b.length && ent + 72 * e ≤ b.length && imageBit b 0 &&
    ((upto w).all fun h => !imageBit b h || clauseOk b h) &&
    (upto e).all fun k => fld b (ent + 72 * k) 4 < w && imageBit b (fld b (ent + 72 * k) 4)

/-- The bytes from an image's base to the end of its clause map. -/
def Image.span (i : Image) : Nat := i.mapOfs + 4 * ((i.words + 31) / 32)

/-- Whether two images overlap. -/
def Image.overlaps (i j : Image) : Bool := i.base < j.base + j.span && j.base < i.base + i.span

/-- The registration of a native image: the image, or the status of its refusal. -/
def Ctx.registers (c : Ctx) (base : Nat) (b : List Byte) : Except Nat Image :=
  if b.length < 64 || fld b 0 4 != 0x314D494E then .error 0x21
  else if fld b 4 4 != Config.buildTag.toNat then .error 0x22
  else if !imageOk b then .error 0x21
  else
    let i : Image := { base := base, words := fld b 8 4, mapOfs := fld b 0xC 4 }
    if c.images.any i.overlaps then .error 0x21 else if 1024 ≤ c.images.length then .error 0x26 else .ok i

end Sys2Proof.Machine
end

