-- ==== Sys2Proof/Machine/Service.lean ====
section
/-!
DEFINITION. Resets and bring-up (R10-R16, R305, R306), the service mailboxes and their services (R300, R301, R447), quiesce and spares
(R307, R308), power (R309).
-/

namespace Sys2Proof.Machine

/-! ### Resets and bring-up -/

/-- Whether every item of the flash image lies in its range (R305). -/
def Flash.ok (f : Flash) : Bool :=
  f.valid && 10 ≤ f.lease && f.lease ≤ 1000 && f.device ≤ 1023 && f.peers.length ≤ 1023 && f.peers.all (· ≤ 1023) &&
    f.peers.Nodup && !f.peers.contains f.device && 2 ^ 27 ≤ f.combine && f.combine ≤ 2 ^ 32 && 1000 ≤ f.p1 && f.p1 ≤ 2400

/-- Host and peer memory once the dies' caches are discarded: bytes that a die has changed and not written back are as before (R16);
those that the home die of a line stored itself are kept (log 73). -/
def State.outside (s : State) : Tab Byte :=
  s.leases.foldl (fun m e =>
    if (isHost (lineBase e.1) || isPeer (lineBase e.1)) && e.2.holders.any fun h => decide (h.1 < 4) then
      e.2.wb.foldl (fun m w => memSet m w.1 w.2) m
    else m) (s.mem.filter fun e => isHost e.1 || isPeer e.1)

/-- The fabric ports as the spare map has them: lanes that have failed before stay replaced (R304, R305). -/
def Flash.ports (f : Flash) : Tab Port :=
  f.spares.foldl (fun t p =>
    match p with
    | .lane port _ => tabSet t port (if (tabGetD t port {}).spare then { spare := false } else { lanes := 3, spare := false })
    | _ => t) []

/-- The part after a device reset (R16): the flash image, host memory and peers are outside it, and the model's own draws go on. A bad
flash image stops bring-up with ERR (R305). What R16 does not list and the flash image does not hold is forgotten too: worn marks,
correctable errors counted, quarantines, lanes that have failed since the last quiesce (log 54). -/
def State.afterReset (s : State) : State :=
  { State.reset with
    flash := s.flash, err := !s.flash.ok, mem := s.outside, ports := s.flash.ports
    fresh := s.fresh, nextId := s.nextId, sched := s.sched }

/-- DEVICE_RESET (R16). -/
def execDeviceReset (s : State) : Out State := .next s.afterReset

/-- POWER_LOSS (R309). -/
def execPowerLoss (s : State) : Out State := .next s.afterReset

/-- The mailbox of a link. -/
def State.mbox (s : State) (link : Bool) : Mailbox := if link then s.mbox1 else s.mbox0

/-- A state with a mailbox changed. -/
def State.modMbox (s : State) (link : Bool) (f : Mailbox → Mailbox) : State :=
  if link then { s with mbox1 := f s.mbox1 } else { s with mbox0 := f s.mbox0 }

/-- LINK_FUNCTION_RESET (R16): the mailbox and the MSI-X table of the link; its outstanding command gets no response. -/
def execLinkFunctionReset (link : Bool) (s : State) : Out State :=
  let m := s.mbox link
  let t := { s with svc := s.svc.map fun (r : SvcReq) => if r.link = link && r.gone.isNone then { r with gone := some m } else r }
  let t := t.modMbox link fun _ => {}
  .next (if link then { t with msix1 := 0, msixTable1 := List.replicate 16 0 } else { t with msix0 := 0, msixTable0 := List.replicate 16 0 })

/-- A die's clock at a service level (R12, R309). -/
def State.dieClock (s : State) (level die : Nat) : Nat :=
  if level ≤ 2 then 1000
  else if level = 3 then s.flash.p1
  else
    match (tabGetD s.dies die {}).recorded with
    | some 1 => s.flash.p1
    | _ => 2500

/-- A die at a service level; one that enters service takes a phase of refresh that nothing fixes (R172). -/
def State.raiseDie (s : State) (level die : Nat) : State :=
  let d := tabGetD s.dies die {}
  let d0 := tabGetD s.dies 0 {}
  let phase :=
    if d.inService then d.phase
    else if s.walign then (match d0.phaseNext with | some (p, _) => p | none => d0.phase)
    else (s.freeWord (2 ^ 48 + die)).toNat % 10000
  { s with dies := tabSet s.dies die { d with inService := true, clock := s.dieClock level die, phase := phase } }

/-- SERVICE_LEVEL_RISE (R12, R13, R306): the next level, or ERR where a step fails. -/
def execServiceLevelRise (pass : Bool) (s : State) : Out State :=
  if s.err || 4 ≤ s.level then .fault .notEnabled
  else if !pass then .next { s with err := true }
  else
    let n := s.level + 1
    .next ((if n = 1 then [0] else upto 4).foldl (fun t d => t.raiseDie n d) { s with level := n })

/-- HOST_REGISTER_WRITE (R10, R11, R121, R299, R300): no effect. -/
def execHostRegisterWrite (_link : Bool) (_offset : Nat) (_data : List Byte) (s : State) : Out State := .next s

/-- The dies whose DIES bit is set: below level 4 every die in service, whatever a QUIESCE holds (R12, R15). -/
def State.svcDies (s : State) : List Nat :=
  if s.level < 4 then (upto 4).filter fun d => (tabGetD s.dies d {}).inService else s.diesUp

/-- SVCCAP (Table 0.2). -/
def State.svccap (s : State) : Word :=
  let clocks := s.svcDies.map fun d => (tabGetD s.dies d {}).clock
  let low := clocks.foldl min (clocks.headD 0)
  let mixed := clocks.any (· != low)
  w32 (s.level + (s.svcDies.foldl (fun m d => m + 2 ^ d) 0) * 2 ^ 4 + (if 3 ≤ s.level then 7 * 2 ^ 9 else 0) + low * 2 ^ 16 +
    (if mixed then 2 ^ 30 else 0) + if s.err then 2 ^ 31 else 0)

/-- SVCCLK01 and SVCCLK23 (R11, R15): the clocks of dies `d` and `d + 1`. -/
def State.svcclk (s : State) (d : Nat) : Word :=
  let mhz (d : Nat) : Nat := if s.svcDies.contains d then (tabGetD s.dies d {}).clock else 0
  w32 (mhz d + mhz (d + 1) * 2 ^ 16)

/-- Vendor ID, Device ID and class code of a link's function (R11). -/
def vendorId : BitVec 16 := 0x3E11
/-- Device ID. -/
def deviceId : BitVec 16 := 0x0640
/-- Class code: processing accelerator. -/
def classCode : BitVec 24 := 0x120000

/-- The words of a link function's configuration space that R11 gives, by their offset, as either link reads them. -/
def configWord (offset : Nat) : Option Word :=
  if offset = 0 then some (deviceId ++ vendorId) else if offset = 8 then some (classCode ++ Config.revision) else none

/-- A word of the Epindic DVSEC, by its offset from the capability, as either link reads it (R11, R445). -/
def State.dvsec (s : State) (offset : Nat) : Word :=
  if offset = 0 then w32 (0x00010023 + Config.nextCapability.toNat * 2 ^ 20)
  else if offset = 4 then 0x02003E11
  else if offset = 8 then 0x00000001
  else if offset = 0xC then s.svccap
  else if offset = 0x10 then Config.buildTag
  else if offset = 0x14 then s.svcclk 0
  else if offset = 0x18 then s.svcclk 2
  else 0

/-! ### Mailboxes (R300) -/

/-- A byte of a service mailbox as its link reads it (Table 18.2). -/
def Mailbox.byte (m : Mailbox) (offset : Nat) : Byte :=
  let part (at' : Nat) (bs : List Byte) : Option Byte := if at' ≤ offset then bs[offset - at']? else none
  if offset < 0x40 then m.cmd.getD offset 0
  else
    [part 0x40 (leBytes 8 m.cmdseq.toNat), part 0x80 (leBytes 4 m.status.toNat), part 0x88 m.results,
      part 0xC0 (leBytes 8 m.rspseq.toNat)].findSome? id |>.getD 0

/-- A byte of a link's BAR0 as the host reads it (Table 18.1). -/
def State.bar0 (s : State) (link : Bool) (offset : Nat) : Byte :=
  if offset < 0x1000 then (s.queue (offset / 64)).desc.getD (offset % 64) 0
  else if offset < 0x1100 then (s.mbox link).byte (offset - 0x1000)
  else 0

/-- Bytes of a write that fall in a field, put over it. -/
def overlay (old : List Byte) (base ofs : Nat) (d : List Byte) : List Byte :=
  (old.zip (upto old.length)).map fun e =>
    if ofs ≤ base + e.2 && base + e.2 < ofs + d.length then d.getD (base + e.2 - ofs) 0 else e.1

/-- COMMAND_AREA_WRITE: the command area takes what is written; CMDSEQ takes RSPSEQ + 1 while no command is outstanding, and requests
the service. -/
def execCommandAreaWrite (link : Bool) (offset : Nat) (data : List Byte) (s : State) : Out State :=
  let m := s.mbox link
  if 0x48 < offset + data.length then .fault .notEnabled
  else
    let out := m.rspseq != m.cmdseq
    let seq := BitVec.ofNat 64 (leNat (overlay (leBytes 8 m.cmdseq.toNat) 0x40 offset data))
    let takes := 0x40 < offset + data.length && !out && seq == m.rspseq + 1
    let t := s.modMbox link fun m =>
      { m with
        cmd := overlay m.cmd 0 offset data
        cmdseq := if takes then seq else m.cmdseq
        tampered := m.tampered || (out && offset < 0x40) }
    .next (if takes then { t with svc := t.svc ++ [{ link := link }] } else t)

/-- The command that the management processor serves next, for a link. -/
def State.command (s : State) (link : Bool) : Option Mailbox :=
  match s.svc with
  | [] => none
  | r :: _ => if r.link = link then some (r.cmd.getD (r.gone.getD (s.mbox link))) else none

/-- OP of a command. -/
def Mailbox.op (m : Mailbox) : Nat := fld m.cmd 0 2

/-- CTXID of a command. -/
def Mailbox.ctxid (m : Mailbox) : Nat := fld m.cmd 4 4

/-- The operand bytes as served: undefined where the area was written meanwhile. -/
def State.operands (s : State) (m : Mailbox) : List Byte :=
  if m.tampered then m.cmd.take 8 ++ s.freeBytes (2 ^ 47) 56 else m.cmd

/-- The command served has been read: its operands stay as they are until its response (R301). -/
def State.begun (s : State) (link : Bool) : State :=
  match s.svc, s.command link with
  | r :: rest, some m => { s with svc := { r with cmd := some { m with cmd := s.operands m, tampered := false } } :: rest }
  | _, _ => s

/-- The response to the command served: STATUS, the results, RSPSEQ and an interrupt; none where the link has been reset. -/
def State.respond (s : State) (status : Nat) (results : List Byte) : State :=
  match s.svc with
  | [] => s
  | r :: rest =>
    let s := { s with svc := rest }
    if r.gone.isSome then s
    else
      let t := s.modMbox r.link fun m =>
        { m with
          status := w32 status, results := results ++ List.replicate (56 - results.length) 0,
          rspseq := m.cmdseq, tampered := false }
      if r.link then { t with msix1 := t.msix1 + 1 } else { t with msix0 := t.msix0 + 1 }

/-- Statuses (Table 18.4). -/
def svcOk : Nat := 0
/-- BADARG. -/
def badArg : Nat := 0x20
/-- BADHPE. -/
def badHpe : Nat := 0x23
/-- RESTORE_MISMATCH. -/
def restoreMismatch : Nat := 0x24
/-- BUSY. -/
def busy : Nat := 0x25
/-- NOROOM. -/
def noRoom' : Nat := 0x26
/-- NOTREADY. -/
def notReady : Nat := 0x27

/-- A service: its zero fields (operand bytes from `used` on, and the second half-word), its least level, whether it serves a context;
then its own effect (R301, R306, R447). -/
def State.serve (s : State) (link : Bool) (op used level : Nat) (inContext : Option Bool)
    (k : List Byte → Nat → Out State) : Out State :=
  match s.command link with
  | none => .fault .notEnabled
  | some m =>
    let b := s.operands m
    let live := (tabGet s.ctxs m.ctxid).isSome
    if m.op != op then .fault .notEnabled
    else if !zeros b 2 2 || !zeros b used (64 - used) then .next (s.respond badArg [])
    else if s.level < level then .next (s.respond notReady [])
    else if inContext = some true && !live then .next (s.respond badArg [])
    else if inContext = some false && m.ctxid != 0 then .next (s.respond badArg [])
    else k b m.ctxid

/-- Whether a grid of a context is resident, or queued where its packet can be taken (R301). -/
def State.ctxBusy (s : State) (ctx : Nat) : Bool :=
  (s.grids.any fun e => e.2.ctx == ctx && !e.2.ended) ||
    s.queues.any fun e => e.2.en && !e.2.task && e.2.ctxid == ctx && (e.2.r < e.2.w || !e.2.hold.isEmpty)

/-! ### Contexts (OP 1 to 3) -/

/-- CTXCREATE: the lowest free CTXID (log 37). -/
def execCtxcreate (link : Bool) (s : State) : Out State :=
  s.serve link 1 0x10 1 (some false) fun b _ =>
    let root := fld b 8 8
    if root % 4096 != 0 || (kindOf root).isNone then .next (s.respond badArg [])
    else
      match lowestFree s.ctxs 1 4095 with
      | none => .next (s.respond noRoom' [])
      | some n =>
        let c : Ctx :=
          { root := root, lattice := List.replicate 4 (List.replicate 512 0)
            coops := (upto 4).map fun d => (d, { bytes := s.flash.combine }) }
        .next ({ s with ctxs := tabSet s.ctxs n c }.respond svcOk (leBytes 4 n))

/-- A CTXSET of an item: the die field where the item has one, its own check, BUSY, its effect. -/
def State.ctxset (s : State) (link : Bool) (item used : Nat) (perDie : Bool) (ok : List Byte → Bool)
    (f : List Byte → Ctx → Ctx) : Out State :=
  match s.command link with
  | none => .fault .notEnabled
  | some m =>
    if fld (s.operands m) 8 4 != item then .fault .notEnabled
    else
      s.serve link 2 used 1 (some true) fun b ctx =>
        if (if perDie then 3 < fld b 0xC 4 else fld b 0xC 4 != 0) || !ok b then .next (s.respond badArg [])
        else if s.ctxBusy ctx then .next (s.respond busy [])
        else .next ((s.modCtx ctx (f b)).respond svcOk [])

/-- CTXSET item 0. -/
def execCtxsetSavePool (link : Bool) (s : State) : Out State :=
  s.ctxset link 0 0x20 false (fun _ => true) fun b c => { c with pool := some (fld b 0x10 8, fld b 0x18 8), poolUsed := 0 }

/-- CTXSET item 1. -/
def execCtxsetGraphRegion (link : Bool) (s : State) : Out State :=
  s.ctxset link 1 0x20 false (fun _ => true) fun b c => { c with graph := some (fld b 0x10 8, fld b 0x18 8) }

/-- CTXSET item 2. -/
def execCtxsetCombineRegion (link : Bool) (s : State) : Out State :=
  s.ctxset link 2 0x20 true (fun b => 2 ^ 27 ≤ fld b 0x18 8 && fld b 0x18 8 ≤ 2 ^ 32) fun b c =>
    let d := fld b 0xC 4
    { c with coops := tabSet c.coops d { c.coop d with base := some (fld b 0x10 8), bytes := fld b 0x18 8 } }

/-- CTXSET item 3: records of a new queue count from 0 (R289). -/
def execCtxsetReleaseQueue (link : Bool) (s : State) : Out State :=
  s.ctxset link 3 0x24 true
    (fun b => fld b 0x10 8 % 128 == 0 && fld b 0x18 8 % 128 == 0 && 4 ≤ fld b 0x20 4 && fld b 0x20 4 ≤ 16) fun b c =>
    let d := fld b 0xC 4
    let q := { c.coop d with relq := some (fld b 0x10 8, fld b 0x20 4, fld b 0x18 8), m := 0, discards := 0 }
    { c with coops := tabSet c.coops d q }

/-- CTXSET item 4 (R204). -/
def execCtxsetTrapbase (link : Bool) (s : State) : Out State :=
  s.ctxset link 4 0x18 false (fun _ => true) fun b c => { c with trapbase := trapbaseMask (fld b 0x10 8) }

/-- TLB entries dropped from every core. -/
def State.dropTlb (s : State) (p : TlbEntry → Bool) : State :=
  { s with cores := tabMap s.cores fun _ c => { c with tlb := c.tlb.filter fun e => !p e } }

/-- CTXDESTROY. -/
def execCtxdestroy (link : Bool) (s : State) : Out State :=
  s.serve link 3 8 1 (some true) fun _ ctx =>
    if s.ctxBusy ctx || (s.queues.any fun e => e.2.en && e.2.ctxid == ctx) then .next (s.respond busy [])
    else
      let ops := s.ops.filter fun e => e.2.remote.isNone || e.2.ctx != ctx
      let t := { s with ctxs := tabDel s.ctxs ctx, ops := ops }.dropTlb fun e => e.ctx == ctx && !e.global
      .next ((t.dropCode ctx (fun _ => true) 0 (2 ^ 64)).respond svcOk [])

/-! ### Images (OP 4 and 5) -/

/-- Where the loader places a translated image of `n` bytes: an undefined page of the context, clear of its images (R119, log 29). -/
def State.freeBase (s : State) (c : Ctx) (n : Nat) : Nat :=
  let base := bits (Config.freeValue (s.fresh * 2 ^ 64 + 2 ^ 46)).toNat 0 44 * 4096
  let clear := c.images.all fun i => base + n ≤ i.base || i.base + i.mapOfs + (i.words + 31) / 32 * 4 ≤ base
  if clear then base
  else
    let top := (c.images.map fun i => i.base + i.mapOfs + (i.words + 31) / 32 * 4).foldl max 0
    (top + 4095) / 4096 * 4096

/-- An image registered with a context: its range leaves the context's instruction caches (R119). -/
def State.addImage (s : State) (ctx : Nat) (i : Image) : State :=
  (s.modCtx ctx fun c => { c with images := c.images ++ [i] }).dropCode ctx (fun _ => true) i.base
    (i.mapOfs + (i.words + 31) / 32 * 4)

/-- IMGLOAD (R119, R138, R139). -/
def execImgload (link : Bool) (s : State) : Out State :=
  s.serve link 4 0x18 1 (some true) fun b ctx =>
    match s.readVa (unitWho ctx true) (fld b 8 8) (fld b 0x10 8) with
    | .error _ => .next (s.respond badArg [])
    | .ok d =>
      let c := s.ctx ctx
      if fld d 0 4 = 0x31455048 then
        match translate d with
        | none => .next (s.respond badHpe [])
        | some x =>
          if 1024 ≤ c.images.length then .next (s.respond noRoom' [])
          else
            let i : Image := { base := s.freeBase c x.bytes.length, words := x.words, mapOfs := x.mapOfs, hpe := true, pos := x.pos }
            let t := s.unitWrite (unitWho ctx true) i.base x.bytes
            .next ((t.addImage ctx i).respond svcOk (leBytes 8 i.base))
      else
        match c.registers (fld b 8 8) d with
        | .error e => .next (s.respond e [])
        | .ok i =>
          .next ((s.addImage ctx i).respond svcOk (leBytes 8 i.base))

/-- IMGDROP. -/
def execImgdrop (link : Bool) (s : State) : Out State :=
  s.serve link 5 0x10 1 (some true) fun b ctx =>
    if (s.ctx ctx).images.all fun i => i.base != fld b 8 8 then .next (s.respond badArg [])
    else if s.ctxBusy ctx then .next (s.respond busy [])
    else
      let n := ((s.ctx ctx).images.find? fun i => i.base == fld b 8 8).map fun i => i.mapOfs + (i.words + 31) / 32 * 4
      let t := s.modCtx ctx fun c => { c with images := c.images.filter fun i => i.base != fld b 8 8 }
      .next ((t.dropCode ctx (fun _ => true) (fld b 8 8) (n.getD 0)).respond svcOk [])

/-! ### Translations and the host range table (OP 6 and 7) -/

/-- INVAL (R166): GLOBAL translations go whichever context filled them. -/
def execInval (link : Bool) (s : State) : Out State :=
  s.serve link 6 0x18 1 (some true) fun b ctx =>
    let base := fld b 8 8
    let n := fld b 0x10 8
    let meets (e : TlbEntry) : Bool := n == 0 || (base < e.vbase + e.size && e.vbase < base + n)
    .next ((s.dropTlb fun e => (e.ctx == ctx || e.global) && meets e).respond svcOk [])

/-- HOSTRANGE (R184). -/
def execHostrange (link : Bool) (s : State) : Out State :=
  s.serve link 7 0x1C 1 (some false) fun b _ =>
    let base := fld b 8 8
    let n := fld b 0x10 8
    let coh := fld b 0x18 4
    if base % 4096 != 0 || n % 4096 != 0 || 1 < coh then .next (s.respond badArg [])
    else if n = 0 then .next ({ s with hostRanges := s.hostRanges.filter fun r => r.1 != base }.respond svcOk [])
    else if 64 ≤ s.hostRanges.length then .next (s.respond noRoom' [])
    else .next ({ s with hostRanges := s.hostRanges ++ [(base, n, coh == 1)] }.respond svcOk [])

/-! ### Saves and restores (OP 8 and 9) -/

/-- Teams of a grid that a save takes, bin groups being in teams of their own by then. -/
def State.savedTeams (s : State) (k : Nat) : List Nat :=
  (s.teams.filter fun e => e.2.grid == k && e.2.shadow.isNone && !e.2.cores.isEmpty && !e.2.finished && e.2.saved.isNone).map (·.1)

/-- SAVE (R214-R216): it asks for the saves, and responds once none is left to make. -/
def execSave (link : Bool) (s : State) : Out State :=
  s.serve link 8 0x10 1 (some true) fun b ctx =>
    match s.grids.find? fun e => e.2.ctx == ctx && e.2.id == fld b 8 8 && !e.2.ended with
    | none =>
      -- a grid that SAVE_LOST has ended in the meantime, or one that never was
      .next (s.respond (if fld b 8 8 < (s.ctx ctx).nextGrid && fld b 8 8 != 0 then svcOk else badArg) [])
    | some (k, _) =>
      let t := (s.cores.map (·.1)).foldl (fun t c => t.splitBins (some k) c) s
      match t.savedTeams k with
      | [] => .next (s.respond svcOk [])
      | ts =>
        if ts.all fun n => (t.team n).saving.isSome then .fault .notEnabled
        else .next (ts.foldl (fun u n => u.askSave n false false) (t.begun link))

/-- The places where a saved team could go: the lowest run of cores of the lowest die (R217). -/
def State.restorePlace (s : State) (t : Team) : Option (List Nat) :=
  let c := t.cores.length
  let runs := s.diesUp.flatMap fun d => (upto (161 - c)).map fun f => (upto c).map fun j => 160 * d + f + j
  runs.find? fun r => s.canRestore t r

/-- The addresses of the records that lie one after another from an address on, one for each slice (R215). -/
def State.recordChain (s : State) (ctx : Nat) : Nat → Nat → List Nat
  | 0, _ => []
  | n + 1, a =>
    match s.readVa (unitWho ctx true) a 64 with
    | .error _ => []
    | .ok h => a :: s.recordChain ctx n (a + 64 + fld h 0x20 4)

/-- Whether the header of slice `k` of a saved team is one that the team's own save could have (Table 9.5). -/
def State.headerFits (s : State) (t : Team) (v : Saved) (k : Nat) (h : List Byte) : Bool :=
  let gr := s.grid t.grid
  fld h 0 4 == 0x31564153 && fld h 8 8 == gr.id && fld h 0x10 8 == t.recordId && fld h 0x18 2 == k && fld h 0x1A 2 == t.cores.length &&
    fld h 0x1C 2 == (v.groups.filter fun g => g.slice == k).length && fld h 0x24 4 == gr.spadOf t &&
    fld h 0x28 4 == (tabGetD t.slices (if t.dynamic then t.cores.getD k 0 else k) {}).rings.length

/-- The save of a team that RESTORE of an address restores: its own where one of its records lies there, else the records there, of another
part or moved, whose headers fit it (R218, log 77). -/
def State.savedAt (s : State) (ctx a : Nat) (t : Team) : Option Saved :=
  match t.saved with
  | none => none
  | some v =>
    if (s.grid t.grid).ctx != ctx then none
    else if v.records.contains a then some v
    else
      let as := s.recordChain ctx t.cores.length a
      let fits := (as.zip (upto as.length)).all fun e =>
        match s.readVa (unitWho ctx true) e.1 64 with
        | .ok h => s.headerFits t v e.2 h
        | .error _ => false
      if as.length = t.cores.length && fits then some { v with records := as } else none

/-- RESTORE (R217, R218): the team whose record lies at the address, on the lowest cores with room; a native record of another part, a
portable one whose file is not registered, and a record of no saved team are refused. -/
def execRestore (link : Bool) (s : State) : Out State :=
  s.serve link 9 0x10 1 (some true) fun b ctx =>
    match s.teams.findSome? fun e => (s.savedAt ctx (fld b 8 8) e.2).map fun v => (e.1, e.2, v) with
    | none => .next (s.respond restoreMismatch [])
    | some (k, t, v) =>
      match s.saveRecords (s.grid t.grid) v with
      | none => .next (s.respond restoreMismatch [])
      | some recs =>
        match s.restorePlace t with
        | none => .fault .notEnabled
        | some cores => .next ((s.restoreTeam k cores v recs).respond svcOk [])

/-! ### Quiesce and power (OP 10 and 11) -/

/-- The dies of a mask. -/
def maskDies (m : Nat) : List Nat := (upto 4).filter fun d => bitAt m d

/-- Whether anything is resident on a die: groups, teams, items in its cores' bins. -/
def State.dieResident (s : State) (die : Nat) : Bool :=
  (s.groups.any fun e => dieOf (coreOf e.1) == die) || (s.cores.any fun e => dieOf e.1 == die && !e.2.bins.isEmpty) ||
    s.teams.any fun e => !e.2.finished && e.2.saved.isNone && e.2.cores.any fun c => dieOf c == die

/-- A part replaced by its spare, or a way disabled: it is worn no more, and the spare map names it (R305, R308). -/
def State.retire (s : State) (p : WornPart) : State :=
  { s with
    worn := s.worn.filter fun q => q != p
    counts := s.counts.filter fun e => e.1 != p
    flash := { s.flash with spares := s.flash.spares ++ [p] } }

/-- Spare cores of a die that are in use. -/
def Flash.coresUsed (f : Flash) (d : Nat) : Nat :=
  (f.spares.filter fun p => match p with | .core c => dieOf c == d | _ => false).length

/-- Spares brought in for the worn parts of dies: a die without a spare core keeps the worn core out of placement (R307, R308). A lane has its
spare already; the quiesce writes it to the spare map with the others (R309, log 63). -/
def State.fitSpare (s : State) (dies : List Nat) (p : WornPart) : State :=
  match p with
  | .core c =>
    let d := dieOf c
    if !dies.contains d then s
    else if s.flash.coresUsed d < 8 then
      let errors := s.errors.map fun (e : ErrRec) => { e with cores := e.cores.filter fun k => k != c }
      { s.retire p with errors := errors }.modCore c fun q => { q with quarantined := false }
    else s.modCore c fun q => { q with quarantined := true }
  | .dramRow d _ | .cacheWay d _ | .combineSlot d _ => if dies.contains d then s.retire p else s
  | .lane .. => s.retire p

/-- Dies changed by a function. -/
def State.modDies (s : State) (ds : List Nat) (f : Nat → Die → Die) : State :=
  { s with dies := ds.foldl (fun t d => tabMod t d (f d)) s.dies }

/-- QUIESCE (R307): it stops placement and asks for the saves of grids with PREEMPT; once nothing is resident it fits spares, resumes
placement and responds. -/
def execQuiesce (link : Bool) (s : State) : Out State :=
  s.serve link 10 0xC 2 (some false) fun b _ =>
    let m := fld b 8 4
    let ds := maskDies m
    if 16 ≤ m then .next (s.respond badArg [])
    else if s.quiesce.isNone then
      let t := s.modDies ds fun _ d => { d with quiescing := true }
      let t := { t.begun link with quiesce := some (link, m) }
      .next (t.quiesceSaves ((t.cores.map (·.1)).filter fun c => ds.contains (dieOf c)))
    else if ds.any s.dieResident then .fault .notEnabled
    else
      let t := s.worn.foldl (fun u p => u.fitSpare ds p) s
      let t := t.modDies ds fun _ d => { d with quiescing := false }
      let t := { t with quiesce := none }
      .next (t.respond svcOk [])

/-- POWER to P0 or P1: recorded at levels 2 and 3, made at once at level 4 (R309). -/
def State.power (s : State) (link : Bool) (state : Nat) : Out State :=
  match s.command link with
  | none => .fault .notEnabled
  | some c =>
    if fld (s.operands c) 8 4 != state then .fault .notEnabled
    else
      s.serve link 11 0x10 2 (some false) fun b _ =>
        let m := fld b 0xC 4
        if 16 ≤ m then .next (s.respond badArg [])
        else
          let t := s.modDies (maskDies m) fun _ d => { d with recorded := some state }
          .next ((if s.level < 4 then t
            else t.modDies (maskDies m) fun k d => { d with parked := false, clock := t.dieClock 4 k }).respond svcOk [])

/-- POWER to P0. -/
def execPowerP0 (link : Bool) (s : State) : Out State := s.power link 0

/-- POWER to P1. -/
def execPowerP1 (link : Bool) (s : State) : Out State := s.power link 1

/-- POWER to park (R309). -/
def execPowerPark (link : Bool) (s : State) : Out State :=
  match s.command link with
  | none => .fault .notEnabled
  | some c =>
    if fld (s.operands c) 8 4 != 2 then .fault .notEnabled
    else
      s.serve link 11 0x10 4 (some false) fun b _ =>
        let m := fld b 0xC 4
        if 16 ≤ m then .next (s.respond badArg [])
        else if (maskDies m).any s.dieResident then .next (s.respond busy [])
        else .next ((s.modDies (maskDies m) fun _ d => { d with parked := true }).respond svcOk [])

/-! ### WLOAD (OP 12) and what Table 18.3 does not list -/

/-- A write queued at the weight port of its die (R171). -/
def State.holdWrite (s : State) (pa : Nat) (bs : List Byte) (load : Option Nat) : State :=
  let d := homeOf pa
  let e := tabGetD s.dies d {}
  { s with dies := tabSet s.dies d { e with held := e.held ++ [⟨pa, bs, load⟩] } }

/-- The source bytes of a WLOAD: physical where CTXID is 0. -/
def State.wloadSource (s : State) (ctx src n : Nat) : Option (List Byte) :=
  if ctx = 0 then
    (match kindOf src with
      | some k => if inKind k src (max n 1) then some (memRead s.mem src n) else none
      | none => none)
  else
    match s.readVa (unitWho ctx true) src n with
    | .ok b => some b
    | .error _ => none

/-- WLOAD (R171). -/
def execWload (link : Bool) (s : State) : Out State :=
  s.serve link 12 0x20 2 none fun b ctx =>
    let src := fld b 8 8
    let dst := fld b 0x10 8
    let n := fld b 0x18 8
    if src % 128 != 0 || dst % 128 != 0 || n % 128 != 0 || (ctx != 0 && (tabGet s.ctxs ctx).isNone) ||
        dst < 0x2000000000 || 0x4000000000 < dst + n then .next (s.respond badArg [])
    else
      match s.wloadSource ctx src n with
      | none => .next (s.respond badArg [])
      | some d =>
        let lines := parts 128 (n / 128) d
        .next (((lines.zip (upto lines.length)).foldl (fun (t : State) e => t.holdWrite (dst + 128 * e.2) e.1 (some s.nextId))
          { s with nextId := s.nextId + 1 }).respond svcOk [])

/-- The level below which a command of no service gives NOTREADY all the same: that of its OP (R306, log 36). -/
def unlistedLevel (op : Nat) : Nat := if op = 2 then 1 else if op = 11 then 2 else 0

/-- Whether a command names a service of Table 18.3. -/
def State.listed (s : State) (m : Mailbox) : Bool :=
  let item := fld (s.operands m) 8 4
  1 ≤ m.op && m.op ≤ 12 && (m.op != 2 || item ≤ 4) && (m.op != 11 || item ≤ 2)

/-- UNLISTED_SERVICE_OP (R301): an OP, an item of CTXSET or a state of POWER that Table 18.3 does not list. -/
def execUnlistedServiceOp (link : Bool) (s : State) : Out State :=
  match s.command link with
  | none => .fault .notEnabled
  | some m =>
    if s.listed m then .fault .notEnabled
    else .next (s.respond (if zeros m.cmd 2 2 && s.level < unlistedLevel m.op then notReady else badArg) [])

end Sys2Proof.Machine
end

