-- ==== Sys2Proof/Machine/HostAccess.lean ====
section
/-!
DEFINITION. What reaches the part from the host, from peers and from time: CXL accesses (R171, R180, R298, R306), the weight port (R171),
the fabric (R287, R302-R304), leases (R181, R182, R199), worn parts (R308), combine timers (R289-R291), refresh windows (R172, R174), and
the taking of trap records (R204, R205).
-/

namespace Sys2Proof.Machine

/-- A moment that a timer fires at: the clock is not behind it (log 17). -/
def State.reach (s : State) (due : Nat) : State := { s with clock := max s.clock due }

/-! ### CXL.mem and CXL.cache -/

/-- Whether a host request of `n` bytes reaches device memory that is trained (R306). -/
def State.trained (s : State) (pa n : Nat) : Bool :=
  match kindOf pa with
  | some 0 => inKind 0 pa n && (if homeOf pa = 0 then 1 ≤ s.level else 2 ≤ s.level)
  | some 1 => inKind 1 pa n && 2 ≤ s.level
  | some 2 => inKind 2 pa n && 2 ≤ s.level
  | _ => false

/-- Whether a run of bytes lies in one line of the host: 64 bytes. -/
def hostRun (pa n : Nat) : Bool := n != 0 && pa / 64 == (pa + n - 1) / 64

/-- CXL_MEM_READ (R180, R306): the host comes to hold the half that it reads, and no device copy of the line is left. -/
def execCxlMemRead (pa bytes : Nat) (s : State) : Out State :=
  if !hostRun pa bytes then .fault .notEnabled
  else if !s.trained pa bytes then .next { s with lastRead := List.replicate bytes 0xFF }
  else
    .next { s with
      lastRead := memRead s.mem pa bytes
      leases := tabSet s.leases (pa / 128) ⟨[(bridge, s.clock)], []⟩
      hostLines := tabSet s.hostLines (pa / 64) () }

/-- A host write performed at the line's home, which receives the value (R199); the host keeps the other half if it holds it. -/
def State.hostWrite (s : State) (pa : Nat) (bs : List Byte) : State := s.storeRun (homeOf pa) pa bs

/-- CXL_MEM_WRITE (R171, R306): weight-store writes go to the port of their die. -/
def execCxlMemWrite (pa : Nat) (data : List Byte) (s : State) : Out State :=
  if !hostRun pa data.length then .fault .notEnabled
  else if !s.trained pa data.length then .next s
  else if kindOf pa = some 1 then .next (s.holdWrite pa data none)
  else .next (s.hostWrite pa data)

/-- CXL_CACHE_SNOOP (R180): the sector's copies go back to the host. -/
def execCxlCacheSnoop (pa : Nat) (s : State) : Out State :=
  if isHost pa then .next { s with leases := tabDel s.leases (lineOf pa) } else .fault .notEnabled

/-- WEIGHT_PORT_WRITE (R171): the oldest write held at a die's port; once no write of its WLOAD is left there, grids wait for the die no more
on its account. -/
def execWeightPortWrite (die : Nat) (s : State) : Out State :=
  let d := tabGetD s.dies die {}
  match d.held with
  | [] => .fault .notEnabled
  | h :: rest =>
    if s.dieResident die then .fault .notEnabled
    else
      let t := s.hostWrite h.pa h.bytes
      let t := { t with dies := tabSet t.dies die { d with held := rest } }
      .next (match h.load with
        | none => t
        | some n =>
          if rest.any fun k => k.load == some n then t
          else { t with grids := tabMap t.grids fun _ g => { g with wloads := g.wloads.filter fun p => p != (die, n) } })

/-! ### The fabric -/

/-- FABRIC_LANE_FAILURE (R302, R304). -/
def execFabricLaneFailure (port lane : Nat) (s : State) : Out State :=
  let p := tabGetD s.ports port {}
  if 48 ≤ port || 4 ≤ lane then .fault .notEnabled
  else
    let q : Port := if p.spare then { p with spare := false, swapping := true } else { p with lanes := 3 }
    .next { s with ports := tabSet s.ports port q, worn := s.worn ++ [.lane port lane] }

/-- SPARE_LANE_SWAP_COMPLETE (R304). -/
def execSpareLaneSwapComplete (port : Nat) (s : State) : Out State :=
  let p := tabGetD s.ports port {}
  if p.swapping then .next { s with ports := tabSet s.ports port { p with swapping := false } } else .fault .notEnabled

/-- Bytes that a peer's access touches. -/
def peerBytes : PeerOp → Nat
  | .load n => n
  | .store d => d.length
  | .atomic _ wide _ | .cas wide .. => if wide then 8 else 4

/-- What a peer's access leaves in memory. -/
def peerNew (op : PeerOp) (old : Nat) : Option (List Byte) :=
  match op with
  | .load _ => none
  | .store d => some d
  | .atomic o wide b =>
    some (if wide then leBytes 8 (atomNew o 64 old b.toNat) else leBytes 4 (atomNew o 32 old (b.toNat % 2 ^ 32)))
  | .cas wide e n =>
    let w := if wide then 8 else 4
    if old = e.toNat % 2 ^ (8 * w) then some (leBytes w n.toNat) else none

/-- PEER_ACCESS (R303): a load, store or atomic of a peer of the domain, at the home. No peer writes the weight store (R171), and a lost
region takes no write and gives undefined values (R182). -/
def execPeerAccess (peer pa : Nat) (op : PeerOp) (s : State) : Out State :=
  let n := peerBytes op
  let atomic := match op with
    | .atomic .. | .cas .. => true
    | _ => false
  if s.level < 4 || !s.flash.peers.contains peer || n = 0 || pa / 128 != (pa + n - 1) / 128 || !s.trained pa n ||
      (atomic && pa % n != 0) then .fault .notEnabled
  else
    let lost := s.lostAt pa n
    let old := if lost then s.freeBytes (2 ^ 42) n else memRead s.mem pa n
    let t := match op with
      | .store _ => s
      | _ => { s.touchRead (16 + peer) pa n with lastRead := old }
    .next (match peerNew op (leNat old) with
      | some bs => if lost || kindOf pa = some 1 then t else t.storePhys (if atomic then homeOf pa else 16 + peer) pa bs
      | none => t)

/-- REMOTE_ARRIVAL (R286, R287): taken by the Cooperage of the die that the slot id names, in the context of the same CTXID. -/
def execRemoteArrival (ctx slotId expert : Nat) (data : List Byte) (s : State) : Out State :=
  if s.level < 4 || 2 ^ 30 ≤ slotId || 256 ≤ expert || 32768 < data.length then .fault .notEnabled
  else .next (if (tabGet s.ctxs ctx).isSome then s.arrive ctx slotId expert data [] else s)

/-- REMOTE_ACKNOWLEDGEMENT (R287). -/
def execRemoteAcknowledgement (id : Nat) (s : State) : Out State :=
  match tabGet s.ops id with
  | none => .fault .notEnabled
  | some o => if o.remote.isSome then .next (s.finishOp id o []) else .fault .notEnabled

/-- REMOTE_ACK_TIMEOUT (R287): 250,000 cycles after issue. -/
def execRemoteAckTimeout (id : Nat) (s : State) : Out State :=
  match tabGet s.ops id with
  | none => .fault .notEnabled
  | some o =>
    match o.remote with
    | none => .fault .notEnabled
    | some (_, slot, expert) =>
      let t := (s.reach (o.since + 250000)).finishOp id o []
      .next (t.discard o.ctx (dieOf (coreOf o.g)) slot expert unreachBit)

/-! ### Leases -/

/-- LEASE_RENEWAL (R181): every lease of the holder. -/
def execLeaseRenewal (holder : Nat) (s : State) : Out State :=
  .next { s with leases := tabMap s.leases fun _ l => { l with holders := tabMod l.holders holder fun _ => s.clock } }

/-- The holder of a lease whose length runs out first. -/
def Lease.first (l : Lease) : Option (Nat × Nat) :=
  l.holders.foldl (fun b h => match b with
    | some k => if h.2 < k.2 then some h else b
    | none => some h) none

/-- A region flagged as lost (R182): past the table's capacity OVF covers its die and kind. Translations of it leave every TLB, and
accesses that have passed translation lose their data. -/
def State.loseRegion (s : State) (region : Nat) : State :=
  let pa := region * 4096
  let t :=
    if (tabGet s.lost region).isSome then s
    else if s.lost.length < Config.lostRegions then { s with lost := tabSet s.lost region () }
    else
      let k := (homeOf pa, (kindOf pa).getD 0)
      { s with ovf := if s.ovf.contains k then s.ovf else s.ovf ++ [k] }
  let t := t.dropTlb fun e => decide (e.pbase < pa + 4096) && decide (pa < e.pbase + e.size)
  let hit (o : MemOp) : Bool := match o.pa with
    | some (a, n) => a / 4096 == region || (a + n - 1) / 4096 == region
    | none => false
  { t with ops := tabMap t.ops fun _ o => if hit o then { o with lost := true } else o }

/-- LEASE_EXPIRY (R181, R182, R199): the line reverts to its written-back value, the holder's copy goes, its region is lost. -/
def execLeaseExpiry (line : Nat) (s : State) : Out State :=
  match tabGet s.leases line with
  | none => .fault .notEnabled
  | some l =>
    match l.first with
    | none => .fault .notEnabled
    | some (h, since) =>
      let left := tabDel l.holders h
      let t := (s.reach (since + 2500 * s.flash.lease))
      let t := { t with
        mem := l.wb.foldl (fun (m : Tab Byte) (e : Nat × Byte) => memSet m e.1 e.2) t.mem
        leases := if left = [] then tabDel t.leases line else tabSet t.leases line ⟨left, []⟩
        hostLines := if h = bridge then tabDel (tabDel t.hostLines (2 * line)) (2 * line + 1) else t.hostLines }
      .next (t.loseRegion (lineBase line / 4096))

/-! ### Worn parts -/

/-- Correctable errors of a part. -/
def State.errorCount (s : State) (p : WornPart) : Nat := ((s.counts.find? fun e => e.1 == p).map (·.2)).getD 0

/-- CORRECTABLE_ERROR (R308): above the image's limit the part is worn; a combine slot's self-test failure makes it worn at once. Cores
and lanes have events of their own, and a way that is disabled has none. -/
def execCorrectableError (part : WornPart) (s : State) : Out State :=
  let n := s.errorCount part + 1
  let t := { s with counts := s.counts.filter (fun e => e.1 != part) ++ [(part, n)] }
  let mark := if t.worn.contains part then t else { t with worn := t.worn ++ [part] }
  match part with
  | .dramRow .. => .next (if Config.errorLimit < n then mark else t)
  | .cacheWay .. =>
    if s.flash.spares.contains part then .fault .notEnabled else .next (if Config.errorLimit < n then mark else t)
  | .combineSlot .. => .next mark
  | .core _ | .lane .. => .fault .notEnabled

/-! ### Combine timers and waiting releases -/

/-- SLOT_TIMER_EXPIRY (R290, R291). -/
def execSlotTimerExpiry (ctx die index : Nat) (s : State) : Out State :=
  match tabGet ((s.ctx ctx).coop die).slots index with
  | none => .fault .notEnabled
  | some x =>
    if x.timeout = 0 || x.timedOut then .fault .notEnabled
    else
      let t := s.reach (x.since + 2500 * x.timeout)
      let t := t.modCoop ctx die fun c => { c with slots := tabSet c.slots index { x with timedOut := true } }
      .next (if x.st = .releasing || x.policy = 0 then t else t.releaseSlot ctx die index .timeout)

/-- ORDERED_RELEASE (R291): a waiting slot whose group holds no slot of lower token id. -/
def execOrderedRelease (ctx die index : Nat) (s : State) : Out State :=
  let k := (s.ctx ctx).coop die
  match tabGet k.slots index with
  | none => .fault .notEnabled
  | some x =>
    if x.st != .releasing || x.recordDue || k.mustWait x then .fault .notEnabled else .next (s.releaseSteps ctx die index)

/-- RELEASE_RECORD_WRITE (R289). -/
def execReleaseRecordWrite (ctx die : Nat) (s : State) : Out State :=
  match s.putRecord ctx die with
  | some t => .next t
  | none => .fault .notEnabled

/-! ### Refresh windows -/

/-- WEIGHT_REFRESH_WINDOW (R172, R174): the next window of a die begins; with a period a written phase takes effect. -/
def execWeightRefreshWindow (die : Nat) (s : State) : Out State :=
  let d := tabGetD s.dies die {}
  if !d.inService then .fault .notEnabled
  else
    let now := s.clock + (625 - (s.clock + d.phaseAt s.clock) % 625)
    let d := match d.phaseNext with
      | some (p, t) => if t ≤ now then { d with phase := p, phaseNext := none } else d
      | none => d
    .next { s with clock := now, dies := tabSet s.dies die d }

/-! ### Trap records -/

/-- TRAP_RECORD_TAKE (R204, R205): a suspended group that has no record yet. -/
def execTrapRecordTake (gslot : Nat) (s : State) : Out State :=
  match tabGet s.groups gslot with
  | none => .fault .notEnabled
  | some x =>
    match x.trap with
    | none => .fault .notEnabled
    | some t =>
      if t.record.isSome then .fault .notEnabled
      else
        match s.takeRecord gslot with
        | some u => .next u
        | none => .fault .notEnabled

end Sys2Proof.Machine
end

