-- ==== Sys2Proof/Machine/Dispatch.lean ====
section
/-!
DEFINITION. One arm per constructor of `Instr`, each one direct call of its meaning.
-/

namespace Sys2Proof.Machine

/-- The effect of an instruction for the issue set in focus, or of a step of the device. -/
def exec (i : Instr) (s : State) : Host.Outcome State Fault Refusal :=
  match i with
  | .iadd f d a b => Sys2Proof.Machine.execIadd f d a b s
  | .isub f d a b => Sys2Proof.Machine.execIsub f d a b s
  | .imul f d a b => Sys2Proof.Machine.execImul f d a b s
  | .imad wide d a b => Sys2Proof.Machine.execImad wide d a b s
  | .imin uns d a b => Sys2Proof.Machine.execImin uns d a b s
  | .imax uns d a b => Sys2Proof.Machine.execImax uns d a b s
  | .and d a b => Sys2Proof.Machine.execAnd d a b s
  | .andn d a b => Sys2Proof.Machine.execAndn d a b s
  | .or d a b => Sys2Proof.Machine.execOr d a b s
  | .orn d a b => Sys2Proof.Machine.execOrn d a b s
  | .xor d a b => Sys2Proof.Machine.execXor d a b s
  | .shl wide d a b => Sys2Proof.Machine.execShl wide d a b s
  | .shr wide d a b => Sys2Proof.Machine.execShr wide d a b s
  | .sar wide d a b => Sys2Proof.Machine.execSar wide d a b s
  | .rotl wide d a b => Sys2Proof.Machine.execRotl wide d a b s
  | .clz d a => Sys2Proof.Machine.execClz d a s
  | .popc d a => Sys2Proof.Machine.execPopc d a s
  | .brev d a => Sys2Proof.Machine.execBrev d a s
  | .iabs d a => Sys2Proof.Machine.execIabs d a s
  | .ineg d a => Sys2Proof.Machine.execIneg d a s
  | .not d a => Sys2Proof.Machine.execNot d a s
  | .bfx signed d a b => Sys2Proof.Machine.execBfx signed d a b s
  | .bfi d a b => Sys2Proof.Machine.execBfi d a b s
  | .bitil three d a => Sys2Proof.Machine.execBitil three d a s
  | .bitdl f d a => Sys2Proof.Machine.execBitdl f d a s
  | .icmp c d a b => Sys2Proof.Machine.execIcmp c d a b s
  | .isel p d a b => Sys2Proof.Machine.execIsel p d a b s
  | .iaddc p d a b => Sys2Proof.Machine.execIaddc p d a b s
  | .mov d a => Sys2Proof.Machine.execMov d a s
  | .movVS d a => Sys2Proof.Machine.execMovVS d a s
  | .movSV d a b => Sys2Proof.Machine.execMovSV d a b s
  | .movPP d a => Sys2Proof.Machine.execMovPP d a s
  | .movSS d a => Sys2Proof.Machine.execMovSS d a s
  | .movVP d a => Sys2Proof.Machine.execMovVP d a s
  | .movPV d a => Sys2Proof.Machine.execMovPV d a s
  | .pand d a b => Sys2Proof.Machine.execPand d a b s
  | .por d a b => Sys2Proof.Machine.execPor d a b s
  | .pxor d a b => Sys2Proof.Machine.execPxor d a b s
  | .pnot d a => Sys2Proof.Machine.execPnot d a s
  | .iaddi d a imm => Sys2Proof.Machine.execIaddi d a imm s
  | .andi d a imm => Sys2Proof.Machine.execAndi d a imm s
  | .ori d a imm => Sys2Proof.Machine.execOri d a imm s
  | .xori d a imm => Sys2Proof.Machine.execXori d a imm s
  | .shli d a imm => Sys2Proof.Machine.execShli d a imm s
  | .shri d a imm => Sys2Proof.Machine.execShri d a imm s
  | .sari d a imm => Sys2Proof.Machine.execSari d a imm s
  | .muli d a imm => Sys2Proof.Machine.execMuli d a imm s
  | .movi d imm => Sys2Proof.Machine.execMovi d imm s
  | .movh d imm => Sys2Proof.Machine.execMovh d imm s
  | .smovi d imm => Sys2Proof.Machine.execSmovi d imm s
  | .sadd d a b => Sys2Proof.Machine.execSadd d a b s
  | .ssub d a b => Sys2Proof.Machine.execSsub d a b s
  | .smul d a b => Sys2Proof.Machine.execSmul d a b s
  | .sand d a b => Sys2Proof.Machine.execSand d a b s
  | .sor d a b => Sys2Proof.Machine.execSor d a b s
  | .sxor d a b => Sys2Proof.Machine.execSxor d a b s
  | .sshl d a b => Sys2Proof.Machine.execSshl d a b s
  | .sshr d a b => Sys2Proof.Machine.execSshr d a b s
  | .smin d a b => Sys2Proof.Machine.execSmin d a b s
  | .smax d a b => Sys2Proof.Machine.execSmax d a b s
  | .sadd64 d a b => Sys2Proof.Machine.execSadd64 d a b s
  | .saddi d a imm => Sys2Proof.Machine.execSaddi d a imm s
  | .scmp c d a b => Sys2Proof.Machine.execScmp c d a b s
  | .fadd sat m d a b => Sys2Proof.Machine.execFadd sat m d a b s
  | .fsub sat m d a b => Sys2Proof.Machine.execFsub sat m d a b s
  | .fmul sat m d a b => Sys2Proof.Machine.execFmul sat m d a b s
  | .ffma sat m d a b => Sys2Proof.Machine.execFfma sat m d a b s
  | .fmin num d a b => Sys2Proof.Machine.execFmin num d a b s
  | .fmax num d a b => Sys2Proof.Machine.execFmax num d a b s
  | .fcmp c d a b => Sys2Proof.Machine.execFcmp c d a b s
  | .fabs d a => Sys2Proof.Machine.execFabs d a s
  | .fneg d a => Sys2Proof.Machine.execFneg d a s
  | .fcpys d a b => Sys2Proof.Machine.execFcpys d a b s
  | .frcp d a => Sys2Proof.Machine.execFrcp d a s
  | .frsq d a => Sys2Proof.Machine.execFrsq d a s
  | .fsqrt d a => Sys2Proof.Machine.execFsqrt d a s
  | .flog2 d a => Sys2Proof.Machine.execFlog2 d a s
  | .fexp2 d a => Sys2Proof.Machine.execFexp2 d a s
  | .fsin d a => Sys2Proof.Machine.execFsin d a s
  | .fcos d a => Sys2Proof.Machine.execFcos d a s
  | .ftanh d a => Sys2Proof.Machine.execFtanh d a s
  | .padd2 bf16 d a b => Sys2Proof.Machine.execPadd2 bf16 d a b s
  | .pmul2 bf16 d a b => Sys2Proof.Machine.execPmul2 bf16 d a b s
  | .pfma2 bf16 d a b => Sys2Proof.Machine.execPfma2 bf16 d a b s
  | .fcvt m sel d a => Sys2Proof.Machine.execFcvt m sel d a s
  | .fcvts f d a b => Sys2Proof.Machine.execFcvts f d a b s
  | .qcvt q hadamard n32 d a => Sys2Proof.Machine.execQcvt q hadamard n32 d a s
  | .qamax n32 d a => Sys2Proof.Machine.execQamax n32 d a s
  | .vqdec table d a => Sys2Proof.Machine.execVqdec table d a s
  | .shfl w m d a b => Sys2Proof.Machine.execShfl w m d a b s
  | .voteAny d a => Sys2Proof.Machine.execVoteAny d a s
  | .voteAll d a => Sys2Proof.Machine.execVoteAll d a s
  | .voteBallot d a => Sys2Proof.Machine.execVoteBallot d a s
  | .voteCount d a => Sys2Proof.Machine.execVoteCount d a s
  | .reduce op d a b => Sys2Proof.Machine.execReduce op d a b s
  | .scan excl op d a b => Sys2Proof.Machine.execScan excl op d a b s
  | .envrd d index => Sys2Proof.Machine.execEnvrd d index s
  | .elect d => Sys2Proof.Machine.execElect d s
  | .bra c ofs => Sys2Proof.Machine.execBra c ofs s
  | .jmp ofs => Sys2Proof.Machine.execJmp ofs s
  | .call ofs => Sys2Proof.Machine.execCall ofs s
  | .jmpi a => Sys2Proof.Machine.execJmpi a s
  | .calli d a => Sys2Proof.Machine.execCalli d a s
  | .nop => Sys2Proof.Machine.execNop s
  | .ret a => Sys2Proof.Machine.execRet a s
  | .exit => Sys2Proof.Machine.execExit s
  | .yield => Sys2Proof.Machine.execYield s
  | .enrol k => Sys2Proof.Machine.execEnrol k s
  | .join k => Sys2Proof.Machine.execJoin k s
  | .leave k => Sys2Proof.Machine.execLeave k s
  | .brp ifPending p ofs => Sys2Proof.Machine.execBrp ifPending p ofs s
  | .wbase n => Sys2Proof.Machine.execWbase n s
  | .vfree a n => Sys2Proof.Machine.execVfree a n s
  | .regroup => Sys2Proof.Machine.execRegroup s
  | .pend a => Sys2Proof.Machine.execPend a s
  | .ld acq z d a b => Sys2Proof.Machine.execLd acq z d a b s
  | .st rel z d a b => Sys2Proof.Machine.execSt rel z d a b s
  | .lds z d a b => Sys2Proof.Machine.execLds z d a b s
  | .sts z d a b => Sys2Proof.Machine.execSts z d a b s
  | .ldu z d a b => Sys2Proof.Machine.execLdu z d a b s
  | .atom op nr wide o sc d a b => Sys2Proof.Machine.execAtom op nr wide o sc d a b s
  | .cas wide o sc d a b => Sys2Proof.Machine.execCas wide o sc d a b s
  | .fenceAcq sc => Sys2Proof.Machine.execFenceAcq sc s
  | .fenceRel sc => Sys2Proof.Machine.execFenceRel sc s
  | .fenceFull sc => Sys2Proof.Machine.execFenceFull sc s
  | .fenceAsync sc => Sys2Proof.Machine.execFenceAsync sc s
  | .icinv sc => Sys2Proof.Machine.execIcinv sc s
  | .cctlWb a b => Sys2Proof.Machine.execCctlWb a b s
  | .cctlInv a b => Sys2Proof.Machine.execCctlInv a b s
  | .cctlWbinv a b => Sys2Proof.Machine.execCctlWbinv a b s
  | .fetch d a b => Sys2Proof.Machine.execFetch d a b s
  | .fqry d a sel => Sys2Proof.Machine.execFqry d a sel s
  | .tex d a b => Sys2Proof.Machine.execTex d a b s
  | .rngkey a => Sys2Proof.Machine.execRngkey a s
  | .rng d a => Sys2Proof.Machine.execRng d a s
  | .rmask d a b => Sys2Proof.Machine.execRmask d a b s
  | .cpy a => Sys2Proof.Machine.execCpy a s
  | .chain a => Sys2Proof.Machine.execChain a s
  | .sacqFree d ring => Sys2Proof.Machine.execSacqFree d ring s
  | .sacqFilled d ring => Sys2Proof.Machine.execSacqFilled d ring s
  | .spub a ring => Sys2Proof.Machine.execSpub a ring s
  | .sfree a ring => Sys2Proof.Machine.execSfree a ring s
  | .coll a => Sys2Proof.Machine.execColl a s
  | .mma solo f d a b => Sys2Proof.Machine.execMma solo f d a b s
  | .mmasp solo f d a b => Sys2Proof.Machine.execMmasp solo f d a b s
  | .conv d a b => Sys2Proof.Machine.execConv d a b s
  | .scacc d a b => Sys2Proof.Machine.execScacc d a b s
  | .aclr d b => Sys2Proof.Machine.execAclr d b s
  | .ald d a b => Sys2Proof.Machine.execAld d a b s
  | .astFp32 d a => Sys2Proof.Machine.execAstFp32 d a s
  | .astBf16 d a => Sys2Proof.Machine.execAstBf16 d a s
  | .tld d a b => Sys2Proof.Machine.execTld d a b s
  | .oprdy => Sys2Proof.Machine.execOprdy s
  | .mwait d => Sys2Proof.Machine.execMwait d s
  | .spawn a b => Sys2Proof.Machine.execSpawn a b s
  | .enq d a => Sys2Proof.Machine.execEnq d a s
  | .deq blocking d a => Sys2Proof.Machine.execDeq blocking d a s
  | .depset d a b => Sys2Proof.Machine.execDepset d a b s
  | .depdec d b => Sys2Proof.Machine.execDepdec d b s
  | .depadd d b => Sys2Proof.Machine.execDepadd d b s
  | .cmbopen blocking d a => Sys2Proof.Machine.execCmbopen blocking d a s
  | .cmbput d a => Sys2Proof.Machine.execCmbput d a s
  | .cmbstat d a => Sys2Proof.Machine.execCmbstat d a s
  | .cmbclose a => Sys2Proof.Machine.execCmbclose a s
  | .cmbcancel a => Sys2Proof.Machine.execCmbcancel a s
  | .binflush => Sys2Proof.Machine.execBinflush s
  | .trace cull any d a b => Sys2Proof.Machine.execTrace cull any d a b s
  | .hitget d a b => Sys2Proof.Machine.execHitget d a b s
  | .vapp d a b => Sys2Proof.Machine.execVapp d a b s
  | .vconn d a b => Sys2Proof.Machine.execVconn d a b s
  | .vmrg d a b => Sys2Proof.Machine.execVmrg d a b s
  | .vmrq d a b => Sys2Proof.Machine.execVmrq d a b s
  | .vrwtConn d a b => Sys2Proof.Machine.execVrwtConn d a b s
  | .vrwtMrg d a b => Sys2Proof.Machine.execVrwtMrg d a b s
  | .fopen a => Sys2Proof.Machine.execFopen a s
  | .fclose a => Sys2Proof.Machine.execFclose a s
  | .eseal a => Sys2Proof.Machine.execEseal a s
  | .vret a => Sys2Proof.Machine.execVret a s
  | .vget d a b => Sys2Proof.Machine.execVget d a b s
  | .trap code => Sys2Proof.Machine.execTrap code s
  | .sysrd d index => Sys2Proof.Machine.execSysrd d index s
  | .syswrTrapbase a => Sys2Proof.Machine.execSyswrTrapbase a s
  | .syswrLattice n a => Sys2Proof.Machine.execSyswrLattice n a s
  | .regionstatClearRegion a => Sys2Proof.Machine.execRegionstatClearRegion a s
  | .regionstatClearOvf a => Sys2Proof.Machine.execRegionstatClearOvf a s
  | .syswrPerfctl a => Sys2Proof.Machine.execSyswrPerfctl a s
  | .syswrPerfcnt n a => Sys2Proof.Machine.execSyswrPerfcnt n a s
  | .syswrWschedcfg a => Sys2Proof.Machine.execSyswrWschedcfg a s
  | .syswrDetsel a => Sys2Proof.Machine.execSyswrDetsel a s
  | .syswrOther index a => Sys2Proof.Machine.execSyswrOther index a s
  | .ordb => Sys2Proof.Machine.execOrdb s
  | .orde => Sys2Proof.Machine.execOrde s
  | .pxw a => Sys2Proof.Machine.execPxw a s
  | .resume a => Sys2Proof.Machine.execResume a s
  | .bkpt tag => Sys2Proof.Machine.execBkpt tag s
  | .illegalWord w => Sys2Proof.Machine.execIllegalWord w s
  | .deviceReset => Sys2Proof.Machine.execDeviceReset s
  | .linkFunctionReset link => Sys2Proof.Machine.execLinkFunctionReset link s
  | .powerLoss => Sys2Proof.Machine.execPowerLoss s
  | .serviceLevelRise pass => Sys2Proof.Machine.execServiceLevelRise pass s
  | .hostRegisterWrite link offset data => Sys2Proof.Machine.execHostRegisterWrite link offset data s
  | .queueDescriptorWrite offset data => Sys2Proof.Machine.execQueueDescriptorWrite offset data s
  | .queueEnable offset data => Sys2Proof.Machine.execQueueEnable offset data s
  | .queueDisable offset data => Sys2Proof.Machine.execQueueDisable offset data s
  | .writeIndexAdvance q => Sys2Proof.Machine.execWriteIndexAdvance q s
  | .commandAreaWrite link offset data => Sys2Proof.Machine.execCommandAreaWrite link offset data s
  | .unlistedServiceOp link => Sys2Proof.Machine.execUnlistedServiceOp link s
  | .ctxcreate link => Sys2Proof.Machine.execCtxcreate link s
  | .ctxsetSavePool link => Sys2Proof.Machine.execCtxsetSavePool link s
  | .ctxsetGraphRegion link => Sys2Proof.Machine.execCtxsetGraphRegion link s
  | .ctxsetCombineRegion link => Sys2Proof.Machine.execCtxsetCombineRegion link s
  | .ctxsetReleaseQueue link => Sys2Proof.Machine.execCtxsetReleaseQueue link s
  | .ctxsetTrapbase link => Sys2Proof.Machine.execCtxsetTrapbase link s
  | .ctxdestroy link => Sys2Proof.Machine.execCtxdestroy link s
  | .imgload link => Sys2Proof.Machine.execImgload link s
  | .imgdrop link => Sys2Proof.Machine.execImgdrop link s
  | .inval link => Sys2Proof.Machine.execInval link s
  | .hostrange link => Sys2Proof.Machine.execHostrange link s
  | .save link => Sys2Proof.Machine.execSave link s
  | .restore link => Sys2Proof.Machine.execRestore link s
  | .quiesce link => Sys2Proof.Machine.execQuiesce link s
  | .powerP0 link => Sys2Proof.Machine.execPowerP0 link s
  | .powerP1 link => Sys2Proof.Machine.execPowerP1 link s
  | .powerPark link => Sys2Proof.Machine.execPowerPark link s
  | .wload link => Sys2Proof.Machine.execWload link s
  | .cxlMemRead pa bytes => Sys2Proof.Machine.execCxlMemRead pa bytes s
  | .cxlMemWrite pa data => Sys2Proof.Machine.execCxlMemWrite pa data s
  | .cxlCacheSnoop pa => Sys2Proof.Machine.execCxlCacheSnoop pa s
  | .weightPortWrite die => Sys2Proof.Machine.execWeightPortWrite die s
  | .fabricLaneFailure port lane => Sys2Proof.Machine.execFabricLaneFailure port lane s
  | .spareLaneSwapComplete port => Sys2Proof.Machine.execSpareLaneSwapComplete port s
  | .peerAccess peer pa op => Sys2Proof.Machine.execPeerAccess peer pa op s
  | .remoteArrival ctx slotId expert data => Sys2Proof.Machine.execRemoteArrival ctx slotId expert data s
  | .remoteAcknowledgement id => Sys2Proof.Machine.execRemoteAcknowledgement id s
  | .remoteAckTimeout id => Sys2Proof.Machine.execRemoteAckTimeout id s
  | .leaseRenewal holder => Sys2Proof.Machine.execLeaseRenewal holder s
  | .leaseExpiry line => Sys2Proof.Machine.execLeaseExpiry line s
  | .droverTakePacket q => Sys2Proof.Machine.execDroverTakePacket q s
  | .effectivePriorityAgeing q => Sys2Proof.Machine.execEffectivePriorityAgeing q s
  | .teamPlace grid => Sys2Proof.Machine.execTeamPlace grid s
  | .ownerPop core => Sys2Proof.Machine.execOwnerPop core s
  | .thiefSteal core => Sys2Proof.Machine.execThiefSteal core s
  | .gridComplete grid => Sys2Proof.Machine.execGridComplete grid s
  | .markerComplete grid => Sys2Proof.Machine.execMarkerComplete grid s
  | .holdListDelivery q => Sys2Proof.Machine.execHoldListDelivery q s
  | .watchdogExpiry grid => Sys2Proof.Machine.execWatchdogExpiry grid s
  | .memoryAccessComplete id => Sys2Proof.Machine.execMemoryAccessComplete id s
  | .closureRun id => Sys2Proof.Machine.execClosureRun id s
  | .chainEntryPerform id => Sys2Proof.Machine.execChainEntryPerform id s
  | .engineCommandComplete id => Sys2Proof.Machine.execEngineCommandComplete id s
  | .matrixCommandComplete id => Sys2Proof.Machine.execMatrixCommandComplete id s
  | .copyCommandComplete core => Sys2Proof.Machine.execCopyCommandComplete core s
  | .collectiveComplete id peers => Sys2Proof.Machine.execCollectiveComplete id peers s
  | .pageWalkComplete core ctx va => Sys2Proof.Machine.execPageWalkComplete core ctx va s
  | .latticeCopyComplete ctx => Sys2Proof.Machine.execLatticeCopyComplete ctx s
  | .regroupTimerExpiry team core => Sys2Proof.Machine.execRegroupTimerExpiry team core s
  | .binTimerExpiry core bin => Sys2Proof.Machine.execBinTimerExpiry core bin s
  | .binLaunch core bin => Sys2Proof.Machine.execBinLaunch core bin s
  | .parityError gslot => Sys2Proof.Machine.execParityError gslot s
  | .correctableError part => Sys2Proof.Machine.execCorrectableError part s
  | .trapRecordTake gslot => Sys2Proof.Machine.execTrapRecordTake gslot s
  | .handlerTeamStart ctx record => Sys2Proof.Machine.execHandlerTeamStart ctx record s
  | .deferredErrorTrap id => Sys2Proof.Machine.execDeferredErrorTrap id s
  | .spatialPreemption q cores => Sys2Proof.Machine.execSpatialPreemption q cores s
  | .preemptionWaitExpiry grid => Sys2Proof.Machine.execPreemptionWaitExpiry grid s
  | .exactStop team => Sys2Proof.Machine.execExactStop team s
  | .saveBoundExpiry team => Sys2Proof.Machine.execSaveBoundExpiry team s
  | .teamRestore team cores => Sys2Proof.Machine.execTeamRestore team cores s
  | .digestCompare team => Sys2Proof.Machine.execDigestCompare team s
  | .slotTimerExpiry ctx die index => Sys2Proof.Machine.execSlotTimerExpiry ctx die index s
  | .orderedRelease ctx die index => Sys2Proof.Machine.execOrderedRelease ctx die index s
  | .releaseRecordWrite ctx die => Sys2Proof.Machine.execReleaseRecordWrite ctx die s
  | .reprojectionComplete grid => Sys2Proof.Machine.execReprojectionComplete grid s
  | .weightRefreshWindow die => Sys2Proof.Machine.execWeightRefreshWindow die s

end Sys2Proof.Machine
end

