-- ==== Sys2Proof/Machine/Issue.lean ====
section
/-!
DEFINITION. What a step of the part does around `exec`: issue sets and the clause header (R43, R44, R50, R122, R123, R206), the fetch and
the decode checks of a word (R120, R135), spills and fills (R93-R95), and the choice among what can happen next where the schedule asks
for nothing (R45, log 6).
-/

namespace Sys2Proof.Machine

/-- Time passes, and the free values of a step are its own (log 5, log 17). -/
def State.tick (s : State) : State := { s with clock := s.clock + 1, fresh := s.fresh + 1 }

/-! ### Issue sets (R43, R44, R50) -/

/-- Whether a save holds a lane back: its sets stop at their next word or, where a portable save can be made, at the first piece of a
portable clause (R214, R218). -/
def State.heldBack (s : State) (x : Group) (l : Nat) : Bool :=
  (s.team x.team).saving.isSome && (!s.portable x.team || s.atPortable x (x.lane l))

/-- Lanes that can be in an issue set. -/
def Group.ready (x : Group) : List Nat := x.live.filter fun l => !(x.lane l).waits

/-- The lanes of an issue set: parked ones resume together, apart from those that did not park (R44). -/
def Group.setLanes (x : Group) (l : Nat) : List Nat :=
  (x.setOf l).filter fun k => ((x.lane k).park == .none) == ((x.lane l).park == .none)

/-- Whether a lane waits at one of the stop points of R50. -/
def Lane.atStop (y : Lane) : Bool :=
  match y.park with
  | .join _ | .stand => true
  | _ => false

/-- The running set under DET: the one chosen last, while a lane of it is at no stop point, or that of the lowest lane that can issue
(R50). -/
def Group.runs (x : Group) : BitVec 32 :=
  if x.live.any fun l => x.running.getLsbD l && !(x.lane l).atStop then x.running
  else
    match x.ready with
    | l :: _ => maskOf (x.setOf l)
    | [] => 0

/-- The lanes that a step issues for a lane: those of its set (R43, R44); of the lanes that have parked at its word the schedule may resume
some. Under DET only the running set issues, whole, and sets that meet it at a header belong to it. -/
def State.lanesFor (s : State) (g l : Nat) (resume : List Nat) : List Nat :=
  match tabGet s.groups g with
  | none => []
  | some x =>
    let det := (s.grid x.grid).pkt.det
    let ls := (x.setLanes l).filter fun k => det || (x.lane k).park == .none || resume == [] || resume.contains k
    if x.trap.isSome || !x.ready.contains l || s.heldBack x l then []
    else if det && !(ls.any fun k => x.runs.getLsbD k) then []
    else ls

/-- The issue set of a group's lanes. -/
def State.cxOf (s : State) (g : Nat) (ls : List Nat) : Cx :=
  let x := s.group g
  ⟨g, x, s.grid x.grid, ls⟩

/-! ### Clause headers (R113, R122, R123, R206) -/

/-- The lost access that a deferred-error trap reports first, with those of the same instruction. -/
def Group.lostFirst (x : Group) : List LostAccess :=
  match x.lost with
  | [] => []
  | e :: _ => x.lost.filter fun f => f.issue == e.issue

/-- The deferred-error trap of a group whose sets have stopped at their headers (R206): the record has the pc of the primary lane, though it be
parked at a JOIN or finished (log 76). -/
def State.deferredTrap (s : State) (c : Cx) : Out State :=
  let fs := c.x.lostFirst
  let faults : List LaneFault := (sortBy (fun e : LostAccess => e.lane) fs).map fun e => (e.lane, .regionLost, e.addr)
  let e := fs.headD ⟨0, 0, 0, 0, 0⟩
  let l := (faults.headD (0, .regionLost, 0)).1
  if (s.team c.x.team).shadow.isSome then .next (s.abandonCheck c.x.team)
  else
    .next (s.modGroup c.g fun x =>
      suspend { x with lost := x.lost.filter fun f => f.issue != e.issue }
        { s.trapped x faults (x.lane l).pc e.hdr with deferred := true, dst := e.dst })

/-- Whether every set of a group has stopped at a header or waits; under DET, the running set. -/
def Cx.allStopped (c : Cx) : Bool := c.gr.pkt.det || c.x.ready.all fun l => !(c.x.lane l).inBody

/-- A thread past a header, with the words fetched for the clause: a region starts at an IDEM header (R99, R140). -/
def Lane.enter (y : Lane) (h : Word) (body : List (Option Word)) (set clock : Nat) : Lane :=
  let y := { y with
    pc := y.pc + 4, hword := h, inBody := true, body := body, set := set, stamp := clock, yielded := false, park := .none }
  if hIdem h then { y with rgnHdr := y.hdr, rgnWb := y.wb, irrev := false, rollbacks := 0 } else y

/-- Whether a thread can pass a header: its flags (R43), and the drain of an IDEM header (R113). -/
def State.passes (s : State) (c : Cx) (h : Word) (l : Nat) : Bool :=
  (c.x.lane l).waitDone (hWait h) && (!hIdem h || s.entries c.g l == 0)

/-- The lanes of a set at a clause header go on into the body; none where they wait. Sets that wait at a YIELD header under DET have
stopped there once (R50). -/
def State.passHeader (s : State) (c : Cx) : Option (Out State) :=
  if c.x.lost != [] then (if c.allStopped then some (s.deferredTrap c) else none)
  else
    match s.checkHeader c.who c.y0.pc.toNat with
    | .error (k, a) => some (s.trapAll c k a)
    | .ok h =>
      let go := c.ls.filter (s.passes c h)
      if c.gr.pkt.det && hYield h && c.ls.any (fun l => !(c.x.lane l).yielded) then
        some (.next ((s.modLanes c.g c.ls fun _ y => { y with yielded := true }).modGroup c.g fun x =>
          { x with running := x.nextRunning c.l0 }))
      else if go = [] || (c.gr.pkt.det && go.length != c.ls.length) then none
      else
        let a := c.y0.pc.toNat
        let body := (upto (hLen h)).map fun k => (s.fetchWord c.who (a + 4 + 4 * k)).toOption
        let t := (s.modLanes c.g go fun _ y => y.enter h body s.nextId s.clock).fresh1
        let t := if hIdem h then go.foldl (fun t l => t.endRegion c.g l (coreOf c.g) c.x.team (t.thread c.g l)) t else t
        let t := (go.foldl (fun t l => t.noteWait (hWait h) c.g l) t).fillClause c.who a (hLen h)
        some (.next (if c.gr.pkt.det then t.modGroup c.g fun x => { x with running := maskOf go } else t))

/-! ### Words (R120, R135) -/

/-- Words that end their body (Table 5.10, check 6). -/
def lastOnly : Instr → Bool
  | .bra .. | .brp .. | .jmp _ | .jmpi _ | .call _ | .calli .. | .ret _ | .exit | .regroup => true
  | _ => false

/-- Matrix, vertex graph and combine instructions (R18). -/
def needsLevel3 : Instr → Bool
  | .mma .. | .mmasp .. | .conv .. | .scacc .. | .aclr .. | .ald .. | .astFp32 .. | .astBf16 .. | .tld .. | .mwait ..
  | .vapp .. | .vconn .. | .vmrg .. | .vmrq .. | .vrwtConn .. | .vrwtMrg .. | .fopen .. | .fclose .. | .eseal ..
  | .vret .. | .vget .. | .cmbopen .. | .cmbput .. | .cmbstat .. | .cmbclose .. | .cmbcancel .. => true
  | _ => false

/-- A word of the body that a thread is in: as fetched with the clause's header, or fetched now (R140). -/
def State.bodyWord (s : State) (w : Who) (y : Lane) (a : Nat) : Except (Cause × Nat) Word :=
  match y.body[(a - y.hdr.toNat) / 4 - 1]? with
  | some (some x) => .ok x
  | _ => s.fetchWord w a

/-- The instruction that a thread is at, with `room` words of its body left, itself among them; a word that encodes none is that word (R135,
checks 1 to 5). -/
def State.instrAt (s : State) (w : Who) (y : Lane) (room : Nat) : Except (Cause × Nat) Instr :=
  let a := y.pc.toNat
  match s.bodyWord w y a with
  | .error e => .error e
  | .ok x =>
    match decodeWord x none with
    | .ok (i, _) => .ok i
    | .error .following =>
      if room < 2 then .ok (.illegalWord x)
      else
        (match s.bodyWord w y (a + 4) with
          | .error e => .error e
          | .ok y =>
            match decodeWord x (some y) with
            | .ok (i, _) => .ok i
            | .error _ => .ok (.illegalWord x))
    | .error _ => .ok (.illegalWord x)

/-- Checks 6 and 7 of Table 5.10. -/
def admitted (i : Instr) (level room : Nat) : Instr :=
  if (lastOnly i && room != sizeOf' i) || (needsLevel3 i && level < 3) then .illegalWord ((encode i).headD 0) else i

/-- Words of the body from a thread's word on. -/
def Lane.room (y : Lane) : Nat := (y.bodyEnd - y.pc).toNat / 4

/-! ### Spills and fills (R93-R95) -/

/-- The registers that an instruction waits for or reads, and those that it writes. -/
def regsOf (i : Instr) : List Opd × List Opd :=
  match Instr.alu i with
  | some u => (u.srcs, u.dsts)
  | none => ((operandsOf i).1 ++ dataOf i, (operandsOf i).2)

/-- The registers whose values an instruction reads in a lane: VFREE and PEND read none (R92, R111), ENQ to a task queue reads a quad. -/
def State.reads (s : State) (c : Cx) (i : Instr) (l : Nat) : List Opd :=
  match i with
  | .vfree .. | .pend _ => []
  | .enq d a => if (s.queue (queueOf (s.readOpd c.x l (.v d.toNat)))).task then v1 d ++ v4 a else (regsOf i).1
  | _ => (regsOf i).1

/-- The lane slot outside its set that a lane reads a register of, and the register: SHFL and MOV FN 2 (R388, R418). -/
def State.readsOther (s : State) (c : Cx) (i : Instr) (l : Nat) : Option (Nat × Opd) :=
  let at' (k : Nat) (a : VField) : Option (Nat × Opd) := if c.ls.contains k || (c.x.lane k).fin then none else some (k, .v a.toNat)
  match i with
  | .shfl w m _ a b => at' (shflSource (shflWidth w) m l (s.readOpd c.x l (b.v.headD (.imm 0))).toNat) a
  | .movSV _ a b => if l = c.l0 then at' ((s.readOpd c.x l (b.v.headD (.imm 0))).toNat % 32) a else none
  | _ => none

/-- What an instruction reads in a lane slot, of the lanes of its set or of others. -/
def State.readsIn (s : State) (c : Cx) (i : Instr) (k : Nat) : List Opd :=
  (if c.ls.contains k then s.reads c i k else []) ++
    c.ls.filterMap fun l => (s.readsOther c i l).bind fun p => if p.1 = k then some p.2 else none

/-- The physical entries of a class: registers that hold one, least recently used first; those spilled and filled. -/
structure Entries where
  held : List Nat
  spilled : List Nat := []
  filled : List Nat := []
  deriving DecidableEq, Repr

/-- An entry for a register: none where every entry holds a pending one. -/
def Entries.take (e : Entries) (budget : Nat) (pending : Nat → Bool) (fill : Bool) (r : Nat) : Option Entries :=
  let filled := if fill && !e.filled.contains r then e.filled ++ [r] else e.filled
  if e.held.contains r then some { e with held := e.held.filter (fun k => k != r) ++ [r] }
  else if e.held.length < budget then some { e with held := e.held ++ [r], filled := filled }
  else
    match e.held.find? fun k => !pending k with
    | none => none
    | some k => some ⟨e.held.filter (fun n => n != k) ++ [r], e.spilled ++ [k], filled⟩

/-- Entries for the sources that are live, which are filled where they were spilled, then for the destinations, which are not; destinations
that the instruction leaves pending, where it does, are not spilled for one another. -/
def Entries.takeAll (budget : Nat) (pending live : Nat → Bool) (srcs dsts : List Nat) (owes : Bool) (e : Entries) : Option Entries :=
  let e := srcs.foldl (fun e r => e.bind fun e => if live r then e.take budget pending true r else some e) (some e)
  dsts.foldl (fun e r => e.bind fun e => e.take budget (fun k => pending k || (owes && dsts.contains k)) false r) e

/-- Vector registers among operands. -/
def vregs (y : Lane) (os : List Opd) : List Nat :=
  os.filterMap fun o =>
    match o.reg y with
    | some (.v n) => some n
    | _ => none

/-- Uniform registers among operands. -/
def sregs (y : Lane) (os : List Opd) : List Nat :=
  os.filterMap fun o =>
    match o.reg y with
    | some (.s n) => some n
    | _ => none

/-- The vector budget of a group's threads. -/
def State.vbudget (s : State) (x : Group) : Nat :=
  if (s.team x.team).handler.isSome then 64 else (s.grid x.grid).pkt.vbud.getD x.role 0

/-- The uniform budget of a group. -/
def State.ubudget (s : State) (x : Group) : Nat := if (s.team x.team).handler.isSome then 32 else (s.grid x.grid).pkt.ubud

/-- Whether an instruction leaves its destinations in a lane pending (R102): it is captured, or returns its values later. -/
def State.owes (s : State) (c : Cx) (i : Instr) (l : Nat) : Bool :=
  match Instr.alu i with
  | some u => s.fate c u l == .capture
  | none =>
    match i with
    | .cmbopen .. | .cmbstat .. | .rng .. | .rmask .. => false
    | _ => clsOf i != .neither

/-- The entries of a lane after an instruction. -/
def State.laneEntries (s : State) (c : Cx) (i : Instr) (l : Nat) : Option Entries :=
  let y := c.x.lane l
  Entries.takeAll (s.vbudget c.x) (fun r => (tabGet y.pend r).isSome) (fun r => (tabGet y.regs r).isSome)
    (vregs y (s.readsIn c i l)) (if c.ls.contains l then vregs y (regsOf i).2 else []) (s.owes c i l)
    ⟨y.resident, [], []⟩

/-- The entries of the group after an instruction. -/
def State.groupEntries (s : State) (c : Cx) (i : Instr) : Option Entries :=
  Entries.takeAll (s.ubudget c.x) (fun r => (tabGet c.x.spend r).isSome) (fun r => (tabGet c.x.sregs r).isSome)
    (sregs c.y0 (regsOf i).1) (sregs c.y0 (regsOf i).2) (s.owes c i c.l0) ⟨c.x.sresident, [], []⟩

/-- The core index of a group under a placement map or DET, which the team that has the core gives; bin groups under DET have their parent
team's, and a core that no team of the grid has is its own logical core. -/
def State.logicalCore (s : State) (c : Cx) : Nat :=
  let at' (t : Team) : Nat := t.lcore + t.cores.findIdx fun k => k == coreOf c.g
  let t := s.team c.x.team
  if t.dynamic && t.parent.isSome then t.lcore
  else if !t.dynamic && t.handler.isNone then at' t
  else
    match s.teams.find? fun e => e.2.grid == c.x.grid && e.2.cores.contains (coreOf c.g) && e.2.handler.isNone && e.2.shadow.isNone && !e.2.dynamic with
    | some e => at' e.2
    | none => coreOf c.g

/-- The spill area of a group's core (R94). -/
def State.spillArea (s : State) (c : Cx) : Nat :=
  c.gr.pkt.spill.toNat + (if c.gr.pkt.det || c.gr.pkt.pmap then s.logicalCore c else coreOf c.g) * 0x848000

/-- The spill slot of a vector register. -/
def State.vslot (s : State) (c : Cx) (l r : Nat) : Nat := s.spillArea c + (c.g % 64 * 32 + l) * 4224 + 4 * r

/-- The spill slot of a uniform register. -/
def State.sslot (s : State) (c : Cx) (r : Nat) : Nat := s.spillArea c + 0x840000 + c.g % 64 * 512 + 4 * r

/-- The first spill or fill that fails (R95). -/
def State.spillFail (s : State) (c : Cx) (e : Entries) (slot : Nat → Nat) : Option (Cause × Nat) :=
  firstOf ((e.spilled.map fun r => failOf (s.xlateAll c.who .store (slot r) 4)) ++
    e.filled.map fun r => failOf (s.xlateAll c.who .load (slot r) 4))

/-- Spilled values written; a shadow run keeps its own apart (R224). -/
def State.spill (s : State) (c : Cx) (e : Entries) (slot : Nat → Nat) (value : Nat → Word) : State :=
  if (s.team c.x.team).shadow.isSome then s
  else
    e.spilled.foldl (fun t r =>
      match t.putVa c.who (slot r) (leBytes 4 (value r).toNat) with
      | .ok u => u
      | .error _ => t) s

/-- Whether a lane has gone on past the word it was at. -/
def wentOn (before after : Lane) : Bool := after.fin || after.pc != before.pc

/-- The spills and fills of an instruction that the lanes `ls` have executed, `t` being the state after it: a failing one is raised
instead of its effect (R95). -/
def State.spills (s : State) (c : Cx) (i : Instr) (t : State) : Out State :=
  let x := t.group c.g
  let ls := c.ls.filter fun l => wentOn (c.x.lane l) (x.lane l)
  if x.uid != c.x.uid || x.trap.isSome || ls = [] then .next t
  else
    let ge := (s.groupEntries c i).getD ⟨c.x.sresident, [], []⟩
    let le (l : Nat) : Entries := (s.laneEntries c i l).getD ⟨(c.x.lane l).resident, [], []⟩
    let others := (ls.filterMap fun l => (s.readsOther c i l).map (·.1)).eraseDups
    let other (l : Nat) : Option (Cause × Nat) := (s.readsOther c i l).bind fun p => s.spillFail c (le p.1) (s.vslot c p.1)
    let fails := faultsOf ls fun l => firstOf [s.spillFail c ge (s.sslot c), s.spillFail c (le l) (s.vslot c l), other l]
    if fails != [] then s.trap c fails
    else
      let t := t.spill c ge (s.sslot c) fun r => tabGetD c.x.sregs r 0
      let ls := ls ++ others
      let t := ls.foldl (fun t l => t.spill c (le l) (s.vslot c l) fun r => tabGetD (c.x.lane l).regs r 0) t
      .next (t.modGroup c.g fun x =>
        { x with
          sresident := ge.held.filter fun r => (tabGet x.sregs r).isSome || (tabGet x.spend r).isSome
          lanes := ls.foldl (fun m l => tabMod m l fun y =>
            { y with resident := (le l).held.filter fun r => (tabGet y.regs r).isSome || (tabGet y.pend r).isSome }) x.lanes })

/-- Lanes that find no entry to write to (R93). -/
def State.unheld (s : State) (c : Cx) (i : Instr) : List Nat :=
  if (s.groupEntries c i).isNone then c.ls else c.ls.filter fun l => (s.laneEntries c i l).isNone

/-! ### Issuing a word -/

/-- The issue set chosen for `exec`. -/
def State.focusOn (s : State) (g : Nat) (ls : List Nat) : State := { s with focus := some ⟨g, ls⟩ }

/-- The regions of lanes that have executed an instruction: what it reads and writes of registers, what it reads of other lanes' among them,
and the end of those that have finished (R99). -/
def State.regionsAfter (s : State) (c : Cx) (i : Instr) (t : State) : State :=
  let x := t.group c.g
  (c.ls.filter fun l => x.uid != c.x.uid || wentOn (c.x.lane l) (x.lane l)).foldl (fun t l =>
    let y := c.x.lane l
    let k := s.thread c.g l
    if x.uid != c.x.uid || (x.lane l).fin then t.endRegion c.g l (coreOf c.g) c.x.team k
    else
      let t : State := match s.readsOther c i l with
        | some (m, o) => t.modRegion (s.thread c.g m) fun r => r.uses ([o].filterMap (·.reg (c.x.lane m))) []
        | none => t
      t.modRegion k fun r => r.uses ((s.reads c i l).filterMap (·.reg y)) ((regsOf i).2.filterMap (·.reg y))) t

/-- After a word: nothing is in focus, lanes that had parked and went on are a set of their own (R44), and the set is counted. -/
def State.afterWord (s : State) (c : Cx) (i : Instr) (t : State) : Out State :=
  let id := t.nextId
  let t := { t with focus := none }.fresh1
  let t := s.regionsAfter c i (t.count (coreOf c.g) c.gr.ctx 2 1)
  let resumed := c.ls.filter fun l => (c.x.lane l).park != .none
  let t := t.modGroup c.g fun x =>
    if x.uid != c.x.uid then x
    else
      { x with lanes := resumed.foldl (fun m l => tabMod m l fun y => if y.park = .none then { y with set := id } else y) x.lanes }
  s.spills c i t

/-- An issue set issues an instruction: the lanes that find no physical entry park (R93; under DET all), the others execute. -/
def State.issueWord (s : State) (g : Nat) (ls : List Nat) (i : Instr) : Out State :=
  let c := s.cxOf g ls
  let stay := s.unheld c i
  if stay.length = ls.length || holdAll c stay then .next ((s.parkLanes g ls).count (coreOf g) c.gr.ctx 4 ls.length)
  else
    let s := if stay = [] then s else (s.parkLanes g stay).count (coreOf g) c.gr.ctx 4 stay.length
    let ls := ls.filter fun l => !stay.contains l
    match exec i (s.focusOn g ls) with
    | .next t => s.afterWord (s.cxOf g ls) i t
    | o => o

/-- A fetch that fails: the record's instruction address is that of the word (R120). -/
def State.trapFetch (s : State) (c : Cx) (k : Cause) (a : Nat) : Out State :=
  if (s.team c.x.team).shadow.isSome then .next (s.abandonCheck c.x.team)
  else
    .next (s.modGroup c.g fun x =>
      suspend x (s.trapped x (c.ls.map fun l => (l, k, a)) (BitVec.ofNat 64 a) c.y0.hdr))

/-- An issue set inside a clause body: the word is fetched, decoded and issued. -/
def State.word (s : State) (g : Nat) (ls : List Nat) : Out State :=
  let c := s.cxOf g ls
  match s.instrAt c.who c.y0 c.y0.room with
  | .error (k, a) => s.trapFetch c k a
  | .ok i => s.issueWord g ls (admitted i s.level c.y0.room)

/-- What the issue of a group's lane comes to, the second accesses of its set's B128 stores being made first (R188); none where its set cannot
issue. -/
def State.issueOf (s : State) (g l : Nat) (resume : List Nat) : Option (Out State) :=
  match s.lanesFor g l resume with
  | [] => none
  | k :: ls =>
    let s := (k :: ls).foldl (fun t l => t.finishHalves g l) s
    if ((s.group g).lane k).inBody then some (s.word g (k :: ls)) else s.passHeader (s.cxOf g (k :: ls))

/-! ### What happens next where the schedule asks for nothing (log 6) -/

/-- Something that can happen. -/
abbrev Action := State → Out State

/-- The step that serves the command at the head of the mailboxes. -/
def State.serviceStep (s : State) : List Action :=
  match s.svc with
  | [] => []
  | r :: _ =>
    let m := (s.command r.link).getD {}
    let item := fld (s.operands m) 8 4
    [match m.op, item with
      | 1, _ => execCtxcreate r.link
      | 2, 0 => execCtxsetSavePool r.link
      | 2, 1 => execCtxsetGraphRegion r.link
      | 2, 2 => execCtxsetCombineRegion r.link
      | 2, 3 => execCtxsetReleaseQueue r.link
      | 2, 4 => execCtxsetTrapbase r.link
      | 3, _ => execCtxdestroy r.link
      | 4, _ => execImgload r.link
      | 5, _ => execImgdrop r.link
      | 6, _ => execInval r.link
      | 7, _ => execHostrange r.link
      | 8, _ => execSave r.link
      | 9, _ => execRestore r.link
      | 10, _ => execQuiesce r.link
      | 11, 0 => execPowerP0 r.link
      | 11, 1 => execPowerP1 r.link
      | 11, 2 => execPowerPark r.link
      | 12, _ => execWload r.link
      | _, _ => execUnlistedServiceOp r.link]

/-- Completions. -/
def State.completions (s : State) : List Action :=
  (s.ops.map fun e =>
    if e.2.engine then execEngineCommandComplete e.1
    else if e.2.lost && e.2.dsts != [] then execDeferredErrorTrap e.1
    else execMemoryAccessComplete e.1) ++
  (s.resid.map fun e => if e.2.isAlu then execClosureRun e.1 else execChainEntryPerform e.1) ++
  (s.cores.flatMap fun e =>
    (e.2.mport.map fun m => execMatrixCommandComplete m.id) ++ if e.2.copyq = [] then [] else [execCopyCommandComplete e.1]) ++
  s.ctxs.flatMap fun e => if e.2.latCopies = [] then [] else [execLatticeCopyComplete e.1]

/-- Traps, saves, checks and combine slots. -/
def State.followUps (s : State) : List Action :=
  (s.groups.filterMap fun e => if (e.2.trap.map fun t => t.record.isNone) = some true then some (execTrapRecordTake e.1) else none) ++
  (s.ctxs.flatMap fun e =>
    (e.2.handlers.map fun n => execHandlerTeamStart e.1 n) ++
      e.2.coops.flatMap fun d =>
        (d.2.slots.filterMap fun k => if k.2.st = .releasing && !k.2.recordDue then some (execOrderedRelease e.1 d.1 k.1) else none) ++
          if d.2.waiting = [] then [] else [execReleaseRecordWrite e.1 d.1]) ++
  (s.teams.flatMap fun e =>
    (if e.2.saving.isSome && e.2.saved.isNone then [execExactStop e.1] else []) ++
      (match e.2.saved with
        | none => []
        | some _ =>
          match s.restorePlace e.2 with
          | some cores => [execTeamRestore e.1 cores]
          | none => []) ++
      match e.2.shadow with
      | some sh => [execDigestCompare sh.primary]
      | none => [])

/-- The Drover's work. -/
def State.drover (s : State) : List Action :=
  (s.dies.filterMap fun d => if d.2.held = [] then none else some (execWeightPortWrite d.1)) ++
  (s.queues.filterMap fun e => if e.2.hold = [] then none else some (execHoldListDelivery e.1)) ++
  (s.grids.flatMap fun e =>
    (if e.2.ended then []
      else if e.2.pkt.kind = 2 then [execReprojectionComplete e.1]
      else if e.2.pkt.kind = 5 then [execMarkerComplete e.1]
      else [execGridComplete e.1]) ++
      if e.2.dealt < e.2.teams || s.savedWaits e.1 then [execTeamPlace e.1] else []) ++
  (s.cores.flatMap fun e =>
    (e.2.bins.filterMap fun b => if b.2.closed then some (execBinLaunch e.1 b.1) else none) ++
      if e.2.deque = [] then [] else [execOwnerPop e.1]) ++
  (if s.cores.all fun e => e.2.deque.isEmpty then [] else (upto Config.cores).map fun c => execThiefSteal c) ++
  (match s.droverChoice with
    | some q => [execDroverTakePacket q]
    | none => []) ++
  (s.queues.flatMap fun e =>
    match s.waitingPacket e.1 with
    | some (_, gr, _) => s.grids.map fun v => execSpatialPreemption e.1 ((s.victimCores v.1 gr).take (s.coresNeeded v.1 gr))
    | none => [])

/-- The timers that run, with the moments they fire at. -/
def State.timers (s : State) : List (Nat × Action) :=
  (s.teams.flatMap fun e =>
    (e.2.slices.filterMap fun x =>
      x.2.timer.map fun t => (t + 1024, execRegroupTimerExpiry e.1 (if e.2.dynamic then x.1 else e.2.cores.getD x.1 0))) ++
      match e.2.saving, e.2.saved with
      | some t, none => [(t + 5000000, execSaveBoundExpiry e.1)]
      | _, _ => []) ++
  (s.cores.flatMap fun e => e.2.bins.filterMap fun b =>
    if b.2.closed then none else some (b.2.timer + (s.grid b.2.grid).pkt.binCycles, execBinTimerExpiry e.1 b.1)) ++
  (s.ctxs.flatMap fun e => e.2.coops.flatMap fun d => d.2.slots.filterMap fun k =>
    if k.2.timeout = 0 || k.2.timedOut then none else some (k.2.since + 2500 * k.2.timeout, execSlotTimerExpiry e.1 d.1 k.1)) ++
  (s.ops.filterMap fun e => if e.2.remote.isSome then some (e.2.since + 250000, execRemoteAckTimeout e.1) else none) ++
  (s.grids.flatMap fun e =>
    (match e.2.progress with
      | some t => [(t + e.2.pkt.watchCycles, execWatchdogExpiry e.1)]
      | none => []) ++ if e.2.picked = [] then [] else [(e.2.pickedAt + 250000, execPreemptionWaitExpiry e.1)]) ++
  (s.queues.filterMap fun e =>
    if s.hasHead e.1 then some (e.2.since + 5000000 * (e.2.boost + 1), execEffectivePriorityAgeing e.1) else none) ++
  s.dies.filterMap fun d => d.2.phaseNext.map fun p => (p.2, execWeightRefreshWindow d.1)

/-- The first of some steps that can be made. -/
def State.firstOf (s : State) : List Action → Option State
  | [] => none
  | a :: r =>
    match a s with
    | .next t => some t
    | _ => s.firstOf r

/-- Clocks after which a set that waits goes before sets of a higher PRIO (log 6). -/
def longWait : Nat := 65536

/-- The rank of an issue set for its turn: sets that have waited very long, so that each issues in the end (R63), then those that no operand
or room has kept, then the others, each of the highest grid PRIO first (R86). -/
def State.turn (s : State) (p : Nat × Nat) : Nat :=
  let y := (s.group p.1).lane p.2
  if longWait < s.clock - y.stamp then 0 else (if y.park == .none then 1 else 9) + (7 - min 7 (s.prioOf p.1))

/-- The lanes by which issue sets can be named, in the order of their turns: of equals the one that has waited longest, then the lower group
slot (R86). -/
def State.heads (s : State) : List (Nat × Nat) :=
  let all := s.groups.flatMap fun e =>
    if e.2.trap.isSome then [] else (e.2.ready.filter fun l => (e.2.setLanes l).headD 32 == l).map fun l => (e.1, l)
  sortBy s.turn (sortBy (fun p : Nat × Nat => ((s.group p.1).lane p.2).stamp) all)

/-- The first issue set that can issue. -/
def State.firstIssue (s : State) : List (Nat × Nat) → Option (Out State)
  | [] => none
  | p :: r =>
    match s.issueOf p.1 p.2 [] with
    | some o => some o
    | none => s.firstIssue r

/-- One of the things that can happen now: bring-up, then what completes, then the Drover and the services, then timers that are due, then
the first of `State.heads`; else the next timer; else time passes. -/
def State.choose (s : State) : Out State :=
  let timers := sortBy (fun e : Nat × Action => e.1) s.timers
  if s.level < 4 && !s.err then execServiceLevelRise true s
  else
    match s.firstOf s.completions with
    | some t => .next t
    | none =>
      match s.firstOf s.followUps with
      | some t => .next t
      | none =>
        match s.firstOf (s.drover ++ s.serviceStep) with
        | some t => .next t
        | none =>
          match s.firstOf ((timers.filter fun e => decide (e.1 ≤ s.clock)).map (·.2)) with
          | some t => .next t
          | none =>
            match s.firstIssue s.heads with
            | some o => o
            | none =>
              match s.firstOf (timers.map (·.2)) with
              | some t => .next t
              | none => .next s

/-- A step: what the schedule asks for first, or a choice of the model's. -/
def State.advanceStep (s : State) : Out State :=
  match s.sched with
  | .event i :: r => exec i { s.tick with sched := r }
  | .issue g l resume :: r =>
    match { s.tick with sched := r }.issueOf g l resume with
    | some o => o
    | none => .fault .notEnabled
  | [] => s.tick.choose

end Sys2Proof.Machine
end

