-- ==== Sys2Proof/Machine/Step.lean ====
section
/-!
DEFINITION. The step of the part, and a state whose next step issues a given instruction (log 4).
-/

namespace Sys2Proof.Machine

/-- One step: an event of the part, or the issue of one word or header by one issue set. -/
def step (s : State) : Host.Outcome State Fault Refusal := s.advanceStep

/-! ### A program placed from outside (log 4) -/

/-- Where the words of the placed program lie: an image at virtual address 0x1000, in the far-memory page 0x100_0000_5000. -/
def placedCode : DWord := 0x1040

/-- The page tables of the placed program: five levels in far memory, one page with RD, WT, EX and USER. -/
def placedTables (m : Tab Byte) : Tab Byte :=
  let m := memWrite m 0x10000000000 (leBytes 8 0x20000003001)
  let m := memWrite m 0x10000001000 (leBytes 8 0x20000005001)
  let m := memWrite m 0x10000002000 (leBytes 8 0x20000007001)
  let m := memWrite m 0x10000003000 (leBytes 8 0x20000009001)
  memWrite m 0x10000004008 (leBytes 8 0x2000000B1E1)

/-- A clause header that counts on no flag and waits for none, with a body of `n` words. -/
def placedHeader (n : Nat) : Word := w32 (0x000FF000 + 256 * n)

/-- The role whose groups may issue an instruction: V, else C, else M. -/
def placedRole (i : Instr) : Nat := if roleOk i 0 then 0 else if roleOk i 1 then 1 else 2

/-- The packet of the placed program: one team with SYSPRIV. -/
def placedPacket : Packet :=
  { flags := 16, entry := placedCode, roles := [1, 1, 1], vbud := [64, 64, 64], ubud := 64, spad := 4096, teamSize := 96 }

/-- Registers that the placed program has written: 0 to 31, each zero. -/
def placedRegs : Tab Word := (upto 32).map fun r => (r, 0)

/-- The thread that issues the instruction: lane 0, in the body of the clause at the image's first word. -/
def placedLane (n clock : Nat) : Lane :=
  { pc := placedCode + 4, hdr := placedCode, hword := placedHeader n, inBody := true, rgnHdr := placedCode, stamp := clock
    regs := placedRegs, resident := upto 32 }

/-- The instruction whose bits are `w`, placed as the first word of a clause that a group on core 0 is in, at level 4; the schedule asks
for its issue. -/
def State.withFetchWord (s : State) (nbits w : Nat) : State :=
  let i := decodeTableWord nbits w
  let n := match i with
    | some i => sizeOf' i
    | none => 1
  let role := match i with
    | some i => placedRole i
    | none => 0
  let k := s.nextId
  let words := wordBytes (placedHeader n) ++ wordBytes (BitVec.ofNat 32 w) ++ wordBytes (BitVec.ofNat 32 (w / 2 ^ 32))
  let mem := memWrite (memWrite (placedTables s.mem) 0x10000005040 words) 0x10000005050 (leBytes 4 1)
  let team : Team := { grid := k, tid := 0, cores := [0], slices := [(0, newSlice [] 0)], groups := 1 }
  let group : Group :=
    { uid := k + 2, grid := k, team := k + 1, role := role, lanes := [(0, placedLane n s.clock)], sregs := placedRegs
      sresident := upto 32, running := 1 }
  { s with
    level := 4
    err := false
    dies := (upto 4).map fun d => (d, ({ inService := true, clock := 2500 } : Die))
    ctxs := [(1, { root := 0x10000000000, images := [{ base := 0x1000, words := 3, mapOfs := 0x50 }], nextGrid := 2 })]
    grids := [(k, { ctx := 1, id := 1, queue := 0, pkt := placedPacket, dealt := 1, started := true, progress := some s.clock })]
    teams := [(k + 1, team)]
    groups := [(0, group)]
    mem := mem
    cores := tabMap s.cores fun _ c => { c with tlb := [], icache := [] }
    nextId := k + 3
    sched := [.issue 0 0 []] }

end Sys2Proof.Machine
end

