-- ==== Sys2Proof/Safety.lean ====
section
/-!
DEFINITION. What a safe run is, and the words that statements are made of: the invariant; the conditions under which an instruction has its
own effect; the registers of an issue set before and after it; what an instruction leaves as it was.
-/

namespace Sys2Proof.Machine

/-- The invariant of the state: memory in canonical form, a service level of R12, a region-status table within its capacity (R182). -/
def State.Inv (s : State) : Prop := Memory.wf s.mem = true ∧ s.level ≤ 4 ∧ s.lost.length ≤ Config.lostRegions

/-! ### When an instruction has its own effect -/

/-- The issue set `c` is in focus, and its lanes are distinct lane slots of its group that hold threads. -/
structure State.Acts (s : State) (c : Cx) : Prop where
  focus : s.inFocus = some c
  slots : ∀ l ∈ c.ls, (tabGet c.x.lanes l).isSome = true
  distinct : c.ls.Nodup

/-- Nothing keeps `c` from issuing `i`: no operand is pending in an active lane (R103, R107) but the data of a store or atomic in a DEFER clause
(R108), the group's role may issue it (R41), its index or selector names something, a command of one lane is issued by one (R230), an irreversible
operation is not one of a shadow run (R224), no flag would overflow (R124), no LD.ACQ is out before a memory instruction (R200), no ICINV before a
release (R140), the store chain is empty where the instruction waits for that (R108), and nothing of the thread's is outstanding that its order puts
before the instruction: an acquire in the chain, a captured load (R188, R190, R191). -/
structure State.Ready (s : State) (i : Instr) (c : Cx) : Prop extends State.Acts s c where
  operands : ∀ l ∈ c.ls, ∀ o ∈ (regsOf i).1 ++ (regsOf i).2, c.x.isPending l o = false ∨
    (hDefer (c.x.lane l).hword = true ∧ o ∈ dataOf i ∧ o ∉ (operandsOf i).1 ++ (operandsOf i).2)
  role : roleOk i c.x.role = true
  named : illegalAt i c.ls.length = false
  primary : irreversible i = true → (s.team c.x.team).shadow = none
  flags : c.flagFull i = false
  acquired : clsOf i = .memory → ∀ l ∈ c.ls, s.acqOut c.g l = false
  fresh : releases i = true → ∀ l ∈ c.ls, s.icinvOut c.g l = false
  drained : drains i = true → ∀ l ∈ c.ls, s.chain c.g l = []
  ordered : ∀ l ∈ c.ls, s.ahead i c.g l = false ∧ s.loadAhead i c.g l = false

/-! ### Registers of an issue set -/

/-- A vector register of a lane. -/
def State.vreg (s : State) (c : Cx) (l : Nat) (f : VField) : Word := s.readOpd (s.group c.g) l (.v f.toNat)
/-- A pair of vector registers. -/
def State.vpair (s : State) (c : Cx) (l : Nat) (f : VField) : DWord := BitVec.ofNat 64 (s.readPair (s.group c.g) l f)
/-- A uniform register. -/
def State.ureg (s : State) (c : Cx) (f : SField) : Word := s.readReg (s.group c.g) 0 (.s f.toNat)
/-- A pair of uniform registers. -/
def State.upair (s : State) (c : Cx) (f : SField) : DWord := BitVec.ofNat 64 (s.readSPair (s.group c.g) f)
/-- A predicate of a lane. -/
def State.preg (s : State) (c : Cx) (l : Nat) (f : PField) : Bool := ((s.group c.g).lane l).preds.getLsbD f.toNat

/-- B, a vector register or a literal (R128). -/
def State.vb (s : State) (c : Cx) (l : Nat) : BOp → Word
  | .reg r => s.vreg c l r
  | .lit w => w
/-- B, a vector pair or a literal sign-extended to 64 bits (R128). -/
def State.vb64 (s : State) (c : Cx) (l : Nat) : BOp → DWord
  | .reg r => s.vpair c l r
  | .lit w => w.signExtend 64
/-- B, a uniform register or a literal. -/
def State.ub (s : State) (c : Cx) : BOp → Word
  | .reg r => s.ureg c r
  | .lit w => w
/-- B, a uniform pair or a literal sign-extended. -/
def State.ub64 (s : State) (c : Cx) : BOp → DWord
  | .reg r => s.upair c r
  | .lit w => w.signExtend 64
/-- B, a predicate, or bit l of a literal (R128). -/
def State.pb (s : State) (c : Cx) (l : Nat) : POp → Bool
  | .reg p => s.preg c l p
  | .lit w => w.getLsbD l

/-- What `A cc B` says of two words (R373). -/
def compares (cc : ICond) (a b : Word) : Prop :=
  match cc with
  | .eq => a = b
  | .ne => a ≠ b
  | .lt => a.toInt < b.toInt
  | .le => a.toInt ≤ b.toInt
  | .gt => a.toInt > b.toInt
  | .ge => a.toInt ≥ b.toInt
  | .ltu => a.toNat < b.toNat
  | .leu => a.toNat ≤ b.toNat
  | .gtu => a.toNat > b.toNat
  | .geu => a.toNat ≥ b.toNat

/-- The root of a tree over 2^n leaves: each node takes the lower leaves as its left operand (R155). -/
def treeOver (f : Word → Word → Word) (leaf : Nat → Word) : Nat → Nat → Word
  | 0, k => leaf k
  | n + 1, k => f (treeOver f leaf n (2 * k)) (treeOver f leaf n (2 * k + 1))

/-- A 16-bit half of a word. -/
def half (w : Word) (e : Nat) : Nat := w.toNat / 2 ^ (16 * e) % 2 ^ 16

/-- What a read by lanes `ls` of a group may give, memory or the scratchpad holding `now` there: that; the value before a synchronising write of
the location that the lanes can miss (R192, R193); for 16 bytes, in each half by itself, what stood before a store made since the first lane's
last instruction (R185). That a read which waits for nothing has its bytes at issue is the model's reading (log 8), and so are the moments of a
half (log 11) and the writes that can be missed (log 12). -/
def State.mayRead (s : State) (i : Instr) (g : Nat) (ls : List Nat) (loc : Loc) (now bs : List Byte) : Prop :=
  (∃ e ∈ s.syncsOf loc (readBytes i), s.misses g ls i e = true ∧ bs = leBytes now.length e.prev) ∨
    (now.length ≠ 16 ∧ bs = now) ∨
    (now.length = 16 ∧ bs.length = 16 ∧ ∀ k ∈ [0, 8], (bs.drop k).take 8 = (now.drop k).take 8 ∨
      ∃ time ∈ s.moments (loc.add k) 8 (s.readFloor g (ls.headD 0)), (bs.drop k).take 8 = s.before (loc.add k) 8 time)

/-! ### What an instruction changes -/

/-- The registers of a lane that an instruction names as destinations. -/
def dstRegs (i : Instr) (c : Cx) (l : Nat) : List PReg := (regsOf i).2.filterMap (·.reg (c.x.lane l))

/-- `i` has gone on and has written nothing but its destination registers: every other part of the state is as it was, the other groups,
the other lanes and the rest of the group among them; an active lane keeps all but its place and its destinations. -/
structure WroteOnly (i : Instr) (s : State) (c : Cx) (t : State) : Prop where
  rest : t = { s with groups := t.groups }
  others : ∀ g, g ≠ c.g → tabGet t.groups g = tabGet s.groups g
  group : tabGet t.groups c.g = some { c.x with lanes := (t.group c.g).lanes, sregs := (t.group c.g).sregs }
  idle : ∀ l, l ∉ c.ls → tabGet (t.group c.g).lanes l = tabGet c.x.lanes l
  active : ∀ l ∈ c.ls, (t.group c.g).lane l =
    { (c.x.lane l).advance (sizeOf' i) with
      stamp := s.clock, pass := false, regs := ((t.group c.g).lane l).regs, preds := ((t.group c.g).lane l).preds }
  vregs : ∀ l ∈ c.ls, ∀ n, PReg.v n ∉ dstRegs i c l → tabGet ((t.group c.g).lane l).regs n = tabGet (c.x.lane l).regs n
  preds : ∀ l ∈ c.ls, ∀ n, PReg.p n ∉ dstRegs i c l → ((t.group c.g).lane l).preds.getLsbD n = (c.x.lane l).preds.getLsbD n
  sregs : ∀ n, (∀ l ∈ c.ls, PReg.s n ∉ dstRegs i c l) → tabGet (t.group c.g).sregs n = tabGet c.x.sregs n

/-- Wherever nothing keeps it from issuing, `i` completes, writes only its destination registers, and leaves each active lane as `post`
says of the state before, the issue set, the state after and the lane. -/
def Gives (i : Instr) (post : State → Cx → State → Nat → Prop) : Prop :=
  ∀ s c, i.wf = true → s.Ready i c → ∃ t, exec i s = .next t ∧ WroteOnly i s c t ∧ ∀ l ∈ c.ls, post s c t l

/-- The lanes of `c` are as `f` says, and nothing else has changed but, under DET, which set of the group runs (R50). -/
structure LanesOnly (s : State) (c : Cx) (t : State) (f : Nat → Lane → Lane) : Prop where
  rest : t = { s with groups := t.groups }
  others : ∀ g, g ≠ c.g → tabGet t.groups g = tabGet s.groups g
  group : tabGet t.groups c.g = some { c.x with lanes := (t.group c.g).lanes, running := (t.group c.g).running }
  ordered : c.gr.pkt.det = false → (t.group c.g).running = c.x.running
  idle : ∀ l, l ∉ c.ls → tabGet (t.group c.g).lanes l = tabGet c.x.lanes l
  active : ∀ l ∈ c.ls, (t.group c.g).lane l = f l (c.x.lane l)

/-- Of the cores nothing but counts has changed (Table 22.9). -/
def OnlyCounts (s t : State) : Prop := ∀ k, ∃ perf, t.core k = { s.core k with perf := perf }

/-- The lanes of `c` stand past `i`, and their group has not trapped. -/
def Passed (i : Instr) (c : Cx) (t : State) : Prop :=
  (t.group c.g).trap = c.x.trap ∧
    ∀ l ∈ c.ls, ((t.group c.g).lane l).pc = ((c.x.lane l).advance (sizeOf' i)).pc ∧
      ((t.group c.g).lane l).inBody = ((c.x.lane l).advance (sizeOf' i)).inBody

/-- An access of lane `l` has been issued that will bring `vals` to `dsts`: its destinations are pending under its tags (R102), and it
counts on the flag of its clause in `lanes` (R124). -/
def Launched (i : Instr) (s : State) (c : Cx) (t : State) (l : Nat) (lanes : List Nat) (dsts : List PReg) (vals : List Word) : Prop :=
  ∃ id o, s.nextId ≤ id ∧ tabGet t.ops id = some o ∧ o.g = c.g ∧ o.uid = c.x.uid ∧ o.lane = l ∧ o.lanes = lanes ∧
    o.flag = (c.x.lane l).flagOf i ∧ o.dsts.map (·.1) = dsts ∧ o.vals = vals ∧ o.remote = none ∧ o.lost = false ∧ o.awaits = none ∧
    ∀ d ∈ o.dsts, (t.group c.g).pending l d.1 = some d.2

/-- What an instruction of memory or engine class changes of its own issue set and of what is outstanding: its lanes' places, flags and
pending marks; accesses issued before stand as they were; of a core only the TLB and the counts change. -/
structure IssueFrame (i : Instr) (s : State) (c : Cx) (t : State) : Prop where
  others : ∀ g, g ≠ c.g → tabGet t.groups g = tabGet s.groups g
  group : tabGet t.groups c.g = some { c.x with lanes := (t.group c.g).lanes, spend := (t.group c.g).spend }
  idle : ∀ l, l ∉ c.ls → tabGet (t.group c.g).lanes l = tabGet c.x.lanes l
  active : ∀ l ∈ c.ls, (t.group c.g).lane l =
    { (c.x.lane l).advance (sizeOf' i) with
      stamp := s.clock, pass := false, irrev := irreversible i || (c.x.lane l).irrev
      flags := ((c.x.lane l).incFlag ((c.x.lane l).flagOf i)).flags
      pend := ((t.group c.g).lane l).pend, ppend := ((t.group c.g).lane l).ppend }
  earlier : ∀ id, id < s.nextId → tabGet t.ops id = tabGet s.ops id
  cores : ∀ k, ∃ tlb perf, t.core k = { s.core k with tlb := tlb, perf := perf }

/-- `i` has issued accesses and gone on: beyond its issue set it has changed nothing but the accesses outstanding, the core's TLB and
counts, who holds the lines that it reads, and what is known of happens-before. No register is written yet, and memory is as it was. -/
structure IssuedOnly (i : Instr) (s : State) (c : Cx) (t : State) : Prop extends IssueFrame i s c t where
  rest : t = { s with
    groups := t.groups, ops := t.ops, nextId := t.nextId, cores := t.cores, leases := t.leases, hostLines := t.hostLines
    order := t.order }

/-- `i` has performed at memory or at a scratchpad and gone on: beyond its issue set it has changed nothing but bytes there, who holds
their lines, the core's TLB and counts, the flag operations outstanding, and what is known of happens-before. -/
structure PerformedOnly (i : Instr) (s : State) (c : Cx) (t : State) : Prop extends IssueFrame i s c t where
  rest : t = { s with
    groups := t.groups, ops := t.ops, nextId := t.nextId, cores := t.cores, leases := t.leases, hostLines := t.hostLines
    mem := t.mem, stored := t.stored, teams := t.teams, order := t.order }

/-- Byte `k` of the data registers from a field on. -/
def State.dataByte (s : State) (c : Cx) (l : Nat) (d : VField) (k : Nat) : Byte :=
  BitVec.ofNat 8 ((s.readOpd (s.group c.g) l (.v (d.toNat + k / 4))).toNat / 2 ^ (8 * (k % 4)))

/-- A byte of a slice. -/
def State.spadByte (s : State) (team i ofs : Nat) : Byte :=
  match s.slice? team i with
  | some x => x.byte ofs
  | none => unlisted

/-- A byte of a slice that an AST has written with no MWAIT after it: it may become undefined yet (R195). -/
def State.unwaited (s : State) (team i ofs : Nat) : Prop :=
  ∃ core, ∃ u ∈ (s.core core).munwaited, ∃ a n time, u.put = some (a, n, time) ∧ u.own.team = team ∧ u.slice = i ∧ a ≤ ofs ∧ ofs < a + n

/-- What a register of a group holds, as a lane reads it; none where it is not live. -/
def Group.holds (x : Group) (l : Nat) : PReg → Option Word
  | .v n => tabGet (x.lane l).regs n
  | .s n => tabGet x.sregs n
  | .p n => some (if (x.lane l).preds.getLsbD n then 1 else 0)

/-- A word as a register keeps it: a predicate keeps whether it is zero. -/
def PReg.kept : PReg → Word → Word
  | .p _, w => if w = 0 then 0 else 1
  | _, w => w

/-- Each tag of `dsts` is its register's current one in lane `l`, and no register stands twice. -/
def Group.Owes (x : Group) (l : Nat) (dsts : List (PReg × Nat)) : Prop :=
  (dsts.map (·.1)).Nodup ∧ ∀ d ∈ dsts, x.pending l d.1 = some d.2 ∧ ∀ n, d.1 = .p n → n < 16

/-- The values have landed in their registers, which are pending no more; every other register of the group `g` is as it was, and so is
every other group (R102, R106). -/
structure Delivered (s t : State) (g l : Nat) (dsts : List (PReg × Nat)) (vals : List Word) : Prop where
  landed : ∀ p ∈ dsts.zip vals, (t.group g).holds l p.1.1 = some (p.1.1.kept p.2) ∧ (t.group g).pending l p.1.1 = none
  rest : ∀ k r, ((k ≠ l ∧ ∀ n, r ≠ .s n) ∨ r ∉ dsts.map (·.1)) →
    (t.group g).holds k r = (s.group g).holds k r ∧ (t.group g).pending k r = (s.group g).pending k r
  others : ∀ h, h ≠ g → tabGet t.groups h = tabGet s.groups h
  entries : ∀ id r, tabGet s.resid id = some r → (tabGet t.resid id).isSome = true →
    tabGet t.resid id = some { r with srcs := (dsts.zip vals).foldl (fun x p => x.map (Src.fill p.1.2 p.2)) r.srcs }

/-- `i` has handed a command to an engine or a unit and gone on: each active lane stands past it, its flag counts once more, and beyond
the issue set only the engine's queue, identities given out, the TLB and counts of cores, who holds the lines of its record, and what is
known of happens-before have changed. -/
structure CommandedOnly (i : Instr) (s : State) (c : Cx) (t : State) : Prop where
  rest : t = { s with
    groups := t.groups, cores := t.cores, colls := t.colls, nextId := t.nextId, leases := t.leases, hostLines := t.hostLines
    order := t.order }
  others : ∀ g, g ≠ c.g → tabGet t.groups g = tabGet s.groups g
  group : tabGet t.groups c.g = some { c.x with lanes := (t.group c.g).lanes }
  idle : ∀ l, l ∉ c.ls → tabGet (t.group c.g).lanes l = tabGet c.x.lanes l
  active : ∀ l ∈ c.ls, (t.group c.g).lane l =
    { (c.x.lane l).advance (sizeOf' i) with
      stamp := s.clock, pass := false, irrev := irreversible i || (c.x.lane l).irrev
      flags := ((c.x.lane l).incFlag (c.y0.flagOf i)).flags }

/-- A thread past `i`, as every instruction that has gone on leaves it. -/
def Lane.past (y : Lane) (i : Instr) (clock : Nat) : Lane :=
  { y.advance (sizeOf' i) with stamp := clock, pass := false, irrev := irreversible i || y.irrev }

/-- The group of `c` is suspended with the faults `fs`, and nothing else has changed: the instruction has no effect in any lane (R34, R202). -/
structure Suspended (s : State) (c : Cx) (t : State) (fs : List LaneFault) : Prop where
  rest : t = { s with groups := t.groups }
  others : ∀ g, g ≠ c.g → tabGet t.groups g = tabGet s.groups g
  group : tabGet t.groups c.g = some { c.x with trap := some (s.trapped c.x fs c.y0.pc c.y0.hdr) }

/-- A service has been answered over a link: the response stands in the mailbox, an interrupt follows it, the other link sees nothing (R300). -/
structure Answered (s t : State) (link : Bool) (status : Nat) (results : List Byte) : Prop where
  served : t.svc = s.svc.tail
  response : t.mbox link =
    { s.mbox link with
      status := BitVec.ofNat 32 status, results := results ++ List.replicate (56 - results.length) 0,
      rspseq := (s.mbox link).cmdseq, tampered := false }
  other : t.mbox (!link) = s.mbox (!link)
  raised : t.msix0 = s.msix0 + (if link then 0 else 1) ∧ t.msix1 = s.msix1 + (if link then 1 else 0)

/-- A state but for its mailboxes, the commands that wait, and the interrupts raised. -/
def State.noMail (s : State) : State := { s with mbox0 := {}, mbox1 := {}, svc := [], msix0 := 0, msix1 := 0 }

end Sys2Proof.Machine
end

