-- ==== Sys2Proof/Certificates/Slice0/Obligations.lean ====
section
/-!
DEFINITION. The statements for the provers: one `def Obligations.<Name> : Prop` for each entry of OBLIGATIONS.json.
-/

open Sys2Proof Sys2Proof.Machine

/-! ### Instructions on vector registers -/

/-- IADD, ISUB, IADDI and IADDC, in every form (R369, R370, R371, Table 20.13). -/
def Obligations.IntegerSums : Prop :=
  ∀ (d a : VField) (b : BOp) (p : PField) (imm : BitVec 11),
    Gives (.iadd .w32 d a b) (fun s c t l => t.vreg c l d = s.vreg c l a + s.vb c l b) ∧
    Gives (.iadd .w64 d a b) (fun s c t l => t.vpair c l d = s.vpair c l a + s.vb64 c l b) ∧
    Gives (.iadd .ssat d a b) (fun s c t l =>
      (t.vreg c l d).toInt = max (-2147483648) (min 2147483647 ((s.vreg c l a).toInt + (s.vb c l b).toInt))) ∧
    Gives (.iadd .usat d a b) (fun s c t l =>
      (t.vreg c l d).toNat = min 4294967295 ((s.vreg c l a).toNat + (s.vb c l b).toNat)) ∧
    Gives (.isub .w32 d a b) (fun s c t l => t.vreg c l d = s.vreg c l a - s.vb c l b) ∧
    Gives (.isub .w64 d a b) (fun s c t l => t.vpair c l d = s.vpair c l a - s.vb64 c l b) ∧
    Gives (.isub .ssat d a b) (fun s c t l =>
      (t.vreg c l d).toInt = max (-2147483648) (min 2147483647 ((s.vreg c l a).toInt - (s.vb c l b).toInt))) ∧
    Gives (.isub .usat d a b) (fun s c t l => (t.vreg c l d).toNat = (s.vreg c l a).toNat - (s.vb c l b).toNat) ∧
    Gives (.iaddi d a imm) (fun s c t l => t.vreg c l d = s.vreg c l a + imm.signExtend 32) ∧
    Gives (.iaddc p d a b) (fun s c t l =>
      let sum := (s.vreg c l a).toNat + (s.vb c l b).toNat + (s.preg c l p).toNat
      (t.vreg c l d).toNat = sum % 2 ^ 32 ∧ t.preg c l p = decide (2 ^ 32 ≤ sum))

/-- IMUL, MULI, IMAD, IMIN and IMAX, in every form (R374, R375, R376, R392). -/
def Obligations.IntegerProductsAndExtremes : Prop :=
  ∀ (d a : VField) (b : BOp) (imm : BitVec 11),
    Gives (.imul .lo d a b) (fun s c t l => t.vreg c l d = s.vreg c l a * s.vb c l b) ∧
    Gives (.imul .hi d a b) (fun s c t l =>
      t.vreg c l d = (((s.vreg c l a).signExtend 64 * (s.vb c l b).signExtend 64) >>> 32).setWidth 32) ∧
    Gives (.imul .hiu d a b) (fun s c t l =>
      t.vreg c l d = (((s.vreg c l a).setWidth 64 * (s.vb c l b).setWidth 64) >>> 32).setWidth 32) ∧
    Gives (.imul .w64 d a b) (fun s c t l => t.vpair c l d = s.vpair c l a * s.vb64 c l b) ∧
    Gives (.muli d a imm) (fun s c t l => t.vreg c l d = s.vreg c l a * imm.signExtend 32) ∧
    Gives (.imad false d a b) (fun s c t l => t.vreg c l d = s.vreg c l d + s.vreg c l a * s.vb c l b) ∧
    Gives (.imad true d a b) (fun s c t l => t.vpair c l d = s.vpair c l d + s.vpair c l a * s.vb64 c l b) ∧
    Gives (.imin false d a b) (fun s c t l => (t.vreg c l d).toInt = min (s.vreg c l a).toInt (s.vb c l b).toInt) ∧
    Gives (.imin true d a b) (fun s c t l => (t.vreg c l d).toNat = min (s.vreg c l a).toNat (s.vb c l b).toNat) ∧
    Gives (.imax false d a b) (fun s c t l => (t.vreg c l d).toInt = max (s.vreg c l a).toInt (s.vb c l b).toInt) ∧
    Gives (.imax true d a b) (fun s c t l => (t.vreg c l d).toNat = max (s.vreg c l a).toNat (s.vb c l b).toNat)

/-- The AND family, its immediate forms and NOT, bit by bit (R313, R314, R324, R396, R444). -/
def Obligations.BitwiseLogic : Prop :=
  ∀ (d a : VField) (b : BOp) (imm : BitVec 11),
    let bit (w : Word) (k : Nat) : Bool := w.getLsbD k
    Gives (.and d a b) (fun s c t l => ∀ k < 32, bit (t.vreg c l d) k = (bit (s.vreg c l a) k && bit (s.vb c l b) k)) ∧
    Gives (.andn d a b) (fun s c t l => ∀ k < 32, bit (t.vreg c l d) k = (bit (s.vreg c l a) k && !bit (s.vb c l b) k)) ∧
    Gives (.or d a b) (fun s c t l => ∀ k < 32, bit (t.vreg c l d) k = (bit (s.vreg c l a) k || bit (s.vb c l b) k)) ∧
    Gives (.orn d a b) (fun s c t l => ∀ k < 32, bit (t.vreg c l d) k = (bit (s.vreg c l a) k || !bit (s.vb c l b) k)) ∧
    Gives (.xor d a b) (fun s c t l => ∀ k < 32, bit (t.vreg c l d) k = (bit (s.vreg c l a) k != bit (s.vb c l b) k)) ∧
    Gives (.not d a) (fun s c t l => ∀ k < 32, bit (t.vreg c l d) k = !bit (s.vreg c l a) k) ∧
    Gives (.andi d a imm) (fun s c t l => t.vreg c l d = s.vreg c l a &&& imm.signExtend 32) ∧
    Gives (.ori d a imm) (fun s c t l => t.vreg c l d = s.vreg c l a ||| imm.signExtend 32) ∧
    Gives (.xori d a imm) (fun s c t l => t.vreg c l d = s.vreg c l a ^^^ imm.signExtend 32)

/-- The SHL family over 32 and 64 bits and the shifts by an immediate (R414, R420, Table 22.6). -/
def Obligations.ShiftsAndRotates : Prop :=
  ∀ (d a : VField) (b : BOp) (imm : BitVec 11),
    Gives (.shl false d a b) (fun s c t l => t.vreg c l d = s.vreg c l a <<< ((s.vb c l b).toNat % 32)) ∧
    Gives (.shl true d a b) (fun s c t l => t.vpair c l d = s.vpair c l a <<< ((s.vb c l b).toNat % 64)) ∧
    Gives (.shr false d a b) (fun s c t l => t.vreg c l d = s.vreg c l a >>> ((s.vb c l b).toNat % 32)) ∧
    Gives (.shr true d a b) (fun s c t l => t.vpair c l d = s.vpair c l a >>> ((s.vb c l b).toNat % 64)) ∧
    Gives (.sar false d a b) (fun s c t l => t.vreg c l d = (s.vreg c l a).sshiftRight ((s.vb c l b).toNat % 32)) ∧
    Gives (.sar true d a b) (fun s c t l => t.vpair c l d = (s.vpair c l a).sshiftRight ((s.vb c l b).toNat % 64)) ∧
    Gives (.rotl false d a b) (fun s c t l => t.vreg c l d = (s.vreg c l a).rotateLeft ((s.vb c l b).toNat % 32)) ∧
    Gives (.rotl true d a b) (fun s c t l => t.vpair c l d = (s.vpair c l a).rotateLeft ((s.vb c l b).toNat % 64)) ∧
    Gives (.shli d a imm) (fun s c t l => t.vreg c l d = s.vreg c l a <<< imm.toNat) ∧
    Gives (.shri d a imm) (fun s c t l => t.vreg c l d = s.vreg c l a >>> imm.toNat) ∧
    Gives (.sari d a imm) (fun s c t l => t.vreg c l d = (s.vreg c l a).sshiftRight imm.toNat)

/-- The BREV family, BFX, BFI, BITIL and BITDL, bit by bit (R318, R319, R321, R324, Tables 19.7 and 19.8). -/
def Obligations.BitCountsAndFields : Prop :=
  ∀ (d a : VField) (b : BOp),
    let bit (w : Word) (k : Nat) : Bool := w.getLsbD k
    let start (w : Word) : Nat := w.toNat % 32
    let len (w : Word) : Nat := min (w.toNat / 32 % 64) (32 - start w)
    let deals (n k c : Nat) (w r : Word) : Prop := (∀ j < k, bit r j = bit w (n * j + c)) ∧ ∀ j, k ≤ j → bit r j = false
    Gives (.clz d a) (fun s c t l =>
      let n := (t.vreg c l d).toNat
      n ≤ 32 ∧ (∀ k < n, bit (s.vreg c l a) (31 - k) = false) ∧ (n < 32 → bit (s.vreg c l a) (31 - n) = true)) ∧
    Gives (.popc d a) (fun s c t l =>
      (t.vreg c l d).toNat = (List.range 32).countP fun k => bit (s.vreg c l a) k) ∧
    Gives (.brev d a) (fun s c t l => ∀ k < 32, bit (t.vreg c l d) k = bit (s.vreg c l a) (31 - k)) ∧
    Gives (.iabs d a) (fun s c t l =>
      t.vreg c l d = if (s.vreg c l a).toInt < 0 then 0 - s.vreg c l a else s.vreg c l a) ∧
    Gives (.ineg d a) (fun s c t l => t.vreg c l d = 0 - s.vreg c l a) ∧
    Gives (.bfx false d a b) (fun s c t l => ∀ k < 32,
      bit (t.vreg c l d) k = (decide (k < len (s.vb c l b)) && bit (s.vreg c l a) (start (s.vb c l b) + k))) ∧
    Gives (.bfx true d a b) (fun s c t l => ∀ k < 32,
      bit (t.vreg c l d) k = (decide (0 < len (s.vb c l b)) &&
        bit (s.vreg c l a) (start (s.vb c l b) + min k (len (s.vb c l b) - 1)))) ∧
    Gives (.bfi d a b) (fun s c t l => ∀ k < 32,
      bit (t.vreg c l d) k =
        if start (s.vb c l b) ≤ k ∧ k < start (s.vb c l b) + len (s.vb c l b) then bit (s.vreg c l a) (k - start (s.vb c l b))
        else bit (s.vreg c l d) k) ∧
    Gives (.bitil false d a) (fun s c t l => ∀ b < 16, ∀ k < 2, bit (t.vreg c l d) (2 * b + k) = bit (s.vreg c l a) (16 * k + b)) ∧
    Gives (.bitil true d a) (fun s c t l =>
      (∀ b < 10, ∀ k < 3, bit (t.vreg c l d) (3 * b + k) = bit (s.vreg c l a) (10 * k + b)) ∧
        bit (t.vreg c l d) 30 = false ∧ bit (t.vreg c l d) 31 = false) ∧
    Gives (.bitdl .c3of0 d a) (fun s c t l => deals 3 10 0 (s.vreg c l a) (t.vreg c l d)) ∧
    Gives (.bitdl .c3of1 d a) (fun s c t l => deals 3 10 1 (s.vreg c l a) (t.vreg c l d)) ∧
    Gives (.bitdl .c3of2 d a) (fun s c t l => deals 3 10 2 (s.vreg c l a) (t.vreg c l d)) ∧
    Gives (.bitdl .c2of0 d a) (fun s c t l => deals 2 16 0 (s.vreg c l a) (t.vreg c l d)) ∧
    Gives (.bitdl .c2of1 d a) (fun s c t l => deals 2 16 1 (s.vreg c l a) (t.vreg c l d))

/-- ICMP, SCMP and ISEL (R373, R377, R417). -/
def Obligations.ComparisonsAndSelect : Prop :=
  ∀ (cc : ICond) (d a : BitVec 7) (b : BOp) (p : PField),
    Gives (.icmp cc p a b) (fun s c t l => t.preg c l p = true ↔ compares cc (s.vreg c l a) (s.vb c l b)) ∧
    Gives (.scmp cc p a b) (fun s c t l => t.preg c l p = true ↔ compares cc (s.ureg c a) (s.ub c b)) ∧
    Gives (.isel p d a b) (fun s c t l => t.vreg c l d = if s.preg c l p then s.vreg c l a else s.vb c l b)

/-- The per-lane moves, the immediates and the predicate family (R388, R390, R391, R398). -/
def Obligations.MovesAndPredicates : Prop :=
  ∀ (d a : BitVec 7) (p q : PField) (b : POp) (imm : BitVec 18),
    let bit (x : Bool) : Word := if x then 1 else 0
    Gives (.mov d a) (fun s c t l => t.vreg c l d = s.vreg c l a) ∧
    Gives (.movVS d a) (fun s c t l => t.vreg c l d = s.ureg c a) ∧
    Gives (.movPP p q) (fun s c t l => t.preg c l p = s.preg c l q) ∧
    Gives (.movVP d q) (fun s c t l => t.vreg c l d = bit (s.preg c l q)) ∧
    Gives (.movPV p a) (fun s c t l => t.preg c l p = true ↔ s.vreg c l a ≠ 0) ∧
    Gives (.movi d imm) (fun s c t l => t.vreg c l d = imm.signExtend 32) ∧
    Gives (.movh d imm) (fun s c t l =>
      (t.vreg c l d).toNat = imm.toNat * 2 ^ 14 + (s.vreg c l d).toNat % 2 ^ 14) ∧
    Gives (.pand p q b) (fun s c t l => t.preg c l p = (s.preg c l q && s.pb c l b)) ∧
    Gives (.por p q b) (fun s c t l => t.preg c l p = (s.preg c l q || s.pb c l b)) ∧
    Gives (.pxor p q b) (fun s c t l => t.preg c l p = (s.preg c l q != s.pb c l b)) ∧
    Gives (.pnot p q) (fun s c t l => t.preg c l p = !s.preg c l q)

/-! ### Instructions on uniform registers -/

/-- The SADD family, SADDI, SMOVI and MOV between uniform registers: once for the issue set (R388, R412, R413, R421, Table 22.3). -/
def Obligations.UniformArithmetic : Prop :=
  ∀ (d a : SField) (b : BOp) (imm : BitVec 11) (big : BitVec 18),
    Gives (.movSS d a) (fun s c t _ => t.ureg c d = s.ureg c a) ∧
    Gives (.smovi d big) (fun _ c t _ => t.ureg c d = big.signExtend 32) ∧
    Gives (.saddi d a imm) (fun s c t _ => t.ureg c d = s.ureg c a + imm.signExtend 32) ∧
    Gives (.sadd d a b) (fun s c t _ => t.ureg c d = s.ureg c a + s.ub c b) ∧
    Gives (.ssub d a b) (fun s c t _ => t.ureg c d = s.ureg c a - s.ub c b) ∧
    Gives (.smul d a b) (fun s c t _ => t.ureg c d = s.ureg c a * s.ub c b) ∧
    Gives (.sand d a b) (fun s c t _ => t.ureg c d = s.ureg c a &&& s.ub c b) ∧
    Gives (.sor d a b) (fun s c t _ => t.ureg c d = s.ureg c a ||| s.ub c b) ∧
    Gives (.sxor d a b) (fun s c t _ => t.ureg c d = s.ureg c a ^^^ s.ub c b) ∧
    Gives (.sshl d a b) (fun s c t _ => t.ureg c d = s.ureg c a <<< ((s.ub c b).toNat % 32)) ∧
    Gives (.sshr d a b) (fun s c t _ => t.ureg c d = s.ureg c a >>> ((s.ub c b).toNat % 32)) ∧
    Gives (.smin d a b) (fun s c t _ => (t.ureg c d).toInt = min (s.ureg c a).toInt (s.ub c b).toInt) ∧
    Gives (.smax d a b) (fun s c t _ => (t.ureg c d).toInt = max (s.ureg c a).toInt (s.ub c b).toInt) ∧
    Gives (.sadd64 d a b) (fun s c t _ => t.upair c d = s.upair c a + s.ub64 c b)

/-! ### Floating point -/

/-- FADD, FSUB, FMUL and FFMA: the exact result rounded once, and .SAT (R147, R358). -/
def Obligations.FloatSumsAndProducts : Prop :=
  ∀ (sat : Bool) (m : RMode) (d a : VField) (b : BOp),
    let zero : Val := .fin false 0 0
    let clamp (y : Word) : Word := if (asFp y).isNan ∨ (zero.lt (asFp y)) = false then 0 else if (asFp 0x3F800000).lt (asFp y) then 0x3F800000 else y
    let done (x : Val) : Word := if sat then clamp (w32 (fp32.round m x)) else w32 (fp32.round m x)
    Gives (.fadd sat m d a b) (fun s c t l => t.vreg c l d = done ((asFp (s.vreg c l a)).add m (asFp (s.vb c l b)))) ∧
    Gives (.fsub sat m d a b) (fun s c t l => t.vreg c l d = done ((asFp (s.vreg c l a)).add m (asFp (s.vb c l b)).neg)) ∧
    Gives (.fmul sat m d a b) (fun s c t l => t.vreg c l d = done ((asFp (s.vreg c l a)).mul (asFp (s.vb c l b)))) ∧
    Gives (.ffma sat m d a b) (fun s c t l =>
      t.vreg c l d = done ((asFp (s.vreg c l d)).add m ((asFp (s.vreg c l a)).mul (asFp (s.vb c l b)))))

/-- FMIN, FMAX and their .NUM forms, FCMP and the sign family (R357, R359, R365). -/
def Obligations.FloatComparisons : Prop :=
  ∀ (d a : VField) (b : BOp) (p : PField),
    let nan (w : Word) : Prop := asFp w = .nan
    let below (x y : Word) : Prop := (asFp x).lt (asFp y) = true
    let tied (x y : Word) : Prop := ¬ below x y ∧ ¬ below y x
    Gives (.fmin false d a b) (fun s c t l =>
      let x := s.vreg c l a; let y := s.vb c l b; let z := t.vreg c l d
      (nan x ∨ nan y → z = 0x7FC00000) ∧
        (¬ nan x → ¬ nan y → (below x y → z = x) ∧ (below y x → z = y) ∧ (tied x y → z = if x.msb then x else y))) ∧
    Gives (.fmax false d a b) (fun s c t l =>
      let x := s.vreg c l a; let y := s.vb c l b; let z := t.vreg c l d
      (nan x ∨ nan y → z = 0x7FC00000) ∧
        (¬ nan x → ¬ nan y → (below x y → z = y) ∧ (below y x → z = x) ∧ (tied x y → z = if x.msb then y else x))) ∧
    Gives (.fmin true d a b) (fun s c t l =>
      let x := s.vreg c l a; let y := s.vb c l b; let z := t.vreg c l d
      (nan x → nan y → z = 0x7FC00000) ∧ (nan x → ¬ nan y → z = y) ∧ (¬ nan x → nan y → z = x) ∧
        (¬ nan x → ¬ nan y → (below x y → z = x) ∧ (below y x → z = y) ∧ (tied x y → z = if x.msb then x else y))) ∧
    Gives (.fmax true d a b) (fun s c t l =>
      let x := s.vreg c l a; let y := s.vb c l b; let z := t.vreg c l d
      (nan x → nan y → z = 0x7FC00000) ∧ (nan x → ¬ nan y → z = y) ∧ (¬ nan x → nan y → z = x) ∧
        (¬ nan x → ¬ nan y → (below x y → z = y) ∧ (below y x → z = x) ∧ (tied x y → z = if x.msb then y else x))) ∧
    (∀ cc, Gives (.fcmp cc p a b) (fun s c t l =>
      let x := s.vreg c l a; let y := s.vb c l b
      t.preg c l p = true ↔
        match cc with
        | .eq => ¬ nan x ∧ ¬ nan y ∧ tied x y
        | .ne => nan x ∨ nan y ∨ below x y ∨ below y x
        | .lt => below x y
        | .le => ¬ nan x ∧ ¬ nan y ∧ ¬ below y x
        | .gt => below y x
        | .ge => ¬ nan x ∧ ¬ nan y ∧ ¬ below x y
        | .un => nan x ∨ nan y
        | .ord => ¬ nan x ∧ ¬ nan y)) ∧
    Gives (.fabs d a) (fun s c t l => ∀ k < 32, (t.vreg c l d).getLsbD k = ((s.vreg c l a).getLsbD k && k != 31)) ∧
    Gives (.fneg d a) (fun s c t l => ∀ k < 32, (t.vreg c l d).getLsbD k = ((s.vreg c l a).getLsbD k != (k == 31))) ∧
    Gives (.fcpys d a b) (fun s c t l => ∀ k < 32,
      (t.vreg c l d).getLsbD k = if k = 31 then (s.vb c l b).getLsbD 31 else (s.vreg c l a).getLsbD k)

/-- The special functions on special inputs, and where they are exact (R158, R159, Tables 6.9 and 6.10): each `(x, y)` says that the input
`x` gives `y`. -/
def Obligations.SpecialFunctions : Prop :=
  ∀ (d a : VField),
    let inf : Word := 0x7F800000
    let ninf : Word := 0xFF800000
    let nzero : Word := 0x80000000
    let one : Word := 0x3F800000
    let qnan : Word := 0x7FC00000
    let table (x y : Word) (l : List (Word × Word)) : Prop := ∀ e ∈ l, x = e.1 → y = e.2
    let nan (x y : Word) : Prop := asFp x = .nan → y = qnan
    let negative (x y : Word) : Prop := ∀ m e, asFp x = .fin true m e → m ≠ 0 → y = qnan
    let pow2 (k : Int) : Word := w32 (fp32.round .rne (.fin false 1 k))
    let num (k : Int) : Word := w32 (fp32.round .rne (.ofInt k))
    let bounded (y : Word) : Prop := asFp y ≠ .nan ∧ (asFp y).lt (.ofInt (-1)) = false ∧ (Val.ofInt 1).lt (asFp y) = false
    Gives (.frcp d a) (fun s c t l =>
      let x := s.vreg c l a; let y := t.vreg c l d
      nan x y ∧ table x y [(0, inf), (nzero, ninf), (inf, 0), (ninf, nzero)] ∧
        ∀ k : Nat, k ≤ 276 → x = pow2 (k - 149) → y = pow2 (149 - k)) ∧
    Gives (.frsq d a) (fun s c t l =>
      let x := s.vreg c l a; let y := t.vreg c l d
      nan x y ∧ negative x y ∧ table x y [(0, inf), (nzero, ninf), (inf, 0), (ninf, qnan)] ∧
        ∀ k : Nat, k ≤ 137 → x = pow2 (2 * k - 148) → y = pow2 (74 - k)) ∧
    Gives (.fsqrt d a) (fun s c t l =>
      let x := s.vreg c l a; let y := t.vreg c l d
      nan x y ∧ negative x y ∧ table x y [(0, 0), (nzero, nzero), (inf, inf), (ninf, qnan)] ∧
        ∀ k : Nat, k ≤ 137 → x = pow2 (2 * k - 148) → y = pow2 (k - 74)) ∧
    Gives (.flog2 d a) (fun s c t l =>
      let x := s.vreg c l a; let y := t.vreg c l d
      nan x y ∧ negative x y ∧ table x y [(0, ninf), (nzero, ninf), (inf, inf), (ninf, qnan)] ∧
        ∀ k : Nat, k ≤ 276 → x = pow2 (k - 149) → y = num (k - 149)) ∧
    Gives (.fexp2 d a) (fun s c t l =>
      let x := s.vreg c l a; let y := t.vreg c l d
      nan x y ∧ table x y [(0, one), (nzero, one), (inf, inf), (ninf, 0)] ∧
        (asFp x ≠ .nan → (asFp x).lt (.ofInt 128) = false → y = inf) ∧
        ∀ k : Nat, k ≤ 276 → x = num (k - 149) → y = pow2 (k - 149)) ∧
    Gives (.fsin d a) (fun s c t l =>
      let x := s.vreg c l a; let y := t.vreg c l d
      nan x y ∧ table x y [(0, 0), (nzero, nzero), (inf, qnan), (ninf, qnan)] ∧
        ∀ g m e, asFp x = .fin g m e → (Val.ofInt 32768).lt (.fin false m e) = true → bounded y) ∧
    Gives (.fcos d a) (fun s c t l =>
      let x := s.vreg c l a; let y := t.vreg c l d
      nan x y ∧ table x y [(0, one), (nzero, one), (inf, qnan), (ninf, qnan)] ∧
        ∀ g m e, asFp x = .fin g m e → (Val.ofInt 32768).lt (.fin false m e) = true → bounded y) ∧
    Gives (.ftanh d a) (fun s c t l =>
      let x := s.vreg c l a; let y := t.vreg c l d
      nan x y ∧ table x y [(0, 0), (nzero, nzero), (inf, one), (ninf, 0xBF800000)])

/-- The packed pairs, the conversions and the codebook decoder (R144, R361, R362, R397, R440). -/
def Obligations.PackedPairsAndConversions : Prop :=
  ∀ (bf : Bool) (m : RMode) (f : NarrowFmt) (n : BitVec 2) (d a : VField) (b : BOp),
    let fmt : Fmt := if bf then bf16 else fp16
    let el (w : Word) (e : Nat) : Val := fmt.decode (half w e)
    Gives (.padd2 bf d a b) (fun s c t l => ∀ e < 2,
      half (t.vreg c l d) e = fmt.round .rne ((el (s.vreg c l a) e).add .rne (el (s.vb c l b) e))) ∧
    Gives (.pmul2 bf d a b) (fun s c t l => ∀ e < 2,
      half (t.vreg c l d) e = fmt.round .rne ((el (s.vreg c l a) e).mul (el (s.vb c l b) e))) ∧
    Gives (.pfma2 bf d a b) (fun s c t l => ∀ e < 2,
      half (t.vreg c l d) e = fmt.round .rne ((el (s.vreg c l d) e).add .rne ((el (s.vreg c l a) e).mul (el (s.vb c l b) e)))) ∧
    (∀ sel, Gives (.fcvt m sel d a) (fun s c t l =>
      let x := s.vreg c l a
      let y := t.vreg c l d
      match sel with
      | .toFp16 => y.toNat = fp16.round m (asFp x)
      | .toBf16 => y.toNat = bf16.round m (asFp x)
      | .toFp8e4 => y.toNat = fp8e4.round m (asFp x)
      | .toFp8e5 => y.toNat = fp8e5.round m (asFp x)
      | .fromFp16 => y.toNat = fp32.round .rne (fp16.decode (x.toNat % 2 ^ 16))
      | .fromBf16 => y.toNat = fp32.round .rne (bf16.decode (x.toNat % 2 ^ 16))
      | .fromFp8e4 => y.toNat = fp32.round .rne (fp8e4.decode (x.toNat % 2 ^ 8))
      | .fromFp8e5 => y.toNat = fp32.round .rne (fp8e5.decode (x.toNat % 2 ^ 8))
      | .toInt32 => y.toInt = roundClamp m (-2147483648) 2147483647 (asFp x)
      | .toInt8 => y.toInt = roundClamp m (-128) 127 (asFp x)
      | .toUint8 => y.toInt = roundClamp m 0 255 (asFp x)
      | .fromInt32 => y.toNat = fp32.round m (.ofInt x.toInt)
      | .fromUint32 => y.toNat = fp32.round m (.ofInt x.toNat)
      | .rint =>
        match asFp x with
        | .nan => y = 0x7FC00000
        | .inf _ => y = x
        | .fin g k e => asFp y = asFp (w32 (fp32.round .rne (.fin g (roundInt m g k e).natAbs 0))))) ∧
    Gives (.fcvts f d a b) (fun s c t l =>
      let v := asFp (s.vreg c l a)
      let key := rngKeyOf c.gr.pkt.seed (tabGetD (c.x.lane l).regs 1053 0)
      let r := rngDraw key ((s.vb c l b).setWidth 64) 0
      (t.vreg c l d).toNat = if (narrowFmt f).exact v then (narrowFmt f).round .rne v else (narrowFmt f).roundSr r v) ∧
    Gives (.vqdec n d a) (fun s c t l =>
      let x := half (s.vreg c l a) 0
      let entry := ((((s.ctx c.gr.ctx).lattice.getD n.toNat [])[x / 2 ^ 7]?).getD 0).toNat
      let sign (k : Nat) : Bool :=
        if k < 7 then Nat.testBit x k else ((List.range 7).countP fun j => Nat.testBit x j) % 2 == 1
      ∀ k < 8, half (t.readOpd (t.group c.g) l (.v (d.toNat + k / 2))) (k % 2) =
        bf16.round .rne (.fin (sign k) (2 * (entry / 4 ^ k % 4) + 1) (-1)))

/-! ### Across lanes -/

/-- REDUCE and SCAN: a fixed tree over 32 leaves, the identity where a lane is not selected (R155, R156, R404, R416, Table 6.7). -/
def Obligations.ReduceAndScan : Prop :=
  ∀ (op : RedOp) (sop : ScanOp) (excl : Bool) (u : SField) (d a : VField) (b : POp),
    let fadd (x y : Word) : Word := w32 (fp32.round .rne ((asFp x).add .rne (asFp y)))
    let imin (x y : Word) : Word := if x.toInt < y.toInt then x else y
    let imax (x y : Word) : Word := if x.toInt < y.toInt then y else x
    let f : RedOp → Word → Word → Word
      | .iadd => fun x y => x + y
      | .imin => imin
      | .imax => imax
      | .umin => fun x y => if x.toNat < y.toNat then x else y
      | .umax => fun x y => if x.toNat < y.toNat then y else x
      | .and => fun x y => x &&& y
      | .or => fun x y => x ||| y
      | .xor => fun x y => x ^^^ y
      | .fadd => fadd
      | .fmin => fminW
      | .fmax => fmaxW
    let unit : RedOp → Word
      | .iadd | .or | .xor | .umax => 0
      | .and | .umin => 0xFFFFFFFF
      | .imin => 0x7FFFFFFF
      | .imax => 0x80000000
      | .fadd => 0x80000000
      | .fmin => 0x7F800000
      | .fmax => 0xFF800000
    let as : ScanOp → RedOp
      | .iadd => .iadd
      | .fadd => .fadd
      | .imax => .imax
      | .imin => .imin
    let leaf (s : State) (c : Cx) (o : RedOp) (keep : Nat → Prop) [DecidablePred keep] (k : Nat) : Word :=
      if k ∈ c.ls ∧ s.pb c k b = true ∧ keep k then s.vreg c k a else unit o
    Gives (.reduce op u a b) (fun s c t _ => t.ureg c u = treeOver (f op) (leaf s c op fun _ => True) 5 0) ∧
    Gives (.scan excl sop d a b) (fun s c t i =>
      t.vreg c i d = treeOver (f (as sop)) (leaf s c (as sop) fun k => if excl then k < i else k ≤ i) 5 0)

/-- VOTE, ELECT, QAMAX, QCVT, and MOV from the lane that B names to a uniform register (R154, R350, R388, R402, R403, R439). QCVT gives each
lane its element, rounded from the block's value over the scale, and the scale 2^(⌊log2 a⌋ - e_Q) of the block's largest magnitude a. -/
def Obligations.VotesAndBlocks : Prop :=
  ∀ (p q : PField) (u : SField) (d a : VField) (b : BOp) (n32 h : Bool) (fmt : QuantFmt),
    let block (l k : Nat) : Prop := if n32 then k < 32 else k / 16 = l / 16
    let mag (w : Word) : Word := w &&& 0x7FFFFFFF
    let special (w : Word) : Prop := asFp w = .nan ∨ ∃ g, asFp w = .inf g
    let n := if n32 then 32 else 16
    let y (s : State) (c : Cx) (l i : Nat) : Word :=
      let x (j : Nat) : Word := if l / n * n + j ∈ c.ls then s.vreg c (l / n * n + j) a else 0
      let odd (j : Nat) : Bool := ((List.range 6).countP fun b => i.testBit b && j.testBit b) % 2 == 1
      if h then BitVec.ofNat 32 (matrixSum ((List.range n).map fun j => if odd j then (asFp (x j)).neg else asFp (x j))) else x i
    let eQ : Int := match fmt with | .fp8e4 => 8 | .fp8e5 => 15 | .int8 => 6
    let qnan : Nat := match fmt with | .fp8e4 => 0x7F | .fp8e5 => 0x7E | .int8 => 0
    let scaled (w : Word) (x : Int) : Val := match asFp w with | .fin g k e => .fin g k (e - x) | v => v
    let element (v : Val) : Nat :=
      match fmt with
      | .fp8e4 => fp8e4.round .rne v
      | .fp8e5 => if fp8e5.round .rne v % 2 ^ 7 = 0x7C then fp8e5.round .rne v - 1 else fp8e5.round .rne v
      | .int8 => (roundClamp .rne (-127) 127 v % 256).toNat
    Gives (.voteAny p q) (fun s c t l => t.preg c l p = true ↔ ∃ k ∈ c.ls, s.preg c k q = true) ∧
    Gives (.voteAll p q) (fun s c t l => t.preg c l p = true ↔ ∀ k ∈ c.ls, s.preg c k q = true) ∧
    Gives (.voteBallot u q) (fun s c t _ => ∀ k < 32, (t.ureg c u).getLsbD k = true ↔ k ∈ c.ls ∧ s.preg c k q = true) ∧
    Gives (.voteCount d q) (fun s c t l => t.vreg c l d = BitVec.ofNat 32 (c.ls.countP fun k => s.preg c k q)) ∧
    Gives (.elect p) (fun _ c t l => (∀ k ∈ c.ls, c.l0 ≤ k) → (t.preg c l p = true ↔ ∀ k ∈ c.ls, l ≤ k)) ∧
    Gives (.qamax n32 d a) (fun s c t l => (∀ k ∈ c.ls, k < 32) →
      ((∃ k ∈ c.ls, block l k ∧ asFp (s.vreg c k a) = .nan) → t.vreg c l d = 0x7FC00000) ∧
      ((∀ k ∈ c.ls, block l k → asFp (s.vreg c k a) ≠ .nan) →
        (t.vreg c l d = 0 ∨ ∃ k ∈ c.ls, block l k ∧ t.vreg c l d = mag (s.vreg c k a)) ∧
          ∀ k ∈ c.ls, block l k → (asFp (t.vreg c l d)).lt (asFp (mag (s.vreg c k a))) = false)) ∧
    Gives (.qcvt fmt h n32 d a) (fun s c t l => (∀ k ∈ c.ls, k < 32) →
      (t.vreg c l d).toNat < 2 ^ 16 ∧
      (∀ k ∈ c.ls, block l k → (t.vreg c k d).toNat / 2 ^ 8 = (t.vreg c l d).toNat / 2 ^ 8) ∧
      (h = false → (∃ k ∈ c.ls, block l k ∧ special (s.vreg c k a)) → (t.vreg c l d).toNat / 2 ^ 8 = 0xFF) ∧
      (h = false → (∀ k ∈ c.ls, block l k → mag (s.vreg c k a) = 0) → t.vreg c l d = 0) ∧
      ((∃ i < n, special (y s c l i)) → t.vreg c l d = BitVec.ofNat 32 (0xFF00 + qnan)) ∧
      ((∀ i < n, mag (y s c l i) = 0) → t.vreg c l d = 0) ∧
      ∀ i m e, i < n → asFp (mag (y s c l i)) = .fin false m e → m ≠ 0 →
        (∀ j < n, ¬ special (y s c l j) ∧ (asFp (mag (y s c l i))).lt (asFp (mag (y s c l j))) = false) →
        let x : Int := max (-127) (min 127 ((Nat.log2 m : Int) + e - eQ))
        (t.vreg c l d).toNat = element (scaled (y s c l (l % n)) x) + 2 ^ 8 * (x + 127).toNat) ∧
    ∀ (s : State) (c : Cx),
      let i := Instr.movSV u a b
      let k := (s.vb c c.l0 b).toNat % 32
      i.wf = true → s.Ready i c → ((c.x.lane k).fin = false → c.x.isPending k (.v a.toNat) = false) →
        ∃ t, exec i s = .next t ∧ WroteOnly i s c t ∧ t.ureg c u = if (c.x.lane k).fin then 0 else s.vreg c k a

/-- ENVRD (R354, Table 20.3): the indices that need no placement, and the coordinates of an ordinary team; those of a bin group, and of the
handler of its trap, are all ones (R59, R207). -/
def Obligations.EnvironmentReads : Prop :=
  ∀ (d : VField) (x : BitVec 18),
    Gives (.envrd d x) (fun s c t l =>
      let r := (t.vreg c l d).toNat
      let p := c.gr.pkt
      let tm := s.team c.x.team
      let ordinary : Prop := c.x.bin = none ∧ tm.handler = none ∧ tm.dynamic = false ∧ p.kind ≠ 3
      (c.x.bin ≠ none ∨ (tm.handler ≠ none ∧ (s.team tm.faulty).dynamic = true) → x = 2 ∨ x = 3 ∨ x = 4 → r = 2 ^ 32 - 1) ∧
      (x = 0 → r = l % 2 ^ 32) ∧ (x = 9 → r = c.x.role % 2 ^ 32) ∧ (x = 11 → r = dieOf (coreOf c.g) % 2 ^ 32) ∧
      (x = 13 → r = p.seed.toNat % 2 ^ 32) ∧ (x = 14 → r = p.seed.toNat / 2 ^ 32) ∧
      (x = 15 → r = if p.det then 0 else s.clock % 2 ^ 32) ∧ (x = 16 → r = if p.det then 0 else s.clock / 2 ^ 32 % 2 ^ 32) ∧
      (x = 17 → r = (c.x.lane l).wb % 2 ^ 32) ∧
      (x = 18 → r = if p.det ∨ tm.shadow ≠ none then 1 else 0) ∧
      (ordinary → x = 1 → r = c.x.gidx % 2 ^ 32) ∧
      (ordinary → x = 2 → r = tm.tid % p.gx % 2 ^ 32) ∧ (ordinary → x = 3 → r = tm.tid / p.gx % p.gy % 2 ^ 32) ∧
      (ordinary → x = 4 → r = tm.tid / (p.gx * p.gy) % 2 ^ 32) ∧ (ordinary → x = 5 → r = p.teamSize % 2 ^ 32) ∧
      (ordinary → x = 6 → r = p.gx % 2 ^ 32) ∧ (ordinary → x = 7 → r = p.gy % 2 ^ 32) ∧ (ordinary → x = 8 → r = p.gz % 2 ^ 32))

/-- The random numbers: RNGKEY sets the stream, RNG and RMASK draw from seed, stream and counter alone (R149, R150, R407, R408, R409). -/
def Obligations.RandomDraws : Prop :=
  ∀ (d a : VField) (b : BOp) (p : PField),
    let key (c : Cx) (l : Nat) : DWord := rngKeyOf c.gr.pkt.seed (tabGetD (c.x.lane l).regs 1053 0)
    Gives (.rngkey a) (fun s c t l => tabGet ((t.group c.g).lane l).regs 1053 = some (s.vreg c l a)) ∧
    Gives (.rng d a) (fun s c t l => t.vpair c l d = rngBlock (key c l) (s.vpair c l a)) ∧
    Gives (.rmask p a b) (fun s c t l =>
      let w := (s.vb c l b).toNat
      t.preg c l p = true ↔ rngDraw (key c l) ((s.vreg c l a).setWidth 64) (w / 2 ^ 16 % 4) < w % 2 ^ 16)

/-! ### Control flow -/

/-- Branches, jumps, calls and returns: each active lane goes on at its target or past the word, a call leaves the address after its word
in the link registers, and nothing else changes (R44, R110, R117, R323, R326, R327, R356, R378). -/
def Obligations.BranchesAndCalls : Prop :=
  ∀ (s : State) (c : Cx),
    let clock := s.clock
    let far {n : Nat} (ofs : BitVec n) : DWord := c.y0.pc + ofs.signExtend 64 * 4
    let ok (a : DWord) : Prop := s.badTarget c.who a.toNat = none
    let go (a : DWord) (y : Lane) : Lane := { y.goto a with stamp := clock }
    let past (y : Lane) : Lane := { y.advance 1 with stamp := clock }
    let link (y : Lane) (r : Nat) : Tab Word := tabSet (tabSet y.regs r ((c.y0.pc + 4).setWidth 32)) (r + 1) (((c.y0.pc + 4) >>> 32).setWidth 32)
    (∀ b ofs, s.Ready (.bra b ofs) c → ok (far ofs) →
      ∃ t, exec (.bra b ofs) s = .next t ∧ LanesOnly s c t fun l y =>
        if (match b with | .always => true | .ifTrue p => s.preg c l p | .ifFalse p => !s.preg c l p) then go (far ofs) y else past y) ∧
    (∀ ofs, s.Ready (.jmp ofs) c → ok (far ofs) → ∃ t, exec (.jmp ofs) s = .next t ∧ LanesOnly s c t fun _ y => go (far ofs) y) ∧
    (∀ ofs, s.Ready (.call ofs) c → ok (far ofs) →
      ∃ t, exec (.call ofs) s = .next t ∧ LanesOnly s c t fun _ y => { go (far ofs) y with regs := link y 1054 }) ∧
    (∀ a, s.Ready (.jmpi a) c → (∀ l ∈ c.ls, ok (s.vpair c l a)) →
      ∃ t, exec (.jmpi a) s = .next t ∧ LanesOnly s c t fun l y => go (s.vpair c l a) y) ∧
    (∀ a, s.Ready (.ret a) c → (∀ l ∈ c.ls, ok (s.vpair c l a)) →
      ∃ t, exec (.ret a) s = .next t ∧ LanesOnly s c t fun l y => go (s.vpair c l a) y) ∧
    (∀ d a, (Instr.calli d a).wf = true → s.Ready (.calli d a) c → (∀ l ∈ c.ls, ok (s.vpair c l a)) →
      ∃ t, exec (.calli d a) s = .next t ∧ LanesOnly s c t fun l y => { go (s.vpair c l a) y with regs := link y (y.arch d.toNat) }) ∧
    (∀ ifP p ofs, s.Ready (.brp ifP p ofs) c → ok (far ofs) →
      ∃ t, exec (.brp ifP p ofs) s = .next t ∧ LanesOnly s c t fun l y =>
        if ((!c.gr.pkt.det && c.x.isPending l (.v p.toNat)) == ifP) then go (far ofs) y else past y)

/-- NOP, YIELD, PEND, WBASE and VFREE (R90, R92, R111, R356): what each leaves in a lane; nothing else changes. -/
def Obligations.WindowAndLiveness : Prop :=
  ∀ (s : State) (c : Cx) (r : VField) (n m : BitVec 7),
    let past (y : Lane) : Lane := { y.advance 1 with stamp := s.clock, pass := false }
    (s.Ready .nop c → ∃ t, exec .nop s = .next t ∧ LanesOnly s c t fun _ y => past y) ∧
    (s.Ready .yield c → ∃ t, exec .yield s = .next t ∧ LanesOnly s c t fun _ y => past y) ∧
    (s.Ready (.pend r) c → ∃ t, exec (.pend r) s = .next t ∧ LanesOnly s c t fun _ y => past y) ∧
    (s.Ready (.wbase n) c → ∃ t, exec (.wbase n) s = .next t ∧ LanesOnly s c t fun _ y => { past y with wb := 16 * n.toNat }) ∧
    (s.Ready (.vfree r m) c →
      ∃ t, exec (.vfree r m) s = .next t ∧
        (∀ l ∈ c.ls, ∀ k < m.toNat, tabGet ((t.group c.g).lane l).regs ((c.x.lane l).arch (r.toNat + k)) = none) ∧
        (∀ l ∈ c.ls, ∀ k, (∀ j < m.toNat, k ≠ (c.x.lane l).arch (r.toNat + j)) →
          tabGet ((t.group c.g).lane l).regs k = tabGet (c.x.lane l).regs k) ∧
        LanesOnly s c t fun l y => { past y with regs := ((t.group c.g).lane l).regs, resident := ((t.group c.g).lane l).resident })

/-- ENROL, JOIN and LEAVE (R48): the masks of the barrier, who waits, and who is released. -/
def Obligations.RejoinBarriers : Prop :=
  ∀ (s : State) (c : Cx) (k : KField), (∀ l ∈ c.ls, l < 32) →
    let b := k.toNat
    let set := maskOf c.ls
    let e := c.x.enrolled b
    let a := c.x.arrived b
    let past (l : Nat) (t : State) : Prop := ((t.group c.g).lane l).pc = ((c.x.lane l).advance 1).pc ∧ ((t.group c.g).lane l).park = .none
    let keeps (t : State) : Prop :=
      t = { s with groups := t.groups, nextId := t.nextId, cores := t.cores } ∧ OnlyCounts s t ∧
        (∀ g, g ≠ c.g → tabGet t.groups g = tabGet s.groups g) ∧ 
        (∀ j, j ≠ b → (t.group c.g).enrolled j = c.x.enrolled j ∧ (t.group c.g).arrived j = c.x.arrived j) ∧
        (t.group c.g).sregs = c.x.sregs ∧ ∀ l, ((t.group c.g).lane l).regs = (c.x.lane l).regs ∧ ((t.group c.g).lane l).preds = (c.x.lane l).preds
    let bar (t : State) (e a : BitVec 32) : Prop := (t.group c.g).enrolled b = e ∧ (t.group c.g).arrived b = a
    (s.Ready (.enrol k) c → ∃ t, exec (.enrol k) s = .next t ∧ keeps t ∧ bar t (e ||| set) a ∧ ∀ l ∈ c.ls, past l t) ∧
    (s.Ready (.join k) c → (e = 0 ∨ e &&& ~~~(a ||| (e &&& set)) ≠ 0) →
      ∃ t, exec (.join k) s = .next t ∧ keeps t ∧ bar t e (a ||| (e &&& set)) ∧
        ∀ l ∈ c.ls, if e.getLsbD l then ((t.group c.g).lane l).park = .join b ∧ ((t.group c.g).lane l).pc = (c.x.lane l).pc else past l t) ∧
    (s.Ready (.join k) c → e ≠ 0 → e &&& ~~~(a ||| (e &&& set)) = 0 → (∀ l < 32, a.getLsbD l = true → l ∉ c.ls) →
      (∀ l < 32, a.getLsbD l = true → (tabGet c.x.lanes l).isSome = true) →
      ∃ t, exec (.join k) s = .next t ∧ keeps t ∧ bar t 0 0 ∧ ∀ l < 32, l ∈ c.ls ∨ a.getLsbD l = true → past l t) ∧
    (s.Ready (.leave k) c → (e &&& ~~~set = 0 ∨ e &&& ~~~set &&& ~~~(a &&& ~~~set) ≠ 0) →
      ∃ t, exec (.leave k) s = .next t ∧ keeps t ∧ bar t (e &&& ~~~set) (a &&& ~~~set) ∧ ∀ l ∈ c.ls, past l t) ∧
    (s.Ready (.leave k) c → e &&& ~~~set ≠ 0 → e &&& ~~~set &&& ~~~(a &&& ~~~set) = 0 →
      (∀ l < 32, (a &&& ~~~set).getLsbD l = true → (tabGet c.x.lanes l).isSome = true) →
      ∃ t, exec (.leave k) s = .next t ∧ keeps t ∧ bar t 0 0 ∧ ∀ l < 32, l ∈ c.ls ∨ (a &&& ~~~set).getLsbD l = true → past l t)

/-- EXIT and REGROUP (R49, R51, R52, R53, R54, R356): the threads of a set finish and are enrolled in no barrier; the threads of a set stand
at the regroup point while another thread of the team on the core does not, and go on in their lanes where the set is all there is. -/
def Obligations.ExitAndRegroup : Prop :=
  ∀ (s : State) (c : Cx),
    (s.Ready .exit c → (∀ l ∈ c.ls, s.entries c.g l = 0) → (∀ g ∈ s.groups, ∀ y ∈ g.2.lanes, y.2.park ≠ .stand) →
      ∃ t, exec .exit s = .next t ∧
        (∀ l ∈ c.ls, ((t.group c.g).lane l).fin = true ∧ ∀ k < 8, ((t.group c.g).enrolled k).getLsbD l = false) ∧
        ((∃ l, l ∉ c.ls ∧ (c.x.lane l).fin = false) → c.gr.pkt.det = false → c.gr.picked = [] →
          t = { s with groups := t.groups, ops := t.ops, nextId := t.nextId, grids := t.grids, order := t.order } ∧
            (∀ k, ∃ e, t.grid k = { s.grid k with gained := e }) ∧ ((∀ l ∈ c.ls, (c.x.lane l).inSect = false) → t.order = s.order) ∧
            (∀ g, g ≠ c.g → tabGet t.groups g = tabGet s.groups g) ∧ (t.group c.g).sregs = c.x.sregs ∧
            ∀ l, ((t.group c.g).lane l).regs = (c.x.lane l).regs ∧
              ((t.group c.g).lane l).preds = (c.x.lane l).preds)) ∧
    (s.Ready .regroup c → (∀ l ∈ c.ls, s.entries c.g l = 0 ∧ (c.x.lane l).flagsZero = true ∧ ∀ k < 8, (c.x.enrolled k).getLsbD l = false) →
      ((∃ g x l y, tabGet s.groups g = some x ∧ x.team = c.x.team ∧ x.role = 0 ∧ coreOf g = coreOf c.g ∧ tabGet x.lanes l = some y ∧
          y.fin = false ∧ y.park ≠ .stand ∧ (g = c.g → l ∉ c.ls)) →
        ∃ t, exec .regroup s = .next t ∧
          LanesOnly { s with teams := t.teams, cores := t.cores } c t (fun _ y => { y.advance 1 with park := .stand, stamp := s.clock, pass := false }) ∧
            OnlyCounts s t) ∧
      (s.vgroups c.x.team (coreOf c.g) = [c.g] → (∀ l ∈ c.x.live, l ∈ c.ls) → (∀ l ∈ c.ls, l < 32) →
        ∃ t, exec .regroup s = .next t ∧ LanesOnly { s with teams := t.teams, cores := t.cores } c t (fun _ y => y.past .regroup s.clock) ∧
          OnlyCounts s t))

/-! ### Memory -/

/-- LD, LDU and LDS (R168, R379, R382, R384, Table 21.1): where every address is aligned and translates, or lies in the team's slice on its
own core, and no earlier store or load of the thread keeps the access back, the bytes are read and will be brought, extended, to the destination
registers; LDU reads once for the set. `State.mayRead` says which bytes: that they are those of the moment of issue is the model's reading (log 8),
a half of a B128 load as it was before a store since its thread's last instruction its choice (log 11), a missed write its choice (log 12). -/
def Obligations.Loads : Prop :=
  ∀ (acq : Bool) (z : Size) (d a : BitVec 7) (b : BOp) (s : State) (c : Cx) (pa : Nat → Nat) (k : Nat),
    let n := z.bytes
    let at' (l : Nat) : Nat := (s.vreg c l a + s.vb c l b).toNat
    let bytes (l : Nat) : List Byte := (List.range n).map fun j => s.spadByte c.x.team k (at' l + j)
    let words (bs : List Byte) : List Word :=
      let v := leNat bs
      match z with
      | .u8 | .u16 | .b32 => [BitVec.ofNat 32 v]
      | .s8 => [(BitVec.ofNat 8 v).signExtend 32]
      | .s16 => [(BitVec.ofNat 16 v).signExtend 32]
      | .b64 => [BitVec.ofNat 32 v, BitVec.ofNat 32 (v / 2 ^ 32)]
      | .b128 => [BitVec.ofNat 32 v, BitVec.ofNat 32 (v / 2 ^ 32), BitVec.ofNat 32 (v / 2 ^ 64), BitVec.ofNat 32 (v / 2 ^ 96)]
    let free (l : Nat) (loc : Loc) : Prop := s.behind c.g l loc n = none ∧ s.loadMeets c.g l loc n = false
    let reads (l va p : Nat) : Prop := free l (.phys p) ∧ va % n = 0 ∧ s.xlate c.who .load va n = .ok p
    (s.team c.x.team).shadow = none →
    (let i := Instr.ld acq z d a b;
      i.wf = true → s.Ready i c → (∀ l ∈ c.ls, reads l (s.vpair c l a + (s.vb c l b).signExtend 64).toNat (pa l)) →
        ∃ t, exec i s = .next t ∧ IssuedOnly i s c t ∧
          ∀ l ∈ c.ls, ∃ bs, s.mayRead i c.g [l] (.phys (pa l)) (memRead s.mem (pa l) n) bs ∧ Launched i s c t l [l] (dstRegs i c l) (words bs)) ∧
    (let i := Instr.ldu z d a b;
      i.wf = true → s.Ready i c → (∀ l ∈ c.ls, (c.x.lane l).hword = c.y0.hword) →
        (∀ l ∈ c.ls, reads l (s.upair c a + (s.ub c b).signExtend 64).toNat (pa 0)) →
        ∃ t bs, exec i s = .next t ∧ IssuedOnly i s c t ∧ s.mayRead i c.g c.ls (.phys (pa 0)) (memRead s.mem (pa 0) n) bs ∧
          Launched i s c t c.l0 c.ls (dstRegs i c c.l0) (words bs)) ∧
    (let i := Instr.lds z d a b;
      i.wf = true → s.Ready i c → (s.team c.x.team).cores[k]? = some (coreOf c.g) →
        (∀ j < k, (s.team c.x.team).cores[j]? ≠ some (coreOf c.g)) →
        (∀ l ∈ c.ls, free l (.spad c.x.team k (at' l)) ∧ at' l < 2 ^ 23 ∧ at' l % n = 0 ∧ at' l + n ≤ s.sliceBytes c) →
        ∃ t, exec i s = .next t ∧ IssuedOnly i s c t ∧
          ∀ l ∈ c.ls, ∃ bs, s.mayRead i c.g [l] (.spad c.x.team k (at' l)) (bytes l) bs ∧ Launched i s c t l [l] (dstRegs i c l) (words bs))

/-- ST (R112, R168, R423): where the chain is empty, every active lane's bytes are in memory, a later lane's over an earlier one's; every
other byte is as it was. B128 is two accesses of 8 bytes (R185), of which one may still be to be made, outside DET and where no other lane's store
meets it, the flag counting on it (R112): `left` gives its place. That it may come later is the model's choice (log 11). -/
def Obligations.StoresToMemory : Prop :=
  ∀ (rel : Bool) (z : Size) (d a : VField) (b : BOp) (s : State) (c : Cx) (pa : Nat → Nat),
    let n := z.bytes
    let i := Instr.st rel z d a b
    let va (l : Nat) : Nat := (s.vpair c l a + (s.vb c l b).signExtend 64).toNat
    let tm := c.x.team
    i.wf = true → s.Ready i c → (s.team tm).shadow = none →
      (∀ l ∈ c.ls, s.joins c i l = false ∧ va l % n = 0 ∧ s.xlate c.who .store (va l) n = .ok (pa l)) →
      ∃ t, ∃ left : Nat → Option Nat, exec i s = .next t ∧ PerformedOnly i { s with resid := t.resid } c t ∧
        (∀ p, memByte t.mem p =
          c.ls.foldl (fun w l => if pa l ≤ p ∧ p < pa l + n ∧ left l ≠ some ((p - pa l) / 8) then s.dataByte c l d (p - pa l) else w)
            (memByte s.mem p)) ∧
        (z ≠ .b128 → t.resid = s.resid ∧ ∀ l, left l = none) ∧ (∀ id, id < s.nextId → tabGet t.resid id = tabGet s.resid id) ∧
        (∀ l ∈ c.ls, ∀ k, left l = some k → k < 2 ∧ c.gr.pkt.det = false ∧ (∀ m ∈ c.ls, m ≠ l → pa m + n ≤ pa l ∨ pa l + n ≤ pa m) ∧
          ∃ id r, s.nextId ≤ id ∧ tabGet t.resid id = some r ∧ r.g = c.g ∧ r.lane = l ∧ r.lanes = [l] ∧ r.flag = (c.x.lane l).flagOf i ∧
            r.ins = i ∧ r.kind = .half (.phys (pa l + 8 * k)) (va l + 8 * k) ((List.range 8).map fun j => s.dataByte c l d (8 * k + j))) ∧
        (∀ k, k ≠ tm → tabGet t.teams k = tabGet s.teams k) ∧
        (∃ g, t.team tm = { s.team tm with digest := g }) ∧ ((s.team tm).checked = false → t.teams = s.teams)

/-- STS (R168, R185, R425): the same in the team's slice on its own core; memory and every other slice are as they were. Only what a matrix
command has put into a slice by an AST, and no MWAIT has waited for, may become undefined, where the store meets a B window (R195). -/
def Obligations.StoresToSlices : Prop :=
  ∀ (z : Size) (d a : VField) (b : BOp) (s : State) (c : Cx) (k : Nat),
    let n := z.bytes
    let i := Instr.sts z d a b
    let at' (l : Nat) : Nat := (s.vreg c l a + s.vb c l b).toNat
    let tm := c.x.team
    i.wf = true → s.Ready i c → (s.team tm).cores[k]? = some (coreOf c.g) → (s.slice? tm k).isSome = true →
      (∀ j < k, (s.team tm).cores[j]? ≠ some (coreOf c.g)) →
      (∀ l ∈ c.ls, s.joins c i l = false ∧ at' l < 2 ^ 23 ∧ at' l % n = 0 ∧ at' l + n ≤ s.sliceBytes c) →
      ∃ t, ∃ left : Nat → Option Nat, exec i s = .next t ∧ PerformedOnly i { s with resid := t.resid } c t ∧ t.mem = s.mem ∧
        (∀ p, ¬ s.unwaited tm k p → t.spadByte tm k p =
          c.ls.foldl (fun w l => if at' l ≤ p ∧ p < at' l + n ∧ left l ≠ some ((p - at' l) / 8) then s.dataByte c l d (p - at' l) else w)
            (s.spadByte tm k p)) ∧
        (z ≠ .b128 → t.resid = s.resid ∧ ∀ l, left l = none) ∧ (∀ id, id < s.nextId → tabGet t.resid id = tabGet s.resid id) ∧
        (∀ l ∈ c.ls, ∀ h, left l = some h → h < 2 ∧ c.gr.pkt.det = false ∧
          (∀ m ∈ c.ls, m ≠ l → at' m + n ≤ at' l ∨ at' l + n ≤ at' m) ∧
          ∃ id r, s.nextId ≤ id ∧ tabGet t.resid id = some r ∧ r.g = c.g ∧ r.lane = l ∧ r.lanes = [l] ∧ r.flag = (c.x.lane l).flagOf i ∧
            r.ins = i ∧ r.kind = .half (.spad tm k (at' l + 8 * h)) (at' l + 8 * h) ((List.range 8).map fun j => s.dataByte c l d (8 * h + j))) ∧
        (∀ x j p, (x ≠ tm ∨ j ≠ k) → ¬ s.unwaited x j p → t.spadByte x j p = s.spadByte x j p)

/-- A store or an atomic whose thread has entries in its store chain, or whose data is pending, joins the chain and changes no byte (R108,
R112); a fence does the same behind a chain; a load of bytes that an entry is to write waits for it, and for captured loads of those bytes (R109,
R190). -/
def Obligations.StoreChain : Prop :=
  ∀ (rel acq nr wide : Bool) (op : AtomOp) (o : Ord) (z : Size) (d a x : VField) (b : BOp) (sc : Scope) (s : State) (c : Cx) (pa : Nat → Nat),
    let n := z.bytes
    let va (l : Nat) : Nat := (s.vpair c l a + (s.vb c l b).signExtend 64).toNat
    let placed (acc : Acc) : Prop := ∀ l ∈ c.ls, s.room c l = true ∧ va l % n = 0 ∧ s.xlate c.who acc (va l) n = .ok (pa l)
    let joined (i : Instr) (t : State) (p : Nat → Resid → Prop) : Prop :=
      exec i s = .next t ∧ Passed i c t ∧ t.mem = s.mem ∧ t.teams = s.teams ∧ (∀ id, id < s.nextId → tabGet t.resid id = tabGet s.resid id) ∧
        ∀ l ∈ c.ls, ∃ id r, s.nextId ≤ id ∧ tabGet t.resid id = some r ∧ r.g = c.g ∧ r.lane = l ∧ r.ins = i ∧
          r.flag = (c.x.lane l).flagOf i ∧ p l r
    (let i := Instr.st rel z d a b;
      i.wf = true → s.Ready i c → placed .store → (∀ l ∈ c.ls, s.joins c i l = true) →
        ∃ t, joined i t fun l r => r.kind = .store (.phys (pa l)) n (va l) rel ∧ r.srcs = (z.data d).map (s.captureOpd c.x l)) ∧
    (let i := Instr.fenceRel sc;
      s.Ready i c → (∀ l ∈ c.ls, s.room c l = true ∧ s.chain c.g l ≠ []) → ∃ t, joined i t fun _ r => r.kind = .fence false) ∧
    (let i := Instr.fenceFull sc;
      s.Ready i c → (∀ l ∈ c.ls, s.room c l = true ∧ s.chain c.g l ≠ [] ∧ s.loadsOut c.g l = false) →
        ∃ t, joined i t fun _ r => r.kind = .fence true) ∧
    (let i := Instr.ld acq z d a b;
      i.wf = true → s.Ready i c → placed .load → (∀ l ∈ c.ls, s.behind c.g l (.phys (pa l)) n ≠ none) →
        ∃ t, joined i t fun l r => r.dsts.map (·.1) = dstRegs i c l ∧ ∃ e es, s.behind c.g l (.phys (pa l)) n = some e ∧
          r.kind = .load (e :: es) (.phys (pa l)) n (va l) ∧
          ∀ h, h ∈ es ↔ ∃ q, (h, q) ∈ s.heldLoads c.g l ∧ q.reads (.phys (pa l)) n = true) ∧
    (let m := if wide then 8 else 4
     let at' (l : Nat) : Nat := (s.vpair c l a).toNat
     let waits (i : Instr) : Prop :=
       i.wf = true → s.Ready i c → (∀ l ∈ c.ls, s.joins c i l = true ∧ s.room c l = true ∧ at' l % m = 0 ∧
         s.xlate c.who .atomic (at' l) m = .ok (pa l) ∧ s.hostAtomicOk i (.phys (pa l)) = true) →
       ∃ t, joined i t fun l r => r.kind = .atomic (.phys (pa l)) (at' l) ∧ r.srcs = (dataOf i).map (s.captureOpd c.x l) ∧
         r.dsts.map (·.1) = dstRegs i c l
     ((c.gr.pkt.det = true → op = .fadd → sc = .thread ∨ sc = .group) → waits (.atom op nr wide o sc d a x)) ∧
       waits (.cas wide o sc d a x))

/-- ATOM and CAS (R315, R317, R329, Table 19.4): lane after lane, each reads, computes and writes in one act; the old value of the location
will be brought to D, and memory has no other byte changed. That is so where there is no write of the location that the lane can miss (R190, R193);
where there is, it may read what stood before one of the last writes that it can miss. Which writes those are, and that the location has the value
computed from the older one, is the model's choice (log 12). -/
def Obligations.Atomics : Prop :=
  ∀ (op : AtomOp) (nr wide : Bool) (o : Ord) (sc : Scope) (d a b : VField) (s : State) (c : Cx) (pa : Nat → Nat),
    let n := if wide then 8 else 4
    let w := 8 * n
    let data (l k : Nat) : Nat :=
      let r (j : Nat) : Nat := (s.readOpd c.x l (.v (b.toNat + j))).toNat
      if wide then r (2 * k) + 2 ^ 32 * r (2 * k + 1) else r k
    let after (old l : Nat) : Nat :=
      let x := data l 0
      let sg (v : Nat) : Int := if 2 ^ (w - 1) ≤ v then (v : Int) - 2 ^ w else v
      match op with
      | .add => (old + x) % 2 ^ w
      | .min => if sg x < sg old then x else old
      | .max => if sg x > sg old then x else old
      | .umin => if x < old then x else old
      | .umax => if x > old then x else old
      | .and => old &&& x
      | .or => old ||| x
      | .xor => old ^^^ x
      | .exch => x
      | .inc => if old ≥ x then 0 else old + 1
      | .dec => if old = 0 ∨ old > x then x else old - 1
      | .fadd => fp32.round .rne ((fp32.decode old).add .rne (fp32.decode x))
    let result (v : Nat) : List Word := if wide then [BitVec.ofNat 32 v, BitVec.ofNat 32 (v / 2 ^ 32)] else [BitVec.ofNat 32 v]
    let makes (i : Instr) (f : Nat → Nat → Nat) : Prop :=
      let run (ls : List Nat) : Tab Byte := ls.foldl (fun m l => memWrite m (pa l) (leBytes n (f (memNat m (pa l) n) l))) s.mem
      let old (l : Nat) : Nat := memNat (run (c.ls.takeWhile fun k => k != l)) (pa l) n
      i.wf = true → s.Ready i c →
        (∀ l ∈ c.ls, s.joins c i l = false ∧ (s.vpair c l a).toNat % n = 0 ∧
          s.xlate c.who .atomic (s.vpair c l a).toNat n = .ok (pa l) ∧ s.hostAtomicOk i (.phys (pa l)) = true) →
        ((∀ l ∈ c.ls, ∀ e ∈ s.order.atoms, e.1 = .phys (pa l) → ∀ w ∈ e.2, s.misses c.g [l] i w = false) ∨
            (∃ l, c.ls = [l] ∧ s.missed c.g [l] i (.phys (pa l)) = none) →
          ∃ t, exec i s = .next t ∧ PerformedOnly i s c t ∧ t.teams = s.teams ∧ (∀ p, memByte t.mem p = memByte (run c.ls) p) ∧
            ∀ l ∈ c.ls, dstRegs i c l ≠ [] → Launched i s c t l [l] (dstRegs i c l) (result (old l))) ∧
        (∀ l e, c.ls = [l] → s.missed c.g [l] i (.phys (pa l)) = some e →
          let v := e.prev % 2 ^ w
          e ∈ s.syncsOf (.phys (pa l)) n ∧ s.misses c.g [l] i e = true ∧
          ∃ t, exec i s = .next t ∧ PerformedOnly i s c t ∧ t.teams = s.teams ∧
            ((∀ p, memByte t.mem p = memByte (memWrite s.mem (pa l) (leBytes n (f v l))) p) ∨
              f v l = v ∧ ∀ p, memByte t.mem p = memByte s.mem p) ∧
            (dstRegs i c l ≠ [] → Launched i s c t l [l] (dstRegs i c l) (result v)))
    ((c.gr.pkt.det = true → op = .fadd → sc = .thread ∨ sc = .group) → makes (.atom op nr wide o sc d a b) after) ∧
      makes (.cas wide o sc d a b) fun old l => if old = data l 0 then data l 1 else old

/-- The fences, ICINV and the CCTL family (R108, R140, R331, R332, R363, R372): with nothing of the thread's outstanding a fence has nothing to
wait for, and it changes only what is known of happens-before; ICINV holds back later releases; CCTL writes back the lines of a range, drops
the dies' copies of them or leaves those standing, and changes no byte. -/
def Obligations.FencesAndCacheControl : Prop :=
  ∀ (sc : Scope) (a : VField) (b : BOp) (s : State) (c : Cx) (ps : Nat → List Piece),
    let past (_ : Nat) (y : Lane) : Lane := { y.advance 1 with stamp := s.clock, pass := false }
    let cctl (i : Instr) (gone : Bool) : Prop :=
      i.wf = true → s.Ready i c →
        (∀ l ∈ c.ls, s.cctlRun c.who (s.vpair c l a).toNat (s.vb c l b).toNat = .ok (ps l)) →
        ∃ t, exec i s = .next t ∧ PerformedOnly i s c t ∧ t.mem = s.mem ∧ t.teams = s.teams ∧ t.stored = s.stored ∧
          t.hostLines = s.hostLines ∧ ∀ line x, (line, x) ∈ t.leases ↔
            let named : Prop := ∃ l ∈ c.ls, inPieces (ps l) line = true
            (¬ named ∧ (line, x) ∈ s.leases) ∨
              (named ∧ x.wb = [] ∧ x.holders ≠ [] ∧ ∃ y, (line, y) ∈ s.leases ∧
                x.holders = if gone then y.holders.filter (fun h => bridge ≤ h.1) else y.holders)
    let fenced (i : Instr) : Prop := ∃ t, exec i s = .next t ∧ LanesOnly { s with order := t.order } c t past
    (s.Ready (.fenceAcq sc) c → (∀ l ∈ c.ls, s.readsOut c.g l = false) → fenced (.fenceAcq sc)) ∧
    (s.Ready (.fenceRel sc) c → (∀ l ∈ c.ls, s.chain c.g l = []) → fenced (.fenceRel sc)) ∧
    (s.Ready (.fenceFull sc) c → (∀ l ∈ c.ls, s.chain c.g l = [] ∧ s.loadsOut c.g l = false) → fenced (.fenceFull sc)) ∧
    (s.Ready (.fenceAsync sc) c → fenced (.fenceAsync sc)) ∧
    (s.Ready (.icinv sc) c → (∀ l ∈ c.ls, (c.x.lane l).hword = c.y0.hword) →
      ∃ t, exec (.icinv sc) s = .next t ∧ IssuedOnly (.icinv sc) s c t ∧ ∀ l ∈ c.ls, t.icinvOut c.g l = true) ∧
    cctl (.cctlWb a b) false ∧ cctl (.cctlInv a b) true ∧ cctl (.cctlWbinv a b) true

/-- SHFL (R418): D will be brought A of the lane that B chooses within the sub-group; 0 from a finished lane slot. -/
def Obligations.Shuffles : Prop :=
  ∀ (w : ShflWidth) (m : ShflMode) (d a : VField) (b : BOp) (s : State) (c : Cx),
    let i := Instr.shfl w m d a b
    let n := match w with | .w32 => 32 | .w16 => 16 | .w8 => 8 | .w4 => 4
    let src (l : Nat) : Nat :=
      let k := (s.vb c l b).toNat
      let o := l % n
      match m with
      | .idx => l - o + k % n
      | .up => if k ≤ o then l - k else l
      | .down => if o + k < n then l + k else l
      | .xor => l - o + o ^^^ (k % n)
    i.wf = true → s.Ready i c → (∀ l ∈ c.ls, l < 32) →
      (∀ l ∈ c.ls, (c.x.lane (src l)).fin = false → c.x.isPending (src l) (.v a.toNat) = false) →
      ∃ t, exec i s = .next t ∧ IssuedOnly i s c t ∧
        ∀ l ∈ c.ls, Launched i s c t l [l] (dstRegs i c l) [if (c.x.lane (src l)).fin then 0 else s.vreg c (src l) a]

/-! ### Pending registers, closures, completions -/

/-- An access or an engine's query completes (R102, R106, R126): its values land in the registers that still wait for them, and in the closures that
hold their tags, its flag counts down once in each lane, and it is outstanding no more; memory is as it was. An ICINV takes its context's words from
the instruction caches that it reaches, after the stores and releases that come before it (R140, R372). Where an access's data has been lost with its
region, the group will report it, for every lane of an LDU (R116, R206, R384). -/
def Obligations.AccessesComplete : Prop :=
  ∀ (id : Nat) (s : State) (o : MemOp),
    tabGet s.ops id = some o → (tabGet s.groups o.g).isSome = true → (s.group o.g).uid = o.uid → (s.group o.g).Owes o.lane o.dsts →
      o.lanes.Nodup →
    let after (t : State) : Prop :=
      t = { s with groups := t.groups, ops := t.ops, resid := t.resid, cores := t.cores } ∧ (o.icinv = false → t.cores = s.cores) ∧
        tabGet t.ops id = none ∧ ∀ l ∈ o.lanes, ((t.group o.g).lane l).flags = (((s.group o.g).lane l).decFlag o.flag).flags
    (o.engine = false → o.awaits = none → o.remote = none → (o.lost = false ∨ o.dsts = []) → o.vals.length = o.dsts.length →
        (o.icinv = true → s.chainBefore id o = false) →
      ∃ t, exec (.memoryAccessComplete id) s = .next t ∧ after t ∧ Delivered s t o.g o.lane o.dsts o.vals ∧
        (o.icinv = true → ∀ k ∈ o.reach, ∀ a < 2 ^ 64, tabGet (t.core k).icache (icKey o.ctx a) = none)) ∧
    (o.engine = true → ∃ t, exec (.engineCommandComplete id) s = .next t ∧ after t ∧ Delivered s t o.g o.lane o.dsts o.vals) ∧
    (o.lost = true → o.dsts ≠ [] →
      ∃ t, exec (.deferredErrorTrap id) s = .next t ∧ after t ∧
        (∀ d ∈ o.dsts, (t.group o.g).pending o.lane d.1 = none) ∧
        ∃ es, (t.group o.g).lost = (s.group o.g).lost ++ es ∧ es.map (·.lane) = (if o.toUniform then o.lanes else [o.lane]) ∧
          ∀ e ∈ es, e.addr = o.va ∧ e.hdr = o.hdr ∧ e.issue = o.issue)

/-- CLOSURE_RUN and CHAIN_ENTRY_PERFORM (R86, R105, R106, R108, R109, R112, R185, R188): the oldest closure, of the highest PRIO, of a core whose
sources have landed computes and delivers; the oldest entry of a thread's chain performs, the second halves of the thread's B128 stores having
been made (`u`): a store writes its bytes and no others, one of B128 in two halves of which one may come later, a fence nothing, an atomic as at
issue; a load that waited reads, and a read of the fetch unit brings what it found, undefined where its places have been stored to since. That a
half may come later is the model's choice (log 11), and so is what a read may miss (log 12). -/
def Obligations.ClosuresAndEntriesRun : Prop :=
  ∀ (id : Nat) (s : State) (r : Resid),
    tabGet s.resid id = some r → (tabGet s.groups r.g).isSome = true → r.lanes.Nodup →
    let ls := r.lane :: r.lanes.filter fun l => l != r.lane
    let u := ls.foldl (fun t l => t.finishHalves r.g l) s
    let x := s.group r.g
    let gone (t : State) : Prop := tabGet t.resid id = none
    let counted (u t : State) : Prop := ∀ l ∈ r.lanes, ((t.group r.g).lane l).flags = (((u.group r.g).lane l).decFlag r.flag).flags
    let wrote (u t : State) (pa : Nat) (bs : List Byte) : Prop := ∀ p, memByte t.mem p = memByte (memWrite u.mem pa bs) p
    let brings (t : State) (vals : List Word) : Prop :=
      ∃ o, tabGet t.ops id = some o ∧ o.g = r.g ∧ o.lane = r.lane ∧ o.dsts = r.dsts ∧ o.flag = r.flag ∧ o.lanes = r.lanes ∧ o.vals = vals
    (∀ u, Instr.alu r.ins = some u → s.readyClosure (coreOf r.g) = some (id, r) → x.Owes r.lane r.dsts →
      ∃ t, exec (.closureRun id) s = .next t ∧ t = { s with groups := t.groups, ops := t.ops, resid := t.resid } ∧ gone t ∧
        Delivered s t r.g r.lane r.dsts (u.f ⟨r.lane, (s.grid x.grid).pkt.seed, (s.ctx (s.grid x.grid).ctx).lattice⟩ r.values)) ∧
    (∀ pa va bs, r.kind = .half (.phys pa) va bs → (s.team x.team).shadow = none → s.lostAt pa bs.length = false →
      ∃ t, exec (.chainEntryPerform id) s = .next t ∧ gone t ∧ counted s t ∧ t.ops = s.ops ∧ wrote s t pa bs) ∧
    (s.chainReady id r = true →
      (∀ pa n va rel, r.kind = .store (.phys pa) n va rel → (s.team x.team).shadow = none → id < s.nextId →
        let bs := wordsBytes n r.values
        bs.length = n → s.lostAt pa n = false → (n = 16 → pa % 16 = 0) →
        ∃ t, exec (.chainEntryPerform id) s = .next t ∧ gone t ∧
          (wrote u t pa bs ∧ counted u t ∨
            n = 16 ∧ (s.grid x.grid).pkt.det = false ∧ (∀ l ∈ r.lanes, ((t.group r.g).lane l).flags = ((u.group r.g).lane l).flags) ∧
              ∃ a b k q, a + b = 8 ∧ a ∈ [0, 8] ∧ wrote u t (pa + a) ((bs.drop a).take 8) ∧ s.nextId ≤ k ∧ tabGet t.resid k = some q ∧
                q.g = r.g ∧ q.lane = r.lane ∧ q.lanes = r.lanes ∧ q.flag = r.flag ∧
                q.kind = .half (.phys (pa + b)) (va + b) ((bs.drop b).take 8))) ∧
      (∀ full, r.kind = .fence full →
        ∃ t, exec (.chainEntryPerform id) s = .next t ∧ gone t ∧ counted u t ∧ t.mem = u.mem ∧ t.ops = u.ops) ∧
      (∀ after loc n va, r.kind = .load after loc n va → n = readBytes r.ins →
        ∃ t bs, exec (.chainEntryPerform id) s = .next t ∧ gone t ∧ t.mem = u.mem ∧
          u.mayRead r.ins r.g ls loc (u.loadBytes x.team va loc n) bs ∧ brings t ((loadSize r.ins).extend bs)) ∧
      (∀ after vals ps since, r.kind = .read after vals ps since →
        ∃ t ws, exec (.chainEntryPerform id) s = .next t ∧ gone t ∧ t.mem = u.mem ∧ brings t ws ∧ ws.length = vals.length ∧
          (ws = vals ∨ ∃ p ∈ ps, u.moments p.loc p.len since ≠ [])) ∧
      (∀ pa va, r.kind = .atomic (.phys pa) va → (s.team x.team).shadow = none →
        let n := atomBytes r.ins
        s.lostAt pa n = false →
        ∃ t old, exec (.chainEntryPerform id) s = .next t ∧ gone t ∧
          (old = memNat u.mem pa n ∨
            ∃ e ∈ u.syncsOf (.phys pa) n, u.misses r.g [r.lane] r.ins e = true ∧ old = e.prev % 2 ^ (8 * n)) ∧
          (match atomResult r.ins old r.values with
            | some v => wrote u t pa (leBytes n v)
            | none => ∀ p, memByte t.mem p = memByte u.mem p) ∧
          (if r.dsts = [] then counted u t else brings t (if n = 8 then pairWords old else [BitVec.ofNat 32 old]))))

/-- In a DEFER clause an instruction whose source is pending is captured (R104, R105, R114): the thread goes on, the registers it names as
destinations are pending under new tags, no register is written, and the closure holds the values and tags of its sources. Elsewhere it
parks, as one whose destination is owed a write always does (R44, R103, R107): registers, memory and the thread's place are as they were. -/
def Obligations.PendingRegisters : Prop :=
  ∀ (i : Instr) (u : Alu) (s : State) (c : Cx), Instr.alu i = some u → s.Acts c →
    (i.wf = true → u.parks = false →
      (∀ l ∈ c.ls, hDefer (c.x.lane l).hword = true ∧ u.srcs.any (c.x.isPending l) = true ∧ u.firm.any (c.x.isPending l) = false ∧
        s.budgeted c.g l < s.residBudget c.x ∧ (dstRegs i c l).Nodup) →
      ∃ t, exec i s = .next t ∧ Passed i c t ∧ t.mem = s.mem ∧
        (∀ id, ∃ st, tabGet t.ops id = (tabGet s.ops id).map fun o => { o with stale := o.stale ++ st }) ∧
        (∀ l ∈ c.ls, ∃ id r, s.nextId ≤ id ∧ tabGet t.resid id = some r ∧ r.g = c.g ∧ r.lane = l ∧ r.ins = i ∧ r.kind = .alu ∧
          r.srcs = u.srcs.map (s.captureOpd c.x l) ∧ r.dsts.map (·.1) = dstRegs i c l) ∧
        ∀ l ∈ c.ls, ((t.group c.g).lane l).regs = (c.x.lane l).regs ∧ ((t.group c.g).lane l).preds = (c.x.lane l).preds ∧
          ∀ d ∈ dstRegs i c l, ∃ n, s.nextId ≤ n ∧ (t.group c.g).pending l d = some n) ∧
    (((∀ l ∈ c.ls, hDefer (c.x.lane l).hword = false ∧ (u.srcs ++ u.firm).any (c.x.isPending l) = true) ∨
        ∀ l ∈ c.ls, u.srcs.any (c.x.isPending l) = false ∧ u.dsts.any (c.x.isPending l) = true) →
      ∃ t, exec i s = .next t ∧ t = { s with groups := t.groups, cores := t.cores } ∧ (∀ g, g ≠ c.g → tabGet t.groups g = tabGet s.groups g) ∧
        tabGet t.groups c.g = some { c.x with lanes := (t.group c.g).lanes } ∧
        (∀ l, l ∉ c.ls → tabGet (t.group c.g).lanes l = tabGet c.x.lanes l) ∧
        ∀ l ∈ c.ls, (t.group c.g).lane l = { c.x.lane l with park := .retry, stamp := s.clock })

/-! ### Fetch unit, engines, matrix port -/

/-- FETCH, FQRY and TEX (R109, R191, R200, R242, R243, R364, R367, R428): the handle's fields as stored; the border outside the extents, and an
element of a flat handle; four canonical NaNs for a coordinate that is NaN. A lane whose chain holds an entry of bytes that it reads, an acquire or
a FENCE.FULL is captured behind it. -/
def Obligations.FetchUnit : Prop :=
  ∀ (d : VField) (a : SField) (b : VField) (sel : BitVec 7) (s : State) (c : Cx) (pa : Nat),
    let h := (s.upair c a).toNat
    let f := c.fetcher s
    let lat := (s.ctx c.gr.ctx).lattice
    let hd := memRead s.mem pa 64
    let at' (ofs n : Nat) : Nat := memNat s.mem (pa + ofs) n
    let brings (i : Instr) (n : Nat) (w : Nat → List Word) : Prop :=
      i.wf = true → s.Ready i c → (∀ l ∈ c.ls, s.chain c.g l = [] ∨ s.room c l = true) →
      ∃ t, exec i s = .next t ∧ IssuedOnly i { s with resid := t.resid } c t ∧ (∀ id, id < s.nextId → tabGet t.resid id = tabGet s.resid id) ∧
        ∀ l ∈ c.ls, dstRegs i c l = c.regs l d n ∧
          (Launched i s c t l [l] (c.regs l d n) (w l) ∨
            ∃ e q ps id r, (e, q) ∈ s.chain c.g l ∧ (q.acquires = true ∨ ∃ p ∈ ps, q.holds p.loc p.len = true) ∧ s.nextId ≤ id ∧
              tabGet t.resid id = some r ∧ r.g = c.g ∧ r.lane = l ∧ r.lanes = [l] ∧ r.ins = i ∧ r.flag = (c.x.lane l).flagOf i ∧
              r.kind = .read [e] (w l) ps s.clock ∧ r.dsts.map (·.1) = c.regs l d n ∧ ∀ v ∈ r.dsts, (t.group c.g).pending l v.1 = some v.2)
    let nan : List Word := List.replicate 4 0x7FC00000
    h % 64 = 0 → s.xlate c.who .load h 64 = .ok pa → (∀ k < 64, s.storedAt (pa + k) ≤ f.start) →
    (sel.toNat < 8 → brings (.fqry d a sel) 1 fun _ => [BitVec.ofNat 32
      (if sel = 0 then at' 0 4 else if sel = 1 then at' 4 4 else if sel = 2 then at' 8 4 else if sel = 3 then at' 0x10 4
        else if sel = 4 then at' 0x14 4 else if sel = 5 then at' 0x18 4 else if sel = 6 then at' 0x1C 4 else (at' 0x10 4 + 63) / 64)]) ∧
    (∀ w : Nat → Word,
      (∀ l ∈ c.ls, (s.fetchElem f lat hd (s.vreg c l b).toNat (s.vreg c l (b + 1)).toNat (s.vreg c l (b + 2)).toNat).gives (w l)) →
      brings (.fetch d a b) 1 fun l => [w l]) ∧
    (∀ x y z, handleOk hd = true → at' 0x10 4 ≤ x → (s.fetchElem f lat hd x y z).gives (BitVec.ofNat 32 (at' 0x1C 4))) ∧
    (∀ x q, handleOk hd = true → at' 8 3 = 0x10400 → x < at' 0x10 4 → (at' 0 8 + 4 * x) % 4 = 0 → at' 0 8 + 4 * x < 2 ^ 64 →
      s.xlate c.who .load (at' 0 8 + 4 * x) 4 = .ok q → (∀ k < 4, s.storedAt (q + k) ≤ f.start) →
      (s.fetchElem f lat hd x 0 0).gives (BitVec.ofNat 32 (memNat s.mem q 4))) ∧
    (∀ w : Nat → List Word, (∀ l ∈ c.ls, (w l).length = 4 ∧
      (if at' 0 1 = 7 then s.texNeural f hd (s.vreg c l b) (s.vreg c l (b + 1))
        else s.texPlain f hd (s.vreg c l b) (s.vreg c l (b + 1))).gives (w l)) → brings (.tex d a b) 4 w) ∧
    (∀ u v, asFp u = .nan ∨ asFp v = .nan →
      (samplerOk hd = true → (s.texPlain f hd u v).gives nan) ∧ (neuralOk hd = true → (s.texNeural f hd u v).gives nan))

/-- The stage rings (R176, R410, R411, Table 7.9): an acquired slot's number and phase go to every active lane; a slot that is published or
freed in order moves its cursor; one in any other state raises ORDER and changes nothing. -/
def Obligations.StageRings : Prop :=
  ∀ (d a : VField) (ring : BitVec 4) (s : State) (c : Cx) (k : Nat) (r : Ring),
    let tm := c.x.team
    let id := ring.toNat
    let own := s.ownSlice c = k ∧ s.ring? tm k id = some r
    let ring' (t : State) : Option Ring := t.ring? tm k id
    let kept (t : State) : Prop :=
      t = { s with groups := t.groups, teams := t.teams, order := t.order } ∧ (∀ g, g ≠ c.g → tabGet t.groups g = tabGet s.groups g) ∧
        ∀ x j n, (x ≠ tm ∨ j ≠ k ∨ n ≠ id) → t.ring? x j n = s.ring? x j n
    let slot := (s.vreg c c.l0 a).toNat % 64
    let turned (i : Instr) : Prop := ∃ t, exec i s = .next t ∧ t = { s with groups := t.groups } ∧
      (t.group c.g).trap = some (s.trapped c.x (c.ls.map fun l => (l, .order, 0)) c.y0.pc c.y0.hdr)
    own → (s.team tm).shadow = none →
    (s.Ready (.sacqFree d ring) c → 0 < r.free →
      ∃ t, exec (.sacqFree d ring) s = .next t ∧ kept t ∧ Passed (.sacqFree d ring) c t ∧
        ring' t = some { r with free := r.free - 1, pi := (r.pi + 1) % r.n, states := tabSet r.states r.pi 1 } ∧
        ∀ l ∈ c.ls, t.vreg c l d = BitVec.ofNat 32 (r.pi + if r.phase r.pi then 256 else 0)) ∧
    (s.Ready (.sacqFilled d ring) c → 0 < r.filled →
      ∃ t, exec (.sacqFilled d ring) s = .next t ∧ kept t ∧ Passed (.sacqFilled d ring) c t ∧
        ring' t = some { r with filled := r.filled - 1, ci := (r.ci + 1) % r.n, states := tabSet r.states r.ci 4 } ∧
        ∀ l ∈ c.ls, t.vreg c l d = BitVec.ofNat 32 (r.ci + if r.phase r.ci then 256 else 0)) ∧
    (s.Ready (.spub a ring) c → slot < r.n →
      (r.state slot = 1 → r.pc ≠ slot → r.state r.pc ≠ 2 → ∃ t, exec (.spub a ring) s = .next t ∧ kept t ∧ Passed (.spub a ring) c t ∧
        ring' t = some { r with states := tabSet r.states slot 2 }) ∧
      (r.state slot = 1 → r.pc = slot → r.state ((slot + 1) % r.n) ≠ 2 → 1 < r.n →
        ∃ t, exec (.spub a ring) s = .next t ∧ kept t ∧ Passed (.spub a ring) c t ∧
          ∃ q, ring' t = some q ∧ q.filled = r.filled + 1 ∧ q.pc = (slot + 1) % r.n ∧ q.state slot = 3 ∧ q.phase slot = !r.phase slot) ∧
      (r.state slot ≠ 1 → turned (.spub a ring))) ∧
    (s.Ready (.sfree a ring) c → slot < r.n →
      (r.state slot = 4 → r.fc ≠ slot → r.state r.fc ≠ 5 → ∃ t, exec (.sfree a ring) s = .next t ∧ kept t ∧ Passed (.sfree a ring) c t ∧
        ring' t = some { r with states := tabSet r.states slot 5 }) ∧
      (r.state slot = 4 → r.fc = slot → r.state ((slot + 1) % r.n) ≠ 5 → 1 < r.n →
        ∃ t, exec (.sfree a ring) s = .next t ∧ kept t ∧ Passed (.sfree a ring) c t ∧
          ∃ q, ring' t = some q ∧ q.free = r.free + 1 ∧ q.fc = (slot + 1) % r.n ∧ q.state slot = 0) ∧
      (r.state slot ≠ 4 → turned (.sfree a ring)))

/-- CPY, CHAIN and COLL (R333, R334, R338, R343): where the record and its ranges are as they should be, the command joins its engine, once
for the set. COPY_COMMAND_COMPLETE and COLLECTIVE_COMPLETE (R126, R194, R339, R344): the oldest command writes its destination and leaves; of
words stored to after the thread's last FENCE.ASYNC or release it may have read the values before any of those stores. That the values are those
that memory has held, and none of a racing store's parts, is the model's choice (log 12). -/
def Obligations.CopyEngine : Prop :=
  ∀ (a : SField) (s : State) (c : Cx) (r : List Byte) (src src2 dst peers : List Piece),
    let h := (s.upair c a).toNat
    let core := coreOf c.g
    let queued (i : Instr) (w : CopyWork) : Prop :=
      ∃ t, exec i s = .next t ∧ CommandedOnly i s c t ∧ (t.core core).copyq = (s.core core).copyq ++ [⟨s.nextId, s.ownerOf c i, w⟩] ∧
        ∀ k, k ≠ core → t.core k = s.core k
    let room := (s.core core).copyq.length < Config.copyQueue
    let ring := if bitAt (fld r 0x28 1) 2 then some (fld r 0x29 1) else none
    (s.Ready (.cpy a) c → s.readRecord c (.cpy a) h 64 = .ok r → s.copySides c r = .ok (src, dst) → room →
      copyOk r (s.ring? c.x.team (s.ownSlice c) (fld r 0x29 1)) = true → queued (.cpy a) (.copy src dst ring)) ∧
    (s.Ready (.chain a) c → s.readRecord c (.chain a) h 128 = .ok r → s.chainSides c.who r = .ok (src, src2, dst) → room → chainOk r = true →
      queued (.chain a) (.chain r src src2 dst)) ∧
    (s.Ready (.coll a) c → s.readRecord c (.coll a) h 64 = .ok r → s.collSides c.who r = .ok (peers, src, dst) → s.colls.length < 256 →
      collOk r = true →
      ∃ t, exec (.coll a) s = .next t ∧ CommandedOnly (.coll a) s c t ∧
        tabGet t.colls s.nextId = some (s.collOf c a r peers src dst)) ∧
    (∀ k q rest x y n, (s.core k).copyq = q :: rest → q.work = .copy [⟨x, .phys x, n⟩] [⟨y, .phys y, n⟩] none →
      (x + n ≤ y ∨ y + n ≤ x) → s.lostAt x n = false → s.lostAt y n = false →
      ∃ t, exec (.copyCommandComplete k) s = .next t ∧ (t.core k).copyq = rest ∧
        (∀ p, ¬ (y ≤ p ∧ p < y + n) → memByte t.mem p = memByte s.mem p) ∧
        let floor := q.own.async.getD 0
        (∀ j < n, memByte t.mem (y + j) = memByte s.mem (x + j) ∨
          ∃ e ∈ tabGetD s.stored (x + j) [], floor < e.1 ∧ memByte t.mem (y + j) = e.2) ∧
        ∀ k, x % 4 = 0 → 4 * k + 4 ≤ n → memRead t.mem (y + 4 * k) 4 = memRead s.mem (x + 4 * k) 4 ∨
          ∃ time ∈ s.moments (.phys (x + 4 * k)) 4 floor, memRead t.mem (y + 4 * k) 4 = s.before (.phys (x + 4 * k)) 4 time) ∧
    (∀ id q ps, tabGet s.colls id = some q → (∀ e ∈ s.colls, e.1 < id → fld e.2.record 0x28 4 ≠ fld q.record 0x28 4) →
      ps.length = fld q.record 4 2 → ∃ t, exec (.collectiveComplete id ps) s = .next t ∧ tabGet t.colls id = none ∧
        ∀ y n, q.dst = [⟨y, .phys y, n⟩] → s.lostAt y n = false → collsAgree q.record q.peers s.flash.device ps = true →
          let e := elemBytes (fld q.record 2 1)
          let sum := collResult q.record ((collSources q.record (s.engineBytes q.since q.src) ps).map (elems e))
          ∀ p, memByte t.mem p = memByte (memWrite s.mem y ((sum.flatMap (leBytes e)).take n)) p)

/-- The matrix port (R230-R236, R311, R342, R385, R393, R394, R415, R430): a command whose operands are as its rule asks joins the port of its
core with the operands as read, a pair command also the port of the partner; it reads and writes nothing yet. -/
def Obligations.MatrixCommands : Prop :=
  ∀ (f : MatFmt) (d a : AField) (u : TField) (x y : SField) (b : BOp) (s : State) (c : Cx),
    let core := coreOf c.g
    let size := s.sliceBytes c
    let acc (k : AField) : Nat := s.rowsAhead core c.x.team (s.ownSlice c) (true, k.toNat)
    let tile := s.rowsAhead core c.x.team (s.ownSlice c) (false, u.toNat)
    let reg (r : SField) : Nat := (s.ureg c r).toNat
    let lit := (s.ub c b).toNat
    let rows (n : Nat) : Prop := 16 ≤ n ∧ n ≤ 256 ∧ n % 16 = 0
    let joins (i : Instr) (args : List Nat) : Prop :=
      ∃ t m, exec i s = .next t ∧ CommandedOnly i s c t ∧ (t.core core).mport = (s.core core).mport ++ [m] ∧ m.ins = i ∧ m.args = args ∧
        m.own = s.ownerOf c i ∧ m.slice = s.ownSlice c ∧ m.pair = false ∧ ∀ k, k ≠ core → t.core k = s.core k
    let paired (i : Instr) (args : List Nat) : Prop :=
      ∃ t m n, exec i s = .next t ∧ CommandedOnly i s c t ∧ (t.core core).mport = (s.core core).mport ++ [m] ∧
        (t.core (core + 1)).mport = (s.core (core + 1)).mport ++ [n] ∧ m.ins = i ∧ m.args = args ∧ m.own = s.ownerOf c i ∧ m.pair = true ∧
        m.follower = false ∧ n.ins = i ∧ n.id = m.id ∧ n.follower = true ∧ ∀ k, k ≠ core → k ≠ core + 1 → t.core k = s.core k
    let depth := match f with | .bf16 | .fp16 => 32 | .fp8e4 | .fp8e5 | .int8 => 64 | .vq2 => 128
    let width := match f with | .bf16 | .fp16 => 2 | _ => 1
    let window := reg x % 128 < (if f = .vq2 then 4 else 1) ∧ reg x / 128 * 128 + depth * 64 * width ≤ 0x200000
    let pair := core % 2 = 0 ∧ (s.team c.x.team).cores.contains (core + 1) = true ∧
      s.rowsAhead (core + 1) c.x.team ((s.team c.x.team).cores.findIdx fun k => k == core + 1) (true, d.toNat) = tile
    (window → tile ≠ 0 → acc d = tile →
      (s.Ready (.mma true f d u x) c → joins (.mma true f d u x) [reg x]) ∧
      (s.Ready (.mmasp true f d u x) c → joins (.mmasp true f d u x) [reg x]) ∧
      (s.Ready (.mma false f d u x) c → pair → paired (.mma false f d u x) [reg x]) ∧
      (s.Ready (.mmasp false f d u x) c → pair → paired (.mmasp false f d u x) [reg x])) ∧
    (s.Ready (.conv d x y) c → reg x % 64 = 0 → reg y % 128 = 0 → reg x + 64 ≤ size →
      (let r := s.portBytes (s.sliceOf c.x.team (s.ownSlice c)) (s.portCmd c (.conv d x y) [reg x, reg y]) (reg x) 64
       let z := shapeOf r
       shapeOk r = true → z.inSlice size = true → reg y + z.r * z.s * z.c * 64 * matBytes (matFmtOf z.fmt) ≤ 0x200000 → acc d = z.m →
         joins (.conv d x y) [reg x, reg y])) ∧
    (s.Ready (.scacc d a x) c → acc d = acc a → acc d ≠ 0 → reg x % 64 = 0 → reg (x + 1) < 8 → x.toNat % 2 = 0 →
      reg x + 1024 + 256 ≤ size → acc d ≤ 256 → joins (.scacc d a x) [reg x, reg (x + 1)]) ∧
    (s.Ready (.aclr d b) c → rows lit → joins (.aclr d b) [lit]) ∧
    (s.Ready (.ald d x b) c → rows lit → reg x % 256 = 0 → reg x < 2 ^ 31 → reg x + 256 * lit ≤ size → joins (.ald d x b) [reg x, lit]) ∧
    (s.Ready (.astFp32 d x) c → reg x % 256 = 0 → reg x < 2 ^ 31 → (acc d = 0 ∨ reg x + 256 * acc d ≤ size) → joins (.astFp32 d x) [reg x]) ∧
    (s.Ready (.astBf16 d x) c → reg x % 128 = 0 → reg x < 2 ^ 31 → (acc d = 0 ∨ reg x + 128 * acc d ≤ size) → joins (.astBf16 d x) [reg x]) ∧
    (s.Ready (.tld u x b) c → rows (lit % 2 ^ 9) → lit / 2 ^ 9 % 2 ^ 22 = 0 → reg x % 64 = 0 → reg x < 2 ^ 31 →
      reg x + (if lit / 2 ^ 31 = 1 then 80 else 64) * (lit % 2 ^ 9) ≤ size → joins (.tld u x b) [reg x, lit]) ∧
    (s.Ready (.mwait d) c → joins (.mwait d) [])

/-- OPRDY and MATRIX_COMMAND_COMPLETE (R232, R234, R236, R237, R239, R311, R394, R446). OPRDY completes and changes no byte; on the slices of its pair
it readies, for each lane's thread, the bytes whose latest write happens-before the lane's OPRDY (as far as the model keeps that, log 16), those that
the thread wrote itself among them, and no byte else. A command completes once no earlier one of its port names a register of its own: ACLR leaves
zero rows, ALD the words of the slice, AST the words of the accumulator; an INT8 MMA adds exact sums. -/
def Obligations.MatrixResults : Prop :=
  ∀ (s : State) (c : Cx) (m : MatCmd),
    let core := s.portOf m.id
    let tm := m.own.team
    let x := s.sliceOf tm m.slice
    let acc (t : State) (d : AField) : Accum := (t.sliceOf tm m.slice).acc d.toNat
    let readied (ofs n : Nat) : Prop := ∀ k < n, ∃ b th r u, tabGet x.bytes (ofs + k) = some b ∧ b.wrote ≤ m.since ∧ (th, r) ∈ b.ready ∧
      tabGet m.know th = some u ∧ r ≤ u
    let completes (p : State → Prop) : Prop :=
      ∃ t, exec (.matrixCommandComplete m.id) s = .next t ∧ (t.core core).mport = (s.core core).mport.filter (fun e => e.id != m.id) ∧
        t.mem = s.mem ∧ p t
    let bytes (t : State) (k : Nat) : Tab SByte := ((t.slice? c.x.team k).getD {}).bytes
    let near (k : Nat) : Prop := (s.team c.x.team).cores.getD k Config.cores / 2 = coreOf c.g / 2
    let before (l : Nat) (b : SByte) : Prop := ∃ w ∈ b.writers, ∃ u, tabGet (s.seenBy c.g l) w = some u ∧ b.wrote ≤ u
    (s.Ready .oprdy c → ∃ t, exec .oprdy s = .next t ∧ Passed .oprdy c t ∧
      t = { s with groups := t.groups, ops := t.ops, nextId := t.nextId, teams := t.teams } ∧ (∀ k i p, t.spadByte k i p = s.spadByte k i p) ∧
      ∀ k p b, tabGet (bytes s k) p = some b → ∃ q, tabGet (bytes t k) p = some q ∧ q = { b with ready := q.ready } ∧
        (∀ l ∈ c.ls, near k → before l b → (tabGet q.ready (s.thread c.g l)).isSome = true) ∧
        (∀ l ∈ c.ls, s.thread c.g l ∈ b.writers → b.wrote ≤ s.clock → before l b) ∧
        ((¬ near k ∨ ∀ l ∈ c.ls, ¬ before l b) → q.ready = b.ready)) ∧
    (s.portFree core m.id = some m → completes fun t =>
      t = { s with teams := t.teams, cores := t.cores, groups := t.groups, order := t.order }) ∧
    (s.portFree core m.id = some m → m.pair = false → (s.slice? tm m.slice).isSome = true →
      (∀ d b r, m.ins = .aclr d b → m.args = [r] → completes fun t => acc t d = ⟨r, List.replicate (64 * r) 0⟩) ∧
      (∀ d u b p r, m.ins = .ald d u b → m.args = [p, r] → readied p (256 * r) →
        completes fun t => (acc t d).rows = r ∧ ∀ k < 64 * r, (acc t d).cells[k]? =
          some (BitVec.ofNat 32 (leNat ((List.range 4).map fun j => x.byte (p + 4 * k + j))))) ∧
      (∀ d u p, m.ins = .astFp32 d u → m.args = [p] → completes fun t => ∀ k < (acc s d).cells.length, ∀ j < 4, ¬ s.unwaited tm m.slice (p + 4 * k + j) →
        t.spadByte tm m.slice (p + 4 * k + j) = BitVec.ofNat 8 (((acc s d).cells.getD k 0).toNat / 2 ^ (8 * j))) ∧
      (∀ d u p, m.ins = .astBf16 d u → m.args = [p] → completes fun t => ∀ k < (acc s d).cells.length, ∀ j < 2, ¬ s.unwaited tm m.slice (p + 2 * k + j) →
        t.spadByte tm m.slice (p + 2 * k + j) = BitVec.ofNat 8 (bf16.round .rne (asFp ((acc s d).cells.getD k 0)) / 2 ^ (8 * j))) ∧
      (∀ d u p w, m.ins = .mma true .int8 d u p → m.acc = d.toNat → m.window = [(w, 4096)] → readied w 4096 →
        (x.tile u.toNat).bytes.length = 64 * (x.tile u.toNat).rows → (acc s d).rows = (x.tile u.toNat).rows →
        (acc s d).cells.length = 64 * (acc s d).rows →
        completes fun t => ∀ i < (acc s d).rows, ∀ j < 64,
          (acc t d).cells.getD (64 * i + j) 0 = (acc s d).cells.getD (64 * i + j) 0 +
            BitVec.ofInt 32 (((List.range 64).map fun k =>
              ((x.tile u.toNat).bytes.getD (64 * i + k) 0).toInt * (x.byte (w + 64 * k + j)).toInt).sum)))

/-! ### Work from the device -/

/-- SPAWN and BINFLUSH (R56, R57, R60, R61, R320, R422): an item joins the open bin of its entry, or opens the lowest free bin of the core; under
DET it joins its parent team's list and 16 bytes of the grid's spill region, which bytes and in what order being the model's choice (log 58).
BINFLUSH closes the grid's bins on the core; under DET its lanes wait for the team's flush point, which comes when every lane of the team and of its
bin groups waits so: the lists are packed and the lanes go on. -/
def Obligations.SpawnBins : Prop :=
  ∀ (a : VField) (b : BOp) (s : State) (c : Cx) (l : Nat),
    let i := Instr.spawn a b
    let core := coreOf c.g
    let entry := s.vpair c l a
    let item : Item := ⟨entry, s.vb c l b, (c.x.lane l).spawnIdx, (c.x.lane l).spawnSeq⟩
    let bins := (s.core core).bins
    let parent := s.parentOf c.x.team
    let staged (t : State) : Nat := (t.teams.map fun e => if e.2.grid = c.x.grid then e.2.staging.length else 0).sum
    let spawned (t : State) : Prop := Passed i c t ∧ ((t.group c.g).lane l).spawnSeq = (c.x.lane l).spawnSeq + 1
    let binned (t : State) : Prop := spawned t ∧ t = { s with groups := t.groups, cores := t.cores }
    (i.wf = true → s.Ready i c → c.ls = [l] → entry.toNat % 4 = 0 →
      (∀ k q, c.gr.pkt.det = false → (bins.filter fun e => e.1 < 32).find? (fun e => e.2.grid == c.x.grid && e.2.entry == entry) = some (k, q) →
        q.closed = false → q.items.length < 32 →
        ∃ t, exec i s = .next t ∧ binned t ∧
          tabGet (t.core core).bins k = some { q with items := q.items ++ [item], closed := q.items.length = 31 }) ∧
      (∀ k, c.gr.pkt.det = false → (∀ e ∈ bins, e.1 < 32 → e.2.grid = c.x.grid → e.2.entry ≠ entry) → k < 32 → tabGet bins k = none →
        (∀ j < k, (tabGet bins j).isSome = true) →
        ∃ t, exec i s = .next t ∧ binned t ∧
          tabGet (t.core core).bins k = some { grid := c.x.grid, team := c.x.team, entry := entry, items := [item], timer := s.clock }) ∧
      (c.gr.pkt.det = true → (tabGet s.teams parent).isSome = true →
        ∃ t, exec i s = .next t ∧ spawned t ∧ (t.team parent).staging = (s.team parent).staging ++ [item] ∧
          t = { s with
            groups := t.groups, cores := t.cores, teams := t.teams, mem := t.mem, stored := t.stored, leases := t.leases
            hostLines := t.hostLines } ∧
          match s.xlateAll c.who .store (c.stagedAt (staged t - 1)) 16 with
          | .error _ => t.mem = s.mem
          | .ok ps => ∀ p, (∀ q ∈ ps, ∀ pa, q.loc = .phys pa → p < pa ∨ pa + q.len ≤ p) → memByte t.mem p = memByte s.mem p)) ∧
    (s.Ready .binflush c → c.gr.pkt.det = false →
      ∃ t, exec .binflush s = .next t ∧ Passed .binflush c t ∧ t = { s with groups := t.groups, cores := t.cores } ∧
        (t.core core).bins = tabMap bins fun _ q => if q.grid = c.x.grid then { q with closed := true } else q) ∧
    (s.Ready .binflush c → c.gr.pkt.det = true →
      let come : Prop := (∀ g ∈ s.familyOf parent, ∀ k ∈ (s.group g).live, (g = c.g ∧ k ∈ c.ls) ∨ ((s.group g).lane k).park = .flush) ∧
        s.packsWait parent = false ∧ ∀ e ∈ s.teams, s.parentOf e.1 = parent → e.2.savedLive = false
      ∃ t, exec .binflush s = .next t ∧ t = { s with groups := t.groups, cores := t.cores, teams := t.teams } ∧
        (come → Passed .binflush c t ∧ (t.team parent).staging = []) ∧
        (¬ come → t.teams = s.teams ∧
          LanesOnly { s with cores := t.cores } c t fun _ y => { y with park := .flush, stamp := s.clock, irrev := true }))

/-- ENQ, DEQ and the counter instructions, for an issue set of one lane (R76, R77, R295, R346, R348, R351): a slot and its index are written, or read
and passed; DEPADD and DEPDEC move a counter, an armed one that reaches zero is fired, and DEPSET arms. No lower lane of the set waits at the word, or
it would hold the lane back. -/
def Obligations.QueuesAndCounters : Prop :=
  ∀ (d a : VField) (b : BOp) (blocking : Bool) (s : State) (c : Cx) (l : Nat),
    let id := (s.vreg c l d).toNat
    let n := (s.vb c l b).toNat
    let k := s.counter id
    let x := s.queue id
    c.ls = [l] → c.heldBelow l = false →
    (let i := Instr.enq d a;
      i.wf = true → s.Ready i c → id < 64 → x.en = true → x.device = true → x.ctxid = c.gr.ctx → x.w - x.r < x.slots → x.hold = [] →
        s.ringFail id x.w .store = [none, none] → (x.task = true → a.toNat % 4 = 0 ∧ s.vreg c l a ≠ 0 ∧ (v4 a).any (c.x.isPending l) = false) →
        ∀ bs v, s.enqBytes c l id a = .ok bs → s.pushSlot id bs = .ok v →
          ∃ t, exec i s = .next t ∧ Passed i c t ∧ t.mem = v.mem ∧ (t.queue id).w = x.w + 1 ∧ (t.queue id).r = x.r) ∧
    (let i := Instr.deq blocking a d;
      i.wf = true → s.Ready i c → id < 64 → x.en = true → x.task = true → x.ctxid = c.gr.ctx →
        (∀ bs v, x.r < x.w → s.ringFail id x.r .load = [none, none] → s.readVa x.who (x.slotAddr x.r) 16 = .ok bs →
          s.putVa x.who (x.field 8 8 + 0x80) (leBytes 8 (x.r + 1)) = .ok v →
          ∃ t, exec i s = .next t ∧ Passed i c t ∧ t.mem = v.mem ∧ (t.queue id).r = x.r + 1 ∧
            Launched i s c t l [l] (dstRegs i c l) ((List.range 4).map fun j => BitVec.ofNat 32 (fld bs (4 * j) 4))) ∧
        (x.w ≤ x.r → blocking = false →
          ∃ t, exec i s = .next t ∧ Passed i c t ∧ t.mem = s.mem ∧ t.queues = s.queues ∧ Launched i s c t l [l] (dstRegs i c l) [0, 0, 0, 0])) ∧
    (let i := Instr.depadd d b;
      s.Ready i c → id < 2 ^ 16 → k.value + n < 2 ^ 32 →
        ∃ t, exec i s = .next t ∧ Passed i c t ∧ t.mem = s.mem ∧ t.queues = s.queues ∧ ∃ w, t.counter id = { k with value := k.value + n, know := w }) ∧
    (let i := Instr.depdec d b;
      s.Ready i c → id < 2 ^ 16 → k.value < 2 ^ 32 →
        (n ≤ k.value → (k.armed = false ∨ n < k.value ∨ k.value = 0) →
          ∃ t, exec i s = .next t ∧ Passed i c t ∧ t.mem = s.mem ∧ t.queues = s.queues ∧
            ∃ w, t.counter id = { k with value := k.value - n, know := w }) ∧
        (n = k.value → k.armed = true → 0 < n →
          ∃ t, exec i s = .next t ∧ Passed i c t ∧ (t.counter id).armed = false ∧ (t.counter id).value = 0)) ∧
    (let i := Instr.depset d a b;
      let q := s.queue (id / 2 ^ 16)
      ∀ bs, i.wf = true → s.Ready i c → id < 2 ^ 22 → (s.vpair c l a).toNat % 128 = 0 → 0 < n → (s.counter (id % 2 ^ 16)).armed = false →
        s.readVa c.who (s.vpair c l a).toNat 128 = .ok bs → q.en = true → q.task = false → q.device = true →
        q.ctxid = c.gr.ctx →
        ∃ t, exec i s = .next t ∧ Passed i c t ∧ t.mem = s.mem ∧ t.queues = s.queues ∧
          ∃ w, t.counter (id % 2 ^ 16) = ⟨n, true, (s.vpair c l a).toNat, some (id / 2 ^ 16), bs, c.who.sys, s.clock, w⟩)

/-- The combine instructions, for an issue set of one lane (R281, R285, R286, R290, R335, R337): CMBOPEN opens the slot whose id it gives, an
arrival is staged, in the combine region too, where in it being the model's choice (log 59), CMBSTAT tells of it, CMBCLOSE and CMBCANCEL release an
OPEN slot, and an id that is stale has no effect. -/
def Obligations.CombineSlots : Prop :=
  ∀ (d a : VField) (blocking : Bool) (s : State) (c : Cx) (l : Nat),
    let ctx := c.gr.ctx
    let id := (s.vreg c l a).toNat
    let coop (t : State) (die : Nat) : Cooper := (t.ctx ctx).coop die
    c.ls = [l] → (tabGet s.ctxs ctx).isSome = true →
    (let i := Instr.cmbopen blocking d a;
      ∀ bs k, i.wf = true → s.Ready i c → s.chain c.g l = [] → c.heldBelow l = false → s.openChecks c blocking a l = none → s.slotDesc c l a = .ok bs →
        (coop s (dieOf (coreOf c.g))).freeIndex (fld bs 6 1) (fld bs 4 2) = some k →
        ∃ t, exec i s = .next t ∧ Passed i c t ∧ t.mem = s.mem ∧
          t.vreg c l d = BitVec.ofNat 32 (slotId (dieOf (coreOf c.g)) (tabGetD (coop s (dieOf (coreOf c.g))).gens k 0) k) ∧
          tabGet (coop t (dieOf (coreOf c.g))).slots k = some (slotOf bs c.x.grid c.gr.pkt.sys s.clock)) ∧
    (let i := Instr.cmbput d a;
      let sid := (s.vreg c l d).toNat
      let ctl := (s.vreg c l (d + 1)).toNat
      let src := (s.vpair c l a).toNat
      let die := sid / 2 ^ 28
      let run := s.putRun c.who 9 src 32768
      ∀ y p, i.wf = true → s.Ready i c → src % 16 = 0 → (∃ ps, s.xlateAll c.who .load src (min 16 (4096 - src % 4096)) = .ok ps) →
        ctl < 2 ^ 8 → die ≤ 3 → (coop s die).current sid = some y → y.st = .opened → y.experts.findIdx (fun e => e == ctl) = p →
        p < y.experts.length → bitAt y.arrived p = false → 2 * y.width ≤ run.length → y.arrived + 2 ^ p ≠ 2 ^ y.experts.length - 1 →
        let pa := (coop s die).stagedAt die (sid % 2 ^ 16) y p
        let bs := run.take (2 * y.width)
        ∃ t, exec i s = .next t ∧ Passed i c t ∧
          (∀ q, memByte t.mem q = memByte (if inKind 0 pa (2 * y.width) = true ∧ homeOf pa = die then memWrite s.mem pa bs else s.mem) q) ∧
          ∃ w, tabGet (coop t die).slots (sid % 2 ^ 16) =
            some { y with arrived := y.arrived + 2 ^ p, staged := tabSet y.staged p bs, know := w }) ∧
    (let i := Instr.cmbstat d a;
      s.Ready i c → c.gr.pkt.det = false → id / 2 ^ 28 ≤ 3 →
        ∃ t, exec i s = .next t ∧ Passed i c t ∧ t.mem = s.mem ∧ t.ctxs = s.ctxs ∧
          t.vreg c l d = match (coop s (id / 2 ^ 28)).current id with
            | none => 0x10000
            | some y => BitVec.ofNat 32 (y.arrived + (if y.st = .releasing then y.subst else 0) * 2 ^ 8 + if y.timedOut then 2 ^ 17 else 0)) ∧
    (let i := Instr.cmbclose a;
      s.Ready i c → c.gr.pkt.det = false → id / 2 ^ 28 ≤ 3 →
        ((coop s (id / 2 ^ 28)).current id = none → ∃ t, exec i s = .next t ∧ Passed i c t ∧ t.mem = s.mem ∧ t.ctxs = s.ctxs) ∧
        (∀ y, (coop s (id / 2 ^ 28)).current id = some y → y.st = .opened →
          ∃ t, exec i s = .next t ∧ Passed i c t ∧ t.ctxs = (s.releaseSlot ctx (id / 2 ^ 28) (id % 2 ^ 16) .closed).ctxs)) ∧
    (let i := Instr.cmbcancel a;
      s.Ready i c → id / 2 ^ 28 ≤ 3 →
        ((coop s (id / 2 ^ 28)).current id = none → ∃ t, exec i s = .next t ∧ Passed i c t ∧ t.mem = s.mem ∧ t.ctxs = s.ctxs) ∧
        (∀ y, (coop s (id / 2 ^ 28)).current id = some y → y.st = .opened →
          ∃ t, exec i s = .next t ∧ Passed i c t ∧ t.ctxs = (s.releaseSlot ctx (id / 2 ^ 28) (id % 2 ^ 16) .cancelled).ctxs))

/-! ### Rays and the vertex graph -/

/-- TRACE and HITGET (R252, R255, R256, R368, R431): a ray with a NaN component or an empty interval misses; an index beyond the primitives
has no geometry; where the structure can be read, the words it gives will be brought to D by the engine. -/
def Obligations.RayQueries : Prop :=
  ∀ (cull : Cull) (any : Bool) (d a : VField) (u : SField) (b : BOp) (s : State) (c : Cx),
    let v (l k : Nat) : Word := s.readOpd c.x l (.v (a.toNat + k))
    let ray (l : Nat) : Ray := ⟨⟨v l 0, v l 1, v l 2⟩, v l 3, ⟨v l 4, v l 5, v l 6⟩, v l 7⟩
    let h := (s.upair c u).toNat
    let miss : List Word := [0x7F800000, 0xFFFFFFFF, 0, 0]
    let brings (i : Instr) (w : Nat → List Word) : Prop :=
      ∃ t, exec i s = .next t ∧ IssuedOnly i s c t ∧ ∀ l ∈ c.ls, Launched i s c t l [l] (dstRegs i c l) (w l)
    (∀ l ∈ c.ls, s.chain c.g l = []) → h % 64 = 0 →
    (let i := Instr.trace cull any d a u;
      i.wf = true → s.Ready i c →
        (∀ w : Nat → List Word, (∀ l ∈ c.ls, (w l).length = 4 ∧ (s.traceWords c l cull any (ray l) h).gives (w l)) → brings i w) ∧
        (∀ hd, (s.header c.who c.x.team h).gives hd → s.structOk c.who c.x.team hd = true →
          (∀ l ∈ c.ls, ∃ k < 8, asFp (v l k) = .nan) → brings i fun _ => miss)) ∧
    (let i := Instr.hitget d u b;
      i.wf = true → s.Ready i c →
        (∀ w : Nat → List Word, (∀ l ∈ c.ls, (w l).length = 4 ∧ (s.hitgetWords c (s.vb c l b).toNat h).gives (w l)) → brings i w) ∧
        (∀ hd, (s.header c.who c.x.team h).gives hd → s.structOk c.who c.x.team hd = true → fld hd 0x18 1 = 0 →
          (∀ l ∈ c.ls, fld hd 0x10 4 ≤ (s.vb c l b).toNat) →
          brings i fun _ => List.replicate 4 0xFFFFFFFF))

/-- The queries of the vertex graph (R262, R263, R264, R434, R436, R437, R438, R442): where their operands are vertices of the frame, the
weights and parts, the candidates or the record's words will be brought to D, and the graph is as it was; VRWT weighs parts anew. -/
def Obligations.GraphQueries : Prop :=
  ∀ (d a : VField) (b : BOp) (s : State) (c : Cx) (fr : Frame),
    let x := s.ctx c.gr.ctx
    let v (r : VField) (l k : Nat) : Word := s.readOpd c.x l (.v (r.toNat + k))
    let one : Word := 0x3F800000
    let weight (w : Word) : Word := fdivW one (faddW one w)
    let brings (i : Instr) (w : Nat → List Word) : Prop :=
      ∃ t, exec i s = .next t ∧ (∀ k, tabGet t.ctxs k = tabGet s.ctxs k) ∧ t.mem = s.mem ∧ Passed i c t ∧
        ∀ l ∈ c.ls, Launched i s c t l [l] (dstRegs i c l) (w l)
    let light (l k : Nat) (p : Vertex) : Prop := x.operand fr (some true) (v a l k).toNat = .ok p
    let eye (l k : Nat) (p : Vertex) : Prop := x.operand fr (some false) (v a l k).toNat = .ok p
    (tabGet s.ctxs c.gr.ctx).isSome = true → tabGet x.frames ((s.ub c b).toNat % 2 ^ 8) = some fr →
    (∀ p q : Nat → Vertex, (∀ l ∈ c.ls, light l 0 (p l) ∧ eye l 1 (q l)) →
      (let i := Instr.vconn d a b;
        i.wf = true → s.Ready i c → brings i fun l =>
          let w := connParts (p l) (q l) (v d l)
          [weight (faddW w.1 (fmulW fr.eta w.2)), w.1, w.2, fr.eta]) ∧
      (let i := Instr.vmrg d a b;
        i.wf = true → s.Ready i c → brings i fun l =>
          let w := mergeParts fr.h2 (p l) (q l) (v d l)
          [weight (faddW w.1 (fdivW w.2 fr.eta)), w.1, w.2, fr.eta])) ∧
    (∀ q : Nat → Vertex, (∀ l ∈ c.ls, eye l 0 (q l)) →
      (let i := Instr.vmrq d a b;
        i.wf = true → s.Ready i c → brings i fun l =>
          (List.range 4).map fun k => BitVec.ofNat 32 ((x.candidates fr (q l) (v a l 1).toNat).getD k 0xFFFFFFFF))) ∧
    (∀ q : Nat → Vertex, (∀ l ∈ c.ls, x.operand fr none (v a l 0).toNat = .ok (q l) ∧ (v a l 1).toNat ≤ 3) →
      (let i := Instr.vget d a b;
        i.wf = true → s.Ready i c → brings i fun l => (List.range 4).map fun k => (q l).words.getD (4 * (v a l 1).toNat + k) 0)) ∧
    (let i := Instr.vrwtConn d a b;
      i.wf = true → s.Ready i c → ∃ t, exec i s = .next t ∧ WroteOnly i s c t ∧
        ∀ l ∈ c.ls, t.vreg c l d = weight (faddW (v a l 0) (fmulW (s.vb c l b) (v a l 1)))) ∧
    (let i := Instr.vrwtMrg d a b;
      i.wf = true → s.Ready i c → ∃ t, exec i s = .next t ∧ WroteOnly i s c t ∧
        ∀ l ∈ c.ls, t.vreg c l d = weight (faddW (v a l 0) (fdivW (v a l 1) (s.vb c l b))))

/-- The changes of the vertex graph (R258, R259, R260, R261, R355, R366, R433, R441): VAPP appends a vertex to an open epoch, FOPEN opens a
frame over sealed ones, FCLOSE closes it, ESEAL seals, VRET retires; each takes the next place in the Joinery's order. An ESEAL waits for what
it is to cover (R197). That FCLOSE closes its frame at once, at its own place in that order, is the model's reading (log 25). -/
def Obligations.GraphUpdates : Prop :=
  ∀ (d a : VField) (u : SField) (b : BOp) (s : State) (c : Cx) (l : Nat),
    let ctx := c.gr.ctx
    let x := s.ctx ctx
    let r (k : Nat) : Word := s.readReg c.x 0 (.s (u.toNat + k))
    let makes (i : Instr) (p : Ctx → Prop) : Prop :=
      ∃ t, exec i s = .next t ∧ Passed i c t ∧ t.mem = s.mem ∧ (∀ k, k ≠ ctx → tabGet t.ctxs k = tabGet s.ctxs k) ∧
        (t.ctx ctx).joinery = x.joinery + 1 ∧ p (t.ctx ctx)
    (tabGet s.ctxs ctx).isSome = true →
    (let i := Instr.vapp d a b;
      let id := (s.vreg c l d).toNat
      ∀ ps w, i.wf = true → s.Ready i c → c.ls = [l] → s.chain c.g l = [] → s.imagePieces c a b l = .ok ps →
        x.newVertex id (s.pieceWords ps) = some w →
        makes i fun y => tabGet y.verts id = some w ∧ ∀ k, k ≠ id → tabGet y.verts k = tabGet x.verts k) ∧
    (let i := Instr.fopen u;
      let f := (r 3).toNat % 2 ^ 8
      let ap := (r 3).toNat / 2 ^ 8
      let bits' : DWord := r 1 ++ r 0
      i.wf = true → s.Ready i c → ap < 64 → tabGet x.frames f = none → bits'.getLsbD ap = false → posFinite (r 2) = true →
        (∀ e < 64, bits'.getLsbD e = true → (tabGetD x.epochs e {}).st = .sealed) →
        ((tabGetD x.epochs ap {}).st = .free ∨ (tabGetD x.epochs ap {}).st = .opened) →
        makes i fun y => (tabGetD y.epochs ap {}).st = .opened ∧
          ∃ fr, tabGet y.frames f = some fr ∧ fr.bitmap = bits' ∧ fr.append = ap ∧ fr.h2 = fmulW (r 2) (r 2) ∧ fr.opener = c.x.grid) ∧
    (let i := Instr.fclose u;
      let f := (r 0).toNat % 2 ^ 8
      i.wf = true → s.Ready i c → (tabGet x.frames f).isSome = true → makes i fun y => tabGet y.frames f = none) ∧
    (let i := Instr.eseal u;
      let e := (r 0).toNat % 2 ^ 6
      i.wf = true → s.Ready i c →
        (s.sealHeld ctx e = false → (tabGetD x.epochs e {}).st = .opened → (∀ fr ∈ x.frames, fr.2.append ≠ e) →
          makes i fun y => (tabGetD y.epochs e {}).st = .sealed) ∧
        (s.sealHeld ctx e = true → ∃ t, exec i s = .next t ∧
          LanesOnly { s with cores := t.cores } c t fun _ y => { y with park := .retry, stamp := s.clock })) ∧
    (let i := Instr.vret a;
      let id := (s.vreg c l a).toNat
      let e := id / 2 ^ 26
      ∀ w, s.Ready i c → c.ls = [l] → (tabGetD x.epochs e {}).st = .sealed → (∀ p ∈ x.epochs, p.1 = e → p.2.st = .sealed) → id % 2 ^ 26 ≠ 0x3FFFFFF →
        tabGet x.verts id = some w →
        w.depth = 0 → tabGet (tabGetD x.epochs e {}).retired id = none →
        makes i fun y => tabGet (tabGetD y.epochs e {}).retired id = some x.joinery)

/-! ### System words -/

/-- SYSRD, SYSWR and the copies of lattice tables (R145, R174, R183, R223, R426, R427, Table 22.8): the value read, the register written with
the lowest lane's value, and no other effect; a register that needs SYSPRIV raises PRIVILEGE without it. That a write of PERFCTL keeps the
counts is the model's choice (log 49), and so are the phases that follow a write of WSCHEDCFG (log 47). -/
def Obligations.SystemRegisters : Prop :=
  ∀ (s : State) (c : Cx) (x : Ctx) (d a : VField),
    let k := c.gr.ctx
    let v : DWord := s.vpair c c.l0 a
    let priv : Prop := c.gr.pkt.sys = true
    let sel (w : DWord) (n : Nat) : Nat := w.toNat / 2 ^ (8 * n) % 256
    let known (w : DWord) (n : Nat) : Prop := sel w n ≠ 6 ∧ sel w n ≠ 7
    let gone (i : Instr) (u : State → State) (p : State → Prop) : Prop :=
      i.wf = true → s.Ready i c → priv → ∃ t, exec i s = .next t ∧ LanesOnly (u t) c t (fun _ y => y.past i s.clock) ∧ p t
    let ctx' (t : State) (y : Ctx) : Prop := tabGet t.ctxs k = some y ∧ ∀ j, j ≠ k → tabGet t.ctxs j = tabGet s.ctxs j
    tabGet s.ctxs k = some x →
    (∀ index : BitVec 11,
      let i := Instr.sysrd d index
      let n := index.toNat
      i.wf = true → s.Ready i c → (2 ≤ n → priv) → ∃ t, exec i s = .next t ∧ WroteOnly i s c t ∧ ∀ l ∈ c.ls,
        let r := t.vpair c l d
        (n = 0 → r = BitVec.ofNat 64 k) ∧ (n = 1 → r = if c.gr.pkt.sys then 1 else 0) ∧ (n = 0x10 → r = x.trapbase) ∧
        (0x20 ≤ n → n ≤ 0x23 → r = 0) ∧
        (n = 0x30 → r = BitVec.ofNat 64 ((match s.lost with | [] => 0 | e :: _ => e.1 * 2 ^ 12 + 1) + min 1023 s.lost.length * 4 +
          if s.ovf = [] then 0 else 2)) ∧
        (n = 0x40 → r = x.perfctl) ∧
        (0x41 ≤ n → n ≤ 0x48 → known x.perfctl (n - 0x41) → r = tabGetD (s.core (coreOf c.g)).perf (k * 8 + (n - 0x41)) 0 +
          if sel x.perfctl (n - 0x41) = 1 then BitVec.ofNat 64 s.clock else 0) ∧
        (n = 0x50 → r = if s.walign then 1 else 0) ∧
        (n = 0x60 → r = BitVec.ofNat 64 (s.match_ + s.abandon * 2 ^ 32 + s.mismatch * 2 ^ 48))) ∧
    gone (.syswrTrapbase a) (fun t => { s with ctxs := t.ctxs }) (fun t => ctx' t { x with trapbase := v &&& 0x1FFFFFFFFFFF00F }) ∧
    (∀ (n : BitVec 2) (bs : List Byte),
      let i := Instr.syswrLattice n a
      i.wf = true → s.Ready i c → priv → v.toNat % 1024 = 0 → s.readVa c.who v.toNat 1024 = .ok bs →
        ∃ t, exec i s = .next t ∧
          LanesOnly { s with ctxs := t.ctxs, leases := t.leases, hostLines := t.hostLines, cores := t.cores } c t
            (fun _ y => { y with park := .copy, stamp := s.clock, pass := false, irrev := true }) ∧
          ctx' t { x with latCopies := x.latCopies ++
            [⟨n.toNat, (List.range 512).map fun j => BitVec.ofNat 16 (fld bs (2 * j) 2), c.g, c.x.uid, c.ls⟩] }) ∧
    (∀ i ∈ [Instr.regionstatClearRegion a, .regionstatClearOvf a],
      gone i (fun t => { s with lost := t.lost, ovf := t.ovf }) fun t =>
        (∀ r, tabGet t.lost r = if v.getLsbD 0 = true ∧ r = v.toNat / 2 ^ 12 % 2 ^ 40 then none else tabGet s.lost r) ∧
          t.ovf = if v.getLsbD 1 then [] else s.ovf) ∧
    gone (.syswrPerfctl a) (fun t => { s with ctxs := t.ctxs, cores := t.cores }) (fun t =>
      ctx' t { x with perfctl := v } ∧ OnlyCounts s t ∧
        ∀ j < 640, ∀ n < 8, known v n → t.perfCount j k n = s.perfCount j k n) ∧
    (∀ n : BitVec 3, known x.perfctl n.toNat → gone (.syswrPerfcnt n a) (fun t => { s with cores := t.cores }) fun t =>
      OnlyCounts s t ∧ t.perfCount (coreOf c.g) k n.toNat = v ∧
        ∀ j y m, (j ≠ coreOf c.g ∨ y ≠ k ∨ m ≠ n.toNat) → m < 8 → t.perfCount j y m = s.perfCount j y m) ∧
    gone (.syswrWschedcfg a) (fun t => { s with walign := v.getLsbD 0, dies := t.dies }) (fun t =>
      ∃ q : Nat → Nat, (∀ j, q j < 10000) ∧ (v.getLsbD 0 = true → ∀ j, q j = q 0) ∧
        ∀ j, (tabGet s.dies j = none → tabGet t.dies j = none) ∧ ∀ y, tabGet s.dies j = some y →
          ∃ now m, tabGet t.dies j = some { y with phase := now, phaseNext := some (q j, m) } ∧
            now = (match y.phaseNext with | some p => if p.2 ≤ s.clock then p.1 else y.phase | none => y.phase) ∧
            s.clock < m ∧ m ≤ s.clock + 10000 ∧ (m + now) % 10000 = 0) ∧
    gone (.syswrDetsel a) (fun _ => { s with match_ := v.toNat % 2 ^ 10, mismatch := 0, abandon := 0 }) (fun _ => True) ∧
    (∀ index : BitVec 11,
      let i := Instr.syswrOther index a
      i.wf = true → s.Ready i c → index.toNat < 2 → ∃ t, exec i s = .next t ∧ LanesOnly s c t fun _ y => y.past i s.clock) ∧
    (∀ i, (∃ n : BitVec 11, 2 ≤ n.toNat ∧ i = .sysrd d n) ∨ (∃ n, i = .syswrLattice n a) ∨ (∃ n, i = .syswrPerfcnt n a) ∨
        i ∈ [Instr.syswrTrapbase a, .regionstatClearRegion a, .regionstatClearOvf a, .syswrPerfctl a, .syswrWschedcfg a, .syswrDetsel a] →
      s.Ready i c → c.gr.pkt.sys = false → (s.team c.x.team).shadow = none →
        ∃ t, exec i s = .next t ∧ Suspended s c t (c.ls.map fun l => (l, .privilege, 0))) ∧
    (∀ q rest y, x.latCopies = q :: rest → tabGet s.groups q.g = some y → y.uid = q.uid →
      (∀ l ∈ q.lanes, (tabGet y.lanes l).isSome = true ∧ (y.lane l).park = .copy) →
      ∃ t, exec (.latticeCopyComplete k) s = .next t ∧ t = { s with ctxs := t.ctxs, groups := t.groups } ∧
        ctx' t { x with latCopies := rest, lattice := x.lattice.set q.table q.image } ∧
        (∀ g, g ≠ q.g → tabGet t.groups g = tabGet s.groups g) ∧ tabGet t.groups q.g = some { y with lanes := (t.group q.g).lanes } ∧
        ∀ l, (t.group q.g).lane l = if l ∈ q.lanes then { (y.lane l).advance 1 with stamp := s.clock } else y.lane l)

/-- ORDB, ORDE and PXW (R275, R276, R395, R400): a lane enters its section once every earlier fragment of its pixel has passed, whatever the
other lanes of its set do, and leaves it; PXW writes the pixel's bytes; each raises ORDER where it is out of place. -/
def Obligations.OrderedSections : Prop :=
  ∀ (s : State) (c : Cx) (a : VField) (fr : Nat → Frag),
    let p := c.gr.pkt
    let order : List LaneFault := c.ls.map fun l => (l, .order, 0)
    let traps (i : Instr) : Prop := ∃ t, exec i s = .next t ∧ Suspended s c t order
    let own : Prop := p.kind = 3 ∧ ∀ l ∈ c.ls, (c.x.lane l).frag = some (fr l)
    (∀ k f, s.turnOf k f = true ↔
      ∀ n < f.num, ∀ q, (s.grid k).frags[n]? = some q → q.2.1 = f.x → q.2.2.1 = f.y → s.fragPassed k n = true) ∧
    (s.Ready .ordb c → own → (∀ l ∈ c.ls, (c.x.lane l).inSect = false) →
      ∃ t, exec .ordb s = .next t ∧ ((∀ l ∈ c.ls, s.turnOf c.x.grid (fr l) = true) → t.cores = s.cores) ∧
        LanesOnly { s with order := t.order, cores := t.cores } c t fun l y =>
          if s.turnOf c.x.grid (fr l) then { y.past .ordb s.clock with inSect := true } else { y with park := .retry, stamp := s.clock }) ∧
    (s.Ready .ordb c → (p.kind ≠ 3 ∨ ∀ l ∈ c.ls, (c.x.lane l).inSect = true) → traps .ordb) ∧
    (s.Ready .orde c → c.gr.picked = [] → (∀ l ∈ c.ls, (c.x.lane l).inSect = true) →
      ∃ t, exec .orde s = .next t ∧ LanesOnly { s with order := t.order } c t fun _ y =>
        { y.past .orde s.clock with inSect := false, sectDone := true }) ∧
    (s.Ready .orde c → (∀ l ∈ c.ls, (c.x.lane l).inSect = false) → traps .orde) ∧
    (let i := Instr.pxw a
     let va (l : Nat) : Nat := (p.args.toNat + 4096 * p.at 0x74 4 + 8 * ((fr l).x + p.at 0x20 2 * (fr l).y)) % 2 ^ 64
     let tm := c.x.team
     i.wf = true → s.Ready i c →
      (∀ pa : Nat → Nat, own → (∀ l ∈ c.ls, va l % 8 = 0 ∧ s.xlate c.who .store (va l) 8 = .ok (pa l)) →
        ∃ t, exec i s = .next t ∧ PerformedOnly i s c t ∧
          (∀ q, memByte t.mem q =
            c.ls.foldl (fun w l => if pa l ≤ q ∧ q < pa l + 8 then s.dataByte c l a (q - pa l) else w) (memByte s.mem q)) ∧
          (∀ k, k ≠ tm → tabGet t.teams k = tabGet s.teams k) ∧
          (∃ g, t.team tm = { s.team tm with digest := g }) ∧ ((s.team tm).checked = false → t.teams = s.teams)) ∧
      (p.kind ≠ 3 → traps i))

/-! ### Traps -/

/-- TRAP, BKPT and a word that encodes nothing (R34, R135, R201, R202, R322, R432): the group stops with the cause and the number in every
lane; lanes that a RESUME restarted at a TRAP or a BKPT pass it once. A load traps only in the lanes that it fails in. -/
def Obligations.TrapsTaken : Prop :=
  ∀ (s : State) (c : Cx) (code : BitVec 18) (tag : BitVec 7) (w : Word),
    let suspends (i : Instr) (fs : List LaneFault) : Prop := ∃ t, exec i s = .next t ∧ Suspended s c t fs
    let passes (i : Instr) : Prop := ∃ t, exec i s = .next t ∧ LanesOnly s c t fun _ y => y.past i s.clock
    let stands (b : Bool) : Prop := ∀ l ∈ c.ls, (c.x.lane l).pass = b
    (s.Ready (.trap code) c → stands false → suspends (.trap code) (c.ls.map fun l => (l, .software, code.toNat))) ∧
    (s.Ready (.trap code) c → stands true → passes (.trap code)) ∧
    (s.Ready (.bkpt tag) c → stands false → (s.team c.x.team).shadow = none →
      suspends (.bkpt tag) (c.ls.map fun l => (l, .breakpoint, tag.toNat))) ∧
    (s.Ready (.bkpt tag) c → stands true → passes (.bkpt tag)) ∧
    (s.Ready (.illegalWord w) c → (s.team c.x.team).shadow = none →
      suspends (.illegalWord w) (c.ls.map fun l => (l, .illegal, 0))) ∧
    (∀ (acq : Bool) (z : Size) (d a : VField) (b : BOp) (k : Nat → Option Cause),
      let i := Instr.ld acq z d a b
      let n := z.bytes
      let va (l : Nat) : Nat := (s.vpair c l a + (s.vb c l b).signExtend 64).toNat
      i.wf = true → s.Ready i c → (s.team c.x.team).shadow = none → (∃ l ∈ c.ls, k l ≠ none) →
        (∀ l ∈ c.ls, s.chain c.g l = [] ∧
          (va l % n ≠ 0 → k l = some .misaligned) ∧
          (va l % n = 0 → match k l with
            | some e => s.xlate c.who .load (va l) n = .error e
            | none => ∃ pa, s.xlate c.who .load (va l) n = .ok pa)) →
        suspends i (c.ls.filterMap fun l => (k l).map fun e => (l, e, va l)))

/-- The causes, their codes and ranks; the primary fault, and where the record says it (R203, Table 9.1). -/
def Obligations.PrimaryCause : Prop :=
  (∀ k : Cause, (k.code, k.rank) = match k with
    | .illegal => (0x01, 1) | .privilege => (0x02, 2) | .role => (0x0C, 3) | .determinism => (0x09, 4) | .misaligned => (0x03, 5)
    | .notPresent => (0x04, 6) | .permission => (0x05, 7) | .regionLost => (0x06, 8) | .hostAtomic => (0x07, 9)
    | .residualFull => (0x08, 10) | .software => (0x0A, 11) | .breakpoint => (0x0B, 12) | .order => (0x0D, 13) | .vgraph => (0x0E, 14)
    | .combine => (0x0F, 15)) ∧
  (∀ checks f, firstOf checks = some f → some f ∈ checks ∧ ∀ g, some g ∈ checks → f.1.rank ≤ g.1.rank) ∧
  (∀ checks, firstOf checks = none → ∀ f ∈ checks, f = none) ∧
  (∀ (fs : List LaneFault), fs ≠ [] → (fs.map (·.1)).Pairwise (· < ·) → (∀ f ∈ fs, f.1 < 32) →
    ∃ p ∈ fs, (∀ f ∈ fs, p.2.1.rank ≤ f.2.1.rank) ∧ (∀ f ∈ fs, f.2.1 = p.2.1 → p.1 ≤ f.1) ∧
      ∀ s g x t, t.faults = fs → fld (recordBytes s g x t) 0x08 4 = p.2.1.code ∧ fld (recordBytes s g x t) 0x0C 4 = p.1)

/-- The roles that may issue an instruction, and ROLE where another issues it (R41, Table 2.2). -/
def Obligations.RoleTable : Prop :=
  ∀ (i : Instr) (s : State) (c : Cx),
    let listed (r : Nat) : Prop := match i with
      | .regroup | .tex .. | .spawn .. | .binflush | .cmbopen .. | .cmbput .. | .cmbstat .. | .cmbclose _ | .cmbcancel _ | .trace ..
      | .hitget .. | .vapp .. | .vconn .. | .vmrg .. | .vmrq .. | .vrwtConn .. | .vrwtMrg .. | .fopen _ | .fclose _ | .eseal _ | .vret _
      | .vget .. | .ordb | .orde | .pxw _ => r = 0
      | .cpy _ | .chain _ | .coll _ => r = 1
      | .mma .. | .mmasp .. | .conv .. | .scacc .. | .aclr .. | .ald .. | .astFp32 .. | .astBf16 .. | .tld .. | .mwait _ => r = 2
      | _ => True
    (∀ r, roleOk i r = true ↔ listed r) ∧
    (s.Acts c → i.isWord = true → illegalAt i c.ls.length = false → (s.team c.x.team).shadow = none → ¬ listed c.x.role →
      ∃ t, exec i s = .next t ∧ Suspended s c t (c.ls.map fun l => (l, .role, 0)))

/-- TRAP_RECORD_TAKE, HANDLER_TEAM_START and RESUME (R204, R205, R207, R208, R209, Table 9.3): the lowest free record of the pool that
TRAPBASE named as the trap was raised holds the trap; a handler team is queued, or the grid ends where it has no handler, where the trap is a
handler team's, and where no record can be written; a team of the handler starts with the record's address, and RESUME frees the record and
restarts the lanes, elsewhere if PC says so. That a handler team's trap ends the grid with its own status where the pool is absent, full or
cannot be written, and that a group whose team is saved takes its record after the restore, are the model's choices (log 44). -/
def Obligations.TrapRecords : Prop :=
  ∀ (s : State) (g : Nat) (x : Group) (tr : Trapped) (gr : Grid) (cx : Ctx),
    let tm := s.team x.team
    let p := (primary tr.faults).getD (0, .illegal, 0)
    let b := recordBytes s g x tr
    tabGet s.groups g = some x → x.trap = some tr → tabGet s.grids x.grid = some gr → tabGet s.ctxs gr.ctx = some cx →
    (gr.id < 2 ^ 64 → b.length = 512 ∧ fld b 0 8 = gr.id ∧ fld b 0x18 8 = tr.pc.toNat ∧ fld b 0x20 8 = tr.hdr.toNat ∧
      (∀ f ∈ tr.faults, (∀ e ∈ tr.faults, e.1 = f.1 → e = f) → f.1 < 32 → f.2.2 < 2 ^ 64 →
        fld b (0x30 + f.1) 1 = f.2.1.code ∧ fld b (0x50 + 8 * f.1) 8 = f.2.2 ∧ bitAt (fld b 0x10 4) f.1 = true)) ∧
    (let base := (trapPool tr.base).1
     let count := (trapPool tr.base).2
     let code := p.2.1.code
     let take := exec (.trapRecordTake g) s
     let lowest (a : Nat) : Prop := ∃ n < count, a = base + 512 * n ∧ (∀ e ∈ cx.records, e.2.addr ≠ a) ∧
       ∀ k < n, ∃ e ∈ cx.records, e.2.addr = base + 512 * k
     let full : Prop := ∀ k < count, ∃ e ∈ cx.records, e.2.addr = base + 512 * k
     let ends (v : State) : Prop := take = .next (v.abortGrid x.grid ((if tm.handler = none then 0x0100 else 0x0200) + code))
     let holds (v u : State) (a : Nat) (queued : List Nat) : Prop := v.mem = u.mem ∧ v.nextId = s.nextId + 1 ∧ (v.ctx gr.ctx).handlers = queued ∧
       (∃ kn, tabGet (v.ctx gr.ctx).records s.nextId = some ⟨x.grid, g, x.team, x.gidx, a, code, kn⟩) ∧
       v.group g = { x with trap := some { tr with record := some s.nextId, written := tr.pc } }
     tr.record = none →
      (base = 0 → ends s) ∧ (base ≠ 0 → full → tm.handler ≠ none → ends s) ∧
      (∀ a, base ≠ 0 → lowest a →
        (∀ e, s.putVa (unitWho gr.ctx true) a b = .error e → ends s) ∧
        (∀ u, s.putVa (unitWho gr.ctx true) a b = .ok u →
          (tm.handler = none → gr.pkt.handler ≠ 0 → ∃ t, take = .next t ∧ holds t u a (cx.handlers ++ [s.nextId])) ∧
          (tm.handler ≠ none ∨ gr.pkt.handler = 0 → ∃ v, holds v u a cx.handlers ∧ ends v)))) ∧
    (∀ n r core slot,
      let die := coreOf r.g / 160
      let inUse (d : Nat) : Bool := (tabGetD s.dies d {}).inService && !(tabGetD s.dies d {}).parked
      let free (k : Nat) : Bool :=
        inUse (k / 160) && !(s.core k).quarantined && !s.pickedAway r.grid (s.grid r.grid) k && s.hasRoom k ⟨1, 2048, 256, 0⟩
      tabGet cx.records n = some r → n ∈ cx.handlers → core / 160 = die → free core = true → (∀ k < core, k / 160 = die → free k = false) →
        slot / 64 = core → tabGet s.groups slot = none → (∀ k < slot, k / 64 = core → (tabGet s.groups k).isSome = true) →
        ∃ t y k, exec (.handlerTeamStart gr.ctx n) s = .next t ∧ k = s.nextId ∧ tabGet t.groups slot = some y ∧ y.team = k ∧ y.grid = r.grid ∧
          (t.team k).handler = some n ∧ (t.team k).faulty = r.team ∧ (t.team k).cores = [core] ∧ n ∉ (t.ctx gr.ctx).handlers ∧
          tabGet y.sregs 0 = some (BitVec.ofNat 32 r.addr) ∧ tabGet y.sregs 1 = some (BitVec.ofNat 32 (r.addr / 2 ^ 32)) ∧
          ∀ l < 32, tabGet y.lanes l ≠ none ∧ (y.lane l).fin = false ∧ (y.lane l).pc = (s.grid r.grid).pkt.handler ∧ (y.lane l).inBody = false) ∧
    (∀ (c : Cx) (a : SField) (n : Nat) (r : TrapRec),
      let i := Instr.resume a
      let va := (s.upair c a).toNat
      i.wf = true → s.Ready i c → c.gr.ctx = gr.ctx →
        ((∀ e ∈ cx.records, e.2.addr ≠ va) → ∃ t, exec i s = .next t ∧ Suspended s c t (c.ls.map fun l => (l, .illegal, 0))) ∧
        ((n, r) ∈ cx.records → r.addr = va → (∀ e ∈ cx.records, e.2.addr = va → e = (n, r)) → r.g = g → g ≠ c.g → tr.record = some n →
          (tr.faults.map (·.1)).Nodup → (∀ f ∈ tr.faults, (tabGet x.lanes f.1).isSome = true) →
          ∀ pc : DWord, s.readVa (unitWho gr.ctx true) (va + 0x18) 8 = .ok (leBytes 8 pc.toNat) → (pc ≠ tr.written → s.badTarget (s.who g) pc.toNat = none) →
            ∃ t, exec i s = .next t ∧ Passed i c t ∧ tabGet (t.ctx gr.ctx).records n = none ∧ t.mem = s.mem ∧ (t.group g).trap = none ∧
              (∀ l, (∀ f ∈ tr.faults, f.1 ≠ l) → (t.group g).lane l = x.lane l) ∧
              ∀ f ∈ tr.faults,
                let y := { x.lane f.1 with irrev := (x.lane f.1).irrev || f.2.1 == Cause.software }
                (t.group g).lane f.1 = if pc = tr.written then { y with pass := f.2.1 == Cause.software || f.2.1 == Cause.breakpoint } else y.goto pc))

/-! ### Resets, queues, services -/

/-- DEVICE_RESET, POWER_LOSS, LINK_FUNCTION_RESET, SERVICE_LEVEL_RISE and HOST_REGISTER_WRITE (R12, R13, R16, R299, R305, R309): what each
leaves. A reset discards what a die holds changed of host and peer memory, keeps the lanes that the spare map names replaced, and starts the
clock anew. That device memory reads as nothing listed afterwards is the model's choice (log 1), as is that what R16 does not list is
forgotten (log 54). And what SVCCAP, the clock registers and the other words of the DVSEC read as, at every level and over either link (R10,
R11, R12, R15, R121, R445, Tables 0.2 and 0.3). -/
def Obligations.ResetsAndBringUp : Prop :=
  ∀ (s : State) (link : Bool) (ofs : Nat) (data : List Byte),
    (∀ i ∈ [Instr.deviceReset, .powerLoss], ∃ t, exec i s = .next t ∧
      t = { State.reset with
        err := !s.flash.ok, flash := s.flash, mem := t.mem, ports := t.ports, fresh := s.fresh, nextId := s.nextId, sched := s.sched } ∧
      (∀ k, (∀ n, WornPart.lane k n ∉ s.flash.spares) → tabGet t.ports k = none) ∧
      (∀ k n, WornPart.lane k n ∈ s.flash.spares → ∃ q, tabGet t.ports k = some q ∧ q.spare = false ∧ q.swapping = false) ∧
      (∀ p, (∀ e ∈ s.leases, ∀ w ∈ e.2.wb, w.1 ≠ p) →
        memByte t.mem p = if isHost p = true ∨ isPeer p = true then memByte s.mem p else unlisted) ∧
      ∀ p e v, e ∈ s.leases → (p, v) ∈ e.2.wb → (isHost (lineBase e.1) = true ∨ isPeer (lineBase e.1) = true) → (∃ h ∈ e.2.holders, h.1 < 4) →
        (∀ f ∈ s.leases, ∀ w ∈ f.2.wb, w.1 = p → w = (p, v)) → memByte t.mem p = v) ∧
    (∃ t, exec (.linkFunctionReset link) s = .next t ∧
      t.noMail = State.noMail { s with msixTable0 := t.msixTable0, msixTable1 := t.msixTable1 } ∧
      t.msixTable0 = (if link then s.msixTable0 else List.replicate 16 0) ∧ t.msixTable1 = (if link then List.replicate 16 0 else s.msixTable1) ∧
      t.mbox link = {} ∧ t.mbox (!link) = s.mbox (!link) ∧
      t.msix0 = (if link then s.msix0 else 0) ∧ t.msix1 = (if link then 0 else s.msix1) ∧
      t.svc = s.svc.map fun r => if r.link = link ∧ r.gone = none then { r with gone := some (s.mbox link) } else r) ∧
    (s.err = false → s.level < 4 →
      exec (.serviceLevelRise false) s = .next { s with err := true } ∧
      ∃ t, exec (.serviceLevelRise true) s = .next t ∧ t = { s with level := s.level + 1, dies := t.dies } ∧
        ∀ d, let rises := d = 0 ∨ (1 ≤ s.level ∧ d < 4)
          (¬ rises → tabGet t.dies d = tabGet s.dies d) ∧
          (rises → ∃ x phase, tabGet t.dies d = some x ∧ x = { tabGetD s.dies d {} with
            inService := true, phase := phase
            clock := if s.level ≤ 1 then 1000 else if s.level = 2 then s.flash.p1
              else if (tabGetD s.dies d {}).recorded = some 1 then s.flash.p1 else 2500 } ∧
            ((tabGetD s.dies d {}).inService = true → phase = (tabGetD s.dies d {}).phase))) ∧
    exec (.hostRegisterWrite link ofs data) s = .next s ∧
    (let x (d : Nat) : Die := tabGetD s.dies d {}
     let up (d : Nat) : Prop := d < 4 ∧ (x d).inService = true ∧ (4 ≤ s.level → (x d).parked = false ∧ (x d).quiescing = false)
     let w := s.svccap
     let mhz := w.toNat / 2 ^ 16 % 2 ^ 12
     s.level ≤ 4 → (∀ d < 4, (x d).clock < 2 ^ 12) →
      w.toNat % 2 ^ 4 = s.level ∧ (∀ d < 4, w.getLsbD (4 + d) = true ↔ up d) ∧ (∀ k ∈ [9, 10, 11], w.getLsbD k = decide (3 ≤ s.level)) ∧
      (∀ k ∈ [8, 12, 13, 14, 15, 28, 29], w.getLsbD k = false) ∧ w.getLsbD 31 = s.err ∧
      (w.getLsbD 30 = true ↔ ∃ d e, up d ∧ up e ∧ (x d).clock ≠ (x e).clock) ∧
      ((∀ d, ¬ up d) → mhz = 0) ∧ (∀ d, up d → mhz ≤ (x d).clock ∧ ∃ e, up e ∧ mhz = (x e).clock) ∧
      (∀ d ∈ [0, 2], ∀ k < 32, (s.svcclk d).getLsbD k = true ↔
        ∃ e ∈ [0, 1], up (d + e) ∧ 16 * e ≤ k ∧ k < 16 * e + 12 ∧ (x (d + e)).clock.testBit (k - 16 * e) = true) ∧
      (s.dvsec 0).toNat % 2 ^ 20 = 0x10023 ∧ s.dvsec 4 = 0x02003E11 ∧ s.dvsec 8 = 0x00000001 ∧ s.dvsec 0xC = w ∧ s.dvsec 0x10 = 0x06400A01 ∧
      s.dvsec 0x14 = s.svcclk 0 ∧ s.dvsec 0x18 = s.svcclk 2 ∧ s.dvsec 0x1C = 0 ∧
      configWord 0 = some 0x06403E11 ∧ ∃ r : Byte, configWord 8 = some ((0x120000 : BitVec 24) ++ r))

/-- LEVEL (R13): whatever the part does, the level stays, or rises one step at a rise of the service level, or is 0 again at a device reset (a
loss of power is one); a rise that passes takes the step, and one that stops on an error sets ERR and leaves every other field as it was. -/
def Obligations.ServiceLevel : Prop :=
  ∀ s : State,
    (∀ i t, s.Inv → exec i s = .next t → t.level = s.level ∨ (i = .serviceLevelRise true ∧ t.level = s.level + 1) ∨
      ((i = .deviceReset ∨ i = .powerLoss) ∧ t.level = 0)) ∧
    (s.err = false → s.level < 4 → ∃ t, exec (.serviceLevelRise true) s = .next t ∧ t.level = s.level + 1) ∧
    (s.err = false → s.level < 4 → exec (.serviceLevelRise false) s = .next { s with err := true })

/-- The queue-table window, and what the Drover reads of queues (R64, R68, R70, R71, R73, R74, R75, R79, R80, R81): a write to a descriptor,
EN set and cleared, a write index learnt, a packet taken, the ageing of a head, a held copy delivered. That the rights noted of an ENQ are
dropped as EN is set is the model's choice (log 66), and so is the privilege with which a rejected packet's signal is written (log 44). -/
def Obligations.LaunchQueues : Prop :=
  ∀ (s : State) (q : Nat) (x : Queue),
    let only (t : State) : Prop := t = { s with queues := t.queues } ∧ ∀ j, j ≠ q → t.queue j = s.queue j
    let reads (t : State) : Prop := t = { s with queues := t.queues, leases := t.leases, hostLines := t.hostLines } ∧
      ∀ j, j ≠ q → t.queue j = s.queue j
    s.queue q = x →
    (∀ (ofs : Nat) (d ds : List Byte) (i : Instr),
      let n := d.length
      let o := ofs % 64
      let covers := o ≤ 0x11 ∧ 0x11 < o + n
      let sets := covers ∧ (d.getD (0x11 - o) 0).getLsbD 0 = true
      let y : Queue := { x with desc := ds }
      i ∈ [Instr.queueDescriptorWrite ofs d, .queueEnable ofs d, .queueDisable ofs d] → n ∈ [1, 2, 4, 8] → ofs % n = 0 → ofs + n ≤ 0x1000 →
      ofs / 64 = q → x.desc.length = 64 → ds.length = 64 →
      (∀ k < 64, ds.getD k 0 =
        if 0x14 ≤ k ∧ k < 0x18 then x.desc.getD k 0 else if o ≤ k ∧ k < o + n then d.getD (k - o) 0 else x.desc.getD k 0) →
      (x.en = false → ¬ sets → ∃ t, exec i s = .next t ∧ only t ∧ t.queue q = y) ∧
      (x.en = false → sets → s.descOk y = false → ∃ t, exec i s = .next t ∧ only t ∧ t.queue q = y.disable) ∧
      (∀ w r, x.en = false → sets → s.descOk y = true → s.readVa y.who (y.field 8 8) 8 = .ok (leBytes 8 w) →
        s.readVa y.who (y.field 8 8 + 0x80) 8 = .ok (leBytes 8 r) → w < 2 ^ 64 → r ≤ w → w ≤ r + y.slots → r < 2 ^ 64 →
        ∃ t p, exec i s = .next t ∧ reads t ∧
          t.queue q = { y.setField 0x14 4 0 with w := w, r := r, prio := p, boost := 0, since := s.clock, privok := [] } ∧
          ∀ e : Byte, r < w → y.task = false → s.readVa y.who (y.slotAddr r + 1) 1 = .ok [e] → p = e.toNat) ∧
      (x.en = true → (¬ covers ∨ sets) → exec i s = .next s) ∧
      (x.en = true → covers → ¬ sets → ∃ t, exec i s = .next t ∧ (t.queue q).en = false ∧ (t.queue q).hold = [] ∧
        (x.hold = [] → only t ∧ t.queue q = x.disable))) ∧
    (∀ w, x.en = true → x.device = false → s.readVa x.who (x.field 8 8) 8 = .ok (leBytes 8 w) → w < 2 ^ 64 → w ≠ x.w →
      (x.w ≤ w → w ≤ x.r + x.slots →
        ∃ t, exec (.writeIndexAdvance q) s = .next t ∧ reads t ∧ (t.queue q).w = w ∧ (t.queue q).r = x.r ∧ (t.queue q).desc = x.desc ∧
          (x.w = x.r → x.task = false → (t.queue q).since = s.clock ∧ (t.queue q).boost = 0 ∧
            ∀ e : Byte, s.readVa x.who (x.slotAddr x.r + 1) 1 = .ok [e] → (t.queue q).prio = e.toNat)) ∧
      ((w < x.w ∨ x.r + x.slots < w) →
        ∃ t, exec (.writeIndexAdvance q) s = .next t ∧ only t ∧ (t.queue q).w = x.w ∧ t.queue q = (x.orStatus 1).disable)) ∧
    (∀ b u, s.droverChoice = some q → s.headBytes q = .ok b → s.putVa x.who (x.field 8 8 + 0x80) (leBytes 8 (x.r + 1)) = .ok u →
      (∀ st, s.accepts q b = .error st → ∃ t, exec (.droverTakePacket q) s = .next t ∧ (t.queue q).r = x.r + 1 ∧
        t.grids = tabMap s.grids (fun _ g => { g with picked := g.picked.filter fun p => p.2.1 != q || p.2.2.isSome }) ∧
        ∀ v, fld b 0x48 8 ≠ 0 → fld b 0x48 8 % 8 = 0 → u.putVa x.who (fld b 0x48 8) (leBytes 8 (2 ^ 63 + st)) = .ok v → t.mem = v.mem) ∧
      (∀ p, s.accepts q b = .ok p → ∃ t g, exec (.droverTakePacket q) s = .next t ∧ (t.queue q).r = x.r + 1 ∧
        tabGet t.grids s.nextId = some g ∧ g.pkt = parsePacket b ∧ g.queue = q ∧ g.ctx = x.ctxid ∧ g.id = (s.ctx x.ctxid).nextGrid ∧
        g.teams = p.teams ∧ ((tabGet s.ctxs x.ctxid).isSome = true → (t.ctx x.ctxid).nextGrid = g.id + 1))) ∧
    (s.hasHead q = true → s.headPrio q + x.boost < 7 → ∃ t, exec (.effectivePriorityAgeing q) s = .next t ∧
      t.queue q = { x with boost := x.boost + 1 } ∧ t.clock = max s.clock (x.since + 5000000 * (x.boost + 1)) ∧
      t = { s with queues := t.queues, clock := t.clock }) ∧
    (∀ h rest u, x.hold = h :: rest → x.w - x.r < x.slots →
      State.pushSlot { s with queues := tabSet s.queues q { x with hold := rest } } q h.bytes = .ok u →
      ∃ t, exec (.holdListDelivery q) s = .next t ∧ t.mem = u.mem ∧ (t.queue q).w = x.w + 1 ∧ (t.queue q).hold = rest)

/-- The mailboxes and the services of contexts, images, translations, host ranges and the weight store (R166, R171, R184, R300, R301, R306,
R447, Tables 18.3 and 18.4): the response and the effect of each, and the refusals that they share. The model's own choices among them: the
lowest free CTXID (log 37), the order of a command's checks and what an unlisted item of CTXSET or POWER answers (log 36), where a translated
image is placed (log 29), what CTXDESTROY takes with it (log 28), and the counts of a release queue set anew (log 53). -/
def Obligations.ServicesAnswer : Prop :=
  ∀ (s : State) (link : Bool) (rest : List SvcReq),
    let m := s.mbox link
    let b := m.cmd
    let k := m.ctxid
    let arg (ofs n : Nat) : Nat := fld b ofs n
    let x := s.ctx k
    let asked (op used level : Nat) : Prop := m.op = op ∧ zeros b 2 2 = true ∧ zeros b used (64 - used) = true ∧ level ≤ s.level
    let live : Prop := (tabGet s.ctxs k).isSome = true
    let gives (i : Instr) (status : Nat) (results : List Byte) (u : State → State) (p : State → Prop) : Prop :=
      ∃ t, exec i s = .next t ∧ Answered s t link status results ∧ t.noMail = (u t).noMail ∧ p t
    let refused (i : Instr) (status : Nat) : Prop := gives i status [] (fun _ => s) fun _ => True
    let inCtx (i : Instr) (results : List Byte) (y : Ctx) : Prop :=
      gives i 0 results (fun t => { s with ctxs := t.ctxs }) fun t => tabGet t.ctxs k = some y ∧ ∀ j, j ≠ k → tabGet t.ctxs j = tabGet s.ctxs j
    let uncached (i : Instr) (img : Image) (results : List Byte) (y : Ctx) : Prop :=
      gives i 0 results (fun t => { s with ctxs := t.ctxs, cores := t.cores }) fun t =>
        tabGet t.ctxs k = some y ∧ (∀ j, j ≠ k → tabGet t.ctxs j = tabGet s.ctxs j) ∧ ∀ c, t.core c = { s.core c with icache := (t.core c).icache } ∧
          ∀ e, e ∈ (t.core c).icache ↔ e ∈ (s.core c).icache ∧
            ¬ (k * 2 ^ 64 + img.base ≤ e.1 ∧ e.1 < k * 2 ^ 64 + img.base + img.mapOfs + (img.words + 31) / 32 * 4)
    let inContext : List (Instr × Nat × Nat × Nat) := [(.ctxdestroy link, 3, 8, 1), (.imgload link, 4, 0x18, 1), (.imgdrop link, 5, 0x10, 1),
      (.inval link, 6, 0x18, 1), (.save link, 8, 0x10, 1), (.restore link, 9, 0x10, 1)]
    let deviceWide : List (Instr × Nat × Nat × Nat) :=
      [(.ctxcreate link, 1, 0x10, 1), (.hostrange link, 7, 0x1C, 1), (.quiesce link, 10, 0xC, 2)]
    (∀ (ofs : Nat) (d : List Byte), ofs + d.length ≤ 0x40 → m.rspseq = m.cmdseq → ∃ t, exec (.commandAreaWrite link ofs d) s = .next t ∧
      t = { s with mbox0 := t.mbox0, mbox1 := t.mbox1 } ∧ t.mbox (!link) = s.mbox (!link) ∧ t.mbox link = { m with cmd := (t.mbox link).cmd } ∧
      (b.length = 64 → ∀ j < 64, (t.mbox link).cmd.getD j 0 = if ofs ≤ j ∧ j < ofs + d.length then d.getD (j - ofs) 0 else b.getD j 0)) ∧
    (∀ v : DWord, let i := Instr.commandAreaWrite link 0x40 (leBytes 8 v.toNat)
      (m.rspseq = m.cmdseq → v = m.rspseq + 1 → ∃ t, exec i s = .next t ∧ t.svc = s.svc ++ [{ link := link }] ∧ t.noMail = s.noMail ∧
        t.mbox link = { m with cmd := (t.mbox link).cmd, cmdseq := v } ∧ (b.length = 64 → (t.mbox link).cmd = b)) ∧
      ((m.rspseq ≠ m.cmdseq ∨ v ≠ m.rspseq + 1) → b.length = 64 → exec i s = .next s)) ∧
    (s.svc = { link := link } :: rest → m.tampered = false →
      (∀ e ∈ inContext ++ deviceWide, m.op = e.2.1 →
        (zeros b 2 2 = false ∨ zeros b e.2.2.1 (64 - e.2.2.1) = false → refused e.1 0x20) ∧
        (zeros b 2 2 = true → zeros b e.2.2.1 (64 - e.2.2.1) = true → s.level < e.2.2.2 → refused e.1 0x27)) ∧
      (∀ e ∈ inContext, asked e.2.1 e.2.2.1 e.2.2.2 → ¬ live → refused e.1 0x20) ∧
      (∀ e ∈ deviceWide, asked e.2.1 e.2.2.1 e.2.2.2 → k ≠ 0 → refused e.1 0x20) ∧
      (s.listed m = false → refused (.unlistedServiceOp link)
        (if zeros b 2 2 = true ∧ ((m.op = 2 ∧ s.level < 1) ∨ (m.op = 11 ∧ s.level < 2)) then 0x27 else 0x20)) ∧
      (asked 1 0x10 1 → k = 0 →
        ((arg 8 8 % 4096 ≠ 0 ∨ kindOf (arg 8 8) = none) → refused (.ctxcreate link) 0x20) ∧
        (arg 8 8 % 4096 = 0 → kindOf (arg 8 8) ≠ none →
          ((∀ n, 1 ≤ n → n < 4096 → tabGet s.ctxs n ≠ none) → refused (.ctxcreate link) 0x26) ∧
          (∀ n, 1 ≤ n → n < 4096 → tabGet s.ctxs n = none → (∀ j, 1 ≤ j → j < n → tabGet s.ctxs j ≠ none) →
            gives (.ctxcreate link) 0 (leBytes 4 n) (fun t => { s with ctxs := t.ctxs }) fun t =>
              (∀ j, j ≠ n → tabGet t.ctxs j = tabGet s.ctxs j) ∧ ∃ y, tabGet t.ctxs n = some y ∧ y.root = arg 8 8 ∧ y.images = [] ∧
                y.lattice = List.replicate 4 (List.replicate 512 0) ∧ y.epochs = [] ∧ ∀ d, (y.coop d).slots = [] ∧ (y.coop d).gens = []))) ∧
      (∀ i ∈ [Instr.ctxsetSavePool link, .ctxsetGraphRegion link, .ctxsetCombineRegion link, .ctxsetReleaseQueue link, .ctxsetTrapbase link],
        let n := match i with
          | .ctxsetSavePool _ => 0 | .ctxsetGraphRegion _ => 1 | .ctxsetCombineRegion _ => 2 | .ctxsetReleaseQueue _ => 3 | _ => 4
        let used := if n = 3 then 0x24 else if n = 4 then 0x18 else 0x20
        let die := arg 0xC 4
        let ok : Prop := (if n = 2 ∨ n = 3 then die ≤ 3 else die = 0) ∧ (n = 2 → 2 ^ 27 ≤ arg 0x18 8 ∧ arg 0x18 8 ≤ 2 ^ 32) ∧
          (n = 3 → arg 0x10 8 % 128 = 0 ∧ arg 0x18 8 % 128 = 0 ∧ 4 ≤ arg 0x20 4 ∧ arg 0x20 4 ≤ 16)
        let y : Ctx := match n with
          | 0 => { x with pool := some (arg 0x10 8, arg 0x18 8), poolUsed := 0 }
          | 1 => { x with graph := some (arg 0x10 8, arg 0x18 8) }
          | 2 => { x with coops := tabSet x.coops die { x.coop die with base := some (arg 0x10 8), bytes := arg 0x18 8 } }
          | 3 => { x with
              coops := tabSet x.coops die { x.coop die with relq := some (arg 0x10 8, arg 0x20 4, arg 0x18 8), m := 0, discards := 0 } }
          | _ => { x with trapbase := BitVec.ofNat 64 (arg 0x10 8) &&& 0x1FFFFFFFFFFF00F }
        arg 8 4 = n → asked 2 used 1 →
          (live → ok → s.ctxBusy k = false → inCtx i [] y) ∧ (live → ok → s.ctxBusy k = true → refused i 0x25) ∧
          (¬ ok ∨ ¬ live → refused i 0x20)) ∧
      (asked 3 8 1 → live →
        ((s.ctxBusy k = true ∨ ∃ e ∈ s.queues, e.2.en = true ∧ e.2.ctxid = k) → refused (.ctxdestroy link) 0x25) ∧
        (s.ctxBusy k = false → (∀ e ∈ s.queues, e.2.en = true → e.2.ctxid ≠ k) →
          gives (.ctxdestroy link) 0 [] (fun t => { s with ctxs := t.ctxs, ops := t.ops, cores := t.cores }) fun t =>
            tabGet t.ctxs k = none ∧ (∀ j, j ≠ k → tabGet t.ctxs j = tabGet s.ctxs j) ∧
              ∀ c, ∀ e ∈ (t.core c).tlb, e.ctx = k → e.global = true)) ∧
      (asked 4 0x18 1 → live →
        ((∃ e, s.readVa (unitWho k true) (arg 8 8) (arg 0x10 8) = .error e) → refused (.imgload link) 0x20) ∧
        (∀ d, s.readVa (unitWho k true) (arg 8 8) (arg 0x10 8) = .ok d →
          (fld d 0 4 ≠ 0x31455048 → (∀ e, x.registers (arg 8 8) d = .error e → refused (.imgload link) e) ∧
            ∀ i, x.registers (arg 8 8) d = .ok i → i.base = arg 8 8 ∧ uncached (.imgload link) i (leBytes 8 i.base) { x with images := x.images ++ [i] }) ∧
          (fld d 0 4 = 0x31455048 → (translate d = none → refused (.imgload link) 0x23) ∧
            ∀ h, translate d = some h → (1024 ≤ x.images.length → refused (.imgload link) 0x26) ∧
              (x.images.length < 1024 → ∃ t i, exec (.imgload link) s = .next t ∧ Answered s t link 0 (leBytes 8 i.base) ∧ i.words = h.words ∧
                i.base % 4096 = 0 ∧ i.hpe = true ∧ tabGet t.ctxs k = some { x with images := x.images ++ [i] })))) ∧
      (asked 5 0x10 1 → live →
        ((∀ i ∈ x.images, i.base ≠ arg 8 8) → refused (.imgdrop link) 0x20) ∧
        ((∃ i ∈ x.images, i.base = arg 8 8) → (s.ctxBusy k = true → refused (.imgdrop link) 0x25) ∧
          (s.ctxBusy k = false → ∀ i, x.images.find? (fun i => i.base == arg 8 8) = some i →
            uncached (.imgdrop link) i [] { x with images := x.images.filter fun i => i.base ≠ arg 8 8 }))) ∧
      (asked 6 0x18 1 → live → gives (.inval link) 0 [] (fun t => { s with cores := t.cores }) fun t =>
        ∀ c e, e ∈ (t.core c).tlb ↔ e ∈ (s.core c).tlb ∧
          ¬ ((e.ctx = k ∨ e.global = true) ∧
            (arg 0x10 8 = 0 ∨ (arg 8 8 < e.vbase + e.size ∧ e.vbase < arg 8 8 + arg 0x10 8)))) ∧
      (asked 7 0x1C 1 → k = 0 →
        let ok := arg 8 8 % 4096 = 0 ∧ arg 0x10 8 % 4096 = 0 ∧ arg 0x18 4 ≤ 1
        let table (r : List (Nat × Nat × Bool)) : Prop := gives (.hostrange link) 0 [] (fun _ => { s with hostRanges := r }) fun _ => True
        (¬ ok → refused (.hostrange link) 0x20) ∧
        (ok → arg 0x10 8 = 0 → table (s.hostRanges.filter fun r => r.1 ≠ arg 8 8)) ∧
        (ok → arg 0x10 8 ≠ 0 → 64 ≤ s.hostRanges.length → refused (.hostrange link) 0x26) ∧
        (ok → arg 0x10 8 ≠ 0 → s.hostRanges.length < 64 → table (s.hostRanges ++ [(arg 8 8, arg 0x10 8, decide (arg 0x18 4 = 1))]))) ∧
      (asked 12 0x20 2 →
        let src := arg 8 8
        let dst := arg 0x10 8
        let n := arg 0x18 8
        let ok := src % 128 = 0 ∧ dst % 128 = 0 ∧ n % 128 = 0 ∧ (k = 0 ∨ live) ∧ 0x2000000000 ≤ dst ∧ dst + n ≤ 0x4000000000
        (¬ ok → refused (.wload link) 0x20) ∧ (ok → s.wloadSource k src n = none → refused (.wload link) 0x20) ∧
        (∀ d, ok → s.wloadSource k src n = some d → gives (.wload link) 0 [] (fun t => { s with dies := t.dies, nextId := s.nextId + 1 }) fun t =>
          t.mem = s.mem ∧ ∀ g, (tabGetD t.dies g {}).held = (tabGetD s.dies g {}).held ++
            ((List.range (n / 128)).filter fun j => homeOf (dst + 128 * j) = g).map fun j => ⟨dst + 128 * j, (d.drop (128 * j)).take 128, some s.nextId⟩)))

/-- SAVE, EXACT_STOP, SAVE_BOUND_EXPIRY, RESTORE, TEAM_RESTORE, QUIESCE and POWER (R214, R215, R216, R217, R220, R307, R309): what a save asks
for, writes and takes off the cores, where a saved team goes back, and what the dies are told. A record of another part, or one moved, restores
the team whose header it bears (log 77). That SAVE and QUIESCE ask first and answer once nothing is left is the model's reading (log 39); its
choices are where records lie and what a save keeps of a team (log 33), and that bit d of a mask names die d (log 54). -/
def Obligations.SavesAndPower : Prop :=
  ∀ (s : State) (link : Bool) (rest : List SvcReq) (k : Nat) (begun : Option Mailbox),
    let m := begun.getD (s.mbox link)
    let b := m.cmd
    let served : Prop := s.svc = { link := link, cmd := begun } :: rest ∧ m.tampered = false
    let waits : List SvcReq := { link := link, cmd := some m } :: rest
    let asked (op used level : Nat) : Prop := served ∧ m.op = op ∧ zeros b 2 2 = true ∧ zeros b used (64 - used) = true ∧ level ≤ s.level
    let answers (i : Instr) (status : Nat) (p : State → Prop) : Prop := ∃ t, exec i s = .next t ∧ Answered s t link status [] ∧ p t
    let goes (i : Instr) (p : State → Prop) : Prop := ∃ t, exec i s = .next t ∧ p t
    let dies (mask : Nat) (t : State) (f : Die → Die) : Prop :=
      ∀ d, tabGet t.dies d = (tabGet s.dies d).map fun x => if d < 4 ∧ bitAt mask d = true then f x else x
    let named (gr : Grid) : Prop := gr.ctx = m.ctxid ∧ gr.id = fld b 8 8 ∧ gr.ended = false
    let open' (tm : Team) : Prop := tm.grid = k ∧ tm.shadow = none ∧ tm.cores ≠ [] ∧ tm.finished = false ∧ tm.saved = none
    (asked 8 0x10 1 → (tabGet s.ctxs m.ctxid).isSome = true →
      ((∃ gr, (k, gr) ∈ s.grids ∧ named gr) → (∀ e ∈ s.grids, named e.2 → e.1 = k) →
        ((∃ j tm, j < s.nextId ∧ tabGet s.teams j = some tm ∧ open' tm ∧ tm.saving = none) → goes (.save link) fun t =>
          t.mem = s.mem ∧ t.svc = waits ∧ (∀ j tm, tabGet t.teams j = some tm → open' tm → tm.saving ≠ none) ∧
            (∀ j tm, j < s.nextId → tabGet s.teams j = some tm → open' tm → (t.team j).saving = some (tm.saving.getD s.clock)) ∧
            ∀ g x, tabGet s.groups g = some x → ∃ tm, tabGet t.groups g = some { x with team := tm }) ∧
        ((∀ e ∈ s.teams, ¬ open' e.2) → (∀ e ∈ s.groups, e.2.grid ≠ k ∧ (s.team e.2.team).grid ≠ k) →
          answers (.save link) 0 fun t => t.noMail = s.noMail)) ∧
      ((∀ e ∈ s.grids, ¬ named e.2) → answers (.save link) (if 0 < fld b 8 8 ∧ fld b 8 8 < (s.ctx m.ctxid).nextGrid then 0 else 0x20) fun t =>
        t.noMail = s.noMail)) ∧
    (∀ j, (s.team j).saving.isSome = true → (s.team j).saved = none → s.stopped j = true →
      (∀ u, s.writeSave j = some u → goes (.exactStop j) fun t => (t.team j).saving = none ∧ (∀ e ∈ t.groups, e.2.team ≠ j) ∧
        ∃ v, (t.team j).saved = some v ∧ v.records.length = (s.team j).cores.length ∧ v.auto = (s.team j).saveAuto ∧
          ∀ g x, tabGet s.groups g = some x → x.team = j → ∃ e ∈ v.groups, e.group = x) ∧
      (s.writeSave j = none → exec (.exactStop j) s = .next (s.abortGrid (s.team j).grid 0x12))) ∧
    (∀ j since, (s.team j).saving = some since →
      exec (.saveBoundExpiry j) s = .next (State.abortGrid { s with clock := max s.clock (since + 5000000) } (s.team j).grid 0x12)) ∧
    (∀ j tm v recs cores, tabGet s.teams j = some tm → tm.saved = some v → v.auto = true → s.canRestore tm cores = true →
      s.saveRecords (s.grid tm.grid) v = some recs →
        ((∀ c ∈ tm.cores, s.quiescing c = false) → goes (.teamRestore j cores) fun t =>
          (t.team j).saved = none ∧ (t.team j).saving = none ∧ (tm.handler = none → (t.team j).cores = cores)) ∧
        ((∃ c ∈ tm.cores, s.quiescing c = true) → exec (.teamRestore j cores) s = .fault .notEnabled)) ∧
    (let found (tm : Team) : Option Saved := s.savedAt m.ctxid (fld b 8 8) tm
     let header (r : Nat) (h : List Byte) : Prop := s.readVa (unitWho m.ctxid true) r 64 = .ok h
     (∀ tm v, tm.saved = some v → (s.grid tm.grid).ctx = m.ctxid → fld b 8 8 ∈ v.records → found tm = some v) ∧
     (∀ tm w, found tm = some w → ∃ v, tm.saved = some v ∧ (s.grid tm.grid).ctx = m.ctxid ∧ (w = v ∨
       (w = { v with records := w.records } ∧ w.records.length = tm.cores.length ∧ (∀ r, w.records[0]? = some r → r = fld b 8 8) ∧
         ∀ n r, w.records[n]? = some r → ∃ h, header r h ∧ fld h 0 4 = 0x31564153 ∧ fld h 8 8 = (s.grid tm.grid).id ∧ fld h 0x18 2 = n))) ∧
     (asked 9 0x10 1 → (tabGet s.ctxs m.ctxid).isSome = true →
      ((∀ e ∈ s.teams, found e.2 = none) → answers (.restore link) 0x24 fun t => t.noMail = s.noMail) ∧
      ∀ j tm v, tabGet s.teams j = some tm → found tm = some v → (∀ e ∈ s.teams, (found e.2).isSome = true → e = (j, tm)) →
        (s.saveRecords (s.grid tm.grid) v = none → answers (.restore link) 0x24 fun t => t.noMail = s.noMail) ∧
        ∀ recs cores, s.saveRecords (s.grid tm.grid) v = some recs → s.restorePlace tm = some cores → answers (.restore link) 0 fun t =>
          (t.team j).saved = none ∧ (tm.handler = none → (t.team j).cores = cores))) ∧
    (asked 10 0xC 2 → m.ctxid = 0 → fld b 8 4 < 16 →
      (s.quiesce = none → goes (.quiesce link) fun t =>
        t.quiesce = some (link, fld b 8 4) ∧ t.svc = waits ∧ dies (fld b 8 4) t fun x => { x with quiescing := true }) ∧
      (s.quiesce ≠ none → (∀ d < 4, bitAt (fld b 8 4) d = true → s.dieResident d = false) → answers (.quiesce link) 0 fun t =>
        t.quiesce = none ∧ dies (fld b 8 4) t fun x => { x with quiescing := false })) ∧
    (∀ i state, (i, state) ∈ [(Instr.powerP0 link, 0), (.powerP1 link, 1)] → asked 11 0x10 2 → m.ctxid = 0 → fld b 8 4 = state →
      (fld b 0xC 4 < 16 → answers i 0 fun t => t.noMail = State.noMail { s with dies := t.dies } ∧ dies (fld b 0xC 4) t fun x =>
        if s.level < 4 then { x with recorded := some state }
        else { x with recorded := some state, parked := false, clock := if state = 1 then s.flash.p1 else 2500 }) ∧
      (16 ≤ fld b 0xC 4 → answers i 0x20 fun t => t.noMail = s.noMail)) ∧
    (asked 11 0x10 4 → m.ctxid = 0 → fld b 8 4 = 2 → fld b 0xC 4 < 16 →
      ((∀ d < 4, bitAt (fld b 0xC 4) d = true → s.dieResident d = false) → answers (.powerPark link) 0 fun t =>
        t.noMail = State.noMail { s with dies := t.dies } ∧ dies (fld b 0xC 4) t fun x => { x with parked := true }) ∧
      ((∃ d < 4, bitAt (fld b 0xC 4) d = true ∧ s.dieResident d = true) → answers (.powerPark link) 0x25 fun t => t.noMail = s.noMail))

/-! ### What reaches the part from outside -/

/-- CXL accesses and the weight port (R171, R180, R199, R298, R306), the fabric (R287, R302, R303, R304), leases (R181, R182) and worn parts
(R308): what each access, arrival, failure and expiry does to memory, to who holds a line, and to what is counted. The model's own choices among
them: what a peer's access is (log 45), how worn parts are counted (log 46), the home of a region (log 14), and where an arrival is staged (log
59). -/
def Obligations.HostAndFabric : Prop :=
  ∀ (s : State) (pa : Nat) (data : List Byte),
    let n := data.length
    let run : Prop := n ≠ 0 ∧ pa / 64 = (pa + n - 1) / 64
    let wrote (t : State) (at' : Nat) (d : List Byte) : Prop :=
      ∀ p, memByte t.mem p = if at' ≤ p ∧ p < at' + d.length then d.getD (p - at') 0 else memByte s.mem p
    let goes (i : Instr) (p : State → Prop) : Prop := ∃ t, exec i s = .next t ∧ p t
    (run → s.trained pa n = true → goes (.cxlMemRead pa n) fun t => t.lastRead = memRead s.mem pa n ∧ t.mem = s.mem ∧
      tabGet t.leases (pa / 128) = some ⟨[(4, s.clock)], []⟩ ∧ (tabGet t.hostLines (pa / 64)).isSome = true) ∧
    (run → s.trained pa n = false → exec (.cxlMemRead pa n) s = .next { s with lastRead := List.replicate n 0xFF } ∧
      exec (.cxlMemWrite pa data) s = .next s) ∧
    (run → s.trained pa n = true → kindOf pa ≠ some 1 → goes (.cxlMemWrite pa data) fun t =>
      wrote t pa data ∧ tabGet t.hostLines (pa / 64) = none ∧
        tabGet t.leases (pa / 128) = if (tabGet s.hostLines (pa / 64 / 2 * 2 + (1 - pa / 64 % 2))).isSome then tabGet s.leases (pa / 128) else none) ∧
    (run → s.trained pa n = true → kindOf pa = some 1 → goes (.cxlMemWrite pa data) fun t => t = { s with dies := t.dies } ∧
      (tabGetD t.dies (homeOf pa) {}).held = (tabGetD s.dies (homeOf pa) {}).held ++ [⟨pa, data, none⟩]) ∧
    (isHost pa = true → goes (.cxlCacheSnoop pa) fun t => t = { s with leases := t.leases } ∧
      tabGet t.leases (2 ^ 50 + pa / 64) = none ∧ ∀ k, k ≠ 2 ^ 50 + pa / 64 → tabGet t.leases k = tabGet s.leases k) ∧
    (∀ d h rest, (tabGetD s.dies d {}).held = h :: rest → s.dieResident d = false → goes (.weightPortWrite d) fun t =>
      (h.pa / 128 = (h.pa + h.bytes.length - 1) / 128 → wrote t h.pa h.bytes) ∧ (tabGetD t.dies d {}).held = rest ∧
        ∀ k gr, tabGet s.grids k = some gr →
          ((h.load = none ∨ ∃ e ∈ rest, e.load = h.load) → tabGet t.grids k = some gr) ∧
          (∀ n, h.load = some n → (∀ e ∈ rest, e.load ≠ some n) →
            tabGet t.grids k = some { gr with wloads := gr.wloads.filter fun p => p ≠ (d, n) })) ∧
    (∀ port lane, port < 48 → lane < 4 → goes (.fabricLaneFailure port lane) fun t =>
      t = { s with ports := t.ports, worn := s.worn ++ [.lane port lane] } ∧
      (∀ k, k ≠ port → tabGet t.ports k = tabGet s.ports k) ∧
      let p := tabGetD s.ports port {}
      tabGet t.ports port = some (if p.spare then { p with spare := false, swapping := true } else { p with lanes := 3 })) ∧
    (∀ port, (tabGetD s.ports port {}).swapping = true → goes (.spareLaneSwapComplete port) fun t => t = { s with ports := t.ports } ∧
      tabGet t.ports port = some { tabGetD s.ports port {} with swapping := false }) ∧
    (∀ peer, 4 ≤ s.level → peer ∈ s.flash.peers → n ≠ 0 → pa / 128 = (pa + n - 1) / 128 → s.trained pa n = true → s.lostAt pa n = false →
      goes (.peerAccess peer pa (.load n)) (fun t => t.lastRead = memRead s.mem pa n ∧ t.mem = s.mem) ∧
      (kindOf pa = some 1 → exec (.peerAccess peer pa (.store data)) s = .next s) ∧
      (kindOf pa ≠ some 1 → goes (.peerAccess peer pa (.store data)) fun t => wrote t pa data ∧ t.lastRead = s.lastRead) ∧
      (∀ v : DWord, n = 4 → pa % 4 = 0 → kindOf pa ≠ some 1 → goes (.peerAccess peer pa (.atomic .add false v)) fun t =>
        t.lastRead = memRead s.mem pa 4 ∧ wrote t pa (leBytes 4 ((memNat s.mem pa 4 + v.toNat % 2 ^ 32) % 2 ^ 32))) ∧
      (∀ e v : DWord, n = 8 → pa % 8 = 0 → kindOf pa ≠ some 1 → goes (.peerAccess peer pa (.cas true e v)) fun t =>
        t.lastRead = memRead s.mem pa 8 ∧ (memNat s.mem pa 8 = e.toNat → wrote t pa (leBytes 8 v.toNat)) ∧
          (memNat s.mem pa 8 ≠ e.toNat → t.mem = s.mem))) ∧
    (∀ ctx id expert, 4 ≤ s.level → id < 2 ^ 30 → expert < 256 → n ≤ 32768 →
      (tabGet s.ctxs ctx = none → exec (.remoteArrival ctx id expert data) s = .next s) ∧
      (∀ y p, (tabGet s.ctxs ctx).isSome = true → ((s.ctx ctx).coop (id / 2 ^ 28)).current id = some y → y.st = .opened →
        y.experts.findIdx (fun e => e == expert) = p → p < y.experts.length → bitAt y.arrived p = false → 2 * y.width ≤ n →
        y.arrived + 2 ^ p ≠ 2 ^ y.experts.length - 1 → goes (.remoteArrival ctx id expert data) fun t =>
          let die := id / 2 ^ 28
          let at' := ((s.ctx ctx).coop die).stagedAt die (id % 2 ^ 16) y p
          let bs := data.take (2 * y.width)
          (∀ q, memByte t.mem q = memByte (if inKind 0 at' (2 * y.width) = true ∧ homeOf at' = die then memWrite s.mem at' bs else s.mem) q) ∧
          ∃ w, tabGet ((t.ctx ctx).coop die).slots (id % 2 ^ 16) =
            some { y with arrived := y.arrived + 2 ^ p, staged := tabSet y.staged p bs, know := w })) ∧
    (∀ id o r x, tabGet s.ops id = some o → o.remote = some r → o.dsts = [] → tabGet s.groups o.g = some x → x.uid = o.uid → o.lanes.Nodup →
      (∀ l ∈ o.lanes, (tabGet x.lanes l).isSome = true) →
      let counted (t : State) : Prop := tabGet t.ops id = none ∧ ∀ l ∈ o.lanes, ((t.group o.g).lane l).flags = ((x.lane l).decFlag o.flag).flags
      goes (.remoteAcknowledgement id) (fun t => counted t ∧ t.mem = s.mem ∧ t.ctxs = s.ctxs) ∧
      goes (.remoteAckTimeout id) fun t => counted t ∧ t.clock = max s.clock (o.since + 250000) ∧
        ((tabGet s.ctxs o.ctx).isSome = true → (((s.ctx o.ctx).coop (coreOf o.g / 160)).relq).isSome = true →
          ((t.ctx o.ctx).coop (coreOf o.g / 160)).discards = ((s.ctx o.ctx).coop (coreOf o.g / 160)).discards + 1)) ∧
    (∀ holder, goes (.leaseRenewal holder) fun t => t = { s with leases := t.leases } ∧
      ∀ k, tabGet t.leases k = (tabGet s.leases k).map fun l => { l with holders := tabMod l.holders holder fun _ => s.clock }) ∧
    (∀ line h since wb, tabGet s.leases line = some ⟨[(h, since)], wb⟩ → (wb.map (·.1)).Nodup → goes (.leaseExpiry line) fun t =>
      tabGet t.leases line = none ∧ t.clock = max s.clock (since + 2500 * s.flash.lease) ∧
        (∀ p, memByte t.mem p = (tabGet wb p).getD (memByte s.mem p)) ∧
        (h = 4 → tabGet t.hostLines (2 * line) = none ∧ tabGet t.hostLines (2 * line + 1) = none) ∧
        let region := if 2 ^ 50 ≤ line then (line - 2 ^ 50) / 64 else line / 32
        (s.lost.length < Config.lostRegions → (tabGet t.lost region).isSome = true) ∧
        ∀ c, ∀ e ∈ (t.core c).tlb, ¬ (e.pbase < region * 4096 + 4096 ∧ region * 4096 < e.pbase + e.size)) ∧
    (∀ d k, (goes (.correctableError (.combineSlot d k)) fun t => .combineSlot d k ∈ t.worn) ∧
      ∀ p ∈ [WornPart.dramRow d k, .cacheWay d k], (.cacheWay d k ∉ s.flash.spares) → goes (.correctableError p) fun t => t.errorCount p = s.errorCount p + 1 ∧
        (p ∈ t.worn ↔ p ∈ s.worn ∨ Config.errorLimit < s.errorCount p + 1) ∧ t = { s with counts := t.counts, worn := t.worn })

/-! ### The Drover's work and what time brings -/

/-- Teams placed, popped and stolen, bins launched, grids, markers and reprojections completed, the watchdog, spatial pre-emption (R36, R58,
R62, R68, R81, R83, R212, R213, R219, R271). That a group takes the lowest free slot of its core is the model's choice (log 67), and so are
the privilege with which a completion signal is written (log 44) and the priority that a possible victim counts with (log 70). -/
def Obligations.DroverWork : Prop :=
  ∀ (s : State) (k : Nat) (gr : Grid),
    let w := unitWho gr.ctx gr.pkt.sys
    let goes (i : Instr) (p : State → Prop) : Prop := ∃ t, exec i s = .next t ∧ p t
    let placed (j : Nat) (y : Grid) (tid : Nat) (cores : List Nat) (lcore : Nat) (t : State) : Prop :=
      (∃ tm, tabGet t.teams s.nextId = some tm ∧ tm.grid = j ∧ tm.tid = tid ∧ tm.cores = cores ∧ tm.lcore = lcore ∧ tm.shadow = none ∧
        tm.saved = none ∧ tm.finished = false) ∧ (t.grid j).started = true ∧
      ∀ core slot, y.pkt.kind = 1 → y.pkt.teamSize = 32 → cores = [core] → slot / 64 = core → tabGet s.groups slot = none →
        (∀ n < slot, n / 64 = core → (tabGet s.groups n).isSome = true) →
        ∃ x, tabGet t.groups slot = some x ∧ x.grid = j ∧ x.team = s.nextId ∧ x.gidx = 0 ∧
          x.sregs = [(0, y.pkt.args.setWidth 32), (1, (y.pkt.args >>> 32).setWidth 32)] ∧
          ∀ l < 32, ∃ z, tabGet x.lanes l = some z ∧ z.pc = y.pkt.entry ∧ z.inBody = false ∧ z.fin = false ∧ z.regs = [] ∧ z.tix = l
    let ends (u t : State) (status : Nat) : Prop :=
      (∀ v, gr.pkt.signal ≠ 0 → gr.pkt.signal.toNat % 8 = 0 → 65536 ≤ gr.pkt.counter →
        u.putVa w gr.pkt.signal.toNat (leBytes 8 (if status = 0 then 1 else 2 ^ 63 + status)) = .ok v → t.mem = v.mem) ∧
      ((∀ e ∈ s.teams, e.2.grid = k → e.2.shadow = none) → tabGet t.grids k = none)
    tabGet s.grids k = some gr →
    (∀ tid cores lcore, s.savedWaits k = false → s.placeable k gr = some (tid, cores, lcore) → goes (.teamPlace k) fun t =>
      placed k gr tid cores lcore t ∧ (t.grid k).dealt = gr.dealt + 1) ∧
    (∀ core tid, (s.core core).deque.getLast? = some (k, tid) → s.canStart core (k, tid) = true → goes (.ownerPop core) fun t =>
      placed k gr tid [core] 0 t ∧ (gr.teams ≤ gr.dealt → (t.core core).deque = (s.core core).deque.dropLast)) ∧
    (∀ core tid v rest, (s.core core).deque = [] → s.stealFrom core = some v → (s.core v).deque = (k, tid) :: rest →
      s.canStart core (k, tid) = true → goes (.thiefSteal core) fun t =>
        placed k gr tid [core] 0 t ∧ (gr.teams ≤ gr.dealt → (t.core v).deque = rest)) ∧
    (gr.pkt.kind = 1 ∨ gr.pkt.kind = 3 → s.gridDone k = true → goes (.gridComplete k) fun t => ends s t 0) ∧
    (gr.pkt.kind = 4 → gr.done = true → gr.ended = false → goes (.gridComplete k) fun t => ends s t 0) ∧
    (gr.pkt.kind = 5 → gr.ended = false → (∀ e ∈ s.grids, e.1 < k → e.2.queue = gr.queue → e.2.ended = true) →
      goes (.markerComplete k) fun t => ends s t 0) ∧
    (gr.pkt.kind = 2 → gr.ended = false → fld gr.pkt.raw 0x58 8 = 0 →
      ∀ u, s.putVa w (fld gr.pkt.raw 0x38 8) (leBytes 4 gr.count ++ leBytes 4 0) = .ok u → goes (.reprojectionComplete k) fun t => ends u t 0) ∧
    (∀ since, gr.progress = some since → gr.paused = none → s.watchSuspended k = false → goes (.watchdogExpiry k) fun t =>
      ends s t 0x11 ∧ (∀ e ∈ t.groups, e.2.grid ≠ k) ∧ (∀ c, ∀ e ∈ (t.core c).deque, e.1 ≠ k) ∧
        t.clock = max s.clock (since + (if gr.pkt.watchdog = 0 then 2000 else gr.pkt.watchdog) * 2500000)) ∧
    (∀ core bin b slot, tabGet (s.core core).bins bin = some b → b.grid = k → b.closed = true → b.items.length ≤ 32 →
      (tabGetD s.dies (core / 160) {}).inService = true → (tabGetD s.dies (core / 160) {}).parked = false →
      s.hasRoom core ⟨1, 32 * gr.pkt.vbud.getD 0 0, 32 * gr.pkt.resid, 0⟩ = true → slot / 64 = core → tabGet s.groups slot = none →
      (∀ n < slot, n / 64 = core → (tabGet s.groups n).isSome = true) → goes (.binLaunch core bin) fun t =>
        tabGet (t.core core).bins bin = none ∧ ∃ y pack, tabGet t.groups slot = some y ∧ y.grid = k ∧ y.role = 0 ∧
          y.bin = some (b.items.length, pack) ∧ ∀ j item, b.items[j]? = some item → ∃ z, tabGet y.lanes j = some z ∧ z.pc = item.entry ∧
            z.fin = false ∧ tabGet z.regs 0 = some item.payload) ∧
    (∀ q key waits level cores, s.waitingPacket q = some (key, waits, level) → s.hasPicks q key = false →
      s.isVictim k gr waits level cores = true → (∀ e ∈ s.grids, s.isVictim e.1 e.2 waits level cores = true → e = (k, gr)) →
      (∀ e ∈ s.teams, e.2.shadow = none) → goes (.spatialPreemption q cores) fun t =>
        (t.grid k).picked = gr.picked ++ cores.map (fun c => (c, q, key)) ∧ (s.sectionsAwaited k = false → (t.grid k).pickedAt = s.clock) ∧
        ∀ j tm, j < s.nextId → tabGet s.teams j = some tm → tm.grid = k → tm.handler = none → tm.leaves cores = true →
          (∀ c ∈ tm.cores, c ∈ gr.pickedCores ++ cores → s.sectionOn c = false) → (t.team j).saving.isSome = true) ∧
    (gr.sectWait = false → (∃ e ∈ s.teams, s.givesUp k e.2 = true ∧ e.2.saving = none) →
      goes (.preemptionWaitExpiry k) fun t => (t.grid k).sectWait = true ∧ t.clock = max s.clock (gr.pickedAt + 250000) ∧ t.mem = s.mem)

/-- Timers, page walks, parity, checking and the releases of combine slots (R53, R54, R58, R100, R101, R165, R172, R174, R221, R222, R225,
R289, R290, R291): what each brings. The model's own choices among them: that the oldest entry leaves a full TLB (log 9), when a release record
has room (log 43), and the phases of refresh (log 47). -/
def Obligations.TimersAndChecks : Prop :=
  ∀ (s : State) (g : Nat) (x : Group),
    let goes (i : Instr) (p : State → Prop) : Prop := ∃ t, exec i s = .next t ∧ p t
    let stands (y : Lane) : Prop := y.fin = false ∧ y.park = .stand
    tabGet s.groups g = some x →
    (∀ team core h y n l, (tabGetD (s.team team).slices ((s.team team).sliceKey core) {}).timer = some n → s.vgroups team core = [g, h] → g ≠ h →
      tabGet s.groups h = some y → x.team = team → y.team = team → (s.team team).handler = none → (s.team team).saved = none → l < 32 →
      goes (.regroupTimerExpiry team core) fun t =>
        let at' := max s.clock (n + 1024)
        let goesOn (z : Lane) : Lane := { z with park := .none, stamp := at' }
        t.clock = at' ∧
        (stands (x.lane l) → stands (y.lane l) →
          let turned := (y.lane l).pc.toNat < (x.lane l).pc.toNat
          (t.group g).lane l = goesOn (if turned then y.lane l else x.lane l) ∧
            (t.group h).lane l = goesOn (if turned then x.lane l else y.lane l)) ∧
        ((x.lane l).fin = true → stands (y.lane l) → (t.group g).lane l = goesOn (y.lane l)) ∧
        ((x.lane l).fin = false → (x.lane l).park ≠ .stand → (t.group g).lane l = x.lane l)) ∧
    (∀ core bin b, tabGet (s.core core).bins bin = some b → b.closed = false → goes (.binTimerExpiry core bin) fun t =>
      let after := (s.grid b.grid).pkt.binTimer
      tabGet (t.core core).bins bin = some { b with closed := true } ∧
        t.clock = max s.clock (b.timer + (if after = 0 then 2000 else after) * 5 / 2) ∧ t.groups = s.groups ∧ t.mem = s.mem) ∧
    (let saves : Prop := (s.team x.team).saving.isSome = true ∧ s.stopped x.team = true;
      ((saves ∨ ∃ l ∈ x.live, (x.lane l).irrev = true) → exec (.parityError g) s = .next (s.abortGrid x.grid 0x10)) ∧
      (¬ saves → (∀ l ∈ x.live, (x.lane l).irrev = false) → x.trap = none → s.enginesIdle x.team = true → x.live ≠ [] →
        (let u := x.lanes.foldl (fun t e => t.finishHalves g e.1) s
         (∀ l ∈ x.live, (x.lane l).rollbacks < 5 ∧ (x.lane l).rollbacks ≠ 2 ∧ (u.region (s.thread g l)).broken = false) →
          goes (.parityError g) fun t => t.mem = u.mem ∧
            (∀ e ∈ t.ops, e.2.g = g → e.2.remote ≠ none) ∧ (∀ e ∈ t.resid, e.2.g ≠ g) ∧
            (∀ e ∈ s.ops, e.2.g = g → e.2.icinv = true → ∀ c, e.2.reach.contains c = true →
              ∀ w ∈ (t.core c).icache, ¬ (e.2.ctx * 2 ^ 64 ≤ w.1 ∧ w.1 < e.2.ctx * 2 ^ 64 + 2 ^ 64)) ∧
            (∀ l ∈ x.live, (t.region (s.thread g l)).back = true) ∧ (t.group g).spend = [] ∧ (t.group g).sregs = x.sregs ∧
            ∀ l ∈ x.live, (x.lane l).fin = false → (t.group g).lane l =
              { x.lane l with
                pc := (x.lane l).rgnHdr, hdr := (x.lane l).rgnHdr, inBody := false, body := [], park := .none, yielded := false
                wb := (x.lane l).rgnWb, flags := [], pend := [], ppend := [], rollbacks := (x.lane l).rollbacks + 1, pass := false }) ∧
        ((∀ l ∈ x.live, (x.lane l).rollbacks < 5) → (∃ l ∈ x.live, (x.lane l).rollbacks = 2) →
          goes (.parityError g) fun t => (t.core (coreOf g)).quarantined = true ∧ .core (coreOf g) ∈ t.worn) ∧
        ((∃ l ∈ x.live, 5 ≤ (x.lane l).rollbacks) → goes (.parityError g) fun t => ∀ e ∈ t.groups, e.2.grid ≠ x.grid))) ∧
    (∀ team h, s.shadowOf team = some h → (s.team team).finished = true → (s.team h).finished = true → goes (.digestCompare team) fun t =>
      tabGet t.teams h = none ∧ (t.team team).checked = false ∧
        ((s.team team).digest = (s.team h).digest → t.mismatch = s.mismatch ∧ t.errors = s.errors) ∧
        ((s.team team).digest ≠ (s.team h).digest → t.mismatch = min 65535 (s.mismatch + 1) ∧ t.errors.length = s.errors.length + 1)) ∧
    (∀ ctx die i y, (tabGet s.ctxs ctx).isSome = true → tabGet ((s.ctx ctx).coop die).slots i = some y →
      let k := (s.ctx ctx).coop die
      let slot (t : State) : Option CSlot := tabGet ((t.ctx ctx).coop die).slots i
      (y.timeout ≠ 0 → y.timedOut = false → goes (.slotTimerExpiry ctx die i) fun t => t.clock = max s.clock (y.since + 2500 * y.timeout) ∧
        (y.policy = 0 → slot t = some { y with timedOut := true }) ∧
        (y.policy ≠ 0 → ∀ z, slot t = some z → z.st = .releasing ∧ z.timedOut = true)) ∧
      (y.st = .releasing → y.recordDue = false → k.mustWait y = false → k.relq = none → 65536 ≤ y.counter → y.fault = false →
        (y.reason = some .cancelled → goes (.orderedRelease ctx die i) fun t => slot t = none ∧ t.mem = s.mem) ∧
        (∀ u, y.reason ≠ some .cancelled → s.putVa (unitWho ctx y.privileged) y.dest y.out = .ok u →
          goes (.orderedRelease ctx die i) fun t => slot t = none ∧ t.mem = u.mem)) ∧
      (∀ r rest base n block consumer u, k.waiting = r :: rest → k.relq = some (base, n, block) → r.slot = some i →
        s.readVa (unitWho ctx true) block 8 = .ok (leBytes 8 consumer) → consumer < 2 ^ 64 → k.m < consumer + 2 ^ n →
        s.putVa (unitWho ctx true) (base + 16 * (k.m % 2 ^ n)) (leBytes 4 r.token.toNat ++ leBytes 4 r.id.toNat ++
          leBytes 4 (r.info ||| if y.timedOut then 0x40000 else 0).toNat ++ leBytes 4 (k.m + 1)) = .ok u →
        goes (.releaseRecordWrite ctx die) fun t => t.mem = u.mem ∧ slot t = none ∧ ((t.ctx ctx).coop die).m = k.m + 1 ∧
          ((t.ctx ctx).coop die).waiting = rest ∧ tabGet ((t.ctx ctx).coop die).gens i = some ((tabGetD k.gens i 0 + 1) % 4096))) ∧
    (∀ die d, tabGet s.dies die = some d → d.inService = true → goes (.weightRefreshWindow die) fun t =>
      let phase := (match d.phaseNext with | some p => if p.2 ≤ s.clock then p.1 else d.phase | none => d.phase)
      s.clock < t.clock ∧ t.clock ≤ s.clock + 625 ∧ (t.clock + phase) % 625 = 0 ∧ t = { s with clock := t.clock, dies := t.dies } ∧
        tabGet t.dies die = some (match d.phaseNext with
          | some p => if p.2 ≤ t.clock then { d with phase := p.1, phaseNext := none } else d
          | none => d)) ∧
    (∀ core ctx va, core < 640 → (tabGet s.ctxs ctx).isSome = true → s.tlbHit core ctx va = none →
      (s.walk ctx va = none → exec (.pageWalkComplete core ctx va) s = .next s) ∧
      (∀ e, s.walk ctx va = some e → (∀ k, e.allows true k = false) → exec (.pageWalkComplete core ctx va) s = .next s) ∧
      (∀ e k, s.walk ctx va = some e → e.allows true k = true → goes (.pageWalkComplete core ctx va) fun t => t = { s with cores := t.cores } ∧
        (∀ j, j ≠ core → t.core j = s.core j) ∧
        t.core core = { s.core core with tlb := (if 2048 ≤ (s.core core).tlb.length then (s.core core).tlb.drop 1 else (s.core core).tlb) ++ [e] }))

/-! ### Encodings, reset and the step -/

/-- What a device reset leaves in the registers that the spec gives a reset value (R16, R183, R223, R300, Tables 7.7, 7.12 and 9.8): SVCCAP,
RSPSEQ of both mailboxes, REGIONSTAT, WSCHEDCFG and DETSEL read 0, nothing of the host's is registered, and the invariant holds. -/
def Obligations.ResetState : Prop :=
  let s := State.reset
  s.Inv ∧ s.svccap = 0 ∧ s.level = 0 ∧ s.err = false ∧ s.mbox0.rspseq = 0 ∧ s.mbox1.rspseq = 0 ∧ s.mbox0.cmdseq = 0 ∧ s.mbox1.cmdseq = 0 ∧
    s.regionstat = 0 ∧ s.walign = false ∧ s.detsel = 0 ∧ s.ctxs = [] ∧ s.grids = [] ∧ s.teams = [] ∧ s.groups = [] ∧ s.queues = [] ∧
    s.counters = [] ∧ s.leases = [] ∧ s.hostRanges = [] ∧ s.svc = [] ∧ (∀ c, (s.core c).tlb = [] ∧ (s.core c).icache = [] ∧ (s.core c).bins = []) ∧
    ∀ q, (s.queue q).en = false ∧ (s.queue q).w = 0 ∧ (s.queue q).r = 0

/-- Words that the entries write out, one or more of every family, and the instructions that they encode (R127, R128, R129, R130, R131, R133). -/
def Obligations.DecodedWords : Prop :=
  (∀ e ∈ ([(0x1602CB60, .icmp .eq 11 22 (.reg 96)), (0x208C77FF, .iaddi 35 14 0x7FF), (0x3850A040, .saddi 20 20 64),
      (0x4A808688, .fcmp .gt 2 13 (.reg 8)), (0x5620C208, .fcvt .rtz .toInt32 3 4), (0x65010181, .reduce .fadd 4 3 (.reg 1)),
      (0x70003FFA, .bra .always (-6)), (0x70224015, .bra (.ifTrue 9) 21), (0x7E600600, .pend 12), (0x9240050C, .cctlWbinv 10 (.reg 12)),
      (0xA0050418, .fetch 20 8 24), (0xB2000400, .chain 8), (0xC4004205, .conv 1 4 5), (0xCA000A16, .tld 0 20 (.reg 22)),
      (0xD607900D, .depset 30 32 (.reg 13)), (0xD8250200, .cmbopen true 20 4), (0xDA020500, .cmbput 8 10), (0xE20A0201, .hitget 40 4 (.reg 1)),
      (0xE403020A, .vapp 12 4 (.reg 10)), (0xF0000007, .trap 7), (0xF8000500, .pxw 10)] : List (Nat × Instr)),
    ∀ next, decodeWord (BitVec.ofNat 32 e.1) next = .ok (e.2, 1)) ∧
  (∀ e ∈ ([(0x3605CBFF, 0x00001000, .sadd 23 23 (.lit 0x1000)), (0x0A51E17F, 0x80000000, .or 71 66 (.lit 0x80000000)),
      (0x8C05050C, 0x00000036, .cas false .ar .device 20 10 12)] : List (Nat × Nat × Instr)),
    decodeWord (BitVec.ofNat 32 e.1) (some (BitVec.ofNat 32 e.2.1)) = .ok (e.2.2, 2) ∧
      decodeWord (BitVec.ofNat 32 e.1) none = .error .following)

/-- Decoding undoes encoding: every well-formed instruction word of the part, with every operand at every value that its encoding admits, is
what its words decode to (R127 to R133). The two names of one REGIONSTAT word share that word. -/
def Obligations.EncodingRoundTrip : Prop :=
  (∀ i : Instr, i.isWord = true → i.wf = true → (∀ a, i ≠ .regionstatClearOvf a) →
    (∃ w, encode i = [w] ∧ (∀ next, decodeWord w next = .ok (i, 1)) ∧ decodeTableWord 32 w.toNat = some i) ∨
    ∃ w v, encode i = [w, v] ∧ decodeWord w (some v) = .ok (i, 2) ∧ decodeTableWord 64 (w.toNat + 2 ^ 32 * v.toNat) = some i) ∧
  ∀ a, encode (.regionstatClearOvf a) = encode (.regionstatClearRegion a)

/-- A step runs the instruction that the words at the program counter decode to, for the lanes of the issue set, and then puts the set out of
focus; where no register is spilled or filled and no region that was rolled back ends it adds nothing to memory or to registers (R43, R44,
R93, R120, R135). The second halves of the set's B128 stores are made first (R188). A word is as fetched with its clause's header, else as the
core fetches it: memory's, or the one that its instruction cache holds (R140, R141). At a clause header the set's lanes whose flags in WAIT read
zero go into the body, at an IDEM header those alone whose residuals have run, and a region starts there (R43, R99, R113, R123 to R125); a header
that fails its check traps in every lane of the set (R122); a lost access is reported before the WAIT test, once every set of the group has
stopped (R206). It makes the device step that the schedule names. -/
def Obligations.StepRunsDecoded : Prop :=
  (∀ (s : State) (i : Instr) (rest : List Sched), s.sched = .event i :: rest → step s = exec i { s.tick with sched := rest }) ∧
  (∀ (s : State) (g l : Nat) (resume ls : List Nat) (rest : List Sched) (i : Instr) (x y : Word),
    let v : State := { s.tick with sched := rest }
    let u := ls.foldl (fun t l => t.finishHalves g l) v
    let c := u.cxOf g ls
    let a := c.y0.pc.toNat
    let room := c.y0.room
    let held (a : Nat) (x : Word) : Prop := c.y0.body[(a - c.y0.hdr.toNat) / 4 - 1]? = some (some x)
    let word (a : Nat) (x : Word) : Prop := held a x ∨
      ((∀ z, ¬ held a z) ∧ (u.imageAt c.gr.ctx a).isSome = true ∧ ∃ pa, u.xlate c.who .fetch a 4 = .ok pa ∧
        x = u.fromCache c.who a false (BitVec.ofNat 32 (memNat u.mem pa 4)))
    s.sched = .issue g l resume :: rest → ls ≠ [] → v.lanesFor g l resume = ls → c.y0.inBody = true → word a x →
    (decodeWord x none = .ok (i, 1) ∨
      (decodeWord x none = .error .following ∧ 2 ≤ room ∧ word (a + 4) y ∧ decodeWord x (some y) = .ok (i, 2))) →
    (lastOnly i = true → room = sizeOf' i) → (needsLevel3 i = true → 3 ≤ u.level) → u.unheld c i = [] →
    step s = match exec i (u.focusOn g ls) with
      | .next t => u.afterWord c i t
      | o => o) ∧
  (∀ (s : State) (g l : Nat) (resume ls : List Nat) (rest : List Sched) (h : Word),
    let v : State := { s.tick with sched := rest }
    let u := ls.foldl (fun t l => t.finishHalves g l) v
    let c := u.cxOf g ls
    let a := c.y0.pc.toNat
    let det := c.gr.pkt.det
    let z (l : Nat) : Lane := c.x.lane l
    let goes (l : Nat) : Prop := (∀ n < 12, h.getLsbD (20 + n) = true → tabGet (z l).flags n = none) ∧
      (h.getLsbD 7 = true → ∀ e ∈ u.resid, e.2.g = g → e.2.lane ≠ l)
    let others (t : State) : Prop := ∀ j, j ≠ g → tabGet t.groups j = tabGet u.groups j
    s.sched = .issue g l resume :: rest → ls ≠ [] → v.lanesFor g l resume = ls → c.y0.inBody = false →
    (c.x.lost = [] →
      (∀ k b, u.checkHeader c.who a = .error (k, b) → (u.team c.x.team).shadow = none →
        ∃ t, step s = .next t ∧ Suspended u c t (ls.map fun l => (l, k, b))) ∧
      (u.checkHeader c.who a = .ok h →
        (det = true → h.getLsbD 5 = true → (∃ l ∈ ls, (z l).yielded = false) → ∃ t, step s = .next t ∧
          LanesOnly u c t fun _ y => { y with yielded := true }) ∧
        ((det = true → h.getLsbD 5 = true → ∀ l ∈ ls, (z l).yielded = true) →
          ((∀ l ∈ ls, ¬ goes l) → step s = .fault .notEnabled) ∧ (det = true → (∃ l ∈ ls, ¬ goes l) → step s = .fault .notEnabled) ∧
          ((∃ l ∈ ls, goes l) → (det = true → ∀ l ∈ ls, goes l) → (∀ l ∈ ls, (u.region (u.thread g l)).back = false) →
            ∃ t, step s = .next t ∧
              t = { u with groups := t.groups, cores := t.cores, order := t.order, nextId := u.nextId + 1 } ∧ others t ∧
              tabGet t.groups g = some { c.x with lanes := (t.group g).lanes, running := (t.group g).running } ∧
              (det = false → (t.group g).running = c.x.running) ∧
              (∀ l, l ∉ ls → tabGet (t.group g).lanes l = tabGet c.x.lanes l) ∧
              ∀ l ∈ ls, (¬ goes l → (t.group g).lane l = z l) ∧ (goes l →
                let y := (t.group g).lane l
                y = { z l with
                  pc := (z l).pc + 4, hword := h, inBody := true, body := y.body, set := u.nextId, stamp := u.clock, yielded := false
                  park := .none, rgnHdr := if h.getLsbD 7 then (z l).hdr else (z l).rgnHdr
                  rgnWb := if h.getLsbD 7 then (z l).wb else (z l).rgnWb
                  irrev := (z l).irrev && !h.getLsbD 7, rollbacks := if h.getLsbD 7 then 0 else (z l).rollbacks } ∧
                y.body.length = hLen h ∧ ∀ n < hLen h, y.body[n]? = some (u.fetchWord c.who (a + 4 + 4 * n)).toOption))))) ∧
    (∀ e r, c.x.lost = e :: r →
      (det = false → (∃ l ∈ c.x.ready, (z l).inBody = true) → step s = .fault .notEnabled) ∧
      ((det = true ∨ ∀ l ∈ c.x.ready, (z l).inBody = false) → (u.team c.x.team).shadow = none →
        ∃ t tr, step s = .next t ∧ t = { u with groups := t.groups } ∧ others t ∧
          tabGet t.groups g = some { c.x with lost := c.x.lost.filter fun f => f.issue ≠ e.issue, trap := some tr } ∧
          tr.deferred = true ∧ tr.hdr = e.hdr ∧ tr.dst = e.dst ∧ tr.record = none ∧
          (∀ f, f ∈ tr.faults ↔ ∃ w ∈ c.x.lost, w.issue = e.issue ∧ f = (w.lane, .regionLost, w.addr)) ∧
          ∃ f ∈ tr.faults, (∀ w ∈ tr.faults, f.1 ≤ w.1) ∧ tr.pc = (z f.1).pc))) ∧
  (∀ (s : State) (w : Who) (a : Nat),
    (s.imageAt w.ctx a = none → s.checkHeader w a = .error (.illegal, a)) ∧
    (∀ im e, s.imageAt w.ctx a = some im → s.xlate w .fetch a 4 = .error e → s.checkHeader w a = .error (e, a)) ∧
    ∀ im pa, s.imageAt w.ctx a = some im → s.xlate w .fetch a 4 = .ok pa →
      let h := s.fromCache w a false (BitVec.ofNat 32 (memNat s.mem pa 4))
      let n := (a - im.code) / 4
      let len := if (h >>> 8) &&& 0xF = 0 then 16 else ((h >>> 8) &&& 0xF).toNat
      let flag (k : Nat) : Nat := ((h >>> k) &&& 0xF).toNat
      let bad : Prop := (∃ k ∈ [12, 16], 12 ≤ flag k ∧ flag k ≤ 14) ∨ (h &&& 0x1F) ≠ 0 ∨ im.words ≤ n + len ∨
        s.mapBit w im n = .ok false ∨ ∃ k, 1 ≤ k ∧ k ≤ len ∧ s.mapBit w im (n + k) = .ok true
      (bad → s.checkHeader w a = .error (.illegal, a)) ∧
      (¬ bad → s.mapBit w im n = .ok true → (∀ k, 1 ≤ k → k ≤ len → s.mapBit w im (n + k) = .ok false) → s.checkHeader w a = .ok h) ∧
      (¬ bad → ∀ k e, k ≤ len → s.mapBit w im (n + k) = .error e → ∃ k' ≤ len, ∃ e', s.mapBit w im (n + k') = .error e' ∧
        s.checkHeader w a = .error e' ∧ e'.1.rank ≤ e.1.rank)) ∧
  (∀ (s : State) (w : Who) (a : Nat) (now : Word),
    (tabGet (s.core w.core).icache (w.ctx * 2 ^ 64 + a) = none → s.fromCache w a false now = now) ∧
    ∀ old, tabGet (s.core w.core).icache (w.ctx * 2 ^ 64 + a) = some old →
      s.fromCache w a false now = old ∨ s.fromCache w a false now = now) ∧
  (∀ (s : State) (c : Cx) (i : Instr) (t : State),
    let ge := (s.groupEntries c i).getD ⟨c.x.sresident, [], []⟩
    let le (l : Nat) : Entries := (s.laneEntries c i l).getD ⟨(c.x.lane l).resident, [], []⟩
    ge.spilled = [] → ge.filled = [] → (∀ l, (le l).spilled = [] ∧ (le l).filled = []) →
    (∀ l ∈ c.ls, (t.region (s.thread c.g l)).back = false) →
    ∃ u, s.afterWord c i t = .next u ∧ u.focus = none ∧ u.mem = t.mem ∧ u.ctxs = t.ctxs ∧ u.teams = t.teams ∧ u.ops = t.ops ∧ u.resid = t.resid ∧
      (∀ g, g ≠ c.g → u.group g = t.group g) ∧ (u.group c.g).sregs = (t.group c.g).sregs ∧ (u.group c.g).trap = (t.group c.g).trap ∧
      ∀ l, (u.group c.g).lane l =
        { (t.group c.g).lane l with set := ((u.group c.g).lane l).set, resident := ((u.group c.g).lane l).resident })

/-- Every step keeps the invariant, from every state that has it: memory stays in canonical form, the service level is one of R12, and the
region-status table stays within its capacity (R182). -/
def Obligations.StepKeepsInv : Prop := ∀ s t : State, s.Inv → step s = .next t → t.Inv
end

