-- ==== Sys2Proof/Laws/Memory.lean ====
section
/-!
SUPPORT. Tables and memory: reading after writing, what a write leaves alone, and that every operation on the byte table keeps the
canonical form.
-/

namespace Sys2Proof.Machine

/-! ### Tables -/

variable {α β : Type}

@[simp] theorem tabGet_nil (n : Nat) : tabGet ([] : Tab α) n = none := rfl

@[simp] theorem tabGet_tabSet_self (t : Tab α) (n : Nat) (v : α) : tabGet (tabSet t n v) n = some v := by
  induction t with
  | nil => simp [tabSet, tabGet]
  | cons e t ih =>
    obtain ⟨k, w⟩ := e
    simp only [tabSet]
    split
    · simp [tabGet]
    · split
      · simp [tabGet]
      · rename_i h1 h2; simp [tabGet, h2, ih]

theorem tabGet_tabSet_ne (t : Tab α) {n m : Nat} (v : α) (h : m ≠ n) : tabGet (tabSet t n v) m = tabGet t m := by
  induction t with
  | nil => simp [tabSet, tabGet, h]
  | cons e t ih =>
    obtain ⟨k, w⟩ := e
    simp only [tabSet]
    split
    · simp [tabGet, h]
    · split
      · rename_i h1 h2; subst h2; simp [tabGet, h]
      · simp [tabGet, ih]

@[simp] theorem tabGet_tabDel_self (t : Tab α) (n : Nat) : tabGet (tabDel t n) n = none := by
  induction t with
  | nil => rfl
  | cons e t ih =>
    obtain ⟨k, w⟩ := e
    simp only [tabDel]
    split
    · exact ih
    · rename_i h; simp [tabGet, h, ih]

theorem tabGet_tabDel_ne (t : Tab α) {n m : Nat} (h : m ≠ n) : tabGet (tabDel t n) m = tabGet t m := by
  induction t with
  | nil => rfl
  | cons e t ih =>
    obtain ⟨k, w⟩ := e
    simp only [tabDel]
    split
    · rename_i h1; subst h1; simp [tabGet, h, ih]
    · simp [tabGet, ih]

@[simp] theorem tabGet_tabMod_self (t : Tab α) (n : Nat) (f : α → α) : tabGet (tabMod t n f) n = (tabGet t n).map f := by
  unfold tabMod
  cases h : tabGet t n with
  | none => simp [h]
  | some v => simp

theorem tabGet_tabMod_ne (t : Tab α) {n m : Nat} (f : α → α) (h : m ≠ n) : tabGet (tabMod t n f) m = tabGet t m := by
  unfold tabMod
  cases tabGet t n with
  | none => rfl
  | some v => exact tabGet_tabSet_ne t _ h

@[simp] theorem tabGet_tabMap (t : Tab α) (f : Nat → α → α) (n : Nat) : tabGet (tabMap t f) n = (tabGet t n).map (f n) := by
  induction t with
  | nil => rfl
  | cons e t ih =>
    obtain ⟨k, w⟩ := e
    have : tabMap ((k, w) :: t) f = (k, f k w) :: tabMap t f := rfl
    rw [this]
    simp only [tabGet]
    split
    · rename_i h; simp [h]
    · exact ih

/-- A key below every key of a table is not in it. -/
theorem tabSorted_tail {e : Nat × α} {t : Tab α} (h : tabSorted (e :: t) = true) : tabSorted t = true := by
  obtain ⟨k, w⟩ := e
  cases t with
  | nil => rfl
  | cons e' t => obtain ⟨l, x⟩ := e'; simp [tabSorted] at h ⊢; exact h.2

/-- The keys of a sorted table exceed its head's. -/
theorem tabSorted_lt {k : Nat} {w : α} {t : Tab α} (h : tabSorted ((k, w) :: t) = true) : ∀ e ∈ t, k < e.1 := by
  induction t generalizing k w with
  | nil => simp
  | cons e t ih =>
    obtain ⟨l, x⟩ := e
    simp [tabSorted] at h
    intro e he
    cases he with
    | head => exact h.1
    | tail _ he => exact Nat.lt_trans h.1 (ih h.2 e he)

theorem tabSorted_cons {k : Nat} {w : α} {t : Tab α} (h : tabSorted t = true) (hk : ∀ e ∈ t, k < e.1) :
    tabSorted ((k, w) :: t) = true := by
  cases t with
  | nil => rfl
  | cons e t => obtain ⟨l, x⟩ := e; simp [tabSorted, h]; exact hk (l, x) (by simp)

theorem mem_tabSet {t : Tab α} {n : Nat} {v : α} {e : Nat × α} (h : e ∈ tabSet t n v) : e = (n, v) ∨ e ∈ t := by
  induction t with
  | nil => simp [tabSet] at h; exact .inl h
  | cons d t ih =>
    obtain ⟨k, w⟩ := d
    simp only [tabSet] at h
    split at h
    · simpa using h
    · split at h
      · rcases List.mem_cons.1 h with h | h
        · exact .inl h
        · exact .inr (List.mem_cons_of_mem _ h)
      · rcases List.mem_cons.1 h with h | h
        · exact .inr (h ▸ List.mem_cons_self)
        · rcases ih h with h | h
          · exact .inl h
          · exact .inr (List.mem_cons_of_mem _ h)

theorem mem_tabDel {t : Tab α} {n : Nat} {e : Nat × α} (h : e ∈ tabDel t n) : e ∈ t := by
  induction t with
  | nil => exact h
  | cons d t ih =>
    obtain ⟨k, w⟩ := d
    simp only [tabDel] at h
    split at h
    · exact List.mem_cons_of_mem _ (ih h)
    · rcases List.mem_cons.1 h with h | h
      · exact h ▸ List.mem_cons_self
      · exact List.mem_cons_of_mem _ (ih h)

theorem tabSorted_tabSet {t : Tab α} (n : Nat) (v : α) (h : tabSorted t = true) : tabSorted (tabSet t n v) = true := by
  induction t with
  | nil => rfl
  | cons d t ih =>
    obtain ⟨k, w⟩ := d
    have hk := tabSorted_lt h
    simp only [tabSet]
    split
    · rename_i h1
      refine tabSorted_cons h fun e he => ?_
      rcases List.mem_cons.1 he with he | he
      · subst he; exact h1
      · exact Nat.lt_trans h1 (hk e he)
    · split
      · rename_i h2; subst h2; exact tabSorted_cons (tabSorted_tail h) hk
      · rename_i h1 h2
        refine tabSorted_cons (ih (tabSorted_tail h)) fun e he => ?_
        rcases mem_tabSet he with he | he
        · subst he; show k < n; omega
        · exact hk e he

theorem tabSorted_tabDel {t : Tab α} (n : Nat) (h : tabSorted t = true) : tabSorted (tabDel t n) = true := by
  induction t with
  | nil => rfl
  | cons d t ih =>
    obtain ⟨k, w⟩ := d
    simp only [tabDel]
    split
    · exact ih (tabSorted_tail h)
    · exact tabSorted_cons (ih (tabSorted_tail h)) fun e he => tabSorted_lt h e (mem_tabDel he)

theorem tabSorted_filter {t : Tab α} (p : Nat × α → Bool) (h : tabSorted t = true) : tabSorted (t.filter p) = true := by
  induction t with
  | nil => rfl
  | cons d t ih =>
    obtain ⟨k, w⟩ := d
    simp only [List.filter]
    split
    · exact tabSorted_cons (ih (tabSorted_tail h)) fun e he => tabSorted_lt h e (List.mem_filter.1 he).1
    · exact ih (tabSorted_tail h)

theorem length_tabDel_le (t : Tab α) (n : Nat) : (tabDel t n).length ≤ t.length := by
  induction t with
  | nil => exact Nat.le_refl _
  | cons d t ih => obtain ⟨k, w⟩ := d; simp only [tabDel]; split <;> simp <;> omega

theorem length_tabSet_le (t : Tab α) (n : Nat) (v : α) : (tabSet t n v).length ≤ t.length + 1 := by
  induction t with
  | nil => simp [tabSet]
  | cons d t ih => obtain ⟨k, w⟩ := d; simp only [tabSet]; split <;> (try split) <;> simp <;> omega

/-! ### The byte table -/

@[simp] theorem memByte_memSet_self (m : Tab Byte) (a : Nat) (b : Byte) : memByte (memSet m a b) a = b := by
  unfold memByte memSet tabGetD
  split
  · rename_i h; subst h; simp
  · simp

theorem memByte_memSet_ne (m : Tab Byte) {a c : Nat} (b : Byte) (h : c ≠ a) : memByte (memSet m a b) c = memByte m c := by
  unfold memByte memSet tabGetD
  split
  · rw [tabGet_tabDel_ne m h]
  · rw [tabGet_tabSet_ne m b h]

/-- A write leaves every byte outside it as it was. -/
theorem memByte_memWrite_outside (m : Tab Byte) (a : Nat) (bs : List Byte) {c : Nat} (h : c < a ∨ a + bs.length ≤ c) :
    memByte (memWrite m a bs) c = memByte m c := by
  induction bs generalizing m a with
  | nil => rfl
  | cons b bs ih =>
    simp only [List.length_cons] at h
    rw [memWrite, ih _ _ (by omega), memByte_memSet_ne m b (by omega)]

/-- Reading back what was written. -/
theorem memByte_memWrite_inside (m : Tab Byte) (a : Nat) (bs : List Byte) (i : Nat) (h : i < bs.length) :
    memByte (memWrite m a bs) (a + i) = bs[i] := by
  induction bs generalizing m a i with
  | nil => simp at h
  | cons b bs ih =>
    cases i with
    | zero =>
      rw [memWrite, memByte_memWrite_outside _ _ _ (by omega)]
      simp
    | succ i =>
      simp only [List.length_cons] at h
      rw [memWrite, show a + (i + 1) = (a + 1) + i by omega, ih _ _ i (by omega)]
      rfl

theorem memRead_memWrite (m : Tab Byte) (a : Nat) (bs : List Byte) : memRead (memWrite m a bs) a bs.length = bs := by
  have key : ∀ (k : Nat) (m' : Tab Byte) (c : Nat) (r : List Byte), (∀ i (h : i < r.length), memByte m' (c + i) = r[i]) →
      k = r.length → memRead m' c k = r := by
    intro k
    induction k with
    | zero => intro m' c r _ hk; cases r with
      | nil => rfl
      | cons _ _ => simp at hk
    | succ k ih =>
      intro m' c r hr hk
      cases r with
      | nil => simp at hk
      | cons x r =>
        have h0 := hr 0 (by simp)
        simp only [List.length_cons, Nat.add_right_cancel_iff] at hk
        simp only [memRead]
        congr 1
        refine ih m' (c + 1) r (fun i hi => ?_) hk
        have := hr (i + 1) (by simp; omega)
        rw [show c + 1 + i = c + (i + 1) by omega, this]
        rfl
  exact key _ _ _ _ (fun i h => memByte_memWrite_inside m a bs i h) rfl

theorem Memory.wf_iff (m : Tab Byte) : Memory.wf m = true ↔ tabSorted m = true ∧ ∀ e ∈ m, e.2 ≠ unlisted := by
  simp [Memory.wf]

theorem Memory.wf_nil : Memory.wf [] = true := rfl

theorem Memory.wf_memSet {m : Tab Byte} (a : Nat) (b : Byte) (h : Memory.wf m = true) : Memory.wf (memSet m a b) = true := by
  rw [Memory.wf_iff] at h ⊢
  unfold memSet
  split
  · exact ⟨tabSorted_tabDel a h.1, fun e he => h.2 e (mem_tabDel he)⟩
  · rename_i hb
    refine ⟨tabSorted_tabSet a b h.1, fun e he => ?_⟩
    rcases mem_tabSet he with he | he
    · subst he; exact hb
    · exact h.2 e he

theorem Memory.wf_memWrite {m : Tab Byte} (a : Nat) (bs : List Byte) (h : Memory.wf m = true) :
    Memory.wf (memWrite m a bs) = true := by
  induction bs generalizing m a with
  | nil => exact h
  | cons b bs ih => exact ih _ (Memory.wf_memSet a b h)

theorem Memory.wf_filter {m : Tab Byte} (p : Nat × Byte → Bool) (h : Memory.wf m = true) : Memory.wf (m.filter p) = true := by
  rw [Memory.wf_iff] at h ⊢
  exact ⟨tabSorted_filter p h.1, fun e he => h.2 e (List.mem_filter.1 he).1⟩

theorem Memory.wf_foldl_memSet {m : Tab Byte} (l : List (Nat × Byte)) (h : Memory.wf m = true) :
    Memory.wf (l.foldl (fun (m : Tab Byte) (e : Nat × Byte) => memSet m e.1 e.2) m) = true := by
  induction l generalizing m with
  | nil => exact h
  | cons e l ih => exact ih (Memory.wf_memSet e.1 e.2 h)

/-- Two canonical memories that read alike are equal. -/
theorem Memory.ext {m n : Tab Byte} (hm : Memory.wf m = true) (hn : Memory.wf n = true) (h : ∀ a, memByte m a = memByte n a) : m = n := by
  rw [Memory.wf_iff] at hm hn
  have none_of_lt : ∀ {t : Tab Byte} {k : Nat}, (∀ e ∈ t, k < e.1) → tabGet t k = none := by
    intro t k ht
    induction t with
    | nil => rfl
    | cons e t ih =>
      obtain ⟨l, w⟩ := e
      have h1 := ht (l, w) (by simp)
      simp only [tabGet]
      rw [if_neg (by simp at h1; omega)]
      exact ih fun e he => ht e (List.mem_cons_of_mem _ he)
  induction m generalizing n with
  | nil =>
    cases n with
    | nil => rfl
    | cons e n =>
      obtain ⟨k, w⟩ := e
      exact absurd (by simpa [memByte, tabGetD, tabGet] using (h k).symm) (hn.2 (k, w) (by simp))
  | cons e m ih =>
    obtain ⟨k, w⟩ := e
    cases n with
    | nil => exact absurd (by simpa [memByte, tabGetD, tabGet] using h k) (hm.2 (k, w) (by simp))
    | cons f n =>
      obtain ⟨l, x⟩ := f
      have hk := tabSorted_lt hm.1
      have hl := tabSorted_lt hn.1
      rcases Nat.lt_trichotomy k l with hlt | heq | hgt
      · have h1 := h k
        have h2 : tabGet ((l, x) :: n) k = none := none_of_lt fun e he => by
          rcases List.mem_cons.1 he with he | he
          · subst he; exact hlt
          · exact Nat.lt_trans hlt (hl e he)
        rw [memByte, memByte, tabGetD, tabGetD, h2] at h1
        exact absurd (by simpa [tabGet] using h1) (hm.2 (k, w) (by simp))
      · subst heq
        have h1 : w = x := by simpa [memByte, tabGetD, tabGet] using h k
        subst h1
        congr 1
        refine ih ⟨tabSorted_tail hm.1, fun e he => hm.2 e (List.mem_cons_of_mem _ he)⟩
          ⟨tabSorted_tail hn.1, fun e he => hn.2 e (List.mem_cons_of_mem _ he)⟩ fun a => ?_
        by_cases ha : a = k
        · subst ha; simp [memByte, tabGetD, none_of_lt hk, none_of_lt hl]
        · simpa [memByte, tabGetD, tabGet, ha] using h a
      · have h1 := h l
        have h2 : tabGet ((k, w) :: m) l = none := none_of_lt fun e he => by
          rcases List.mem_cons.1 he with he | he
          · subst he; exact hgt
          · exact Nat.lt_trans hgt (hk e he)
        rw [memByte, memByte, tabGetD, tabGetD, h2] at h1
        exact absurd (by simpa [tabGet] using h1.symm) (hn.2 (l, x) (by simp))

end Sys2Proof.Machine
end

