-- ==== Sys2Proof/Laws/Issue.lean ====
section
/-!
SUPPORT. What issuing an instruction comes to where nothing keeps it (`State.Ready`), and what the shared operations that write registers
and move lanes on do to each register and lane.
-/

namespace Sys2Proof.Machine

/-! ### The issue set in focus -/

theorem State.inFocus_group {s : State} {c : Cx} (h : s.inFocus = some c) : tabGet s.groups c.g = some c.x := by
  unfold State.inFocus at h
  repeat' split at h
  all_goals first | (cases h; done) | (cases h; assumption)

theorem State.inFocus_grid {s : State} {c : Cx} (h : s.inFocus = some c) : tabGet s.grids c.x.grid = some c.gr := by
  unfold State.inFocus at h
  repeat' split at h
  all_goals first | (cases h; done) | (cases h; assumption)

theorem State.inFocus_ne {s : State} {c : Cx} (h : s.inFocus = some c) : c.ls ≠ [] := by
  unfold State.inFocus at h
  repeat' split at h
  all_goals first | (cases h; done) | (cases h; assumption)

theorem State.Acts.group {s : State} {c : Cx} (h : s.Acts c) : s.group c.g = c.x := by
  simp [State.group, tabGetD, State.inFocus_group h.focus]

/-! ### `issue` where nothing keeps it -/

theorem regsOf_of_alu {i : Instr} {u : Alu} (h : Instr.alu i = some u) : regsOf i = (u.srcs, u.dsts) := by
  simp [regsOf, h]

theorem regsOf_of_issue {i : Instr} (h : Instr.alu i = none) : regsOf i = ((operandsOf i).1 ++ dataOf i, (operandsOf i).2) := by
  simp [regsOf, h]

theorem State.Ready.stuck {s : State} {i : Instr} {c : Cx} (h : s.Ready i c) (hi : Instr.alu i = none) :
    ∀ l ∈ c.ls, s.stuck i c l = false := by
  intro l hl
  have ho := h.operands l hl
  rw [regsOf_of_issue hi] at ho
  have ha : ∀ o ∈ (operandsOf i).1 ++ (operandsOf i).2, c.x.isPending l o = false := fun o m => by
    rcases ho o (by simp only [List.mem_append] at m ⊢; tauto) with h | h
    · exact h
    · exact absurd m h.2.2
  have h1 : (operandsOf i).1.any (c.x.isPending l) = false :=
    List.any_eq_false.2 fun o m => by simp [ha o (by simp [m])]
  have h2 : (operandsOf i).2.any (c.x.isPending l) = false :=
    List.any_eq_false.2 fun o m => by simp [ha o (by simp [m])]
  have h3 : (!hDefer (c.x.lane l).hword && (dataOf i).any (c.x.isPending l)) = false := by
    cases hd : hDefer (c.x.lane l).hword
    · exact List.any_eq_false.2 fun o m => by
        rcases ho o (by simp [m]) with h | h
        · simp [h]
        · simp [hd] at h
    · rfl
  have h4 : (clsOf i == .memory && s.acqOut c.g l) = false := by
    cases hc : clsOf i == Cls.memory
    · rfl
    · simp [h.acquired (by simpa using hc) l hl]
  have h5 : (releases i && s.icinvOut c.g l) = false := by
    cases hc : releases i
    · rfl
    · simp [h.fresh hc l hl]
  have h6 : (drains i && s.chain c.g l != []) = false := by
    cases hc : drains i
    · rfl
    · simp [h.drained hc l hl]
  have h7 : (releases i && !joinsChain i && s.icinvOut c.g l) = false := by
    rw [Bool.and_right_comm, h5, Bool.false_and]
  have h8 : (releases i && joinsChain i && s.chain c.g l == [] && s.icinvOut c.g l) = false := by
    cases hc : releases i
    · rfl
    · simp [h.fresh hc l hl]
  obtain ⟨h9, h10⟩ := h.ordered l hl
  simp only [State.stuck, h1, h2, h3, h4, h6, h7, h8, h9, h10, Bool.and_false, Bool.or_false]

theorem drains_of_drainsAll {i : Instr} (h : drainsAll i = true) : drains i = true := by
  cases i <;> first | rfl | cases h

theorem State.Ready.stuckIn {s : State} {i : Instr} {c : Cx} (h : s.Ready i c) (hi : Instr.alu i = none) :
    ∀ l ∈ c.ls, s.stuckIn i c l = false := by
  intro l hl
  have hs := h.stuck hi
  rw [State.stuckIn]
  split
  · exact List.any_eq_false.2 fun m hm => by simp [hs m hm]
  · rw [hs l hl, Bool.false_or]
    cases hd : drainsAll i
    · rfl
    · simp only [Bool.true_and]
      exact List.any_eq_false.2 fun m hm => by simp [h.drained (drains_of_drainsAll hd) m hm]

theorem State.parking_none {s : State} {c : Cx} {b : Nat → Bool} {k : Cx → State → Out State} (h : ∀ l ∈ c.ls, b l = false) :
    s.parking c b k = k c s := by
  have : c.ls.filter b = [] := List.filter_eq_nil_iff.2 fun l hl => by simp [h l hl]
  simp [State.parking, this]

theorem issue_ready {i : Instr} {s : State} {c : Cx} (hi : Instr.alu i = none) (h : s.Ready i c) (k : Cx → State → Out State) :
    issue i s k = k c s := by
  have h1 : (irreversible i && (s.team c.x.team).shadow.isSome) = false := by
    cases hc : irreversible i
    · rfl
    · simp [h.primary hc]
  rw [issue, h.focus]
  simp only [h.named, h.role, h1, Bool.not_true, Bool.false_eq_true, if_false]
  rw [State.parking_none (h.stuckIn hi)]
  simp [h.flags]

theorem State.checked_none {s : State} {c : Cx} {f : Nat → Option (Cause × Nat)} {k : Out State} (h : ∀ l ∈ c.ls, f l = none) :
    s.checked c f k = k := by
  have : faultsOf c.ls f = [] := by
    simp only [faultsOf, List.filterMap_eq_nil_iff, Option.map_eq_none_iff]
    exact h
  simp [State.checked, this]

end Sys2Proof.Machine
end

