-- ==== Sys2Proof/Laws/Registers.lean ====
section
/-!
SUPPORT. Writing the registers of the lanes of an issue set, one lane after another: what each lane and the group hold afterwards, and the
completion of the instructions that compute from registers to registers.
-/

namespace Sys2Proof.Machine

/-! ### One lane -/

/-- A lane after one register write. -/
def Lane.take1 (y : Lane) (r : PReg) (w : Word) : Lane :=
  match r with
  | .v n => { y with regs := tabSet y.regs n w }
  | .p n => { y with preds := setPred y.preds n (w != 0) }
  | .s _ => y

/-- A lane after register writes, in order. -/
def Lane.takes (y : Lane) : List PReg → List Word → Lane
  | r :: rs, w :: ws => (y.take1 r w).takes rs ws
  | _, _ => y

/-- The uniform file after one register write. -/
def sput1 (t : Tab Word) (r : PReg) (w : Word) : Tab Word :=
  match r with
  | .s n => tabSet t n w
  | _ => t

/-- The uniform file after register writes, in order. -/
def sputs (t : Tab Word) : List PReg → List Word → Tab Word
  | r :: rs, w :: ws => sputs (sput1 t r w) rs ws
  | _, _ => t

theorem Group.writeReg_self (x : Group) (l : Nat) (r : PReg) (w : Word) :
    tabGet (x.writeReg l r w).lanes l = (tabGet x.lanes l).map (·.take1 r w) := by
  cases r <;> simp [Group.writeReg, Lane.take1]

theorem Group.writeReg_other (x : Group) {l k : Nat} (r : PReg) (w : Word) (h : k ≠ l) :
    tabGet (x.writeReg l r w).lanes k = tabGet x.lanes k := by
  cases r <;> simp [Group.writeReg, tabGet_tabMod_ne _ _ h]

theorem Group.writeReg_sregs (x : Group) (l : Nat) (r : PReg) (w : Word) : (x.writeReg l r w).sregs = sput1 x.sregs r w := by
  cases r <;> rfl

theorem Group.writeReg_rest (x : Group) (l : Nat) (r : PReg) (w : Word) :
    x.writeReg l r w = { x with lanes := (x.writeReg l r w).lanes, sregs := (x.writeReg l r w).sregs } := by
  cases r <;> rfl

theorem writeAll_self (x : Group) (l : Nat) (rs : List PReg) (ws : List Word) :
    tabGet (writeAll x l rs ws).lanes l = (tabGet x.lanes l).map (·.takes rs ws) := by
  induction rs generalizing x ws with
  | nil => simp [writeAll, Lane.takes]
  | cons r rs ih =>
    cases ws with
    | nil => simp [writeAll, Lane.takes]
    | cons w ws => simp [writeAll, ih, Group.writeReg_self, Lane.takes, Function.comp_def]

theorem writeAll_other (x : Group) {l k : Nat} (rs : List PReg) (ws : List Word) (h : k ≠ l) :
    tabGet (writeAll x l rs ws).lanes k = tabGet x.lanes k := by
  induction rs generalizing x ws with
  | nil => rfl
  | cons r rs ih =>
    cases ws with
    | nil => rfl
    | cons w ws => simp [writeAll, ih, Group.writeReg_other x r w h]

theorem writeAll_sregs (x : Group) (l : Nat) (rs : List PReg) (ws : List Word) :
    (writeAll x l rs ws).sregs = sputs x.sregs rs ws := by
  induction rs generalizing x ws with
  | nil => rfl
  | cons r rs ih =>
    cases ws with
    | nil => rfl
    | cons w ws => simp [writeAll, ih, Group.writeReg_sregs, sputs]

theorem writeAll_rest (x : Group) (l : Nat) (rs : List PReg) (ws : List Word) :
    writeAll x l rs ws = { x with lanes := (writeAll x l rs ws).lanes, sregs := (writeAll x l rs ws).sregs } := by
  induction rs generalizing x ws with
  | nil => rfl
  | cons r rs ih =>
    cases ws with
    | nil => rfl
    | cons w ws =>
      rw [writeAll, ih (x.writeReg l r w) ws, Group.writeReg_rest x l r w]

theorem Lane.takes_rest (y : Lane) (rs : List PReg) (ws : List Word) :
    y.takes rs ws = { y with regs := (y.takes rs ws).regs, preds := (y.takes rs ws).preds } := by
  induction rs generalizing y ws with
  | nil => rfl
  | cons r rs ih =>
    cases ws with
    | nil => rfl
    | cons w ws => rw [Lane.takes, ih]; cases r <;> rfl

theorem Lane.takes_regs_other (y : Lane) (rs : List PReg) (ws : List Word) (n : Nat) (h : PReg.v n ∉ rs) :
    tabGet (y.takes rs ws).regs n = tabGet y.regs n := by
  induction rs generalizing y ws with
  | nil => rfl
  | cons r rs ih =>
    cases ws with
    | nil => rfl
    | cons w ws =>
      simp only [List.mem_cons, not_or] at h
      rw [Lane.takes, ih _ _ h.2]
      cases r with
      | v m => exact tabGet_tabSet_ne _ _ fun e => h.1 (by rw [e])
      | p m => rfl
      | s m => rfl

theorem setPred_ne (ps : BitVec 16) {n m : Nat} (b : Bool) (h : m ≠ n) : (setPred ps n b).getLsbD m = ps.getLsbD m := by
  have hb : (BitVec.ofNat 16 (2 ^ n)).getLsbD m = false := by
    simp only [BitVec.getLsbD_ofNat, Nat.testBit_two_pow, Bool.and_eq_false_iff, decide_eq_false_iff_not]
    exact .inr fun e => h e.symm
  cases b
  · by_cases hm : m < 16
    · have : (BitVec.ofNat 16 (2 ^ n))[m] = false := by rw [← BitVec.getLsbD_eq_getElem]; exact hb
      simp [setPred, hm, this, -BitVec.ofNat_pow]
    · rw [BitVec.getLsbD_of_ge _ m (by omega), BitVec.getLsbD_of_ge _ m (by omega)]
  · simp [setPred, hb, -BitVec.ofNat_pow]

theorem setPred_self (ps : BitVec 16) {n : Nat} (b : Bool) (h : n < 16) : (setPred ps n b).getLsbD n = b := by
  have hb : (BitVec.ofNat 16 (2 ^ n)).getLsbD n = true := by simp [BitVec.getLsbD_ofNat, h, -BitVec.ofNat_pow]
  cases b <;> simp [setPred, hb, -BitVec.ofNat_pow]

theorem Lane.takes_preds_other (y : Lane) (rs : List PReg) (ws : List Word) (n : Nat) (h : PReg.p n ∉ rs) :
    (y.takes rs ws).preds.getLsbD n = y.preds.getLsbD n := by
  induction rs generalizing y ws with
  | nil => rfl
  | cons r rs ih =>
    cases ws with
    | nil => rfl
    | cons w ws =>
      simp only [List.mem_cons, not_or] at h
      rw [Lane.takes, ih _ _ h.2]
      cases r with
      | p m => exact setPred_ne _ _ fun e => h.1 (by rw [e])
      | v m => rfl
      | s m => rfl

theorem sputs_other (t : Tab Word) (rs : List PReg) (ws : List Word) (n : Nat) (h : PReg.s n ∉ rs) :
    tabGet (sputs t rs ws) n = tabGet t n := by
  induction rs generalizing t ws with
  | nil => rfl
  | cons r rs ih =>
    cases ws with
    | nil => rfl
    | cons w ws =>
      simp only [List.mem_cons, not_or] at h
      rw [sputs, ih _ _ h.2]
      cases r with
      | s m => exact tabGet_tabSet_ne _ _ fun e => h.1 (by rw [e])
      | v m => rfl
      | p m => rfl

/-! ### Every lane of a set -/

/-- Registers written lane by lane. -/
def foldWrites (ls : List Nat) (rs : Nat → List PReg) (ws : Nat → List Word) (x : Group) : Group :=
  ls.foldl (fun x l => writeAll x l (rs l) (ws l)) x

theorem foldWrites_other (ls : List Nat) (rs : Nat → List PReg) (ws : Nat → List Word) (x : Group) (k : Nat) (h : k ∉ ls) :
    tabGet (foldWrites ls rs ws x).lanes k = tabGet x.lanes k := by
  induction ls generalizing x with
  | nil => rfl
  | cons l ls ih =>
    simp only [List.mem_cons, not_or] at h
    rw [foldWrites, List.foldl_cons]
    exact (ih _ h.2).trans (writeAll_other x _ _ h.1)

theorem foldWrites_self (ls : List Nat) (rs : Nat → List PReg) (ws : Nat → List Word) (x : Group) (k : Nat) (h : k ∈ ls)
    (hd : ls.Nodup) : tabGet (foldWrites ls rs ws x).lanes k = (tabGet x.lanes k).map (·.takes (rs k) (ws k)) := by
  induction ls generalizing x with
  | nil => cases h
  | cons l ls ih =>
    rw [List.nodup_cons] at hd
    rw [foldWrites, List.foldl_cons]
    by_cases e : k = l
    · subst e
      exact (foldWrites_other ls rs ws _ k hd.1).trans (writeAll_self x k _ _)
    · have : k ∈ ls := by simpa [e] using h
      exact (ih _ this hd.2).trans (by rw [writeAll_other x _ _ e])

theorem foldWrites_rest (ls : List Nat) (rs : Nat → List PReg) (ws : Nat → List Word) (x : Group) :
    foldWrites ls rs ws x = { x with lanes := (foldWrites ls rs ws x).lanes, sregs := (foldWrites ls rs ws x).sregs } := by
  induction ls generalizing x with
  | nil => rfl
  | cons l ls ih =>
    rw [foldWrites, List.foldl_cons]
    refine (ih (writeAll x l (rs l) (ws l))).trans ?_
    rw [writeAll_rest x l (rs l) (ws l)]
    rfl

theorem foldWrites_sregs_other (ls : List Nat) (rs : Nat → List PReg) (ws : Nat → List Word) (x : Group) (n : Nat)
    (h : ∀ l ∈ ls, PReg.s n ∉ rs l) : tabGet (foldWrites ls rs ws x).sregs n = tabGet x.sregs n := by
  induction ls generalizing x with
  | nil => rfl
  | cons l ls ih =>
    rw [foldWrites, List.foldl_cons]
    refine (ih _ fun k hk => h k (by simp [hk])).trans ?_
    rw [writeAll_sregs, sputs_other _ _ _ _ (h l (by simp))]

/-- Where each lane writes the same value to a uniform register, or none does, it holds that value. -/
theorem foldWrites_sregs (ls : List Nat) (rs : Nat → List PReg) (ws : Nat → List Word) (x : Group) (n : Nat) (w : Word)
    (h : ∀ l ∈ ls, ∀ t, tabGet (sputs t (rs l) (ws l)) n = some w) (hne : ls ≠ []) :
    tabGet (foldWrites ls rs ws x).sregs n = some w := by
  induction ls generalizing x with
  | nil => exact absurd rfl hne
  | cons l ls ih =>
    rw [foldWrites, List.foldl_cons]
    by_cases e : ls = []
    · subst e
      simpa [writeAll_sregs] using h l (by simp) x.sregs
    · exact ih _ (fun k hk => h k (by simp [hk])) e

/-! ### Lanes that go on -/

theorem foldl_tabMod_other {α : Type} (ls : List Nat) (f : Nat → α → α) (t : Tab α) (k : Nat) (h : k ∉ ls) :
    tabGet (ls.foldl (fun t l => tabMod t l (f l)) t) k = tabGet t k := by
  induction ls generalizing t with
  | nil => rfl
  | cons l ls ih =>
    simp only [List.mem_cons, not_or] at h
    rw [List.foldl_cons, ih _ h.2, tabGet_tabMod_ne _ _ h.1]

theorem foldl_tabMod_self {α : Type} (ls : List Nat) (f : Nat → α → α) (t : Tab α) (k : Nat) (h : k ∈ ls) (hd : ls.Nodup) :
    tabGet (ls.foldl (fun t l => tabMod t l (f l)) t) k = (tabGet t k).map (f k) := by
  induction ls generalizing t with
  | nil => cases h
  | cons l ls ih =>
    rw [List.nodup_cons] at hd
    rw [List.foldl_cons]
    by_cases e : k = l
    · subst e
      rw [foldl_tabMod_other _ _ _ _ hd.1, tabGet_tabMod_self]
    · rw [ih _ (by simpa [e] using h) hd.2, tabGet_tabMod_ne _ _ e]

@[simp] theorem Lane.advance_regs (y : Lane) (n : Nat) : (y.advance n).regs = y.regs := by
  unfold Lane.advance Lane.goto; simp only; split <;> rfl

@[simp] theorem Lane.advance_preds (y : Lane) (n : Nat) : (y.advance n).preds = y.preds := by
  unfold Lane.advance Lane.goto; simp only; split <;> rfl

@[simp] theorem Lane.advance_wb (y : Lane) (n : Nat) : (y.advance n).wb = y.wb := by
  unfold Lane.advance Lane.goto; simp only; split <;> rfl

/-- A lane that has gone on past `n` words. -/
def Lane.passed (y : Lane) (n clock : Nat) : Lane := { y.advance n with stamp := clock, pass := false }

/-- Lanes of a table that have gone on. -/
def passLanes (ls : List Nat) (n clock : Nat) (t : Tab Lane) : Tab Lane :=
  ls.foldl (fun t l => tabMod t l fun y => { y.advance n with stamp := clock, pass := false }) t

theorem passLanes_other (ls : List Nat) (n clock : Nat) (t : Tab Lane) (k : Nat) (h : k ∉ ls) :
    tabGet (passLanes ls n clock t) k = tabGet t k :=
  foldl_tabMod_other ls (fun (_ : Nat) (y : Lane) => y.passed n clock) t k h

theorem passLanes_self (ls : List Nat) (n clock : Nat) (t : Tab Lane) (k : Nat) (h : k ∈ ls) (hd : ls.Nodup) :
    tabGet (passLanes ls n clock t) k = (tabGet t k).map (·.passed n clock) :=
  foldl_tabMod_self ls (fun (_ : Nat) (y : Lane) => y.passed n clock) t k h hd

/-- Advancing reads and keeps nothing but the place. -/
theorem Lane.advance_with (y : Lane) (n : Nat) (r : Tab Word) (p : BitVec 16) :
    ({ y with regs := r, preds := p } : Lane).advance n = { y.advance n with regs := r, preds := p } := by
  unfold Lane.advance Lane.goto Lane.bodyEnd; simp only; split <;> rfl

/-- The state after an issue set has written registers and gone on. -/
def State.wroteOn (s : State) (c : Cx) (rs : Nat → List PReg) (ws : Nat → List Word) (n : Nat) : State :=
  (s.modGroup c.g (foldWrites c.ls rs ws)).advance c n

theorem State.wroteOn_group {s : State} {c : Cx} (h : s.Acts c) (rs : Nat → List PReg) (ws : Nat → List Word) (n : Nat) :
    tabGet (s.wroteOn c rs ws n).groups c.g = some { c.x with
      lanes := passLanes c.ls n s.clock (foldWrites c.ls rs ws c.x).lanes
      sregs := (foldWrites c.ls rs ws c.x).sregs } := by
  unfold State.wroteOn State.advance State.modLanes State.modGroup
  simp only [tabGet_tabMod_self, State.inFocus_group h.focus, Option.map_some]
  congr 1
  conv => lhs; rw [foldWrites_rest]
  rfl

theorem State.wroteOn_lane {s : State} {c : Cx} (h : s.Acts c) (rs : Nat → List PReg) (ws : Nat → List Word) (n l : Nat)
    (hl : l ∈ c.ls) : ((s.wroteOn c rs ws n).group c.g).lane l =
      { ((c.x.lane l).takes (rs l) (ws l)).advance n with stamp := s.clock, pass := false } := by
  obtain ⟨y, hy⟩ := Option.isSome_iff_exists.1 (h.slots l hl)
  have hg := State.wroteOn_group h rs ws n
  simp only [State.group, tabGetD, hg, Option.getD_some, Group.lane]
  rw [passLanes_self _ _ _ _ _ hl h.distinct, foldWrites_self _ _ _ _ _ hl h.distinct, hy]
  simp [Lane.passed]

theorem State.wroteOn_sregs {s : State} {c : Cx} (h : s.Acts c) (rs : Nat → List PReg) (ws : Nat → List Word) (n : Nat) :
    ((s.wroteOn c rs ws n).group c.g).sregs = (foldWrites c.ls rs ws c.x).sregs := by
  simp only [State.group, tabGetD, State.wroteOn_group h rs ws n, Option.getD_some]

/-- Groups of a state that read as those of another. -/
theorem WroteOnly.congr {i : Instr} {s t u : State} {c : Cx} (h : WroteOnly i s c t) (hr : u = { t with groups := u.groups })
    (hg : ∀ g, tabGet u.groups g = tabGet t.groups g) : WroteOnly i s c u := by
  have hG : u.group c.g = t.group c.g := by simp [State.group, tabGetD, hg]
  constructor
  · rw [hr, h.rest]
  · intro g hne; rw [hg, h.others g hne]
  · rw [hg, hG, ← h.group]
  · rw [hG]; exact h.idle
  · rw [hG]; exact h.active
  · rw [hG]; exact h.vregs
  · rw [hG]; exact h.preds
  · rw [hG]; exact h.sregs

/-- An issue set that writes only destination registers and goes on keeps everything else. -/
theorem State.wroteOn_only {i : Instr} {s : State} {c : Cx} (h : s.Acts c) (rs : Nat → List PReg) (ws : Nat → List Word)
    (hd : ∀ l ∈ c.ls, ∀ r ∈ rs l, r ∈ dstRegs i c l) : WroteOnly i s c (s.wroteOn c rs ws (sizeOf' i)) := by
  have hl := State.wroteOn_lane h rs ws (sizeOf' i)
  have hg := State.wroteOn_group h rs ws (sizeOf' i)
  have hG : (s.wroteOn c rs ws (sizeOf' i)).group c.g = { c.x with
      lanes := passLanes c.ls (sizeOf' i) s.clock (foldWrites c.ls rs ws c.x).lanes
      sregs := (foldWrites c.ls rs ws c.x).sregs } := by simp [State.group, tabGetD, hg]
  constructor
  · rfl
  · intro g hne
    simp only [State.wroteOn, State.advance, State.modLanes, State.modGroup, tabGet_tabMod_ne _ _ hne]
  · rw [hg, hG]
  · intro l hn
    rw [hG]
    simp only
    rw [passLanes_other _ _ _ _ _ hn, foldWrites_other _ _ _ _ _ hn]
  · intro l hm
    rw [hl l hm, Lane.takes_rest, Lane.advance_with]
  · intro l hm n hn
    rw [hl l hm]
    simp only [Lane.advance_regs]
    exact Lane.takes_regs_other _ _ _ _ fun hr => hn (hd l hm _ hr)
  · intro l hm n hn
    rw [hl l hm]
    simp only [Lane.advance_preds]
    exact Lane.takes_preds_other _ _ _ _ fun hr => hn (hd l hm _ hr)
  · intro n hn
    rw [hG]
    exact foldWrites_sregs_other _ _ _ _ _ fun l hm hr => hn l hm (hd l hm _ hr)

end Sys2Proof.Machine
end

