-- ==== Sys2Proof/Laws/Compute.lean ====
section
/-!
SUPPORT. The completion of the instructions that compute from registers to registers, and of those that act across lanes and write one
register: one lemma for each shape, and what a register reads afterwards.
-/

namespace Sys2Proof.Machine

/-! ### Which definitions an instruction runs -/

theorem exec_of_alu {i : Instr} {u : Alu} (h : Instr.alu i = some u) (s : State) : exec i s = issueAlu i u s := by
  cases i <;> first | (cases h; rfl) | (cases h)

theorem firm_mem_srcs {i : Instr} {u : Alu} (h : Instr.alu i = some u) : ∀ o ∈ u.firm, o ∈ u.srcs := by
  cases i
  all_goals first
    | (cases h; done)
    | (injection h with h; subst h; intro o ho; revert ho)
  all_goals first
    | (intro ho; cases ho; done)
    | (simp only [fcvtsAlu]; intro ho; rw [List.mem_singleton] at ho; subst ho; simp; done)
    | (simp only [iaddAlu, isubAlu, imulAlu, imadAlu, shlAlu, shrAlu, sarAlu, rotlAlu, shiftAlu]; split <;> (intro ho; cases ho))

/-- The registers that a computing instruction writes in a lane. -/
def Alu.regs (u : Alu) (c : Cx) (l : Nat) : List PReg := u.dsts.filterMap (·.reg (c.x.lane l))

/-- The words that a computing instruction gives in a lane. -/
def Alu.words (u : Alu) (s : State) (c : Cx) (l : Nat) : List Word := u.f (s.env c.gr l) (u.srcs.map (s.readOpd c.x l))

theorem State.fate_exec {s : State} {c : Cx} {u : Alu} {l : Nat} (hs : ∀ o ∈ u.srcs, c.x.isPending l o = false)
    (hd : ∀ o ∈ u.dsts, c.x.isPending l o = false) (hf : ∀ o ∈ u.firm, o ∈ u.srcs) : s.fate c u l = .exec := by
  have h1 : u.firm.any (c.x.isPending l) = false := List.any_eq_false.2 fun o m => by simp [hs o (hf o m)]
  have h2 : u.srcs.any (c.x.isPending l) = false := List.any_eq_false.2 fun o m => by simp [hs o m]
  have h3 : u.dsts.any (c.x.isPending l) = false := List.any_eq_false.2 fun o m => by simp [hd o m]
  simp [State.fate, h1, h2, h3]

theorem State.count_zero (s : State) (core ctx kind : Nat) : s.count core ctx kind 0 = s := by
  simp [State.count]

/-- The set executes in every lane: registers written, and gone on. -/
theorem issueAlu_exec {i : Instr} {u : Alu} {s : State} {c : Cx} (h : s.Acts c) (hf : ∀ l ∈ c.ls, s.fate c u l = .exec) :
    issueAlu i u s = .next ((s.wroteOn c (u.regs c) (u.words s c) (sizeOf' i)).parkLanes c.g []) := by
  have hfull : (c.ls.filter fun l => s.fate c u l == .full) = [] := List.filter_eq_nil_iff.2 fun l m => by simp [hf l m]
  have hpark : (c.ls.filter fun l => s.fate c u l == .park || s.fate c u l == .full) = [] :=
    List.filter_eq_nil_iff.2 fun l m => by simp [hf l m]
  have hcapt : (c.ls.filter fun l => s.fate c u l == .capture) = [] := List.filter_eq_nil_iff.2 fun l m => by simp [hf l m]
  have hrun : (c.ls.filter fun l => s.fate c u l == .exec) = c.ls := List.filter_eq_self.2 fun l m => by simp [hf l m]
  have hlen : (0 == c.ls.length) = false := by
    have := State.inFocus_ne h.focus
    cases hc : c.ls with
    | nil => exact absurd hc this
    | cons => rfl
  rw [issueAlu, h.focus]
  simp only [hfull, hpark, hcapt, hrun, holdAll, List.length_nil, hlen, State.captureAlu, List.foldl_nil, List.append_nil,
    State.count_zero]
  simp only [bne_self_eq_false, Bool.false_and, Bool.and_false, Bool.or_false, Bool.false_eq_true, if_false]
  rfl

theorem State.parkLanes_nil_get (s : State) (g k : Nat) : tabGet (s.parkLanes g []).groups k = tabGet s.groups k := by
  by_cases e : k = g
  · subst e
    simp only [State.parkLanes, State.modLanes, State.modGroup, List.foldl_nil, tabGet_tabMod_self]
    cases tabGet s.groups k <;> rfl
  · simp only [State.parkLanes, State.modLanes, State.modGroup, tabGet_tabMod_ne _ _ e]

/-- What a set has written and where its lanes stand. -/
structure Wrote (s : State) (c : Cx) (rs : Nat → List PReg) (ws : Nat → List Word) (n : Nat) (t : State) : Prop where
  lane : ∀ l ∈ c.ls, (t.group c.g).lane l = { ((c.x.lane l).takes (rs l) (ws l)).advance n with stamp := s.clock, pass := false }
  sregs : (t.group c.g).sregs = (foldWrites c.ls rs ws c.x).sregs

theorem dataOf_of_alu {i : Instr} {u : Alu} (h : Instr.alu i = some u) : dataOf i = [] := by
  cases i <;> first | rfl | cases h

theorem alu_completes {i : Instr} {u : Alu} {s : State} {c : Cx} (hu : Instr.alu i = some u) (h : s.Ready i c) :
    ∃ t, exec i s = .next t ∧ WroteOnly i s c t ∧ Wrote s c (u.regs c) (u.words s c) (sizeOf' i) t := by
  have ho : ∀ l ∈ c.ls, ∀ o ∈ u.srcs ++ u.dsts, c.x.isPending l o = false := fun l hl o m => by
    rcases h.operands l hl o (by rw [regsOf_of_alu hu]; exact m) with h | h
    · exact h
    · simp [dataOf_of_alu hu] at h
  have hf : ∀ l ∈ c.ls, s.fate c u l = .exec := fun l m =>
    State.fate_exec (fun o k => ho l m o (by simp [k])) (fun o k => ho l m o (by simp [k])) (firm_mem_srcs hu)
  have ha := h.toActs
  have hg := State.parkLanes_nil_get (s.wroteOn c (u.regs c) (u.words s c) (sizeOf' i)) c.g
  have hG : ((s.wroteOn c (u.regs c) (u.words s c) (sizeOf' i)).parkLanes c.g []).group c.g =
      (s.wroteOn c (u.regs c) (u.words s c) (sizeOf' i)).group c.g := by simp [State.group, tabGetD, hg]
  refine ⟨_, (exec_of_alu hu s).trans (issueAlu_exec ha hf), ?_, ?_, ?_⟩
  · refine (State.wroteOn_only ha _ _ fun l _ r hr => ?_).congr rfl hg
    simpa [dstRegs, regsOf_of_alu hu, Alu.regs] using hr
  · intro l hl; rw [hG]; exact State.wroteOn_lane ha _ _ _ _ hl
  · rw [hG]; exact State.wroteOn_sregs ha _ _ _

/-- The register of an operand, if it names one, and its word. -/
def Opd.regs (o : Opd) (c : Cx) (l : Nat) : List PReg := (o.reg (c.x.lane l)).toList

theorem State.writeEach_eq (s : State) (c : Cx) (o : Opd) (v : Nat → Word) :
    s.writeEach c o v = s.modGroup c.g (foldWrites c.ls (o.regs c) fun l => [v l]) := by
  unfold State.writeEach foldWrites
  congr 1
  funext x
  congr 1
  funext x l
  unfold Opd.regs
  cases o.reg (c.x.lane l) <;> rfl

theorem finish_completes {i : Instr} {s : State} {c : Cx} (hi : irreversible i = false) (h : s.Ready i c) (o : Opd) (v : Nat → Word)
    (hd : (regsOf i).2 = [o]) :
    ∃ t, s.finish c i o v = .next t ∧ WroteOnly i s c t ∧ Wrote s c (o.regs c) (fun l => [v l]) (sizeOf' i) t := by
  have ha := h.toActs
  have he : (s.writeEach c o v).done c i = s.wroteOn c (o.regs c) (fun l => [v l]) (sizeOf' i) := by
    simp [State.done, hi, State.writeEach_eq, State.wroteOn]
  refine ⟨_, rfl, ?_, ?_, ?_⟩
  · rw [he]
    refine State.wroteOn_only ha _ _ fun l _ r hr => ?_
    simpa [dstRegs, hd, Opd.regs] using hr
  · intro l hl; rw [he]; exact State.wroteOn_lane ha _ _ _ _ hl
  · rw [he]; exact State.wroteOn_sregs ha _ _ _

/-! ### Registers afterwards -/

theorem State.vreg_of_regs {t : State} {c : Cx} {l : Nat} {f : VField} {w : Word}
    (h : tabGet ((t.group c.g).lane l).regs (((t.group c.g).lane l).arch f.toNat) = some w) : t.vreg c l f = w := by
  simp [State.vreg, State.readOpd, Opd.reg, State.readReg, h]

theorem Wrote.arch {s t : State} {c : Cx} {rs : Nat → List PReg} {ws : Nat → List Word} {n l : Nat} (h : Wrote s c rs ws n t)
    (hl : l ∈ c.ls) (f : Nat) : ((t.group c.g).lane l).arch f = (c.x.lane l).arch f := by
  rw [h.lane l hl, Lane.arch, Lane.arch]
  simp only [Lane.advance_wb]
  rw [Lane.takes_rest]

theorem Wrote.vreg {s t : State} {c : Cx} {rs : Nat → List PReg} {ws : Nat → List Word} {n l : Nat} (h : Wrote s c rs ws n t)
    (hl : l ∈ c.ls) (f : VField) (w : Word)
    (hw : tabGet ((c.x.lane l).takes (rs l) (ws l)).regs ((c.x.lane l).arch f.toNat) = some w) : t.vreg c l f = w := by
  apply State.vreg_of_regs
  rw [h.arch hl, h.lane l hl]
  simpa using hw

theorem Wrote.preg {s t : State} {c : Cx} {rs : Nat → List PReg} {ws : Nat → List Word} {n l : Nat} (h : Wrote s c rs ws n t)
    (hl : l ∈ c.ls) (f : PField) : t.preg c l f = ((c.x.lane l).takes (rs l) (ws l)).preds.getLsbD f.toNat := by
  rw [State.preg, h.lane l hl]
  simp

theorem Wrote.ureg {s t : State} {c : Cx} {rs : Nat → List PReg} {ws : Nat → List Word} {n : Nat} (h : Wrote s c rs ws n t)
    (hne : c.ls ≠ []) (f : SField) (w : Word) (hw : ∀ l ∈ c.ls, ∀ t, tabGet (sputs t (rs l) (ws l)) f.toNat = some w) :
    t.ureg c f = w := by
  rw [State.ureg, State.readReg, h.sregs, foldWrites_sregs _ _ _ _ _ _ hw hne]

end Sys2Proof.Machine
end

