-- ==== Sys2Proof/Laws/State.lean ====
section
/-!
SUPPORT. For each named update of the state, what it leaves of every field, true by `rfl`; and the field that it does change.
-/

namespace Sys2Proof.Machine

variable (s : State)

/-! ### `modGroup` -/

@[simp] theorem State.modGroup_level (g : Nat) (f : Group → Group) : (s.modGroup g f).level = s.level := rfl
@[simp] theorem State.modGroup_err (g : Nat) (f : Group → Group) : (s.modGroup g f).err = s.err := rfl
@[simp] theorem State.modGroup_flash (g : Nat) (f : Group → Group) : (s.modGroup g f).flash = s.flash := rfl
@[simp] theorem State.modGroup_dies (g : Nat) (f : Group → Group) : (s.modGroup g f).dies = s.dies := rfl
@[simp] theorem State.modGroup_cores (g : Nat) (f : Group → Group) : (s.modGroup g f).cores = s.cores := rfl
@[simp] theorem State.modGroup_teams (g : Nat) (f : Group → Group) : (s.modGroup g f).teams = s.teams := rfl
@[simp] theorem State.modGroup_grids (g : Nat) (f : Group → Group) : (s.modGroup g f).grids = s.grids := rfl
@[simp] theorem State.modGroup_ctxs (g : Nat) (f : Group → Group) : (s.modGroup g f).ctxs = s.ctxs := rfl
@[simp] theorem State.modGroup_queues (g : Nat) (f : Group → Group) : (s.modGroup g f).queues = s.queues := rfl
@[simp] theorem State.modGroup_counters (g : Nat) (f : Group → Group) : (s.modGroup g f).counters = s.counters := rfl
@[simp] theorem State.modGroup_rr (g : Nat) (f : Group → Group) : (s.modGroup g f).rr = s.rr := rfl
@[simp] theorem State.modGroup_mbox0 (g : Nat) (f : Group → Group) : (s.modGroup g f).mbox0 = s.mbox0 := rfl
@[simp] theorem State.modGroup_mbox1 (g : Nat) (f : Group → Group) : (s.modGroup g f).mbox1 = s.mbox1 := rfl
@[simp] theorem State.modGroup_svc (g : Nat) (f : Group → Group) : (s.modGroup g f).svc = s.svc := rfl
@[simp] theorem State.modGroup_msix0 (g : Nat) (f : Group → Group) : (s.modGroup g f).msix0 = s.msix0 := rfl
@[simp] theorem State.modGroup_msix1 (g : Nat) (f : Group → Group) : (s.modGroup g f).msix1 = s.msix1 := rfl
@[simp] theorem State.modGroup_msixTable0 (g : Nat) (f : Group → Group) : (s.modGroup g f).msixTable0 = s.msixTable0 := rfl
@[simp] theorem State.modGroup_msixTable1 (g : Nat) (f : Group → Group) : (s.modGroup g f).msixTable1 = s.msixTable1 := rfl
@[simp] theorem State.modGroup_hostRanges (g : Nat) (f : Group → Group) : (s.modGroup g f).hostRanges = s.hostRanges := rfl
@[simp] theorem State.modGroup_mem (g : Nat) (f : Group → Group) : (s.modGroup g f).mem = s.mem := rfl
@[simp] theorem State.modGroup_stored (g : Nat) (f : Group → Group) : (s.modGroup g f).stored = s.stored := rfl
@[simp] theorem State.modGroup_order (g : Nat) (f : Group → Group) : (s.modGroup g f).order = s.order := rfl
@[simp] theorem State.modGroup_lost (g : Nat) (f : Group → Group) : (s.modGroup g f).lost = s.lost := rfl
@[simp] theorem State.modGroup_ovf (g : Nat) (f : Group → Group) : (s.modGroup g f).ovf = s.ovf := rfl
@[simp] theorem State.modGroup_leases (g : Nat) (f : Group → Group) : (s.modGroup g f).leases = s.leases := rfl
@[simp] theorem State.modGroup_hostLines (g : Nat) (f : Group → Group) : (s.modGroup g f).hostLines = s.hostLines := rfl
@[simp] theorem State.modGroup_walign (g : Nat) (f : Group → Group) : (s.modGroup g f).walign = s.walign := rfl
@[simp] theorem State.modGroup_match_ (g : Nat) (f : Group → Group) : (s.modGroup g f).match_ = s.match_ := rfl
@[simp] theorem State.modGroup_mismatch (g : Nat) (f : Group → Group) : (s.modGroup g f).mismatch = s.mismatch := rfl
@[simp] theorem State.modGroup_abandon (g : Nat) (f : Group → Group) : (s.modGroup g f).abandon = s.abandon := rfl
@[simp] theorem State.modGroup_errors (g : Nat) (f : Group → Group) : (s.modGroup g f).errors = s.errors := rfl
@[simp] theorem State.modGroup_ops (g : Nat) (f : Group → Group) : (s.modGroup g f).ops = s.ops := rfl
@[simp] theorem State.modGroup_resid (g : Nat) (f : Group → Group) : (s.modGroup g f).resid = s.resid := rfl
@[simp] theorem State.modGroup_colls (g : Nat) (f : Group → Group) : (s.modGroup g f).colls = s.colls := rfl
@[simp] theorem State.modGroup_ports (g : Nat) (f : Group → Group) : (s.modGroup g f).ports = s.ports := rfl
@[simp] theorem State.modGroup_worn (g : Nat) (f : Group → Group) : (s.modGroup g f).worn = s.worn := rfl
@[simp] theorem State.modGroup_counts (g : Nat) (f : Group → Group) : (s.modGroup g f).counts = s.counts := rfl
@[simp] theorem State.modGroup_quiesce (g : Nat) (f : Group → Group) : (s.modGroup g f).quiesce = s.quiesce := rfl
@[simp] theorem State.modGroup_lastRead (g : Nat) (f : Group → Group) : (s.modGroup g f).lastRead = s.lastRead := rfl
@[simp] theorem State.modGroup_clock (g : Nat) (f : Group → Group) : (s.modGroup g f).clock = s.clock := rfl
@[simp] theorem State.modGroup_fresh (g : Nat) (f : Group → Group) : (s.modGroup g f).fresh = s.fresh := rfl
@[simp] theorem State.modGroup_nextId (g : Nat) (f : Group → Group) : (s.modGroup g f).nextId = s.nextId := rfl
@[simp] theorem State.modGroup_sched (g : Nat) (f : Group → Group) : (s.modGroup g f).sched = s.sched := rfl
@[simp] theorem State.modGroup_focus (g : Nat) (f : Group → Group) : (s.modGroup g f).focus = s.focus := rfl

/-! ### `setGroup` -/

@[simp] theorem State.setGroup_level (g : Nat) (x : Group) : (s.setGroup g x).level = s.level := rfl
@[simp] theorem State.setGroup_err (g : Nat) (x : Group) : (s.setGroup g x).err = s.err := rfl
@[simp] theorem State.setGroup_flash (g : Nat) (x : Group) : (s.setGroup g x).flash = s.flash := rfl
@[simp] theorem State.setGroup_dies (g : Nat) (x : Group) : (s.setGroup g x).dies = s.dies := rfl
@[simp] theorem State.setGroup_cores (g : Nat) (x : Group) : (s.setGroup g x).cores = s.cores := rfl
@[simp] theorem State.setGroup_teams (g : Nat) (x : Group) : (s.setGroup g x).teams = s.teams := rfl
@[simp] theorem State.setGroup_grids (g : Nat) (x : Group) : (s.setGroup g x).grids = s.grids := rfl
@[simp] theorem State.setGroup_ctxs (g : Nat) (x : Group) : (s.setGroup g x).ctxs = s.ctxs := rfl
@[simp] theorem State.setGroup_queues (g : Nat) (x : Group) : (s.setGroup g x).queues = s.queues := rfl
@[simp] theorem State.setGroup_counters (g : Nat) (x : Group) : (s.setGroup g x).counters = s.counters := rfl
@[simp] theorem State.setGroup_rr (g : Nat) (x : Group) : (s.setGroup g x).rr = s.rr := rfl
@[simp] theorem State.setGroup_mbox0 (g : Nat) (x : Group) : (s.setGroup g x).mbox0 = s.mbox0 := rfl
@[simp] theorem State.setGroup_mbox1 (g : Nat) (x : Group) : (s.setGroup g x).mbox1 = s.mbox1 := rfl
@[simp] theorem State.setGroup_svc (g : Nat) (x : Group) : (s.setGroup g x).svc = s.svc := rfl
@[simp] theorem State.setGroup_msix0 (g : Nat) (x : Group) : (s.setGroup g x).msix0 = s.msix0 := rfl
@[simp] theorem State.setGroup_msix1 (g : Nat) (x : Group) : (s.setGroup g x).msix1 = s.msix1 := rfl
@[simp] theorem State.setGroup_msixTable0 (g : Nat) (x : Group) : (s.setGroup g x).msixTable0 = s.msixTable0 := rfl
@[simp] theorem State.setGroup_msixTable1 (g : Nat) (x : Group) : (s.setGroup g x).msixTable1 = s.msixTable1 := rfl
@[simp] theorem State.setGroup_hostRanges (g : Nat) (x : Group) : (s.setGroup g x).hostRanges = s.hostRanges := rfl
@[simp] theorem State.setGroup_mem (g : Nat) (x : Group) : (s.setGroup g x).mem = s.mem := rfl
@[simp] theorem State.setGroup_stored (g : Nat) (x : Group) : (s.setGroup g x).stored = s.stored := rfl
@[simp] theorem State.setGroup_order (g : Nat) (x : Group) : (s.setGroup g x).order = s.order := rfl
@[simp] theorem State.setGroup_lost (g : Nat) (x : Group) : (s.setGroup g x).lost = s.lost := rfl
@[simp] theorem State.setGroup_ovf (g : Nat) (x : Group) : (s.setGroup g x).ovf = s.ovf := rfl
@[simp] theorem State.setGroup_leases (g : Nat) (x : Group) : (s.setGroup g x).leases = s.leases := rfl
@[simp] theorem State.setGroup_hostLines (g : Nat) (x : Group) : (s.setGroup g x).hostLines = s.hostLines := rfl
@[simp] theorem State.setGroup_walign (g : Nat) (x : Group) : (s.setGroup g x).walign = s.walign := rfl
@[simp] theorem State.setGroup_match_ (g : Nat) (x : Group) : (s.setGroup g x).match_ = s.match_ := rfl
@[simp] theorem State.setGroup_mismatch (g : Nat) (x : Group) : (s.setGroup g x).mismatch = s.mismatch := rfl
@[simp] theorem State.setGroup_abandon (g : Nat) (x : Group) : (s.setGroup g x).abandon = s.abandon := rfl
@[simp] theorem State.setGroup_errors (g : Nat) (x : Group) : (s.setGroup g x).errors = s.errors := rfl
@[simp] theorem State.setGroup_ops (g : Nat) (x : Group) : (s.setGroup g x).ops = s.ops := rfl
@[simp] theorem State.setGroup_resid (g : Nat) (x : Group) : (s.setGroup g x).resid = s.resid := rfl
@[simp] theorem State.setGroup_colls (g : Nat) (x : Group) : (s.setGroup g x).colls = s.colls := rfl
@[simp] theorem State.setGroup_ports (g : Nat) (x : Group) : (s.setGroup g x).ports = s.ports := rfl
@[simp] theorem State.setGroup_worn (g : Nat) (x : Group) : (s.setGroup g x).worn = s.worn := rfl
@[simp] theorem State.setGroup_counts (g : Nat) (x : Group) : (s.setGroup g x).counts = s.counts := rfl
@[simp] theorem State.setGroup_quiesce (g : Nat) (x : Group) : (s.setGroup g x).quiesce = s.quiesce := rfl
@[simp] theorem State.setGroup_lastRead (g : Nat) (x : Group) : (s.setGroup g x).lastRead = s.lastRead := rfl
@[simp] theorem State.setGroup_clock (g : Nat) (x : Group) : (s.setGroup g x).clock = s.clock := rfl
@[simp] theorem State.setGroup_fresh (g : Nat) (x : Group) : (s.setGroup g x).fresh = s.fresh := rfl
@[simp] theorem State.setGroup_nextId (g : Nat) (x : Group) : (s.setGroup g x).nextId = s.nextId := rfl
@[simp] theorem State.setGroup_sched (g : Nat) (x : Group) : (s.setGroup g x).sched = s.sched := rfl
@[simp] theorem State.setGroup_focus (g : Nat) (x : Group) : (s.setGroup g x).focus = s.focus := rfl

/-! ### `modLanes` -/

@[simp] theorem State.modLanes_level (g : Nat) (ls : List Nat) (f : Nat → Lane → Lane) : (s.modLanes g ls f).level = s.level := rfl
@[simp] theorem State.modLanes_err (g : Nat) (ls : List Nat) (f : Nat → Lane → Lane) : (s.modLanes g ls f).err = s.err := rfl
@[simp] theorem State.modLanes_flash (g : Nat) (ls : List Nat) (f : Nat → Lane → Lane) : (s.modLanes g ls f).flash = s.flash := rfl
@[simp] theorem State.modLanes_dies (g : Nat) (ls : List Nat) (f : Nat → Lane → Lane) : (s.modLanes g ls f).dies = s.dies := rfl
@[simp] theorem State.modLanes_cores (g : Nat) (ls : List Nat) (f : Nat → Lane → Lane) : (s.modLanes g ls f).cores = s.cores := rfl
@[simp] theorem State.modLanes_teams (g : Nat) (ls : List Nat) (f : Nat → Lane → Lane) : (s.modLanes g ls f).teams = s.teams := rfl
@[simp] theorem State.modLanes_grids (g : Nat) (ls : List Nat) (f : Nat → Lane → Lane) : (s.modLanes g ls f).grids = s.grids := rfl
@[simp] theorem State.modLanes_ctxs (g : Nat) (ls : List Nat) (f : Nat → Lane → Lane) : (s.modLanes g ls f).ctxs = s.ctxs := rfl
@[simp] theorem State.modLanes_queues (g : Nat) (ls : List Nat) (f : Nat → Lane → Lane) : (s.modLanes g ls f).queues = s.queues := rfl
@[simp] theorem State.modLanes_counters (g : Nat) (ls : List Nat) (f : Nat → Lane → Lane) : (s.modLanes g ls f).counters = s.counters := rfl
@[simp] theorem State.modLanes_rr (g : Nat) (ls : List Nat) (f : Nat → Lane → Lane) : (s.modLanes g ls f).rr = s.rr := rfl
@[simp] theorem State.modLanes_mbox0 (g : Nat) (ls : List Nat) (f : Nat → Lane → Lane) : (s.modLanes g ls f).mbox0 = s.mbox0 := rfl
@[simp] theorem State.modLanes_mbox1 (g : Nat) (ls : List Nat) (f : Nat → Lane → Lane) : (s.modLanes g ls f).mbox1 = s.mbox1 := rfl
@[simp] theorem State.modLanes_svc (g : Nat) (ls : List Nat) (f : Nat → Lane → Lane) : (s.modLanes g ls f).svc = s.svc := rfl
@[simp] theorem State.modLanes_msix0 (g : Nat) (ls : List Nat) (f : Nat → Lane → Lane) : (s.modLanes g ls f).msix0 = s.msix0 := rfl
@[simp] theorem State.modLanes_msix1 (g : Nat) (ls : List Nat) (f : Nat → Lane → Lane) : (s.modLanes g ls f).msix1 = s.msix1 := rfl
@[simp] theorem State.modLanes_msixTable0 (g : Nat) (ls : List Nat) (f : Nat → Lane → Lane) : (s.modLanes g ls f).msixTable0 = s.msixTable0 := rfl
@[simp] theorem State.modLanes_msixTable1 (g : Nat) (ls : List Nat) (f : Nat → Lane → Lane) : (s.modLanes g ls f).msixTable1 = s.msixTable1 := rfl
@[simp] theorem State.modLanes_hostRanges (g : Nat) (ls : List Nat) (f : Nat → Lane → Lane) : (s.modLanes g ls f).hostRanges = s.hostRanges := rfl
@[simp] theorem State.modLanes_mem (g : Nat) (ls : List Nat) (f : Nat → Lane → Lane) : (s.modLanes g ls f).mem = s.mem := rfl
@[simp] theorem State.modLanes_stored (g : Nat) (ls : List Nat) (f : Nat → Lane → Lane) : (s.modLanes g ls f).stored = s.stored := rfl
@[simp] theorem State.modLanes_order (g : Nat) (ls : List Nat) (f : Nat → Lane → Lane) : (s.modLanes g ls f).order = s.order := rfl
@[simp] theorem State.modLanes_lost (g : Nat) (ls : List Nat) (f : Nat → Lane → Lane) : (s.modLanes g ls f).lost = s.lost := rfl
@[simp] theorem State.modLanes_ovf (g : Nat) (ls : List Nat) (f : Nat → Lane → Lane) : (s.modLanes g ls f).ovf = s.ovf := rfl
@[simp] theorem State.modLanes_leases (g : Nat) (ls : List Nat) (f : Nat → Lane → Lane) : (s.modLanes g ls f).leases = s.leases := rfl
@[simp] theorem State.modLanes_hostLines (g : Nat) (ls : List Nat) (f : Nat → Lane → Lane) : (s.modLanes g ls f).hostLines = s.hostLines := rfl
@[simp] theorem State.modLanes_walign (g : Nat) (ls : List Nat) (f : Nat → Lane → Lane) : (s.modLanes g ls f).walign = s.walign := rfl
@[simp] theorem State.modLanes_match_ (g : Nat) (ls : List Nat) (f : Nat → Lane → Lane) : (s.modLanes g ls f).match_ = s.match_ := rfl
@[simp] theorem State.modLanes_mismatch (g : Nat) (ls : List Nat) (f : Nat → Lane → Lane) : (s.modLanes g ls f).mismatch = s.mismatch := rfl
@[simp] theorem State.modLanes_abandon (g : Nat) (ls : List Nat) (f : Nat → Lane → Lane) : (s.modLanes g ls f).abandon = s.abandon := rfl
@[simp] theorem State.modLanes_errors (g : Nat) (ls : List Nat) (f : Nat → Lane → Lane) : (s.modLanes g ls f).errors = s.errors := rfl
@[simp] theorem State.modLanes_ops (g : Nat) (ls : List Nat) (f : Nat → Lane → Lane) : (s.modLanes g ls f).ops = s.ops := rfl
@[simp] theorem State.modLanes_resid (g : Nat) (ls : List Nat) (f : Nat → Lane → Lane) : (s.modLanes g ls f).resid = s.resid := rfl
@[simp] theorem State.modLanes_colls (g : Nat) (ls : List Nat) (f : Nat → Lane → Lane) : (s.modLanes g ls f).colls = s.colls := rfl
@[simp] theorem State.modLanes_ports (g : Nat) (ls : List Nat) (f : Nat → Lane → Lane) : (s.modLanes g ls f).ports = s.ports := rfl
@[simp] theorem State.modLanes_worn (g : Nat) (ls : List Nat) (f : Nat → Lane → Lane) : (s.modLanes g ls f).worn = s.worn := rfl
@[simp] theorem State.modLanes_counts (g : Nat) (ls : List Nat) (f : Nat → Lane → Lane) : (s.modLanes g ls f).counts = s.counts := rfl
@[simp] theorem State.modLanes_quiesce (g : Nat) (ls : List Nat) (f : Nat → Lane → Lane) : (s.modLanes g ls f).quiesce = s.quiesce := rfl
@[simp] theorem State.modLanes_lastRead (g : Nat) (ls : List Nat) (f : Nat → Lane → Lane) : (s.modLanes g ls f).lastRead = s.lastRead := rfl
@[simp] theorem State.modLanes_clock (g : Nat) (ls : List Nat) (f : Nat → Lane → Lane) : (s.modLanes g ls f).clock = s.clock := rfl
@[simp] theorem State.modLanes_fresh (g : Nat) (ls : List Nat) (f : Nat → Lane → Lane) : (s.modLanes g ls f).fresh = s.fresh := rfl
@[simp] theorem State.modLanes_nextId (g : Nat) (ls : List Nat) (f : Nat → Lane → Lane) : (s.modLanes g ls f).nextId = s.nextId := rfl
@[simp] theorem State.modLanes_sched (g : Nat) (ls : List Nat) (f : Nat → Lane → Lane) : (s.modLanes g ls f).sched = s.sched := rfl
@[simp] theorem State.modLanes_focus (g : Nat) (ls : List Nat) (f : Nat → Lane → Lane) : (s.modLanes g ls f).focus = s.focus := rfl

/-! ### `modGrid` -/

@[simp] theorem State.modGrid_level (k : Nat) (f : Grid → Grid) : (s.modGrid k f).level = s.level := rfl
@[simp] theorem State.modGrid_err (k : Nat) (f : Grid → Grid) : (s.modGrid k f).err = s.err := rfl
@[simp] theorem State.modGrid_flash (k : Nat) (f : Grid → Grid) : (s.modGrid k f).flash = s.flash := rfl
@[simp] theorem State.modGrid_dies (k : Nat) (f : Grid → Grid) : (s.modGrid k f).dies = s.dies := rfl
@[simp] theorem State.modGrid_cores (k : Nat) (f : Grid → Grid) : (s.modGrid k f).cores = s.cores := rfl
@[simp] theorem State.modGrid_groups (k : Nat) (f : Grid → Grid) : (s.modGrid k f).groups = s.groups := rfl
@[simp] theorem State.modGrid_teams (k : Nat) (f : Grid → Grid) : (s.modGrid k f).teams = s.teams := rfl
@[simp] theorem State.modGrid_ctxs (k : Nat) (f : Grid → Grid) : (s.modGrid k f).ctxs = s.ctxs := rfl
@[simp] theorem State.modGrid_queues (k : Nat) (f : Grid → Grid) : (s.modGrid k f).queues = s.queues := rfl
@[simp] theorem State.modGrid_counters (k : Nat) (f : Grid → Grid) : (s.modGrid k f).counters = s.counters := rfl
@[simp] theorem State.modGrid_rr (k : Nat) (f : Grid → Grid) : (s.modGrid k f).rr = s.rr := rfl
@[simp] theorem State.modGrid_mbox0 (k : Nat) (f : Grid → Grid) : (s.modGrid k f).mbox0 = s.mbox0 := rfl
@[simp] theorem State.modGrid_mbox1 (k : Nat) (f : Grid → Grid) : (s.modGrid k f).mbox1 = s.mbox1 := rfl
@[simp] theorem State.modGrid_svc (k : Nat) (f : Grid → Grid) : (s.modGrid k f).svc = s.svc := rfl
@[simp] theorem State.modGrid_msix0 (k : Nat) (f : Grid → Grid) : (s.modGrid k f).msix0 = s.msix0 := rfl
@[simp] theorem State.modGrid_msix1 (k : Nat) (f : Grid → Grid) : (s.modGrid k f).msix1 = s.msix1 := rfl
@[simp] theorem State.modGrid_msixTable0 (k : Nat) (f : Grid → Grid) : (s.modGrid k f).msixTable0 = s.msixTable0 := rfl
@[simp] theorem State.modGrid_msixTable1 (k : Nat) (f : Grid → Grid) : (s.modGrid k f).msixTable1 = s.msixTable1 := rfl
@[simp] theorem State.modGrid_hostRanges (k : Nat) (f : Grid → Grid) : (s.modGrid k f).hostRanges = s.hostRanges := rfl
@[simp] theorem State.modGrid_mem (k : Nat) (f : Grid → Grid) : (s.modGrid k f).mem = s.mem := rfl
@[simp] theorem State.modGrid_stored (k : Nat) (f : Grid → Grid) : (s.modGrid k f).stored = s.stored := rfl
@[simp] theorem State.modGrid_order (k : Nat) (f : Grid → Grid) : (s.modGrid k f).order = s.order := rfl
@[simp] theorem State.modGrid_lost (k : Nat) (f : Grid → Grid) : (s.modGrid k f).lost = s.lost := rfl
@[simp] theorem State.modGrid_ovf (k : Nat) (f : Grid → Grid) : (s.modGrid k f).ovf = s.ovf := rfl
@[simp] theorem State.modGrid_leases (k : Nat) (f : Grid → Grid) : (s.modGrid k f).leases = s.leases := rfl
@[simp] theorem State.modGrid_hostLines (k : Nat) (f : Grid → Grid) : (s.modGrid k f).hostLines = s.hostLines := rfl
@[simp] theorem State.modGrid_walign (k : Nat) (f : Grid → Grid) : (s.modGrid k f).walign = s.walign := rfl
@[simp] theorem State.modGrid_match_ (k : Nat) (f : Grid → Grid) : (s.modGrid k f).match_ = s.match_ := rfl
@[simp] theorem State.modGrid_mismatch (k : Nat) (f : Grid → Grid) : (s.modGrid k f).mismatch = s.mismatch := rfl
@[simp] theorem State.modGrid_abandon (k : Nat) (f : Grid → Grid) : (s.modGrid k f).abandon = s.abandon := rfl
@[simp] theorem State.modGrid_errors (k : Nat) (f : Grid → Grid) : (s.modGrid k f).errors = s.errors := rfl
@[simp] theorem State.modGrid_ops (k : Nat) (f : Grid → Grid) : (s.modGrid k f).ops = s.ops := rfl
@[simp] theorem State.modGrid_resid (k : Nat) (f : Grid → Grid) : (s.modGrid k f).resid = s.resid := rfl
@[simp] theorem State.modGrid_colls (k : Nat) (f : Grid → Grid) : (s.modGrid k f).colls = s.colls := rfl
@[simp] theorem State.modGrid_ports (k : Nat) (f : Grid → Grid) : (s.modGrid k f).ports = s.ports := rfl
@[simp] theorem State.modGrid_worn (k : Nat) (f : Grid → Grid) : (s.modGrid k f).worn = s.worn := rfl
@[simp] theorem State.modGrid_counts (k : Nat) (f : Grid → Grid) : (s.modGrid k f).counts = s.counts := rfl
@[simp] theorem State.modGrid_quiesce (k : Nat) (f : Grid → Grid) : (s.modGrid k f).quiesce = s.quiesce := rfl
@[simp] theorem State.modGrid_lastRead (k : Nat) (f : Grid → Grid) : (s.modGrid k f).lastRead = s.lastRead := rfl
@[simp] theorem State.modGrid_clock (k : Nat) (f : Grid → Grid) : (s.modGrid k f).clock = s.clock := rfl
@[simp] theorem State.modGrid_fresh (k : Nat) (f : Grid → Grid) : (s.modGrid k f).fresh = s.fresh := rfl
@[simp] theorem State.modGrid_nextId (k : Nat) (f : Grid → Grid) : (s.modGrid k f).nextId = s.nextId := rfl
@[simp] theorem State.modGrid_sched (k : Nat) (f : Grid → Grid) : (s.modGrid k f).sched = s.sched := rfl
@[simp] theorem State.modGrid_focus (k : Nat) (f : Grid → Grid) : (s.modGrid k f).focus = s.focus := rfl

/-! ### `modTeam` -/

@[simp] theorem State.modTeam_level (k : Nat) (f : Team → Team) : (s.modTeam k f).level = s.level := rfl
@[simp] theorem State.modTeam_err (k : Nat) (f : Team → Team) : (s.modTeam k f).err = s.err := rfl
@[simp] theorem State.modTeam_flash (k : Nat) (f : Team → Team) : (s.modTeam k f).flash = s.flash := rfl
@[simp] theorem State.modTeam_dies (k : Nat) (f : Team → Team) : (s.modTeam k f).dies = s.dies := rfl
@[simp] theorem State.modTeam_cores (k : Nat) (f : Team → Team) : (s.modTeam k f).cores = s.cores := rfl
@[simp] theorem State.modTeam_groups (k : Nat) (f : Team → Team) : (s.modTeam k f).groups = s.groups := rfl
@[simp] theorem State.modTeam_grids (k : Nat) (f : Team → Team) : (s.modTeam k f).grids = s.grids := rfl
@[simp] theorem State.modTeam_ctxs (k : Nat) (f : Team → Team) : (s.modTeam k f).ctxs = s.ctxs := rfl
@[simp] theorem State.modTeam_queues (k : Nat) (f : Team → Team) : (s.modTeam k f).queues = s.queues := rfl
@[simp] theorem State.modTeam_counters (k : Nat) (f : Team → Team) : (s.modTeam k f).counters = s.counters := rfl
@[simp] theorem State.modTeam_rr (k : Nat) (f : Team → Team) : (s.modTeam k f).rr = s.rr := rfl
@[simp] theorem State.modTeam_mbox0 (k : Nat) (f : Team → Team) : (s.modTeam k f).mbox0 = s.mbox0 := rfl
@[simp] theorem State.modTeam_mbox1 (k : Nat) (f : Team → Team) : (s.modTeam k f).mbox1 = s.mbox1 := rfl
@[simp] theorem State.modTeam_svc (k : Nat) (f : Team → Team) : (s.modTeam k f).svc = s.svc := rfl
@[simp] theorem State.modTeam_msix0 (k : Nat) (f : Team → Team) : (s.modTeam k f).msix0 = s.msix0 := rfl
@[simp] theorem State.modTeam_msix1 (k : Nat) (f : Team → Team) : (s.modTeam k f).msix1 = s.msix1 := rfl
@[simp] theorem State.modTeam_msixTable0 (k : Nat) (f : Team → Team) : (s.modTeam k f).msixTable0 = s.msixTable0 := rfl
@[simp] theorem State.modTeam_msixTable1 (k : Nat) (f : Team → Team) : (s.modTeam k f).msixTable1 = s.msixTable1 := rfl
@[simp] theorem State.modTeam_hostRanges (k : Nat) (f : Team → Team) : (s.modTeam k f).hostRanges = s.hostRanges := rfl
@[simp] theorem State.modTeam_mem (k : Nat) (f : Team → Team) : (s.modTeam k f).mem = s.mem := rfl
@[simp] theorem State.modTeam_stored (k : Nat) (f : Team → Team) : (s.modTeam k f).stored = s.stored := rfl
@[simp] theorem State.modTeam_order (k : Nat) (f : Team → Team) : (s.modTeam k f).order = s.order := rfl
@[simp] theorem State.modTeam_lost (k : Nat) (f : Team → Team) : (s.modTeam k f).lost = s.lost := rfl
@[simp] theorem State.modTeam_ovf (k : Nat) (f : Team → Team) : (s.modTeam k f).ovf = s.ovf := rfl
@[simp] theorem State.modTeam_leases (k : Nat) (f : Team → Team) : (s.modTeam k f).leases = s.leases := rfl
@[simp] theorem State.modTeam_hostLines (k : Nat) (f : Team → Team) : (s.modTeam k f).hostLines = s.hostLines := rfl
@[simp] theorem State.modTeam_walign (k : Nat) (f : Team → Team) : (s.modTeam k f).walign = s.walign := rfl
@[simp] theorem State.modTeam_match_ (k : Nat) (f : Team → Team) : (s.modTeam k f).match_ = s.match_ := rfl
@[simp] theorem State.modTeam_mismatch (k : Nat) (f : Team → Team) : (s.modTeam k f).mismatch = s.mismatch := rfl
@[simp] theorem State.modTeam_abandon (k : Nat) (f : Team → Team) : (s.modTeam k f).abandon = s.abandon := rfl
@[simp] theorem State.modTeam_errors (k : Nat) (f : Team → Team) : (s.modTeam k f).errors = s.errors := rfl
@[simp] theorem State.modTeam_ops (k : Nat) (f : Team → Team) : (s.modTeam k f).ops = s.ops := rfl
@[simp] theorem State.modTeam_resid (k : Nat) (f : Team → Team) : (s.modTeam k f).resid = s.resid := rfl
@[simp] theorem State.modTeam_colls (k : Nat) (f : Team → Team) : (s.modTeam k f).colls = s.colls := rfl
@[simp] theorem State.modTeam_ports (k : Nat) (f : Team → Team) : (s.modTeam k f).ports = s.ports := rfl
@[simp] theorem State.modTeam_worn (k : Nat) (f : Team → Team) : (s.modTeam k f).worn = s.worn := rfl
@[simp] theorem State.modTeam_counts (k : Nat) (f : Team → Team) : (s.modTeam k f).counts = s.counts := rfl
@[simp] theorem State.modTeam_quiesce (k : Nat) (f : Team → Team) : (s.modTeam k f).quiesce = s.quiesce := rfl
@[simp] theorem State.modTeam_lastRead (k : Nat) (f : Team → Team) : (s.modTeam k f).lastRead = s.lastRead := rfl
@[simp] theorem State.modTeam_clock (k : Nat) (f : Team → Team) : (s.modTeam k f).clock = s.clock := rfl
@[simp] theorem State.modTeam_fresh (k : Nat) (f : Team → Team) : (s.modTeam k f).fresh = s.fresh := rfl
@[simp] theorem State.modTeam_nextId (k : Nat) (f : Team → Team) : (s.modTeam k f).nextId = s.nextId := rfl
@[simp] theorem State.modTeam_sched (k : Nat) (f : Team → Team) : (s.modTeam k f).sched = s.sched := rfl
@[simp] theorem State.modTeam_focus (k : Nat) (f : Team → Team) : (s.modTeam k f).focus = s.focus := rfl

/-! ### `modSlice` -/

@[simp] theorem State.modSlice_level (k i : Nat) (f : Slice → Slice) : (s.modSlice k i f).level = s.level := rfl
@[simp] theorem State.modSlice_err (k i : Nat) (f : Slice → Slice) : (s.modSlice k i f).err = s.err := rfl
@[simp] theorem State.modSlice_flash (k i : Nat) (f : Slice → Slice) : (s.modSlice k i f).flash = s.flash := rfl
@[simp] theorem State.modSlice_dies (k i : Nat) (f : Slice → Slice) : (s.modSlice k i f).dies = s.dies := rfl
@[simp] theorem State.modSlice_cores (k i : Nat) (f : Slice → Slice) : (s.modSlice k i f).cores = s.cores := rfl
@[simp] theorem State.modSlice_groups (k i : Nat) (f : Slice → Slice) : (s.modSlice k i f).groups = s.groups := rfl
@[simp] theorem State.modSlice_grids (k i : Nat) (f : Slice → Slice) : (s.modSlice k i f).grids = s.grids := rfl
@[simp] theorem State.modSlice_ctxs (k i : Nat) (f : Slice → Slice) : (s.modSlice k i f).ctxs = s.ctxs := rfl
@[simp] theorem State.modSlice_queues (k i : Nat) (f : Slice → Slice) : (s.modSlice k i f).queues = s.queues := rfl
@[simp] theorem State.modSlice_counters (k i : Nat) (f : Slice → Slice) : (s.modSlice k i f).counters = s.counters := rfl
@[simp] theorem State.modSlice_rr (k i : Nat) (f : Slice → Slice) : (s.modSlice k i f).rr = s.rr := rfl
@[simp] theorem State.modSlice_mbox0 (k i : Nat) (f : Slice → Slice) : (s.modSlice k i f).mbox0 = s.mbox0 := rfl
@[simp] theorem State.modSlice_mbox1 (k i : Nat) (f : Slice → Slice) : (s.modSlice k i f).mbox1 = s.mbox1 := rfl
@[simp] theorem State.modSlice_svc (k i : Nat) (f : Slice → Slice) : (s.modSlice k i f).svc = s.svc := rfl
@[simp] theorem State.modSlice_msix0 (k i : Nat) (f : Slice → Slice) : (s.modSlice k i f).msix0 = s.msix0 := rfl
@[simp] theorem State.modSlice_msix1 (k i : Nat) (f : Slice → Slice) : (s.modSlice k i f).msix1 = s.msix1 := rfl
@[simp] theorem State.modSlice_msixTable0 (k i : Nat) (f : Slice → Slice) : (s.modSlice k i f).msixTable0 = s.msixTable0 := rfl
@[simp] theorem State.modSlice_msixTable1 (k i : Nat) (f : Slice → Slice) : (s.modSlice k i f).msixTable1 = s.msixTable1 := rfl
@[simp] theorem State.modSlice_hostRanges (k i : Nat) (f : Slice → Slice) : (s.modSlice k i f).hostRanges = s.hostRanges := rfl
@[simp] theorem State.modSlice_mem (k i : Nat) (f : Slice → Slice) : (s.modSlice k i f).mem = s.mem := rfl
@[simp] theorem State.modSlice_stored (k i : Nat) (f : Slice → Slice) : (s.modSlice k i f).stored = s.stored := rfl
@[simp] theorem State.modSlice_order (k i : Nat) (f : Slice → Slice) : (s.modSlice k i f).order = s.order := rfl
@[simp] theorem State.modSlice_lost (k i : Nat) (f : Slice → Slice) : (s.modSlice k i f).lost = s.lost := rfl
@[simp] theorem State.modSlice_ovf (k i : Nat) (f : Slice → Slice) : (s.modSlice k i f).ovf = s.ovf := rfl
@[simp] theorem State.modSlice_leases (k i : Nat) (f : Slice → Slice) : (s.modSlice k i f).leases = s.leases := rfl
@[simp] theorem State.modSlice_hostLines (k i : Nat) (f : Slice → Slice) : (s.modSlice k i f).hostLines = s.hostLines := rfl
@[simp] theorem State.modSlice_walign (k i : Nat) (f : Slice → Slice) : (s.modSlice k i f).walign = s.walign := rfl
@[simp] theorem State.modSlice_match_ (k i : Nat) (f : Slice → Slice) : (s.modSlice k i f).match_ = s.match_ := rfl
@[simp] theorem State.modSlice_mismatch (k i : Nat) (f : Slice → Slice) : (s.modSlice k i f).mismatch = s.mismatch := rfl
@[simp] theorem State.modSlice_abandon (k i : Nat) (f : Slice → Slice) : (s.modSlice k i f).abandon = s.abandon := rfl
@[simp] theorem State.modSlice_errors (k i : Nat) (f : Slice → Slice) : (s.modSlice k i f).errors = s.errors := rfl
@[simp] theorem State.modSlice_ops (k i : Nat) (f : Slice → Slice) : (s.modSlice k i f).ops = s.ops := rfl
@[simp] theorem State.modSlice_resid (k i : Nat) (f : Slice → Slice) : (s.modSlice k i f).resid = s.resid := rfl
@[simp] theorem State.modSlice_colls (k i : Nat) (f : Slice → Slice) : (s.modSlice k i f).colls = s.colls := rfl
@[simp] theorem State.modSlice_ports (k i : Nat) (f : Slice → Slice) : (s.modSlice k i f).ports = s.ports := rfl
@[simp] theorem State.modSlice_worn (k i : Nat) (f : Slice → Slice) : (s.modSlice k i f).worn = s.worn := rfl
@[simp] theorem State.modSlice_counts (k i : Nat) (f : Slice → Slice) : (s.modSlice k i f).counts = s.counts := rfl
@[simp] theorem State.modSlice_quiesce (k i : Nat) (f : Slice → Slice) : (s.modSlice k i f).quiesce = s.quiesce := rfl
@[simp] theorem State.modSlice_lastRead (k i : Nat) (f : Slice → Slice) : (s.modSlice k i f).lastRead = s.lastRead := rfl
@[simp] theorem State.modSlice_clock (k i : Nat) (f : Slice → Slice) : (s.modSlice k i f).clock = s.clock := rfl
@[simp] theorem State.modSlice_fresh (k i : Nat) (f : Slice → Slice) : (s.modSlice k i f).fresh = s.fresh := rfl
@[simp] theorem State.modSlice_nextId (k i : Nat) (f : Slice → Slice) : (s.modSlice k i f).nextId = s.nextId := rfl
@[simp] theorem State.modSlice_sched (k i : Nat) (f : Slice → Slice) : (s.modSlice k i f).sched = s.sched := rfl
@[simp] theorem State.modSlice_focus (k i : Nat) (f : Slice → Slice) : (s.modSlice k i f).focus = s.focus := rfl

/-! ### `modCtx` -/

@[simp] theorem State.modCtx_level (k : Nat) (f : Ctx → Ctx) : (s.modCtx k f).level = s.level := rfl
@[simp] theorem State.modCtx_err (k : Nat) (f : Ctx → Ctx) : (s.modCtx k f).err = s.err := rfl
@[simp] theorem State.modCtx_flash (k : Nat) (f : Ctx → Ctx) : (s.modCtx k f).flash = s.flash := rfl
@[simp] theorem State.modCtx_dies (k : Nat) (f : Ctx → Ctx) : (s.modCtx k f).dies = s.dies := rfl
@[simp] theorem State.modCtx_cores (k : Nat) (f : Ctx → Ctx) : (s.modCtx k f).cores = s.cores := rfl
@[simp] theorem State.modCtx_groups (k : Nat) (f : Ctx → Ctx) : (s.modCtx k f).groups = s.groups := rfl
@[simp] theorem State.modCtx_teams (k : Nat) (f : Ctx → Ctx) : (s.modCtx k f).teams = s.teams := rfl
@[simp] theorem State.modCtx_grids (k : Nat) (f : Ctx → Ctx) : (s.modCtx k f).grids = s.grids := rfl
@[simp] theorem State.modCtx_queues (k : Nat) (f : Ctx → Ctx) : (s.modCtx k f).queues = s.queues := rfl
@[simp] theorem State.modCtx_counters (k : Nat) (f : Ctx → Ctx) : (s.modCtx k f).counters = s.counters := rfl
@[simp] theorem State.modCtx_rr (k : Nat) (f : Ctx → Ctx) : (s.modCtx k f).rr = s.rr := rfl
@[simp] theorem State.modCtx_mbox0 (k : Nat) (f : Ctx → Ctx) : (s.modCtx k f).mbox0 = s.mbox0 := rfl
@[simp] theorem State.modCtx_mbox1 (k : Nat) (f : Ctx → Ctx) : (s.modCtx k f).mbox1 = s.mbox1 := rfl
@[simp] theorem State.modCtx_svc (k : Nat) (f : Ctx → Ctx) : (s.modCtx k f).svc = s.svc := rfl
@[simp] theorem State.modCtx_msix0 (k : Nat) (f : Ctx → Ctx) : (s.modCtx k f).msix0 = s.msix0 := rfl
@[simp] theorem State.modCtx_msix1 (k : Nat) (f : Ctx → Ctx) : (s.modCtx k f).msix1 = s.msix1 := rfl
@[simp] theorem State.modCtx_msixTable0 (k : Nat) (f : Ctx → Ctx) : (s.modCtx k f).msixTable0 = s.msixTable0 := rfl
@[simp] theorem State.modCtx_msixTable1 (k : Nat) (f : Ctx → Ctx) : (s.modCtx k f).msixTable1 = s.msixTable1 := rfl
@[simp] theorem State.modCtx_hostRanges (k : Nat) (f : Ctx → Ctx) : (s.modCtx k f).hostRanges = s.hostRanges := rfl
@[simp] theorem State.modCtx_mem (k : Nat) (f : Ctx → Ctx) : (s.modCtx k f).mem = s.mem := rfl
@[simp] theorem State.modCtx_stored (k : Nat) (f : Ctx → Ctx) : (s.modCtx k f).stored = s.stored := rfl
@[simp] theorem State.modCtx_order (k : Nat) (f : Ctx → Ctx) : (s.modCtx k f).order = s.order := rfl
@[simp] theorem State.modCtx_lost (k : Nat) (f : Ctx → Ctx) : (s.modCtx k f).lost = s.lost := rfl
@[simp] theorem State.modCtx_ovf (k : Nat) (f : Ctx → Ctx) : (s.modCtx k f).ovf = s.ovf := rfl
@[simp] theorem State.modCtx_leases (k : Nat) (f : Ctx → Ctx) : (s.modCtx k f).leases = s.leases := rfl
@[simp] theorem State.modCtx_hostLines (k : Nat) (f : Ctx → Ctx) : (s.modCtx k f).hostLines = s.hostLines := rfl
@[simp] theorem State.modCtx_walign (k : Nat) (f : Ctx → Ctx) : (s.modCtx k f).walign = s.walign := rfl
@[simp] theorem State.modCtx_match_ (k : Nat) (f : Ctx → Ctx) : (s.modCtx k f).match_ = s.match_ := rfl
@[simp] theorem State.modCtx_mismatch (k : Nat) (f : Ctx → Ctx) : (s.modCtx k f).mismatch = s.mismatch := rfl
@[simp] theorem State.modCtx_abandon (k : Nat) (f : Ctx → Ctx) : (s.modCtx k f).abandon = s.abandon := rfl
@[simp] theorem State.modCtx_errors (k : Nat) (f : Ctx → Ctx) : (s.modCtx k f).errors = s.errors := rfl
@[simp] theorem State.modCtx_ops (k : Nat) (f : Ctx → Ctx) : (s.modCtx k f).ops = s.ops := rfl
@[simp] theorem State.modCtx_resid (k : Nat) (f : Ctx → Ctx) : (s.modCtx k f).resid = s.resid := rfl
@[simp] theorem State.modCtx_colls (k : Nat) (f : Ctx → Ctx) : (s.modCtx k f).colls = s.colls := rfl
@[simp] theorem State.modCtx_ports (k : Nat) (f : Ctx → Ctx) : (s.modCtx k f).ports = s.ports := rfl
@[simp] theorem State.modCtx_worn (k : Nat) (f : Ctx → Ctx) : (s.modCtx k f).worn = s.worn := rfl
@[simp] theorem State.modCtx_counts (k : Nat) (f : Ctx → Ctx) : (s.modCtx k f).counts = s.counts := rfl
@[simp] theorem State.modCtx_quiesce (k : Nat) (f : Ctx → Ctx) : (s.modCtx k f).quiesce = s.quiesce := rfl
@[simp] theorem State.modCtx_lastRead (k : Nat) (f : Ctx → Ctx) : (s.modCtx k f).lastRead = s.lastRead := rfl
@[simp] theorem State.modCtx_clock (k : Nat) (f : Ctx → Ctx) : (s.modCtx k f).clock = s.clock := rfl
@[simp] theorem State.modCtx_fresh (k : Nat) (f : Ctx → Ctx) : (s.modCtx k f).fresh = s.fresh := rfl
@[simp] theorem State.modCtx_nextId (k : Nat) (f : Ctx → Ctx) : (s.modCtx k f).nextId = s.nextId := rfl
@[simp] theorem State.modCtx_sched (k : Nat) (f : Ctx → Ctx) : (s.modCtx k f).sched = s.sched := rfl
@[simp] theorem State.modCtx_focus (k : Nat) (f : Ctx → Ctx) : (s.modCtx k f).focus = s.focus := rfl

/-! ### `modCore` -/

@[simp] theorem State.modCore_level (k : Nat) (f : Core → Core) : (s.modCore k f).level = s.level := rfl
@[simp] theorem State.modCore_err (k : Nat) (f : Core → Core) : (s.modCore k f).err = s.err := rfl
@[simp] theorem State.modCore_flash (k : Nat) (f : Core → Core) : (s.modCore k f).flash = s.flash := rfl
@[simp] theorem State.modCore_dies (k : Nat) (f : Core → Core) : (s.modCore k f).dies = s.dies := rfl
@[simp] theorem State.modCore_groups (k : Nat) (f : Core → Core) : (s.modCore k f).groups = s.groups := rfl
@[simp] theorem State.modCore_teams (k : Nat) (f : Core → Core) : (s.modCore k f).teams = s.teams := rfl
@[simp] theorem State.modCore_grids (k : Nat) (f : Core → Core) : (s.modCore k f).grids = s.grids := rfl
@[simp] theorem State.modCore_ctxs (k : Nat) (f : Core → Core) : (s.modCore k f).ctxs = s.ctxs := rfl
@[simp] theorem State.modCore_queues (k : Nat) (f : Core → Core) : (s.modCore k f).queues = s.queues := rfl
@[simp] theorem State.modCore_counters (k : Nat) (f : Core → Core) : (s.modCore k f).counters = s.counters := rfl
@[simp] theorem State.modCore_rr (k : Nat) (f : Core → Core) : (s.modCore k f).rr = s.rr := rfl
@[simp] theorem State.modCore_mbox0 (k : Nat) (f : Core → Core) : (s.modCore k f).mbox0 = s.mbox0 := rfl
@[simp] theorem State.modCore_mbox1 (k : Nat) (f : Core → Core) : (s.modCore k f).mbox1 = s.mbox1 := rfl
@[simp] theorem State.modCore_svc (k : Nat) (f : Core → Core) : (s.modCore k f).svc = s.svc := rfl
@[simp] theorem State.modCore_msix0 (k : Nat) (f : Core → Core) : (s.modCore k f).msix0 = s.msix0 := rfl
@[simp] theorem State.modCore_msix1 (k : Nat) (f : Core → Core) : (s.modCore k f).msix1 = s.msix1 := rfl
@[simp] theorem State.modCore_msixTable0 (k : Nat) (f : Core → Core) : (s.modCore k f).msixTable0 = s.msixTable0 := rfl
@[simp] theorem State.modCore_msixTable1 (k : Nat) (f : Core → Core) : (s.modCore k f).msixTable1 = s.msixTable1 := rfl
@[simp] theorem State.modCore_hostRanges (k : Nat) (f : Core → Core) : (s.modCore k f).hostRanges = s.hostRanges := rfl
@[simp] theorem State.modCore_mem (k : Nat) (f : Core → Core) : (s.modCore k f).mem = s.mem := rfl
@[simp] theorem State.modCore_stored (k : Nat) (f : Core → Core) : (s.modCore k f).stored = s.stored := rfl
@[simp] theorem State.modCore_order (k : Nat) (f : Core → Core) : (s.modCore k f).order = s.order := rfl
@[simp] theorem State.modCore_lost (k : Nat) (f : Core → Core) : (s.modCore k f).lost = s.lost := rfl
@[simp] theorem State.modCore_ovf (k : Nat) (f : Core → Core) : (s.modCore k f).ovf = s.ovf := rfl
@[simp] theorem State.modCore_leases (k : Nat) (f : Core → Core) : (s.modCore k f).leases = s.leases := rfl
@[simp] theorem State.modCore_hostLines (k : Nat) (f : Core → Core) : (s.modCore k f).hostLines = s.hostLines := rfl
@[simp] theorem State.modCore_walign (k : Nat) (f : Core → Core) : (s.modCore k f).walign = s.walign := rfl
@[simp] theorem State.modCore_match_ (k : Nat) (f : Core → Core) : (s.modCore k f).match_ = s.match_ := rfl
@[simp] theorem State.modCore_mismatch (k : Nat) (f : Core → Core) : (s.modCore k f).mismatch = s.mismatch := rfl
@[simp] theorem State.modCore_abandon (k : Nat) (f : Core → Core) : (s.modCore k f).abandon = s.abandon := rfl
@[simp] theorem State.modCore_errors (k : Nat) (f : Core → Core) : (s.modCore k f).errors = s.errors := rfl
@[simp] theorem State.modCore_ops (k : Nat) (f : Core → Core) : (s.modCore k f).ops = s.ops := rfl
@[simp] theorem State.modCore_resid (k : Nat) (f : Core → Core) : (s.modCore k f).resid = s.resid := rfl
@[simp] theorem State.modCore_colls (k : Nat) (f : Core → Core) : (s.modCore k f).colls = s.colls := rfl
@[simp] theorem State.modCore_ports (k : Nat) (f : Core → Core) : (s.modCore k f).ports = s.ports := rfl
@[simp] theorem State.modCore_worn (k : Nat) (f : Core → Core) : (s.modCore k f).worn = s.worn := rfl
@[simp] theorem State.modCore_counts (k : Nat) (f : Core → Core) : (s.modCore k f).counts = s.counts := rfl
@[simp] theorem State.modCore_quiesce (k : Nat) (f : Core → Core) : (s.modCore k f).quiesce = s.quiesce := rfl
@[simp] theorem State.modCore_lastRead (k : Nat) (f : Core → Core) : (s.modCore k f).lastRead = s.lastRead := rfl
@[simp] theorem State.modCore_clock (k : Nat) (f : Core → Core) : (s.modCore k f).clock = s.clock := rfl
@[simp] theorem State.modCore_fresh (k : Nat) (f : Core → Core) : (s.modCore k f).fresh = s.fresh := rfl
@[simp] theorem State.modCore_nextId (k : Nat) (f : Core → Core) : (s.modCore k f).nextId = s.nextId := rfl
@[simp] theorem State.modCore_sched (k : Nat) (f : Core → Core) : (s.modCore k f).sched = s.sched := rfl
@[simp] theorem State.modCore_focus (k : Nat) (f : Core → Core) : (s.modCore k f).focus = s.focus := rfl

/-! ### `modOrd` -/

@[simp] theorem State.modOrd_level (k : Nat) (f : ThreadOrd → ThreadOrd) : (s.modOrd k f).level = s.level := rfl
@[simp] theorem State.modOrd_err (k : Nat) (f : ThreadOrd → ThreadOrd) : (s.modOrd k f).err = s.err := rfl
@[simp] theorem State.modOrd_flash (k : Nat) (f : ThreadOrd → ThreadOrd) : (s.modOrd k f).flash = s.flash := rfl
@[simp] theorem State.modOrd_dies (k : Nat) (f : ThreadOrd → ThreadOrd) : (s.modOrd k f).dies = s.dies := rfl
@[simp] theorem State.modOrd_cores (k : Nat) (f : ThreadOrd → ThreadOrd) : (s.modOrd k f).cores = s.cores := rfl
@[simp] theorem State.modOrd_groups (k : Nat) (f : ThreadOrd → ThreadOrd) : (s.modOrd k f).groups = s.groups := rfl
@[simp] theorem State.modOrd_teams (k : Nat) (f : ThreadOrd → ThreadOrd) : (s.modOrd k f).teams = s.teams := rfl
@[simp] theorem State.modOrd_grids (k : Nat) (f : ThreadOrd → ThreadOrd) : (s.modOrd k f).grids = s.grids := rfl
@[simp] theorem State.modOrd_ctxs (k : Nat) (f : ThreadOrd → ThreadOrd) : (s.modOrd k f).ctxs = s.ctxs := rfl
@[simp] theorem State.modOrd_queues (k : Nat) (f : ThreadOrd → ThreadOrd) : (s.modOrd k f).queues = s.queues := rfl
@[simp] theorem State.modOrd_counters (k : Nat) (f : ThreadOrd → ThreadOrd) : (s.modOrd k f).counters = s.counters := rfl
@[simp] theorem State.modOrd_rr (k : Nat) (f : ThreadOrd → ThreadOrd) : (s.modOrd k f).rr = s.rr := rfl
@[simp] theorem State.modOrd_mbox0 (k : Nat) (f : ThreadOrd → ThreadOrd) : (s.modOrd k f).mbox0 = s.mbox0 := rfl
@[simp] theorem State.modOrd_mbox1 (k : Nat) (f : ThreadOrd → ThreadOrd) : (s.modOrd k f).mbox1 = s.mbox1 := rfl
@[simp] theorem State.modOrd_svc (k : Nat) (f : ThreadOrd → ThreadOrd) : (s.modOrd k f).svc = s.svc := rfl
@[simp] theorem State.modOrd_msix0 (k : Nat) (f : ThreadOrd → ThreadOrd) : (s.modOrd k f).msix0 = s.msix0 := rfl
@[simp] theorem State.modOrd_msix1 (k : Nat) (f : ThreadOrd → ThreadOrd) : (s.modOrd k f).msix1 = s.msix1 := rfl
@[simp] theorem State.modOrd_msixTable0 (k : Nat) (f : ThreadOrd → ThreadOrd) : (s.modOrd k f).msixTable0 = s.msixTable0 := rfl
@[simp] theorem State.modOrd_msixTable1 (k : Nat) (f : ThreadOrd → ThreadOrd) : (s.modOrd k f).msixTable1 = s.msixTable1 := rfl
@[simp] theorem State.modOrd_hostRanges (k : Nat) (f : ThreadOrd → ThreadOrd) : (s.modOrd k f).hostRanges = s.hostRanges := rfl
@[simp] theorem State.modOrd_mem (k : Nat) (f : ThreadOrd → ThreadOrd) : (s.modOrd k f).mem = s.mem := rfl
@[simp] theorem State.modOrd_stored (k : Nat) (f : ThreadOrd → ThreadOrd) : (s.modOrd k f).stored = s.stored := rfl
@[simp] theorem State.modOrd_lost (k : Nat) (f : ThreadOrd → ThreadOrd) : (s.modOrd k f).lost = s.lost := rfl
@[simp] theorem State.modOrd_ovf (k : Nat) (f : ThreadOrd → ThreadOrd) : (s.modOrd k f).ovf = s.ovf := rfl
@[simp] theorem State.modOrd_leases (k : Nat) (f : ThreadOrd → ThreadOrd) : (s.modOrd k f).leases = s.leases := rfl
@[simp] theorem State.modOrd_hostLines (k : Nat) (f : ThreadOrd → ThreadOrd) : (s.modOrd k f).hostLines = s.hostLines := rfl
@[simp] theorem State.modOrd_walign (k : Nat) (f : ThreadOrd → ThreadOrd) : (s.modOrd k f).walign = s.walign := rfl
@[simp] theorem State.modOrd_match_ (k : Nat) (f : ThreadOrd → ThreadOrd) : (s.modOrd k f).match_ = s.match_ := rfl
@[simp] theorem State.modOrd_mismatch (k : Nat) (f : ThreadOrd → ThreadOrd) : (s.modOrd k f).mismatch = s.mismatch := rfl
@[simp] theorem State.modOrd_abandon (k : Nat) (f : ThreadOrd → ThreadOrd) : (s.modOrd k f).abandon = s.abandon := rfl
@[simp] theorem State.modOrd_errors (k : Nat) (f : ThreadOrd → ThreadOrd) : (s.modOrd k f).errors = s.errors := rfl
@[simp] theorem State.modOrd_ops (k : Nat) (f : ThreadOrd → ThreadOrd) : (s.modOrd k f).ops = s.ops := rfl
@[simp] theorem State.modOrd_resid (k : Nat) (f : ThreadOrd → ThreadOrd) : (s.modOrd k f).resid = s.resid := rfl
@[simp] theorem State.modOrd_colls (k : Nat) (f : ThreadOrd → ThreadOrd) : (s.modOrd k f).colls = s.colls := rfl
@[simp] theorem State.modOrd_ports (k : Nat) (f : ThreadOrd → ThreadOrd) : (s.modOrd k f).ports = s.ports := rfl
@[simp] theorem State.modOrd_worn (k : Nat) (f : ThreadOrd → ThreadOrd) : (s.modOrd k f).worn = s.worn := rfl
@[simp] theorem State.modOrd_counts (k : Nat) (f : ThreadOrd → ThreadOrd) : (s.modOrd k f).counts = s.counts := rfl
@[simp] theorem State.modOrd_quiesce (k : Nat) (f : ThreadOrd → ThreadOrd) : (s.modOrd k f).quiesce = s.quiesce := rfl
@[simp] theorem State.modOrd_lastRead (k : Nat) (f : ThreadOrd → ThreadOrd) : (s.modOrd k f).lastRead = s.lastRead := rfl
@[simp] theorem State.modOrd_clock (k : Nat) (f : ThreadOrd → ThreadOrd) : (s.modOrd k f).clock = s.clock := rfl
@[simp] theorem State.modOrd_fresh (k : Nat) (f : ThreadOrd → ThreadOrd) : (s.modOrd k f).fresh = s.fresh := rfl
@[simp] theorem State.modOrd_nextId (k : Nat) (f : ThreadOrd → ThreadOrd) : (s.modOrd k f).nextId = s.nextId := rfl
@[simp] theorem State.modOrd_sched (k : Nat) (f : ThreadOrd → ThreadOrd) : (s.modOrd k f).sched = s.sched := rfl
@[simp] theorem State.modOrd_focus (k : Nat) (f : ThreadOrd → ThreadOrd) : (s.modOrd k f).focus = s.focus := rfl

/-! ### `modRegion` -/

@[simp] theorem State.modRegion_level (k : Nat) (f : Region → Region) : (s.modRegion k f).level = s.level := rfl
@[simp] theorem State.modRegion_err (k : Nat) (f : Region → Region) : (s.modRegion k f).err = s.err := rfl
@[simp] theorem State.modRegion_flash (k : Nat) (f : Region → Region) : (s.modRegion k f).flash = s.flash := rfl
@[simp] theorem State.modRegion_dies (k : Nat) (f : Region → Region) : (s.modRegion k f).dies = s.dies := rfl
@[simp] theorem State.modRegion_cores (k : Nat) (f : Region → Region) : (s.modRegion k f).cores = s.cores := rfl
@[simp] theorem State.modRegion_groups (k : Nat) (f : Region → Region) : (s.modRegion k f).groups = s.groups := rfl
@[simp] theorem State.modRegion_teams (k : Nat) (f : Region → Region) : (s.modRegion k f).teams = s.teams := rfl
@[simp] theorem State.modRegion_grids (k : Nat) (f : Region → Region) : (s.modRegion k f).grids = s.grids := rfl
@[simp] theorem State.modRegion_ctxs (k : Nat) (f : Region → Region) : (s.modRegion k f).ctxs = s.ctxs := rfl
@[simp] theorem State.modRegion_queues (k : Nat) (f : Region → Region) : (s.modRegion k f).queues = s.queues := rfl
@[simp] theorem State.modRegion_counters (k : Nat) (f : Region → Region) : (s.modRegion k f).counters = s.counters := rfl
@[simp] theorem State.modRegion_rr (k : Nat) (f : Region → Region) : (s.modRegion k f).rr = s.rr := rfl
@[simp] theorem State.modRegion_mbox0 (k : Nat) (f : Region → Region) : (s.modRegion k f).mbox0 = s.mbox0 := rfl
@[simp] theorem State.modRegion_mbox1 (k : Nat) (f : Region → Region) : (s.modRegion k f).mbox1 = s.mbox1 := rfl
@[simp] theorem State.modRegion_svc (k : Nat) (f : Region → Region) : (s.modRegion k f).svc = s.svc := rfl
@[simp] theorem State.modRegion_msix0 (k : Nat) (f : Region → Region) : (s.modRegion k f).msix0 = s.msix0 := rfl
@[simp] theorem State.modRegion_msix1 (k : Nat) (f : Region → Region) : (s.modRegion k f).msix1 = s.msix1 := rfl
@[simp] theorem State.modRegion_msixTable0 (k : Nat) (f : Region → Region) : (s.modRegion k f).msixTable0 = s.msixTable0 := rfl
@[simp] theorem State.modRegion_msixTable1 (k : Nat) (f : Region → Region) : (s.modRegion k f).msixTable1 = s.msixTable1 := rfl
@[simp] theorem State.modRegion_hostRanges (k : Nat) (f : Region → Region) : (s.modRegion k f).hostRanges = s.hostRanges := rfl
@[simp] theorem State.modRegion_mem (k : Nat) (f : Region → Region) : (s.modRegion k f).mem = s.mem := rfl
@[simp] theorem State.modRegion_stored (k : Nat) (f : Region → Region) : (s.modRegion k f).stored = s.stored := rfl
@[simp] theorem State.modRegion_lost (k : Nat) (f : Region → Region) : (s.modRegion k f).lost = s.lost := rfl
@[simp] theorem State.modRegion_ovf (k : Nat) (f : Region → Region) : (s.modRegion k f).ovf = s.ovf := rfl
@[simp] theorem State.modRegion_leases (k : Nat) (f : Region → Region) : (s.modRegion k f).leases = s.leases := rfl
@[simp] theorem State.modRegion_hostLines (k : Nat) (f : Region → Region) : (s.modRegion k f).hostLines = s.hostLines := rfl
@[simp] theorem State.modRegion_walign (k : Nat) (f : Region → Region) : (s.modRegion k f).walign = s.walign := rfl
@[simp] theorem State.modRegion_match_ (k : Nat) (f : Region → Region) : (s.modRegion k f).match_ = s.match_ := rfl
@[simp] theorem State.modRegion_mismatch (k : Nat) (f : Region → Region) : (s.modRegion k f).mismatch = s.mismatch := rfl
@[simp] theorem State.modRegion_abandon (k : Nat) (f : Region → Region) : (s.modRegion k f).abandon = s.abandon := rfl
@[simp] theorem State.modRegion_errors (k : Nat) (f : Region → Region) : (s.modRegion k f).errors = s.errors := rfl
@[simp] theorem State.modRegion_ops (k : Nat) (f : Region → Region) : (s.modRegion k f).ops = s.ops := rfl
@[simp] theorem State.modRegion_resid (k : Nat) (f : Region → Region) : (s.modRegion k f).resid = s.resid := rfl
@[simp] theorem State.modRegion_colls (k : Nat) (f : Region → Region) : (s.modRegion k f).colls = s.colls := rfl
@[simp] theorem State.modRegion_ports (k : Nat) (f : Region → Region) : (s.modRegion k f).ports = s.ports := rfl
@[simp] theorem State.modRegion_worn (k : Nat) (f : Region → Region) : (s.modRegion k f).worn = s.worn := rfl
@[simp] theorem State.modRegion_counts (k : Nat) (f : Region → Region) : (s.modRegion k f).counts = s.counts := rfl
@[simp] theorem State.modRegion_quiesce (k : Nat) (f : Region → Region) : (s.modRegion k f).quiesce = s.quiesce := rfl
@[simp] theorem State.modRegion_lastRead (k : Nat) (f : Region → Region) : (s.modRegion k f).lastRead = s.lastRead := rfl
@[simp] theorem State.modRegion_clock (k : Nat) (f : Region → Region) : (s.modRegion k f).clock = s.clock := rfl
@[simp] theorem State.modRegion_fresh (k : Nat) (f : Region → Region) : (s.modRegion k f).fresh = s.fresh := rfl
@[simp] theorem State.modRegion_nextId (k : Nat) (f : Region → Region) : (s.modRegion k f).nextId = s.nextId := rfl
@[simp] theorem State.modRegion_sched (k : Nat) (f : Region → Region) : (s.modRegion k f).sched = s.sched := rfl
@[simp] theorem State.modRegion_focus (k : Nat) (f : Region → Region) : (s.modRegion k f).focus = s.focus := rfl

/-! ### `modQueue` -/

@[simp] theorem State.modQueue_level (q : Nat) (f : Queue → Queue) : (s.modQueue q f).level = s.level := rfl
@[simp] theorem State.modQueue_err (q : Nat) (f : Queue → Queue) : (s.modQueue q f).err = s.err := rfl
@[simp] theorem State.modQueue_flash (q : Nat) (f : Queue → Queue) : (s.modQueue q f).flash = s.flash := rfl
@[simp] theorem State.modQueue_dies (q : Nat) (f : Queue → Queue) : (s.modQueue q f).dies = s.dies := rfl
@[simp] theorem State.modQueue_cores (q : Nat) (f : Queue → Queue) : (s.modQueue q f).cores = s.cores := rfl
@[simp] theorem State.modQueue_groups (q : Nat) (f : Queue → Queue) : (s.modQueue q f).groups = s.groups := rfl
@[simp] theorem State.modQueue_teams (q : Nat) (f : Queue → Queue) : (s.modQueue q f).teams = s.teams := rfl
@[simp] theorem State.modQueue_grids (q : Nat) (f : Queue → Queue) : (s.modQueue q f).grids = s.grids := rfl
@[simp] theorem State.modQueue_ctxs (q : Nat) (f : Queue → Queue) : (s.modQueue q f).ctxs = s.ctxs := rfl
@[simp] theorem State.modQueue_counters (q : Nat) (f : Queue → Queue) : (s.modQueue q f).counters = s.counters := rfl
@[simp] theorem State.modQueue_rr (q : Nat) (f : Queue → Queue) : (s.modQueue q f).rr = s.rr := rfl
@[simp] theorem State.modQueue_mbox0 (q : Nat) (f : Queue → Queue) : (s.modQueue q f).mbox0 = s.mbox0 := rfl
@[simp] theorem State.modQueue_mbox1 (q : Nat) (f : Queue → Queue) : (s.modQueue q f).mbox1 = s.mbox1 := rfl
@[simp] theorem State.modQueue_svc (q : Nat) (f : Queue → Queue) : (s.modQueue q f).svc = s.svc := rfl
@[simp] theorem State.modQueue_msix0 (q : Nat) (f : Queue → Queue) : (s.modQueue q f).msix0 = s.msix0 := rfl
@[simp] theorem State.modQueue_msix1 (q : Nat) (f : Queue → Queue) : (s.modQueue q f).msix1 = s.msix1 := rfl
@[simp] theorem State.modQueue_msixTable0 (q : Nat) (f : Queue → Queue) : (s.modQueue q f).msixTable0 = s.msixTable0 := rfl
@[simp] theorem State.modQueue_msixTable1 (q : Nat) (f : Queue → Queue) : (s.modQueue q f).msixTable1 = s.msixTable1 := rfl
@[simp] theorem State.modQueue_hostRanges (q : Nat) (f : Queue → Queue) : (s.modQueue q f).hostRanges = s.hostRanges := rfl
@[simp] theorem State.modQueue_mem (q : Nat) (f : Queue → Queue) : (s.modQueue q f).mem = s.mem := rfl
@[simp] theorem State.modQueue_stored (q : Nat) (f : Queue → Queue) : (s.modQueue q f).stored = s.stored := rfl
@[simp] theorem State.modQueue_order (q : Nat) (f : Queue → Queue) : (s.modQueue q f).order = s.order := rfl
@[simp] theorem State.modQueue_lost (q : Nat) (f : Queue → Queue) : (s.modQueue q f).lost = s.lost := rfl
@[simp] theorem State.modQueue_ovf (q : Nat) (f : Queue → Queue) : (s.modQueue q f).ovf = s.ovf := rfl
@[simp] theorem State.modQueue_leases (q : Nat) (f : Queue → Queue) : (s.modQueue q f).leases = s.leases := rfl
@[simp] theorem State.modQueue_hostLines (q : Nat) (f : Queue → Queue) : (s.modQueue q f).hostLines = s.hostLines := rfl
@[simp] theorem State.modQueue_walign (q : Nat) (f : Queue → Queue) : (s.modQueue q f).walign = s.walign := rfl
@[simp] theorem State.modQueue_match_ (q : Nat) (f : Queue → Queue) : (s.modQueue q f).match_ = s.match_ := rfl
@[simp] theorem State.modQueue_mismatch (q : Nat) (f : Queue → Queue) : (s.modQueue q f).mismatch = s.mismatch := rfl
@[simp] theorem State.modQueue_abandon (q : Nat) (f : Queue → Queue) : (s.modQueue q f).abandon = s.abandon := rfl
@[simp] theorem State.modQueue_errors (q : Nat) (f : Queue → Queue) : (s.modQueue q f).errors = s.errors := rfl
@[simp] theorem State.modQueue_ops (q : Nat) (f : Queue → Queue) : (s.modQueue q f).ops = s.ops := rfl
@[simp] theorem State.modQueue_resid (q : Nat) (f : Queue → Queue) : (s.modQueue q f).resid = s.resid := rfl
@[simp] theorem State.modQueue_colls (q : Nat) (f : Queue → Queue) : (s.modQueue q f).colls = s.colls := rfl
@[simp] theorem State.modQueue_ports (q : Nat) (f : Queue → Queue) : (s.modQueue q f).ports = s.ports := rfl
@[simp] theorem State.modQueue_worn (q : Nat) (f : Queue → Queue) : (s.modQueue q f).worn = s.worn := rfl
@[simp] theorem State.modQueue_counts (q : Nat) (f : Queue → Queue) : (s.modQueue q f).counts = s.counts := rfl
@[simp] theorem State.modQueue_quiesce (q : Nat) (f : Queue → Queue) : (s.modQueue q f).quiesce = s.quiesce := rfl
@[simp] theorem State.modQueue_lastRead (q : Nat) (f : Queue → Queue) : (s.modQueue q f).lastRead = s.lastRead := rfl
@[simp] theorem State.modQueue_clock (q : Nat) (f : Queue → Queue) : (s.modQueue q f).clock = s.clock := rfl
@[simp] theorem State.modQueue_fresh (q : Nat) (f : Queue → Queue) : (s.modQueue q f).fresh = s.fresh := rfl
@[simp] theorem State.modQueue_nextId (q : Nat) (f : Queue → Queue) : (s.modQueue q f).nextId = s.nextId := rfl
@[simp] theorem State.modQueue_sched (q : Nat) (f : Queue → Queue) : (s.modQueue q f).sched = s.sched := rfl
@[simp] theorem State.modQueue_focus (q : Nat) (f : Queue → Queue) : (s.modQueue q f).focus = s.focus := rfl

/-! ### `tick` -/

@[simp] theorem State.tick_level : (s.tick).level = s.level := rfl
@[simp] theorem State.tick_err : (s.tick).err = s.err := rfl
@[simp] theorem State.tick_flash : (s.tick).flash = s.flash := rfl
@[simp] theorem State.tick_dies : (s.tick).dies = s.dies := rfl
@[simp] theorem State.tick_cores : (s.tick).cores = s.cores := rfl
@[simp] theorem State.tick_groups : (s.tick).groups = s.groups := rfl
@[simp] theorem State.tick_teams : (s.tick).teams = s.teams := rfl
@[simp] theorem State.tick_grids : (s.tick).grids = s.grids := rfl
@[simp] theorem State.tick_ctxs : (s.tick).ctxs = s.ctxs := rfl
@[simp] theorem State.tick_queues : (s.tick).queues = s.queues := rfl
@[simp] theorem State.tick_counters : (s.tick).counters = s.counters := rfl
@[simp] theorem State.tick_rr : (s.tick).rr = s.rr := rfl
@[simp] theorem State.tick_mbox0 : (s.tick).mbox0 = s.mbox0 := rfl
@[simp] theorem State.tick_mbox1 : (s.tick).mbox1 = s.mbox1 := rfl
@[simp] theorem State.tick_svc : (s.tick).svc = s.svc := rfl
@[simp] theorem State.tick_msix0 : (s.tick).msix0 = s.msix0 := rfl
@[simp] theorem State.tick_msix1 : (s.tick).msix1 = s.msix1 := rfl
@[simp] theorem State.tick_msixTable0 : (s.tick).msixTable0 = s.msixTable0 := rfl
@[simp] theorem State.tick_msixTable1 : (s.tick).msixTable1 = s.msixTable1 := rfl
@[simp] theorem State.tick_hostRanges : (s.tick).hostRanges = s.hostRanges := rfl
@[simp] theorem State.tick_mem : (s.tick).mem = s.mem := rfl
@[simp] theorem State.tick_stored : (s.tick).stored = s.stored := rfl
@[simp] theorem State.tick_order : (s.tick).order = s.order := rfl
@[simp] theorem State.tick_lost : (s.tick).lost = s.lost := rfl
@[simp] theorem State.tick_ovf : (s.tick).ovf = s.ovf := rfl
@[simp] theorem State.tick_leases : (s.tick).leases = s.leases := rfl
@[simp] theorem State.tick_hostLines : (s.tick).hostLines = s.hostLines := rfl
@[simp] theorem State.tick_walign : (s.tick).walign = s.walign := rfl
@[simp] theorem State.tick_match_ : (s.tick).match_ = s.match_ := rfl
@[simp] theorem State.tick_mismatch : (s.tick).mismatch = s.mismatch := rfl
@[simp] theorem State.tick_abandon : (s.tick).abandon = s.abandon := rfl
@[simp] theorem State.tick_errors : (s.tick).errors = s.errors := rfl
@[simp] theorem State.tick_ops : (s.tick).ops = s.ops := rfl
@[simp] theorem State.tick_resid : (s.tick).resid = s.resid := rfl
@[simp] theorem State.tick_colls : (s.tick).colls = s.colls := rfl
@[simp] theorem State.tick_ports : (s.tick).ports = s.ports := rfl
@[simp] theorem State.tick_worn : (s.tick).worn = s.worn := rfl
@[simp] theorem State.tick_counts : (s.tick).counts = s.counts := rfl
@[simp] theorem State.tick_quiesce : (s.tick).quiesce = s.quiesce := rfl
@[simp] theorem State.tick_lastRead : (s.tick).lastRead = s.lastRead := rfl
@[simp] theorem State.tick_nextId : (s.tick).nextId = s.nextId := rfl
@[simp] theorem State.tick_sched : (s.tick).sched = s.sched := rfl
@[simp] theorem State.tick_focus : (s.tick).focus = s.focus := rfl

/-! ### `fresh1` -/

@[simp] theorem State.fresh1_level : (s.fresh1).level = s.level := rfl
@[simp] theorem State.fresh1_err : (s.fresh1).err = s.err := rfl
@[simp] theorem State.fresh1_flash : (s.fresh1).flash = s.flash := rfl
@[simp] theorem State.fresh1_dies : (s.fresh1).dies = s.dies := rfl
@[simp] theorem State.fresh1_cores : (s.fresh1).cores = s.cores := rfl
@[simp] theorem State.fresh1_groups : (s.fresh1).groups = s.groups := rfl
@[simp] theorem State.fresh1_teams : (s.fresh1).teams = s.teams := rfl
@[simp] theorem State.fresh1_grids : (s.fresh1).grids = s.grids := rfl
@[simp] theorem State.fresh1_ctxs : (s.fresh1).ctxs = s.ctxs := rfl
@[simp] theorem State.fresh1_queues : (s.fresh1).queues = s.queues := rfl
@[simp] theorem State.fresh1_counters : (s.fresh1).counters = s.counters := rfl
@[simp] theorem State.fresh1_rr : (s.fresh1).rr = s.rr := rfl
@[simp] theorem State.fresh1_mbox0 : (s.fresh1).mbox0 = s.mbox0 := rfl
@[simp] theorem State.fresh1_mbox1 : (s.fresh1).mbox1 = s.mbox1 := rfl
@[simp] theorem State.fresh1_svc : (s.fresh1).svc = s.svc := rfl
@[simp] theorem State.fresh1_msix0 : (s.fresh1).msix0 = s.msix0 := rfl
@[simp] theorem State.fresh1_msix1 : (s.fresh1).msix1 = s.msix1 := rfl
@[simp] theorem State.fresh1_msixTable0 : (s.fresh1).msixTable0 = s.msixTable0 := rfl
@[simp] theorem State.fresh1_msixTable1 : (s.fresh1).msixTable1 = s.msixTable1 := rfl
@[simp] theorem State.fresh1_hostRanges : (s.fresh1).hostRanges = s.hostRanges := rfl
@[simp] theorem State.fresh1_mem : (s.fresh1).mem = s.mem := rfl
@[simp] theorem State.fresh1_stored : (s.fresh1).stored = s.stored := rfl
@[simp] theorem State.fresh1_order : (s.fresh1).order = s.order := rfl
@[simp] theorem State.fresh1_lost : (s.fresh1).lost = s.lost := rfl
@[simp] theorem State.fresh1_ovf : (s.fresh1).ovf = s.ovf := rfl
@[simp] theorem State.fresh1_leases : (s.fresh1).leases = s.leases := rfl
@[simp] theorem State.fresh1_hostLines : (s.fresh1).hostLines = s.hostLines := rfl
@[simp] theorem State.fresh1_walign : (s.fresh1).walign = s.walign := rfl
@[simp] theorem State.fresh1_match_ : (s.fresh1).match_ = s.match_ := rfl
@[simp] theorem State.fresh1_mismatch : (s.fresh1).mismatch = s.mismatch := rfl
@[simp] theorem State.fresh1_abandon : (s.fresh1).abandon = s.abandon := rfl
@[simp] theorem State.fresh1_errors : (s.fresh1).errors = s.errors := rfl
@[simp] theorem State.fresh1_ops : (s.fresh1).ops = s.ops := rfl
@[simp] theorem State.fresh1_resid : (s.fresh1).resid = s.resid := rfl
@[simp] theorem State.fresh1_colls : (s.fresh1).colls = s.colls := rfl
@[simp] theorem State.fresh1_ports : (s.fresh1).ports = s.ports := rfl
@[simp] theorem State.fresh1_worn : (s.fresh1).worn = s.worn := rfl
@[simp] theorem State.fresh1_counts : (s.fresh1).counts = s.counts := rfl
@[simp] theorem State.fresh1_quiesce : (s.fresh1).quiesce = s.quiesce := rfl
@[simp] theorem State.fresh1_lastRead : (s.fresh1).lastRead = s.lastRead := rfl
@[simp] theorem State.fresh1_clock : (s.fresh1).clock = s.clock := rfl
@[simp] theorem State.fresh1_fresh : (s.fresh1).fresh = s.fresh := rfl
@[simp] theorem State.fresh1_sched : (s.fresh1).sched = s.sched := rfl
@[simp] theorem State.fresh1_focus : (s.fresh1).focus = s.focus := rfl

/-! ### `focusOn` -/

@[simp] theorem State.focusOn_level (g : Nat) (ls : List Nat) : (s.focusOn g ls).level = s.level := rfl
@[simp] theorem State.focusOn_err (g : Nat) (ls : List Nat) : (s.focusOn g ls).err = s.err := rfl
@[simp] theorem State.focusOn_flash (g : Nat) (ls : List Nat) : (s.focusOn g ls).flash = s.flash := rfl
@[simp] theorem State.focusOn_dies (g : Nat) (ls : List Nat) : (s.focusOn g ls).dies = s.dies := rfl
@[simp] theorem State.focusOn_cores (g : Nat) (ls : List Nat) : (s.focusOn g ls).cores = s.cores := rfl
@[simp] theorem State.focusOn_groups (g : Nat) (ls : List Nat) : (s.focusOn g ls).groups = s.groups := rfl
@[simp] theorem State.focusOn_teams (g : Nat) (ls : List Nat) : (s.focusOn g ls).teams = s.teams := rfl
@[simp] theorem State.focusOn_grids (g : Nat) (ls : List Nat) : (s.focusOn g ls).grids = s.grids := rfl
@[simp] theorem State.focusOn_ctxs (g : Nat) (ls : List Nat) : (s.focusOn g ls).ctxs = s.ctxs := rfl
@[simp] theorem State.focusOn_queues (g : Nat) (ls : List Nat) : (s.focusOn g ls).queues = s.queues := rfl
@[simp] theorem State.focusOn_counters (g : Nat) (ls : List Nat) : (s.focusOn g ls).counters = s.counters := rfl
@[simp] theorem State.focusOn_rr (g : Nat) (ls : List Nat) : (s.focusOn g ls).rr = s.rr := rfl
@[simp] theorem State.focusOn_mbox0 (g : Nat) (ls : List Nat) : (s.focusOn g ls).mbox0 = s.mbox0 := rfl
@[simp] theorem State.focusOn_mbox1 (g : Nat) (ls : List Nat) : (s.focusOn g ls).mbox1 = s.mbox1 := rfl
@[simp] theorem State.focusOn_svc (g : Nat) (ls : List Nat) : (s.focusOn g ls).svc = s.svc := rfl
@[simp] theorem State.focusOn_msix0 (g : Nat) (ls : List Nat) : (s.focusOn g ls).msix0 = s.msix0 := rfl
@[simp] theorem State.focusOn_msix1 (g : Nat) (ls : List Nat) : (s.focusOn g ls).msix1 = s.msix1 := rfl
@[simp] theorem State.focusOn_msixTable0 (g : Nat) (ls : List Nat) : (s.focusOn g ls).msixTable0 = s.msixTable0 := rfl
@[simp] theorem State.focusOn_msixTable1 (g : Nat) (ls : List Nat) : (s.focusOn g ls).msixTable1 = s.msixTable1 := rfl
@[simp] theorem State.focusOn_hostRanges (g : Nat) (ls : List Nat) : (s.focusOn g ls).hostRanges = s.hostRanges := rfl
@[simp] theorem State.focusOn_mem (g : Nat) (ls : List Nat) : (s.focusOn g ls).mem = s.mem := rfl
@[simp] theorem State.focusOn_stored (g : Nat) (ls : List Nat) : (s.focusOn g ls).stored = s.stored := rfl
@[simp] theorem State.focusOn_order (g : Nat) (ls : List Nat) : (s.focusOn g ls).order = s.order := rfl
@[simp] theorem State.focusOn_lost (g : Nat) (ls : List Nat) : (s.focusOn g ls).lost = s.lost := rfl
@[simp] theorem State.focusOn_ovf (g : Nat) (ls : List Nat) : (s.focusOn g ls).ovf = s.ovf := rfl
@[simp] theorem State.focusOn_leases (g : Nat) (ls : List Nat) : (s.focusOn g ls).leases = s.leases := rfl
@[simp] theorem State.focusOn_hostLines (g : Nat) (ls : List Nat) : (s.focusOn g ls).hostLines = s.hostLines := rfl
@[simp] theorem State.focusOn_walign (g : Nat) (ls : List Nat) : (s.focusOn g ls).walign = s.walign := rfl
@[simp] theorem State.focusOn_match_ (g : Nat) (ls : List Nat) : (s.focusOn g ls).match_ = s.match_ := rfl
@[simp] theorem State.focusOn_mismatch (g : Nat) (ls : List Nat) : (s.focusOn g ls).mismatch = s.mismatch := rfl
@[simp] theorem State.focusOn_abandon (g : Nat) (ls : List Nat) : (s.focusOn g ls).abandon = s.abandon := rfl
@[simp] theorem State.focusOn_errors (g : Nat) (ls : List Nat) : (s.focusOn g ls).errors = s.errors := rfl
@[simp] theorem State.focusOn_ops (g : Nat) (ls : List Nat) : (s.focusOn g ls).ops = s.ops := rfl
@[simp] theorem State.focusOn_resid (g : Nat) (ls : List Nat) : (s.focusOn g ls).resid = s.resid := rfl
@[simp] theorem State.focusOn_colls (g : Nat) (ls : List Nat) : (s.focusOn g ls).colls = s.colls := rfl
@[simp] theorem State.focusOn_ports (g : Nat) (ls : List Nat) : (s.focusOn g ls).ports = s.ports := rfl
@[simp] theorem State.focusOn_worn (g : Nat) (ls : List Nat) : (s.focusOn g ls).worn = s.worn := rfl
@[simp] theorem State.focusOn_counts (g : Nat) (ls : List Nat) : (s.focusOn g ls).counts = s.counts := rfl
@[simp] theorem State.focusOn_quiesce (g : Nat) (ls : List Nat) : (s.focusOn g ls).quiesce = s.quiesce := rfl
@[simp] theorem State.focusOn_lastRead (g : Nat) (ls : List Nat) : (s.focusOn g ls).lastRead = s.lastRead := rfl
@[simp] theorem State.focusOn_clock (g : Nat) (ls : List Nat) : (s.focusOn g ls).clock = s.clock := rfl
@[simp] theorem State.focusOn_fresh (g : Nat) (ls : List Nat) : (s.focusOn g ls).fresh = s.fresh := rfl
@[simp] theorem State.focusOn_nextId (g : Nat) (ls : List Nat) : (s.focusOn g ls).nextId = s.nextId := rfl
@[simp] theorem State.focusOn_sched (g : Nat) (ls : List Nat) : (s.focusOn g ls).sched = s.sched := rfl

/-! ### `modCoop` -/

@[simp] theorem State.modCoop_level (k d : Nat) (f : Cooper → Cooper) : (s.modCoop k d f).level = s.level := rfl
@[simp] theorem State.modCoop_err (k d : Nat) (f : Cooper → Cooper) : (s.modCoop k d f).err = s.err := rfl
@[simp] theorem State.modCoop_flash (k d : Nat) (f : Cooper → Cooper) : (s.modCoop k d f).flash = s.flash := rfl
@[simp] theorem State.modCoop_dies (k d : Nat) (f : Cooper → Cooper) : (s.modCoop k d f).dies = s.dies := rfl
@[simp] theorem State.modCoop_cores (k d : Nat) (f : Cooper → Cooper) : (s.modCoop k d f).cores = s.cores := rfl
@[simp] theorem State.modCoop_groups (k d : Nat) (f : Cooper → Cooper) : (s.modCoop k d f).groups = s.groups := rfl
@[simp] theorem State.modCoop_teams (k d : Nat) (f : Cooper → Cooper) : (s.modCoop k d f).teams = s.teams := rfl
@[simp] theorem State.modCoop_grids (k d : Nat) (f : Cooper → Cooper) : (s.modCoop k d f).grids = s.grids := rfl
@[simp] theorem State.modCoop_queues (k d : Nat) (f : Cooper → Cooper) : (s.modCoop k d f).queues = s.queues := rfl
@[simp] theorem State.modCoop_counters (k d : Nat) (f : Cooper → Cooper) : (s.modCoop k d f).counters = s.counters := rfl
@[simp] theorem State.modCoop_rr (k d : Nat) (f : Cooper → Cooper) : (s.modCoop k d f).rr = s.rr := rfl
@[simp] theorem State.modCoop_mbox0 (k d : Nat) (f : Cooper → Cooper) : (s.modCoop k d f).mbox0 = s.mbox0 := rfl
@[simp] theorem State.modCoop_mbox1 (k d : Nat) (f : Cooper → Cooper) : (s.modCoop k d f).mbox1 = s.mbox1 := rfl
@[simp] theorem State.modCoop_svc (k d : Nat) (f : Cooper → Cooper) : (s.modCoop k d f).svc = s.svc := rfl
@[simp] theorem State.modCoop_msix0 (k d : Nat) (f : Cooper → Cooper) : (s.modCoop k d f).msix0 = s.msix0 := rfl
@[simp] theorem State.modCoop_msix1 (k d : Nat) (f : Cooper → Cooper) : (s.modCoop k d f).msix1 = s.msix1 := rfl
@[simp] theorem State.modCoop_msixTable0 (k d : Nat) (f : Cooper → Cooper) : (s.modCoop k d f).msixTable0 = s.msixTable0 := rfl
@[simp] theorem State.modCoop_msixTable1 (k d : Nat) (f : Cooper → Cooper) : (s.modCoop k d f).msixTable1 = s.msixTable1 := rfl
@[simp] theorem State.modCoop_hostRanges (k d : Nat) (f : Cooper → Cooper) : (s.modCoop k d f).hostRanges = s.hostRanges := rfl
@[simp] theorem State.modCoop_mem (k d : Nat) (f : Cooper → Cooper) : (s.modCoop k d f).mem = s.mem := rfl
@[simp] theorem State.modCoop_stored (k d : Nat) (f : Cooper → Cooper) : (s.modCoop k d f).stored = s.stored := rfl
@[simp] theorem State.modCoop_order (k d : Nat) (f : Cooper → Cooper) : (s.modCoop k d f).order = s.order := rfl
@[simp] theorem State.modCoop_lost (k d : Nat) (f : Cooper → Cooper) : (s.modCoop k d f).lost = s.lost := rfl
@[simp] theorem State.modCoop_ovf (k d : Nat) (f : Cooper → Cooper) : (s.modCoop k d f).ovf = s.ovf := rfl
@[simp] theorem State.modCoop_leases (k d : Nat) (f : Cooper → Cooper) : (s.modCoop k d f).leases = s.leases := rfl
@[simp] theorem State.modCoop_hostLines (k d : Nat) (f : Cooper → Cooper) : (s.modCoop k d f).hostLines = s.hostLines := rfl
@[simp] theorem State.modCoop_walign (k d : Nat) (f : Cooper → Cooper) : (s.modCoop k d f).walign = s.walign := rfl
@[simp] theorem State.modCoop_match_ (k d : Nat) (f : Cooper → Cooper) : (s.modCoop k d f).match_ = s.match_ := rfl
@[simp] theorem State.modCoop_mismatch (k d : Nat) (f : Cooper → Cooper) : (s.modCoop k d f).mismatch = s.mismatch := rfl
@[simp] theorem State.modCoop_abandon (k d : Nat) (f : Cooper → Cooper) : (s.modCoop k d f).abandon = s.abandon := rfl
@[simp] theorem State.modCoop_errors (k d : Nat) (f : Cooper → Cooper) : (s.modCoop k d f).errors = s.errors := rfl
@[simp] theorem State.modCoop_ops (k d : Nat) (f : Cooper → Cooper) : (s.modCoop k d f).ops = s.ops := rfl
@[simp] theorem State.modCoop_resid (k d : Nat) (f : Cooper → Cooper) : (s.modCoop k d f).resid = s.resid := rfl
@[simp] theorem State.modCoop_colls (k d : Nat) (f : Cooper → Cooper) : (s.modCoop k d f).colls = s.colls := rfl
@[simp] theorem State.modCoop_ports (k d : Nat) (f : Cooper → Cooper) : (s.modCoop k d f).ports = s.ports := rfl
@[simp] theorem State.modCoop_worn (k d : Nat) (f : Cooper → Cooper) : (s.modCoop k d f).worn = s.worn := rfl
@[simp] theorem State.modCoop_counts (k d : Nat) (f : Cooper → Cooper) : (s.modCoop k d f).counts = s.counts := rfl
@[simp] theorem State.modCoop_quiesce (k d : Nat) (f : Cooper → Cooper) : (s.modCoop k d f).quiesce = s.quiesce := rfl
@[simp] theorem State.modCoop_lastRead (k d : Nat) (f : Cooper → Cooper) : (s.modCoop k d f).lastRead = s.lastRead := rfl
@[simp] theorem State.modCoop_clock (k d : Nat) (f : Cooper → Cooper) : (s.modCoop k d f).clock = s.clock := rfl
@[simp] theorem State.modCoop_fresh (k d : Nat) (f : Cooper → Cooper) : (s.modCoop k d f).fresh = s.fresh := rfl
@[simp] theorem State.modCoop_nextId (k d : Nat) (f : Cooper → Cooper) : (s.modCoop k d f).nextId = s.nextId := rfl
@[simp] theorem State.modCoop_sched (k d : Nat) (f : Cooper → Cooper) : (s.modCoop k d f).sched = s.sched := rfl
@[simp] theorem State.modCoop_focus (k d : Nat) (f : Cooper → Cooper) : (s.modCoop k d f).focus = s.focus := rfl

/-! ### `setRing` -/

@[simp] theorem State.setRing_level (k i id : Nat) (r : Ring) : (s.setRing k i id r).level = s.level := rfl
@[simp] theorem State.setRing_err (k i id : Nat) (r : Ring) : (s.setRing k i id r).err = s.err := rfl
@[simp] theorem State.setRing_flash (k i id : Nat) (r : Ring) : (s.setRing k i id r).flash = s.flash := rfl
@[simp] theorem State.setRing_dies (k i id : Nat) (r : Ring) : (s.setRing k i id r).dies = s.dies := rfl
@[simp] theorem State.setRing_cores (k i id : Nat) (r : Ring) : (s.setRing k i id r).cores = s.cores := rfl
@[simp] theorem State.setRing_groups (k i id : Nat) (r : Ring) : (s.setRing k i id r).groups = s.groups := rfl
@[simp] theorem State.setRing_grids (k i id : Nat) (r : Ring) : (s.setRing k i id r).grids = s.grids := rfl
@[simp] theorem State.setRing_ctxs (k i id : Nat) (r : Ring) : (s.setRing k i id r).ctxs = s.ctxs := rfl
@[simp] theorem State.setRing_queues (k i id : Nat) (r : Ring) : (s.setRing k i id r).queues = s.queues := rfl
@[simp] theorem State.setRing_counters (k i id : Nat) (r : Ring) : (s.setRing k i id r).counters = s.counters := rfl
@[simp] theorem State.setRing_rr (k i id : Nat) (r : Ring) : (s.setRing k i id r).rr = s.rr := rfl
@[simp] theorem State.setRing_mbox0 (k i id : Nat) (r : Ring) : (s.setRing k i id r).mbox0 = s.mbox0 := rfl
@[simp] theorem State.setRing_mbox1 (k i id : Nat) (r : Ring) : (s.setRing k i id r).mbox1 = s.mbox1 := rfl
@[simp] theorem State.setRing_svc (k i id : Nat) (r : Ring) : (s.setRing k i id r).svc = s.svc := rfl
@[simp] theorem State.setRing_msix0 (k i id : Nat) (r : Ring) : (s.setRing k i id r).msix0 = s.msix0 := rfl
@[simp] theorem State.setRing_msix1 (k i id : Nat) (r : Ring) : (s.setRing k i id r).msix1 = s.msix1 := rfl
@[simp] theorem State.setRing_msixTable0 (k i id : Nat) (r : Ring) : (s.setRing k i id r).msixTable0 = s.msixTable0 := rfl
@[simp] theorem State.setRing_msixTable1 (k i id : Nat) (r : Ring) : (s.setRing k i id r).msixTable1 = s.msixTable1 := rfl
@[simp] theorem State.setRing_hostRanges (k i id : Nat) (r : Ring) : (s.setRing k i id r).hostRanges = s.hostRanges := rfl
@[simp] theorem State.setRing_mem (k i id : Nat) (r : Ring) : (s.setRing k i id r).mem = s.mem := rfl
@[simp] theorem State.setRing_stored (k i id : Nat) (r : Ring) : (s.setRing k i id r).stored = s.stored := rfl
@[simp] theorem State.setRing_order (k i id : Nat) (r : Ring) : (s.setRing k i id r).order = s.order := rfl
@[simp] theorem State.setRing_lost (k i id : Nat) (r : Ring) : (s.setRing k i id r).lost = s.lost := rfl
@[simp] theorem State.setRing_ovf (k i id : Nat) (r : Ring) : (s.setRing k i id r).ovf = s.ovf := rfl
@[simp] theorem State.setRing_leases (k i id : Nat) (r : Ring) : (s.setRing k i id r).leases = s.leases := rfl
@[simp] theorem State.setRing_hostLines (k i id : Nat) (r : Ring) : (s.setRing k i id r).hostLines = s.hostLines := rfl
@[simp] theorem State.setRing_walign (k i id : Nat) (r : Ring) : (s.setRing k i id r).walign = s.walign := rfl
@[simp] theorem State.setRing_match_ (k i id : Nat) (r : Ring) : (s.setRing k i id r).match_ = s.match_ := rfl
@[simp] theorem State.setRing_mismatch (k i id : Nat) (r : Ring) : (s.setRing k i id r).mismatch = s.mismatch := rfl
@[simp] theorem State.setRing_abandon (k i id : Nat) (r : Ring) : (s.setRing k i id r).abandon = s.abandon := rfl
@[simp] theorem State.setRing_errors (k i id : Nat) (r : Ring) : (s.setRing k i id r).errors = s.errors := rfl
@[simp] theorem State.setRing_ops (k i id : Nat) (r : Ring) : (s.setRing k i id r).ops = s.ops := rfl
@[simp] theorem State.setRing_resid (k i id : Nat) (r : Ring) : (s.setRing k i id r).resid = s.resid := rfl
@[simp] theorem State.setRing_colls (k i id : Nat) (r : Ring) : (s.setRing k i id r).colls = s.colls := rfl
@[simp] theorem State.setRing_ports (k i id : Nat) (r : Ring) : (s.setRing k i id r).ports = s.ports := rfl
@[simp] theorem State.setRing_worn (k i id : Nat) (r : Ring) : (s.setRing k i id r).worn = s.worn := rfl
@[simp] theorem State.setRing_counts (k i id : Nat) (r : Ring) : (s.setRing k i id r).counts = s.counts := rfl
@[simp] theorem State.setRing_quiesce (k i id : Nat) (r : Ring) : (s.setRing k i id r).quiesce = s.quiesce := rfl
@[simp] theorem State.setRing_lastRead (k i id : Nat) (r : Ring) : (s.setRing k i id r).lastRead = s.lastRead := rfl
@[simp] theorem State.setRing_clock (k i id : Nat) (r : Ring) : (s.setRing k i id r).clock = s.clock := rfl
@[simp] theorem State.setRing_fresh (k i id : Nat) (r : Ring) : (s.setRing k i id r).fresh = s.fresh := rfl
@[simp] theorem State.setRing_nextId (k i id : Nat) (r : Ring) : (s.setRing k i id r).nextId = s.nextId := rfl
@[simp] theorem State.setRing_sched (k i id : Nat) (r : Ring) : (s.setRing k i id r).sched = s.sched := rfl
@[simp] theorem State.setRing_focus (k i id : Nat) (r : Ring) : (s.setRing k i id r).focus = s.focus := rfl

/-! ### What they change -/

@[simp] theorem State.modGroup_groups (g : Nat) (f : Group → Group) : (s.modGroup g f).groups = tabMod s.groups g f := rfl
@[simp] theorem State.setGroup_groups (g : Nat) (x : Group) : (s.setGroup g x).groups = tabSet s.groups g x := rfl
@[simp] theorem State.modGrid_grids (k : Nat) (f : Grid → Grid) : (s.modGrid k f).grids = tabMod s.grids k f := rfl
@[simp] theorem State.modTeam_teams (k : Nat) (f : Team → Team) : (s.modTeam k f).teams = tabMod s.teams k f := rfl
@[simp] theorem State.modCtx_ctxs (k : Nat) (f : Ctx → Ctx) : (s.modCtx k f).ctxs = tabMod s.ctxs k f := rfl
@[simp] theorem State.modCore_cores (k : Nat) (f : Core → Core) : (s.modCore k f).cores = tabSet s.cores k (f (s.core k)) := rfl
@[simp] theorem State.modQueue_queues (q : Nat) (f : Queue → Queue) : (s.modQueue q f).queues = tabSet s.queues q (f (s.queue q)) := rfl
@[simp] theorem State.tick_clock : s.tick.clock = s.clock + 1 := rfl
@[simp] theorem State.tick_fresh : s.tick.fresh = s.fresh + 1 := rfl
@[simp] theorem State.fresh1_nextId : s.fresh1.nextId = s.nextId + 1 := rfl
@[simp] theorem State.focusOn_focus (g : Nat) (ls : List Nat) : (s.focusOn g ls).focus = some ⟨g, ls⟩ := rfl

end Sys2Proof.Machine
end

