-- ==== Sys2Proof/Laws/Kept.lean ====
section
/-!
SUPPORT. What the invariant depends on, and the operations that leave it alone.
-/

namespace Sys2Proof.Machine

variable {P : Nat → Prop}

/-- The fields that the invariant speaks of. -/
def State.kept (s : State) : Tab Byte × Nat × Tab Unit := (s.mem, s.level, s.lost)

/-- The invariant with a property of the service level in the place of its bound: what keeps this for every property leaves the level alone. -/
def State.InvOn (P : Nat → Prop) (s : State) : Prop := Memory.wf s.mem = true ∧ P s.level ∧ s.lost.length ≤ Config.lostRegions

theorem State.InvOn_bound {s : State} : s.InvOn (· ≤ 4) ↔ s.Inv := Iff.rfl

theorem State.InvOn_level {s : State} (h : s.Inv) : s.InvOn (· = s.level) := ⟨h.1, rfl, h.2.2⟩

theorem State.Inv_of_kept {s t : State} (h : t.kept = s.kept) (hs : s.InvOn P) : t.InvOn P := by
  simp only [State.kept, Prod.mk.injEq] at h
  simpa only [State.InvOn, h] using hs

@[simp] theorem State.mk_kept (s : State) : (s.mem, s.level, s.lost) = s.kept := rfl

@[simp] theorem State.kept_mk {x0 x1 x2 x3 x4 x5 x6 x7 x8 x9 x10 x11 x12 x13 x14 x15 x16 x17 x18 x19 x20 x21 x22 x23 x24 x25 x26 x27 x28 x29 x30 x31 x32 x33 x34 x35 x36 x37 x38 x39 x40 x41 x42 x43 x44} :
    (State.mk x0 x1 x2 x3 x4 x5 x6 x7 x8 x9 x10 x11 x12 x13 x14 x15 x16 x17 x18 x19 x20 x21 x22 x23 x24 x25 x26 x27 x28 x29 x30 x31 x32 x33 x34 x35 x36 x37 x38 x39 x40 x41 x42 x43 x44).kept = (x20, x0, x23) := rfl

theorem State.quiesce_kept (s : State) (x : Option (Bool × Nat)) : ({ s with quiesce := x } : State).kept = s.kept := rfl

theorem State.counters_kept (s : State) (x : Tab Counter) : ({ s with counters := x } : State).kept = s.kept := rfl

theorem State.kept_mem {s t : State} (h : t.kept = s.kept) : t.mem = s.mem := congrArg Prod.fst h

theorem foldl_kept {α : Type} {f : State → α → State} (hf : ∀ s a, (f s a).kept = s.kept) (l : List α) (s : State) :
    (l.foldl f s).kept = s.kept := by
  induction l generalizing s with
  | nil => rfl
  | cons a l ih => rw [List.foldl_cons, ih, hf]

@[simp] theorem State.readLine_kept (s : State) (agent pa n : Nat) : (s.readLine agent pa n).kept = s.kept := rfl
@[simp] theorem State.touchRead_kept (s : State) (agent pa n : Nat) : (s.touchRead agent pa n).kept = s.kept := foldl_kept (fun _ _ => by simp) _ _
@[simp] theorem State.count_kept (s : State) (core ctx kind n : Nat) : (s.count core ctx kind n).kept = s.kept := by simp only [State.count]; (repeat' split) <;> simp
@[simp] theorem State.fillTlb_kept (s : State) (w : Who) (acc : Acc) (va : Nat) : (s.fillTlb w acc va).kept = s.kept := by simp only [State.fillTlb]; (repeat' split) <;> simp
@[simp] theorem State.modSlice_kept (s : State) (team i : Nat) (f : Slice → Slice) : (s.modSlice team i f).kept = s.kept := rfl
@[simp] theorem State.spoilCmd_kept (s : State) (u : MatCmd) (k : Nat) : (s.spoilCmd u k).kept = s.kept := by
  simp only [State.spoilCmd]; (repeat' split) <;> simp
@[simp] theorem State.spoilBy_kept (s : State) (team i ofs n : Nat) : (s.spoilBy team i ofs n).kept = s.kept := by
  simp only [State.spoilBy]
  (repeat' split) <;> first | rfl | exact foldl_kept (fun (s : State) (a : MatCmd × Nat) => State.spoilCmd_kept s a.1 a.2) _ _
@[simp] theorem State.touchLoc_kept (s : State) (agent : Nat) (l : Loc) (n : Nat) : (s.touchLoc agent l n).kept = s.kept := by unfold State.touchLoc; split <;> simp
@[simp] theorem State.setGroup_kept (s : State) (g : Nat) (x : Group) : (s.setGroup g x).kept = s.kept := rfl
@[simp] theorem State.modGroup_kept (s : State) (g : Nat) (f : Group → Group) : (s.modGroup g f).kept = s.kept := rfl
@[simp] theorem State.modLane_kept (s : State) (g l : Nat) (f : Lane → Lane) : (s.modLane g l f).kept = s.kept := rfl
@[simp] theorem State.modLanes_kept (s : State) (g : Nat) (ls : List Nat) (f : Nat → Lane → Lane) : (s.modLanes g ls f).kept = s.kept := rfl
@[simp] theorem State.modGrid_kept (s : State) (k : Nat) (f : Grid → Grid) : (s.modGrid k f).kept = s.kept := rfl
@[simp] theorem State.modTeam_kept (s : State) (k : Nat) (f : Team → Team) : (s.modTeam k f).kept = s.kept := rfl
@[simp] theorem State.modCtx_kept (s : State) (k : Nat) (f : Ctx → Ctx) : (s.modCtx k f).kept = s.kept := rfl
@[simp] theorem State.modCore_kept (s : State) (k : Nat) (f : Core → Core) : (s.modCore k f).kept = s.kept := rfl
@[simp] theorem State.modQueue_kept (s : State) (q : Nat) (f : Queue → Queue) : (s.modQueue q f).kept = s.kept := rfl
@[simp] theorem State.modOrd_kept (s : State) (k : Nat) (f : ThreadOrd → ThreadOrd) : (s.modOrd k f).kept = s.kept := rfl
@[simp] theorem State.modRegion_kept (s : State) (k : Nat) (f : Region → Region) : (s.modRegion k f).kept = s.kept := rfl
@[simp] theorem State.learn_kept (s : State) (k : Nat) (know : Tab Nat) : (s.learn k know).kept = s.kept := by unfold State.learn; split <;> simp
@[simp] theorem State.learnAll_kept (s : State) (team : Nat) (lanes : Tab Lane) (know : Tab Nat) : (s.learnAll team lanes know).kept = s.kept :=
  foldl_kept (fun _ _ => by simp) _ _
@[simp] theorem State.acquireFrom_kept (s : State) (g l : Nat) (sc : Scope) (rs : List Rel) : (s.acquireFrom g l sc rs).kept = s.kept := by unfold State.acquireFrom; split <;> simp
@[simp] theorem State.noteRead_kept (s : State) (g l : Nat) (acq : Option Scope) (rs : List Rel) : (s.noteRead g l acq rs).kept = s.kept := by simp only [State.noteRead]; (repeat' split) <;> simp
@[simp] theorem State.fenceAcquires_kept (s : State) (g l : Nat) (sc : Scope) : (s.fenceAcquires g l sc).kept = s.kept := by simp only [State.fenceAcquires]; split <;> simp
@[simp] theorem State.noteRelease_kept (s : State) (g l : Nat) (sc : Scope) : (s.noteRelease g l sc).kept = s.kept := by unfold State.noteRelease; split <;> simp
@[simp] theorem State.fenceReleases_kept (s : State) (g l : Nat) (sc : Scope) (know : Tab Nat) : (s.fenceReleases g l sc know).kept = s.kept := rfl
@[simp] theorem State.fenceFull_kept (s : State) (g l : Nat) (sc : Scope) : (s.fenceFull g l sc).kept = s.kept := by simp [State.fenceFull]
@[simp] theorem State.noteActed_kept (s : State) (g l : Nat) : (s.noteActed g l).kept = s.kept := rfl
@[simp] theorem State.groupActed_kept (s : State) (g : Nat) : (s.groupActed g).kept = s.kept := foldl_kept (fun _ _ => by simp) _ _
@[simp] theorem State.stamp_kept (s : State) (loc : Loc) (n : Nat) (writers : List Nat) (rels : List Rel) : (s.stamp loc n writers rels).kept = s.kept := by unfold State.stamp; (repeat' split) <;> simp
@[simp] theorem State.noteWrite_kept (s : State) (g l : Nat) (loc : Loc) (n : Nat) (rel : Option (Scope × Tab Nat)) (keep : List Rel) :
    (s.noteWrite g l loc n rel keep).kept = s.kept := by simp only [State.noteWrite]; split <;> simp
@[simp] theorem State.engineWrote_kept (s : State) (ps : List Piece) (writers : List Nat) : (s.engineWrote ps writers).kept = s.kept := foldl_kept (fun _ _ => by split <;> simp) _ _
@[simp] theorem State.publish_kept (s : State) (key : Nat) (rs : List Rel) : (s.publish key rs).kept = s.kept := rfl
@[simp] theorem State.acquireAt_kept (s : State) (g : Nat) (ls : List Nat) (sc : Scope) (key : Nat) : (s.acquireAt g ls sc key).kept = s.kept := foldl_kept (fun _ _ => by simp) _ _
@[simp] theorem State.releaseAt_kept (s : State) (g : Nat) (ls : List Nat) (sc : Scope) (key : Nat) : (s.releaseAt g ls sc key).kept = s.kept := by
  rw [State.releaseAt, foldl_kept fun _ _ => by simp]; simp
@[simp] theorem State.noteCommand_kept (s : State) (g l : Nat) (flag : Option Nat) : (s.noteCommand g l flag).kept = s.kept := by unfold State.noteCommand; (repeat' split) <;> simp
@[simp] theorem State.noteWait_kept (s : State) (mask g l : Nat) : (s.noteWait mask g l).kept = s.kept := by unfold State.noteWait; split <;> simp
@[simp] theorem State.noteReaders_kept (s : State) (ks : List Nat) (loc : Loc) (n : Nat) (m : Option AtomWrite) : (s.noteReaders ks loc n m).kept = s.kept := by unfold State.noteReaders; split <;> simp
@[simp] theorem State.readAs_kept (s : State) (i : Instr) (g : Nat) (ls : List Nat) (loc : Loc) (n : Nat) (rels : List Rel) (m : Option AtomWrite) :
    (s.readAs i g ls loc n rels m).kept = s.kept := by
  rw [State.readAs, State.noteReaders_kept, foldl_kept fun _ _ => by simp]
@[simp] theorem State.moveGroup_kept (s : State) (g team : Nat) : (s.moveGroup g team).kept = s.kept := rfl
@[simp] theorem State.splitTeam_kept (s : State) (core k : Nat) : (s.splitTeam core k).kept = s.kept := by
  simp only [State.splitTeam]
  split
  · rfl
  · rw [foldl_kept fun _ _ => by simp]; simp
@[simp] theorem State.splitBins_kept (s : State) (grid : Option Nat) (core : Nat) : (s.splitBins grid core).kept = s.kept := foldl_kept (fun _ _ => by split <;> simp) _ _
@[simp] theorem State.dropCode_kept (s : State) (ctx : Nat) (cores : Nat → Bool) (base n : Nat) : (s.dropCode ctx cores base n).kept = s.kept := rfl
@[simp] theorem State.fillCode_kept (s : State) (w : Who) (a : Nat) (map : Bool) : (s.fillCode w a map).kept = s.kept := by simp only [State.fillCode]; split <;> simp
@[simp] theorem State.fillClause_kept (s : State) (w : Who) (a n : Nat) : (s.fillClause w a n).kept = s.kept := by
  simp only [State.fillClause]
  split
  · rfl
  · rw [State.fillCode_kept, State.fillCode_kept, foldl_kept fun _ _ => by simp]
@[simp] theorem State.touchVa_kept (s : State) (w : Who) (va n : Nat) : (s.touchVa w va n).kept = s.kept := by
  unfold State.touchVa
  split
  · rfl
  · exact foldl_kept (fun _ _ => by (repeat' split) <;> simp) _ _
@[simp] theorem State.regionPort_kept (s : State) (m : MatCmd) (slice : Nat) (rs : List (Nat × Nat)) : (s.regionPort m slice rs).kept = s.kept :=
  foldl_kept (fun _ _ => by simp) _ _
@[simp] theorem State.portReads_kept (s : State) (core : Nat) (m : MatCmd) : (s.portReads core m).kept = s.kept := by
  simp only [State.portReads]; split <;> simp
@[simp] theorem State.touchPacket_kept (s : State) (q : Nat) (b : List Byte) : (s.touchPacket q b).kept = s.kept := by
  unfold State.touchPacket
  split
  · exact foldl_kept (fun _ _ => by simp) _ _
  · rfl
@[simp] theorem State.newHead_kept (s : State) (q : Nat) : (s.newHead q).kept = s.kept := by simp only [State.newHead]; split <;> simp
@[simp] theorem State.givePicks_kept (s : State) (q : Nat) (k : Option Nat) : (s.givePicks q k).kept = s.kept := rfl
@[simp] theorem State.begun_kept (s : State) (link : Bool) : (s.begun link).kept = s.kept := by unfold State.begun; split <;> rfl
@[simp] theorem State.xlfault_kept (s : State) (q : Nat) : (s.xlfault q).kept = s.kept := rfl
@[simp] theorem State.flagCounter_kept (s : State) (q c bit : Nat) : (s.flagCounter q c bit).kept = s.kept := rfl
@[simp] theorem State.modCoop_kept (s : State) (ctx d : Nat) (f : Cooper → Cooper) : (s.modCoop ctx d f).kept = s.kept := rfl
@[simp] theorem State.reapGrid_kept (s : State) (k : Nat) : (s.reapGrid k).kept = s.kept := by unfold State.reapGrid; split <;> simp
@[simp] theorem State.dropGroups_kept (s : State) (p : Nat → Group → Bool) : (s.dropGroups p).kept = s.kept := rfl
@[simp] theorem State.allSee_kept (s : State) (k : Nat) : (s.allSee k).kept = s.kept := by unfold State.allSee; split <;> rfl
@[simp] theorem State.endIcinvs_kept (s : State) (p : MemOp → Bool) : (s.endIcinvs p).kept = s.kept := by
  refine Eq.trans ?_ (foldl_kept (fun (t : State) (e : Nat × MemOp) => State.dropCode_kept t e.2.ctx e.2.reach.contains 0 (2 ^ 64))
    (s.ops.filter fun e => e.2.icinv && p e.2) s)
  rfl
@[simp] theorem State.abandonCheck_kept (s : State) (t : Nat) : (s.abandonCheck t).kept = s.kept := by unfold State.abandonCheck; split <;> simp
@[simp] theorem State.progressed_kept (s : State) (k : Nat) : (s.progressed k).kept = s.kept := rfl
@[simp] theorem State.restart_kept (s : State) (g : Nat) (dest : Option DWord) : (s.restart g dest).kept = s.kept := by simp only [State.restart]; (repeat' split) <;> simp
@[simp] theorem State.parkLanes_kept (s : State) (g : Nat) (ls : List Nat) : (s.parkLanes g ls).kept = s.kept := rfl
@[simp] theorem State.advance_kept (s : State) (c : Cx) (n : Nat) : (s.advance c n).kept = s.kept := rfl
@[simp] theorem State.detStop_kept (s : State) (c : Cx) : (s.detStop c).kept = s.kept := by unfold State.detStop; split <;> simp
@[simp] theorem State.detSplit_kept (s : State) (c : Cx) : (s.detSplit c).kept = s.kept := by unfold State.detSplit; split <;> simp
@[simp] theorem State.detRelease_kept (s : State) (c : Cx) (ls : List Nat) : (s.detRelease c ls).kept = s.kept := by unfold State.detRelease; (repeat' split) <;> simp
@[simp] theorem State.fresh1_kept (s : State)  : (s.fresh1).kept = s.kept := rfl
@[simp] theorem State.supersede_kept (s : State) (g : Nat) (ls : List Nat) (i : Instr) (dsts : List PReg) : (s.supersede g ls i dsts).kept = s.kept := by
  simp only [State.supersede]; (repeat' split) <;> simp
@[simp] theorem State.capture_kept (s : State) (g l : Nat) (r : Resid) (dsts : List PReg) : (s.capture g l r dsts).kept = s.kept := by simp [State.capture]
@[simp] theorem State.captureAlu_kept (s : State) (i : Instr) (c : Cx) (u : Alu) (ls : List Nat) : (s.captureAlu i c u ls).kept = s.kept := foldl_kept (fun _ _ => by simp) _ _
@[simp] theorem State.irrev_kept (s : State) (c : Cx) : (s.irrev c).kept = s.kept := rfl
@[simp] theorem State.irrevIn_kept (s : State) (g : Nat) (ls : List Nat) : (s.irrevIn g ls).kept = s.kept := rfl
@[simp] theorem State.stall_kept (s : State) (c : Cx) : (s.stall c).kept = s.kept := rfl
@[simp] theorem State.done_kept (s : State) (c : Cx) (i : Instr) : (s.done c i).kept = s.kept := by unfold State.done; split <;> simp
@[simp] theorem State.launch_kept (s : State) (c : Cx) (i : Instr) (l : Nat) (lanes : List Nat) (dsts : List PReg) (o : MemOp) : (s.launch c i l lanes dsts o).kept = s.kept := rfl
@[simp] theorem State.captureMem_kept (s : State) (c : Cx) (i : Instr) (l : Nat) (lanes : List Nat) (dsts : List PReg) (r : Resid) : (s.captureMem c i l lanes dsts r).kept = s.kept := by simp [State.captureMem]
@[simp] theorem State.fetchLane_kept (s : State) (c : Cx) (i : Instr) (l : Nat) (after : List Nat) (ps : List Piece) (dsts : List PReg)
    (vals : List Word) : (s.fetchLane c i l after ps dsts vals).kept = s.kept := by unfold State.fetchLane; split <;> simp
@[simp] theorem State.counted_kept (s : State) (c : Cx) (i : Instr) (l : Nat) : (s.counted c i l).kept = s.kept := by unfold State.counted; split <;> simp
@[simp] theorem State.countedOnce_kept (s : State) (c : Cx) (i : Instr) (o : MemOp) : (s.countedOnce c i o).kept = s.kept := rfl
@[simp] theorem State.overlayStore_kept (s : State) (team va : Nat) (sh : Shadow) (bs : List Byte) : (s.overlayStore team va sh bs).kept = s.kept := by simp only [State.overlayStore]; (repeat' split) <;> simp
@[simp] theorem State.loadLane_kept (s s0 : State) (c : Cx) (i : Instr) (l : Nat) (lanes : List Nat) (va n : Nat) (loc : Loc) (after : List Nat) (dsts : List PReg) (ext : List Byte → List Word) : (s.loadLane s0 c i l lanes va n loc after dsts ext).kept = s.kept := by unfold State.loadLane; (repeat' split) <;> simp
@[simp] theorem State.noteSync_kept (s : State) (loc : Loc) (held : List AtomWrite) (a : AtomWrite) : (s.noteSync loc held a).kept = s.kept := rfl
@[simp] theorem State.fenceAs_kept (s : State) (g l : Nat) (i : Instr) (know : Tab Nat) : (s.fenceAs g l i know).kept = s.kept := by
  unfold State.fenceAs; split <;> simp
@[simp] theorem State.fillFor_kept (s : State) (c : Cx) (acc : Acc) (va : Nat) (loc : Loc) : (s.fillFor c acc va loc).kept = s.kept := by unfold State.fillFor; split <;> simp
@[simp] theorem State.writeBack_kept (s : State) (ps : List Piece) (drop : Bool) : (s.writeBack ps drop).kept = s.kept := rfl
@[simp] theorem State.regroupStep_kept (s : State) (team core : Nat) : (s.regroupStep team core).kept = s.kept := by
  rw [State.regroupStep, foldl_kept fun u e => ?_, foldl_kept fun _ _ => by simp]
  rw [foldl_kept fun _ _ => by split <;> rfl]; rfl
@[simp] theorem State.setTimer_kept (s : State) (team core : Nat) (v : Option Nat) : (s.setTimer team core v).kept = s.kept := rfl
@[simp] theorem State.packTeam_kept (s : State) (p : Nat) : (s.packTeam p).kept = s.kept := rfl
@[simp] theorem State.flushCheck_kept (s : State) (p : Nat) : (s.flushCheck p).kept = s.kept := by
  simp only [State.flushCheck]
  split
  · rw [foldl_kept fun _ _ => by simp]; simp
  · rfl
@[simp] theorem State.rewatch_kept (s : State) (k : Nat) : (s.rewatch k).kept = s.kept := rfl
@[simp] theorem State.askSave_kept (s : State) (t : Nat) (auto abandon : Bool) : (s.askSave t auto abandon).kept = s.kept := by simp only [State.askSave]; (repeat' split) <;> simp
@[simp] theorem State.vacate_kept (s : State) (k : Nat) : (s.vacate k).kept = s.kept := by
  simp only [State.vacate]
  split
  · rfl
  · rw [State.rewatch_kept, State.modGrid_kept]
    rw [foldl_kept fun t e => by (repeat' split) <;> simp, foldl_kept fun _ _ => by simp]
@[simp] theorem State.quiesceSaves_kept (s : State) (cores : List Nat) : (s.quiesceSaves cores).kept = s.kept := by
  simp only [State.quiesceSaves]
  rw [foldl_kept fun _ _ => by split <;> simp, foldl_kept fun t core => foldl_kept (fun _ _ => by split <;> simp) _ t]
@[simp] theorem State.sealLearns_kept (s : State) (id : Nat) (know : Tab Nat) : (s.sealLearns id know).kept = s.kept := by
  simp only [State.sealLearns]; split <;> rfl
@[simp] theorem State.setRing_kept (s : State) (team slice id : Nat) (r : Ring) : (s.setRing team slice id r).kept = s.kept := rfl
@[simp] theorem State.touchPieces_kept (s : State) (agent : Nat) (ps : List Piece) : (s.touchPieces agent ps).kept = s.kept :=
  foldl_kept (fun _ _ => by simp) _ _
@[simp] theorem State.fillPieces_kept (s : State) (w : Who) (acc : Acc) (ps : List Piece) : (s.fillPieces w acc ps).kept = s.kept := by
  refine foldl_kept (fun t p => ?_) _ _
  split <;> simp
@[simp] theorem State.afterReads_kept (s : State) (w : Who) (runs : List (Nat × Nat)) : (s.afterReads w runs).kept = s.kept :=
  foldl_kept (fun _ _ => by split <;> simp) _ _
@[simp] theorem State.regionReads_kept (s : State) (c : Cx) (l : Nat) (runs : List (Nat × Nat)) : (s.regionReads c l runs).kept = s.kept := rfl
@[simp] theorem State.readyFrom_kept (s : State) (c : Cx) (l : Nat) : (s.readyFrom c l).kept = s.kept := rfl
@[simp] theorem State.chainKnows_kept (s : State) (r : Resid) : (s.chainKnows r).kept = s.kept := by unfold State.chainKnows; split <;> rfl
@[simp] theorem State.addImage_kept (s : State) (ctx : Nat) (i : Image) : (s.addImage ctx i).kept = s.kept := by simp [State.addImage]
theorem State.sectionOf_kept (s : State) (c : Cx) (l : Nat) {f : State → Nat → State} (hf : ∀ u k, (f u k).kept = u.kept) :
    (s.sectionOf c l f).kept = s.kept := by
  unfold State.sectionOf
  split
  · exact hf _ _
  · rfl
@[simp] theorem State.commanded_kept (s : State) (c : Cx) (i : Instr) : (s.commanded c i).kept = s.kept := by
  rw [State.commanded, State.done_kept, State.modGroup_kept, foldl_kept fun _ _ => by simp]
@[simp] theorem State.ownerDone_kept (s : State) (o : Owner) : (s.ownerDone o).kept = s.kept := rfl
@[simp] theorem State.leaveKnown_kept (s : State) (c : Cx) (l : Nat) : (s.leaveKnown c l).kept = s.kept := by simp only [State.leaveKnown]; split <;> simp
@[simp] theorem State.closeSections_kept (s : State) (c : Cx) : (s.closeSections c).kept = s.kept :=
  foldl_kept (fun _ _ => State.sectionOf_kept _ _ _ fun _ _ => by simp) _ _
@[simp] theorem State.releaseBar_kept (s : State) (c : Cx) (k : Nat) (stops : Bool) : (s.releaseBar c k stops).kept = s.kept := by simp only [State.releaseBar]; (repeat' split) <;> simp
@[simp] theorem State.dropLanes_kept (s : State) (g : Nat) (ls : List Nat) : (s.dropLanes g ls).kept = s.kept := rfl
@[simp] theorem State.setAcc_kept (s : State) (team slice d : Nat) (a : Accum) : (s.setAcc team slice d a).kept = s.kept := rfl
@[simp] theorem State.mmaPart_kept (s : State) (m : MatCmd) (f : MatFmt) (sparse : Bool) (a : TField) (ti si : Nat) (spoiled : Bool) : (s.mmaPart m f sparse a ti si spoiled).kept = s.kept := rfl
@[simp] theorem State.convPart_kept (s : State) (m : MatCmd) : (s.convPart m).kept = s.kept := rfl
@[simp] theorem State.scaccPart_kept (s : State) (m : MatCmd) (a : AField) : (s.scaccPart m a).kept = s.kept := rfl
@[simp] theorem State.tldPart_kept (s : State) (m : MatCmd) (d : TField) : (s.tldPart m d).kept = s.kept := rfl
@[simp] theorem State.aldPart_kept (s : State) (m : MatCmd) (d : AField) : (s.aldPart m d).kept = s.kept := rfl
@[simp] theorem State.settle_kept (s : State) (core : Nat) (m : MatCmd) (d : AField) : (s.settle core m d).kept = s.kept := rfl
@[simp] theorem State.writeEach_kept (s : State) (c : Cx) (o : Opd) (v : Nat → Word) : (s.writeEach c o v).kept = s.kept := rfl
@[simp] theorem State.setPerfCount_kept (s : State) (core ctx n : Nat) (v : DWord) : (s.setPerfCount core ctx n v).kept = s.kept := by simp [State.setPerfCount]
@[simp] theorem State.setPerfctl_kept (s : State) (ctx : Nat) (v : DWord) : (s.setPerfctl ctx v).kept = s.kept := by
  simp only [State.setPerfctl]
  rw [foldl_kept fun t n => foldl_kept (fun _ _ => by simp) _ _]; simp
@[simp] theorem State.alignPhases_kept (s : State) (align : Bool) : (s.alignPhases align).kept = s.kept := rfl
@[simp] theorem State.land_kept (s : State) (g uid l : Nat) (r : PReg) (t : Nat) (w : Word) (b : Bool) : (s.land g uid l r t w b).kept = s.kept := rfl

@[simp] theorem State.landAll_kept (s : State) (g uid l : Nat) (p : Nat → Bool) (ds : List (PReg × Nat)) (ws : List Word) :
    (s.landAll g uid l p ds ws).kept = s.kept := by
  induction ds generalizing s ws with
  | nil => unfold State.landAll; rfl
  | cons d ds ih =>
    cases ws with
    | nil => rfl
    | cons w ws => obtain ⟨r, t⟩ := d; simp [State.landAll, ih]
@[simp] theorem State.countDown_kept (s : State) (g uid : Nat) (ls : List Nat) (f : Option Nat) : (s.countDown g uid ls f).kept = s.kept := rfl
@[simp] theorem State.finishOp_kept (s : State) (id : Nat) (o : MemOp) (vals : List Word) : (s.finishOp id o vals).kept = s.kept := by simp [State.finishOp]
@[simp] theorem State.addGroup_kept (s : State) (core : Nat) (x : Group) : (s.addGroup core x).kept = s.kept := by
  unfold State.addGroup
  split
  · rfl
  · rw [State.learnAll_kept]; rfl
@[simp] theorem State.startGroups_kept (s : State) (k team tid : Nat) (cores : List Nat) : (s.startGroups k team tid cores).kept = s.kept := by
  refine foldl_kept (fun t g => ?_) _ _
  simp only []; split <;> simp
@[simp] theorem State.startTeam_kept (s : State) (k tid : Nat) (cores : List Nat) (lcore : Nat) (shadow : Option Nat) : (s.startTeam k tid cores lcore shadow).kept = s.kept := by unfold State.startTeam; simp
@[simp] theorem State.startCheck_kept (s : State) (k team tid : Nat) (cores : List Nat) (lcore : Nat) : (s.startCheck k team tid cores lcore).kept = s.kept := by simp only [State.startCheck]; (repeat' split) <;> simp
@[simp] theorem State.placeTeam_kept (s : State) (k tid : Nat) (cores : List Nat) (lcore : Nat) : (s.placeTeam k tid cores lcore).kept = s.kept := by unfold State.placeTeam; split <;> simp
set_option maxRecDepth 4000

theorem State.dealUpTo_succ (f : Nat) (s : State) (k : Nat) :
    State.dealUpTo (f + 1) s k =
      if (s.grid k).mode != .dealt || (s.grid k).teams ≤ (s.grid k).dealt then s
      else
        match s.dequeFor k with
        | none => s
        | some c =>
          State.dealUpTo f
            ((s.modCore c fun q => { q with deque := q.deque ++ [(k, (s.grid k).dealt)] }).modGrid k fun g =>
              { g with dealt := g.dealt + 1 }) k := rfl

@[simp] theorem State.dealUpTo_kept (f : Nat) (s : State) (k : Nat) : (State.dealUpTo f s k).kept = s.kept := by
  induction f generalizing s with
  | zero => rfl
  | succ f ih =>
    rw [State.dealUpTo_succ]
    (repeat' split) <;> simp [ih]

@[simp] theorem State.deal_kept (s : State) (k : Nat) : (s.deal k).kept = s.kept := State.dealUpTo_kept _ _ _
@[simp] theorem State.startDealt_kept (s : State) (core : Nat) (e : Nat × Nat) : (s.startDealt core e).kept = s.kept := by unfold State.startDealt; simp
@[simp] theorem State.atLeast_kept (s : State) (t : Nat) : (s.atLeast t).kept = s.kept := rfl
@[simp] theorem State.freePool_kept (s : State) (ctx : Nat) : (s.freePool ctx).kept = s.kept := by unfold State.freePool; split <;> simp
@[simp] theorem State.quarantine_kept (s : State) (core : Nat) : (s.quarantine core).kept = s.kept := by
  simp only [State.quarantine]
  rw [foldl_kept fun t e => by (repeat' split) <;> simp, State.splitBins_kept]
  split <;> rfl
@[simp] theorem State.wornByMismatch_kept (s : State) (cores : List Nat) : (s.wornByMismatch cores).kept = s.kept := by
  refine foldl_kept (fun t c => ?_) _ _
  split <;> rfl
@[simp] theorem State.modMbox_kept (s : State) (link : Bool) (f : Mailbox → Mailbox) : (s.modMbox link f).kept = s.kept := by unfold State.modMbox; split <;> simp
@[simp] theorem State.raiseDie_kept (s : State) (level die : Nat) : (s.raiseDie level die).kept = s.kept := rfl
@[simp] theorem State.respond_kept (s : State) (status : Nat) (results : List Byte) : (s.respond status results).kept = s.kept := by unfold State.respond; (repeat' split) <;> simp
@[simp] theorem State.dropTlb_kept (s : State) (p : TlbEntry → Bool) : (s.dropTlb p).kept = s.kept := rfl
@[simp] theorem State.retire_kept (s : State) (p : WornPart) : (s.retire p).kept = s.kept := rfl
@[simp] theorem State.fitSpare_kept (s : State) (dies : List Nat) (p : WornPart) : (s.fitSpare dies p).kept = s.kept := by
  simp only [State.fitSpare]
  (repeat' split) <;> rfl
@[simp] theorem State.modDies_kept (s : State) (ds : List Nat) (f : Nat → Die → Die) : (s.modDies ds f).kept = s.kept := rfl
@[simp] theorem State.holdWrite_kept (s : State) (pa : Nat) (bs : List Byte) (load : Option Nat) : (s.holdWrite pa bs load).kept = s.kept := rfl
@[simp] theorem State.reach_kept (s : State) (due : Nat) : (s.reach due).kept = s.kept := rfl
@[simp] theorem State.tick_kept (s : State)  : (s.tick).kept = s.kept := rfl
@[simp] theorem State.focusOn_kept (s : State) (g : Nat) (ls : List Nat) : (s.focusOn g ls).kept = s.kept := rfl
end Sys2Proof.Machine
end

