-- ==== Sys2Proof/Laws/Invariant.lean ====
section
/-!
SUPPORT. Operations that store to memory, or change the region-status table, keep the invariant.
-/

namespace Sys2Proof.Machine

variable {P : Nat → Prop}

/-- The invariant, over the fields it speaks of. -/
def KInv (P : Nat → Prop) (k : Tab Byte × Nat × Tab Unit) : Prop := Memory.wf k.1 = true ∧ P k.2.1 ∧ k.2.2.length ≤ Config.lostRegions

theorem State.inv_iff (s : State) : s.InvOn P ↔ KInv P s.kept := Iff.rfl

theorem foldl_inv {α : Type} {f : State → α → State} (hf : ∀ s a, s.InvOn P → (f s a).InvOn P) {s : State} (l : List α) (h : s.InvOn P) :
    (l.foldl f s).InvOn P := by
  induction l generalizing s with
  | nil => exact h
  | cons a l ih => exact ih (hf s a h)

theorem foldl_fst_inv {α β : Type} {f : State × β → α → State × β} (hf : ∀ p a, p.1.InvOn P → (f p a).1.InvOn P) {p : State × β}
    (l : List α) (h : p.1.InvOn P) : (l.foldl f p).1.InvOn P := by
  induction l generalizing p with
  | nil => exact h
  | cons a l ih => exact ih (hf p a h)

/-! ### Memory -/

theorem State.storePhys_inv {s : State} (h : s.InvOn P) (agent pa : Nat) (bs : List Byte) : (s.storePhys agent pa bs).InvOn P :=
  ⟨Memory.wf_memWrite pa bs h.1, h.2⟩

theorem State.storeRun_inv {s : State} (h : s.InvOn P) (agent pa : Nat) (bs : List Byte) : (s.storeRun agent pa bs).InvOn P :=
  foldl_inv (fun _ _ h => storePhys_inv h _ _ _) _ h

theorem State.writeLoc_inv {s : State} (h : s.InvOn P) (agent : Nat) (l : Loc) (bs : List Byte) : (s.writeLoc agent l bs).InvOn P := by
  unfold State.writeLoc
  split
  · exact storeRun_inv h _ _ _
  · exact Inv_of_kept (by simp) h

theorem State.putVa_inv {s t : State} (h : s.InvOn P) {w : Who} {va : Nat} {bs : List Byte} (e : s.putVa w va bs = .ok t) : t.InvOn P := by
  unfold State.putVa at e
  split at e
  · cases e
  · cases e
    refine foldl_fst_inv (fun p a h => ?_) _ h
    simp only
    split
    · exact storeRun_inv h _ _ _
    · exact h

/-! ### Queues, counters and signals -/

theorem State.pushSlot_inv {s t : State} (h : s.InvOn P) {q : Nat} {bs : List Byte} (e : s.pushSlot q bs = .ok t) : t.InvOn P := by
  simp only [State.pushSlot] at e
  split at e
  · cases e
  · rename_i s1 e1
    split at e
    · cases e
    · rename_i s2 e2
      cases e
      have h3 := Inv_of_kept (State.modQueue_kept s2 q fun y => { y with w := y.w + 1 }) (putVa_inv (putVa_inv h e1) e2)
      split
      · exact Inv_of_kept (by simp) h3
      · exact h3

theorem State.putRel_inv {s t : State} (h : s.InvOn P) {w : Who} {va : Nat} {bs : List Byte} {sc : Scope} {know : Tab Nat}
    (e : s.putRel w va bs sc know = .ok t) : t.InvOn P := by
  unfold State.putRel at e
  split at e
  · rename_i ps u _ e'
    cases e
    exact Inv_of_kept (foldl_kept (fun _ _ => State.stamp_kept ..) ps u) (putVa_inv h e')
  · cases e
  · cases e

theorem State.writeSignal_inv {s : State} (h : s.InvOn P) (q ctx : Nat) (sys : Bool) (sig status : Nat) (know : Tab Nat) :
    (s.writeSignal q ctx sys sig status know).InvOn P := by
  unfold State.writeSignal
  split
  · exact Inv_of_kept (by simp) h
  · split
    · rename_i t e
      exact putRel_inv h e
    · exact Inv_of_kept (by simp) h

theorem State.dropHeld_inv {s : State} (h : s.InvOn P) (q : Nat) (d : Held) : (s.dropHeld q d).InvOn P := by
  simp only [State.dropHeld]
  split
  · exact writeSignal_inv (Inv_of_kept (by simp) h) _ _ _ _ _ _
  · exact Inv_of_kept (by simp) h

theorem State.pushHeld_inv {s t : State} (h : s.InvOn P) {q : Nat} {d : Held} (e : s.pushHeld q d = .ok t) : t.InvOn P := by
  unfold State.pushHeld at e
  split at e
  · cases e
  · rename_i u e1
    cases e
    exact Inv_of_kept (State.publish_kept ..) (pushSlot_inv h e1)

theorem State.deliver_inv {s : State} (h : s.InvOn P) (q : Nat) (d : Held) : (s.deliver q d).InvOn P := by
  simp only [State.deliver]
  split
  · exact dropHeld_inv h _ _
  · split
    · exact Inv_of_kept (by simp) h
    · split
      · rename_i t e
        exact pushHeld_inv h e
      · exact dropHeld_inv (Inv_of_kept (by simp) h) _ _

theorem State.dropHolds_inv {s : State} (h : s.InvOn P) (q : Nat) : (s.dropHolds q).InvOn P :=
  foldl_inv (fun _ _ h => dropHeld_inv h _ _) _ (Inv_of_kept (by simp) h)

theorem State.fire_inv {s : State} (h : s.InvOn P) (c : Nat) : (s.fire c).InvOn P := by
  unfold State.fire
  extract_lets k q w same bs
  exact deliver_inv (Inv_of_kept ((counters_kept ..).trans (touchVa_kept ..)) h) _ _

theorem State.flagCounter_inv {s : State} (h : s.InvOn P) (q c bit : Nat) : (s.flagCounter q c bit).InvOn P := Inv_of_kept (by simp) h

theorem ite_inv {b : Prop} [Decidable b] {s t : State} (h1 : s.InvOn P) (h2 : t.InvOn P) : (if b then s else t).InvOn P := by
  split <;> assumption

theorem State.change_inv {s : State} (h : s.InvOn P) (c : Nat) (d : Int) (know : Tab Nat) : (s.change c d know).InvOn P := by
  unfold State.change
  extract_lets k q x s1 s2 v s3
  have h1 : s1.InvOn P := ite_inv (flagCounter_inv h _ _ _) h
  have h2 : s2.InvOn P := ite_inv (flagCounter_inv h1 _ _ _) h1
  have h3 : s3.InvOn P := Inv_of_kept (State.kept_mk ..) h2
  exact ite_inv (fire_inv h3 _) h3

theorem State.depset_inv {s : State} (h : s.InvOn P) (w : Who) (c n pkt q : Nat) (know : Tab Nat) : (s.depset w c n pkt q know).InvOn P := by
  unfold State.depset
  extract_lets k s1 u s2
  have h1 : s1.InvOn P := ite_inv (flagCounter_inv h _ _ _) h
  have h2 : s2.InvOn P := Inv_of_kept ((counters_kept u _).trans (touchVa_kept s1 ..)) h1
  exact ite_inv (fire_inv h2 _) h2

/-! ### The ends of grids -/

theorem State.finishGrid_inv {s : State} (h : s.InvOn P) (k status : Nat) : (s.finishGrid k status).InvOn P := by
  unfold State.finishGrid
  extract_lets gr know s1 s2 s3
  have h1 : s1.InvOn P := Inv_of_kept (by simp [s1]) h
  have h2 : s2.InvOn P := writeSignal_inv h1 _ _ _ _ _ _
  have h3 : s3.InvOn P := ite_inv (change_inv h2 _ _ _) h2
  exact Inv_of_kept (by rw [State.reapGrid_kept]; exact State.kept_mk ..) h3

theorem State.abortGrid_inv {s : State} (h : s.InvOn P) (k status : Nat) : (s.abortGrid k status).InvOn P := by
  unfold State.abortGrid
  extract_lets gr ours s1 s2 s3
  have e1 : s1.kept = s.kept := (State.dropGroups_kept _ _).trans (State.endIcinvs_kept s _)
  have e2 : s2.kept = s1.kept := rfl
  have e3 : s3.kept = s2.kept := State.modCtx_kept ..
  exact finishGrid_inv (Inv_of_kept (e3.trans (e2.trans e1)) h) _ _

/-! ### Outcomes -/

/-- The invariant holds in the next state, if there is one. -/
def OutInv (P : Nat → Prop) (o : Out State) : Prop := ∀ t, o = .next t → t.InvOn P

theorem outInv_next {t : State} (h : t.InvOn P) : OutInv P (.next t) := fun _ e => by cases e; exact h

theorem outInv_fault (f : Fault) : OutInv P (.fault f) := fun _ e => by cases e

theorem outInv_ite {b : Prop} [Decidable b] {o p : Out State} (h1 : OutInv P o) (h2 : OutInv P p) : OutInv P (if b then o else p) := by
  split <;> assumption

/-! ### Traps, records and restarts -/

theorem State.trap_inv {s : State} (h : s.InvOn P) (c : Cx) (fs : List LaneFault) : OutInv P (s.trap c fs) := by
  unfold State.trap
  split
  · exact outInv_next (Inv_of_kept (by simp) h)
  · exact outInv_next (Inv_of_kept (by simp) h)

theorem State.trapAll_inv {s : State} (h : s.InvOn P) (c : Cx) (k : Cause) (a : Nat) : OutInv P (s.trapAll c k a) := trap_inv h _ _

theorem State.checked_inv {s : State} (h : s.InvOn P) {c : Cx} {f : Nat → Option (Cause × Nat)} {k : Out State} (hk : OutInv P k) :
    OutInv P (s.checked c f k) := outInv_ite hk (trap_inv h _ _)

theorem State.checkedOnce_inv {s : State} (h : s.InvOn P) {c : Cx} {f : Option (Cause × Nat)} {k : Out State} (hk : OutInv P k) :
    OutInv P (s.checkedOnce c f k) := by
  unfold State.checkedOnce
  split
  · exact hk
  · exact trapAll_inv h _ _ _

theorem State.takeRecord_inv {s t : State} (h : s.InvOn P) {g : Nat} (e : s.takeRecord g = some t) : t.InvOn P := by
  unfold State.takeRecord at e
  extract_lets x at e
  split at e
  · cases e
  · extract_lets pool status at e
    have ha : (s.abortGrid x.grid status).InvOn P := abortGrid_inv h _ _
    split at e
    · cases e; exact ha
    · split at e
      · split at e
        · cases e; exact ha
        · cases e
      · split at e
        · cases e; exact ha
        · rename_i e1
          extract_lets n s2 s3 at e
          have h3 : s3.InvOn P := Inv_of_kept (by simp [s3, s2]) (putRel_inv h e1)
          split at e
          · cases e; exact abortGrid_inv h3 _ _
          · cases e; exact Inv_of_kept (by simp) h3

theorem State.resumeAt_inv {s t : State} (h : s.InvOn P) {ctx addr : Nat} {know : Tab Nat} (e : s.resumeAt ctx addr know = some t) : t.InvOn P := by
  unfold State.resumeAt at e
  split at e
  · cases e
  · extract_lets resident now written dest s0 s1 s2 at e
    cases e
    have h0 : s0.InvOn P := Inv_of_kept (by simp [s0]) h
    have h1 : s1.InvOn P := by
      simp only [s1]
      split
      · exact Inv_of_kept (by simp) h0
      · exact Inv_of_kept (by simp) h0
    exact Inv_of_kept (by simp [s2]) h1

/-! ### Issue -/

theorem State.parking_inv {s : State} (h : s.InvOn P) {c : Cx} {blocked : Nat → Bool} {k : Cx → State → Out State}
    (hk : ∀ c t, t.InvOn P → OutInv P (k c t)) : OutInv P (s.parking c blocked k) := by
  unfold State.parking
  extract_lets parked
  refine outInv_ite (hk _ _ h) (outInv_ite (outInv_next (Inv_of_kept (by simp) h)) ?_)
  exact hk _ _ (Inv_of_kept (by rw [State.count_kept, State.parkLanes_kept]) h)

theorem State.parkingEach_inv {s : State} (h : s.InvOn P) {c : Cx} {blocked : Nat → Bool} {k : Cx → State → Out State}
    (hk : ∀ c t, t.InvOn P → OutInv P (k c t)) : OutInv P (s.parkingEach c blocked k) := by
  unfold State.parkingEach
  extract_lets parked ls t u
  have ht : t.InvOn P := Inv_of_kept (by rw [State.count_kept, State.parkLanes_kept]) h
  exact outInv_ite (hk _ _ h) (outInv_ite (outInv_next ht) (hk _ _ (ite_inv (Inv_of_kept (modGroup_kept ..) ht) ht)))

theorem issue_inv {i : Instr} {s : State} (h : s.InvOn P) {k : Cx → State → Out State} (hk : ∀ c t, t.InvOn P → OutInv P (k c t)) :
    OutInv P (issue i s k) := by
  unfold issue
  split
  · exact outInv_fault _
  · refine outInv_ite (State.trapAll_inv h _ _ _) (outInv_ite (State.trapAll_inv h _ _ _)
      (outInv_ite (outInv_next (State.Inv_of_kept (by simp) h)) (State.parking_inv h fun c t ht => ?_)))
    exact outInv_ite (outInv_next (State.Inv_of_kept (by simp) ht)) (hk c t ht)

theorem issueAlu_inv {s : State} (h : s.InvOn P) (i : Instr) (u : Alu) : OutInv P (issueAlu i u s) := by
  unfold issueAlu
  split
  · exact outInv_fault _
  · extract_lets full parked run capt t1 t2 t3 t4 t5
    refine outInv_ite (State.trap_inv h _ _) (outInv_ite (outInv_next (State.Inv_of_kept (by simp) h)) (outInv_next ?_))
    exact State.Inv_of_kept (by simp [t5, t4, t3, t2, t1]) h

/-! ### Memory instructions -/

theorem State.performStore_inv {s : State} (h : s.InvOn P) (g team va : Nat) (loc : Loc) (bs : List Byte) :
    (s.performStore g team va loc bs).InvOn P := by
  unfold State.performStore
  extract_lets t
  split
  · exact writeLoc_inv h _ _ _
  · rename_i s1 _ pa
    have h1 : s1.InvOn P := ite_inv (Inv_of_kept (by simp) h) h
    split
    · exact Inv_of_kept (by simp) h1
    · exact ite_inv h1 (writeLoc_inv h1 _ _ _)

theorem State.storeAs_inv {s : State} (h : s.InvOn P) (i : Instr) (g l team va : Nat) (loc : Loc) (bs : List Byte) (know : Tab Nat) :
    (s.storeAs i g l team va loc bs know).InvOn P := by
  have h1 := Inv_of_kept (State.modRegion_kept (s.performStore g team va loc bs) (s.thread g l) fun r => r.writes ⟨va, loc, bs.length⟩)
    (performStore_inv h g team va loc bs)
  refine ite_inv h1 ?_
  split
  · exact Inv_of_kept (State.noteWrite_kept ..) h1
  · exact Inv_of_kept ((State.noteSync_kept ..).trans (State.noteWrite_kept ..)) h1

theorem State.storeParts_inv {s : State} (h : s.InvOn P) (i : Instr) (g l team va : Nat) (loc : Loc) (bs : List Byte) (know : Tab Nat) (whole : Bool)
    (lanes : List Nat) (flag : Option Nat) : (s.storeParts i g l team va loc bs know whole lanes flag).InvOn P :=
  ite_inv (storeAs_inv h ..) (Inv_of_kept (State.mk_kept _) (storeAs_inv h ..))

theorem State.performHalf_inv {s : State} (h : s.InvOn P) (id : Nat) (r : Resid) : (s.performHalf id r).InvOn P := by
  unfold State.performHalf
  split
  · extract_lets x t
    have ht : t.InvOn P := Inv_of_kept ((noteActed_kept ..).trans (State.mk_kept s)) h
    exact Inv_of_kept (countDown_kept ..) (storeAs_inv ht ..)
  · exact h

theorem State.finishHalves_inv {s : State} (h : s.InvOn P) (g l : Nat) : (s.finishHalves g l).InvOn P :=
  foldl_inv (fun _ e hu => performHalf_inv hu e.1 e.2) _ h

theorem State.performAtomic_inv {s : State} (h : s.InvOn P) (g : Nat) (i : Instr) (loc : Loc) (ws : List Word) (old : Nat) :
    (s.performAtomic g i loc ws old).1.InvOn P := by
  have h1 := Inv_of_kept (State.touchLoc_kept s (s.atomicAgent g loc (atomBytes i)) loc (atomBytes i)) h
  simp only [State.performAtomic]
  split
  · exact writeLoc_inv h1 _ _ _
  · exact h1

theorem State.atomicAs_inv {s : State} (h : s.InvOn P) (g l : Nat) (i : Instr) (loc : Loc) (ws : List Word) (know : Tab Nat) :
    (s.atomicAs g l i loc ws know).1.InvOn P := by
  simp only [State.atomicAs]
  have h1 := performAtomic_inv h g i loc ws (s.atomOld g l i loc)
  split <;> exact Inv_of_kept (by simp) h1

theorem State.loads_inv {s : State} (h : s.InvOn P) (c : Cx) (i : Instr) (z : Size) (d : VField) (va : Nat → Nat)
    (loc : Nat → Except (Cause × Nat) Loc) : OutInv P (s.loads c i z d va loc) := by
  unfold State.loads
  extract_lets n after meets
  refine parking_inv h fun c t ht => checked_inv ht (parking_inv ht fun c t ht => outInv_next ?_)
  rw [State.inv_iff, State.done_kept]
  refine foldl_inv (fun u l hu => ?_) _ ht
  split
  · exact Inv_of_kept (by simp) hu
  · exact hu

theorem State.storeLane_inv {s : State} (h : s.InvOn P) (c : Cx) (i : Instr) (l va n : Nat) (loc : Loc) (rel joins whole : Bool) :
    (s.storeLane c i l va n loc rel joins whole).InvOn P := by
  unfold State.storeLane
  extract_lets flag t
  have ht : t.InvOn P := storeParts_inv h ..
  exact ite_inv (Inv_of_kept (by simp) h) (ite_inv (Inv_of_kept (by simp) ht) (Inv_of_kept (by simp) ht))

theorem State.stores_inv {s : State} (h : s.InvOn P) (c : Cx) (i : Instr) (n : Nat) (rel : Bool) (va : Nat → Nat)
    (loc : Nat → Except (Cause × Nat) Loc) : OutInv P (s.stores c i n rel va loc) := by
  unfold State.stores
  extract_lets meets
  refine checked_inv h (parking_inv h fun c t ht => outInv_next ?_)
  rw [State.inv_iff, State.done_kept]
  refine foldl_inv (fun u l hu => ?_) _ ht
  split
  · exact storeLane_inv (Inv_of_kept (by simp) hu) _ _ _ _ _ _ _ _ _
  · exact hu

theorem State.atomLane_inv {s : State} (h : s.InvOn P) (c : Cx) (i : Instr) (l va : Nat) (loc : Loc) (joins : Bool) :
    (s.atomLane c i l va loc joins).InvOn P := by
  unfold State.atomLane
  extract_lets dsts r
  refine ite_inv (Inv_of_kept (by simp) h) (ite_inv ?_ ?_) <;> rw [State.inv_iff]
  · rw [State.counted_kept]; exact atomicAs_inv h ..
  · rw [State.launch_kept]; exact atomicAs_inv h ..

theorem State.atomics_inv {s : State} (h : s.InvOn P) (c : Cx) (i : Instr) (a : VField) : OutInv P (s.atomics c i a) := by
  unfold State.atomics
  extract_lets va loc hostOk
  refine parking_inv h fun c t ht => checked_inv ht (parking_inv ht fun c t ht => outInv_next ?_)
  rw [State.inv_iff, State.advance_kept, State.irrevIn_kept]
  refine foldl_inv (fun u l hu => ?_) _ ht
  split
  · exact atomLane_inv (Inv_of_kept (by simp) hu) _ _ _ _ _ _
  · exact hu

theorem State.releaseFence_inv {s : State} (h : s.InvOn P) (c : Cx) (i : Instr) (full : Bool) : OutInv P (s.releaseFence c i full) := by
  unfold State.releaseFence
  extract_lets joins
  refine checked_inv h (parking_inv h fun c t ht => outInv_next ?_)
  rw [State.inv_iff, State.done_kept]
  exact foldl_inv (fun u l hu => ite_inv (Inv_of_kept (by simp) hu) (Inv_of_kept (by simp) hu)) _ ht

theorem State.cctl_inv {s : State} (h : s.InvOn P) (c : Cx) (i : Instr) (a : VField) (b : BOp) (drop : Bool) :
    OutInv P (s.cctl c i a b drop) := by
  unfold State.cctl
  extract_lets run
  refine checked_inv h (outInv_next ?_)
  rw [State.inv_iff, State.done_kept]
  refine foldl_inv (fun u l hu => ?_) _ h
  split
  · exact Inv_of_kept (by simp) hu
  · exact hu

/-! ### The ends of threads -/

theorem State.endTeam_inv {s : State} (h : s.InvOn P) (k : Nat) : (s.endTeam k).InvOn P := by
  unfold State.endTeam
  extract_lets t s1 s2
  have h1 : s1.InvOn P := Inv_of_kept (by simp [s1]) h
  refine ite_inv h1 ?_
  split
  · exact Inv_of_kept (by simp) h1
  · have h2 : s2.InvOn P := Inv_of_kept (by simp [s2]) h1
    split
    · exact h2
    · exact abortGrid_inv h2 _ _

theorem State.endGroup_inv {s : State} (h : s.InvOn P) (g : Nat) : (s.endGroup g).InvOn P := by
  unfold State.endGroup
  split
  · exact h
  · extract_lets s1 s2
    have h2 : s2.InvOn P := Inv_of_kept (by simp [s2, s1]) h
    refine ite_inv h (Inv_of_kept (State.rewatch_kept ..) (ite_inv (Inv_of_kept (by simp) h2) (ite_inv (endTeam_inv h2 _) h2)))

theorem State.regroupNow_inv {s : State} (h : s.InvOn P) (team core : Nat) : (s.regroupNow team core).InvOn P :=
  foldl_inv (fun _ _ h => endGroup_inv h _) _
    (foldl_inv (fun _ _ h => Inv_of_kept (by simp) h) _ (Inv_of_kept (regroupStep_kept ..) h))

theorem State.regroupCheck_inv {s : State} (h : s.InvOn P) (team core : Nat) : (s.regroupCheck team core).InvOn P :=
  ite_inv (regroupNow_inv h ..) h

theorem State.afterExit_inv {s : State} (h : s.InvOn P) (c : Cx) : (s.afterExit c).InvOn P := by
  unfold State.afterExit
  extract_lets core s1 s2
  have h2 : s2.InvOn P := Inv_of_kept (State.vacate_kept ..) (regroupCheck_inv (endGroup_inv h c.g) c.x.team core)
  exact ite_inv (Inv_of_kept (by simp) h2) h2

theorem State.finishLanes_inv {s : State} (h : s.InvOn P) (c : Cx) : (s.finishLanes c).InvOn P := by
  unfold State.finishLanes
  extract_lets t p
  have ht : t.InvOn P := Inv_of_kept ((foldl_kept (fun _ _ => State.leaveKnown_kept ..) _ _).trans (State.closeSections_kept ..)) h
  refine afterExit_inv (Inv_of_kept (s := p.1) (by simp) ?_) _
  exact foldl_fst_inv (fun p a hp => Inv_of_kept (by simp) hp) _ ht

end Sys2Proof.Machine
end

