-- ==== Sys2Proof/Laws/InvariantWork.lean ====
section
/-!
SUPPORT. The engines, the Cooperage, the Drover, saves, services and the issue of words keep the invariant.
-/

namespace Sys2Proof.Machine

variable {P : Nat → Prop}

/-! ### Engines -/

theorem State.writePieces_inv {s : State} (h : s.InvOn P) (agent : Nat) (ps : List Piece) (bs : List Byte) :
    (s.writePieces agent ps bs).InvOn P := by
  induction ps generalizing s bs with
  | nil => unfold State.writePieces; exact h
  | cons p r ih => unfold State.writePieces; exact ih (ite_inv h (writeLoc_inv h _ _ _)) _

theorem State.performCopy_inv {s t : State} (h : s.InvOn P) {core : Nat} {o : Owner} {src dst : List Piece} {ring : Option Nat}
    (e : s.performCopy core o src dst ring = some t) : t.InvOn P := by
  unfold State.performCopy at e
  extract_lets agent at e
  have h1 : (s.touchPieces agent src).InvOn P := Inv_of_kept (by simp) h
  split at e
  · cases e; exact Inv_of_kept (engineWrote_kept ..) (writePieces_inv h1 _ _ _)
  · split at e
    · cases e
    · split at e
      · cases e
      · rename_i r' slot _
        cases e
        exact Inv_of_kept (by rw [publish_kept, setRing_kept, engineWrote_kept]) (writePieces_inv h1 agent [⟨0, .spad o.team _ _, _⟩] _)

theorem State.performChain_inv {s : State} (h : s.InvOn P) (core : Nat) (since : Option Nat) (r : List Byte) (src src2 dst : List Piece) :
    (s.performChain core since r src src2 dst).InvOn P := by
  unfold State.performChain
  exact writePieces_inv (Inv_of_kept (by simp) h) _ _ _

theorem State.joinCopy_inv {s : State} (h : s.InvOn P) (c : Cx) (i : Instr) (w : CopyWork) (r : Nat × Nat) (rs ws : List Piece) :
    OutInv P (s.joinCopy c i w r rs ws) := by
  unfold State.joinCopy
  extract_lets core
  exact outInv_ite (outInv_next (Inv_of_kept (by simp) h)) (outInv_next (Inv_of_kept (by simp +zetaDelta) h))

theorem State.inOrder_inv {s : State} (h : s.InvOn P) (c : Cx) (i : Instr) {serve : State → Nat → Option State}
    (hs : ∀ u l v, u.InvOn P → serve u l = some v → v.InvOn P) : OutInv P (s.inOrder c i serve) := by
  unfold State.inOrder
  extract_lets r u v
  have hr : r.1.InvOn P := by
    refine foldl_fst_inv (fun p l hp => ?_) _ h
    split
    · exact hp
    · split
      · rename_i e; exact hs _ _ _ hp e
      · exact hp
  refine outInv_next (ite_inv ?_ ?_)
  · exact Inv_of_kept (by simp [v, u]) hr
  · exact Inv_of_kept (by simp [v, u]) hr

theorem State.copyIndex_inv {s : State} (h : s.InvOn P) (q : Nat) : (s.copyIndex q).InvOn P := by
  simp only [State.copyIndex]
  split
  · rename_i e; exact putVa_inv h e
  · exact Inv_of_kept (xlfault_kept ..) h

theorem State.stageItem_inv {s : State} (h : s.InvOn P) (c : Cx) : (s.stageItem c).InvOn P := by
  unfold State.stageItem
  extract_lets n
  split
  · rename_i e; exact putVa_inv h e
  · exact h

theorem State.depChange_inv {s : State} (h : s.InvOn P) (c : Cx) (i : Instr) (d : VField) (b : BOp) (f : Nat → Int) :
    OutInv P (s.depChange c i d b f) := by
  unfold State.depChange
  extract_lets w
  refine checked_inv h (outInv_next ?_)
  rw [State.inv_iff, State.done_kept]
  refine foldl_inv (fun u l hu => ?_) _ h
  rw [State.inv_iff, State.counted_kept, State.noteRelease_kept]
  exact change_inv hu _ _ _

theorem State.sacq_inv {s : State} (h : s.InvOn P) (c : Cx) (i : Instr) (d : VField) (id : Nat) (f : Ring → Option (Ring × Nat)) :
    OutInv P (s.sacq c i d id f) := by
  unfold State.sacq
  extract_lets k
  split
  · exact trapAll_inv h _ _ _
  · split
    · exact outInv_next (Inv_of_kept (by simp) h)
    · exact outInv_next (Inv_of_kept (by simp) h)

theorem State.sput_inv {s : State} (h : s.InvOn P) (c : Cx) (i : Instr) (a : VField) (id : Nat) (f : Ring → Nat → Option Ring) :
    OutInv P (s.sput c i a id f) := by
  unfold State.sput
  extract_lets k slot
  split
  · exact trapAll_inv h _ _ _
  · exact outInv_next (Inv_of_kept (by simp) h)

theorem State.joinPort_inv {s : State} (h : s.InvOn P) (c : Cx) (i : Instr) (m : MatCmd) : OutInv P (s.joinPort c i m) := by
  unfold State.joinPort
  extract_lets core t u
  refine outInv_next (Inv_of_kept (s := s) ?_ h)
  simp only [u, t, State.commanded_kept]
  split <;> simp

theorem State.port_inv {s : State} (h : s.InvOn P) (c : Cx) (i : Instr) (fs : List (Option (Cause × Nat))) (m : MatCmd) :
    OutInv P (s.port c i fs m) := checkedOnce_inv h (joinPort_inv h _ _ _)

theorem State.astPart_inv {s : State} (h : s.InvOn P) (m : MatCmd) (core : Nat) (d : AField) (f : Word → List Byte) :
    (s.astPart m core d f).InvOn P := by
  unfold State.astPart
  extract_lets a loc bs t
  exact foldl_inv (fun _ _ hu => Inv_of_kept (modRegion_kept ..) hu) _ (Inv_of_kept (stamp_kept ..) (writeLoc_inv h (dieOf core) loc bs))

theorem State.performPort_inv {s : State} (h : s.InvOn P) (core : Nat) (m : MatCmd) : (s.performPort core m).InvOn P := by
  unfold State.performPort
  split
  all_goals first
    | exact h
    | exact astPart_inv h _ _ _ _
    | exact ite_inv (Inv_of_kept ((mmaPart_kept ..).trans (mmaPart_kept ..)) h) (Inv_of_kept (mmaPart_kept ..) h)
    | exact foldl_inv (fun _ _ h => Inv_of_kept (by simp) h) _ (Inv_of_kept (settle_kept ..) h)
    | exact Inv_of_kept (by simp) h

theorem State.portDone_inv {s : State} (h : s.InvOn P) (core : Nat) (m : MatCmd) : (s.portDone core m).InvOn P := by
  unfold State.portDone
  extract_lets leave t u
  have h1 : t.InvOn P := performPort_inv (Inv_of_kept (portReads_kept ..) h) _ _
  refine Inv_of_kept (s := t) ?_ h1
  simp only [u, leave, State.ownerDone_kept]
  split <;> simp

/-! ### The Cooperage -/

theorem State.putRecord_inv {s t : State} (h : s.InvOn P) {ctx die : Nat} (e : s.putRecord ctx die = some t) : t.InvOn P := by
  unfold State.putRecord at e
  extract_lets k at e
  split at e
  · extract_lets counted at e
    split at e
    · rename_i t1 cs e1 _
      have h1 : t1.InvOn P := by
        simp only [counted] at e1
        split at e1
        · cases e1; exact h
        · exact putVa_inv h e1
      split at e
      · split at e
        · cases e
        · rename_i v e2
          cases e
          exact Inv_of_kept (by simp) (putRel_inv h1 e2)
      · cases e
    · cases e
  · cases e

theorem State.flushRecords_inv {s : State} (f : Nat) (h : s.InvOn P) (ctx die : Nat) : (State.flushRecords f s ctx die).InvOn P := by
  induction f generalizing s with
  | zero => exact h
  | succ f ih =>
    unfold State.flushRecords
    split
    · rename_i t e
      exact ih (putRecord_inv h e)
    · exact h

theorem State.appendRecord_inv {s : State} (h : s.InvOn P) (ctx die : Nat) (r : RelRec) : (s.appendRecord ctx die r).InvOn P := by
  unfold State.appendRecord
  split
  · exact Inv_of_kept (by simp) h
  · exact flushRecords_inv _ (Inv_of_kept (by simp) h) _ _

theorem State.discard_inv {s : State} (h : s.InvOn P) (ctx die id expert kind : Nat) : (s.discard ctx die id expert kind).InvOn P := by
  unfold State.discard
  split
  · exact h
  · extract_lets t n u
    have h1 : t.InvOn P := Inv_of_kept (by simp [t]) h
    refine appendRecord_inv ?_ _ _ _
    simp only [u]
    split
    · rename_i v e
      exact putVa_inv h1 e
    · exact h1

theorem State.releaseSteps_inv {s : State} (h : s.InvOn P) (ctx die i : Nat) : (s.releaseSteps ctx die i).InvOn P := by
  unfold State.releaseSteps
  extract_lets k
  split
  · exact h
  · rename_i x _
    extract_lets wrote
    have hw : ∀ t, wrote = .ok t → t.InvOn P := by
      intro t e
      simp only [wrote] at e
      split at e
      · cases e; exact h
      · exact putVa_inv h e
    clear_value wrote
    cases wrote with
    | ok t =>
      have ht := hw t rfl
      exact appendRecord_inv (ite_inv (change_inv (Inv_of_kept (by simp) ht) _ _ _) (Inv_of_kept (by simp) ht)) _ _ _
    | error _ =>
      exact appendRecord_inv (ite_inv (change_inv (Inv_of_kept (by simp) h) _ _ _) (Inv_of_kept (by simp) h)) _ _ _

theorem State.releaseSlot_inv {s : State} (h : s.InvOn P) (ctx die i : Nat) (r : Release) : (s.releaseSlot ctx die i r).InvOn P := by
  unfold State.releaseSlot
  split
  · exact h
  · extract_lets w fb y t u
    have h1 : u.InvOn P := Inv_of_kept (modCoop_kept ..) (ite_inv h (Inv_of_kept (touchVa_kept ..) h))
    exact ite_inv h1 (releaseSteps_inv h1 _ _ _)

theorem State.stage_inv {s : State} (h : s.InvOn P) (ctx die i : Nat) (x : CSlot) (p : Nat) (bs : List Byte) :
    (s.stage ctx die i x p bs).InvOn P := by
  unfold State.stage
  exact ite_inv (storeRun_inv h _ _ _) h

theorem State.arrive_inv {s : State} (h : s.InvOn P) (ctx id expert : Nat) (data : List Byte) (know : Tab Nat) :
    (s.arrive ctx id expert data know).InvOn P := by
  unfold State.arrive
  extract_lets die i
  split
  · exact discard_inv h _ _ _ _ _
  · refine ite_inv (discard_inv h _ _ _ _ _) ?_
    extract_lets p
    refine ite_inv (discard_inv h _ _ _ _ _) (ite_inv (discard_inv h _ _ _ _ _) ?_)
    have ht {x : CSlot} {bs : List Byte} {f : Cooper → Cooper} : ((s.stage ctx die i x p bs).modCoop ctx die f).InvOn P :=
      Inv_of_kept (modCoop_kept ..) (stage_inv h _ _ _ _ _ _)
    exact ite_inv (releaseSlot_inv ht _ _ _ _) ht

theorem State.closeSlot_inv {s : State} (h : s.InvOn P) (ctx id : Nat) (r : Release) : (s.closeSlot ctx id r).InvOn P := by
  unfold State.closeSlot
  split
  · exact ite_inv (releaseSlot_inv h _ _ _ _) h
  · exact h

theorem State.openSlot_inv {s : State} (h : s.InvOn P) {c : Cx} {d : List Byte} {p : State × Nat} (e : s.openSlot c d = some p) :
    p.1.InvOn P := by
  unfold State.openSlot at e
  extract_lets die k at e
  split at e
  · cases e
  · cases e; exact Inv_of_kept (by simp) h

/-! ### The Drover -/

theorem State.unitWrite_inv {s : State} (h : s.InvOn P) (w : Who) (va : Nat) (bs : List Byte) : (s.unitWrite w va bs).InvOn P := by
  unfold State.unitWrite
  split
  · rename_i t e; exact putVa_inv h e
  · exact h

theorem State.reproject_inv {s : State} (h : s.InvOn P) (w : Who) (b : List Byte) : (s.reproject w b).1.InvOn P := by
  unfold State.reproject
  extract_lets width
  refine foldl_fst_inv (fun a i ha => ?_) _ h
  extract_lets r put
  have ht : (r.2.foldl (fun u k => u.touchVa w k.1 k.2) a.1).InvOn P := foldl_inv (fun _ _ h => Inv_of_kept (touchVa_kept ..) h) _ ha
  have hp : ∀ p t f, (put p t f).1.InvOn P := by
    intro p t f
    simp only [put]
    split
    · exact unitWrite_inv (unitWrite_inv ht _ _ _) _ _ _
    · exact unitWrite_inv ht _ _ _
  split <;> exact hp _ _ _

theorem State.shutQueue_inv {s : State} (h : s.InvOn P) (q : Nat) : (s.shutQueue q).InvOn P := dropHolds_inv (Inv_of_kept (by simp) h) _

theorem State.accept_inv {s : State} (h : s.InvOn P) (q : Nat) (p : Plan) (know : Tab Nat) : (s.accept q p know).InvOn P := by
  unfold State.accept
  extract_lets gr k t w
  have h1 : t.InvOn P := Inv_of_kept (by simp [t]) h
  split
  · exact Inv_of_kept (State.modGrid_kept ..) (reproject_inv h1 w gr.pkt.raw)
  · split
    · exact h1
    · exact Inv_of_kept (by simp) h1
  · exact Inv_of_kept (by simp) h1
  · exact Inv_of_kept (by simp) h1

theorem State.takePacket_inv {s : State} (h : s.InvOn P) (q : Nat) : (s.takePacket q).InvOn P := by
  unfold State.takePacket
  extract_lets x know
  split
  · exact shutQueue_inv h _
  · split
    · exact shutQueue_inv h _
    · rename_i t e
      extract_lets verdict t1 t2 y
      have h2 : y.InvOn P := Inv_of_kept (by simp [y, t2, t1]) (putVa_inv h e)
      clear_value verdict y
      cases verdict with
      | error st => exact writeSignal_inv (Inv_of_kept (by simp) h2) _ _ _ _ _ _
      | ok p => exact accept_inv (Inv_of_kept (by simp) h2) _ _ _

theorem State.openQueue_kept (s : State) (q : Nat) (x : Queue) : (s.openQueue q x).kept = s.kept := by
  simp only [State.openQueue]
  (repeat' split) <;> simp

theorem State.windowPart_inv {s : State} (h : s.InvOn P) (ofs : Nat) (bs : List Byte) : (s.windowPart ofs bs).InvOn P := by
  unfold State.windowPart
  extract_lets q o x covers sets y
  refine ite_inv (ite_inv (dropHolds_inv (Inv_of_kept (by simp) h) _) h) ?_
  exact ite_inv (Inv_of_kept (openQueue_kept ..) h) (Inv_of_kept (by simp) h)

theorem State.windowWrite_inv {s : State} (h : s.InvOn P) (ofs : Nat) (d : List Byte) : OutInv P (s.windowWrite ofs d) :=
  outInv_ite (outInv_fault _) (outInv_next (foldl_inv (fun _ _ h => windowPart_inv h _ _) _ h))

theorem State.withDynamic_kept (s : State) (grid : Nat) (parent : Option Nat) : (s.withDynamic grid parent).1.kept = s.kept := by
  unfold State.withDynamic
  split <;> simp

/-! ### Saves -/

theorem State.pokeVa_inv {s : State} (h : s.InvOn P) (ctx va n : Nat) : (s.pokeVa ctx va n).InvOn P := by
  unfold State.pokeVa
  split
  · rename_i t e; exact putVa_inv h e
  · exact h

theorem State.writeSave_inv {s t : State} (h : s.InvOn P) {team : Nat} (e : s.writeSave team = some t) : t.InvOn P := by
  unfold State.writeSave at e
  extract_lets tm gr s1 mode pcOf slots c at e
  have h0 : s1.InvOn P := Inv_of_kept (freePool_kept ..) h
  split at e
  · cases e
  · extract_lets sliceOf recs bytes at e
    split at e
    · cases e
    · split at e
      · cases e
      · rename_i u e1
        extract_lets addrs saved u1 u2 u3 at e
        cases e
        have h1 : u1.InvOn P := by
          refine foldl_inv (fun v g hv => ?_) _ (putVa_inv h0 e1)
          simp only
          exact ite_inv hv (pokeVa_inv hv _ _ _)
        exact Inv_of_kept (by simp +zetaDelta) h1

theorem State.putBack_inv {s : State} (h : s.InvOn P) (ctx core : Nat) (x : Group) : (s.putBack ctx core x).InvOn P := by
  unfold State.putBack
  split
  · exact h
  · extract_lets s1
    have h1 : s1.InvOn P := Inv_of_kept (groupActed_kept ..) (Inv_of_kept (State.mk_kept s) h)
    split
    · exact h1
    · split
      · exact Inv_of_kept (by simp) h1
      · split
        · exact h1
        · exact pokeVa_inv (Inv_of_kept (by simp) h1) _ _ _

theorem State.restoreTeam_inv {s : State} (h : s.InvOn P) (team : Nat) (cores : List Nat) (v : Saved) (recs : List (List Byte)) :
    (s.restoreTeam team cores v recs).InvOn P := by
  unfold State.restoreTeam
  extract_lets t ctx gr pcOf key read s1 s2 s3 s4
  have h2 : s2.InvOn P := Inv_of_kept (by simp [s2, s1]) h
  have h3 : s3.InvOn P := foldl_inv (fun u k hu => foldl_inv (fun _ _ hw => putBack_inv hw _ _ _) _ hu) _ h2
  have h4 : s4.InvOn P := foldl_inv (fun _ _ hu => endGroup_inv hu _) _ (Inv_of_kept (by simp) h3)
  exact ite_inv (Inv_of_kept (flushCheck_kept ..) h4) h4

/-! ### Resets, services, the host -/

theorem State.reset_inv (hp : P 0) : State.reset.InvOn P := ⟨rfl, hp, Nat.zero_le _⟩

theorem State.outside_wf {s : State} (h : s.InvOn P) : Memory.wf s.outside = true := by
  have hf : ∀ (es : List (Nat × Lease)) (m : Tab Byte), Memory.wf m = true →
      Memory.wf (es.foldl (fun m e =>
        if (isHost (lineBase e.1) || isPeer (lineBase e.1)) && e.2.holders.any fun h => decide (h.1 < 4) then
          e.2.wb.foldl (fun m w => memSet m w.1 w.2) m
        else m) m) = true := by
    intro es
    induction es with
    | nil => exact fun m hm => hm
    | cons e es ih =>
      intro m hm
      refine ih _ ?_
      dsimp only
      split
      · exact Memory.wf_foldl_memSet _ hm
      · exact hm
  exact hf _ _ (Memory.wf_filter _ h.1)

theorem State.afterReset_inv {s : State} (hp : P 0) (h : s.InvOn P) : s.afterReset.InvOn P :=
  ⟨outside_wf h, hp, Nat.zero_le _⟩

theorem State.serve_inv {s : State} (h : s.InvOn P) (link : Bool) (op used level : Nat) (ic : Option Bool)
    {k : List Byte → Nat → Out State} (hk : ∀ b n, OutInv P (k b n)) : OutInv P (s.serve link op used level ic k) := by
  unfold State.serve
  have hr : ∀ st, OutInv P (.next (s.respond st [])) := fun st => outInv_next (Inv_of_kept (by simp) h)
  split
  · exact outInv_fault _
  · extract_lets b live
    exact outInv_ite (outInv_fault _) (outInv_ite (hr _) (outInv_ite (hr _) (outInv_ite (hr _) (outInv_ite (hr _) (hk _ _)))))

theorem State.ctxset_inv {s : State} (h : s.InvOn P) (link : Bool) (item used : Nat) (perDie : Bool) (ok : List Byte → Bool)
    (f : List Byte → Ctx → Ctx) : OutInv P (s.ctxset link item used perDie ok f) := by
  unfold State.ctxset
  split
  · exact outInv_fault _
  · refine outInv_ite (outInv_fault _) (serve_inv h _ _ _ _ _ fun b n => ?_)
    exact outInv_ite (outInv_next (Inv_of_kept (by simp) h)) (outInv_ite (outInv_next (Inv_of_kept (by simp) h))
      (outInv_next (Inv_of_kept (by simp) h)))

theorem State.power_inv {s : State} (h : s.InvOn P) (link : Bool) (state : Nat) : OutInv P (s.power link state) := by
  unfold State.power
  split
  · exact outInv_fault _
  · refine outInv_ite (outInv_fault _) (serve_inv h _ _ _ _ _ fun b n => ?_)
    extract_lets m t
    refine outInv_ite (outInv_next (Inv_of_kept (by simp) h)) (outInv_next (Inv_of_kept ?_ h))
    rw [State.respond_kept]
    split <;> simp [t]

theorem State.hostWrite_inv {s : State} (h : s.InvOn P) (pa : Nat) (bs : List Byte) : (s.hostWrite pa bs).InvOn P :=
  storeRun_inv h _ _ _

theorem State.loseRegion_inv {s : State} (h : s.InvOn P) (region : Nat) : (s.loseRegion region).InvOn P := by
  unfold State.loseRegion
  extract_lets pa k t1 t2 hit
  have h1 : t1.InvOn P := by
    refine ite_inv h ?_
    split
    · rename_i hl
      exact ⟨h.1, h.2.1, Nat.le_trans (length_tabSet_le _ _ _) hl⟩
    · exact h
  exact Inv_of_kept (by simp [t2]) h1

theorem State.writeRegionstat_inv {s : State} (h : s.InvOn P) (x : Nat) : (s.writeRegionstat x).InvOn P := by
  unfold State.writeRegionstat
  extract_lets t
  have h1 : t.InvOn P := ite_inv ⟨h.1, h.2.1, Nat.le_trans (length_tabDel_le _ _) h.2.2⟩ h
  exact ite_inv h1 h1

/-! ### Regions that end -/

theorem State.overlayStore_inv {s : State} (h : s.InvOn P) (team va : Nat) (sh : Shadow) (bs : List Byte) :
    (s.overlayStore team va sh bs).InvOn P := Inv_of_kept (overlayStore_kept ..) h

theorem State.spoilPiece_inv {s : State} (h : s.InvOn P) (core team salt : Nat) (p : Piece) : (s.spoilPiece core team salt p).InvOn P := by
  simp only [State.spoilPiece]
  split
  · exact overlayStore_inv h ..
  · exact ite_inv (writeLoc_inv h _ _ _) h

theorem State.spoilRegion_inv {s : State} (h : s.InvOn P) (g l core team : Nat) (r : Region) : (s.spoilRegion g l core team r).InvOn P :=
  Inv_of_kept (modGroup_kept ..) (foldl_inv (fun _ _ hu => spoilPiece_inv hu ..) _ h)

theorem State.endRegion_inv {s : State} (h : s.InvOn P) (g l core team key : Nat) : (s.endRegion g l core team key).InvOn P := by
  unfold State.endRegion
  extract_lets r t
  have h1 : t.InvOn P := ite_inv (spoilRegion_inv h ..) h
  exact Inv_of_kept (State.mk_kept t) h1

theorem State.regionBack_inv {s : State} (h : s.InvOn P) (g l : Nat) : (s.regionBack g l).InvOn P :=
  ite_inv (Inv_of_kept (modRegion_kept ..) (spoilRegion_inv h ..)) (Inv_of_kept (modRegion_kept ..) h)

/-! ### The issue of words -/

theorem State.spill_inv {s : State} (h : s.InvOn P) (c : Cx) (e : Entries) (slot : Nat → Nat) (value : Nat → Word) :
    (s.spill c e slot value).InvOn P := by
  unfold State.spill
  refine ite_inv h (foldl_inv (fun t r ht => ?_) _ h)
  split
  · rename_i u e; exact putVa_inv ht e
  · exact ht

theorem State.spills_inv {s t : State} (h : s.InvOn P) (ht : t.InvOn P) (c : Cx) (i : Instr) : OutInv P (s.spills c i t) := by
  unfold State.spills
  extract_lets x ls ge le others other fails t1 ls2 t2
  refine outInv_ite (outInv_next ht) (outInv_ite (trap_inv h _ _) (outInv_next ?_))
  have h1 : t1.InvOn P := spill_inv ht _ _ _ _
  have h2 : t2.InvOn P := foldl_inv (fun _ _ hu => spill_inv hu _ _ _ _) _ h1
  exact Inv_of_kept (by simp) h2

theorem State.regionsAfter_inv {s t : State} (ht : t.InvOn P) (c : Cx) (i : Instr) : (s.regionsAfter c i t).InvOn P := by
  unfold State.regionsAfter
  extract_lets x
  refine foldl_inv (fun u l hu => ?_) _ ht
  extract_lets y k v
  refine ite_inv (endRegion_inv hu ..) (Inv_of_kept (modRegion_kept ..) ?_)
  simp only [v]
  split
  · exact Inv_of_kept (modRegion_kept ..) hu
  · exact hu

theorem State.afterWord_inv {s t : State} (h : s.InvOn P) (ht : t.InvOn P) (c : Cx) (i : Instr) : OutInv P (s.afterWord c i t) := by
  unfold State.afterWord
  extract_lets id t1 t2 resumed t3
  have h2 : t2.InvOn P := regionsAfter_inv (Inv_of_kept (by rw [count_kept]; exact State.mk_kept t) ht) c i
  exact spills_inv h (Inv_of_kept (modGroup_kept ..) h2) _ _

theorem State.deferredTrap_inv {s : State} (h : s.InvOn P) (c : Cx) : OutInv P (s.deferredTrap c) := by
  unfold State.deferredTrap
  extract_lets fs faults e l
  exact outInv_ite (outInv_next (Inv_of_kept (by simp) h)) (outInv_next (Inv_of_kept (by simp) h))

theorem State.passHeader_inv {s : State} (h : s.InvOn P) {c : Cx} {o : Out State} (e : s.passHeader c = some o) : OutInv P o := by
  unfold State.passHeader at e
  split at e
  · split at e
    · cases e; exact deferredTrap_inv h _
    · cases e
  · split at e
    · cases e; exact trapAll_inv h _ _ _
    · extract_lets go at e
      split at e
      · cases e; exact outInv_next (Inv_of_kept (by simp) h)
      · split at e
        · cases e
        · cases e
          have h1 {t : State} (e : t.kept = s.kept) : t.InvOn P := Inv_of_kept e h
          refine outInv_next (ite_inv (Inv_of_kept (modGroup_kept ..) ?_) ?_) <;>
            exact Inv_of_kept (fillClause_kept ..) (foldl_inv (fun _ _ hu => Inv_of_kept (noteWait_kept ..) hu) _
              (ite_inv (foldl_inv (fun _ _ hu => endRegion_inv hu ..) _ (h1 (by simp +zetaDelta))) (h1 (by simp +zetaDelta))))

/-! ### Shapes of instructions -/

theorem State.branch_inv {s : State} (h : s.InvOn P) (c : Cx) (dest : Nat → Option DWord) (pre : Nat → Group → Group) :
    OutInv P (s.branch c dest pre) := checked_inv h (outInv_next (Inv_of_kept (by simp) h))

theorem State.unitReads_inv {s : State} (h : s.InvOn P) (c : Cx) (i : Instr) (salt : Nat) (o : MemOp) (dsts : Nat → List PReg)
    (r : Nat → Reads (List Word)) : OutInv P (s.unitReads c i salt o dsts r) := by
  refine checked_inv h (outInv_next (Inv_of_kept (s := s) ?_ h))
  rw [State.done_kept, foldl_kept fun _ _ => by simp, foldl_kept fun _ _ => by simp, State.afterReads_kept]

theorem State.traverse_inv {s : State} (h : s.InvOn P) (c : Cx) (i : Instr) (d : VField) (r : Nat → Reads (List Word)) :
    OutInv P (s.traverse c i d r) := unitReads_inv h _ _ _ _ _ _

theorem State.fetchLanes_inv {s : State} (h : s.InvOn P) (c : Cx) (i : Instr) (dsts : Nat → List PReg) (r : Nat → Reads (List Word)) :
    OutInv P (s.fetchLanes c i dsts r) := by
  unfold State.fetchLanes
  extract_lets ps after
  refine parking_inv h fun c t ht => checked_inv ht (parking_inv ht fun c t ht => outInv_next (Inv_of_kept (s := t) ?_ ht))
  rw [State.done_kept, foldl_kept fun _ _ => State.fetchLane_kept .., foldl_kept fun _ _ => by simp, State.afterReads_kept]

theorem State.graphLanes_inv {s : State} (h : s.InvOn P) (c : Cx) (i : Instr) (pre : Nat → Option (Cause × Nat)) {reads : State → State}
    (hr : ∀ u, (reads u).kept = u.kept) (dsts : Nat → List PReg) (f : GraphOp) : OutInv P (s.graphLanes c i pre reads dsts f) := by
  unfold State.graphLanes
  extract_lets r
  refine checked_inv h (outInv_next (Inv_of_kept (s := s) ?_ h))
  rw [State.done_kept, foldl_kept, State.modCtx_kept, hr]
  intro u l
  (repeat' split) <;> simp

theorem State.graphOnly_inv {s : State} (h : s.InvOn P) (c : Cx) (i : Instr) (dsts : Nat → List PReg) (f : GraphOp) :
    OutInv P (s.graphOnly c i dsts f) := graphLanes_inv h _ _ _ (fun _ => rfl) _ _

theorem State.graphOnce_inv {s : State} (h : s.InvOn P) (c : Cx) (i : Instr) (a : Nat) (f : Ctx → Option Ctx)
    {ord : State → State} (ho : ∀ u, (ord u).kept = u.kept) : OutInv P (s.graphOnce c i a f ord) := by
  unfold State.graphOnce
  split
  · exact trapAll_inv h _ _ _
  · exact outInv_next (Inv_of_kept (by rw [State.done_kept, State.countedOnce_kept, ho, State.modCtx_kept]) h)

theorem State.trapWord_inv {s : State} (h : s.InvOn P) (c : Cx) (i : Instr) (k : Cause) (a : Nat) : OutInv P (s.trapWord c i k a) :=
  checked_inv h (outInv_next (Inv_of_kept (by simp) h))

theorem State.syswr_inv {s : State} (h : s.InvOn P) (c : Cx) (i : Instr) (index : Nat) (a : VField) {f : Nat → State}
    (hf : ∀ x, (f x).InvOn P) : OutInv P (s.syswr c i index a f) :=
  checkedOnce_inv h (outInv_next (Inv_of_kept (State.done_kept ..) (hf _)))

end Sys2Proof.Machine
end

