-- ==== Sys2Proof/Laws/InvariantExec.lean ====
section
/-!
SUPPORT. Every meaning keeps the invariant.
-/

namespace Sys2Proof.Machine

variable {P : Nat → Prop}

open State

variable {s : State}

theorem execIadd_inv (h : s.InvOn P) (f : AddForm) (d a : VField) (b : BOp) : OutInv P (execIadd f d a b s) :=
  issueAlu_inv h _ _

theorem execIsub_inv (h : s.InvOn P) (f : AddForm) (d a : VField) (b : BOp) : OutInv P (execIsub f d a b s) :=
  issueAlu_inv h _ _

theorem execImul_inv (h : s.InvOn P) (f : MulForm) (d a : VField) (b : BOp) : OutInv P (execImul f d a b s) :=
  issueAlu_inv h _ _

theorem execImad_inv (h : s.InvOn P) (wide : Bool) (d a : VField) (b : BOp) : OutInv P (execImad wide d a b s) :=
  issueAlu_inv h _ _

theorem execImin_inv (h : s.InvOn P) (uns : Bool) (d a : VField) (b : BOp) : OutInv P (execImin uns d a b s) :=
  issueAlu_inv h _ _

theorem execImax_inv (h : s.InvOn P) (uns : Bool) (d a : VField) (b : BOp) : OutInv P (execImax uns d a b s) :=
  issueAlu_inv h _ _

theorem execAnd_inv (h : s.InvOn P) (d a : VField) (b : BOp) : OutInv P (execAnd d a b s) :=
  issueAlu_inv h _ _

theorem execAndn_inv (h : s.InvOn P) (d a : VField) (b : BOp) : OutInv P (execAndn d a b s) :=
  issueAlu_inv h _ _

theorem execOr_inv (h : s.InvOn P) (d a : VField) (b : BOp) : OutInv P (execOr d a b s) :=
  issueAlu_inv h _ _

theorem execOrn_inv (h : s.InvOn P) (d a : VField) (b : BOp) : OutInv P (execOrn d a b s) :=
  issueAlu_inv h _ _

theorem execXor_inv (h : s.InvOn P) (d a : VField) (b : BOp) : OutInv P (execXor d a b s) :=
  issueAlu_inv h _ _

theorem execShl_inv (h : s.InvOn P) (wide : Bool) (d a : VField) (b : BOp) : OutInv P (execShl wide d a b s) :=
  issueAlu_inv h _ _

theorem execShr_inv (h : s.InvOn P) (wide : Bool) (d a : VField) (b : BOp) : OutInv P (execShr wide d a b s) :=
  issueAlu_inv h _ _

theorem execSar_inv (h : s.InvOn P) (wide : Bool) (d a : VField) (b : BOp) : OutInv P (execSar wide d a b s) :=
  issueAlu_inv h _ _

theorem execRotl_inv (h : s.InvOn P) (wide : Bool) (d a : VField) (b : BOp) : OutInv P (execRotl wide d a b s) :=
  issueAlu_inv h _ _

theorem execClz_inv (h : s.InvOn P) (d a : VField) : OutInv P (execClz d a s) :=
  issueAlu_inv h _ _

theorem execPopc_inv (h : s.InvOn P) (d a : VField) : OutInv P (execPopc d a s) :=
  issueAlu_inv h _ _

theorem execBrev_inv (h : s.InvOn P) (d a : VField) : OutInv P (execBrev d a s) :=
  issueAlu_inv h _ _

theorem execIabs_inv (h : s.InvOn P) (d a : VField) : OutInv P (execIabs d a s) :=
  issueAlu_inv h _ _

theorem execIneg_inv (h : s.InvOn P) (d a : VField) : OutInv P (execIneg d a s) :=
  issueAlu_inv h _ _

theorem execNot_inv (h : s.InvOn P) (d a : VField) : OutInv P (execNot d a s) :=
  issueAlu_inv h _ _

theorem execBfx_inv (h : s.InvOn P) (signed : Bool) (d a : VField) (b : BOp) : OutInv P (execBfx signed d a b s) :=
  issueAlu_inv h _ _

theorem execBfi_inv (h : s.InvOn P) (d a : VField) (b : BOp) : OutInv P (execBfi d a b s) :=
  issueAlu_inv h _ _

theorem execBitil_inv (h : s.InvOn P) (three : Bool) (d a : VField) : OutInv P (execBitil three d a s) :=
  issueAlu_inv h _ _

theorem execBitdl_inv (h : s.InvOn P) (f : DealForm) (d a : VField) : OutInv P (execBitdl f d a s) :=
  issueAlu_inv h _ _

theorem execIcmp_inv (h : s.InvOn P) (c : ICond) (d : PField) (a : VField) (b : BOp) : OutInv P (execIcmp c d a b s) :=
  issueAlu_inv h _ _

theorem execIsel_inv (h : s.InvOn P) (p : PField) (d a : VField) (b : BOp) : OutInv P (execIsel p d a b s) :=
  issueAlu_inv h _ _

theorem execIaddc_inv (h : s.InvOn P) (p : PField) (d a : VField) (b : BOp) : OutInv P (execIaddc p d a b s) :=
  issueAlu_inv h _ _

theorem execMov_inv (h : s.InvOn P) (d a : VField) : OutInv P (execMov d a s) :=
  issueAlu_inv h _ _

theorem execMovVS_inv (h : s.InvOn P) (d : VField) (a : SField) : OutInv P (execMovVS d a s) :=
  issueAlu_inv h _ _

theorem execMovSV_inv (h : s.InvOn P) (d : SField) (a : VField) (b : BOp) : OutInv P (execMovSV d a b s) :=
  issue_inv h fun _ _ ht => outInv_ite (outInv_next (Inv_of_kept (by simp) ht)) (outInv_next (Inv_of_kept (by simp) ht))

theorem execMovPP_inv (h : s.InvOn P) (d a : PField) : OutInv P (execMovPP d a s) :=
  issueAlu_inv h _ _

theorem execMovSS_inv (h : s.InvOn P) (d a : SField) : OutInv P (execMovSS d a s) :=
  issueAlu_inv h _ _

theorem execMovVP_inv (h : s.InvOn P) (d : VField) (a : PField) : OutInv P (execMovVP d a s) :=
  issueAlu_inv h _ _

theorem execMovPV_inv (h : s.InvOn P) (d : PField) (a : VField) : OutInv P (execMovPV d a s) :=
  issueAlu_inv h _ _

theorem execPand_inv (h : s.InvOn P) (d a : PField) (b : POp) : OutInv P (execPand d a b s) :=
  issueAlu_inv h _ _

theorem execPor_inv (h : s.InvOn P) (d a : PField) (b : POp) : OutInv P (execPor d a b s) :=
  issueAlu_inv h _ _

theorem execPxor_inv (h : s.InvOn P) (d a : PField) (b : POp) : OutInv P (execPxor d a b s) :=
  issueAlu_inv h _ _

theorem execPnot_inv (h : s.InvOn P) (d a : PField) : OutInv P (execPnot d a s) :=
  issueAlu_inv h _ _

theorem execIaddi_inv (h : s.InvOn P) (d a : VField) (imm : BitVec 11) : OutInv P (execIaddi d a imm s) :=
  issueAlu_inv h _ _

theorem execAndi_inv (h : s.InvOn P) (d a : VField) (imm : BitVec 11) : OutInv P (execAndi d a imm s) :=
  issueAlu_inv h _ _

theorem execOri_inv (h : s.InvOn P) (d a : VField) (imm : BitVec 11) : OutInv P (execOri d a imm s) :=
  issueAlu_inv h _ _

theorem execXori_inv (h : s.InvOn P) (d a : VField) (imm : BitVec 11) : OutInv P (execXori d a imm s) :=
  issueAlu_inv h _ _

theorem execShli_inv (h : s.InvOn P) (d a : VField) (imm : BitVec 11) : OutInv P (execShli d a imm s) :=
  issueAlu_inv h _ _

theorem execShri_inv (h : s.InvOn P) (d a : VField) (imm : BitVec 11) : OutInv P (execShri d a imm s) :=
  issueAlu_inv h _ _

theorem execSari_inv (h : s.InvOn P) (d a : VField) (imm : BitVec 11) : OutInv P (execSari d a imm s) :=
  issueAlu_inv h _ _

theorem execMuli_inv (h : s.InvOn P) (d a : VField) (imm : BitVec 11) : OutInv P (execMuli d a imm s) :=
  issueAlu_inv h _ _

theorem execMovi_inv (h : s.InvOn P) (d : VField) (imm : BitVec 18) : OutInv P (execMovi d imm s) :=
  issueAlu_inv h _ _

theorem execMovh_inv (h : s.InvOn P) (d : VField) (imm : BitVec 18) : OutInv P (execMovh d imm s) :=
  issueAlu_inv h _ _

theorem execSmovi_inv (h : s.InvOn P) (d : SField) (imm : BitVec 18) : OutInv P (execSmovi d imm s) :=
  issueAlu_inv h _ _

theorem execSadd_inv (h : s.InvOn P) (d a : SField) (b : BOp) : OutInv P (execSadd d a b s) :=
  issueAlu_inv h _ _

theorem execSsub_inv (h : s.InvOn P) (d a : SField) (b : BOp) : OutInv P (execSsub d a b s) :=
  issueAlu_inv h _ _

theorem execSmul_inv (h : s.InvOn P) (d a : SField) (b : BOp) : OutInv P (execSmul d a b s) :=
  issueAlu_inv h _ _

theorem execSand_inv (h : s.InvOn P) (d a : SField) (b : BOp) : OutInv P (execSand d a b s) :=
  issueAlu_inv h _ _

theorem execSor_inv (h : s.InvOn P) (d a : SField) (b : BOp) : OutInv P (execSor d a b s) :=
  issueAlu_inv h _ _

theorem execSxor_inv (h : s.InvOn P) (d a : SField) (b : BOp) : OutInv P (execSxor d a b s) :=
  issueAlu_inv h _ _

theorem execSshl_inv (h : s.InvOn P) (d a : SField) (b : BOp) : OutInv P (execSshl d a b s) :=
  issueAlu_inv h _ _

theorem execSshr_inv (h : s.InvOn P) (d a : SField) (b : BOp) : OutInv P (execSshr d a b s) :=
  issueAlu_inv h _ _

theorem execSmin_inv (h : s.InvOn P) (d a : SField) (b : BOp) : OutInv P (execSmin d a b s) :=
  issueAlu_inv h _ _

theorem execSmax_inv (h : s.InvOn P) (d a : SField) (b : BOp) : OutInv P (execSmax d a b s) :=
  issueAlu_inv h _ _

theorem execSadd64_inv (h : s.InvOn P) (d a : SField) (b : BOp) : OutInv P (execSadd64 d a b s) :=
  issueAlu_inv h _ _

theorem execSaddi_inv (h : s.InvOn P) (d a : SField) (imm : BitVec 11) : OutInv P (execSaddi d a imm s) :=
  issueAlu_inv h _ _

theorem execScmp_inv (h : s.InvOn P) (c : ICond) (d : PField) (a : SField) (b : BOp) : OutInv P (execScmp c d a b s) :=
  issueAlu_inv h _ _

theorem execFadd_inv (h : s.InvOn P) (sat : Bool) (m : RMode) (d a : VField) (b : BOp) : OutInv P (execFadd sat m d a b s) :=
  issueAlu_inv h _ _

theorem execFsub_inv (h : s.InvOn P) (sat : Bool) (m : RMode) (d a : VField) (b : BOp) : OutInv P (execFsub sat m d a b s) :=
  issueAlu_inv h _ _

theorem execFmul_inv (h : s.InvOn P) (sat : Bool) (m : RMode) (d a : VField) (b : BOp) : OutInv P (execFmul sat m d a b s) :=
  issueAlu_inv h _ _

theorem execFfma_inv (h : s.InvOn P) (sat : Bool) (m : RMode) (d a : VField) (b : BOp) : OutInv P (execFfma sat m d a b s) :=
  issueAlu_inv h _ _

theorem execFmin_inv (h : s.InvOn P) (num : Bool) (d a : VField) (b : BOp) : OutInv P (execFmin num d a b s) :=
  issueAlu_inv h _ _

theorem execFmax_inv (h : s.InvOn P) (num : Bool) (d a : VField) (b : BOp) : OutInv P (execFmax num d a b s) :=
  issueAlu_inv h _ _

theorem execFcmp_inv (h : s.InvOn P) (c : FCond) (d : PField) (a : VField) (b : BOp) : OutInv P (execFcmp c d a b s) :=
  issueAlu_inv h _ _

theorem execFabs_inv (h : s.InvOn P) (d a : VField) : OutInv P (execFabs d a s) :=
  issueAlu_inv h _ _

theorem execFneg_inv (h : s.InvOn P) (d a : VField) : OutInv P (execFneg d a s) :=
  issueAlu_inv h _ _

theorem execFcpys_inv (h : s.InvOn P) (d a : VField) (b : BOp) : OutInv P (execFcpys d a b s) :=
  issueAlu_inv h _ _

theorem execFrcp_inv (h : s.InvOn P) (d a : VField) : OutInv P (execFrcp d a s) :=
  issueAlu_inv h _ _

theorem execFrsq_inv (h : s.InvOn P) (d a : VField) : OutInv P (execFrsq d a s) :=
  issueAlu_inv h _ _

theorem execFsqrt_inv (h : s.InvOn P) (d a : VField) : OutInv P (execFsqrt d a s) :=
  issueAlu_inv h _ _

theorem execFlog2_inv (h : s.InvOn P) (d a : VField) : OutInv P (execFlog2 d a s) :=
  issueAlu_inv h _ _

theorem execFexp2_inv (h : s.InvOn P) (d a : VField) : OutInv P (execFexp2 d a s) :=
  issueAlu_inv h _ _

theorem execFsin_inv (h : s.InvOn P) (d a : VField) : OutInv P (execFsin d a s) :=
  issueAlu_inv h _ _

theorem execFcos_inv (h : s.InvOn P) (d a : VField) : OutInv P (execFcos d a s) :=
  issueAlu_inv h _ _

theorem execFtanh_inv (h : s.InvOn P) (d a : VField) : OutInv P (execFtanh d a s) :=
  issueAlu_inv h _ _

theorem execPadd2_inv (h : s.InvOn P) (bf16 : Bool) (d a : VField) (b : BOp) : OutInv P (execPadd2 bf16 d a b s) :=
  issueAlu_inv h _ _

theorem execPmul2_inv (h : s.InvOn P) (bf16 : Bool) (d a : VField) (b : BOp) : OutInv P (execPmul2 bf16 d a b s) :=
  issueAlu_inv h _ _

theorem execPfma2_inv (h : s.InvOn P) (bf16 : Bool) (d a : VField) (b : BOp) : OutInv P (execPfma2 bf16 d a b s) :=
  issueAlu_inv h _ _

theorem execFcvt_inv (h : s.InvOn P) (m : RMode) (sel : CvtSel) (d a : VField) : OutInv P (execFcvt m sel d a s) :=
  issueAlu_inv h _ _

theorem execFcvts_inv (h : s.InvOn P) (f : NarrowFmt) (d a : VField) (b : BOp) : OutInv P (execFcvts f d a b s) :=
  issueAlu_inv h _ _

theorem execQcvt_inv (h : s.InvOn P) (q : QuantFmt) (hadamard n32 : Bool) (d a : VField) : OutInv P (execQcvt q hadamard n32 d a s) :=
  issue_inv h fun _ _ ht => outInv_next (State.Inv_of_kept (by simp) ht)

theorem execQamax_inv (h : s.InvOn P) (n32 : Bool) (d a : VField) : OutInv P (execQamax n32 d a s) :=
  issue_inv h fun _ _ ht => outInv_next (State.Inv_of_kept (by simp) ht)

theorem execVqdec_inv (h : s.InvOn P) (table : BitVec 2) (d a : VField) : OutInv P (execVqdec table d a s) :=
  issueAlu_inv h _ _

theorem execShfl_inv (h : s.InvOn P) (w : ShflWidth) (m : ShflMode) (d a : VField) (b : BOp) : OutInv P (execShfl w m d a b s) :=
  issue_inv h fun _ _ ht => outInv_next (Inv_of_kept
    (by rw [State.done_kept]; exact foldl_kept (fun _ _ => by simp) _ _) ht)

theorem execVoteAny_inv (h : s.InvOn P) (d a : PField) : OutInv P (execVoteAny d a s) :=
  issue_inv h fun _ _ ht => outInv_next (State.Inv_of_kept (by simp) ht)

theorem execVoteAll_inv (h : s.InvOn P) (d a : PField) : OutInv P (execVoteAll d a s) :=
  issue_inv h fun _ _ ht => outInv_next (State.Inv_of_kept (by simp) ht)

theorem execVoteBallot_inv (h : s.InvOn P) (d : SField) (a : PField) : OutInv P (execVoteBallot d a s) :=
  issue_inv h fun _ _ ht => outInv_next (State.Inv_of_kept (by simp) ht)

theorem execVoteCount_inv (h : s.InvOn P) (d : VField) (a : PField) : OutInv P (execVoteCount d a s) :=
  issue_inv h fun _ _ ht => outInv_next (State.Inv_of_kept (by simp) ht)

theorem execReduce_inv (h : s.InvOn P) (op : RedOp) (d : SField) (a : VField) (b : POp) : OutInv P (execReduce op d a b s) :=
  issue_inv h fun _ _ ht => outInv_next (State.Inv_of_kept (by simp) ht)

theorem execScan_inv (h : s.InvOn P) (excl : Bool) (op : ScanOp) (d a : VField) (b : POp) : OutInv P (execScan excl op d a b s) :=
  issue_inv h fun _ _ ht => outInv_next (State.Inv_of_kept (by simp) ht)

theorem execEnvrd_inv (h : s.InvOn P) (d : VField) (index : BitVec 18) : OutInv P (execEnvrd d index s) :=
  issue_inv h fun _ _ ht => outInv_next (State.Inv_of_kept (by simp) ht)

theorem execElect_inv (h : s.InvOn P) (d : PField) : OutInv P (execElect d s) :=
  issue_inv h fun _ _ ht => outInv_next (State.Inv_of_kept (by simp) ht)

theorem execBra_inv (h : s.InvOn P) (b : BraCond) (ofs : BitVec 14) : OutInv P (execBra b ofs s) :=
  issue_inv h fun _ _ ht => branch_inv ht _ _ _

theorem execJmp_inv (h : s.InvOn P) (ofs : BitVec 25) : OutInv P (execJmp ofs s) :=
  issue_inv h fun _ _ ht => branch_inv ht _ _ _

theorem execCall_inv (h : s.InvOn P) (ofs : BitVec 25) : OutInv P (execCall ofs s) :=
  issue_inv h fun _ _ ht => branch_inv ht _ _ _

theorem execJmpi_inv (h : s.InvOn P) (a : VField) : OutInv P (execJmpi a s) :=
  issue_inv h fun _ _ ht => branch_inv ht _ _ _

theorem execCalli_inv (h : s.InvOn P) (d a : VField) : OutInv P (execCalli d a s) :=
  issue_inv h fun _ _ ht => branch_inv ht _ _ _

theorem execNop_inv (h : s.InvOn P) : OutInv P (execNop s) :=
  issue_inv h fun _ _ ht => outInv_next (State.Inv_of_kept (by simp) ht)

theorem execRet_inv (h : s.InvOn P) (a : VField) : OutInv P (execRet a s) :=
  issue_inv h fun _ _ ht => branch_inv ht _ _ _

theorem execExit_inv (h : s.InvOn P) : OutInv P (execExit s) :=
  issue_inv h fun _ _ ht => parking_inv ht fun _ _ hu => outInv_next (finishLanes_inv hu _)

theorem execYield_inv (h : s.InvOn P) : OutInv P (execYield s) :=
  issue_inv h fun _ _ ht => outInv_next (State.Inv_of_kept (by simp) ht)

theorem execEnrol_inv (h : s.InvOn P) (k : KField) : OutInv P (execEnrol k s) :=
  issue_inv h fun _ _ ht => outInv_next (State.Inv_of_kept (by simp) ht)

theorem execJoin_inv (h : s.InvOn P) (k : KField) : OutInv P (execJoin k s) :=
  issue_inv h fun _ _ ht => outInv_next (State.Inv_of_kept (by simp) ht)

theorem execLeave_inv (h : s.InvOn P) (k : KField) : OutInv P (execLeave k s) :=
  issue_inv h fun _ _ ht => outInv_next (State.Inv_of_kept (by simp) ht)

theorem execBrp_inv (h : s.InvOn P) (ifPending : Bool) (p : VField) (ofs : BitVec 14) : OutInv P (execBrp ifPending p ofs s) :=
  issue_inv h fun _ _ ht => branch_inv ht _ _ _

theorem execWbase_inv (h : s.InvOn P) (n : BitVec 7) : OutInv P (execWbase n s) :=
  issue_inv h fun _ _ ht => outInv_next (State.Inv_of_kept (by simp) ht)

theorem execVfree_inv (h : s.InvOn P) (a n : BitVec 7) : OutInv P (execVfree a n s) :=
  issue_inv h fun _ _ ht => outInv_next (State.Inv_of_kept (by simp) ht)

theorem execRegroup_inv (h : s.InvOn P) : OutInv P (execRegroup s) :=
  issue_inv h fun _ _ ht => checked_inv ht (parking_inv ht fun _ _ hu => by
    dsimp only
    refine outInv_next (regroupCheck_inv ?_ _ _)
    rw [State.inv_iff, State.detStop_kept]
    exact ite_inv (Inv_of_kept (by simp) hu) (Inv_of_kept (by simp) hu))

theorem execPend_inv (h : s.InvOn P) (a : VField) : OutInv P (execPend a s) :=
  issue_inv h fun _ _ ht => outInv_next (State.Inv_of_kept (by simp) ht)

theorem execLd_inv (h : s.InvOn P) (acq : Bool) (z : Size) (d a : VField) (b : BOp) : OutInv P (execLd acq z d a b s) :=
  issue_inv h fun _ _ ht => loads_inv ht _ _ _ _ _ _

theorem execSt_inv (h : s.InvOn P) (rel : Bool) (z : Size) (d a : VField) (b : BOp) : OutInv P (execSt rel z d a b s) :=
  issue_inv h fun _ _ ht => stores_inv ht _ _ _ _ _ _

theorem execLds_inv (h : s.InvOn P) (z : Size) (d a : VField) (b : BOp) : OutInv P (execLds z d a b s) :=
  issue_inv h fun _ _ ht => loads_inv ht _ _ _ _ _ _

theorem execSts_inv (h : s.InvOn P) (z : Size) (d a : VField) (b : BOp) : OutInv P (execSts z d a b s) :=
  issue_inv h fun _ _ ht => stores_inv ht _ _ _ _ _ _

theorem execLdu_inv (h : s.InvOn P) (z : Size) (d a : SField) (b : BOp) : OutInv P (execLdu z d a b s) :=
  issue_inv h fun _ _ ht => by
    dsimp only
    split
    · exact trapAll_inv ht _ _ _
    · exact checked_inv ht (parking_inv ht fun _ _ hu => outInv_next (Inv_of_kept (by simp) hu))

theorem execAtom_inv (h : s.InvOn P) (op : AtomOp) (nr wide : Bool) (o : Ord) (sc : Scope) (d a b : VField) : OutInv P (execAtom op nr wide o sc d a b s) :=
  issue_inv h fun _ _ ht => atomics_inv ht _ _ _

theorem execCas_inv (h : s.InvOn P) (wide : Bool) (o : Ord) (sc : Scope) (d a b : VField) : OutInv P (execCas wide o sc d a b s) :=
  issue_inv h fun _ _ ht => atomics_inv ht _ _ _

theorem execFenceAcq_inv (h : s.InvOn P) (sc : Scope) : OutInv P (execFenceAcq sc s) :=
  issue_inv h fun _ _ ht => parking_inv ht fun _ _ hu => outInv_next (Inv_of_kept
    (by rw [done_kept]; exact foldl_kept (fun _ _ => by simp) _ _) hu)

theorem execFenceRel_inv (h : s.InvOn P) (sc : Scope) : OutInv P (execFenceRel sc s) :=
  issue_inv h fun _ _ ht => releaseFence_inv ht _ _ _

theorem execFenceFull_inv (h : s.InvOn P) (sc : Scope) : OutInv P (execFenceFull sc s) :=
  issue_inv h fun _ _ ht => parking_inv ht fun _ _ hu => releaseFence_inv hu _ _ _

theorem execFenceAsync_inv (h : s.InvOn P) (sc : Scope) : OutInv P (execFenceAsync sc s) :=
  issue_inv h fun _ _ ht => outInv_next (Inv_of_kept (by rw [done_kept]; exact foldl_kept (fun _ _ => by simp) _ _) ht)

theorem execIcinv_inv (h : s.InvOn P) (sc : Scope) : OutInv P (execIcinv sc s) :=
  issue_inv h fun _ _ ht => outInv_next (State.Inv_of_kept (by simp) ht)

theorem execCctlWb_inv (h : s.InvOn P) (a : VField) (b : BOp) : OutInv P (execCctlWb a b s) :=
  issue_inv h fun _ _ ht => cctl_inv ht _ _ _ _ _

theorem execCctlInv_inv (h : s.InvOn P) (a : VField) (b : BOp) : OutInv P (execCctlInv a b s) :=
  issue_inv h fun _ _ ht => cctl_inv ht _ _ _ _ _

theorem execCctlWbinv_inv (h : s.InvOn P) (a : VField) (b : BOp) : OutInv P (execCctlWbinv a b s) :=
  issue_inv h fun _ _ ht => cctl_inv ht _ _ _ _ _

theorem execFetch_inv (h : s.InvOn P) (d : VField) (a : SField) (b : VField) : OutInv P (execFetch d a b s) :=
  issue_inv h fun _ _ ht => checkedOnce_inv ht (fetchLanes_inv ht _ _ _ _)

theorem execFqry_inv (h : s.InvOn P) (d : VField) (a : SField) (sel : BitVec 7) : OutInv P (execFqry d a sel s) :=
  issue_inv h fun _ _ ht => checkedOnce_inv ht (fetchLanes_inv ht _ _ _ _)

theorem execTex_inv (h : s.InvOn P) (d : VField) (a : SField) (b : VField) : OutInv P (execTex d a b s) :=
  issue_inv h fun _ _ ht => checkedOnce_inv ht (fetchLanes_inv ht _ _ _ _)

theorem execRngkey_inv (h : s.InvOn P) (a : VField) : OutInv P (execRngkey a s) :=
  issue_inv h fun _ _ ht => outInv_next (State.Inv_of_kept (by simp) ht)

theorem execRng_inv (h : s.InvOn P) (d a : VField) : OutInv P (execRng d a s) :=
  issue_inv h fun _ _ ht => outInv_next (State.Inv_of_kept (by simp) ht)

theorem execRmask_inv (h : s.InvOn P) (d : PField) (a : VField) (b : BOp) : OutInv P (execRmask d a b s) :=
  issue_inv h fun _ _ ht => outInv_next (State.Inv_of_kept (by simp) ht)

theorem execCpy_inv (h : s.InvOn P) (a : SField) : OutInv P (execCpy a s) :=
  issue_inv h fun _ _ ht => by
    dsimp only
    split
    · exact trapAll_inv ht _ _ _
    · split
      · exact trapAll_inv ht _ _ _
      · exact outInv_ite (joinCopy_inv ht _ _ _ _ _ _) (trapAll_inv ht _ _ _)

theorem execChain_inv (h : s.InvOn P) (a : SField) : OutInv P (execChain a s) :=
  issue_inv h fun _ _ ht => by
    split
    · exact trapAll_inv ht _ _ _
    · split
      · exact trapAll_inv ht _ _ _
      · exact outInv_ite (joinCopy_inv ht _ _ _ _ _ _) (trapAll_inv ht _ _ _)

theorem execSacqFree_inv (h : s.InvOn P) (d : VField) (ring : BitVec 4) : OutInv P (execSacqFree d ring s) :=
  issue_inv h fun _ _ ht => sacq_inv ht _ _ _ _ _

theorem execSacqFilled_inv (h : s.InvOn P) (d : VField) (ring : BitVec 4) : OutInv P (execSacqFilled d ring s) :=
  issue_inv h fun _ _ ht => sacq_inv ht _ _ _ _ _

theorem execSpub_inv (h : s.InvOn P) (a : VField) (ring : BitVec 4) : OutInv P (execSpub a ring s) :=
  issue_inv h fun _ _ ht => sput_inv ht _ _ _ _ _

theorem execSfree_inv (h : s.InvOn P) (a : VField) (ring : BitVec 4) : OutInv P (execSfree a ring s) :=
  issue_inv h fun _ _ ht => sput_inv ht _ _ _ _ _

theorem execColl_inv (h : s.InvOn P) (a : SField) : OutInv P (execColl a s) :=
  issue_inv h fun _ _ ht => by
    dsimp only
    split
    · exact trapAll_inv ht _ _ _
    · split
      · exact trapAll_inv ht _ _ _
      · exact outInv_ite (trapAll_inv ht _ _ _) (outInv_ite (outInv_next (Inv_of_kept (by simp) ht))
          (outInv_next (Inv_of_kept (by simp) ht)))

theorem execMma_inv (h : s.InvOn P) (solo : Bool) (f : MatFmt) (d : AField) (a : TField) (b : SField) : OutInv P (execMma solo f d a b s) :=
  issue_inv h fun _ _ ht => port_inv ht _ _ _ _

theorem execMmasp_inv (h : s.InvOn P) (solo : Bool) (f : MatFmt) (d : AField) (a : TField) (b : SField) : OutInv P (execMmasp solo f d a b s) :=
  issue_inv h fun _ _ ht => port_inv ht _ _ _ _

theorem execConv_inv (h : s.InvOn P) (d : AField) (a b : SField) : OutInv P (execConv d a b s) :=
  issue_inv h fun _ _ ht => port_inv (Inv_of_kept (regionPort_kept ..) ht) _ _ _ _

theorem execScacc_inv (h : s.InvOn P) (d a : AField) (b : SField) : OutInv P (execScacc d a b s) :=
  issue_inv h fun _ _ ht => port_inv ht _ _ _ _

theorem execAclr_inv (h : s.InvOn P) (d : AField) (b : BOp) : OutInv P (execAclr d b s) :=
  issue_inv h fun _ _ ht => port_inv ht _ _ _ _

theorem execAld_inv (h : s.InvOn P) (d : AField) (a : SField) (b : BOp) : OutInv P (execAld d a b s) :=
  issue_inv h fun _ _ ht => port_inv ht _ _ _ _

theorem execAstFp32_inv (h : s.InvOn P) (d : AField) (a : SField) : OutInv P (execAstFp32 d a s) :=
  issue_inv h fun _ _ ht => port_inv ht _ _ _ _

theorem execAstBf16_inv (h : s.InvOn P) (d : AField) (a : SField) : OutInv P (execAstBf16 d a s) :=
  issue_inv h fun _ _ ht => port_inv ht _ _ _ _

theorem execTld_inv (h : s.InvOn P) (d : TField) (a : SField) (b : BOp) : OutInv P (execTld d a b s) :=
  issue_inv h fun _ _ ht => port_inv ht _ _ _ _

theorem execOprdy_inv (h : s.InvOn P) : OutInv P (execOprdy s) :=
  issue_inv h fun _ _ ht => outInv_next (Inv_of_kept (by
    rw [done_kept, foldl_kept fun _ _ => by split <;> simp, foldl_kept fun _ _ => by simp]) ht)

theorem execMwait_inv (h : s.InvOn P) (d : AField) : OutInv P (execMwait d s) :=
  issue_inv h fun _ _ ht => port_inv ht _ _ _ _

theorem execSpawn_inv (h : s.InvOn P) (a : VField) (b : BOp) : OutInv P (execSpawn a b s) :=
  issue_inv h fun _ _ ht => checked_inv ht (by
    extract_lets r u
    have hr : r.1.InvOn P := by
      refine foldl_fst_inv (fun _ _ hp => ?_) _ ht
      split
      · rename_i v e
        unfold State.spawnLane at e
        extract_lets s' at e
        split at e
        · cases e; exact stageItem_inv (Inv_of_kept (by simp [s']) hp) _
        · split at e
          · cases e
          · cases e; exact Inv_of_kept (by simp [s']) hp
      · exact hp
    exact outInv_next (Inv_of_kept (by simp [u]) hr))

theorem execEnq_inv (h : s.InvOn P) (d a : VField) : OutInv P (execEnq d a s) :=
  issue_inv h fun _ _ ht => parking_inv ht fun _ _ hu => checked_inv hu (inOrder_inv hu _ _ fun _ _ _ hv e => by
    dsimp only at e
    split at e
    · cases e
    · split at e
      · cases e
      · split at e
        · cases e
        · rename_i e1
          cases e
          refine Inv_of_kept ?_ (pushSlot_inv hv e1)
          rw [counted_kept]
          (repeat' split) <;> simp)

theorem execDeq_inv (h : s.InvOn P) (blocking : Bool) (d a : VField) : OutInv P (execDeq blocking d a s) :=
  issue_inv h fun _ _ ht => checked_inv ht (inOrder_inv ht _ _ fun _ _ _ hv e => by
    dsimp only at e
    split at e
    · split at e
      · cases e
      · cases e
        exact Inv_of_kept ((acquireAt_kept ..).trans (launch_kept ..)) (copyIndex_inv (Inv_of_kept (by simp) hv) _)
    · split at e
      · cases e
      · cases e; exact Inv_of_kept (by simp) hv)

theorem execDepset_inv (h : s.InvOn P) (d a : VField) (b : BOp) : OutInv P (execDepset d a b s) :=
  issue_inv h fun _ _ ht => checked_inv ht (outInv_next (Inv_of_kept (State.done_kept ..)
    (foldl_inv (fun _ _ hu => Inv_of_kept (by rw [counted_kept, noteRelease_kept]) (depset_inv hu _ _ _ _ _ _)) _ ht)))

theorem execDepdec_inv (h : s.InvOn P) (d : VField) (b : BOp) : OutInv P (execDepdec d b s) :=
  issue_inv h fun _ _ ht => depChange_inv ht _ _ _ _ _

theorem execDepadd_inv (h : s.InvOn P) (d : VField) (b : BOp) : OutInv P (execDepadd d b s) :=
  issue_inv h fun _ _ ht => depChange_inv ht _ _ _ _ _

theorem execCmbopen_inv (h : s.InvOn P) (blocking : Bool) (d a : VField) : OutInv P (execCmbopen blocking d a s) :=
  issue_inv h fun _ _ ht => parking_inv ht fun _ _ hu => checked_inv hu (inOrder_inv hu _ _ fun _ _ _ hv e => by
    split at e
    · cases e
    · extract_lets u at e
      have hu : u.InvOn P := Inv_of_kept (touchVa_kept ..) hv
      split at e
      · rename_i e1
        cases e
        exact Inv_of_kept (modGroup_kept ..) (openSlot_inv hu e1)
      · split at e
        · cases e
        · cases e; exact Inv_of_kept (modGroup_kept ..) hu)

theorem execCmbput_inv (h : s.InvOn P) (d a : VField) : OutInv P (execCmbput d a s) :=
  issue_inv h fun _ _ ht => checked_inv ht (outInv_next (Inv_of_kept (State.done_kept ..)
    (foldl_inv (fun _ _ hu => by
      dsimp only
      refine ite_inv (Inv_of_kept (by simp) hu) (Inv_of_kept (State.counted_kept ..) (arrive_inv (Inv_of_kept (by simp) hu) _ _ _ _ _)))
      _ ht)))

theorem execCmbstat_inv (h : s.InvOn P) (d a : VField) : OutInv P (execCmbstat d a s) :=
  issue_inv h fun _ _ ht => checked_inv ht (outInv_next (Inv_of_kept (by simp) ht))

theorem execCmbclose_inv (h : s.InvOn P) (a : VField) : OutInv P (execCmbclose a s) :=
  issue_inv h fun _ _ ht => checked_inv ht (outInv_next (Inv_of_kept (State.done_kept ..)
    (foldl_inv (fun _ _ hu => Inv_of_kept (State.counted_kept ..) (closeSlot_inv hu _ _ _)) _ ht)))

theorem execCmbcancel_inv (h : s.InvOn P) (a : VField) : OutInv P (execCmbcancel a s) :=
  issue_inv h fun _ _ ht => checked_inv ht (outInv_next (Inv_of_kept (State.done_kept ..)
    (foldl_inv (fun _ _ hu => Inv_of_kept (State.counted_kept ..) (closeSlot_inv hu _ _ _)) _ ht)))

theorem execBinflush_inv (h : s.InvOn P) : OutInv P (execBinflush s) :=
  issue_inv h fun _ _ ht => outInv_ite (outInv_next (Inv_of_kept (by simp) ht)) (outInv_next (Inv_of_kept (by simp) ht))

theorem execTrace_inv (h : s.InvOn P) (cull : Cull) (any : Bool) (d a : VField) (b : SField) : OutInv P (execTrace cull any d a b s) :=
  issue_inv h fun _ _ ht => checkedOnce_inv ht (parking_inv ht fun _ _ hu => traverse_inv hu _ _ _ _)

theorem execHitget_inv (h : s.InvOn P) (d : VField) (a : SField) (b : BOp) : OutInv P (execHitget d a b s) :=
  issue_inv h fun _ _ ht => checkedOnce_inv ht (parking_inv ht fun _ _ hu => traverse_inv hu _ _ _ _)

theorem execVapp_inv (h : s.InvOn P) (d a : VField) (b : BOp) : OutInv P (execVapp d a b s) :=
  issue_inv h fun _ _ ht => parking_inv ht fun _ _ hu => graphLanes_inv hu _ _ _
    (fun _ => foldl_kept (fun _ _ => by split <;> simp) _ _) _ _

theorem execVconn_inv (h : s.InvOn P) (d a : VField) (b : BOp) : OutInv P (execVconn d a b s) :=
  issue_inv h fun _ _ ht => graphOnly_inv ht _ _ _ _

theorem execVmrg_inv (h : s.InvOn P) (d a : VField) (b : BOp) : OutInv P (execVmrg d a b s) :=
  issue_inv h fun _ _ ht => graphOnly_inv ht _ _ _ _

theorem execVmrq_inv (h : s.InvOn P) (d a : VField) (b : BOp) : OutInv P (execVmrq d a b s) :=
  issue_inv h fun _ _ ht => graphOnly_inv ht _ _ _ _

theorem execVrwtConn_inv (h : s.InvOn P) (d a : VField) (b : BOp) : OutInv P (execVrwtConn d a b s) :=
  issue_inv h fun _ _ ht => outInv_next (State.Inv_of_kept (by simp) ht)

theorem execVrwtMrg_inv (h : s.InvOn P) (d a : VField) (b : BOp) : OutInv P (execVrwtMrg d a b s) :=
  issue_inv h fun _ _ ht => outInv_next (State.Inv_of_kept (by simp) ht)

theorem execFopen_inv (h : s.InvOn P) (a : SField) : OutInv P (execFopen a s) :=
  issue_inv h fun _ _ ht => graphOnce_inv ht _ _ _ _ fun _ => foldl_kept (fun _ _ => by simp) _ _

theorem execFclose_inv (h : s.InvOn P) (a : SField) : OutInv P (execFclose a s) :=
  issue_inv h fun _ _ ht => graphOnce_inv ht _ _ _ _ fun _ => rfl

theorem execEseal_inv (h : s.InvOn P) (a : SField) : OutInv P (execEseal a s) :=
  issue_inv h fun _ _ ht => parking_inv ht fun _ _ hu => graphOnce_inv hu _ _ _ _ fun _ => foldl_kept (fun _ _ => by simp) _ _

theorem execVret_inv (h : s.InvOn P) (a : VField) : OutInv P (execVret a s) :=
  issue_inv h fun _ _ ht => graphOnly_inv ht _ _ _ _

theorem execVget_inv (h : s.InvOn P) (d a : VField) (b : BOp) : OutInv P (execVget d a b s) :=
  issue_inv h fun _ _ ht => graphOnly_inv ht _ _ _ _

theorem execTrap_inv (h : s.InvOn P) (code : BitVec 18) : OutInv P (execTrap code s) :=
  issue_inv h fun _ _ ht => trapWord_inv ht _ _ _ _

theorem execSysrd_inv (h : s.InvOn P) (d : VField) (index : BitVec 11) : OutInv P (execSysrd d index s) :=
  issue_inv h fun _ _ ht => checkedOnce_inv ht (outInv_next (Inv_of_kept (by simp) ht))

theorem execSyswrTrapbase_inv (h : s.InvOn P) (a : VField) : OutInv P (execSyswrTrapbase a s) :=
  issue_inv h fun _ _ ht => syswr_inv ht _ _ _ _ fun _ => Inv_of_kept (by simp) ht

theorem execSyswrLattice_inv (h : s.InvOn P) (n : BitVec 2) (a : VField) : OutInv P (execSyswrLattice n a s) :=
  issue_inv h fun _ _ ht => checkedOnce_inv ht (by
    split
    · exact trapAll_inv ht _ _ _
    · exact outInv_next (Inv_of_kept (by simp) ht))

theorem execRegionstatClearRegion_inv (h : s.InvOn P) (a : VField) : OutInv P (execRegionstatClearRegion a s) :=
  issue_inv h fun _ _ ht => syswr_inv ht _ _ _ _ (writeRegionstat_inv ht)

theorem execRegionstatClearOvf_inv (h : s.InvOn P) (a : VField) : OutInv P (execRegionstatClearOvf a s) :=
  issue_inv h fun _ _ ht => syswr_inv ht _ _ _ _ (writeRegionstat_inv ht)

theorem execSyswrPerfctl_inv (h : s.InvOn P) (a : VField) : OutInv P (execSyswrPerfctl a s) :=
  issue_inv h fun _ _ ht => syswr_inv ht _ _ _ _ fun _ => Inv_of_kept (by simp) ht

theorem execSyswrPerfcnt_inv (h : s.InvOn P) (n : BitVec 3) (a : VField) : OutInv P (execSyswrPerfcnt n a s) :=
  issue_inv h fun _ _ ht => syswr_inv ht _ _ _ _ fun _ => Inv_of_kept (by simp) ht

theorem execSyswrWschedcfg_inv (h : s.InvOn P) (a : VField) : OutInv P (execSyswrWschedcfg a s) :=
  issue_inv h fun _ _ ht => syswr_inv ht _ _ _ _ fun _ => Inv_of_kept (by simp) ht

theorem execSyswrDetsel_inv (h : s.InvOn P) (a : VField) : OutInv P (execSyswrDetsel a s) :=
  issue_inv h fun _ _ ht => syswr_inv ht _ _ _ _ fun _ => Inv_of_kept (by simp) ht

theorem execSyswrOther_inv (h : s.InvOn P) (index : BitVec 11) (a : VField) : OutInv P (execSyswrOther index a s) :=
  issue_inv h fun _ _ ht => syswr_inv ht _ _ _ _ fun _ => ht

theorem execOrdb_inv (h : s.InvOn P) : OutInv P (execOrdb s) :=
  issue_inv h fun _ _ ht => checked_inv ht (parkingEach_inv ht fun _ _ hu => outInv_next (Inv_of_kept
    (by rw [done_kept, foldl_kept fun _ _ => sectionOf_kept _ _ _ fun _ _ => acquireAt_kept ..]; rfl) hu))

theorem execOrde_inv (h : s.InvOn P) : OutInv P (execOrde s) :=
  issue_inv h fun _ _ ht => checked_inv ht (outInv_next (Inv_of_kept
    (by rw [vacate_kept, done_kept, foldl_kept fun _ _ => sectionOf_kept _ _ _ fun _ _ => releaseAt_kept ..]; rfl) ht))

theorem execPxw_inv (h : s.InvOn P) (a : VField) : OutInv P (execPxw a s) :=
  issue_inv h fun _ _ ht => checked_inv ht (outInv_next (Inv_of_kept (State.done_kept ..)
    (foldl_inv (fun _ _ hu => by
      dsimp only
      split
      · exact Inv_of_kept (State.counted_kept ..) (performStore_inv (Inv_of_kept (by simp) hu) _ _ _ _ _)
      · exact hu) _ ht)))

theorem execResume_inv (h : s.InvOn P) (a : SField) : OutInv P (execResume a s) :=
  issue_inv h fun _ _ ht => by
    split
    · exact trapAll_inv ht _ _ _
    · rename_i e
      exact outInv_next (Inv_of_kept (by simp) (resumeAt_inv ht e))

theorem execBkpt_inv (h : s.InvOn P) (tag : BitVec 7) : OutInv P (execBkpt tag s) :=
  issue_inv h fun _ _ ht => trapWord_inv ht _ _ _ _

theorem execIllegalWord_inv (h : s.InvOn P) (w : Word) : OutInv P (execIllegalWord w s) :=
  issue_inv h fun _ _ ht => trapAll_inv ht _ _ _

theorem execDeviceReset_inv (hp : P 0) (h : s.InvOn P) : OutInv P (execDeviceReset s) :=
  outInv_next (afterReset_inv hp h)

theorem execLinkFunctionReset_inv (h : s.InvOn P) (link : Bool) : OutInv P (execLinkFunctionReset link s) := by
  unfold execLinkFunctionReset
  extract_lets m t u
  exact outInv_next (ite_inv (Inv_of_kept (by simp [u, t]) h) (Inv_of_kept (by simp [u, t]) h))

theorem execPowerLoss_inv (hp : P 0) (h : s.InvOn P) : OutInv P (execPowerLoss s) :=
  outInv_next (afterReset_inv hp h)

theorem execServiceLevelRise_inv (hp : ∀ n < 4, P n → P (n + 1)) (h : s.InvOn P) (pass : Bool) : OutInv P (execServiceLevelRise pass s) := by
  unfold execServiceLevelRise
  split
  · exact outInv_fault _
  · rename_i hl
    refine outInv_ite (outInv_next h) ?_
    extract_lets n
    refine outInv_next (Inv_of_kept (foldl_kept (fun _ _ => by simp) _ _) ?_)
    exact ⟨h.1, hp _ (by simp at hl; omega) h.2.1, h.2.2⟩

theorem execHostRegisterWrite_inv (h : s.InvOn P) (_link : Bool) (_offset : Nat) (_data : List Byte) : OutInv P (execHostRegisterWrite _link _offset _data s) :=
  outInv_next h

theorem execQueueDescriptorWrite_inv (h : s.InvOn P) (offset : Nat) (data : List Byte) : OutInv P (execQueueDescriptorWrite offset data s) :=
  windowWrite_inv h _ _

theorem execQueueEnable_inv (h : s.InvOn P) (offset : Nat) (data : List Byte) : OutInv P (execQueueEnable offset data s) :=
  windowWrite_inv h _ _

theorem execQueueDisable_inv (h : s.InvOn P) (offset : Nat) (data : List Byte) : OutInv P (execQueueDisable offset data s) :=
  windowWrite_inv h _ _

theorem execWriteIndexAdvance_inv (h : s.InvOn P) (q : Nat) : OutInv P (execWriteIndexAdvance q s) := by
  unfold execWriteIndexAdvance
  extract_lets x
  refine outInv_ite (outInv_fault _) ?_
  split
  · exact outInv_next (shutQueue_inv h _)
  · extract_lets w t
    have ht : t.InvOn P := Inv_of_kept ((modQueue_kept ..).trans (touchVa_kept ..)) h
    exact outInv_ite (outInv_fault _) (outInv_ite (outInv_next (Inv_of_kept (modQueue_kept ..) h))
      (outInv_next (ite_inv (Inv_of_kept (newHead_kept ..) ht) ht)))

theorem execCommandAreaWrite_inv (h : s.InvOn P) (link : Bool) (offset : Nat) (data : List Byte) : OutInv P (execCommandAreaWrite link offset data s) := by
  unfold execCommandAreaWrite
  extract_lets
  exact outInv_ite (outInv_fault _) (outInv_next (ite_inv (Inv_of_kept (by simp +zetaDelta) h) (Inv_of_kept (by simp +zetaDelta) h)))

theorem execUnlistedServiceOp_inv (h : s.InvOn P) (link : Bool) : OutInv P (execUnlistedServiceOp link s) := by
  unfold execUnlistedServiceOp
  split
  · exact outInv_fault _
  · exact outInv_ite (outInv_fault _) (outInv_next (Inv_of_kept (by simp) h))

theorem execCtxcreate_inv (h : s.InvOn P) (link : Bool) : OutInv P (execCtxcreate link s) :=
  serve_inv h _ _ _ _ _ fun _ _ => by
  dsimp only
  refine outInv_ite (outInv_next (Inv_of_kept (by simp) h)) ?_
  split
  · exact outInv_next (Inv_of_kept (by simp) h)
  · refine outInv_next (Inv_of_kept (respond_kept ..) ?_)
    exact h

theorem execCtxsetSavePool_inv (h : s.InvOn P) (link : Bool) : OutInv P (execCtxsetSavePool link s) :=
  ctxset_inv h _ _ _ _ _ _

theorem execCtxsetGraphRegion_inv (h : s.InvOn P) (link : Bool) : OutInv P (execCtxsetGraphRegion link s) :=
  ctxset_inv h _ _ _ _ _ _

theorem execCtxsetCombineRegion_inv (h : s.InvOn P) (link : Bool) : OutInv P (execCtxsetCombineRegion link s) :=
  ctxset_inv h _ _ _ _ _ _

theorem execCtxsetReleaseQueue_inv (h : s.InvOn P) (link : Bool) : OutInv P (execCtxsetReleaseQueue link s) :=
  ctxset_inv h _ _ _ _ _ _

theorem execCtxsetTrapbase_inv (h : s.InvOn P) (link : Bool) : OutInv P (execCtxsetTrapbase link s) :=
  ctxset_inv h _ _ _ _ _ _

theorem execCtxdestroy_inv (h : s.InvOn P) (link : Bool) : OutInv P (execCtxdestroy link s) :=
  serve_inv h _ _ _ _ _ fun _ _ => outInv_ite (outInv_next (Inv_of_kept (by simp) h)) (outInv_next (Inv_of_kept (by simp) h))

theorem execImgload_inv (h : s.InvOn P) (link : Bool) : OutInv P (execImgload link s) :=
  serve_inv h _ _ _ _ _ fun _ _ => by
  split
  · exact outInv_next (Inv_of_kept (by simp) h)
  · dsimp only
    split
    · split
      · exact outInv_next (Inv_of_kept (by simp) h)
      · exact outInv_ite (outInv_next (Inv_of_kept (by simp) h)) (outInv_next (Inv_of_kept ((respond_kept ..).trans (addImage_kept ..)) (unitWrite_inv h _ _ _)))
    · split
      · exact outInv_next (Inv_of_kept (by simp) h)
      · exact outInv_next (Inv_of_kept ((respond_kept ..).trans (addImage_kept ..)) h)

theorem execImgdrop_inv (h : s.InvOn P) (link : Bool) : OutInv P (execImgdrop link s) :=
  serve_inv h _ _ _ _ _ fun _ _ => outInv_ite (outInv_next (Inv_of_kept (by simp) h)) (outInv_ite (outInv_next (Inv_of_kept (by simp) h)) (outInv_next (Inv_of_kept (by simp) h)))

theorem execInval_inv (h : s.InvOn P) (link : Bool) : OutInv P (execInval link s) :=
  serve_inv h _ _ _ _ _ fun _ _ => outInv_next (Inv_of_kept (by simp) h)

theorem execHostrange_inv (h : s.InvOn P) (link : Bool) : OutInv P (execHostrange link s) :=
  serve_inv h _ _ _ _ _ fun _ _ => outInv_ite (outInv_next (Inv_of_kept (by simp) h)) (outInv_ite (outInv_next (Inv_of_kept (by simp) h)) (outInv_ite (outInv_next (Inv_of_kept (by simp) h)) (outInv_next (Inv_of_kept (by simp) h))))

theorem execSave_inv (h : s.InvOn P) (link : Bool) : OutInv P (execSave link s) :=
  serve_inv h _ _ _ _ _ fun _ _ => by
  split
  · exact outInv_next (Inv_of_kept (by simp) h)
  · extract_lets t
    have ht : t.InvOn P := Inv_of_kept (foldl_kept (fun _ _ => by simp) _ _) h
    split
    · exact outInv_next (Inv_of_kept (by simp) h)
    · exact outInv_ite (outInv_fault _) (outInv_next (Inv_of_kept
        (by rw [foldl_kept fun _ _ => by simp]; exact begun_kept ..) ht))

theorem execRestore_inv (h : s.InvOn P) (link : Bool) : OutInv P (execRestore link s) :=
  serve_inv h _ _ _ _ _ fun _ _ => by
  split
  · exact outInv_next (Inv_of_kept (by simp) h)
  · split
    · exact outInv_next (Inv_of_kept (by simp) h)
    · split
      · exact outInv_fault _
      · exact outInv_next (Inv_of_kept (respond_kept ..) (restoreTeam_inv h _ _ _ _))

theorem execQuiesce_inv (h : s.InvOn P) (link : Bool) : OutInv P (execQuiesce link s) :=
  serve_inv h _ _ _ _ _ fun _ _ => by
  dsimp only
  refine outInv_ite (outInv_next (Inv_of_kept (by simp) h)) (outInv_ite (outInv_next (Inv_of_kept (s := s) ?_ h))
    (outInv_ite (outInv_fault _) (outInv_next (Inv_of_kept (s := s) ?_ h))))
  · exact (quiesceSaves_kept ..).trans ((quiesce_kept ..).trans ((begun_kept ..).trans (modDies_kept ..)))
  · rw [respond_kept]
    exact (quiesce_kept ..).trans ((modDies_kept ..).trans (foldl_kept (fun _ _ => by simp) _ _))

theorem execPowerP0_inv (h : s.InvOn P) (link : Bool) : OutInv P (execPowerP0 link s) :=
  power_inv h _ _

theorem execPowerP1_inv (h : s.InvOn P) (link : Bool) : OutInv P (execPowerP1 link s) :=
  power_inv h _ _

theorem execPowerPark_inv (h : s.InvOn P) (link : Bool) : OutInv P (execPowerPark link s) := by
  unfold execPowerPark
  split
  · exact outInv_fault _
  · exact outInv_ite (outInv_fault _) (serve_inv h _ _ _ _ _ fun _ _ => outInv_ite (outInv_next (Inv_of_kept (by simp) h)) (outInv_ite (outInv_next (Inv_of_kept (by simp) h)) (outInv_next (Inv_of_kept (by simp) h))))

theorem execWload_inv (h : s.InvOn P) (link : Bool) : OutInv P (execWload link s) :=
  serve_inv h _ _ _ _ _ fun _ _ => by
  extract_lets
  refine outInv_ite (outInv_next (Inv_of_kept (by simp) h)) ?_
  split
  · exact outInv_next (Inv_of_kept (by simp) h)
  · refine outInv_next (Inv_of_kept (s := s) ?_ h)
    rw [respond_kept]
    exact foldl_kept (fun _ _ => by simp) _ _

theorem execCxlMemRead_inv (h : s.InvOn P) (pa bytes : Nat) : OutInv P (execCxlMemRead pa bytes s) :=
  outInv_ite (outInv_fault _) (outInv_ite (outInv_next h) (outInv_next h))

theorem execCxlMemWrite_inv (h : s.InvOn P) (pa : Nat) (data : List Byte) : OutInv P (execCxlMemWrite pa data s) :=
  outInv_ite (outInv_fault _) (outInv_ite (outInv_next h) (outInv_ite (outInv_next (Inv_of_kept (by simp) h)) (outInv_next (hostWrite_inv h _ _))))

theorem execCxlCacheSnoop_inv (h : s.InvOn P) (pa : Nat) : OutInv P (execCxlCacheSnoop pa s) :=
  outInv_ite (outInv_next h) (outInv_fault _)

theorem execWeightPortWrite_inv (h : s.InvOn P) (die : Nat) : OutInv P (execWeightPortWrite die s) := by
  unfold execWeightPortWrite
  extract_lets d
  split
  · exact outInv_fault _
  · rename_i p rest _
    refine outInv_ite (outInv_fault _) ?_
    extract_lets t u
    have hu : u.InvOn P := Inv_of_kept (State.mk_kept t) (hostWrite_inv h _ _)
    refine outInv_next ?_
    split
    · exact hu
    · exact ite_inv hu (Inv_of_kept (State.mk_kept u) hu)

theorem execFabricLaneFailure_inv (h : s.InvOn P) (port lane : Nat) : OutInv P (execFabricLaneFailure port lane s) :=
  outInv_ite (outInv_fault _) (outInv_next h)

theorem execSpareLaneSwapComplete_inv (h : s.InvOn P) (port : Nat) : OutInv P (execSpareLaneSwapComplete port s) :=
  outInv_ite (outInv_next h) (outInv_fault _)

theorem execPeerAccess_inv (h : s.InvOn P) (peer pa : Nat) (op : PeerOp) : OutInv P (execPeerAccess peer pa op s) := by
  unfold execPeerAccess
  extract_lets n atomic lost old t0 t
  refine outInv_ite (outInv_fault _) ?_
  have ht : t.InvOn P := by
    simp only [t]
    split
    · exact h
    · exact Inv_of_kept (by simp +zetaDelta) h
  refine outInv_next ?_
  split
  · exact ite_inv ht (storePhys_inv ht _ _ _)
  · exact ht

theorem execRemoteArrival_inv (h : s.InvOn P) (ctx slotId expert : Nat) (data : List Byte) : OutInv P (execRemoteArrival ctx slotId expert data s) :=
  outInv_ite (outInv_fault _) (outInv_next (ite_inv (arrive_inv h _ _ _ _ _) h))

theorem execRemoteAcknowledgement_inv (h : s.InvOn P) (id : Nat) : OutInv P (execRemoteAcknowledgement id s) := by
  unfold execRemoteAcknowledgement
  split
  · exact outInv_fault _
  · exact outInv_ite (outInv_next (Inv_of_kept (by simp) h)) (outInv_fault _)

theorem execRemoteAckTimeout_inv (h : s.InvOn P) (id : Nat) : OutInv P (execRemoteAckTimeout id s) := by
  unfold execRemoteAckTimeout
  split
  · exact outInv_fault _
  · split
    · exact outInv_fault _
    · exact outInv_next (discard_inv (Inv_of_kept (by simp) h) _ _ _ _ _)

theorem execLeaseRenewal_inv (h : s.InvOn P) (holder : Nat) : OutInv P (execLeaseRenewal holder s) :=
  outInv_next h

theorem execLeaseExpiry_inv (h : s.InvOn P) (line : Nat) : OutInv P (execLeaseExpiry line s) := by
  unfold execLeaseExpiry
  split
  · exact outInv_fault _
  · split
    · exact outInv_fault _
    · refine outInv_next (loseRegion_inv ?_ _)
      exact ⟨Memory.wf_foldl_memSet _ h.1, h.2⟩

theorem execDroverTakePacket_inv (h : s.InvOn P) (q : Nat) : OutInv P (execDroverTakePacket q s) :=
  outInv_ite (outInv_next (takePacket_inv h _)) (outInv_fault _)

theorem execEffectivePriorityAgeing_inv (h : s.InvOn P) (q : Nat) : OutInv P (execEffectivePriorityAgeing q s) :=
  outInv_ite (outInv_next (Inv_of_kept (by simp) h)) (outInv_fault _)

theorem execTeamPlace_inv (h : s.InvOn P) (grid : Nat) : OutInv P (execTeamPlace grid s) := by
  unfold execTeamPlace
  split
  · exact outInv_fault _
  · refine outInv_ite (outInv_fault _) ?_
    split
    · exact outInv_fault _
    · exact outInv_next (Inv_of_kept (by simp) h)

theorem execOwnerPop_inv (h : s.InvOn P) (core : Nat) : OutInv P (execOwnerPop core s) := by
  unfold execOwnerPop
  split
  · exact outInv_fault _
  · exact outInv_ite (outInv_next (Inv_of_kept (by simp) h)) (outInv_fault _)

theorem execThiefSteal_inv (h : s.InvOn P) (core : Nat) : OutInv P (execThiefSteal core s) := by
  unfold execThiefSteal
  refine outInv_ite (outInv_fault _) ?_
  split
  · exact outInv_fault _
  · split
    · exact outInv_fault _
    · exact outInv_ite (outInv_next (Inv_of_kept (by simp) h)) (outInv_fault _)

theorem execGridComplete_inv (h : s.InvOn P) (grid : Nat) : OutInv P (execGridComplete grid s) := by
  unfold execGridComplete
  split
  · exact outInv_fault _
  · exact outInv_ite (outInv_next (finishGrid_inv h _ _)) (outInv_fault _)

theorem execMarkerComplete_inv (h : s.InvOn P) (grid : Nat) : OutInv P (execMarkerComplete grid s) := by
  unfold execMarkerComplete
  split
  · exact outInv_fault _
  · exact outInv_ite (outInv_next (finishGrid_inv h _ _)) (outInv_fault _)

theorem execHoldListDelivery_inv (h : s.InvOn P) (q : Nat) : OutInv P (execHoldListDelivery q s) := by
  unfold execHoldListDelivery
  extract_lets x
  split
  · exact outInv_fault _
  · refine outInv_ite (outInv_fault _) ?_
    split
    · rename_i e
      exact outInv_next (pushHeld_inv (Inv_of_kept (modQueue_kept ..) h) e)
    · exact outInv_next (shutQueue_inv h _)

theorem execWatchdogExpiry_inv (h : s.InvOn P) (grid : Nat) : OutInv P (execWatchdogExpiry grid s) := by
  unfold execWatchdogExpiry
  split
  · exact outInv_fault _
  · split
    · exact outInv_fault _
    · exact outInv_ite (outInv_fault _) (outInv_next (abortGrid_inv (Inv_of_kept (by simp) h) _ _))

theorem execMemoryAccessComplete_inv (h : s.InvOn P) (id : Nat) : OutInv P (execMemoryAccessComplete id s) := by
  unfold execMemoryAccessComplete
  split
  · exact outInv_fault _
  · refine outInv_ite (outInv_fault _) (outInv_next (Inv_of_kept (finishOp_kept ..) ?_))
    exact ite_inv (Inv_of_kept (dropCode_kept ..) h) h

theorem execClosureRun_inv (h : s.InvOn P) (id : Nat) : OutInv P (execClosureRun id s) := by
  unfold execClosureRun
  split
  · exact outInv_fault _
  · split
    · exact outInv_ite (outInv_next (Inv_of_kept (by simp) h)) (outInv_fault _)
    · exact outInv_fault _

theorem State.performEntry_inv (h : s.InvOn P) (id : Nat) (r : Resid) : (s.performEntry id r).InvOn P := by
  unfold State.performEntry
  extract_lets x t done
  have ht : t.InvOn P := Inv_of_kept ((noteActed_kept ..).trans (State.mk_kept s)) h
  have hd : ∀ u : State, u.InvOn P → (done u).InvOn P := fun u hu => Inv_of_kept (countDown_kept ..) hu
  split
  · exact h
  · exact performHalf_inv h ..
  · have hu {v : State} {b : Bool} (hv : v.InvOn P) : (if b then v else done v).InvOn P := ite_inv hv (hd _ hv)
    exact hu (storeParts_inv ht ..)
  · exact hd _ (Inv_of_kept (fenceAs_kept ..) ht)
  · exact Inv_of_kept ((readAs_kept ..).trans ((State.mk_kept _).trans (touchLoc_kept ..))) ht
  · exact Inv_of_kept (State.mk_kept t) ht
  · refine ite_inv (ite_inv (hd _ ht) (Inv_of_kept (State.mk_kept t) ht)) ?_
    rename_i loc va _
    extract_lets p u
    have hu : u.InvOn P := Inv_of_kept ((chainKnows_kept ..).trans (irrevIn_kept ..)) (atomicAs_inv ht r.g r.lane r.ins loc r.values r.know)
    exact ite_inv (hd _ hu) (Inv_of_kept (State.mk_kept u) hu)

theorem execChainEntryPerform_inv (h : s.InvOn P) (id : Nat) : OutInv P (execChainEntryPerform id s) := by
  unfold execChainEntryPerform
  split
  · exact outInv_fault _
  · refine outInv_ite (outInv_fault _) (outInv_ite (outInv_next (performHalf_inv h ..)) (outInv_next ?_))
    exact Inv_of_kept (sealLearns_kept ..) (performEntry_inv (foldl_inv (fun _ _ hu => finishHalves_inv hu _ _) _ h) _ _)

theorem execEngineCommandComplete_inv (h : s.InvOn P) (id : Nat) : OutInv P (execEngineCommandComplete id s) := by
  unfold execEngineCommandComplete
  split
  · exact outInv_fault _
  · exact outInv_ite (outInv_next (Inv_of_kept (by simp) h)) (outInv_fault _)

theorem execMatrixCommandComplete_inv (h : s.InvOn P) (id : Nat) : OutInv P (execMatrixCommandComplete id s) := by
  unfold execMatrixCommandComplete
  extract_lets core
  split
  · exact outInv_fault _
  · exact outInv_next (Inv_of_kept (State.count_kept ..) (portDone_inv h _ _))

theorem execCopyCommandComplete_inv (h : s.InvOn P) (core : Nat) : OutInv P (execCopyCommandComplete core s) := by
  unfold execCopyCommandComplete
  split
  · exact outInv_fault _
  · extract_lets t
    have ht : t.InvOn P := Inv_of_kept (by simp [t]) h
    split
    · exact outInv_next (Inv_of_kept (State.ownerDone_kept ..) (performChain_inv ht _ _ _ _ _ _))
    · split
      · exact outInv_fault _
      · rename_i e
        exact outInv_next (Inv_of_kept (State.ownerDone_kept ..) (performCopy_inv ht e))

theorem execCollectiveComplete_inv (h : s.InvOn P) (id : Nat) (peers : List (List Byte)) : OutInv P (execCollectiveComplete id peers s) := by
  unfold execCollectiveComplete
  split
  · exact outInv_fault _
  · rename_i q _
    extract_lets r n earlier agent e size out t u v
    refine outInv_ite (outInv_fault _) (outInv_next ?_)
    have ht : t.InvOn P := writePieces_inv (Inv_of_kept (touchPieces_kept ..) h) _ _ _
    have hu : u.InvOn P := ht
    have hv : v.InvOn P := by
      simp only [v]
      split
      · exact Inv_of_kept (ownerDone_kept ..) hu
      · exact hu
    split
    · exact Inv_of_kept (modGrid_kept ..) hv
    · exact hv

theorem execPageWalkComplete_inv (h : s.InvOn P) (core ctx va : Nat) : OutInv P (execPageWalkComplete core ctx va s) := by
  unfold execPageWalkComplete
  refine outInv_ite (outInv_fault _) ?_
  split
  · exact outInv_next h
  · exact outInv_ite (outInv_next h) (outInv_next (Inv_of_kept (modCore_kept ..) h))

theorem execLatticeCopyComplete_inv (h : s.InvOn P) (ctx : Nat) : OutInv P (execLatticeCopyComplete ctx s) := by
  unfold execLatticeCopyComplete
  split
  · exact outInv_fault _
  · exact outInv_next (Inv_of_kept (by simp) h)

theorem execRegroupTimerExpiry_inv (h : s.InvOn P) (team core : Nat) : OutInv P (execRegroupTimerExpiry team core s) := by
  unfold execRegroupTimerExpiry
  extract_lets t
  split
  · exact outInv_fault _
  · exact outInv_ite (outInv_fault _) (outInv_next (regroupNow_inv (Inv_of_kept (atLeast_kept ..) h) _ _))

theorem execBinTimerExpiry_inv (h : s.InvOn P) (core bin : Nat) : OutInv P (execBinTimerExpiry core bin s) := by
  unfold execBinTimerExpiry
  split
  · exact outInv_fault _
  · exact outInv_ite (outInv_fault _) (outInv_next (Inv_of_kept (by simp) h))

theorem execBinLaunch_inv (h : s.InvOn P) (core bin : Nat) : OutInv P (execBinLaunch core bin s) := by
  unfold execBinLaunch
  split
  · exact outInv_fault _
  · extract_lets gr r pack x t1 t2 t3
    have h1 : r.1.InvOn P := Inv_of_kept (withDynamic_kept ..) h
    have h3 : t3.InvOn P := Inv_of_kept (by simp [t3, t2, t1]) h1
    exact outInv_ite (outInv_fault _) (outInv_next (ite_inv (Inv_of_kept (quiesceSaves_kept ..) h3) h3))

theorem execParityError_inv (h : s.InvOn P) (gslot : Nat) : OutInv P (execParityError gslot s) := by
  unfold execParityError
  split
  · exact outInv_fault _
  · extract_lets live s1 s2 s3 s4
    have h1 : s1.InvOn P := Inv_of_kept (endIcinvs_kept ..) (foldl_inv (fun _ _ hu => finishHalves_inv hu _ _) _ h)
    have h2 : s2.InvOn P := Inv_of_kept (State.mk_kept s1) h1
    have h4 : s4.InvOn P := foldl_inv (fun _ _ hu => regionBack_inv hu _ _) _ (Inv_of_kept (setGroup_kept ..) h2)
    exact outInv_ite (outInv_next (abortGrid_inv h _ _)) (outInv_ite (outInv_fault _) (outInv_ite (outInv_next (abortGrid_inv h4 _ _))
      (outInv_ite (outInv_next (Inv_of_kept (quarantine_kept ..) h4)) (outInv_next h4))))

theorem execCorrectableError_inv (h : s.InvOn P) (part : WornPart) : OutInv P (execCorrectableError part s) := by
  unfold execCorrectableError
  extract_lets n t mark
  have ht : t.InvOn P := h
  have hm : mark.InvOn P := ite_inv ht ht
  split
  · exact outInv_next (ite_inv hm ht)
  · exact outInv_ite (outInv_fault _) (outInv_next (ite_inv hm ht))
  · exact outInv_next hm
  · exact outInv_fault _
  · exact outInv_fault _

theorem execTrapRecordTake_inv (h : s.InvOn P) (gslot : Nat) : OutInv P (execTrapRecordTake gslot s) := by
  unfold execTrapRecordTake
  split
  · exact outInv_fault _
  · split
    · exact outInv_fault _
    · refine outInv_ite (outInv_fault _) ?_
      split
      · rename_i e; exact outInv_next (takeRecord_inv h e)
      · exact outInv_fault _

theorem execHandlerTeamStart_inv (h : s.InvOn P) (ctx record : Nat) : OutInv P (execHandlerTeamStart ctx record s) := by
  unfold execHandlerTeamStart
  extract_lets c
  split
  · exact outInv_fault _
  · extract_lets
    split
    · exact outInv_fault _
    · exact outInv_ite (outInv_fault _) (outInv_next (Inv_of_kept (by simp +zetaDelta) h))

theorem execDeferredErrorTrap_inv (h : s.InvOn P) (id : Nat) : OutInv P (execDeferredErrorTrap id s) := by
  unfold execDeferredErrorTrap
  split
  · exact outInv_fault _
  · exact outInv_ite (outInv_fault _) (outInv_next (Inv_of_kept (by simp) h))

theorem execSpatialPreemption_inv (h : s.InvOn P) (q : Nat) (cores : List Nat) : OutInv P (execSpatialPreemption q cores s) := by
  unfold execSpatialPreemption
  split
  · exact outInv_fault _
  · split
    · exact outInv_fault _
    · exact outInv_next (Inv_of_kept (by simp) h)

theorem execPreemptionWaitExpiry_inv (h : s.InvOn P) (grid : Nat) : OutInv P (execPreemptionWaitExpiry grid s) := by
  unfold execPreemptionWaitExpiry
  split
  · exact outInv_fault _
  · exact outInv_ite (outInv_fault _) (outInv_next (Inv_of_kept (by simp) h))

theorem execExactStop_inv (h : s.InvOn P) (team : Nat) : OutInv P (execExactStop team s) := by
  unfold execExactStop
  split
  · split
    · rename_i e; exact outInv_next (writeSave_inv h e)
    · exact outInv_next (abortGrid_inv h _ _)
  · exact outInv_fault _

theorem execSaveBoundExpiry_inv (h : s.InvOn P) (team : Nat) : OutInv P (execSaveBoundExpiry team s) := by
  unfold execSaveBoundExpiry
  split
  · exact outInv_fault _
  · exact outInv_next (abortGrid_inv (Inv_of_kept (by simp) h) _ _)

theorem execTeamRestore_inv (h : s.InvOn P) (team : Nat) (cores : List Nat) : OutInv P (execTeamRestore team cores s) := by
  unfold execTeamRestore
  extract_lets t
  split
  · exact outInv_fault _
  · refine outInv_ite (outInv_fault _) ?_
    split
    · exact outInv_fault _
    · exact outInv_next (restoreTeam_inv h _ _ _ _)

theorem execDigestCompare_inv (h : s.InvOn P) (team : Nat) : OutInv P (execDigestCompare team s) := by
  unfold execDigestCompare
  extract_lets t
  split
  · exact outInv_fault _
  · extract_lets sh u cores u2
    refine outInv_ite (outInv_fault _) (outInv_next (Inv_of_kept (State.reapGrid_kept ..) (ite_inv ?_ ?_)))
    · exact Inv_of_kept (by simp +zetaDelta) h
    · exact Inv_of_kept (by simp +zetaDelta) h

theorem execSlotTimerExpiry_inv (h : s.InvOn P) (ctx die index : Nat) : OutInv P (execSlotTimerExpiry ctx die index s) := by
  unfold execSlotTimerExpiry
  split
  · exact outInv_fault _
  · refine outInv_ite (outInv_fault _) ?_
    exact outInv_next (ite_inv (Inv_of_kept (by simp) h) (releaseSlot_inv (Inv_of_kept (by simp) h) _ _ _ _))

theorem execOrderedRelease_inv (h : s.InvOn P) (ctx die index : Nat) : OutInv P (execOrderedRelease ctx die index s) := by
  unfold execOrderedRelease
  extract_lets k
  split
  · exact outInv_fault _
  · exact outInv_ite (outInv_fault _) (outInv_next (releaseSteps_inv h _ _ _))

theorem execReleaseRecordWrite_inv (h : s.InvOn P) (ctx die : Nat) : OutInv P (execReleaseRecordWrite ctx die s) := by
  unfold execReleaseRecordWrite
  split
  · rename_i e; exact outInv_next (putRecord_inv h e)
  · exact outInv_fault _

theorem execReprojectionComplete_inv (h : s.InvOn P) (grid : Nat) : OutInv P (execReprojectionComplete grid s) := by
  unfold execReprojectionComplete
  split
  · exact outInv_fault _
  · extract_lets b w t u
    have ht : t.InvOn P := unitWrite_inv h _ _ _
    have hu : u.InvOn P := ite_inv ht (deliver_inv (Inv_of_kept (touchVa_kept ..) ht) _ _)
    exact outInv_ite (outInv_fault _) (outInv_next (finishGrid_inv hu _ _))

theorem execWeightRefreshWindow_inv (h : s.InvOn P) (die : Nat) : OutInv P (execWeightRefreshWindow die s) :=
  outInv_ite (outInv_fault _) (outInv_next h)

end Sys2Proof.Machine
end

