-- ==== Sys2Proof/Laws/InvariantStep.lean ====
section
/-!
SUPPORT. What the step does around the meanings keeps the invariant: the actions it chooses among, and the issue of a word where every
meaning keeps it.
-/

namespace Sys2Proof.Machine

variable {P : Nat → Prop}

open State

/-- An action after which the invariant holds. -/
def Keeps (P : Nat → Prop) (a : Action) : Prop := ∀ s : State, s.InvOn P → OutInv P (a s)

theorem keeps_all_append {l r : List Action} (h1 : ∀ a ∈ l, Keeps P a) (h2 : ∀ a ∈ r, Keeps P a) : ∀ a ∈ l ++ r, Keeps P a := by
  intro a ha
  rcases List.mem_append.1 ha with h | h
  · exact h1 a h
  · exact h2 a h

theorem keeps_flatMap {α : Type} {l : List α} {f : α → List Action} (h : ∀ x, ∀ a ∈ f x, Keeps P a) : ∀ a ∈ l.flatMap f, Keeps P a := by
  intro a ha
  obtain ⟨x, -, hx⟩ := List.mem_flatMap.1 ha
  exact h x a hx

theorem keeps_map {α : Type} {l : List α} {f : α → Action} (h : ∀ x, Keeps P (f x)) : ∀ a ∈ l.map f, Keeps P a := by
  intro a ha
  obtain ⟨x, -, rfl⟩ := List.mem_map.1 ha
  exact h x

theorem keeps_filterMap {α : Type} {l : List α} {f : α → Option Action} (h : ∀ x a, f x = some a → Keeps P a) :
    ∀ a ∈ l.filterMap f, Keeps P a := by
  intro a ha
  obtain ⟨x, -, hx⟩ := List.mem_filterMap.1 ha
  exact h x a hx


theorem keeps_nil : ∀ a ∈ ([] : List Action), Keeps P a := by simp

theorem keeps_one {a : Action} (h : Keeps P a) : ∀ b ∈ [a], Keeps P b := by simpa using h

theorem keeps_ite {b : Prop} [Decidable b] {l r : List Action} (h1 : ∀ a ∈ l, Keeps P a) (h2 : ∀ a ∈ r, Keeps P a) :
    ∀ a ∈ (if b then l else r), Keeps P a := by split <;> assumption

theorem State.completions_keep (s : State) : ∀ a ∈ s.completions, Keeps P a := by
  refine keeps_all_append (keeps_all_append (keeps_all_append ?_ ?_) ?_) ?_
  · refine keeps_map fun e => ?_
    split
    · exact fun _ h => execEngineCommandComplete_inv h _
    · split
      · exact fun _ h => execDeferredErrorTrap_inv h _
      · exact fun _ h => execMemoryAccessComplete_inv h _
  · refine keeps_map fun e => ?_
    split
    · exact fun _ h => execClosureRun_inv h _
    · exact fun _ h => execChainEntryPerform_inv h _
  · refine keeps_flatMap fun e => keeps_all_append (keeps_map fun m => ?_) (keeps_ite keeps_nil (keeps_one ?_))
    · exact fun _ h => execMatrixCommandComplete_inv h _
    · exact fun _ h => execCopyCommandComplete_inv h _
  · exact keeps_flatMap fun e => keeps_ite keeps_nil (keeps_one fun _ h => execLatticeCopyComplete_inv h _)

theorem State.followUps_keep (s : State) : ∀ a ∈ s.followUps, Keeps P a := by
  refine keeps_all_append (keeps_all_append ?_ ?_) ?_
  · refine keeps_filterMap fun e a ha => ?_
    split at ha <;> cases ha
    exact fun _ h => execTrapRecordTake_inv h _
  · refine keeps_flatMap fun e => keeps_all_append (keeps_map fun n => fun _ h => execHandlerTeamStart_inv h _ _)
      (keeps_flatMap fun d => keeps_all_append (keeps_filterMap fun k a ha => ?_)
        (keeps_ite keeps_nil (keeps_one fun _ h => execReleaseRecordWrite_inv h _ _)))
    split at ha <;> cases ha
    exact fun _ h => execOrderedRelease_inv h _ _ _
  · refine keeps_flatMap fun e => keeps_all_append (keeps_all_append (keeps_ite (keeps_one fun _ h => execExactStop_inv h _) keeps_nil) ?_) ?_
    · split
      · exact keeps_nil
      · split
        · exact keeps_one fun _ h => execTeamRestore_inv h _ _
        · exact keeps_nil
    · split
      · exact keeps_one fun _ h => execDigestCompare_inv h _
      · exact keeps_nil

theorem State.drover_keep (s : State) : ∀ a ∈ s.drover, Keeps P a := by
  unfold State.drover
  refine keeps_all_append (keeps_all_append (keeps_all_append (keeps_all_append (keeps_all_append (keeps_all_append ?_ ?_) ?_) ?_) ?_) ?_) ?_
  · refine keeps_filterMap fun e a ha => ?_
    split at ha <;> cases ha
    exact fun _ h => execWeightPortWrite_inv h _
  · refine keeps_filterMap fun e a ha => ?_
    split at ha <;> cases ha
    exact fun _ h => execHoldListDelivery_inv h _
  · refine keeps_flatMap fun e => keeps_all_append (keeps_ite keeps_nil (keeps_ite (keeps_one ?_) (keeps_ite (keeps_one ?_) (keeps_one ?_))))
      (keeps_ite (keeps_one ?_) keeps_nil)
    · exact fun _ h => execReprojectionComplete_inv h _
    · exact fun _ h => execMarkerComplete_inv h _
    · exact fun _ h => execGridComplete_inv h _
    · exact fun _ h => execTeamPlace_inv h _
  · refine keeps_flatMap fun e => keeps_all_append (keeps_filterMap fun b a ha => ?_) (keeps_ite keeps_nil (keeps_one ?_))
    · split at ha <;> cases ha
      exact fun _ h => execBinLaunch_inv h _ _
    · exact fun _ h => execOwnerPop_inv h _
  · exact keeps_ite keeps_nil (keeps_map fun c => fun _ h => execThiefSteal_inv h _)
  · split
    · exact keeps_one fun _ h => execDroverTakePacket_inv h _
    · exact keeps_nil
  · refine keeps_flatMap fun e => ?_
    split
    · exact keeps_map fun v => fun _ h => execSpatialPreemption_inv h _ _
    · exact keeps_nil

theorem State.serviceStep_keep (s : State) : ∀ a ∈ s.serviceStep, Keeps P a := by
  unfold State.serviceStep
  split
  · exact keeps_nil
  · extract_lets m item
    refine keeps_one ?_
    split
    · exact fun _ h => execCtxcreate_inv h _
    · exact fun _ h => execCtxsetSavePool_inv h _
    · exact fun _ h => execCtxsetGraphRegion_inv h _
    · exact fun _ h => execCtxsetCombineRegion_inv h _
    · exact fun _ h => execCtxsetReleaseQueue_inv h _
    · exact fun _ h => execCtxsetTrapbase_inv h _
    · exact fun _ h => execCtxdestroy_inv h _
    · exact fun _ h => execImgload_inv h _
    · exact fun _ h => execImgdrop_inv h _
    · exact fun _ h => execInval_inv h _
    · exact fun _ h => execHostrange_inv h _
    · exact fun _ h => execSave_inv h _
    · exact fun _ h => execRestore_inv h _
    · exact fun _ h => execQuiesce_inv h _
    · exact fun _ h => execPowerP0_inv h _
    · exact fun _ h => execPowerP1_inv h _
    · exact fun _ h => execPowerPark_inv h _
    · exact fun _ h => execWload_inv h _
    · exact fun _ h => execUnlistedServiceOp_inv h _

theorem State.timers_keep (s : State) : ∀ e ∈ s.timers, Keeps P e.2 := by
  unfold State.timers
  intro e he
  simp only [List.mem_append, List.mem_flatMap, List.mem_filterMap] at he
  rcases he with (((((he | he) | he) | he) | he) | he) | he
  · obtain ⟨t, -, he | he⟩ := he
    · obtain ⟨x, -, hx⟩ := he
      cases h : x.2.timer <;> rw [h] at hx <;> simp at hx
      rw [← hx]; exact fun _ h => execRegroupTimerExpiry_inv h _ _
    · split at he
      · simp at he; rw [he]; exact fun _ h => execSaveBoundExpiry_inv h _
      · simp at he
  · obtain ⟨c, -, b, -, hb⟩ := he
    split at hb <;> simp at hb
    rw [← hb]; exact fun _ h => execBinTimerExpiry_inv h _ _
  · obtain ⟨c, -, d, -, k, -, hk⟩ := he
    split at hk <;> simp at hk
    rw [← hk]; exact fun _ h => execSlotTimerExpiry_inv h _ _ _
  · obtain ⟨o, -, ho⟩ := he
    split at ho <;> simp at ho
    rw [← ho]; exact fun _ h => execRemoteAckTimeout_inv h _
  · obtain ⟨g, -, he | he⟩ := he
    · split at he
      · simp at he; rw [he]; exact fun _ h => execWatchdogExpiry_inv h _
      · simp at he
    · split at he
      · simp at he
      · simp at he; rw [he]; exact fun _ h => execPreemptionWaitExpiry_inv h _
  · obtain ⟨q, -, hq⟩ := he
    split at hq <;> simp at hq
    rw [← hq]; exact fun _ h => execEffectivePriorityAgeing_inv h _
  · obtain ⟨d, -, hd⟩ := he
    obtain ⟨p, -, rfl⟩ := Option.map_eq_some_iff.1 hd
    exact fun _ h => execWeightRefreshWindow_inv h _

theorem State.firstOf_inv {s t : State} (h : s.InvOn P) {l : List Action} (hl : ∀ a ∈ l, Keeps P a) (e : s.firstOf l = some t) :
    t.InvOn P := by
  induction l with
  | nil => cases e
  | cons a l ih =>
    unfold State.firstOf at e
    split at e
    · rename_i u hu
      cases e
      exact hl a (List.mem_cons_self ..) s h _ hu
    · exact ih (fun b hb => hl b (List.mem_cons_of_mem _ hb)) e

theorem mem_insertBy {α : Type} {key : α → Nat} {a b : α} {l : List α} (h : b ∈ insertBy key a l) : b = a ∨ b ∈ l := by
  induction l with
  | nil => simpa [insertBy] using h
  | cons c l ih =>
    unfold insertBy at h
    split at h
    · simpa using h
    · rcases List.mem_cons.1 h with h | h
      · exact .inr (by simp [h])
      · rcases ih h with h | h
        · exact .inl h
        · exact .inr (List.mem_cons_of_mem _ h)

theorem mem_sortBy {α : Type} {key : α → Nat} {b : α} {l : List α} (h : b ∈ sortBy key l) : b ∈ l := by
  induction l with
  | nil => exact h
  | cons a l ih =>
    rcases mem_insertBy h with h | h
    · simp [h]
    · exact List.mem_cons_of_mem _ (ih h)

theorem State.issueWord_inv (hx : ∀ i (t : State), t.InvOn P → OutInv P (exec i t)) {s : State} (h : s.InvOn P) (g : Nat) (ls : List Nat)
    (i : Instr) : OutInv P (s.issueWord g ls i) := by
  unfold State.issueWord
  extract_lets c stay s' ls'
  have hs : s'.InvOn P := ite_inv h (Inv_of_kept (by simp) h)
  refine outInv_ite (outInv_next (Inv_of_kept (by simp) h)) ?_
  split
  · rename_i t e
    exact afterWord_inv hs (hx _ _ (Inv_of_kept (focusOn_kept ..) hs) _ e) _ _
  · exact hx _ _ (Inv_of_kept (focusOn_kept ..) hs)

theorem State.issueOf_inv (hx : ∀ i (t : State), t.InvOn P → OutInv P (exec i t)) {s : State} (h : s.InvOn P) {g l : Nat} {resume : List Nat}
    {o : Out State} (e : s.issueOf g l resume = some o) : OutInv P o := by
  unfold State.issueOf at e
  split at e
  · cases e
  · extract_lets u at e
    have hu : u.InvOn P := foldl_inv (fun _ _ hv => finishHalves_inv hv _ _) _ h
    split at e
    · cases e
      unfold State.word
      extract_lets c
      split
      · exact outInv_ite (outInv_next (Inv_of_kept (abandonCheck_kept ..) hu)) (outInv_next (Inv_of_kept (modGroup_kept ..) hu))
      · exact issueWord_inv hx hu _ _ _
    · exact passHeader_inv hu e

theorem State.firstIssue_inv (hx : ∀ i (t : State), t.InvOn P → OutInv P (exec i t)) {s : State} (h : s.InvOn P) {l : List (Nat × Nat)}
    {o : Out State} (e : s.firstIssue l = some o) : OutInv P o := by
  induction l with
  | nil => cases e
  | cons p l ih =>
    unfold State.firstIssue at e
    split at e
    · rename_i e1
      cases e
      exact issueOf_inv hx h e1
    · exact ih e

end Sys2Proof.Machine
end

