-- ==== Sys2Proof/Laws/PerInstr.lean ====
section
/-!
SUPPORT. The family `Words`: what the encoder gives for an instruction, constructor by constructor. An instruction word of the part is one code
word or two (R127, R128, R129); a device step has none.
-/

namespace Sys2Proof.Laws

/-- An instruction that a code word encodes has words, and no instruction has more than two (R127, R128, R129). -/
def Words.Statement (i : Instr) : Prop := (i.isWord = true → encode i ≠ []) ∧ (encode i).length ≤ 2

theorem Words.iadd (f : AddForm) (d : VField) (a : VField) (b : BOp) : Words.Statement (.iadd f d a b) := by
  cases b <;> exact ⟨fun _ => List.cons_ne_nil _ _, Nat.le_of_ble_eq_true rfl⟩
theorem Words.isub (f : AddForm) (d : VField) (a : VField) (b : BOp) : Words.Statement (.isub f d a b) := by
  cases b <;> exact ⟨fun _ => List.cons_ne_nil _ _, Nat.le_of_ble_eq_true rfl⟩
theorem Words.imul (f : MulForm) (d : VField) (a : VField) (b : BOp) : Words.Statement (.imul f d a b) := by
  cases b <;> exact ⟨fun _ => List.cons_ne_nil _ _, Nat.le_of_ble_eq_true rfl⟩
theorem Words.imad (wide : Bool) (d : VField) (a : VField) (b : BOp) : Words.Statement (.imad wide d a b) := by
  cases b <;> exact ⟨fun _ => List.cons_ne_nil _ _, Nat.le_of_ble_eq_true rfl⟩
theorem Words.imin (uns : Bool) (d : VField) (a : VField) (b : BOp) : Words.Statement (.imin uns d a b) := by
  cases b <;> exact ⟨fun _ => List.cons_ne_nil _ _, Nat.le_of_ble_eq_true rfl⟩
theorem Words.imax (uns : Bool) (d : VField) (a : VField) (b : BOp) : Words.Statement (.imax uns d a b) := by
  cases b <;> exact ⟨fun _ => List.cons_ne_nil _ _, Nat.le_of_ble_eq_true rfl⟩
theorem Words.and (d : VField) (a : VField) (b : BOp) : Words.Statement (.and d a b) := by
  cases b <;> exact ⟨fun _ => List.cons_ne_nil _ _, Nat.le_of_ble_eq_true rfl⟩
theorem Words.andn (d : VField) (a : VField) (b : BOp) : Words.Statement (.andn d a b) := by
  cases b <;> exact ⟨fun _ => List.cons_ne_nil _ _, Nat.le_of_ble_eq_true rfl⟩
theorem Words.or (d : VField) (a : VField) (b : BOp) : Words.Statement (.or d a b) := by
  cases b <;> exact ⟨fun _ => List.cons_ne_nil _ _, Nat.le_of_ble_eq_true rfl⟩
theorem Words.orn (d : VField) (a : VField) (b : BOp) : Words.Statement (.orn d a b) := by
  cases b <;> exact ⟨fun _ => List.cons_ne_nil _ _, Nat.le_of_ble_eq_true rfl⟩
theorem Words.xor (d : VField) (a : VField) (b : BOp) : Words.Statement (.xor d a b) := by
  cases b <;> exact ⟨fun _ => List.cons_ne_nil _ _, Nat.le_of_ble_eq_true rfl⟩
theorem Words.shl (wide : Bool) (d : VField) (a : VField) (b : BOp) : Words.Statement (.shl wide d a b) := by
  cases b <;> exact ⟨fun _ => List.cons_ne_nil _ _, Nat.le_of_ble_eq_true rfl⟩
theorem Words.shr (wide : Bool) (d : VField) (a : VField) (b : BOp) : Words.Statement (.shr wide d a b) := by
  cases b <;> exact ⟨fun _ => List.cons_ne_nil _ _, Nat.le_of_ble_eq_true rfl⟩
theorem Words.sar (wide : Bool) (d : VField) (a : VField) (b : BOp) : Words.Statement (.sar wide d a b) := by
  cases b <;> exact ⟨fun _ => List.cons_ne_nil _ _, Nat.le_of_ble_eq_true rfl⟩
theorem Words.rotl (wide : Bool) (d : VField) (a : VField) (b : BOp) : Words.Statement (.rotl wide d a b) := by
  cases b <;> exact ⟨fun _ => List.cons_ne_nil _ _, Nat.le_of_ble_eq_true rfl⟩
theorem Words.clz (d : VField) (a : VField) : Words.Statement (.clz d a) := ⟨fun _ => List.cons_ne_nil _ _, Nat.le_of_ble_eq_true rfl⟩
theorem Words.popc (d : VField) (a : VField) : Words.Statement (.popc d a) := ⟨fun _ => List.cons_ne_nil _ _, Nat.le_of_ble_eq_true rfl⟩
theorem Words.brev (d : VField) (a : VField) : Words.Statement (.brev d a) := ⟨fun _ => List.cons_ne_nil _ _, Nat.le_of_ble_eq_true rfl⟩
theorem Words.iabs (d : VField) (a : VField) : Words.Statement (.iabs d a) := ⟨fun _ => List.cons_ne_nil _ _, Nat.le_of_ble_eq_true rfl⟩
theorem Words.ineg (d : VField) (a : VField) : Words.Statement (.ineg d a) := ⟨fun _ => List.cons_ne_nil _ _, Nat.le_of_ble_eq_true rfl⟩
theorem Words.not (d : VField) (a : VField) : Words.Statement (.not d a) := ⟨fun _ => List.cons_ne_nil _ _, Nat.le_of_ble_eq_true rfl⟩
theorem Words.bfx (signed : Bool) (d : VField) (a : VField) (b : BOp) : Words.Statement (.bfx signed d a b) := by
  cases b <;> exact ⟨fun _ => List.cons_ne_nil _ _, Nat.le_of_ble_eq_true rfl⟩
theorem Words.bfi (d : VField) (a : VField) (b : BOp) : Words.Statement (.bfi d a b) := by
  cases b <;> exact ⟨fun _ => List.cons_ne_nil _ _, Nat.le_of_ble_eq_true rfl⟩
theorem Words.bitil (three : Bool) (d : VField) (a : VField) : Words.Statement (.bitil three d a) :=
  ⟨fun _ => List.cons_ne_nil _ _, Nat.le_of_ble_eq_true rfl⟩
theorem Words.bitdl (f : DealForm) (d : VField) (a : VField) : Words.Statement (.bitdl f d a) :=
  ⟨fun _ => List.cons_ne_nil _ _, Nat.le_of_ble_eq_true rfl⟩
theorem Words.icmp (c : ICond) (d : PField) (a : VField) (b : BOp) : Words.Statement (.icmp c d a b) := by
  cases b <;> exact ⟨fun _ => List.cons_ne_nil _ _, Nat.le_of_ble_eq_true rfl⟩
theorem Words.isel (p : PField) (d : VField) (a : VField) (b : BOp) : Words.Statement (.isel p d a b) := by
  cases b <;> exact ⟨fun _ => List.cons_ne_nil _ _, Nat.le_of_ble_eq_true rfl⟩
theorem Words.iaddc (p : PField) (d : VField) (a : VField) (b : BOp) : Words.Statement (.iaddc p d a b) := by
  cases b <;> exact ⟨fun _ => List.cons_ne_nil _ _, Nat.le_of_ble_eq_true rfl⟩
theorem Words.mov (d : VField) (a : VField) : Words.Statement (.mov d a) := ⟨fun _ => List.cons_ne_nil _ _, Nat.le_of_ble_eq_true rfl⟩
theorem Words.movVS (d : VField) (a : SField) : Words.Statement (.movVS d a) :=
  ⟨fun _ => List.cons_ne_nil _ _, Nat.le_of_ble_eq_true rfl⟩
theorem Words.movSV (d : SField) (a : VField) (b : BOp) : Words.Statement (.movSV d a b) := by
  cases b <;> exact ⟨fun _ => List.cons_ne_nil _ _, Nat.le_of_ble_eq_true rfl⟩
theorem Words.movPP (d : PField) (a : PField) : Words.Statement (.movPP d a) :=
  ⟨fun _ => List.cons_ne_nil _ _, Nat.le_of_ble_eq_true rfl⟩
theorem Words.movSS (d : SField) (a : SField) : Words.Statement (.movSS d a) :=
  ⟨fun _ => List.cons_ne_nil _ _, Nat.le_of_ble_eq_true rfl⟩
theorem Words.movVP (d : VField) (a : PField) : Words.Statement (.movVP d a) :=
  ⟨fun _ => List.cons_ne_nil _ _, Nat.le_of_ble_eq_true rfl⟩
theorem Words.movPV (d : PField) (a : VField) : Words.Statement (.movPV d a) :=
  ⟨fun _ => List.cons_ne_nil _ _, Nat.le_of_ble_eq_true rfl⟩
theorem Words.pand (d : PField) (a : PField) (b : POp) : Words.Statement (.pand d a b) := by
  cases b <;> exact ⟨fun _ => List.cons_ne_nil _ _, Nat.le_of_ble_eq_true rfl⟩
theorem Words.por (d : PField) (a : PField) (b : POp) : Words.Statement (.por d a b) := by
  cases b <;> exact ⟨fun _ => List.cons_ne_nil _ _, Nat.le_of_ble_eq_true rfl⟩
theorem Words.pxor (d : PField) (a : PField) (b : POp) : Words.Statement (.pxor d a b) := by
  cases b <;> exact ⟨fun _ => List.cons_ne_nil _ _, Nat.le_of_ble_eq_true rfl⟩
theorem Words.pnot (d : PField) (a : PField) : Words.Statement (.pnot d a) := ⟨fun _ => List.cons_ne_nil _ _, Nat.le_of_ble_eq_true rfl⟩
theorem Words.iaddi (d : VField) (a : VField) (imm : BitVec 11) : Words.Statement (.iaddi d a imm) :=
  ⟨fun _ => List.cons_ne_nil _ _, Nat.le_of_ble_eq_true rfl⟩
theorem Words.andi (d : VField) (a : VField) (imm : BitVec 11) : Words.Statement (.andi d a imm) :=
  ⟨fun _ => List.cons_ne_nil _ _, Nat.le_of_ble_eq_true rfl⟩
theorem Words.ori (d : VField) (a : VField) (imm : BitVec 11) : Words.Statement (.ori d a imm) :=
  ⟨fun _ => List.cons_ne_nil _ _, Nat.le_of_ble_eq_true rfl⟩
theorem Words.xori (d : VField) (a : VField) (imm : BitVec 11) : Words.Statement (.xori d a imm) :=
  ⟨fun _ => List.cons_ne_nil _ _, Nat.le_of_ble_eq_true rfl⟩
theorem Words.shli (d : VField) (a : VField) (imm : BitVec 11) : Words.Statement (.shli d a imm) :=
  ⟨fun _ => List.cons_ne_nil _ _, Nat.le_of_ble_eq_true rfl⟩
theorem Words.shri (d : VField) (a : VField) (imm : BitVec 11) : Words.Statement (.shri d a imm) :=
  ⟨fun _ => List.cons_ne_nil _ _, Nat.le_of_ble_eq_true rfl⟩
theorem Words.sari (d : VField) (a : VField) (imm : BitVec 11) : Words.Statement (.sari d a imm) :=
  ⟨fun _ => List.cons_ne_nil _ _, Nat.le_of_ble_eq_true rfl⟩
theorem Words.muli (d : VField) (a : VField) (imm : BitVec 11) : Words.Statement (.muli d a imm) :=
  ⟨fun _ => List.cons_ne_nil _ _, Nat.le_of_ble_eq_true rfl⟩
theorem Words.movi (d : VField) (imm : BitVec 18) : Words.Statement (.movi d imm) :=
  ⟨fun _ => List.cons_ne_nil _ _, Nat.le_of_ble_eq_true rfl⟩
theorem Words.movh (d : VField) (imm : BitVec 18) : Words.Statement (.movh d imm) :=
  ⟨fun _ => List.cons_ne_nil _ _, Nat.le_of_ble_eq_true rfl⟩
theorem Words.smovi (d : SField) (imm : BitVec 18) : Words.Statement (.smovi d imm) :=
  ⟨fun _ => List.cons_ne_nil _ _, Nat.le_of_ble_eq_true rfl⟩
theorem Words.sadd (d : SField) (a : SField) (b : BOp) : Words.Statement (.sadd d a b) := by
  cases b <;> exact ⟨fun _ => List.cons_ne_nil _ _, Nat.le_of_ble_eq_true rfl⟩
theorem Words.ssub (d : SField) (a : SField) (b : BOp) : Words.Statement (.ssub d a b) := by
  cases b <;> exact ⟨fun _ => List.cons_ne_nil _ _, Nat.le_of_ble_eq_true rfl⟩
theorem Words.smul (d : SField) (a : SField) (b : BOp) : Words.Statement (.smul d a b) := by
  cases b <;> exact ⟨fun _ => List.cons_ne_nil _ _, Nat.le_of_ble_eq_true rfl⟩
theorem Words.sand (d : SField) (a : SField) (b : BOp) : Words.Statement (.sand d a b) := by
  cases b <;> exact ⟨fun _ => List.cons_ne_nil _ _, Nat.le_of_ble_eq_true rfl⟩
theorem Words.sor (d : SField) (a : SField) (b : BOp) : Words.Statement (.sor d a b) := by
  cases b <;> exact ⟨fun _ => List.cons_ne_nil _ _, Nat.le_of_ble_eq_true rfl⟩
theorem Words.sxor (d : SField) (a : SField) (b : BOp) : Words.Statement (.sxor d a b) := by
  cases b <;> exact ⟨fun _ => List.cons_ne_nil _ _, Nat.le_of_ble_eq_true rfl⟩
theorem Words.sshl (d : SField) (a : SField) (b : BOp) : Words.Statement (.sshl d a b) := by
  cases b <;> exact ⟨fun _ => List.cons_ne_nil _ _, Nat.le_of_ble_eq_true rfl⟩
theorem Words.sshr (d : SField) (a : SField) (b : BOp) : Words.Statement (.sshr d a b) := by
  cases b <;> exact ⟨fun _ => List.cons_ne_nil _ _, Nat.le_of_ble_eq_true rfl⟩
theorem Words.smin (d : SField) (a : SField) (b : BOp) : Words.Statement (.smin d a b) := by
  cases b <;> exact ⟨fun _ => List.cons_ne_nil _ _, Nat.le_of_ble_eq_true rfl⟩
theorem Words.smax (d : SField) (a : SField) (b : BOp) : Words.Statement (.smax d a b) := by
  cases b <;> exact ⟨fun _ => List.cons_ne_nil _ _, Nat.le_of_ble_eq_true rfl⟩
theorem Words.sadd64 (d : SField) (a : SField) (b : BOp) : Words.Statement (.sadd64 d a b) := by
  cases b <;> exact ⟨fun _ => List.cons_ne_nil _ _, Nat.le_of_ble_eq_true rfl⟩
theorem Words.saddi (d : SField) (a : SField) (imm : BitVec 11) : Words.Statement (.saddi d a imm) :=
  ⟨fun _ => List.cons_ne_nil _ _, Nat.le_of_ble_eq_true rfl⟩
theorem Words.scmp (c : ICond) (d : PField) (a : SField) (b : BOp) : Words.Statement (.scmp c d a b) := by
  cases b <;> exact ⟨fun _ => List.cons_ne_nil _ _, Nat.le_of_ble_eq_true rfl⟩
theorem Words.fadd (sat : Bool) (m : RMode) (d : VField) (a : VField) (b : BOp) : Words.Statement (.fadd sat m d a b) := by
  cases b <;> exact ⟨fun _ => List.cons_ne_nil _ _, Nat.le_of_ble_eq_true rfl⟩
theorem Words.fsub (sat : Bool) (m : RMode) (d : VField) (a : VField) (b : BOp) : Words.Statement (.fsub sat m d a b) := by
  cases b <;> exact ⟨fun _ => List.cons_ne_nil _ _, Nat.le_of_ble_eq_true rfl⟩
theorem Words.fmul (sat : Bool) (m : RMode) (d : VField) (a : VField) (b : BOp) : Words.Statement (.fmul sat m d a b) := by
  cases b <;> exact ⟨fun _ => List.cons_ne_nil _ _, Nat.le_of_ble_eq_true rfl⟩
theorem Words.ffma (sat : Bool) (m : RMode) (d : VField) (a : VField) (b : BOp) : Words.Statement (.ffma sat m d a b) := by
  cases b <;> exact ⟨fun _ => List.cons_ne_nil _ _, Nat.le_of_ble_eq_true rfl⟩
theorem Words.fmin (num : Bool) (d : VField) (a : VField) (b : BOp) : Words.Statement (.fmin num d a b) := by
  cases b <;> exact ⟨fun _ => List.cons_ne_nil _ _, Nat.le_of_ble_eq_true rfl⟩
theorem Words.fmax (num : Bool) (d : VField) (a : VField) (b : BOp) : Words.Statement (.fmax num d a b) := by
  cases b <;> exact ⟨fun _ => List.cons_ne_nil _ _, Nat.le_of_ble_eq_true rfl⟩
theorem Words.fcmp (c : FCond) (d : PField) (a : VField) (b : BOp) : Words.Statement (.fcmp c d a b) := by
  cases b <;> exact ⟨fun _ => List.cons_ne_nil _ _, Nat.le_of_ble_eq_true rfl⟩
theorem Words.fabs (d : VField) (a : VField) : Words.Statement (.fabs d a) := ⟨fun _ => List.cons_ne_nil _ _, Nat.le_of_ble_eq_true rfl⟩
theorem Words.fneg (d : VField) (a : VField) : Words.Statement (.fneg d a) := ⟨fun _ => List.cons_ne_nil _ _, Nat.le_of_ble_eq_true rfl⟩
theorem Words.fcpys (d : VField) (a : VField) (b : BOp) : Words.Statement (.fcpys d a b) := by
  cases b <;> exact ⟨fun _ => List.cons_ne_nil _ _, Nat.le_of_ble_eq_true rfl⟩
theorem Words.frcp (d : VField) (a : VField) : Words.Statement (.frcp d a) := ⟨fun _ => List.cons_ne_nil _ _, Nat.le_of_ble_eq_true rfl⟩
theorem Words.frsq (d : VField) (a : VField) : Words.Statement (.frsq d a) := ⟨fun _ => List.cons_ne_nil _ _, Nat.le_of_ble_eq_true rfl⟩
theorem Words.fsqrt (d : VField) (a : VField) : Words.Statement (.fsqrt d a) :=
  ⟨fun _ => List.cons_ne_nil _ _, Nat.le_of_ble_eq_true rfl⟩
theorem Words.flog2 (d : VField) (a : VField) : Words.Statement (.flog2 d a) :=
  ⟨fun _ => List.cons_ne_nil _ _, Nat.le_of_ble_eq_true rfl⟩
theorem Words.fexp2 (d : VField) (a : VField) : Words.Statement (.fexp2 d a) :=
  ⟨fun _ => List.cons_ne_nil _ _, Nat.le_of_ble_eq_true rfl⟩
theorem Words.fsin (d : VField) (a : VField) : Words.Statement (.fsin d a) := ⟨fun _ => List.cons_ne_nil _ _, Nat.le_of_ble_eq_true rfl⟩
theorem Words.fcos (d : VField) (a : VField) : Words.Statement (.fcos d a) := ⟨fun _ => List.cons_ne_nil _ _, Nat.le_of_ble_eq_true rfl⟩
theorem Words.ftanh (d : VField) (a : VField) : Words.Statement (.ftanh d a) :=
  ⟨fun _ => List.cons_ne_nil _ _, Nat.le_of_ble_eq_true rfl⟩
theorem Words.padd2 (bf16 : Bool) (d : VField) (a : VField) (b : BOp) : Words.Statement (.padd2 bf16 d a b) := by
  cases b <;> exact ⟨fun _ => List.cons_ne_nil _ _, Nat.le_of_ble_eq_true rfl⟩
theorem Words.pmul2 (bf16 : Bool) (d : VField) (a : VField) (b : BOp) : Words.Statement (.pmul2 bf16 d a b) := by
  cases b <;> exact ⟨fun _ => List.cons_ne_nil _ _, Nat.le_of_ble_eq_true rfl⟩
theorem Words.pfma2 (bf16 : Bool) (d : VField) (a : VField) (b : BOp) : Words.Statement (.pfma2 bf16 d a b) := by
  cases b <;> exact ⟨fun _ => List.cons_ne_nil _ _, Nat.le_of_ble_eq_true rfl⟩
theorem Words.fcvt (m : RMode) (sel : CvtSel) (d : VField) (a : VField) : Words.Statement (.fcvt m sel d a) :=
  ⟨fun _ => List.cons_ne_nil _ _, Nat.le_of_ble_eq_true rfl⟩
theorem Words.fcvts (f : NarrowFmt) (d : VField) (a : VField) (b : BOp) : Words.Statement (.fcvts f d a b) := by
  cases b <;> exact ⟨fun _ => List.cons_ne_nil _ _, Nat.le_of_ble_eq_true rfl⟩
theorem Words.qcvt (q : QuantFmt) (hadamard : Bool) (n32 : Bool) (d : VField) (a : VField) : Words.Statement (.qcvt q hadamard n32 d a) :=
  ⟨fun _ => List.cons_ne_nil _ _, Nat.le_of_ble_eq_true rfl⟩
theorem Words.qamax (n32 : Bool) (d : VField) (a : VField) : Words.Statement (.qamax n32 d a) :=
  ⟨fun _ => List.cons_ne_nil _ _, Nat.le_of_ble_eq_true rfl⟩
theorem Words.vqdec (table : BitVec 2) (d : VField) (a : VField) : Words.Statement (.vqdec table d a) :=
  ⟨fun _ => List.cons_ne_nil _ _, Nat.le_of_ble_eq_true rfl⟩
theorem Words.shfl (w : ShflWidth) (m : ShflMode) (d : VField) (a : VField) (b : BOp) : Words.Statement (.shfl w m d a b) := by
  cases b <;> exact ⟨fun _ => List.cons_ne_nil _ _, Nat.le_of_ble_eq_true rfl⟩
theorem Words.voteAny (d : PField) (a : PField) : Words.Statement (.voteAny d a) :=
  ⟨fun _ => List.cons_ne_nil _ _, Nat.le_of_ble_eq_true rfl⟩
theorem Words.voteAll (d : PField) (a : PField) : Words.Statement (.voteAll d a) :=
  ⟨fun _ => List.cons_ne_nil _ _, Nat.le_of_ble_eq_true rfl⟩
theorem Words.voteBallot (d : SField) (a : PField) : Words.Statement (.voteBallot d a) :=
  ⟨fun _ => List.cons_ne_nil _ _, Nat.le_of_ble_eq_true rfl⟩
theorem Words.voteCount (d : VField) (a : PField) : Words.Statement (.voteCount d a) :=
  ⟨fun _ => List.cons_ne_nil _ _, Nat.le_of_ble_eq_true rfl⟩
theorem Words.reduce (op : RedOp) (d : SField) (a : VField) (b : POp) : Words.Statement (.reduce op d a b) := by
  cases b <;> exact ⟨fun _ => List.cons_ne_nil _ _, Nat.le_of_ble_eq_true rfl⟩
theorem Words.scan (excl : Bool) (op : ScanOp) (d : VField) (a : VField) (b : POp) : Words.Statement (.scan excl op d a b) := by
  cases b <;> exact ⟨fun _ => List.cons_ne_nil _ _, Nat.le_of_ble_eq_true rfl⟩
theorem Words.envrd (d : VField) (index : BitVec 18) : Words.Statement (.envrd d index) :=
  ⟨fun _ => List.cons_ne_nil _ _, Nat.le_of_ble_eq_true rfl⟩
theorem Words.elect (d : PField) : Words.Statement (.elect d) := ⟨fun _ => List.cons_ne_nil _ _, Nat.le_of_ble_eq_true rfl⟩
theorem Words.bra (c : BraCond) (ofs : BitVec 14) : Words.Statement (.bra c ofs) := by
  cases c <;> exact ⟨fun _ => List.cons_ne_nil _ _, Nat.le_of_ble_eq_true rfl⟩
theorem Words.jmp (ofs : BitVec 25) : Words.Statement (.jmp ofs) := ⟨fun _ => List.cons_ne_nil _ _, Nat.le_of_ble_eq_true rfl⟩
theorem Words.call (ofs : BitVec 25) : Words.Statement (.call ofs) := ⟨fun _ => List.cons_ne_nil _ _, Nat.le_of_ble_eq_true rfl⟩
theorem Words.jmpi (a : VField) : Words.Statement (.jmpi a) := ⟨fun _ => List.cons_ne_nil _ _, Nat.le_of_ble_eq_true rfl⟩
theorem Words.calli (d : VField) (a : VField) : Words.Statement (.calli d a) :=
  ⟨fun _ => List.cons_ne_nil _ _, Nat.le_of_ble_eq_true rfl⟩
theorem Words.nop : Words.Statement .nop := ⟨fun _ => List.cons_ne_nil _ _, Nat.le_of_ble_eq_true rfl⟩
theorem Words.ret (a : VField) : Words.Statement (.ret a) := ⟨fun _ => List.cons_ne_nil _ _, Nat.le_of_ble_eq_true rfl⟩
theorem Words.exit : Words.Statement .exit := ⟨fun _ => List.cons_ne_nil _ _, Nat.le_of_ble_eq_true rfl⟩
theorem Words.yield : Words.Statement .yield := ⟨fun _ => List.cons_ne_nil _ _, Nat.le_of_ble_eq_true rfl⟩
theorem Words.enrol (k : KField) : Words.Statement (.enrol k) := ⟨fun _ => List.cons_ne_nil _ _, Nat.le_of_ble_eq_true rfl⟩
theorem Words.join (k : KField) : Words.Statement (.join k) := ⟨fun _ => List.cons_ne_nil _ _, Nat.le_of_ble_eq_true rfl⟩
theorem Words.leave (k : KField) : Words.Statement (.leave k) := ⟨fun _ => List.cons_ne_nil _ _, Nat.le_of_ble_eq_true rfl⟩
theorem Words.brp (ifPending : Bool) (p : VField) (ofs : BitVec 14) : Words.Statement (.brp ifPending p ofs) :=
  ⟨fun _ => List.cons_ne_nil _ _, Nat.le_of_ble_eq_true rfl⟩
theorem Words.wbase (n : BitVec 7) : Words.Statement (.wbase n) := ⟨fun _ => List.cons_ne_nil _ _, Nat.le_of_ble_eq_true rfl⟩
theorem Words.vfree (a : VField) (n : BitVec 7) : Words.Statement (.vfree a n) :=
  ⟨fun _ => List.cons_ne_nil _ _, Nat.le_of_ble_eq_true rfl⟩
theorem Words.regroup : Words.Statement .regroup := ⟨fun _ => List.cons_ne_nil _ _, Nat.le_of_ble_eq_true rfl⟩
theorem Words.pend (a : VField) : Words.Statement (.pend a) := ⟨fun _ => List.cons_ne_nil _ _, Nat.le_of_ble_eq_true rfl⟩
theorem Words.ld (acq : Bool) (z : Size) (d : VField) (a : VField) (b : BOp) : Words.Statement (.ld acq z d a b) := by
  cases b <;> exact ⟨fun _ => List.cons_ne_nil _ _, Nat.le_of_ble_eq_true rfl⟩
theorem Words.st (rel : Bool) (z : Size) (d : VField) (a : VField) (b : BOp) : Words.Statement (.st rel z d a b) := by
  cases b <;> exact ⟨fun _ => List.cons_ne_nil _ _, Nat.le_of_ble_eq_true rfl⟩
theorem Words.lds (z : Size) (d : VField) (a : VField) (b : BOp) : Words.Statement (.lds z d a b) := by
  cases b <;> exact ⟨fun _ => List.cons_ne_nil _ _, Nat.le_of_ble_eq_true rfl⟩
theorem Words.sts (z : Size) (d : VField) (a : VField) (b : BOp) : Words.Statement (.sts z d a b) := by
  cases b <;> exact ⟨fun _ => List.cons_ne_nil _ _, Nat.le_of_ble_eq_true rfl⟩
theorem Words.ldu (z : Size) (d : SField) (a : SField) (b : BOp) : Words.Statement (.ldu z d a b) := by
  cases b <;> exact ⟨fun _ => List.cons_ne_nil _ _, Nat.le_of_ble_eq_true rfl⟩
theorem Words.atom (op : AtomOp) (nr : Bool) (wide : Bool) (o : Ord) (sc : Scope) (d : VField) (a : VField) (b : VField) : Words.Statement (.atom op nr wide o sc d a b) :=
  ⟨fun _ => List.cons_ne_nil _ _, Nat.le_of_ble_eq_true rfl⟩
theorem Words.cas (wide : Bool) (o : Ord) (sc : Scope) (d : VField) (a : VField) (b : VField) : Words.Statement (.cas wide o sc d a b) :=
  ⟨fun _ => List.cons_ne_nil _ _, Nat.le_of_ble_eq_true rfl⟩
theorem Words.fenceAcq (sc : Scope) : Words.Statement (.fenceAcq sc) := ⟨fun _ => List.cons_ne_nil _ _, Nat.le_of_ble_eq_true rfl⟩
theorem Words.fenceRel (sc : Scope) : Words.Statement (.fenceRel sc) := ⟨fun _ => List.cons_ne_nil _ _, Nat.le_of_ble_eq_true rfl⟩
theorem Words.fenceFull (sc : Scope) : Words.Statement (.fenceFull sc) := ⟨fun _ => List.cons_ne_nil _ _, Nat.le_of_ble_eq_true rfl⟩
theorem Words.fenceAsync (sc : Scope) : Words.Statement (.fenceAsync sc) := ⟨fun _ => List.cons_ne_nil _ _, Nat.le_of_ble_eq_true rfl⟩
theorem Words.icinv (sc : Scope) : Words.Statement (.icinv sc) := ⟨fun _ => List.cons_ne_nil _ _, Nat.le_of_ble_eq_true rfl⟩
theorem Words.cctlWb (a : VField) (b : BOp) : Words.Statement (.cctlWb a b) := by
  cases b <;> exact ⟨fun _ => List.cons_ne_nil _ _, Nat.le_of_ble_eq_true rfl⟩
theorem Words.cctlInv (a : VField) (b : BOp) : Words.Statement (.cctlInv a b) := by
  cases b <;> exact ⟨fun _ => List.cons_ne_nil _ _, Nat.le_of_ble_eq_true rfl⟩
theorem Words.cctlWbinv (a : VField) (b : BOp) : Words.Statement (.cctlWbinv a b) := by
  cases b <;> exact ⟨fun _ => List.cons_ne_nil _ _, Nat.le_of_ble_eq_true rfl⟩
theorem Words.fetch (d : VField) (a : SField) (b : VField) : Words.Statement (.fetch d a b) :=
  ⟨fun _ => List.cons_ne_nil _ _, Nat.le_of_ble_eq_true rfl⟩
theorem Words.fqry (d : VField) (a : SField) (sel : BitVec 7) : Words.Statement (.fqry d a sel) :=
  ⟨fun _ => List.cons_ne_nil _ _, Nat.le_of_ble_eq_true rfl⟩
theorem Words.tex (d : VField) (a : SField) (b : VField) : Words.Statement (.tex d a b) :=
  ⟨fun _ => List.cons_ne_nil _ _, Nat.le_of_ble_eq_true rfl⟩
theorem Words.rngkey (a : VField) : Words.Statement (.rngkey a) := ⟨fun _ => List.cons_ne_nil _ _, Nat.le_of_ble_eq_true rfl⟩
theorem Words.rng (d : VField) (a : VField) : Words.Statement (.rng d a) := ⟨fun _ => List.cons_ne_nil _ _, Nat.le_of_ble_eq_true rfl⟩
theorem Words.rmask (d : PField) (a : VField) (b : BOp) : Words.Statement (.rmask d a b) := by
  cases b <;> exact ⟨fun _ => List.cons_ne_nil _ _, Nat.le_of_ble_eq_true rfl⟩
theorem Words.cpy (a : SField) : Words.Statement (.cpy a) := ⟨fun _ => List.cons_ne_nil _ _, Nat.le_of_ble_eq_true rfl⟩
theorem Words.chain (a : SField) : Words.Statement (.chain a) := ⟨fun _ => List.cons_ne_nil _ _, Nat.le_of_ble_eq_true rfl⟩
theorem Words.sacqFree (d : VField) (ring : BitVec 4) : Words.Statement (.sacqFree d ring) :=
  ⟨fun _ => List.cons_ne_nil _ _, Nat.le_of_ble_eq_true rfl⟩
theorem Words.sacqFilled (d : VField) (ring : BitVec 4) : Words.Statement (.sacqFilled d ring) :=
  ⟨fun _ => List.cons_ne_nil _ _, Nat.le_of_ble_eq_true rfl⟩
theorem Words.spub (a : VField) (ring : BitVec 4) : Words.Statement (.spub a ring) :=
  ⟨fun _ => List.cons_ne_nil _ _, Nat.le_of_ble_eq_true rfl⟩
theorem Words.sfree (a : VField) (ring : BitVec 4) : Words.Statement (.sfree a ring) :=
  ⟨fun _ => List.cons_ne_nil _ _, Nat.le_of_ble_eq_true rfl⟩
theorem Words.coll (a : SField) : Words.Statement (.coll a) := ⟨fun _ => List.cons_ne_nil _ _, Nat.le_of_ble_eq_true rfl⟩
theorem Words.mma (solo : Bool) (f : MatFmt) (d : AField) (a : TField) (b : SField) : Words.Statement (.mma solo f d a b) :=
  ⟨fun _ => List.cons_ne_nil _ _, Nat.le_of_ble_eq_true rfl⟩
theorem Words.mmasp (solo : Bool) (f : MatFmt) (d : AField) (a : TField) (b : SField) : Words.Statement (.mmasp solo f d a b) :=
  ⟨fun _ => List.cons_ne_nil _ _, Nat.le_of_ble_eq_true rfl⟩
theorem Words.conv (d : AField) (a : SField) (b : SField) : Words.Statement (.conv d a b) :=
  ⟨fun _ => List.cons_ne_nil _ _, Nat.le_of_ble_eq_true rfl⟩
theorem Words.scacc (d : AField) (a : AField) (b : SField) : Words.Statement (.scacc d a b) :=
  ⟨fun _ => List.cons_ne_nil _ _, Nat.le_of_ble_eq_true rfl⟩
theorem Words.aclr (d : AField) (b : BOp) : Words.Statement (.aclr d b) := by
  cases b <;> exact ⟨fun _ => List.cons_ne_nil _ _, Nat.le_of_ble_eq_true rfl⟩
theorem Words.ald (d : AField) (a : SField) (b : BOp) : Words.Statement (.ald d a b) := by
  cases b <;> exact ⟨fun _ => List.cons_ne_nil _ _, Nat.le_of_ble_eq_true rfl⟩
theorem Words.astFp32 (d : AField) (a : SField) : Words.Statement (.astFp32 d a) :=
  ⟨fun _ => List.cons_ne_nil _ _, Nat.le_of_ble_eq_true rfl⟩
theorem Words.astBf16 (d : AField) (a : SField) : Words.Statement (.astBf16 d a) :=
  ⟨fun _ => List.cons_ne_nil _ _, Nat.le_of_ble_eq_true rfl⟩
theorem Words.tld (d : TField) (a : SField) (b : BOp) : Words.Statement (.tld d a b) := by
  cases b <;> exact ⟨fun _ => List.cons_ne_nil _ _, Nat.le_of_ble_eq_true rfl⟩
theorem Words.oprdy : Words.Statement .oprdy := ⟨fun _ => List.cons_ne_nil _ _, Nat.le_of_ble_eq_true rfl⟩
theorem Words.mwait (d : AField) : Words.Statement (.mwait d) := ⟨fun _ => List.cons_ne_nil _ _, Nat.le_of_ble_eq_true rfl⟩
theorem Words.spawn (a : VField) (b : BOp) : Words.Statement (.spawn a b) := by
  cases b <;> exact ⟨fun _ => List.cons_ne_nil _ _, Nat.le_of_ble_eq_true rfl⟩
theorem Words.enq (d : VField) (a : VField) : Words.Statement (.enq d a) := ⟨fun _ => List.cons_ne_nil _ _, Nat.le_of_ble_eq_true rfl⟩
theorem Words.deq (blocking : Bool) (d : VField) (a : VField) : Words.Statement (.deq blocking d a) :=
  ⟨fun _ => List.cons_ne_nil _ _, Nat.le_of_ble_eq_true rfl⟩
theorem Words.depset (d : VField) (a : VField) (b : BOp) : Words.Statement (.depset d a b) := by
  cases b <;> exact ⟨fun _ => List.cons_ne_nil _ _, Nat.le_of_ble_eq_true rfl⟩
theorem Words.depdec (d : VField) (b : BOp) : Words.Statement (.depdec d b) := by
  cases b <;> exact ⟨fun _ => List.cons_ne_nil _ _, Nat.le_of_ble_eq_true rfl⟩
theorem Words.depadd (d : VField) (b : BOp) : Words.Statement (.depadd d b) := by
  cases b <;> exact ⟨fun _ => List.cons_ne_nil _ _, Nat.le_of_ble_eq_true rfl⟩
theorem Words.cmbopen (blocking : Bool) (d : VField) (a : VField) : Words.Statement (.cmbopen blocking d a) :=
  ⟨fun _ => List.cons_ne_nil _ _, Nat.le_of_ble_eq_true rfl⟩
theorem Words.cmbput (d : VField) (a : VField) : Words.Statement (.cmbput d a) :=
  ⟨fun _ => List.cons_ne_nil _ _, Nat.le_of_ble_eq_true rfl⟩
theorem Words.cmbstat (d : VField) (a : VField) : Words.Statement (.cmbstat d a) :=
  ⟨fun _ => List.cons_ne_nil _ _, Nat.le_of_ble_eq_true rfl⟩
theorem Words.cmbclose (a : VField) : Words.Statement (.cmbclose a) := ⟨fun _ => List.cons_ne_nil _ _, Nat.le_of_ble_eq_true rfl⟩
theorem Words.cmbcancel (a : VField) : Words.Statement (.cmbcancel a) := ⟨fun _ => List.cons_ne_nil _ _, Nat.le_of_ble_eq_true rfl⟩
theorem Words.binflush : Words.Statement .binflush := ⟨fun _ => List.cons_ne_nil _ _, Nat.le_of_ble_eq_true rfl⟩
theorem Words.trace (cull : Cull) (any : Bool) (d : VField) (a : VField) (b : SField) : Words.Statement (.trace cull any d a b) :=
  ⟨fun _ => List.cons_ne_nil _ _, Nat.le_of_ble_eq_true rfl⟩
theorem Words.hitget (d : VField) (a : SField) (b : BOp) : Words.Statement (.hitget d a b) := by
  cases b <;> exact ⟨fun _ => List.cons_ne_nil _ _, Nat.le_of_ble_eq_true rfl⟩
theorem Words.vapp (d : VField) (a : VField) (b : BOp) : Words.Statement (.vapp d a b) := by
  cases b <;> exact ⟨fun _ => List.cons_ne_nil _ _, Nat.le_of_ble_eq_true rfl⟩
theorem Words.vconn (d : VField) (a : VField) (b : BOp) : Words.Statement (.vconn d a b) := by
  cases b <;> exact ⟨fun _ => List.cons_ne_nil _ _, Nat.le_of_ble_eq_true rfl⟩
theorem Words.vmrg (d : VField) (a : VField) (b : BOp) : Words.Statement (.vmrg d a b) := by
  cases b <;> exact ⟨fun _ => List.cons_ne_nil _ _, Nat.le_of_ble_eq_true rfl⟩
theorem Words.vmrq (d : VField) (a : VField) (b : BOp) : Words.Statement (.vmrq d a b) := by
  cases b <;> exact ⟨fun _ => List.cons_ne_nil _ _, Nat.le_of_ble_eq_true rfl⟩
theorem Words.vrwtConn (d : VField) (a : VField) (b : BOp) : Words.Statement (.vrwtConn d a b) := by
  cases b <;> exact ⟨fun _ => List.cons_ne_nil _ _, Nat.le_of_ble_eq_true rfl⟩
theorem Words.vrwtMrg (d : VField) (a : VField) (b : BOp) : Words.Statement (.vrwtMrg d a b) := by
  cases b <;> exact ⟨fun _ => List.cons_ne_nil _ _, Nat.le_of_ble_eq_true rfl⟩
theorem Words.fopen (a : SField) : Words.Statement (.fopen a) := ⟨fun _ => List.cons_ne_nil _ _, Nat.le_of_ble_eq_true rfl⟩
theorem Words.fclose (a : SField) : Words.Statement (.fclose a) := ⟨fun _ => List.cons_ne_nil _ _, Nat.le_of_ble_eq_true rfl⟩
theorem Words.eseal (a : SField) : Words.Statement (.eseal a) := ⟨fun _ => List.cons_ne_nil _ _, Nat.le_of_ble_eq_true rfl⟩
theorem Words.vret (a : VField) : Words.Statement (.vret a) := ⟨fun _ => List.cons_ne_nil _ _, Nat.le_of_ble_eq_true rfl⟩
theorem Words.vget (d : VField) (a : VField) (b : BOp) : Words.Statement (.vget d a b) := by
  cases b <;> exact ⟨fun _ => List.cons_ne_nil _ _, Nat.le_of_ble_eq_true rfl⟩
theorem Words.trap (code : BitVec 18) : Words.Statement (.trap code) := ⟨fun _ => List.cons_ne_nil _ _, Nat.le_of_ble_eq_true rfl⟩
theorem Words.sysrd (d : VField) (index : BitVec 11) : Words.Statement (.sysrd d index) :=
  ⟨fun _ => List.cons_ne_nil _ _, Nat.le_of_ble_eq_true rfl⟩
theorem Words.syswrTrapbase (a : VField) : Words.Statement (.syswrTrapbase a) :=
  ⟨fun _ => List.cons_ne_nil _ _, Nat.le_of_ble_eq_true rfl⟩
theorem Words.syswrLattice (n : BitVec 2) (a : VField) : Words.Statement (.syswrLattice n a) :=
  ⟨fun _ => List.cons_ne_nil _ _, Nat.le_of_ble_eq_true rfl⟩
theorem Words.regionstatClearRegion (a : VField) : Words.Statement (.regionstatClearRegion a) :=
  ⟨fun _ => List.cons_ne_nil _ _, Nat.le_of_ble_eq_true rfl⟩
theorem Words.regionstatClearOvf (a : VField) : Words.Statement (.regionstatClearOvf a) :=
  ⟨fun _ => List.cons_ne_nil _ _, Nat.le_of_ble_eq_true rfl⟩
theorem Words.syswrPerfctl (a : VField) : Words.Statement (.syswrPerfctl a) := ⟨fun _ => List.cons_ne_nil _ _, Nat.le_of_ble_eq_true rfl⟩
theorem Words.syswrPerfcnt (n : BitVec 3) (a : VField) : Words.Statement (.syswrPerfcnt n a) :=
  ⟨fun _ => List.cons_ne_nil _ _, Nat.le_of_ble_eq_true rfl⟩
theorem Words.syswrWschedcfg (a : VField) : Words.Statement (.syswrWschedcfg a) :=
  ⟨fun _ => List.cons_ne_nil _ _, Nat.le_of_ble_eq_true rfl⟩
theorem Words.syswrDetsel (a : VField) : Words.Statement (.syswrDetsel a) := ⟨fun _ => List.cons_ne_nil _ _, Nat.le_of_ble_eq_true rfl⟩
theorem Words.syswrOther (index : BitVec 11) (a : VField) : Words.Statement (.syswrOther index a) :=
  ⟨fun _ => List.cons_ne_nil _ _, Nat.le_of_ble_eq_true rfl⟩
theorem Words.ordb : Words.Statement .ordb := ⟨fun _ => List.cons_ne_nil _ _, Nat.le_of_ble_eq_true rfl⟩
theorem Words.orde : Words.Statement .orde := ⟨fun _ => List.cons_ne_nil _ _, Nat.le_of_ble_eq_true rfl⟩
theorem Words.pxw (a : VField) : Words.Statement (.pxw a) := ⟨fun _ => List.cons_ne_nil _ _, Nat.le_of_ble_eq_true rfl⟩
theorem Words.resume (a : SField) : Words.Statement (.resume a) := ⟨fun _ => List.cons_ne_nil _ _, Nat.le_of_ble_eq_true rfl⟩
theorem Words.bkpt (tag : BitVec 7) : Words.Statement (.bkpt tag) := ⟨fun _ => List.cons_ne_nil _ _, Nat.le_of_ble_eq_true rfl⟩
theorem Words.illegalWord (w : Word) : Words.Statement (.illegalWord w) := ⟨fun _ => List.cons_ne_nil _ _, Nat.le_of_ble_eq_true rfl⟩
theorem Words.deviceReset : Words.Statement .deviceReset := ⟨nofun, Nat.zero_le _⟩
theorem Words.linkFunctionReset (link : Bool) : Words.Statement (.linkFunctionReset link) := ⟨nofun, Nat.zero_le _⟩
theorem Words.powerLoss : Words.Statement .powerLoss := ⟨nofun, Nat.zero_le _⟩
theorem Words.serviceLevelRise (pass : Bool) : Words.Statement (.serviceLevelRise pass) := ⟨nofun, Nat.zero_le _⟩
theorem Words.hostRegisterWrite (link : Bool) (offset : Nat) (data : List Byte) : Words.Statement (.hostRegisterWrite link offset data) :=
  ⟨nofun, Nat.zero_le _⟩
theorem Words.queueDescriptorWrite (offset : Nat) (data : List Byte) : Words.Statement (.queueDescriptorWrite offset data) :=
  ⟨nofun, Nat.zero_le _⟩
theorem Words.queueEnable (offset : Nat) (data : List Byte) : Words.Statement (.queueEnable offset data) := ⟨nofun, Nat.zero_le _⟩
theorem Words.queueDisable (offset : Nat) (data : List Byte) : Words.Statement (.queueDisable offset data) := ⟨nofun, Nat.zero_le _⟩
theorem Words.writeIndexAdvance (q : Nat) : Words.Statement (.writeIndexAdvance q) := ⟨nofun, Nat.zero_le _⟩
theorem Words.commandAreaWrite (link : Bool) (offset : Nat) (data : List Byte) : Words.Statement (.commandAreaWrite link offset data) :=
  ⟨nofun, Nat.zero_le _⟩
theorem Words.unlistedServiceOp (link : Bool) : Words.Statement (.unlistedServiceOp link) := ⟨nofun, Nat.zero_le _⟩
theorem Words.ctxcreate (link : Bool) : Words.Statement (.ctxcreate link) := ⟨nofun, Nat.zero_le _⟩
theorem Words.ctxsetSavePool (link : Bool) : Words.Statement (.ctxsetSavePool link) := ⟨nofun, Nat.zero_le _⟩
theorem Words.ctxsetGraphRegion (link : Bool) : Words.Statement (.ctxsetGraphRegion link) := ⟨nofun, Nat.zero_le _⟩
theorem Words.ctxsetCombineRegion (link : Bool) : Words.Statement (.ctxsetCombineRegion link) := ⟨nofun, Nat.zero_le _⟩
theorem Words.ctxsetReleaseQueue (link : Bool) : Words.Statement (.ctxsetReleaseQueue link) := ⟨nofun, Nat.zero_le _⟩
theorem Words.ctxsetTrapbase (link : Bool) : Words.Statement (.ctxsetTrapbase link) := ⟨nofun, Nat.zero_le _⟩
theorem Words.ctxdestroy (link : Bool) : Words.Statement (.ctxdestroy link) := ⟨nofun, Nat.zero_le _⟩
theorem Words.imgload (link : Bool) : Words.Statement (.imgload link) := ⟨nofun, Nat.zero_le _⟩
theorem Words.imgdrop (link : Bool) : Words.Statement (.imgdrop link) := ⟨nofun, Nat.zero_le _⟩
theorem Words.inval (link : Bool) : Words.Statement (.inval link) := ⟨nofun, Nat.zero_le _⟩
theorem Words.hostrange (link : Bool) : Words.Statement (.hostrange link) := ⟨nofun, Nat.zero_le _⟩
theorem Words.save (link : Bool) : Words.Statement (.save link) := ⟨nofun, Nat.zero_le _⟩
theorem Words.restore (link : Bool) : Words.Statement (.restore link) := ⟨nofun, Nat.zero_le _⟩
theorem Words.quiesce (link : Bool) : Words.Statement (.quiesce link) := ⟨nofun, Nat.zero_le _⟩
theorem Words.powerP0 (link : Bool) : Words.Statement (.powerP0 link) := ⟨nofun, Nat.zero_le _⟩
theorem Words.powerP1 (link : Bool) : Words.Statement (.powerP1 link) := ⟨nofun, Nat.zero_le _⟩
theorem Words.powerPark (link : Bool) : Words.Statement (.powerPark link) := ⟨nofun, Nat.zero_le _⟩
theorem Words.wload (link : Bool) : Words.Statement (.wload link) := ⟨nofun, Nat.zero_le _⟩
theorem Words.cxlMemRead (pa : Nat) (bytes : Nat) : Words.Statement (.cxlMemRead pa bytes) := ⟨nofun, Nat.zero_le _⟩
theorem Words.cxlMemWrite (pa : Nat) (data : List Byte) : Words.Statement (.cxlMemWrite pa data) := ⟨nofun, Nat.zero_le _⟩
theorem Words.cxlCacheSnoop (pa : Nat) : Words.Statement (.cxlCacheSnoop pa) := ⟨nofun, Nat.zero_le _⟩
theorem Words.weightPortWrite (die : Nat) : Words.Statement (.weightPortWrite die) := ⟨nofun, Nat.zero_le _⟩
theorem Words.fabricLaneFailure (port : Nat) (lane : Nat) : Words.Statement (.fabricLaneFailure port lane) := ⟨nofun, Nat.zero_le _⟩
theorem Words.spareLaneSwapComplete (port : Nat) : Words.Statement (.spareLaneSwapComplete port) := ⟨nofun, Nat.zero_le _⟩
theorem Words.peerAccess (peer : Nat) (pa : Nat) (op : PeerOp) : Words.Statement (.peerAccess peer pa op) := ⟨nofun, Nat.zero_le _⟩
theorem Words.remoteArrival (ctx : Nat) (slotId : Nat) (expert : Nat) (data : List Byte) : Words.Statement (.remoteArrival ctx slotId expert data) :=
  ⟨nofun, Nat.zero_le _⟩
theorem Words.remoteAcknowledgement (id : Nat) : Words.Statement (.remoteAcknowledgement id) := ⟨nofun, Nat.zero_le _⟩
theorem Words.remoteAckTimeout (id : Nat) : Words.Statement (.remoteAckTimeout id) := ⟨nofun, Nat.zero_le _⟩
theorem Words.leaseRenewal (holder : Nat) : Words.Statement (.leaseRenewal holder) := ⟨nofun, Nat.zero_le _⟩
theorem Words.leaseExpiry (line : Nat) : Words.Statement (.leaseExpiry line) := ⟨nofun, Nat.zero_le _⟩
theorem Words.droverTakePacket (q : Nat) : Words.Statement (.droverTakePacket q) := ⟨nofun, Nat.zero_le _⟩
theorem Words.effectivePriorityAgeing (q : Nat) : Words.Statement (.effectivePriorityAgeing q) := ⟨nofun, Nat.zero_le _⟩
theorem Words.teamPlace (grid : Nat) : Words.Statement (.teamPlace grid) := ⟨nofun, Nat.zero_le _⟩
theorem Words.ownerPop (core : Nat) : Words.Statement (.ownerPop core) := ⟨nofun, Nat.zero_le _⟩
theorem Words.thiefSteal (core : Nat) : Words.Statement (.thiefSteal core) := ⟨nofun, Nat.zero_le _⟩
theorem Words.gridComplete (grid : Nat) : Words.Statement (.gridComplete grid) := ⟨nofun, Nat.zero_le _⟩
theorem Words.markerComplete (grid : Nat) : Words.Statement (.markerComplete grid) := ⟨nofun, Nat.zero_le _⟩
theorem Words.holdListDelivery (q : Nat) : Words.Statement (.holdListDelivery q) := ⟨nofun, Nat.zero_le _⟩
theorem Words.watchdogExpiry (grid : Nat) : Words.Statement (.watchdogExpiry grid) := ⟨nofun, Nat.zero_le _⟩
theorem Words.memoryAccessComplete (id : Nat) : Words.Statement (.memoryAccessComplete id) := ⟨nofun, Nat.zero_le _⟩
theorem Words.closureRun (id : Nat) : Words.Statement (.closureRun id) := ⟨nofun, Nat.zero_le _⟩
theorem Words.chainEntryPerform (id : Nat) : Words.Statement (.chainEntryPerform id) := ⟨nofun, Nat.zero_le _⟩
theorem Words.engineCommandComplete (id : Nat) : Words.Statement (.engineCommandComplete id) := ⟨nofun, Nat.zero_le _⟩
theorem Words.matrixCommandComplete (id : Nat) : Words.Statement (.matrixCommandComplete id) := ⟨nofun, Nat.zero_le _⟩
theorem Words.copyCommandComplete (core : Nat) : Words.Statement (.copyCommandComplete core) := ⟨nofun, Nat.zero_le _⟩
theorem Words.collectiveComplete (id : Nat) (peers : List (List Byte)) : Words.Statement (.collectiveComplete id peers) :=
  ⟨nofun, Nat.zero_le _⟩
theorem Words.pageWalkComplete (core : Nat) (ctx : Nat) (va : Nat) : Words.Statement (.pageWalkComplete core ctx va) :=
  ⟨nofun, Nat.zero_le _⟩
theorem Words.latticeCopyComplete (ctx : Nat) : Words.Statement (.latticeCopyComplete ctx) := ⟨nofun, Nat.zero_le _⟩
theorem Words.regroupTimerExpiry (team : Nat) (core : Nat) : Words.Statement (.regroupTimerExpiry team core) := ⟨nofun, Nat.zero_le _⟩
theorem Words.binTimerExpiry (core : Nat) (bin : Nat) : Words.Statement (.binTimerExpiry core bin) := ⟨nofun, Nat.zero_le _⟩
theorem Words.binLaunch (core : Nat) (bin : Nat) : Words.Statement (.binLaunch core bin) := ⟨nofun, Nat.zero_le _⟩
theorem Words.parityError (gslot : Nat) : Words.Statement (.parityError gslot) := ⟨nofun, Nat.zero_le _⟩
theorem Words.correctableError (part : WornPart) : Words.Statement (.correctableError part) := ⟨nofun, Nat.zero_le _⟩
theorem Words.trapRecordTake (gslot : Nat) : Words.Statement (.trapRecordTake gslot) := ⟨nofun, Nat.zero_le _⟩
theorem Words.handlerTeamStart (ctx : Nat) (record : Nat) : Words.Statement (.handlerTeamStart ctx record) := ⟨nofun, Nat.zero_le _⟩
theorem Words.deferredErrorTrap (id : Nat) : Words.Statement (.deferredErrorTrap id) := ⟨nofun, Nat.zero_le _⟩
theorem Words.spatialPreemption (q : Nat) (cores : List Nat) : Words.Statement (.spatialPreemption q cores) := ⟨nofun, Nat.zero_le _⟩
theorem Words.preemptionWaitExpiry (grid : Nat) : Words.Statement (.preemptionWaitExpiry grid) := ⟨nofun, Nat.zero_le _⟩
theorem Words.exactStop (team : Nat) : Words.Statement (.exactStop team) := ⟨nofun, Nat.zero_le _⟩
theorem Words.saveBoundExpiry (team : Nat) : Words.Statement (.saveBoundExpiry team) := ⟨nofun, Nat.zero_le _⟩
theorem Words.teamRestore (team : Nat) (cores : List Nat) : Words.Statement (.teamRestore team cores) := ⟨nofun, Nat.zero_le _⟩
theorem Words.digestCompare (team : Nat) : Words.Statement (.digestCompare team) := ⟨nofun, Nat.zero_le _⟩
theorem Words.slotTimerExpiry (ctx : Nat) (die : Nat) (index : Nat) : Words.Statement (.slotTimerExpiry ctx die index) :=
  ⟨nofun, Nat.zero_le _⟩
theorem Words.orderedRelease (ctx : Nat) (die : Nat) (index : Nat) : Words.Statement (.orderedRelease ctx die index) :=
  ⟨nofun, Nat.zero_le _⟩
theorem Words.releaseRecordWrite (ctx : Nat) (die : Nat) : Words.Statement (.releaseRecordWrite ctx die) := ⟨nofun, Nat.zero_le _⟩
theorem Words.reprojectionComplete (grid : Nat) : Words.Statement (.reprojectionComplete grid) := ⟨nofun, Nat.zero_le _⟩
theorem Words.weightRefreshWindow (die : Nat) : Words.Statement (.weightRefreshWindow die) := ⟨nofun, Nat.zero_le _⟩

end Sys2Proof.Laws
end

