-- ==== Sys2Proof/Tests/Slice0.lean ====
section
/-!
SUPPORT. Tests: ill-formed terms that WellFormed refuses, words of the spec's entries decoded, and what single steps do on a small state.
Expected values come from the spec's tables and worked examples, or from hand calculation with its rules.
-/

namespace Sys2Proof.Tests

open Sys2Proof.Machine

/-! ### Well-formedness -/

/-- Pairs, quads and groups of eight at odd places; field 127 as a register (Table 5.7a, R128). -/
theorem test_wf_fields : ([.iadd .w64 20 11 (.reg 12), .imul .w64 20 10 (.reg 13), .imad true 21 10 (.reg 12), .imin false 1 2 (.reg 127),
    .and 1 2 (.reg 127), .shl true 5 4 (.reg 6), .bfi 3 4 (.reg 127), .movSV 20 3 (.reg 127), .sadd 1 2 (.reg 127),
    .sadd64 4 5 (.reg 8), .scmp .eq 1 2 (.reg 127), .fmin false 1 2 (.reg 127), .padd2 false 1 2 (.reg 127), .vqdec 1 22 4,
    .shfl .w32 .idx 3 4 (.reg 127), .jmpi 23, .ret 27, .calli 27 22] : List Instr).all (fun i => !i.wf) = true := by decide

theorem test_wf_memory : ([.ld false .b64 3 10 (.reg 4), .st false .b128 42 6 (.reg 4), .ld false .b32 3 11 (.reg 4), .lds .b64 45 25 (.reg 1),
    .sts .b128 37 24 (.reg 1), .ldu .u8 4 0 (.lit 0), .ldu .b128 6 0 (.lit 0), .atom .fadd false true .rlx .device 20 10 12,
    .atom .add true false .rlx .device 1 18 9, .atom .add false true .ar .device 21 10 12, .cas false .ar .device 20 10 13,
    .cas true .ar .device 20 10 14, .cctlWb 11 (.reg 12), .fetch 20 9 24, .fetch 20 8 26, .fqry 3 5 3, .tex 42 8 2, .tex 40 8 3,
    .rng 21 10, .rmask 3 4 (.reg 127)] : List Instr).all (fun i => !i.wf) = true := by decide

theorem test_wf_units : ([.cpy 9, .chain 9, .coll 9, .scacc 2 1 11, .aclr 0 (.reg 127), .ald 1 24 (.reg 127), .tld 0 20 (.reg 127),
    .spawn 5 (.reg 6), .enq 2 11, .deq false 22 2, .depset 30 33 (.reg 13), .depdec 30 (.reg 127), .cmbopen true 20 5, .cmbput 9 10,
    .trace .none false 40 12 4, .trace .none false 42 8 4, .hitget 41 4 (.reg 1), .vapp 12 5 (.reg 10), .vconn 18 14 (.reg 19),
    .vrwtConn 40 43 (.reg 35), .fopen 18, .sysrd 5 0, .syswrTrapbase 11, .syswrOther 0x60 10, .pxw 11, .resume 1] : List Instr).all
      (fun i => !i.wf) = true := by decide

/-- Limits of immediates: a shift of 32, a mode that the mould cannot name, a window past register 928 + 95, a run of VFREE past its range. -/
theorem test_wf_limits : ([.shli 1 2 32, .shri 1 2 0x7FF, .sari 1 2 32, .fadd false .rna 1 2 (.reg 3), .wbase 59, .vfree 10 0, .vfree 90 7,
    .vfree 100 29] : List Instr).all (fun i => !i.wf) = true := by decide

/-! ### Words of the entries -/

/-- The words `ws` decode to the instruction, with nothing left over and no second word read. -/
def decodesTo (w : Nat) (i : Instr) : Bool :=
  match decodeWord (BitVec.ofNat 32 w) none with
  | .ok (j, 1) => j == i
  | _ => false

/-- Two words decode to the instruction. -/
def decodesTwo (w v : Nat) (i : Instr) : Bool :=
  match decodeWord (BitVec.ofNat 32 w) (some (BitVec.ofNat 32 v)) with
  | .ok (j, 2) => j == i
  | _ => false

theorem test_decode_integer : ([(0x00010203, .iadd .w32 4 4 (.reg 3)), (0x0025050C, .iadd .w64 20 10 (.reg 12)), (0x0040C205, .iadd .ssat 3 4 (.reg 5)),
    (0x02060C19, .isub .w32 24 24 (.reg 25)), (0x04058B15, .imul .lo 22 22 (.reg 21)), (0x06010082, .imad false 4 1 (.reg 2)),
    (0x08044E16, .imin false 17 28 (.reg 22)), (0x0845C214, .imax false 23 4 (.reg 20)), (0x0A008184, .and 2 3 (.reg 4)),
    (0x0A214307, .andn 5 6 (.reg 7)), (0x0A608184, .orn 2 3 (.reg 4)), (0x0A85CB8F, .xor 23 23 (.reg 15)), (0x0C064C98, .shl false 25 25 (.reg 24)),
    (0x0C20C205, .shr false 3 4 (.reg 5)), (0x0C40C205, .sar false 3 4 (.reg 5)), (0x0CE10206, .rotl true 4 4 (.reg 6)),
    (0x0E064700, .clz 25 14), (0x0E20C200, .popc 3 4), (0x0E40C200, .brev 3 4), (0x0E60C200, .iabs 3 4), (0x0E80C200, .ineg 3 4),
    (0x0EA0C200, .not 3 4), (0x1020C205, .bfx true 3 4 (.reg 5)), (0x1200C205, .bfi 3 4 (.reg 5)), (0x14014300, .bitil false 5 6),
    (0x1425CB80, .bitil true 23 23), (0x14614300, .bitdl .c3of1 5 6), (0x14C14300, .bitdl .c2of1 5 6), (0x1602CB60, .icmp .eq 11 22 (.reg 96)),
    (0x16C04206, .icmp .ltu 1 4 (.reg 6)), (0x1840C205, .isel 2 3 4 (.reg 5)), (0x1A610308, .iaddc 3 4 6 (.reg 8))]
      : List (Nat × Instr)).all (fun e => decodesTo e.1 e.2) = true := by decide

theorem test_decode_moves : ([(0x1C040680, .mov 16 13), (0x1C218580, .movVS 6 11), (0x1C4501E0, .movSV 20 3 (.reg 96)), (0x1C60C200, .movPP 3 4),
    (0x1C850200, .movSS 20 4), (0x1CA24100, .movVP 9 2), (0x1CC04200, .movPV 1 4), (0x1E004082, .pand 1 1 (.reg 2)), (0x1E20C205, .por 3 4 (.reg 5)),
    (0x1E40C205, .pxor 3 4 (.reg 5)), (0x1E60C200, .pnot 3 4), (0x201C3801, .iaddi 7 7 1), (0x220C27F0, .andi 3 4 (-16)),
    (0x240C2100, .ori 3 4 0x100), (0x26285001, .xori 10 10 1), (0x29802002, .shli 96 4 2), (0x2A5CB005, .shri 23 22 5), (0x2C608001, .sari 24 16 1),
    (0x2E285018, .muli 10 10 24), (0x300C0321, .movi 3 0x321), (0x3197FFFF, .movi 101 (-1)), (0x320E1D95, .movh 3 0x21D95)]
      : List (Nat × Instr)).all (fun e => decodesTo e.1 e.2) = true := by decide

theorem test_decode_uniform : ([(0x34601000, .smovi 24 0x1000), (0x36210286, .ssub 4 5 (.reg 6)), (0x36410286, .smul 4 5 (.reg 6)),
    (0x36610286, .sand 4 5 (.reg 6)), (0x36810286, .sor 4 5 (.reg 6)), (0x36A10286, .sxor 4 5 (.reg 6)), (0x36C10286, .sshl 4 5 (.reg 6)),
    (0x36E10286, .sshr 4 5 (.reg 6)), (0x37010286, .smin 4 5 (.reg 6)), (0x37210286, .smax 4 5 (.reg 6)), (0x37410208, .sadd64 4 4 (.reg 8)),
    (0x3850A040, .saddi 20 20 64)] : List (Nat × Instr)).all (fun e => decodesTo e.1 e.2) = true := by decide

theorem test_decode_float : ([(0x40014103, .fadd false .rne 5 2 (.reg 3)), (0x42804103, .fsub true .rne 1 2 (.reg 3)),
    (0x44034607, .fmul false .rne 13 12 (.reg 7)), (0x4622048A, .ffma false .rtz 8 9 (.reg 10)), (0x48078F28, .fmin false 30 30 (.reg 40)),
    (0x482850AB, .fmax false 33 33 (.reg 43)), (0x4840C205, .fmin true 3 4 (.reg 5)), (0x4860C205, .fmax true 3 4 (.reg 5)),
    (0x4A808688, .fcmp .gt 2 13 (.reg 8)), (0x4AC00082, .fcmp .un 0 1 (.reg 2)), (0x4C00C200, .fabs 3 4), (0x4C20C200, .fneg 3 4),
    (0x4C40C205, .fcpys 3 4 (.reg 5)), (0x4E00C200, .frcp 3 4), (0x4E20C200, .frsq 3 4), (0x4E40C200, .fsqrt 3 4), (0x4E60C200, .flog2 3 4),
    (0x4E80C200, .fexp2 3 4), (0x4EA0C200, .fsin 3 4), (0x4EC0C200, .fcos 3 4), (0x4EE0C200, .ftanh 3 4), (0x522A1422, .pmul2 true 40 40 (.reg 34)),
    (0x5420C205, .pfma2 true 3 4 (.reg 5)), (0x560B1600, .fcvt .rne .toFp16 44 44), (0x5620C208, .fcvt .rtz .toInt32 3 4),
    (0x58014307, .fcvts .bf16 5 6 (.reg 7)), (0x5A00C200, .qcvt .fp8e4 false false 3 4), (0x5B60C200, .qcvt .int8 true true 3 4),
    (0x5C20C200, .qamax true 3 4), (0x5E250200, .vqdec 1 20 4)] : List (Nat × Instr)).all (fun e => decodesTo e.1 e.2) = true := by decide

theorem test_decode_lanes : ([(0x6000C205, .shfl .w32 .idx 3 4 (.reg 5)), (0x60E0C205, .shfl .w16 .xor 3 4 (.reg 5)), (0x6200C100, .voteAny 3 2),
    (0x6220C100, .voteAll 3 2), (0x62410080, .voteBallot 4 1), (0x6260C100, .voteCount 3 2), (0x65010181, .reduce .fadd 4 3 (.reg 1)),
    (0x6620C201, .scan false .fadd 3 4 (.reg 1)), (0x6700C201, .scan true .iadd 3 4 (.reg 1)), (0x68040002, .envrd 1 2), (0x68100000, .envrd 4 0),
    (0x6A024000, .elect 9)] : List (Nat × Instr)).all (fun e => decodesTo e.1 e.2) = true := by decide

theorem test_decode_control : ([(0x70003FFA, .bra .always (-6)), (0x70224015, .bra (.ifTrue 9) 21), (0x7200000C, .jmp 12), (0x74000028, .call 40),
    (0x76000B00, .jmpi 22), (0x76268B00, .calli 26 22), (0x78200D00, .ret 26), (0x7A000000, .enrol 0), (0x7A200000, .join 0), (0x7A400000, .leave 0),
    (0x7C030005, .brp true 12 5), (0x7E00003A, .wbase 58), (0x7E20050A, .vfree 10 10), (0x7E600600, .pend 12)]
      : List (Nat × Instr)).all (fun e => decodesTo e.1 e.2) = true := by decide

theorem test_decode_memory : ([(0x80CA0224, .ld false .b128 40 4 (.reg 36)), (0x80830560, .ld false .b32 12 10 (.reg 96)),
    (0x8188C560, .ld true .b32 35 10 (.reg 96)), (0x8020C206, .ld false .s8 3 4 (.reg 6)), (0x82A78109, .st false .b64 30 2 (.reg 9)),
    (0x83850161, .st true .b32 20 2 (.reg 97)), (0x84AB0CAA, .lds .b64 44 25 (.reg 42)), (0x868B0C2B, .sts .b32 44 24 (.reg 43)),
    (0x86C90C60, .sts .b128 36 24 (.reg 96)), (0x9200050C, .cctlWb 10 (.reg 12)), (0x9240050C, .cctlWbinv 10 (.reg 12)), (0x90400000, .icinv .core),
    (0xA0050418, .fetch 20 8 24), (0xA200C203, .fqry 3 4 3), (0xA40A0402, .tex 40 8 2), (0xA6000180, .rngkey 3), (0xA8050500, .rng 20 10),
    (0xAA00C205, .rmask 3 4 (.reg 5))] : List (Nat × Instr)).all (fun e => decodesTo e.1 e.2) = true := by decide

theorem test_decode_engines : ([(0xB0000400, .cpy 8), (0xB2000400, .chain 8), (0xB4030002, .sacqFree 12 2), (0xB4230002, .sacqFilled 12 2),
    (0xB6000602, .spub 12 2), (0xB8000602, .sfree 12 2), (0xBA000400, .coll 8), (0xC4004205, .conv 1 4 5), (0xC600808A, .scacc 2 1 10),
    (0xC8000016, .aclr 0 (.reg 22)), (0xC8204C10, .ald 1 24 (.reg 16)), (0xC8400C00, .astFp32 0 24), (0xC8608F00, .astBf16 2 30),
    (0xCA000A16, .tld 0 20 (.reg 22)), (0xCE004000, .mwait 1)] : List (Nat × Instr)).all (fun e => decodesTo e.1 e.2) = true := by decide

theorem test_decode_work : ([(0xD0000206, .spawn 4 (.reg 6)), (0xD2008500, .enq 2 10), (0xD4050100, .deq false 20 2), (0xD4250100, .deq true 20 2),
    (0xD607900D, .depset 30 32 (.reg 13)), (0xD6278061, .depdec 30 (.reg 97)), (0xD6478061, .depadd 30 (.reg 97)), (0xD8250200, .cmbopen true 20 4),
    (0xDA020500, .cmbput 8 10), (0xDC030400, .cmbstat 12 8), (0xDC200400, .cmbclose 8), (0xDC400400, .cmbcancel 8)]
      : List (Nat × Instr)).all (fun e => decodesTo e.1 e.2) = true := by decide

theorem test_decode_graph : ([(0xE00A0404, .trace .none false 40 8 4), (0xE06A0404, .trace .back true 40 8 4), (0xE20A0201, .hitget 40 4 (.reg 1)),
    (0xE403020A, .vapp 12 4 (.reg 10)), (0xE6040713, .vconn 16 14 (.reg 19)), (0xE8080F13, .vmrg 32 30 (.reg 19)), (0xEA060B13, .vmrq 24 22 (.reg 19)),
    (0xEC0A1523, .vrwtConn 40 42 (.reg 35)), (0xEC2A1523, .vrwtMrg 40 42 (.reg 35)), (0xEE000800, .fopen 16), (0xEE200980, .fclose 19),
    (0xEE400A00, .eseal 20), (0xEE600600, .vret 12), (0xEE850713, .vget 20 14 (.reg 19))]
      : List (Nat × Instr)).all (fun e => decodesTo e.1 e.2) = true := by decide

theorem test_decode_system : ([(0xF0000007, .trap 7), (0xF2010030, .sysrd 4 0x30), (0xF4000560, .syswrDetsel 10), (0xF8000500, .pxw 10),
    (0xFA000000, .resume 0), (0xFC000005, .bkpt 5)] : List (Nat × Instr)).all (fun e => decodesTo e.1 e.2) = true := by decide

theorem test_decode_two_words : ([(0x0A51E17F, 0x80000000, .or 71 66 (.lit 0x80000000)), (0x3605CBFF, 0x00001000, .sadd 23 23 (.lit 4096)),
    (0x3A00827F, 1, .scmp .eq 2 4 (.lit 1)), (0x50054AFF, 0x0000B800, .padd2 false 21 21 (.lit 0xB800)),
    (0x6401817F, 0xF, .reduce .iadd 6 2 (.lit 15)), (0x88C1007F, 0, .ldu .b128 4 0 (.lit 0)),
    (0x8B65050C, 1, .atom .fadd false false .rlx .group 20 10 12), (0x8A000909, 0x86, .atom .add true false .rlx .device 0 18 9),
    (0x8A05050C, 0x76, .atom .add false true .ar .device 20 10 12)] : List (Nat × Nat × Instr)).all (fun e => decodesTwo e.1 e.2.1 e.2.2) = true := by
  decide

/-- Reserved encodings stay refused: FN 5 of the AND family, B ≠ 0 of CLZ, a reserved scope, an odd pair (R131, R133, R134). -/
theorem test_decode_refuses : [0x0AA08184, 0x0E064701, 0x90400001, 0x0025058C].all (fun w =>
    match decodeWord (BitVec.ofNat 32 w) none with | .ok _ => false | .error .following => false | .error _ => true) = true := by decide

/-! ### A small state -/

/-- A translation of the first gibibyte onto itself, in near memory. -/
def page : TlbEntry := ⟨1, false, 0, 0x40000000, 0, true, true, true, true, false⟩

/-- A lane in the body of a clause of two words at 0x1040, with the registers given. -/
def thread (regs : Tab Word) (preds : BitVec 16 := 0) : Lane :=
  { pc := 0x1044, hdr := 0x1040, hword := 0x000FF200, inBody := true, rgnHdr := 0x1040, regs := regs, preds := preds }

/-- One group of team 6 of grid 5, in slot 0, with its issue set in focus. -/
def board (lanes : Tab Lane) (sregs : Tab Word := []) (role : Nat := 0) : State :=
  { level := 4
    groups := [(0, { uid := 2, grid := 5, team := 6, role := role, sregs := sregs, lanes := lanes, running := 1 })]
    grids := [(5, { ctx := 1, id := 1, queue := 0, pkt := { flags := 16, spad := 4096 } })]
    teams := [(6, { grid := 5, tid := 0, cores := [0], slices := [(0, {})] })]
    ctxs := [(1, { root := 0 })]
    cores := [(0, { tlb := [page] }), (640, { tlb := [page] })]
    nextId := 10
    clock := 100
    focus := some ⟨0, lanes.map (·.1)⟩ }

/-- The issue set in focus. -/
def cx (s : State) : Cx := s.inFocus.getD ⟨0, {}, noGrid, []⟩

/-- The state after an instruction that goes on. -/
def after (i : Instr) (s : State) : State :=
  match exec i s with
  | .next t => t
  | _ => {}

/-- What lane 0 has in a register after an instruction, from the registers given. -/
def gives (i : Instr) (regs : Tab Word) (d : VField) : Word := (after i (board [(0, thread regs)])).vreg (cx (board [])) 0 d

/-! ### Integer results -/

/-- Table 19.8: the BREV family for A = 0x0000_F0F0. -/
theorem test_brev_family : [Instr.clz 3 4, .popc 3 4, .brev 3 4, .iabs 3 4, .ineg 3 4, .not 3 4].map (fun i => gives i [(4, 0xF0F0)] 3) =
    [16, 8, 0x0F0F0000, 0xF0F0, 0xFFFF0F10, 0xFFFF0F0F] := by decide

/-- Table 22.6: the SHL family for A = 0x8000_0001 and count 4; the count is taken modulo 32. -/
theorem test_shl_family : [Instr.shl false 3 4 (.lit 4), .shr false 3 4 (.lit 4), .sar false 3 4 (.lit 36), .rotl false 3 4 (.lit 4)].map
    (fun i => gives i [(4, 0x80000001)] 3) = [0x10, 0x08000000, 0xF8000000, 0x18] := by decide

/-- R369: wrap, signed and unsigned saturation, and a 64-bit carry from the low register to the high one. -/
theorem test_iadd_forms : (gives (.iadd .w32 3 4 (.lit 1)) [(4, 0xFFFFFFFF)] 3, gives (.iadd .ssat 3 4 (.lit 1)) [(4, 0x7FFFFFFF)] 3,
    gives (.iadd .usat 3 4 (.lit 1)) [(4, 0xFFFFFFFF)] 3, gives (.isub .usat 3 4 (.lit 1)) [(4, 0)] 3,
    gives (.iadd .w64 4 4 (.lit 1)) [(4, 0xFFFFFFFF), (5, 7)] 5) = (0, 0x7FFFFFFF, 0xFFFFFFFF, 0, 8) := by decide

/-- R128: the literal of a 64-bit form is sign-extended: 5 − 1. -/
theorem test_iadd64_literal : (gives (.iadd .w64 4 4 (.lit 0xFFFFFFFF)) [(4, 5), (5, 0)] 4,
    gives (.iadd .w64 4 4 (.lit 0xFFFFFFFF)) [(4, 5), (5, 0)] 5) = (4, 0) := by decide

/-- R370: 0xFFFF_FFFF + 1 with p3 = 0 gives 0 and p3 = 1. -/
theorem test_iaddc : let t := after (.iaddc 3 5 4 (.lit 1)) (board [(0, thread [(4, 0xFFFFFFFF)])])
    (t.vreg (cx (board [])) 0 5, t.preg (cx (board [])) 0 3) = (0, true) := by decide

/-- R376: (−1) × 2 has high word −1 signed and 1 unsigned. -/
theorem test_imul_high : (gives (.imul .hi 3 4 (.lit 2)) [(4, 0xFFFFFFFF)] 3, gives (.imul .hiu 3 4 (.lit 2)) [(4, 0xFFFFFFFF)] 3) =
    (0xFFFFFFFF, 1) := by decide

/-- R373: 0xFFFF_FFFF LT 0 is 1, and LTU is 0. -/
theorem test_icmp : [ICond.lt, .ltu].map (fun k => (after (.icmp k 2 4 (.lit 0)) (board [(0, thread [(4, 0xFFFFFFFF)])])).preg (cx (board [])) 0 2) =
    [true, false] := by decide

/-- R318, R319: BFI of 0xA into 0x1234_5678 and the two forms of BFX, all with the field of 0x88. -/
theorem test_bit_fields : (gives (.bfi 3 4 (.lit 0x88)) [(3, 0x12345678), (4, 0xA)] 3, gives (.bfx false 3 4 (.lit 0x88)) [(4, 0xF00)] 3,
    gives (.bfx true 3 4 (.lit 0x88)) [(4, 0xF00)] 3) = (0x12345A78, 0xF, 0xFFFFFFFF) := by decide

/-- R321: the point (2, 2, 0) has code 0x18, of which component 1 is 2. -/
theorem test_bitil : (gives (.bitil true 3 4) [(4, 2 + 2 * 1024)] 3, gives (.bitdl .c3of1 3 4) [(4, 0x18)] 3) = (0x18, 2) := by decide

/-- R388: MOV from a lane that has finished gives 0, from another its register; B counts modulo 32. -/
theorem test_mov_from_lane : let s := board [(0, thread [(3, 7), (4, 33)]), (1, thread [(3, 9)]), (2, { thread [(3, 8)] with fin := true })]
    let t (b : BOp) := (after (.movSV 20 3 b) { s with focus := some ⟨0, [0]⟩ }).ureg (cx s) 20
    (t (.reg 4), t (.lit 2)) = (9, 0) := by decide

/-- R390, R391: MOVH keeps bits [13:0]; MOVI extends the sign. -/
theorem test_movh : (gives (.movh 3 0x21D95) [(3, 0xFFFFF123)] 3, gives (.movi 3 0x3FFFF) [] 3) = (0x87657123, 0xFFFFFFFF) := by decide

/-- R412, R128: the uniform registers are written once, SADD.64 across the pair. -/
theorem test_sadd64 : (after (.sadd64 4 4 (.lit 0xFFFFFFFF)) (board [(0, thread [])] [(4, 0), (5, 1)])).upair (cx (board [])) 4 = 0xFFFFFFFF := by
  decide

/-! ### Floating point -/

/-- Table 20.8: rounding at work. -/
theorem test_fadd_rounding : ([RMode.rne, .rtz, .rdn, .rup].map fun m => gives (.fadd false m 3 4 (.lit 0x33800000)) [(4, 0x3F800000)] 3) =
    [0x3F800000, 0x3F800000, 0x3F800000, 0x3F800001] := by decide

theorem test_float_mould : (gives (.fadd true .rne 3 4 (.lit 0x3F000000)) [(4, 0x3F400000)] 3,
    gives (.fsub true .rne 3 4 (.lit 0x3F000000)) [(4, 0x3E800000)] 3,
    gives (.ffma false .rne 3 4 (.reg 4)) [(3, 0xBF800000), (4, 0x3F800800)] 3, gives (.fmul false .rne 3 4 (.reg 4)) [(4, 0x3F800800)] 3) =
    (0x3F800000, 0, 0x3A000400, 0x3F801000) := by decide

/-- Table 20.11: conversions. -/
theorem test_fcvt : (gives (.fcvt .rne .toInt32 3 4) [(4, 0xC0200000)] 3, gives (.fcvt .rna .toInt32 3 4) [(4, 0xC0200000)] 3,
    gives (.fcvt .rtz .toInt32 3 4) [(4, 0x4F32D05E)] 3, gives (.fcvt .rne .toUint8 3 4) [(4, 0xBF400000)] 3,
    gives (.fcvt .rtz .toFp8e4 3 4) [(4, 0x447A0000)] 3, gives (.fcvt .rne .toFp16 3 4) [(4, 0x477FF000)] 3,
    gives (.fcvt .rdn .rint 3 4) [(4, 0xBF000000)] 3) = (0xFFFFFFFE, 0xFFFFFFFD, 0x7FFFFFFF, 0, 0x7E, 0x7C00, 0xBF800000) := by decide

/-- R357, R359: a NaN beside 1.0 in FMIN, FMIN.NUM and FCMP; the lesser zero is −0. -/
theorem test_fmin_nan : (gives (.fmin false 3 4 (.lit 0x3F800000)) [(4, 0x7FC00001)] 3, gives (.fmin true 3 4 (.lit 0x3F800000)) [(4, 0x7FC00001)] 3,
    gives (.fmin false 3 4 (.lit 0x80000000)) [(4, 0)] 3) = (0x7FC00000, 0x3F800000, 0x80000000) := by decide

theorem test_fcmp_nan : [FCond.eq, .ne, .lt, .ge, .un, .ord].map
    (fun k => (after (.fcmp k 2 4 (.lit 0x7FC00000)) (board [(0, thread [(4, 0)])])).preg (cx (board [])) 0 2) =
    [false, true, false, false, true, false] := by decide

/-- Table 20.9: values of FRCP, FRSQ, FSQRT, FLOG2 and FEXP2. -/
theorem test_special : (gives (.frcp 3 4) [(4, 0x40400000)] 3, gives (.frsq 3 4) [(4, 0x40800000)] 3, gives (.fsqrt 3 4) [(4, 0x40000000)] 3,
    gives (.flog2 3 4) [(4, 1)] 3, gives (.fexp2 3 4) [(4, 0xC3150000)] 3) = (0x3EAAAAAB, 0x3F000000, 0x3FB504F3, 0xC3150000, 1) := by decide

/-- R397: (0, 1.0) + (−0.5, 0) in FP16. -/
theorem test_padd2 : gives (.padd2 false 21 21 (.lit 0xB800)) [(21, 0x3C000000)] 21 = 0x3C00B800 := by decide

/-- Table 6.4: 0x3F80_4000 rounds up to BF16 from r = 0xC000 on. -/
theorem test_stochastic : [0, 0xBFFF, 0xC000, 0xFFFF].map (fun r => bf16.roundSr r (asFp 0x3F804000)) = [0x3F80, 0x3F80, 0x3F81, 0x3F81] := by decide

/-- R144: index 0x1234 with entry 36 holding 0xE41B. -/
theorem test_vqdec :
    let s := board [(0, thread [(4, 0x1234)])]
    let s := { s with ctxs := [(1, { root := 0, lattice := [List.replicate 36 0 ++ [0xE41B], [], [], []] })] }
    let t := after (.vqdec 0 20 4) s
    [20, 21, 22, 23].map (t.vreg (cx s) 0) = [0x40204060, 0x3F00BFC0, 0xBFC0BF00, 0xC0604020] := by decide

/-- Table 6.6: steps under the window rule. -/
theorem test_matrix_sum :
    let two (n : Int) : Val := .fin false 1 n
    let neg (n : Int) : Val := .fin true 1 n
    (w32 (matrixSum [two 24, two 0, neg 24]), w32 (matrixSum [two 0, two (-24), two (-130)]), w32 (matrixSum [two 0, neg (-130)])) =
      (0x3F800000, 0x3F800001, 0x3F800000) := by decide

/-! ### Across lanes -/

/-- R416: lanes 0-3 hold 3, 1, 4 and 1. -/
theorem test_scan :
    let s := board ([3, 1, 4, 1].zipIdx.map fun e => (e.2, thread [(4, e.1)] 2))
    let row (i : Instr) : List Word := [0, 1, 2, 3].map fun l => (after i s).vreg (cx s) l 3
    (row (.scan false .iadd 3 4 (.reg 1)), row (.scan true .iadd 3 4 (.reg 1))) = ([3, 4, 8, 9], [0, 3, 4, 8]) := by decide

/-- Table 6.8: lanes 0-3 hold 2^24, 1, 1 and −2^24. -/
theorem test_fadd_tree :
    let s := board ([0x4B800000, 0x3F800000, 0x3F800000, 0xCB800000].zipIdx.map fun e => (e.2, thread [(4, e.1)] 2))
    ((after (.reduce .fadd 4 4 (.reg 1)) s).ureg (cx s) 4, (after (.scan false .fadd 3 4 (.reg 1)) s).vreg (cx s) 2 3,
      (after (.scan true .fadd 3 4 (.reg 1)) s).vreg (cx s) 0 3) = (0x3F800000, 0x4B800000, 0x80000000) := by decide

/-- R439, R350: votes count the active lanes; ELECT picks the lowest. -/
theorem test_votes :
    let s := board [(1, thread [] 4), (3, thread [] 0), (6, thread [] 4)]
    ((after (.voteBallot 4 2) s).ureg (cx s) 4, (after (.voteCount 3 2) s).vreg (cx s) 3 3, (after (.voteAll 3 2) s).preg (cx s) 1 3,
      (after (.elect 9) s).preg (cx s) 1 9, (after (.elect 9) s).preg (cx s) 3 9) = (0x42, 2, false, true, false) := by decide

/-! ### Control, memory, traps -/

/-- A lane with an address in v10:v11 and a value in v4; every word of the image at 0x1000 is a clause header to its clause map. -/
def poised (v : Word) : State :=
  { board [(0, thread [(4, v), (5, 0), (10, 0x2000), (11, 0)] 2)] with
    ctxs := [(1, { root := 0, images := [{ base := 0x1000, words := 64, mapOfs := 0x200 }] })]
    mem := (upto 8).map fun k => (0x1200 + k, 0xFF) }

/-- R323: the target is the branch's address plus four times OFS; a lane that falls through at the end of its body is at the next header. -/
theorem test_bra : (let y (i : Instr) : Lane := ((after i (poised 0)).group 0).lane 0
    ((y (.bra (.ifTrue 1) 21)).pc, (y (.bra (.ifTrue 1) 21)).inBody, (y (.bra (.ifFalse 1) 21)).pc, (y (.bra .always (-1))).pc)) =
    (0x1098, false, 0x1048, 0x1040) := by decide

/-- R327: CALL leaves the address after its word in v1054:v1055. -/
theorem test_call : (((after (.call 40) (poised 0)).group 0).lane 0).regs = [(4, 0), (5, 0), (10, 0x2000), (11, 0), (1054, 0x1048), (1055, 0)] := by
  decide

/-- R9, R423: the bytes of a word stored, lowest address first. -/
theorem test_st_bytes : (let t := after (.st false .b32 4 10 (.lit 0)) (poised 0x12345678)
    memRead t.mem 0x2000 4) = [0x78, 0x56, 0x34, 0x12] := by decide

/-- Table 21.1: a byte 0x80 loaded as U8 and as INT8; the register is owed until the access completes (R102). -/
theorem test_ld_extends : (let s := { poised 0 with mem := [(0x2000, 0x80)] }
    let t (z : Size) : State := after (.ld false z 3 10 (.lit 0)) s
    let done (z : Size) : State := after (.memoryAccessComplete ((t z).ops.map (·.1)).head!) (t z)
    (((t .u8).group 0).pending 0 (.v 3) != none, (done .u8).vreg (cx s) 0 3, (done .s8).vreg (cx s) 0 3)) = (true, 0x80, 0xFFFFFF80) := by decide

/-- Table 19.4: INC past its bound gives 0, DEC of 0 gives the bound, MIN is signed, and the old value comes back. -/
theorem test_atom : (let s := { poised 5 with mem := [(0x2000, 5)] }
    let run (op : AtomOp) (m : Tab Byte) : State := after (.atom op false false .rlx .device 3 10 4) { s with mem := m }
    (memNat (run .inc [(0x2000, 5)]).mem 0x2000 4, memNat (run .dec []).mem 0x2000 4, memNat (run .min [(0x2003, 0x80)]).mem 0x2000 4,
      ((run .add [(0x2000, 5)]).ops.map fun e => e.2.vals), memNat (run .add [(0x2000, 5)]).mem 0x2000 4)) =
    (0, 5, 0x80000000, [[5]], 10) := by decide

/-- R329: CAS stores its new value where the old one is as expected. -/
theorem test_cas : (let run (m : Tab Byte) : State := after (.cas false .ar .device 3 10 4) { poised 5 with mem := m }
    let run (m : Tab Byte) : State := { run m with mem := (run m).mem }
    (memNat (run [(0x2000, 5)]).mem 0x2000 4, memNat (run [(0x2000, 6)]).mem 0x2000 4)) = (0, 6) := by decide

/-- R168: an odd address of a four-byte store traps with MISALIGNED in that lane, at its address. -/
theorem test_misaligned : ((after (.st false .b32 4 10 (.lit 1)) (poised 0)).group 0).trap.map (·.faults) =
    some [(0, .misaligned, 0x2001)] := by decide

/-- R432: TRAP suspends its group with SOFTWARE and the code. -/
theorem test_trap : ((after (.trap 7) (poised 0)).group 0).trap.map (·.faults) = some [(0, .software, 7)] := by decide

/-- R203: of the causes of three lanes the primary one has the lowest rank. -/
theorem test_primary : primary [(2, .permission, 0), (4, .notPresent, 0), (9, .notPresent, 0)] = some (4, .notPresent, 0) := by decide

/-- R44: with a source owed a write a word outside a DEFER clause parks its lane. -/
theorem test_parks : (let s := board [(0, { thread [(4, 1)] with pend := [(4, 9)] })]
    (((after (.iadd .w32 3 4 (.lit 1)) s).group 0).lane 0).park) = .retry := by decide

/-- R351: a counter that is not armed counts up. -/
theorem test_depadd : ((after (.depadd 4 (.lit 3)) { poised 40 with counters := [(40, { value := 2 })] }).counter 40).value = 5 := by decide

/-- R12, Table 0.3: at level 4 in P0, SVCCAP is as the example gives it. -/
theorem test_svccap : ({ State.reset with level := 4, dies := (upto 4).map fun d => (d, ({ inService := true, clock := 2500 } : Die)) } : State).svccap.toNat =
    0x09C40EF4 := by decide

/-- R164, R163: a step of a program placed after reset fetches, decodes and runs its word. -/
theorem test_step : (match step (State.reset.withFetchWord 32 0x300C0321) with
    | .next t => tabGet ((t.group 0).lane 0).regs 3
    | _ => none) = some 0x321 := by decide

end Sys2Proof.Tests
end

