-- ==== Sys2Proof/Tests/Witnesses.lean ====
section
/-!
SUPPORT. Witnesses: for each statement with hypotheses a state and operands that meet them together, clause by clause.
-/

namespace Sys2Proof.Tests

open Sys2Proof.Machine

/-- `State.Ready` as a check that computes. -/
def readies (i : Instr) (s : State) : Bool :=
  let c := cx s
  decide (s.inFocus = some c) && c.ls.all (fun l => (tabGet c.x.lanes l).isSome) && decide c.ls.Nodup &&
    c.ls.all (fun l => ((regsOf i).1 ++ (regsOf i).2).all fun o => !c.x.isPending l o ||
      (hDefer (c.x.lane l).hword && decide (o ∈ dataOf i) && decide (o ∉ (operandsOf i).1 ++ (operandsOf i).2))) && roleOk i c.x.role && !illegalAt i c.ls.length &&
    (!irreversible i || decide ((s.team c.x.team).shadow = none)) && !c.flagFull i && c.ls.all (fun l => !s.acqOut c.g l) &&
    c.ls.all (fun l => !s.icinvOut c.g l) && (!drains i || c.ls.all fun l => decide (s.chain c.g l = [])) &&
    c.ls.all (fun l => !s.ahead i c.g l && !s.loadAhead i c.g l)

theorem ready_of {i : Instr} {s : State} (h : readies i s = true) : s.Ready i (cx s) := by
  simp only [readies, Bool.and_eq_true, decide_eq_true_eq, List.all_eq_true, Bool.not_eq_true', Bool.or_eq_true] at h
  obtain ⟨⟨⟨⟨⟨⟨⟨⟨⟨⟨⟨h1, h2⟩, h3⟩, h4⟩, h5⟩, h6⟩, h7⟩, h8⟩, h9⟩, h10⟩, h11⟩, h12⟩ := h
  exact ⟨⟨h1, h2, h3⟩, fun l hl o ho => (h4 l hl o ho).imp_right fun h => ⟨h.1.1, h.1.2, h.2⟩, h5, h6,
    fun hi => h7.resolve_left (by simp [hi]), h8, fun _ => h9, fun _ => h10, fun hd => h11.resolve_left (by simp [hd]),
    fun l hl => h12 l hl⟩

theorem acts_of {i : Instr} {s : State} (h : readies i s = true) : s.Acts (cx s) := (ready_of h).toActs

/-- The instruction is well formed and nothing keeps the set in focus from issuing it. -/
def Meets (s : State) (i : Instr) : Prop := i.wf = true ∧ s.Ready i (cx s)

theorem meets_of {s : State} {i : Instr} (h : (i.wf && readies i s) = true) : Meets s i :=
  ⟨(Bool.and_eq_true _ _ ▸ h : _ ∧ _).1, ready_of (Bool.and_eq_true _ _ ▸ h : _ ∧ _).2⟩

theorem meets_all {s : State} {is : List Instr} (h : is.all (fun i => i.wf && readies i s) = true) : ∀ i ∈ is, Meets s i :=
  fun i hi => meets_of (List.all_eq_true.mp h i hi)

/-- Equality of results, decided. -/
def sameResult {α β : Type} [DecidableEq α] [DecidableEq β] : (a b : Except α β) → Decidable (a = b)
  | .ok x, .ok y => if h : x = y then isTrue (h ▸ rfl) else isFalse fun e => h (Except.ok.inj e)
  | .error x, .error y => if h : x = y then isTrue (h ▸ rfl) else isFalse fun e => h (Except.error.inj e)
  | .ok _, .error _ => isFalse nofun
  | .error _, .ok _ => isFalse nofun

/-- Whether reads give a value, decided. -/
def givesIt {α : Type} [DecidableEq α] (r : Reads α) (x : α) : Decidable (r.gives x) := inferInstanceAs (Decidable (_ ∧ _))

/-- `Group.Owes` as a check that computes. -/
def owes (x : Group) (l : Nat) (dsts : List (PReg × Nat)) : Bool :=
  decide (dsts.map (·.1)).Nodup && dsts.all fun d => decide (x.pending l d.1 = some d.2) && (match d.1 with | .p n => decide (n < 16) | _ => true)

theorem owes_of {x : Group} {l : Nat} {dsts : List (PReg × Nat)} (h : owes x l dsts = true) : x.Owes l dsts := by
  simp only [owes, Bool.and_eq_true, decide_eq_true_eq, List.all_eq_true] at h
  refine ⟨h.1, fun d hd => ⟨(h.2 d hd).1, fun n hn => ?_⟩⟩
  simpa [hn] using (h.2 d hd).2

/-- A result that is one. -/
theorem some_ok {α β : Type} {e : Except α β} (h : e.isOk = true) : ∃ x, e = .ok x := by
  cases e with
  | ok x => exact ⟨x, rfl⟩
  | error _ => simp [Except.isOk, Except.toBool] at h

/-- Two lanes at one place, their low registers live. -/
def calm : State :=
  let y : Lane := thread ((upto 24).map fun k => (k, BitVec.ofNat 32 (k * 0x11111111))) 0x00A5
  board [(0, y), (3, { y with preds := 0x5A })] ((upto 16).map fun k => (k, BitVec.ofNat 32 (0x1000 + k)))

/-! ### Statements that say what an instruction gives -/

theorem witness_integerSums : ∀ i ∈ [.iadd .w32 3 4 (.reg 5), .iadd .w64 2 4 (.lit 7), .iadd .ssat 3 4 (.reg 5), .iadd .usat 3 4 (.reg 5),
    .isub .w32 3 4 (.reg 5), .isub .w64 2 4 (.reg 6), .isub .ssat 3 4 (.reg 5), .isub .usat 3 4 (.reg 5), .iaddi 3 4 0x7FF,
    .iaddc 3 3 4 (.reg 5)], Meets calm i := meets_all (by decide)

theorem witness_integerProductsAndExtremes : ∀ i ∈ [.imul .lo 3 4 (.reg 5), .imul .hi 3 4 (.reg 5), .imul .hiu 3 4 (.lit 9), .imul .w64 2 4 (.reg 6),
    .muli 3 4 24, .imad false 3 4 (.reg 5), .imad true 2 4 (.reg 6), .imin false 3 4 (.reg 5), .imin true 3 4 (.reg 5), .imax false 3 4 (.reg 5),
    .imax true 3 4 (.reg 5)], Meets calm i := meets_all (by decide)

theorem witness_bitwiseLogic : ∀ i ∈ [.and 3 4 (.reg 5), .andn 3 4 (.reg 5), .or 3 4 (.lit 5), .orn 3 4 (.reg 5), .xor 3 4 (.reg 5), .not 3 4,
    .andi 3 4 0x7F0, .ori 3 4 1, .xori 3 4 1], Meets calm i := meets_all (by decide)

theorem witness_shiftsAndRotates : ∀ i ∈ [.shl false 3 4 (.reg 5), .shl true 2 4 (.reg 5), .shr false 3 4 (.reg 5), .shr true 2 4 (.reg 5),
    .sar false 3 4 (.reg 5), .sar true 2 4 (.reg 5), .rotl false 3 4 (.reg 5), .rotl true 2 4 (.lit 63), .shli 3 4 31, .shri 3 4 0,
    .sari 3 4 31], Meets calm i := meets_all (by decide)

theorem witness_bitCountsAndFields : ∀ i ∈ [.clz 3 4, .popc 3 4, .brev 3 4, .iabs 3 4, .ineg 3 4, .bfx false 3 4 (.reg 5), .bfx true 3 4 (.reg 5),
    .bfi 3 4 (.lit 0x88), .bitil false 3 4, .bitil true 3 4, .bitdl .c3of0 3 4, .bitdl .c3of1 3 4, .bitdl .c3of2 3 4, .bitdl .c2of0 3 4,
    .bitdl .c2of1 3 4], Meets calm i := meets_all (by decide)

theorem witness_comparisonsAndSelect : ∀ i ∈ [.icmp .lt 3 4 (.reg 5), .scmp .geu 3 4 (.reg 5), .isel 2 3 4 (.reg 5)], Meets calm i :=
  meets_all (by decide)

theorem witness_movesAndPredicates : ∀ i ∈ [.mov 3 4, .movVS 3 4, .movPP 1 2, .movVP 3 2, .movPV 2 3, .movi 3 0x3FFFF, .movh 3 1, .pand 1 2 (.reg 3),
    .por 1 2 (.lit 9), .pxor 1 2 (.reg 3), .pnot 1 2], Meets calm i := meets_all (by decide)

theorem witness_uniformArithmetic : ∀ i ∈ [.movSS 3 4, .smovi 3 0x1000, .saddi 3 4 64, .sadd 3 4 (.reg 5), .ssub 3 4 (.reg 5), .smul 3 4 (.reg 5),
    .sand 3 4 (.reg 5), .sor 3 4 (.lit 5), .sxor 3 4 (.reg 5), .sshl 3 4 (.reg 5), .sshr 3 4 (.reg 5), .smin 3 4 (.reg 5), .smax 3 4 (.reg 5),
    .sadd64 4 6 (.reg 8)], Meets calm i := meets_all (by decide)

theorem witness_floatSumsAndProducts : ∀ i ∈ [.fadd true .rup 3 4 (.reg 5), .fsub false .rdn 3 4 (.reg 5), .fmul false .rtz 3 4 (.lit 0x3F800000),
    .ffma true .rne 3 4 (.reg 5)], Meets calm i := meets_all (by decide)

/-- The forms, and for each clause values that fall under it: a NaN, one that is less, two zeros that tie. -/
theorem witness_floatComparisons : (∀ i ∈ [.fmin false 3 4 (.reg 5), .fmax false 3 4 (.reg 5), .fmin true 3 4 (.reg 5), .fmax true 3 4 (.reg 5),
      .fcmp .ord 3 4 (.reg 5), .fabs 3 4, .fneg 3 4, .fcpys 3 4 (.reg 5)], Meets calm i) ∧
    asFp 0x7FC00001 = .nan ∧ asFp 0xFF800001 = .nan ∧ asFp 0x7F800000 ≠ .nan ∧ (asFp 1).lt (asFp 2) = true ∧
    (asFp 0x80000000).lt (asFp 0) = false ∧ (asFp 0).lt (asFp 0x80000000) = false :=
  ⟨meets_all (by decide), by decide, by decide, by decide, by decide, by decide, by decide⟩

/-- The forms, and for the clauses a NaN, a negative number, powers of two at the ends of their ranges, an angle past 32,768,
and exponents from 128 on. -/
theorem witness_specialFunctions : (∀ i ∈ [.frcp 3 4, .frsq 3 4, .fsqrt 3 4, .flog2 3 4, .fexp2 3 4, .fsin 3 4, .fcos 3 4, .ftanh 3 4], Meets calm i) ∧
    asFp 0x7FC00001 = .nan ∧ (∃ m e, asFp 0x80000001 = .fin true m e ∧ m ≠ 0) ∧ w32 (fp32.round .rne (.fin false 1 (-149))) = 1 ∧
    w32 (fp32.round .rne (.fin false 1 127)) = 0x7F000000 ∧ w32 (fp32.round .rne (.ofInt (-149))) = 0xC3150000 ∧
    (∃ m e, asFp 0x47800000 = .fin false m e ∧ (Val.ofInt 32768).lt (.fin false m e) = true) ∧
    asFp 0x43000000 = .fin false 0x800000 (-16) ∧ (Val.fin false 0x800000 (-16)).lt (.ofInt 128) = false ∧
    asFp 0x447A0000 = .fin false 0xFA0000 (-14) ∧ (Val.fin false 0xFA0000 (-14)).lt (.ofInt 128) = false :=
  ⟨meets_all (by decide), by decide, ⟨1, -149, by decide, by decide⟩, by decide, by decide, by decide, ⟨0x800000, -7, by decide, by decide⟩,
    by decide, by decide, by decide, by decide⟩

theorem witness_packedPairsAndConversions : ∀ i ∈ [.padd2 false 3 4 (.reg 5), .pmul2 true 3 4 (.reg 5), .pfma2 true 3 4 (.reg 5),
    .fcvt .rna .toInt32 3 4, .fcvt .rne .rint 3 4, .fcvts .bf16 3 4 (.reg 5), .vqdec 1 20 4], Meets calm i := meets_all (by decide)

theorem witness_reduceAndScan : ∀ i ∈ [.reduce .fadd 3 4 (.reg 1), .scan false .fadd 3 4 (.lit 0xF), .scan true .imin 3 4 (.reg 1)], Meets calm i :=
  meets_all (by decide)

set_option maxRecDepth 8000 in
/-- The forms; the lanes are below 32 and the first is the lowest; MOV takes lane 3's register, which owes nothing; QCVT's block of v0 is zero,
and v4 of lane 3 is the largest of its block. -/
theorem witness_votesAndBlocks : (∀ i ∈ [.voteAny 3 2, .voteAll 3 2, .voteBallot 3 2, .voteCount 3 2, .elect 9, .qamax true 3 4,
      .qcvt .fp8e4 false false 3 4, .qcvt .int8 true true 3 4, .movSV 3 4 (.lit 3)], Meets calm i) ∧
    (∀ k ∈ (cx calm).ls, (cx calm).l0 ≤ k ∧ k < 32) ∧ ((cx calm).x.lane 3).fin = false ∧ (cx calm).x.isPending 3 (.v 4) = false ∧
    asFp 0x7FC00001 = .nan ∧ asFp 0x7F800000 = .inf false ∧
    (∀ k ∈ (cx calm).ls, calm.vreg (cx calm) k 0 &&& 0x7FFFFFFF = 0) ∧
    (let x (j : Nat) : Word := if j ∈ (cx calm).ls then calm.vreg (cx calm) j 4 else 0
     asFp (x 3 &&& 0x7FFFFFFF) = .fin false 0xC44444 (-14) ∧
       ∀ j < 32, (asFp (x j) ≠ .nan ∧ ∀ g, asFp (x j) ≠ .inf g) ∧ (asFp (x 3 &&& 0x7FFFFFFF)).lt (asFp (x j &&& 0x7FFFFFFF)) = false) :=
  ⟨meets_all (by decide), by decide, by decide, by decide, by decide, by decide, by decide, by decide, by decide⟩

theorem witness_environmentReads : (∀ i ∈ [.envrd 3 0, .envrd 3 18, .envrd 3 8], Meets calm i) ∧ (cx calm).x.bin = none ∧
    (calm.team (cx calm).x.team).handler = none ∧ (calm.team (cx calm).x.team).dynamic = false ∧ (cx calm).gr.pkt.kind ≠ 3 ∧
    (let s := calm.modGroup 0 fun x => { x with bin := some (2, 0) }
     Meets s (.envrd 3 2) ∧ (cx s).x.bin ≠ none) ∧
    (let s := { calm with teams := [(6, { grid := 5, tid := 0, cores := [0], handler := some 1, faulty := 9 }),
       (9, { grid := 5, tid := 0, cores := [0], dynamic := true })] }
     Meets s (.envrd 3 4) ∧ (s.team (cx s).x.team).handler ≠ none ∧ (s.team (s.team (cx s).x.team).faulty).dynamic = true) :=
  ⟨meets_all (by decide), by decide, by decide, by decide, by decide, ⟨meets_of (by decide), by decide⟩, meets_of (by decide), by decide, by decide⟩

theorem witness_randomDraws : ∀ i ∈ [.rngkey 3, .rng 4 6, .rmask 3 4 (.reg 5)], Meets calm i := meets_all (by decide)

/-! ### Control flow -/

/-- Two lanes with v10:v11 at the image's first clause, and with words in v4 to v7 and v20 to v23. -/
def aimed : State :=
  let y : Lane := thread [(4, 7), (5, 8), (6, 64), (7, 0), (10, 0x1040), (11, 0), (20, 1), (21, 2), (22, 3), (23, 4)] 2
  { board [(0, y), (3, { y with preds := 0 })] [(0, 0x3000), (1, 0), (2, 0x40), (3, 0)] with
    ctxs := [(1, { root := 0, images := [{ base := 0x1000, words := 64, mapOfs := 0x200 }] })]
    mem := (upto 8).map fun k => (0x1200 + k, 0xFF) }

theorem witness_branchesAndCalls : (∀ i ∈ [.bra .always 21, .bra (.ifTrue 1) 0x3FFF, .jmp 12, .call 5, .jmpi 10, .ret 10, .calli 20 10,
      .brp true 4 21, .brp false 4 21], Meets aimed i) ∧
    (let good (a : DWord) : Prop := aimed.badTarget (cx aimed).who a.toNat = none
     good ((cx aimed).y0.pc + BitVec.signExtend 64 (21 : BitVec 14) * 4) ∧ good ((cx aimed).y0.pc + BitVec.signExtend 64 (0x3FFF : BitVec 14) * 4) ∧
       good ((cx aimed).y0.pc + BitVec.signExtend 64 (12 : BitVec 25) * 4) ∧ good ((cx aimed).y0.pc + BitVec.signExtend 64 (5 : BitVec 25) * 4)) ∧
    ∀ l ∈ (cx aimed).ls, aimed.badTarget (cx aimed).who (aimed.vpair (cx aimed) l 10).toNat = none :=
  ⟨meets_all (by decide), ⟨by decide, by decide, by decide, by decide⟩, by decide⟩

theorem witness_windowAndLiveness : ∀ i ∈ [.nop, .yield, .pend 5, .wbase 58, .vfree 10 10], Meets calm i := meets_all (by decide)

/-- Lanes 0 and 3 at a word, lane 1 at its JOIN, and the masks of barrier 2. -/
def barred (e a : BitVec 32) : State :=
  let s := board [(0, thread []), (1, { thread [] with park := .join 2 }), (3, thread [])]
  { s with focus := some ⟨0, [0, 3]⟩ }.modGroup 0 fun x => { x with barE := [(2, e)], barA := [(2, a)] }

theorem witness_rejoinBarriers :
    let c (e a : BitVec 32) : Cx := cx (barred e a)
    let set := maskOf (c 0 0).ls
    (∀ l ∈ (c 0 0).ls, l < 32) ∧ Meets (barred 2 0) (.enrol 2) ∧
    (∀ p ∈ ([(0, 0), (0x1A, 2)] : List (BitVec 32 × BitVec 32)), Meets (barred p.1 p.2) (.join 2) ∧
      ((c p.1 p.2).x.enrolled 2 = 0 ∨ (c p.1 p.2).x.enrolled 2 &&& ~~~((c p.1 p.2).x.arrived 2 ||| ((c p.1 p.2).x.enrolled 2 &&& set)) ≠ 0)) ∧
    (let e := (c 0xB 2).x.enrolled 2
     let a := (c 0xB 2).x.arrived 2
     Meets (barred 0xB 2) (.join 2) ∧ e ≠ 0 ∧ e &&& ~~~(a ||| (e &&& set)) = 0 ∧ (∀ l < 32, a.getLsbD l = true → l ∉ (c 0xB 2).ls) ∧
       ∀ l < 32, a.getLsbD l = true → (tabGet (c 0xB 2).x.lanes l).isSome = true) ∧
    (∀ p ∈ ([(9, 0), (0x1B, 2)] : List (BitVec 32 × BitVec 32)), Meets (barred p.1 p.2) (.leave 2) ∧
      ((c p.1 p.2).x.enrolled 2 &&& ~~~set = 0 ∨
        (c p.1 p.2).x.enrolled 2 &&& ~~~set &&& ~~~((c p.1 p.2).x.arrived 2 &&& ~~~set) ≠ 0)) ∧
    (let e := (c 0xB 2).x.enrolled 2
     let a := (c 0xB 2).x.arrived 2
     Meets (barred 0xB 2) (.leave 2) ∧ e &&& ~~~set ≠ 0 ∧ e &&& ~~~set &&& ~~~(a &&& ~~~set) = 0 ∧
       ∀ l < 32, (a &&& ~~~set).getLsbD l = true → (tabGet (c 0xB 2).x.lanes l).isSome = true) :=
  ⟨by decide, meets_of (by decide),
    fun p hp => ⟨meets_of (List.all_eq_true.mp (by decide : ([(0, 0), (0x1A, 2)] : List (BitVec 32 × BitVec 32)).all
      (fun p => Instr.wf (.join 2) && readies (.join 2) (barred p.1 p.2)) = true) p hp), by
      simp only [List.mem_cons, List.not_mem_nil, or_false] at hp
      rcases hp with rfl | rfl <;> decide⟩,
    ⟨meets_of (by decide), by decide, by decide, by decide, by decide⟩,
    fun p hp => ⟨meets_of (List.all_eq_true.mp (by decide : ([(9, 0), (0x1B, 2)] : List (BitVec 32 × BitVec 32)).all
      (fun p => Instr.wf (.leave 2) && readies (.leave 2) (barred p.1 p.2)) = true) p hp), by
      simp only [List.mem_cons, List.not_mem_nil, or_false] at hp
      rcases hp with rfl | rfl <;> decide⟩,
    ⟨meets_of (by decide), by decide, by decide, by decide⟩⟩

/-- EXIT beside a lane that goes on; REGROUP beside one that has not come; REGROUP of all there are. -/
theorem witness_exitAndRegroup :
    let s := { calm with focus := some ⟨0, [3]⟩ }
    let c := cx s
    (Meets s .exit ∧ (∀ l ∈ c.ls, s.entries c.g l = 0) ∧ (∀ g ∈ s.groups, ∀ y ∈ g.2.lanes, y.2.park ≠ .stand) ∧
      (∃ l, l ∉ c.ls ∧ (c.x.lane l).fin = false) ∧ c.gr.pkt.det = false ∧ c.gr.picked = [] ∧ ∀ l ∈ c.ls, (c.x.lane l).inSect = false) ∧
    (Meets s .regroup ∧ (∀ l ∈ c.ls, s.entries c.g l = 0 ∧ (c.x.lane l).flagsZero = true ∧ ∀ k < 8, (c.x.enrolled k).getLsbD l = false) ∧
      ∃ g x l y, tabGet s.groups g = some x ∧ x.team = c.x.team ∧ x.role = 0 ∧ coreOf g = coreOf c.g ∧ tabGet x.lanes l = some y ∧
        y.fin = false ∧ y.park ≠ .stand ∧ (g = c.g → l ∉ c.ls)) ∧
    let c := cx calm
    Meets calm .regroup ∧ (∀ l ∈ c.ls, calm.entries c.g l = 0 ∧ (c.x.lane l).flagsZero = true ∧ ∀ k < 8, (c.x.enrolled k).getLsbD l = false) ∧
      calm.vgroups c.x.team (coreOf c.g) = [c.g] ∧ (∀ l ∈ c.x.live, l ∈ c.ls) ∧ ∀ l ∈ c.ls, l < 32 :=
  ⟨⟨meets_of (by decide), by decide, by decide, ⟨0, by decide, by decide⟩, by decide, by decide, by decide⟩,
    ⟨meets_of (by decide), by decide, 0, _, 0, _, rfl, by decide, by decide, by decide, rfl, by decide, by decide, by decide⟩,
    meets_of (by decide), by decide, by decide, by decide, by decide⟩

/-! ### Memory -/

/-- Two lanes with addresses in v10:v11 and v12, data in v4 to v7, and a uniform address in s0:s1. -/
def loaded : State :=
  let y (l : Word) : Lane :=
    thread [(4, 7 + l), (5, 8), (6, 9), (7, 10), (8, 1), (9, 2), (10, 0x2000 + 64 * l), (11, 0), (12, 0x40 + 64 * l), (13, 0)]
  board [(0, y 0), (3, y 3)] [(0, 0x3000), (1, 0)]

theorem witness_loads :
    let s := loaded
    let c := cx s
    let free (l n : Nat) (loc : Loc) : Prop := s.behind c.g l loc n = none ∧ s.loadMeets c.g l loc n = false
    let reads (l va n : Nat) : Prop := free l n (.phys va) ∧ va % n = 0 ∧ s.xlate c.who .load va n = .ok va
    (s.team c.x.team).shadow = none ∧
    (∀ z ∈ [Size.u8, .s8, .u16, .s16, .b32, .b64, .b128], Meets s (.ld false z 20 10 (.lit 16)) ∧
      ∀ l ∈ c.ls, reads l (s.vpair c l 10 + (s.vb c l (.lit 16)).signExtend 64).toNat z.bytes) ∧
    (∀ z ∈ [Size.b32, .b64, .b128], Meets s (.ldu z 4 0 (.lit 16)) ∧ (∀ l ∈ c.ls, (c.x.lane l).hword = c.y0.hword) ∧
      ∀ l ∈ c.ls, reads l (s.upair c 0 + (s.ub c (.lit 16)).signExtend 64).toNat z.bytes) ∧
    (∀ z ∈ [Size.u8, .b128], Meets s (.lds z 20 12 (.lit 16)) ∧ (s.team c.x.team).cores[0]? = some (coreOf c.g) ∧
      ∀ l ∈ c.ls, free l z.bytes (.spad c.x.team 0 (s.vreg c l 12 + s.vb c l (.lit 16)).toNat) ∧
        (s.vreg c l 12 + s.vb c l (.lit 16)).toNat < 2 ^ 23 ∧
        (s.vreg c l 12 + s.vb c l (.lit 16)).toNat % z.bytes = 0 ∧ (s.vreg c l 12 + s.vb c l (.lit 16)).toNat + z.bytes ≤ s.sliceBytes c) := by
  refine ⟨by decide, fun z hz => ⟨meets_of ?_, ?_⟩, fun z hz => ⟨meets_of ?_, by decide, ?_⟩, fun z hz => ⟨meets_of ?_, by decide, ?_⟩⟩ <;>
    revert z <;> letI (a b : Except Cause Nat) := sameResult a b <;> decide

theorem witness_storesToMemory : ∀ z ∈ [Size.u8, .b32, .b128],
    let s := loaded
    let c := cx s
    let i := Instr.st false z 4 10 (.lit 16)
    let va (l : Nat) : Nat := (s.vpair c l 10 + (s.vb c l (.lit 16)).signExtend 64).toNat
    Meets s i ∧ (s.team c.x.team).shadow = none ∧
      ∀ l ∈ c.ls, s.joins c i l = false ∧ va l % z.bytes = 0 ∧ s.xlate c.who .store (va l) z.bytes = .ok (va l) := by
  refine fun z hz => ⟨meets_of ?_, by decide, ?_⟩ <;> revert z <;> letI (a b : Except Cause Nat) := sameResult a b <;> decide

theorem witness_storesToSlices : ∀ z ∈ [Size.u8, .b32, .b128],
    let s := loaded
    let c := cx s
    let i := Instr.sts z 4 12 (.lit 16)
    let at' (l : Nat) : Nat := (s.vreg c l 12 + s.vb c l (.lit 16)).toNat
    Meets s i ∧ (s.team c.x.team).cores[0]? = some (coreOf c.g) ∧ (s.slice? c.x.team 0).isSome = true ∧
      ∀ l ∈ c.ls, s.joins c i l = false ∧ at' l < 2 ^ 23 ∧ at' l % z.bytes = 0 ∧ at' l + z.bytes ≤ s.sliceBytes c := by
  refine fun z hz => ⟨meets_of ?_, by decide, by decide, ?_⟩ <;> revert z <;> decide

/-- `loaded`, with a store of each lane waiting in its chain. -/
def chained : State :=
  let e (l : Nat) : Resid :=
    { g := 0, lane := l, lanes := [l], ins := .st false .b32 4 10 (.lit 16), kind := .store (.phys (0x2010 + 64 * l)) 4 (0x2010 + 64 * l) false,
      srcs := [.ready 5] }
  { loaded with resid := [(7, e 0), (8, e 3)] }

theorem witness_storeChain :
    let s := chained
    let c := cx s
    let va (l : Nat) : Nat := (s.vpair c l 10 + (s.vb c l (.lit 16)).signExtend 64).toNat
    let placed (acc : Acc) : Prop := ∀ l ∈ c.ls, s.room c l = true ∧ va l % 4 = 0 ∧ s.xlate c.who acc (va l) 4 = .ok (va l)
    (Meets s (.st false .b32 4 10 (.lit 16)) ∧ placed .store ∧ ∀ l ∈ c.ls, s.joins c (.st false .b32 4 10 (.lit 16)) l = true) ∧
    (Meets s (.fenceRel .device) ∧ ∀ l ∈ c.ls, s.room c l = true ∧ s.chain c.g l ≠ []) ∧
    (Meets s (.fenceFull .device) ∧ ∀ l ∈ c.ls, s.room c l = true ∧ s.chain c.g l ≠ [] ∧ s.loadsOut c.g l = false) ∧
    (Meets s (.ld false .b32 20 10 (.lit 16)) ∧ placed .load ∧ ∀ l ∈ c.ls, s.behind c.g l (.phys (va l)) 4 ≠ none) ∧
    ∀ i ∈ [Instr.atom .fadd false false .rlx .thread 20 10 4, .atom .add true false .rel .device 0 10 4, .cas false .ar .device 20 10 4],
      Meets s i ∧ ∀ l ∈ c.ls, s.joins c i l = true ∧ s.room c l = true ∧ (s.vpair c l 10).toNat % 4 = 0 ∧
        s.xlate c.who .atomic (s.vpair c l 10).toNat 4 = .ok (s.vpair c l 10).toNat ∧
        s.hostAtomicOk i (.phys (s.vpair c l 10).toNat) = true := by
  letI (a b : Except Cause Nat) := sameResult a b
  exact ⟨⟨meets_of (by decide), by decide, by decide⟩, ⟨meets_of (by decide), by decide⟩, ⟨meets_of (by decide), by decide⟩,
    ⟨meets_of (by decide), by decide, by decide⟩, fun i hi => ⟨meets_all (by decide) i hi, by revert i; decide⟩⟩

/-- An atomic of GROUP scope by a thread of another group. -/
def rival : AtomWrite := { time := 3, party := ⟨threadKey 6 40, 6, 0, [], 0, false⟩, scope := .group, merges := false, size := 4, prev := 5 }

/-- One lane of `loaded`, whose word was last written by that atomic. -/
def racing : State :=
  { loaded with
    focus := some ⟨0, [0]⟩, stored := (upto 4).map fun k => (0x2000 + k, [(3, 0)]), order := { atoms := [(.phys 0x2000, [rival])] } }

/-- Atomics of either width with no write that they can miss; one that misses a write, or none, as the free value has it. -/
theorem witness_atomics :
    (let s := loaded
     let c := cx s
     let ok (i : Instr) (n : Nat) : Prop := Meets s i ∧ (∀ l ∈ c.ls, s.joins c i l = false ∧ (s.vpair c l 10).toNat % n = 0 ∧
       s.xlate c.who .atomic (s.vpair c l 10).toNat n = .ok (s.vpair c l 10).toNat ∧ s.hostAtomicOk i (.phys (s.vpair c l 10).toNat) = true) ∧
       ∀ l ∈ c.ls, ∀ e ∈ s.order.atoms, e.1 = .phys (s.vpair c l 10).toNat → ∀ w ∈ e.2, s.misses c.g [l] i w = false
     (∀ i ∈ [Instr.atom .add false false .rlx .device 20 10 4, .atom .exch true false .rel .group 0 10 4, .cas false .ar .device 20 10 4], ok i 4) ∧
       ∀ i ∈ [Instr.atom .min false true .rlx .device 20 10 4, .cas true .ar .device 20 10 4], ok i 8) ∧
    (let s := racing
     let c := cx s
     let i := Instr.atom .add false false .rlx .device 20 10 4
     Meets s i ∧ c.ls = [0] ∧ s.joins c i 0 = false ∧ (s.vpair c 0 10).toNat = 0x2000 ∧ s.xlate c.who .atomic 0x2000 4 = .ok 0x2000 ∧
       s.hostAtomicOk i (.phys 0x2000) = true ∧ s.missed c.g [0] i (.phys 0x2000) = pick (s.freeWord (2 ^ 57 + 2)).toNat [rival]) := by
  letI (a b : Except (Cause × Nat) Nat) := sameResult a b
  exact ⟨⟨fun i hi => ⟨meets_all (by decide) i hi, by revert i; decide, by simp [loaded, board]⟩,
      fun i hi => ⟨meets_all (by decide) i hi, by revert i; decide, by simp [loaded, board]⟩⟩,
    meets_of (by decide), by decide, by decide, by decide, by decide, by decide, rfl⟩

/-- Either a write is missed or none is. -/
theorem witness_atomics_either (n : Nat) : pick n [rival] = none ∨ pick n [rival] = some rival := by
  simp only [pick]
  split
  · exact .inl rfl
  · rename_i k _
    cases k
    · exact .inr rfl
    · exact .inl rfl

theorem witness_fencesAndCacheControl :
    let s := loaded
    let c := cx s
    (∀ i ∈ [Instr.fenceAcq .device, .fenceRel .device, .fenceFull .host, .fenceAsync .core, .icinv .device], Meets s i) ∧
    (∀ l ∈ c.ls, s.readsOut c.g l = false ∧ s.loadsOut c.g l = false ∧ s.chain c.g l = [] ∧ (c.x.lane l).hword = c.y0.hword) ∧
    (∀ i ∈ [Instr.cctlWb 10 (.reg 5), .cctlInv 10 (.reg 5), .cctlWbinv 10 (.reg 5)], Meets s i) ∧
    ∀ l ∈ c.ls, s.cctlRun c.who (s.vpair c l 10).toNat (s.vb c l (.reg 5)).toNat =
      .ok [⟨0x2000 + 64 * l, .phys (0x2000 + 64 * l), 8⟩] := by
  letI (a b : Except (Cause × Nat) (List Piece)) := sameResult a b
  exact ⟨meets_all (by decide), by decide, meets_all (by decide), by decide⟩

/-- From lane 0, which owes nothing, and from lane slot 1, which holds no thread. -/
theorem witness_shuffles : (∀ i ∈ [.shfl .w16 .idx 3 4 (.lit 0), .shfl .w16 .idx 3 4 (.lit 1)], Meets calm i) ∧ (∀ l ∈ (cx calm).ls, l < 32) ∧
    ((cx calm).x.lane 0).fin = false ∧ (cx calm).x.isPending 0 (.v 4) = false ∧ ((cx calm).x.lane 1).fin = true :=
  ⟨meets_all (by decide), by decide, by decide, by decide, by decide⟩

/-! ### Pending registers -/

/-- One lane that owes v20 a write under tag 50 and s3 one under tag 51, and an access, a closure or an entry with identity 60. -/
def owing (ops : Tab MemOp) (resid : Tab Resid) : State :=
  State.modGroup
    { board [(0, { thread [(4, 7), (5, 8), (20, 0)] with pend := [(20, 50)], flags := [(0, 1)] })] with ops := ops, resid := resid, nextId := 100 }
    0 fun x => { x with spend := [(3, 51)] }

/-- An access that will bring 9 to v20. -/
def access : MemOp := { g := 0, uid := 2, lane := 0, lanes := [0], dsts := [(.v 20, 50)], vals := [9], flag := some 0 }

theorem witness_accessesComplete :
    (∀ o ∈ [access, { access with engine := true }, { access with lost := true },
        { access with lost := true, dsts := [(.s 3, 51)], lanes := [0, 3] },
        { access with dsts := [], vals := [], icinv := true, reach := [0, 639], ctx := 1 }],
      let s := owing [(60, o)] []
      tabGet s.ops 60 = some o ∧ (tabGet s.groups o.g).isSome = true ∧ (s.group o.g).uid = o.uid ∧ (s.group o.g).Owes o.lane o.dsts ∧
        o.lanes.Nodup) ∧
    (access.engine = false ∧ access.awaits = none ∧ access.remote = none ∧ access.lost = false ∧ access.vals.length = access.dsts.length) ∧
    (owing [] []).chainBefore 60 { access with icinv := true } = false :=
  ⟨fun o ho => ⟨by revert o; decide, by revert o; decide, by revert o; decide, owes_of (by revert o; decide), by revert o; decide⟩,
    by decide, by decide⟩

/-- The sum of v4 and v5, captured with its values. -/
def closure : Resid :=
  { g := 0, lane := 0, ins := .iadd .w32 20 4 (.reg 5), kind := .alu, srcs := [.ready 7, .ready 8], dsts := [(.v 20, 50)] }

/-- An entry of the chain of lane 0. -/
def entry (i : Instr) (k : ResKind) : Resid := { g := 0, lane := 0, lanes := [0], ins := i, kind := k, srcs := [.ready 5], flag := some 0 }

theorem witness_closuresAndEntriesRun :
    let s (r : Resid) : State := owing [] [(60, r)]
    let there (r : Resid) : Prop := tabGet (s r).resid 60 = some r ∧ (tabGet (s r).groups r.g).isSome = true ∧ r.lanes.Nodup
    let store := entry (.st false .b32 4 10 (.lit 0)) (.store (.phys 0x2000) 4 0x2000 false)
    let wide := { entry (.st false .b128 4 10 (.lit 0)) (.store (.phys 0x2000) 16 0x2000 false) with srcs := List.replicate 4 (.ready 5) }
    let half := entry (.st false .b128 4 10 (.lit 0)) (.half (.phys 0x2008) 0x2008 (List.replicate 8 9))
    let fence := entry (.fenceRel .device) (.fence false)
    let load := entry (.ld false .b32 20 10 (.lit 0)) (.load [] (.phys 0x2000) 4 0x2000)
    let fetch := { entry (.fetch 20 0 4) (.read [] [9] [⟨0x2000, .phys 0x2000, 4⟩] 3) with dsts := [(.v 20, 50)] }
    let atom := { entry (.atom .add false false .ar .device 20 10 4) (.atomic (.phys 0x2000) 0x2000) with dsts := [(.v 20, 50)] }
    (there closure ∧ (∃ u, Instr.alu closure.ins = some u) ∧ (s closure).readyClosure (coreOf closure.g) = some (60, closure) ∧
      ((s closure).group 0).Owes closure.lane closure.dsts) ∧
    (there store ∧ (s store).chainReady 60 store = true ∧ ((s store).team 6).shadow = none ∧ 60 < (s store).nextId ∧
      (s store).lostAt 0x2000 (wordsBytes 4 store.values).length = false) ∧
    (there wide ∧ (s wide).chainReady 60 wide = true ∧ ((s wide).team 6).shadow = none ∧ 60 < (s wide).nextId ∧
      (wordsBytes 16 wide.values).length = 16 ∧ (s wide).lostAt 0x2000 16 = false) ∧
    (there half ∧ ((s half).team 6).shadow = none ∧ (s half).lostAt 0x2008 8 = false) ∧
    (there fence ∧ (s fence).chainReady 60 fence = true) ∧
    (there load ∧ (s load).chainReady 60 load = true ∧ readBytes load.ins = 4) ∧
    (there fetch ∧ (s fetch).chainReady 60 fetch = true) ∧
    ∀ r ∈ [atom, { atom with ins := .atom .add true false .rel .device 0 10 4, dsts := [] }],
      there r ∧ (s r).chainReady 60 r = true ∧ (s r).lostAt 0x2000 (atomBytes r.ins) = false :=
  ⟨⟨by decide, ⟨_, rfl⟩, by decide, owes_of (by decide)⟩, by decide, by decide, by decide, by decide, by decide, by decide, by decide⟩

theorem witness_pendingRegisters :
    let i := Instr.iadd .w32 20 4 (.reg 5)
    let s (h : Word) (r : Nat) : State := board [(0, { thread [(4, 7), (5, 8)] with hword := h, pend := [(r, 50)] })]
    ∃ u, Instr.alu i = some u ∧
      (let s := s 0x000FF240 4
       let c := cx s
       s.Acts c ∧ i.wf = true ∧ u.parks = false ∧ ∀ l ∈ c.ls, hDefer (c.x.lane l).hword = true ∧ u.srcs.any (c.x.isPending l) = true ∧
        u.firm.any (c.x.isPending l) = false ∧ s.budgeted c.g l < s.residBudget c.x ∧ (dstRegs i c l).Nodup) ∧
      (let s := s 0x000FF200 4
       let c := cx s
       s.Acts c ∧ ∀ l ∈ c.ls, hDefer (c.x.lane l).hword = false ∧ (u.srcs ++ u.firm).any (c.x.isPending l) = true) ∧
      (let s := s 0x000FF240 20
       let c := cx s
       s.Acts c ∧ ∀ l ∈ c.ls, u.srcs.any (c.x.isPending l) = false ∧ u.dsts.any (c.x.isPending l) = true) :=
  ⟨_, rfl, ⟨⟨by decide, by decide, by decide⟩, by decide, rfl, by decide⟩, ⟨⟨by decide, by decide, by decide⟩, by decide⟩,
    ⟨by decide, by decide, by decide⟩, by decide⟩

/-! ### Fetch unit, engines, matrix port -/

/-- Memory that holds runs of bytes. -/
def holding (rs : List (Nat × List Byte)) : Tab Byte := rs.foldl (fun m r => memWrite m r.1 r.2) []

/-- A flat handle of sixteen words at 0x4000, border 0x99. -/
def flat : List Byte :=
  leBytes 8 0x4000 ++ leBytes 8 0x10400 ++ leBytes 4 16 ++ leBytes 4 1 ++ leBytes 4 1 ++ leBytes 4 0x99 ++ List.replicate 32 0

/-- A sampler record of mode 0 over 4 × 4 texels at 0x4000. -/
def sampler : List Byte := leBytes 8 0 ++ leBytes 8 0x4000 ++ leBytes 2 4 ++ leBytes 2 4 ++ leBytes 4 64 ++ List.replicate 40 0

/-- A neural sampler record. -/
def neural : List Byte := leBytes 8 7 ++ leBytes 8 0x4000 ++ leBytes 2 4 ++ leBytes 2 4 ++ leBytes 4 0 ++ leBytes 8 0x5000 ++ List.replicate 32 0

/-- Two lanes, a record at 0x3000 that s0:s1 names, a word of data at 0x4000. -/
def recorded (r : List Byte) (role : Nat) : State :=
  let y (k : Word) : Lane := thread [(4, k), (5, 0), (6, 0), (7, 0), (8, 0x7FC00000), (9, 0)]
  { board [(0, y 0), (3, y 20)] [(0, 0x3000), (1, 0)] role with mem := holding [(0x3000, r), (0x4000, leBytes 4 0x12345678)] }

theorem witness_fetchUnit :
    let handle (r : List Byte) : Prop :=
      let s := recorded r 0
      let c := cx s
      (s.upair c 0).toNat = 0x3000 ∧ s.xlate c.who .load 0x3000 64 = .ok 0x3000 ∧ ∀ k < 64, s.storedAt (0x3000 + k) ≤ (c.fetcher s).start
    (let s := recorded flat 0
     let c := cx s
     let f := c.fetcher s
     let lat := (s.ctx c.gr.ctx).lattice
     let hd := memRead s.mem 0x3000 64
     handle flat ∧ (∀ i ∈ [Instr.fqry 3 0 7, .fetch 20 0 4], Meets s i ∧ ∀ l ∈ c.ls, s.chain c.g l = []) ∧
       (let e : Resid := { g := 0, lane := 3, ins := .st false .b32 4 10 (.lit 0), kind := .store (.phys 0x4000) 4 0x4000 false }
        let s : State := { s with resid := [(7, e)] }
        Meets s (.fetch 20 0 4) ∧ ∀ l ∈ c.ls, s.chain c.g l = [] ∨ s.room c l = true) ∧
       (∀ l ∈ c.ls, (s.fetchElem f lat hd (s.vreg c l 4).toNat (s.vreg c l 5).toNat (s.vreg c l 6).toNat).gives
         (if l = 0 then 0x12345678 else 0x99)) ∧
       handleOk hd = true ∧ memNat s.mem 0x3010 4 ≤ 16 ∧ memNat s.mem 0x3008 3 = 0x10400 ∧ 15 < memNat s.mem 0x3010 4 ∧
       (memNat s.mem 0x3000 8 + 4 * 15) % 4 = 0 ∧ memNat s.mem 0x3000 8 + 4 * 15 < 2 ^ 64 ∧
       s.xlate c.who .load (memNat s.mem 0x3000 8 + 4 * 15) 4 = .ok (0x4000 + 60) ∧
       ∀ k < 4, s.storedAt (0x4000 + 60 + k) ≤ f.start) ∧
    (let s := recorded sampler 0
     let c := cx s
     handle sampler ∧ Meets s (.tex 20 0 8) ∧ samplerOk (memRead s.mem 0x3000 64) = true ∧ memNat s.mem 0x3000 1 ≠ 7 ∧
       ∀ l ∈ c.ls, (s.texPlain (c.fetcher s) (memRead s.mem 0x3000 64) (s.vreg c l 8) (s.vreg c l 9)).gives (List.replicate 4 0x7FC00000)) ∧
    (let s := recorded neural 0
     let c := cx s
     handle neural ∧ Meets s (.tex 20 0 8) ∧ neuralOk (memRead s.mem 0x3000 64) = true ∧ memNat s.mem 0x3000 1 = 7 ∧
       ∀ l ∈ c.ls, (s.texNeural (c.fetcher s) (memRead s.mem 0x3000 64) (s.vreg c l 8) (s.vreg c l 9)).gives (List.replicate 4 0x7FC00000)) ∧
    asFp 0x7FC00000 = .nan := by
  letI (a b : Except Cause Nat) := sameResult a b
  letI (r : Reads Word) (x : Word) := givesIt r x
  letI (r : Reads (List Word)) (x : List Word) := givesIt r x
  exact ⟨⟨by decide, fun i hi => ⟨meets_all (by decide) i hi, by decide⟩, ⟨meets_of (by decide), by decide⟩, by decide, by decide, by decide, by decide, by decide, by decide, by decide, by decide, by decide⟩,
    ⟨by decide, meets_of (by decide), by decide, by decide, by decide⟩, ⟨by decide, meets_of (by decide), by decide, by decide, by decide⟩,
    by decide⟩

/-- A team with ring 2, whose slot that v4 names is `slot`. -/
def ringed (r : Ring) (slot : Word) : State :=
  let s := board [(0, thread [(4, slot), (12, 0)])]
  { s with teams := [(6, { grid := 5, tid := 0, cores := [0], slices := [(0, { rings := [(2, r)] })] })] }

/-- A ring of four slots with given slot states, cursors PC and FC at 0. -/
def ring (states : Tab Nat) : Ring := { n := 4, size := 64, ofs := 0, free := 2, filled := 1, states := states }

theorem witness_stageRings :
    let own (r : Ring) (k : Word) : Prop :=
      (ringed r k).ownSlice (cx (ringed r k)) = 0 ∧ (ringed r k).ring? 6 0 2 = some r ∧ ((ringed r k).team 6).shadow = none
    let slot (r : Ring) (k : Word) : Nat := ((ringed r k).vreg (cx (ringed r k)) (cx (ringed r k)).l0 4).toNat % 64
    let r := ring []
    (own r 0 ∧ Meets (ringed r 0) (.sacqFree 12 2) ∧ 0 < r.free ∧ Meets (ringed r 0) (.sacqFilled 12 2) ∧ 0 < r.filled) ∧
    (let r := ring [(0, 1), (1, 1)]
     own r 1 ∧ Meets (ringed r 1) (.spub 4 2) ∧ slot r 1 < r.n ∧ r.state (slot r 1) = 1 ∧ r.pc ≠ slot r 1 ∧ r.state r.pc ≠ 2) ∧
    (let r := ring [(0, 1), (1, 1)]
     own r 0 ∧ Meets (ringed r 0) (.spub 4 2) ∧ slot r 0 < r.n ∧ r.state (slot r 0) = 1 ∧ r.pc = slot r 0 ∧ r.state ((slot r 0 + 1) % r.n) ≠ 2 ∧ 1 < r.n) ∧
    (own r 3 ∧ Meets (ringed r 3) (.spub 4 2) ∧ slot r 3 < r.n ∧ r.state (slot r 3) ≠ 1) ∧
    (let r := ring [(0, 4), (1, 4)]
     own r 1 ∧ Meets (ringed r 1) (.sfree 4 2) ∧ slot r 1 < r.n ∧ r.state (slot r 1) = 4 ∧ r.fc ≠ slot r 1 ∧ r.state r.fc ≠ 5) ∧
    (let r := ring [(0, 4), (1, 4)]
     own r 0 ∧ Meets (ringed r 0) (.sfree 4 2) ∧ slot r 0 < r.n ∧ r.state (slot r 0) = 4 ∧ r.fc = slot r 0 ∧ r.state ((slot r 0 + 1) % r.n) ≠ 5 ∧ 1 < r.n) ∧
    own r 3 ∧ Meets (ringed r 3) (.sfree 4 2) ∧ slot r 3 < r.n ∧ r.state (slot r 3) ≠ 4 :=
  ⟨⟨by decide, meets_of (by decide), by decide, meets_of (by decide), by decide⟩, ⟨by decide, meets_of (by decide), by decide⟩,
    ⟨by decide, meets_of (by decide), by decide⟩, ⟨by decide, meets_of (by decide), by decide⟩, ⟨by decide, meets_of (by decide), by decide⟩,
    ⟨by decide, meets_of (by decide), by decide⟩, by decide, meets_of (by decide), by decide⟩

/-- A copy record: 64 bytes from 0x4000 to 0x5000. -/
def copyRecord : List Byte := leBytes 8 0x4000 ++ leBytes 8 0x5000 ++ leBytes 4 64 ++ leBytes 4 1 ++ List.replicate 40 0

/-- A chain record: four FP32 elements from 0x4000 to 0x5000 through one step that adds 1.0. -/
def chainRecord : List Byte :=
  leBytes 8 0x4000 ++ leBytes 8 0 ++ leBytes 8 0x5000 ++ leBytes 4 4 ++ leBytes 4 0x10000 ++ leBytes 8 0x3F80000000000000 ++ List.replicate 88 0

/-- A collective record: the sum of four INT32 elements over ranks 0, this device, and 1, which is device 9. -/
def collRecord : List Byte :=
  leBytes 4 0x30000 ++ leBytes 4 2 ++ leBytes 8 0x4000 ++ leBytes 8 0x5000 ++ leBytes 8 4 ++ leBytes 8 0x6000 ++ leBytes 8 0 ++ List.replicate 16 0

/-- What rank 1 of it sends: its record, its PEERS contents, its elements. -/
def rankOne : List Byte := collRecord.set 6 1 ++ leBytes 4 0x90000 ++ leBytes 8 1 ++ leBytes 8 2

set_option maxRecDepth 4000 in
theorem witness_copyEngine :
    let piece (a n : Nat) : Piece := ⟨a, .phys a, n⟩
    (let s := recorded copyRecord 1
     let c := cx s
     Meets s (.cpy 0) ∧ s.readRecord c (.cpy 0) (s.upair c 0).toNat 64 = .ok copyRecord ∧
       s.copySides c copyRecord = .ok ([piece 0x4000 64], [piece 0x5000 64]) ∧ (s.core 0).copyq.length < Config.copyQueue ∧
       copyOk copyRecord (s.ring? c.x.team (s.ownSlice c) (fld copyRecord 0x29 1)) = true) ∧
    (let s := recorded chainRecord 1
     let c := cx s
     Meets s (.chain 0) ∧ s.readRecord c (.chain 0) (s.upair c 0).toNat 128 = .ok chainRecord ∧
       s.chainSides c.who chainRecord = .ok ([piece 0x4000 16], [], [piece 0x5000 16]) ∧ chainOk chainRecord = true) ∧
    (let s := recorded collRecord 1
     let c := cx s
     Meets s (.coll 0) ∧ s.readRecord c (.coll 0) (s.upair c 0).toNat 64 = .ok collRecord ∧
       s.collSides c.who collRecord = .ok ([piece 0x6000 4], [piece 0x4000 16], [piece 0x5000 16]) ∧ s.colls.length < 256 ∧
       collOk collRecord = true) ∧
    (let q : CopyCmd := ⟨60, ⟨0, 2, [0], none, 6, [], none⟩, .copy [piece 0x4000 64] [piece 0x5000 64] none⟩
     let s : State := { board [] with cores := [(7, { copyq := [q] })], stored := [(0x4003, [(90, 5), (80, 4)])] }
     (s.core 7).copyq = q :: [] ∧ 0x4000 + 64 ≤ 0x5000 ∧ s.lostAt 0x4000 64 = false ∧ s.lostAt 0x5000 64 = false) ∧
    (let q : Coll := ⟨0, none, none, collRecord, leBytes 4 0x90000, [piece 0x4000 16], [piece 0x5000 16], none⟩
     let s : State := { board [] with colls := [(60, q)] }
     tabGet s.colls 60 = some q ∧ (∀ e ∈ s.colls, e.1 < 60 → fld e.2.record 0x28 4 ≠ fld q.record 0x28 4) ∧
       ([[], rankOne] : List (List Byte)).length = fld q.record 4 2 ∧ s.lostAt 0x5000 16 = false ∧
       collsAgree q.record q.peers s.flash.device [[], rankOne] = true) := by
  letI (a b : Except (Cause × Nat) (List Byte)) := sameResult a b
  letI (a b : Except (Cause × Nat) (List Piece × List Piece)) := sameResult a b
  letI (a b : Except (Cause × Nat) (List Piece × List Piece × List Piece)) := sameResult a b
  exact ⟨⟨meets_of (by decide), by decide, by decide, by decide, by decide⟩, ⟨meets_of (by decide), by decide, by decide, by decide⟩,
    ⟨meets_of (by decide), by decide, by decide, by decide, by decide⟩, by decide, by decide⟩

/-- A byte of a slice, written at 1 and readied by thread 7 at 2. -/
def readyByte (v : Byte) : SByte := { val := v, wrote := 1, ready := [(7, 2)] }

/-- Consecutive such bytes. -/
def run (f : Nat → Byte) : Nat → Nat → Tab SByte
  | _, 0 => []
  | ofs, n + 1 => (ofs, readyByte (f ofs)) :: run f (ofs + 1) n

theorem run_get (f : Nat → Byte) (ofs n k : Nat) (h : k < n) : tabGet (run f ofs n) (ofs + k) = some (readyByte (f (ofs + k))) := by
  induction n generalizing ofs k with
  | zero => omega
  | succ n ih =>
    cases k with
    | zero => simp [run, tabGet]
    | succ k => simpa [run, tabGet, Nat.add_assoc, Nat.add_comm 1 k] using ih (ofs + 1) k (by omega)

/-- A shape record: a 4 × 4 image of 32 channels at 0x800, one filter, sixteen rows, BF16. -/
def shape : List Byte :=
  leBytes 4 0x800 ++ leBytes 2 4 ++ leBytes 2 4 ++ leBytes 2 32 ++ leBytes 2 0x101 ++ leBytes 4 0x01010101 ++ leBytes 8 0 ++ leBytes 2 4 ++
    leBytes 2 16 ++ List.replicate 36 0

/-- A slice with a tile and two accumulators of sixteen rows, and a shape record at 0x400. -/
def portSlice (bytes : Tab SByte) : Slice :=
  { bytes := bytes, tiles := [(3, { rows := 16, bytes := List.replicate 1024 0 })]
    accs := [(1, ⟨16, List.replicate 1024 0⟩), (2, ⟨16, List.replicate 1024 0⟩)] }

/-- An M group of a team on cores 0 and 1. -/
def ported (bytes : Tab SByte) (mport : List MatCmd) : State :=
  { board [(0, thread [])] [(2, 0), (3, 0), (4, 0x400), (5, 0x1FF000), (6, 0x400), (7, 7), (8, 3)] 2 with
    teams := [(6, { grid := 5, tid := 0, cores := [0, 1], slices := [(0, portSlice bytes), (1, portSlice [])] })]
    cores := [(0, { mport := mport })]
    order := { threads := [(threadKey 6 0, { seen := [(7, 3)] })] } }

theorem witness_matrixCommands :
    let s := ported (run (fun k => shape.getD (k - 0x400) 0) 0x400 64) []
    let c := cx s
    let reg (r : SField) : Nat := (s.ureg c r).toNat
    let acc (k : AField) : Nat := s.rowsAhead 0 c.x.team (s.ownSlice c) (true, k.toNat)
    let tile := s.rowsAhead 0 c.x.team (s.ownSlice c) (false, 3)
    coreOf c.g = 0 ∧ s.sliceBytes c = 4096 ∧ tile = 16 ∧ acc 1 = 16 ∧ acc 2 = 16 ∧
    (∀ i ∈ [Instr.mma true .bf16 1 3 5, .mmasp true .int8 1 3 5, .mma false .bf16 1 3 2, .mmasp false .fp8e4 1 3 2, .mma true .vq2 1 3 8,
      .conv 1 4 2, .scacc 1 2 6, .aclr 1 (.lit 16), .ald 1 2 (.lit 16), .astFp32 1 2, .astBf16 1 2, .tld 3 2 (.lit 0x80000010), .mwait 1],
      Meets s i) ∧
    (reg 5 % 128 < 1 ∧ reg 5 / 128 * 128 + 32 * 64 * 2 ≤ 0x200000 ∧ reg 8 % 128 < 4 ∧ reg 8 / 128 * 128 + 128 * 64 * 1 ≤ 0x200000) ∧
    ((s.team c.x.team).cores.contains 1 = true ∧
      s.rowsAhead 1 c.x.team ((s.team c.x.team).cores.findIdx fun k => k == 1) (true, 1) = tile) ∧
    (let r := s.portBytes (s.sliceOf c.x.team (s.ownSlice c)) (s.portCmd c (.conv 1 4 2) [reg 4, reg 2]) (reg 4) 64
     let z := shapeOf r
     reg 4 % 64 = 0 ∧ reg 2 % 128 = 0 ∧ reg 4 + 64 ≤ 4096 ∧ shapeOk r = true ∧ z.inSlice 4096 = true ∧
       reg 2 + z.r * z.s * z.c * 64 * matBytes (matFmtOf z.fmt) ≤ 0x200000 ∧ acc 1 = z.m) ∧
    (reg 6 % 64 = 0 ∧ reg 7 < 8 ∧ reg 6 + 1024 + 256 ≤ 4096) ∧
    (reg 2 % 256 = 0 ∧ reg 2 < 2 ^ 31 ∧ reg 2 + 256 * 16 ≤ 4096 ∧ reg 2 + 256 * acc 1 ≤ 4096 ∧ reg 2 + 128 * acc 1 ≤ 4096 ∧ reg 2 + 80 * 16 ≤ 4096) ∧
    (s.ub c (.lit 0x80000010)).toNat % 2 ^ 9 = 16 ∧ (s.ub c (.lit 0x80000010)).toNat / 2 ^ 9 % 2 ^ 22 = 0 := by
  refine ⟨by decide, by decide, by decide, by decide, by decide, meets_all (by decide), by decide, by decide, ?_, by decide, by decide, by decide⟩
  decide +kernel

/-- A command that has waited since 100, issued by a thread that knows of thread 7 up to 3. -/
def waiting (i : Instr) (args : List Nat) : MatCmd :=
  { id := 60, own := { g := 0, uid := 2, lanes := [0], flag := none, team := 6 }, slice := 0, ins := i, args := args, since := 100, know := [(7, 3)]
    acc := 1, window := [(0x600000, 4096)] }

/-- OPRDY where a byte is the thread's own, one is of thread 7, of which it knows up to 3, and one of thread 8, of which it knows nothing; each
command alone in its port, and one past another that shares no register with it. -/
theorem witness_matrixResults :
    (let byte (w : Nat) (t : Nat) : SByte := { val := 1, wrote := t, writers := [w] }
     let s := ported [(0, byte (threadKey 6 0) 100), (1, byte 7 3), (2, byte 8 3)] []
     let c := cx s
     let before (l : Nat) (b : SByte) : Prop := ∃ w ∈ b.writers, ∃ u, tabGet (s.seenBy c.g l) w = some u ∧ b.wrote ≤ u
     Meets s .oprdy ∧ (s.team c.x.team).cores.getD 0 Config.cores / 2 = coreOf c.g / 2 ∧
       (s.thread c.g 0 ∈ (byte (threadKey 6 0) 100).writers ∧ 100 ≤ s.clock) ∧ before 0 (byte 7 3) ∧ ∀ l ∈ c.ls, ¬ before l (byte 8 3)) ∧
    (let readied (s : State) (m : MatCmd) (ofs n : Nat) : Prop := ∀ k < n, ∃ b th r u, tabGet (s.sliceOf 6 0).bytes (ofs + k) = some b ∧
       b.wrote ≤ m.since ∧ (th, r) ∈ b.ready ∧ tabGet m.know th = some u ∧ r ≤ u
     let s (ofs : Nat) (m : MatCmd) : State := ported (run (fun _ => 1) ofs 4096) [m]
     (∀ m ∈ [waiting (.aclr 1 (.lit 16)) [16], waiting (.ald 1 2 (.lit 16)) [0, 16], waiting (.astFp32 1 2) [0], waiting (.astBf16 1 2) [0],
       waiting (.mma true .int8 1 3 2) [0]], (s 0 m).portFree ((s 0 m).portOf 60) 60 = some m ∧ m.pair = false ∧
         ((s 0 m).slice? m.own.team m.slice).isSome = true) ∧
     (let m := waiting (.ald 1 2 (.lit 16)) [0, 16]
      readied (s 0 m) m 0 (256 * 16)) ∧
     (let m := waiting (.mma true .int8 1 3 2) [0]
      let x := (s 0x600000 m).sliceOf m.own.team m.slice
      (s 0x600000 m).portFree ((s 0x600000 m).portOf 60) 60 = some m ∧ readied (s 0x600000 m) m 0x600000 4096 ∧ m.acc = 1 ∧ m.window = [(0x600000, 4096)] ∧
        (x.tile 3).bytes.length = 64 * (x.tile 3).rows ∧ (x.acc 1).rows = (x.tile 3).rows ∧ (x.acc 1).cells.length = 64 * (x.acc 1).rows)) ∧
    (let m := waiting (.aclr 2 (.lit 16)) [16]
     let n := { waiting (.mma true .int8 1 3 2) [0] with id := 50 }
     (ported [] [n, m]).portFree ((ported [] [n, m]).portOf 60) 60 = some m) := by
  refine ⟨⟨meets_of (by decide), by decide, by decide, ⟨7, by decide, 3, by decide, by decide⟩, ?_⟩,
    ⟨fun m hm => ?_, fun k hk => ⟨_, 7, 2, 3, run_get _ 0 4096 k hk, by decide, by decide, by decide, by decide⟩, rfl,
      fun k hk => ⟨_, 7, 2, 3, run_get _ 0x600000 4096 k hk, by decide, by decide, by decide, by decide⟩, rfl, rfl, List.length_replicate, rfl,
      List.length_replicate⟩, rfl⟩
  · intro l hl
    obtain rfl := List.mem_singleton.mp (show l ∈ [0] from hl)
    rintro ⟨w, hw, u, hu, -⟩
    obtain rfl := List.mem_singleton.mp hw
    have e : tabGet (State.seenBy (ported [(0, { val := 1, wrote := 100, writers := [threadKey 6 0] }),
      (1, { val := 1, wrote := 3, writers := [7] }), (2, { val := 1, wrote := 3, writers := [8] })] []) 0 0) 8 = none := by decide +kernel
    exact nomatch e.symm.trans hu
  · simp only [List.mem_cons, List.not_mem_nil, or_false] at hm
    obtain rfl | rfl | rfl | rfl | rfl := hm <;> exact ⟨rfl, rfl, rfl⟩

/-! ### Work from the device -/

/-- One lane with a code address in v4:v5, a payload in v6, and words in v8 to v12. -/
def worker (regs : Tab Word) : State := board [(0, thread regs)]

/-- One lane of `worker`, in state with bins on its core. -/
def binned (bins : Tab Bin) : State := { worker [(4, 0x1040), (5, 0), (6, 77)] with cores := [(0, { tlb := [page], bins := bins })] }

/-- A bin of grid 5 for the entry 0x1040 with `n` items. -/
def bin (n : Nat) : Bin := { grid := 5, team := 6, entry := 0x1040, items := List.replicate n ⟨0x1040, 0, 0, 0⟩ }

theorem witness_spawnBins :
    let i := Instr.spawn 4 (.reg 6)
    let det : State := { binned [] with grids := [(5, { ctx := 1, id := 1, queue := 0, pkt := { flags := 17 } })] }
    let other : Bin := { bin 3 with entry := 0x2000 }
    (∀ n ∈ [1, 31], Meets (binned [(0, other), (2, bin n)]) i ∧ (cx (binned [(0, other), (2, bin n)])).ls = [0] ∧
      ((binned [(0, other), (2, bin n)]).vpair (cx (binned [(0, other), (2, bin n)])) 0 4).toNat % 4 = 0 ∧
      (([(0, other), (2, bin n)] : Tab Bin).filter fun e => e.1 < 32).find? (fun e => e.2.grid == 5 && e.2.entry == 0x1040) = some (2, bin n) ∧
      (bin n).closed = false ∧ (bin n).items.length < 32) ∧
    (Meets (binned [(0, other), (2, other)]) i ∧ (cx (binned [(0, other), (2, other)])).gr.pkt.det = false ∧
      (∀ e ∈ ([(0, other), (2, other)] : Tab Bin), e.1 < 32 → e.2.grid = 5 → e.2.entry ≠ 0x1040) ∧
      tabGet ([(0, other), (2, other)] : Tab Bin) 1 = none ∧ ∀ j < 1, (tabGet ([(0, other), (2, other)] : Tab Bin) j).isSome = true) ∧
    (∀ t ∈ [det, { det with cores := [] }], Meets t i ∧ (cx t).ls = [0] ∧ (cx t).gr.pkt.det = true ∧
      (tabGet t.teams (t.parentOf (cx t).x.team)).isSome = true) ∧
    ((det.xlateAll (cx det).who .store ((cx det).stagedAt 0) 16).isOk = true ∧
      (State.xlateAll { det with cores := [] } (cx det).who .store ((cx det).stagedAt 0) 16).isOk = false) ∧
    (Meets (binned [(0, other)]) .binflush ∧ (cx (binned [(0, other)])).gr.pkt.det = false) ∧
    let come (t : State) : Prop := (∀ g ∈ t.familyOf 6, ∀ k ∈ (t.group g).live, (g = (cx t).g ∧ k ∈ (cx t).ls) ∨ ((t.group g).lane k).park = .flush) ∧
      t.packsWait 6 = false ∧ ∀ e ∈ t.teams, t.parentOf e.1 = 6 → e.2.savedLive = false
    let two : State := { det with groups := det.groups ++ [(1, det.group 0)] }
    (Meets det .binflush ∧ det.parentOf (cx det).x.team = 6 ∧ come det) ∧
    (Meets two .binflush ∧ (cx two).gr.pkt.det = true ∧ two.parentOf (cx two).x.team = 6 ∧ ¬ come two) := by
  refine ⟨fun n hn => ⟨meets_of ?_, ?_⟩, ⟨meets_of (by decide), by decide⟩, fun t ht => ⟨meets_of ?_, ?_⟩, by decide,
    ⟨meets_of (by decide), by decide⟩, ⟨meets_of (by decide), by decide, by decide⟩, meets_of (by decide), by decide, by decide, by decide⟩
  · revert n; decide
  · revert n; decide
  · revert t; decide
  · revert t; decide

/-- A descriptor of context 1: ring at 0x8000, index block at 0x9000, four slots. -/
def descriptor (flags : Byte) : List Byte :=
  leBytes 8 0x8000 ++ leBytes 8 0x9000 ++ [2, flags] ++ leBytes 2 1 ++ List.replicate 44 0

/-- `worker` with queue 3 and counter 40. -/
def served (flags : Byte) (w r : Nat) (k : Counter) (regs : Tab Word) : State :=
  { worker regs with queues := [(3, { desc := descriptor flags, w := w, r := r })], counters := [(40, k)] }

set_option maxRecDepth 4000 in
theorem witness_queuesAndCounters :
    (let s := served 5 8 6 {} [(4, 3), (6, 0x4000), (7, 0)]
     let x := s.queue 3
     Meets s (.enq 4 6) ∧ (cx s).ls = [0] ∧ (cx s).heldBelow 0 = false ∧ (s.vreg (cx s) 0 4).toNat = 3 ∧ x.en = true ∧ x.device = true ∧ x.task = false ∧
       x.ctxid = (cx s).gr.ctx ∧ x.w - x.r < x.slots ∧ x.hold = [] ∧ s.ringFail 3 x.w .store = [none, none] ∧
       s.enqBytes (cx s) 0 3 6 = .ok (List.replicate 128 0) ∧ ∃ v, s.pushSlot 3 (List.replicate 128 0) = .ok v) ∧
    (let s := served 7 8 6 {} [(4, 3), (8, 0x1040), (9, 0), (10, 5), (11, 0)]
     let x := s.queue 3
     Meets s (.enq 4 8) ∧ x.task = true ∧ (8 : VField).toNat % 4 = 0 ∧ s.vreg (cx s) 0 8 ≠ 0 ∧ (v4 8).any ((cx s).x.isPending 0) = false ∧
       s.ringFail 3 x.w .store = [none, none] ∧ s.enqBytes (cx s) 0 3 8 = .ok (leBytes 8 0x1040 ++ leBytes 8 5) ∧
       ∃ v, s.pushSlot 3 (leBytes 8 0x1040 ++ leBytes 8 5) = .ok v) ∧
    (let s := served 3 8 7 {} [(4, 3)]
     let x := s.queue 3
     (∀ b, Meets s (.deq b 20 4)) ∧ x.en = true ∧ x.task = true ∧ x.ctxid = (cx s).gr.ctx ∧ x.r < x.w ∧
       s.ringFail 3 x.r .load = [none, none] ∧ s.readVa x.who (x.slotAddr x.r) 16 = .ok (List.replicate 16 0) ∧
       ∃ v, s.putVa x.who (x.field 8 8 + 0x80) (leBytes 8 (x.r + 1)) = .ok v) ∧
    (let s := served 3 8 8 {} [(4, 3)]
     Meets s (.deq false 20 4) ∧ (s.queue 3).w ≤ (s.queue 3).r) ∧
    (let s (k : Counter) (n : Word) := served 5 0 0 k [(4, 40), (5, n)]
     (Meets (s { value := 2 } 0xFFFFFFFD) (.depadd 4 (.reg 5)) ∧ ((s { value := 2 } 0xFFFFFFFD).counter 40).value + 0xFFFFFFFD < 2 ^ 32) ∧
     (Meets (s { value := 2 } 2) (.depdec 4 (.reg 5)) ∧ ((s { value := 2 } 2).counter 40).armed = false) ∧
     (Meets (s { value := 2, armed := true } 1) (.depdec 4 (.reg 5)) ∧ 1 < ((s { value := 2, armed := true } 1).counter 40).value) ∧
     (Meets (s { armed := true } 0) (.depdec 4 (.reg 5)) ∧ ((s { armed := true } 0).counter 40).value = 0) ∧
     Meets (s { value := 2, armed := true } 2) (.depdec 4 (.reg 5)) ∧ ((s { value := 2, armed := true } 2).counter 40).value = 2 ∧
       ((s { value := 2, armed := true } 2).counter 40).armed = true) ∧
    (let s := served 5 0 0 {} [(4, 0x30028), (5, 2), (6, 0x4000), (7, 0)]
     let q := s.queue 3
     Meets s (.depset 4 6 (.reg 5)) ∧ (s.vreg (cx s) 0 4).toNat = 3 * 2 ^ 16 + 40 ∧ (s.vpair (cx s) 0 6).toNat % 128 = 0 ∧
       0 < (s.vb (cx s) 0 (.reg 5)).toNat ∧ (s.counter 40).armed = false ∧
       (∃ bs, s.readVa (cx s).who (s.vpair (cx s) 0 6).toNat 128 = .ok bs) ∧ q.en = true ∧ q.task = false ∧ q.device = true ∧
       q.ctxid = (cx s).gr.ctx) := by
  letI (a b : Except (Cause × Nat) (List Byte)) := sameResult a b
  refine ⟨⟨meets_of (by decide), by decide, by decide, by decide, by decide, by decide, by decide, by decide, by decide, by decide, by decide, by decide,
      some_ok (by decide)⟩, ⟨meets_of (by decide), by decide, by decide, by decide, by decide, by decide, by decide, some_ok (by decide)⟩,
    ⟨fun b => meets_of (by revert b; decide), by decide, by decide, by decide, by decide, by decide, by decide, some_ok (by decide)⟩,
    ⟨meets_of (by decide), by decide⟩,
    ⟨⟨meets_of (by decide), by decide⟩, ⟨meets_of (by decide), by decide⟩, ⟨meets_of (by decide), by decide⟩, ⟨meets_of (by decide), by decide⟩,
      meets_of (by decide), by decide⟩,
    meets_of (by decide), by decide, by decide, by decide, by decide, some_ok (by decide), by decide⟩

/-- A slot descriptor: width 8, experts 3 and 5 with weights 1.0, to 0x5000. -/
def slotRecord : List Byte :=
  leBytes 4 9 ++ leBytes 2 8 ++ leBytes 2 2 ++ leBytes 8 0x503 ++ leBytes 4 0x3F800000 ++ leBytes 4 0x3F800000 ++ List.replicate 24 0 ++
    leBytes 8 0x5000 ++ List.replicate 16 0 ++ leBytes 4 0xFFFFFFFF ++ List.replicate 4 0

/-- `worker` with combine state on die 0: slot 0 open in generation 5. -/
def combining (regs : Tab Word) : State :=
  { worker regs with
    ctxs := [(1, { root := 0, coops := [(0, { relq := some (0x8000, 4, 0x9000), gens := [(0, 5)], slots := [(0, slotOf slotRecord 5 true 0)] })] })]
    mem := holding [(0x4000, slotRecord)] }

set_option maxRecDepth 4000 in
theorem witness_combineSlots :
    let coop (s : State) : Cooper := (s.ctx (cx s).gr.ctx).coop 0
    (let s := combining [(4, 0x4000), (5, 0)]
     (cx s).ls = [0] ∧ (tabGet s.ctxs (cx s).gr.ctx).isSome = true ∧ (∀ b, Meets s (.cmbopen b 20 4)) ∧ s.chain (cx s).g 0 = [] ∧
       (∀ b, s.openChecks (cx s) b 4 0 = none) ∧ (cx s).heldBelow 0 = false ∧ s.slotDesc (cx s) 0 4 = .ok slotRecord ∧
       (coop s).freeIndex (fld slotRecord 6 1) (fld slotRecord 4 2) = some 1) ∧
    (let s := combining [(4, 0x50000), (5, 3), (6, 0x3FFFFFE0), (7, 0)]
     let y := slotOf slotRecord 5 true 0
     Meets s (.cmbput 4 6) ∧ (s.vpair (cx s) 0 6).toNat % 16 = 0 ∧
       (∃ ps, s.xlateAll (cx s).who .load (s.vpair (cx s) 0 6).toNat (min 16 (4096 - (s.vpair (cx s) 0 6).toNat % 4096)) = .ok ps) ∧
       (s.vreg (cx s) 0 5).toNat < 2 ^ 8 ∧ (s.vreg (cx s) 0 4).toNat / 2 ^ 28 ≤ 3 ∧ (coop s).current (s.vreg (cx s) 0 4).toNat = some y ∧
       y.st = .opened ∧ y.experts.findIdx (fun e => e == 3) = 0 ∧ 0 < y.experts.length ∧ bitAt y.arrived 0 = false ∧
       y.arrived + 2 ^ 0 ≠ 2 ^ y.experts.length - 1 ∧ 2 * y.width ≤ (s.putRun (cx s).who 9 0x3FFFFFE0 32768).length) ∧
    (∀ id ∈ [0x50000, 0x40000], let s := combining [(4, id)]
     (∀ i ∈ [Instr.cmbstat 20 4, .cmbclose 4, .cmbcancel 4], Meets s i) ∧ (cx s).gr.pkt.det = false ∧ (s.vreg (cx s) 0 4).toNat / 2 ^ 28 ≤ 3 ∧
       ((coop s).current (s.vreg (cx s) 0 4).toNat = if id = 0x50000 then some (slotOf slotRecord 5 true 0) else none) ∧
       (slotOf slotRecord 5 true 0).st = .opened) := by
  letI (a b : Except (Cause × Nat) (List Byte)) := sameResult a b
  refine ⟨⟨by decide, by decide, fun b => meets_of (by revert b; decide), by decide, by decide, by decide, by decide, by decide⟩,
    ⟨meets_of (by decide), by decide, some_ok (by decide), by decide, by decide, by decide, by decide, by decide, by decide, by decide, by decide,
      by decide⟩, fun id hid => ?_⟩
  simp only [List.mem_cons, List.not_mem_nil, or_false] at hid
  obtain rfl | rfl := hid <;> exact ⟨meets_all (by decide), by decide, by decide, by decide, by decide⟩

/-! ### Rays and the vertex graph -/

/-- A structure of one triangle, (0,0,0), (1,0,0), (0,1,0), of geometry 6 and instance word 9. -/
def triangle : Tab Byte :=
  let one := leBytes 4 0x3F800000
  holding [(0x3000, leBytes 8 0x4000 ++ leBytes 8 0x5000 ++ leBytes 4 1 ++ leBytes 4 0x80000000 ++ leBytes 4 0 ++ leBytes 4 9 ++ List.replicate 32 0),
    (0x5000, leBytes 12 0 ++ one ++ leBytes 12 0 ++ one ++ leBytes 4 0 ++ leBytes 4 6 ++ List.replicate 8 0)]

/-- A ray from (1/4, 1/4, −1) along z in v8 to v15, with `x` as its first component, and an index in v4. -/
def rayed (x index : Word) : State :=
  { board [(0, thread [(4, index), (8, x), (9, 0x3E800000), (10, 0xBF800000), (11, 0), (12, 0), (13, 0), (14, 0x3F800000), (15, 0x7F800000)])]
      [(4, 0x3000), (5, 0)] with mem := triangle }

set_option maxRecDepth 4000 in
/-- The ray meets the triangle at t = 1, u = v = 1/4; index 0 has a geometry and index 1 has none. -/
theorem witness_rayQueries :
    let ray (s : State) : Ray :=
      let v (k : Nat) : Word := s.readOpd (cx s).x 0 (.v (8 + k))
      ⟨⟨v 0, v 1, v 2⟩, v 3, ⟨v 4, v 5, v 6⟩, v 7⟩
    let header (s : State) : Prop := ∃ hd, (s.header (cx s).who (cx s).x.team 0x3000).gives hd ∧ s.structOk (cx s).who (cx s).x.team hd = true ∧ fld hd 0x18 1 = 0 ∧ fld hd 0x10 4 = 1
    (let s := rayed 0x3E800000 0
     Meets s (.trace .none false 20 8 4) ∧ Meets s (.hitget 20 4 (.reg 4)) ∧ s.chain (cx s).g 0 = [] ∧ (s.upair (cx s) 4).toNat = 0x3000 ∧
       (s.traceWords (cx s) 0 .none false (ray s) 0x3000).gives [0x3F800000, 0, 0x3E800000, 0x3E800000] ∧
       (s.hitgetWords (cx s) (s.vb (cx s) 0 (.reg 4)).toNat 0x3000).gives [9, 6, 0, 0]) ∧
    (let s := rayed 0x7FC00000 1
     Meets s (.trace .all true 20 8 4) ∧ Meets s (.hitget 20 4 (.reg 4)) ∧ header s ∧ asFp (s.readOpd (cx s).x 0 (.v 8)) = .nan ∧
       1 ≤ (s.vb (cx s) 0 (.reg 4)).toNat) := by
  letI (r : Reads (List Word)) (x : List Word) := givesIt r x
  exact ⟨⟨meets_of (by decide), meets_of (by decide), by decide, by decide, by decide, by decide⟩,
    ⟨meets_of (by decide), meets_of (by decide), ⟨_, ⟨rfl, rfl⟩, by decide, by decide, by decide⟩, by decide, by decide⟩⟩

/-- A vertex of depth 0 at the origin: a light vertex or an eye vertex. -/
def vertex (light : Bool) (id : Word) : Vertex :=
  ⟨List.replicate 5 0 ++ [if light then 0x10000 else 0, 0x3F800000] ++ List.replicate 5 0 ++ [id] ++ List.replicate 3 0, 1⟩

/-- A graph of epoch 1, sealed, with a light path and an eye path; frame 7 draws on it and appends to epoch 2. -/
def graphed : Ctx :=
  { root := 0, epochs := [(1, { st := .sealed, lights := 1 }), (2, { st := .opened })], frames := [(7, ⟨2, 2, 0x3F800000, 0x40490FDB, 3, 5⟩)]
    verts := [(0x4000000, vertex true 0x4000000), (0x4000001, vertex false 0x4000001)], joinery := 9 }

/-- Ids, or an id and a cursor or a part, in v8:v9, densities in v4 to v7. -/
def asking (a b : Word) : State :=
  { board [(0, thread [(4, 0), (5, 0x3F800000), (6, 0), (7, 0x3F800000), (8, a), (9, b)])] [(3, 7)] with ctxs := [(1, graphed)] }

theorem witness_graphQueries :
    let fr : Frame := ⟨2, 2, 0x3F800000, 0x40490FDB, 3, 5⟩
    let x := graphed
    let named (s : State) : Prop := (tabGet s.ctxs (cx s).gr.ctx).isSome = true ∧ s.ctx (cx s).gr.ctx = x ∧
      tabGet x.frames ((s.ub (cx s) (.reg 3)).toNat % 2 ^ 8) = some fr
    (let s := asking 0x4000000 0x4000001
     named s ∧ (∀ i ∈ [Instr.vconn 20 8 (.reg 3), .vmrg 20 8 (.reg 3), .vrwtConn 20 8 (.reg 3), .vrwtMrg 20 8 (.lit 0x3F800000)], i.wf = true) ∧
       (∀ i ∈ [Instr.vconn 4 8 (.reg 3), .vmrg 4 8 (.reg 3), .vrwtConn 20 8 (.reg 4), .vrwtMrg 20 8 (.lit 0x3F800000)], Meets s i) ∧
       x.operand fr (some true) 0x4000000 = .ok (vertex true 0x4000000) ∧ x.operand fr (some false) 0x4000001 = .ok (vertex false 0x4000001)) ∧
    (let s := asking 0x4000001 0
     named s ∧ Meets s (.vmrq 20 8 (.reg 3)) ∧ x.operand fr (some false) 0x4000001 = .ok (vertex false 0x4000001)) ∧
    (let s := asking 0x4000000 3
     named s ∧ Meets s (.vget 20 8 (.reg 3)) ∧ x.operand fr none 0x4000000 = .ok (vertex true 0x4000000) ∧
       (s.readOpd (cx s).x 0 (.v 9)).toNat ≤ 3) := by
  letI (a b : Except Nat Vertex) := sameResult a b
  exact ⟨⟨by decide, by decide, meets_all (by decide), by decide, by decide⟩, ⟨by decide, meets_of (by decide), by decide⟩,
    ⟨by decide, meets_of (by decide), by decide, by decide⟩⟩

/-- The operands of the graph's changes in v4 to v7 and s0 to s3, and a vertex image at 0x4000. -/
def changing (id : Word) (u : Tab Word) (x : Ctx) : State :=
  { board [(0, thread [(4, id), (6, 0x4000), (7, 0)])] u with
    ctxs := [(1, x)], mem := holding [(0x4000 + 20, leBytes 4 0x10000), (0x4000 + 24, leBytes 4 0x3F800000), (0x4000 + 44, leBytes 4 0xFFFFFFFF)] }

theorem witness_graphUpdates :
    (let s := changing 0x8000000 [] graphed
     Meets s (.vapp 4 6 (.lit 0)) ∧ (cx s).ls = [0] ∧ (tabGet s.ctxs (cx s).gr.ctx).isSome = true ∧ s.chain (cx s).g 0 = [] ∧
       s.imagePieces (cx s) 6 (.lit 0) 0 = .ok [⟨0x4000, .phys 0x4000, 64⟩] ∧
       ((s.ctx (cx s).gr.ctx).newVertex (s.vreg (cx s) 0 4).toNat (s.pieceWords [⟨0x4000, .phys 0x4000, 64⟩])).isSome = true) ∧
    (∀ ap ∈ [2, 63], let s := changing 0 [(0, 2), (1, 0), (2, 0x3F800000), (3, 256 * ap + 8)] graphed
     let x := s.ctx (cx s).gr.ctx
     let r (k : Nat) : Word := s.readReg (cx s).x 0 (.s k)
     Meets s (.fopen 0) ∧ (r 3).toNat / 2 ^ 8 = ap.toNat ∧ (r 3).toNat / 2 ^ 8 < 64 ∧ tabGet x.frames ((r 3).toNat % 2 ^ 8) = none ∧
       (r 1 ++ r 0 : DWord).getLsbD ap.toNat = false ∧ posFinite (r 2) = true ∧
       (∀ e < 64, (r 1 ++ r 0 : DWord).getLsbD e = true → (tabGetD x.epochs e {}).st = .sealed) ∧
       ((tabGetD x.epochs ap.toNat {}).st = .free ∨ (tabGetD x.epochs ap.toNat {}).st = .opened)) ∧
    (let s := changing 0 [(0, 7)] graphed
     Meets s (.fclose 0) ∧ (tabGet (s.ctx (cx s).gr.ctx).frames ((s.readReg (cx s).x 0 (.s 0)).toNat % 2 ^ 8)).isSome = true) ∧
    (let s := changing 0 [(0, 2)] { graphed with frames := [] }
     let x := s.ctx (cx s).gr.ctx
     Meets s (.eseal 0) ∧ (tabGetD x.epochs ((s.readReg (cx s).x 0 (.s 0)).toNat % 2 ^ 6) {}).st = .opened ∧ s.sealHeld 1 2 = false ∧
       ∀ fr ∈ x.frames, fr.2.append ≠ 2) ∧
    (let e : Resid := { g := 0, lane := 5, ins := .st false .b32 4 6 (.lit 0), kind := .store (.phys 0x4000) 4 0x4000 false }
     let s := { changing 0 [(0, 2)] { graphed with epochs := [(2, { st := .opened, behind := [8] })] } with resid := [(8, e)] }
     Meets s (.eseal 0) ∧ (cx s).gr.ctx = 1 ∧ s.sealHeld 1 ((s.readReg (cx s).x 0 (.s 0)).toNat % 2 ^ 6) = true) ∧
    (let s := changing 0x4000000 [] graphed
     let x := s.ctx (cx s).gr.ctx
     Meets s (.vret 4) ∧ (cx s).ls = [0] ∧ (s.vreg (cx s) 0 4).toNat / 2 ^ 26 = 1 ∧ (tabGetD x.epochs 1 {}).st = .sealed ∧
       (∀ p ∈ x.epochs, p.1 = 1 → p.2.st = .sealed) ∧ (s.vreg (cx s) 0 4).toNat % 2 ^ 26 ≠ 0x3FFFFFF ∧
       tabGet x.verts (s.vreg (cx s) 0 4).toNat = some (vertex true 0x4000000) ∧ (vertex true 0x4000000).depth = 0 ∧
       tabGet (tabGetD x.epochs 1 {}).retired 0x4000000 = none) := by
  letI (a b : Except (Cause × Nat) (List Piece)) := sameResult a b
  refine ⟨⟨meets_of (by decide), by decide, by decide, by decide, by decide, by decide⟩, fun ap hap => ?_, ⟨meets_of (by decide), by decide⟩,
    ⟨meets_of (by decide), by decide⟩, ⟨meets_of (by decide), by decide⟩, meets_of (by decide), by decide⟩
  simp only [List.mem_cons, List.not_mem_nil, or_false] at hap
  obtain rfl | rfl := hap <;> exact ⟨meets_of (by decide), by decide⟩

/-! ### System words -/

/-- One lane with 0x4000 in v4:v5; with SYSPRIV or without. -/
def system (sys : Bool) (x : Ctx) : State :=
  { worker [(4, 0x4000), (5, 0)] with
    grids := [(5, { ctx := 1, id := 1, queue := 0, pkt := { flags := if sys then 16 else 0 } })], ctxs := [(1, x)] }

theorem witness_systemRegisters :
    let s := system true { root := 0 }
    let c := cx s
    tabGet s.ctxs c.gr.ctx = some { root := 0 } ∧ c.gr.pkt.sys = true ∧
    (∀ n ∈ [0, 1, 0x10, 0x23, 0x30, 0x40, 0x48, 0x50, 0x60], Meets s (.sysrd 6 n)) ∧
    (∀ n ∈ [0, 1], Meets (system false { root := 0 }) (.sysrd 6 n)) ∧
    (∀ i ∈ [Instr.syswrTrapbase 4, .syswrLattice 3 4, .regionstatClearRegion 4, .regionstatClearOvf 4, .syswrPerfctl 4, .syswrPerfcnt 7 4,
      .syswrWschedcfg 4, .syswrDetsel 4, .syswrOther 0 4, .syswrOther 1 4], Meets s i) ∧
    (∀ n < 8, (0 : DWord).toNat / 2 ^ (8 * n) % 256 ≠ 6 ∧ (0 : DWord).toNat / 2 ^ (8 * n) % 256 ≠ 7) ∧
    ((s.vpair c c.l0 4).toNat % 1024 = 0 ∧ ∃ bs, s.readVa c.who (s.vpair c c.l0 4).toNat 1024 = .ok bs) ∧
    (let s := system false { root := 0 }
     (∀ i ∈ [Instr.sysrd 6 0x10, .sysrd 6 0x60, .syswrTrapbase 4, .syswrLattice 3 4, .syswrPerfcnt 7 4, .syswrDetsel 4], Meets s i) ∧
       (cx s).gr.pkt.sys = false ∧ (s.team (cx s).x.team).shadow = none) ∧
    (let q : LatCopy := ⟨2, [], 0, 2, [0]⟩
     let s := { board [(0, { thread [] with park := .copy })] with ctxs := [(1, { root := 0, latCopies := [q] })] }
     ∃ y, tabGet s.groups q.g = some y ∧ y.uid = q.uid ∧ ∀ l ∈ q.lanes, (tabGet y.lanes l).isSome = true ∧ (y.lane l).park = .copy) := by
  refine ⟨by decide, by decide, fun n hn => meets_of ?_, fun n hn => meets_of ?_, meets_all (by decide), by decide, ⟨by decide, ?_⟩,
    ⟨meets_all (by decide), by decide, by decide⟩, ⟨_, rfl, by decide, by decide⟩⟩
  · revert n; decide
  · revert n; decide
  · exact some_ok (by decide +kernel)

/-- Two fragments of one pixel, in lanes 0 and 1 of a KIND 3 grid whose target is at 0x4000. -/
def drawing (ls : List Nat) (inSect : Bool) : State :=
  let y (n : Nat) : Lane := { thread [(4, 1), (5, 2)] with frag := some ⟨1, 1, n⟩, inSect := inSect }
  { board [(0, y 0), (1, y 1)] with
    grids := [(5, { ctx := 1, id := 1, queue := 0, frags := [(0, 1, 1, []), (0, 1, 1, [])]
                    pkt := { kind := 3, flags := 16, args := 0x4000, raw := List.replicate 128 0 } })]
    focus := some ⟨0, ls⟩ }

theorem witness_orderedSections :
    (let s := drawing [0] false
     Meets s .ordb ∧ (cx s).gr.pkt.kind = 3 ∧ (∀ l ∈ (cx s).ls, ((cx s).x.lane l).frag = some ⟨1, 1, 0⟩ ∧ ((cx s).x.lane l).inSect = false) ∧
       s.turnOf (cx s).x.grid ⟨1, 1, 0⟩ = true) ∧
    (let s := drawing [1] false
     Meets s .ordb ∧ (∀ l ∈ (cx s).ls, ((cx s).x.lane l).frag = some ⟨1, 1, 1⟩ ∧ ((cx s).x.lane l).inSect = false) ∧
       s.turnOf (cx s).x.grid ⟨1, 1, 1⟩ = false) ∧
    (let s := drawing [0, 1] false
     Meets s .ordb ∧ (∀ l ∈ (cx s).ls, ((cx s).x.lane l).frag = some ⟨1, 1, l⟩ ∧ ((cx s).x.lane l).inSect = false) ∧
       s.turnOf (cx s).x.grid ⟨1, 1, 0⟩ = true ∧ s.turnOf (cx s).x.grid ⟨1, 1, 1⟩ = false) ∧
    (let s := drawing [0] true
     Meets s .ordb ∧ Meets s .orde ∧ (cx s).gr.picked = [] ∧ ∀ l ∈ (cx s).ls, ((cx s).x.lane l).inSect = true) ∧
    (Meets calm .ordb ∧ Meets calm .orde ∧ (cx calm).gr.pkt.kind ≠ 3 ∧ (∀ l ∈ (cx calm).ls, ((cx calm).x.lane l).inSect = false) ∧
      Meets calm (.pxw 4)) ∧
    (let s := drawing [0, 1] true
     let p := (cx s).gr.pkt
     let va := (p.args.toNat + 4096 * p.at 0x74 4 + 8 * (1 + p.at 0x20 2 * 1)) % 2 ^ 64
     Meets s (.pxw 4) ∧ p.kind = 3 ∧ (∀ l ∈ (cx s).ls, ((cx s).x.lane l).frag = some ⟨1, 1, l⟩) ∧ va % 8 = 0 ∧
       s.xlate (cx s).who .store va 8 = .ok 0x4008) := by
  letI (a b : Except Cause Nat) := sameResult a b
  exact ⟨⟨meets_of (by decide), by decide, by decide, by decide⟩, ⟨meets_of (by decide), by decide, by decide⟩,
    ⟨meets_of (by decide), by decide, by decide⟩, ⟨meets_of (by decide), meets_of (by decide), by decide⟩, ⟨meets_of (by decide), meets_of (by decide), by decide, by decide, meets_of (by decide)⟩,
    meets_of (by decide), by decide⟩

end Sys2Proof.Tests
end

