-- ==== Sys2Proof/Tests/WitnessesSystem.lean ====
section
/-!
SUPPORT. Witnesses, on: traps, queues, services, what reaches the part from outside, and the step.
-/

namespace Sys2Proof.Tests

open Sys2Proof.Machine

/-! ### Traps -/

/-- Two lanes with addresses in v10:v11: one aligned and mapped, one odd. -/
def astray : State :=
  let y (a : Word) : Lane := thread [(10, a), (11, 0)]
  board [(0, y 0x2000), (3, y 0x2001)]

theorem witness_trapsTaken :
    let c := cx calm
    let past : State := calm.modGroup 0 fun x => { x with lanes := x.lanes.map fun e => (e.1, { e.2 with pass := true }) }
    ((∀ i ∈ [.trap 0x2A, .bkpt 5, .illegalWord 0], Meets calm i) ∧ (∀ l ∈ c.ls, (c.x.lane l).pass = false) ∧
      (calm.team c.x.team).shadow = none) ∧
    ((∀ i ∈ [.trap 0x2A, .bkpt 5], Meets past i) ∧ ∀ l ∈ (cx past).ls, ((cx past).x.lane l).pass = true) ∧
    (let s := astray
     let c := cx s
     let va (l : Nat) : Nat := (s.vpair c l 10 + (s.vb c l (.lit 0)).signExtend 64).toNat
     let k (l : Nat) : Option Cause := if l = 3 then some .misaligned else none
     Meets s (.ld false .b32 20 10 (.lit 0)) ∧ (s.team c.x.team).shadow = none ∧ (∃ l ∈ c.ls, k l ≠ none) ∧
       (∀ l ∈ c.ls, s.chain c.g l = []) ∧ (∀ l ∈ c.ls, va l % 4 ≠ 0 → k l = some .misaligned) ∧
       (∀ l ∈ c.ls, va l % 4 = 0 → k l = none ∧ s.xlate c.who .load (va l) 4 = .ok 0x2000)) ∧
    (let s := { astray with cores := [] }
     Meets s (.ld false .b32 20 10 (.lit 0)) ∧ s.xlate (cx s).who .load 0x2000 4 = .error .notPresent) := by
  letI (a b : Except Cause Nat) := sameResult a b
  exact ⟨⟨meets_all (by decide), by decide, by decide⟩, ⟨meets_all (by decide), by decide⟩,
    ⟨meets_of (by decide), by decide, by decide, by decide, by decide, by decide⟩, meets_of (by decide), by decide⟩

/-- Checks of which two fail; checks that all pass; faults of three lanes, two with the primary cause. -/
theorem witness_primaryCause :
    firstOf [none, some (.notPresent, 8), some (.misaligned, 9)] = some (.misaligned, 9) ∧ firstOf [none, none] = none ∧
    (let fs : List LaneFault := [(1, .software, 4), (3, .misaligned, 5), (31, .misaligned, 6)]
     fs ≠ [] ∧ (fs.map (·.1)).Pairwise (· < ·) ∧ ∀ f ∈ fs, f.1 < 32) := by decide

/-- A V instruction in role 1, an engine command in role 0, a matrix command in role 1. -/
theorem witness_roleTable : ∀ p ∈ ([(1, .tex 20 8 4), (0, .cpy 4), (1, .mwait 0), (2, .regroup)] : List (Nat × Instr)),
    let s := board [(0, thread [])] [] p.1
    s.Acts (cx s) ∧ p.2.isWord = true ∧ illegalAt p.2 (cx s).ls.length = false ∧ (s.team (cx s).x.team).shadow = none ∧
      roleOk p.2 (cx s).x.role = false := by
  intro p hp
  simp only [List.mem_cons, List.not_mem_nil, or_false] at hp
  obtain rfl | rfl | rfl | rfl := hp <;> exact ⟨acts_of (i := .nop) (by decide), by decide⟩

/-- A group of slot 1 stopped by TRAP in lane 0, with its record taken or not, beside the set in slot 0; the pool of two records at `pool`. -/
def trapping (pool : Nat) (record : Option Nat) (records : Tab TrapRec) : State :=
  let tr : Trapped :=
    { faults := [(0, .software, 4)], pc := 0x1044, hdr := 0x1040, base := BitVec.ofNat 64 (pool + 1), record := record, written := 0x1044 }
  let s := board [(0, thread [])] [(4, 0x4000), (5, 0)]
  { s with
    groups := s.groups ++ [(1, { uid := 3, grid := 5, team := 6, gidx := 1, lanes := [(0, thread []), (1, thread [])], trap := some tr })]
    grids := [(5, { ctx := 1, id := 1, queue := 0, pkt := { flags := 16, handler := 0x1080 } })]
    ctxs := [(1, { root := 0, records := records, handlers := records.map (·.1)
                   images := [{ base := 0x1000, words := 64, mapOfs := 0x200 }] })]
    dies := [(0, { inService := true })]
    mem := holding [(0x4018, leBytes 8 0x1044)] }

set_option maxRecDepth 4000 in
/-- A record free at the lowest place and one free past a taken one; no pool; one that cannot be written; a handler team's own trap, with a free
record and with none; a record with its handler to start; and RESUME of no record, of one as it was written, and of one with another PC. -/
theorem witness_trapRecords :
    let rec0 : TrapRec := ⟨5, 1, 6, 1, 0x4000, 0x0A, []⟩
    let holds (s : State) (record : Option Nat) : Prop := ∃ x tr gr y, tabGet s.groups 1 = some x ∧ x.trap = some tr ∧
      tabGet s.grids x.grid = some gr ∧ tabGet s.ctxs gr.ctx = some y ∧ gr.ctx = 1 ∧ gr.id < 2 ^ 64 ∧ gr.pkt.handler ≠ 0 ∧ tr.record = record ∧
      tr.written = 0x1044 ∧ (tr.faults.map (·.1)).Nodup ∧
      ∀ f ∈ tr.faults, f.1 < 32 ∧ f.2.2 < 2 ^ 64 ∧ (tabGet x.lanes f.1).isSome = true
    let base (s : State) : DWord := ((s.group 1).trap.getD {}).base
    let put (s : State) (a : Nat) : Except (Cause × Nat) State :=
      s.putVa (unitWho 1 true) a (recordBytes s 1 (s.group 1) ((s.group 1).trap.getD {}))
    let own (s : State) : State := s.modTeam 6 fun t => { t with handler := some 9 }
    (let s := trapping 0x4000 none []
     holds s none ∧ (s.team 6).handler = none ∧ trapPool (base s) = (0x4000, 2) ∧ (s.ctx 1).records = [] ∧ ∃ u, put s 0x4000 = .ok u) ∧
    (let s := trapping 0x4000 none [(9, rec0)]
     holds s none ∧ trapPool (base s) = (0x4000, 2) ∧ (∀ e ∈ (s.ctx 1).records, e.2.addr ≠ 0x4000 + 512 * 1) ∧
       (∀ k < 1, ∃ e ∈ (s.ctx 1).records, e.2.addr = 0x4000 + 512 * k) ∧ ∃ u, put s 0x4200 = .ok u) ∧
    (let s := trapping 0 none []
     holds s none ∧ (trapPool (base s)).1 = 0) ∧
    (let s := trapping 0x40000000 none []
     holds s none ∧ trapPool (base s) = (0x40000000, 2) ∧ (put s 0x40000000).isOk = false) ∧
    (let s := own (trapping 0x4000 none [])
     holds s none ∧ (s.team 6).handler ≠ none ∧ trapPool (base s) = (0x4000, 2) ∧ ∃ u, put s 0x4000 = .ok u) ∧
    (let s := own (trapping 0x4000 none [(9, rec0), (8, { rec0 with addr := 0x4200 })])
     holds s none ∧ (s.team 6).handler ≠ none ∧ trapPool (base s) = (0x4000, 2) ∧
       ∀ k < 2, ∃ e ∈ (s.ctx 1).records, e.2.addr = 0x4000 + 512 * k) ∧
    (let s := trapping 0x4000 (some 9) [(9, rec0)]
     holds s (some 9) ∧ tabGet (s.ctx 1).records 9 = some rec0 ∧ 9 ∈ (s.ctx 1).handlers ∧ coreOf rec0.g / 160 = 0 ∧
       (tabGetD s.dies 0 {}).inService = true ∧ (tabGetD s.dies 0 {}).parked = false ∧ (s.core 0).quarantined = false ∧
       s.pickedAway 5 (s.grid 5) 0 = false ∧ s.hasRoom 0 ⟨1, 2048, 256, 0⟩ = true ∧ tabGet s.groups 2 = none ∧
       ∀ k < 2, (tabGet s.groups k).isSome = true) ∧
    (let s := trapping 0x4000 none []
     holds s none ∧ Meets s (.resume 4) ∧ (cx s).gr.ctx = 1 ∧ ∀ e ∈ (s.ctx 1).records, e.2.addr ≠ (s.upair (cx s) 4).toNat) ∧
    (∀ v ∈ [0x1044, 0x1080], let s := { trapping 0x4000 (some 9) [(9, rec0)] with mem := holding [(0x1200, List.replicate 8 0xFF), (0x4018, leBytes 8 v)] }
     holds s (some 9) ∧ Meets s (.resume 4) ∧ (cx s).gr.ctx = 1 ∧ (s.ctx 1).records = [(9, rec0)] ∧ rec0.addr = (s.upair (cx s) 4).toNat ∧
       rec0.g ≠ (cx s).g ∧ s.readVa (unitWho 1 true) 0x4018 8 = .ok (leBytes 8 v) ∧ (v ≠ 0x1044 → s.badTarget (s.who 1) v = none)) := by
  letI (a b : Except (Cause × Nat) (List Byte)) := sameResult a b
  refine ⟨⟨⟨_, _, _, _, rfl, rfl, rfl, rfl, by decide⟩, by decide, by decide, by decide, some_ok (by decide)⟩,
    ⟨⟨_, _, _, _, rfl, rfl, rfl, rfl, by decide⟩, by decide, by decide, by decide, some_ok (by decide)⟩,
    ⟨⟨_, _, _, _, rfl, rfl, rfl, rfl, by decide⟩, by decide⟩, ⟨⟨_, _, _, _, rfl, rfl, rfl, rfl, by decide⟩, by decide, by decide⟩,
    ⟨⟨_, _, _, _, rfl, rfl, rfl, rfl, by decide⟩, by decide, by decide, some_ok (by decide)⟩,
    ⟨⟨_, _, _, _, rfl, rfl, rfl, rfl, by decide⟩, by decide, by decide, by decide⟩,
    ⟨⟨_, _, _, _, rfl, rfl, rfl, rfl, by decide⟩, by decide⟩, ⟨⟨_, _, _, _, rfl, rfl, rfl, rfl, by decide⟩, meets_of (by decide), by decide⟩,
    fun v hv => ?_⟩
  simp only [List.mem_cons, List.not_mem_nil, or_false] at hv
  obtain rfl | rfl := hv <;> exact ⟨⟨_, _, _, _, rfl, rfl, rfl, rfl, by decide⟩, meets_of (by decide), by decide⟩

/-! ### Resets, queues, services -/

/-- The line of the first host address, as leases name it. -/
def hostKey : Nat := 2 ^ 50 + 0x4000000000000 / 64

/-- At each level from which it rises; a lane that the spare map names; a host line and a peer line that a die holds changed; a command of the
link that is reset; dies of two clocks, one of them parked or not, at levels below 4 and at 4. -/
theorem witness_resetsAndBringUp :
    (∀ n < 4, let s : State := { level := n }; s.err = false ∧ s.level < 4) ∧
    (let s : State := { flash := { spares := [.lane 3 1] } }
     .lane 3 1 ∈ s.flash.spares ∧ ∀ n < 4, .lane 2 n ∉ s.flash.spares) ∧
    (let e : Nat × Lease := (hostKey, ⟨[(1, 80)], [(0x4000000000003, 5)]⟩)
     let s : State := { leases := [e] }
     e ∈ s.leases ∧ (0x4000000000003, 5) ∈ e.2.wb ∧ isHost (lineBase e.1) = true ∧ (∃ h ∈ e.2.holders, h.1 < 4) ∧
       ∀ f ∈ s.leases, ∀ w ∈ f.2.wb, w.1 = 0x4000000000003 → w = (0x4000000000003, 5)) ∧
    (let s : State := { svc := [{ link := true }] }
     ∃ r ∈ s.svc, r.link = true ∧ r.gone = none) ∧
    (∀ level ∈ [1, 3, 4], ∀ parked ∈ [false, true],
      let s : State := { level := level, dies := [(0, { inService := true, clock := 1000 }), (1, { inService := true, clock := 2500, parked := parked })] }
      s.level ≤ 4 ∧ (∀ d < 4, (tabGetD s.dies d {}).clock < 2 ^ 12) ∧ (tabGetD s.dies 0 {}).inService = true ∧
        (tabGetD s.dies 0 {}).parked = false) :=
  ⟨by decide, by decide, ⟨by decide, by decide, by decide, ⟨_, List.mem_singleton.mpr rfl, by decide⟩, by decide⟩,
    ⟨_, List.mem_singleton.mpr rfl, by decide⟩, by decide⟩

/-- Each level from which it rises, and an instruction that goes on. -/
theorem witness_serviceLevel : (∀ n < 4, let s : State := { level := n }; s.err = false ∧ s.level < 4) ∧ calm.Inv ∧ ∃ t, exec .nop calm = .next t :=
  ⟨by decide, by unfold State.Inv; decide, _, rfl⟩

/-- A packet of one team of one group, with its entry, signal and kind given. -/
def packet (kind flags entry signal : Nat) : List Byte :=
  leBytes 1 kind ++ [0] ++ leBytes 2 flags ++ leBytes 4 8 ++ leBytes 8 entry ++ leBytes 8 0x12345678 ++ leBytes 4 1 ++ leBytes 4 1 ++ leBytes 4 1 ++
    leBytes 4 32 ++ leBytes 2 1 ++ List.replicate 6 0 ++ leBytes 2 32 ++ List.replicate 4 0 ++ leBytes 2 32 ++ List.replicate 16 0 ++
    leBytes 8 signal ++ leBytes 4 0xFFFFFFFF ++ List.replicate 20 0 ++ leBytes 8 0x8000 ++ List.replicate 16 0

/-- Queue 0 of context 1 with four slots at 0x8000 and its indices at 0x9000, and a packet in slot 0. -/
def queued (bits : Byte) (w r : Nat) (hold : List Held) (mem : List (Nat × List Byte)) : State :=
  { level := 4
    dies := [(0, { inService := true }), (1, {})]
    cores := [(640, { tlb := [page] })]
    ctxs := [(1, { root := 0, images := [{ base := 0x1000, words := 64, mapOfs := 0x200 }] })]
    queues := [(0, { desc := descriptor bits, w := w, r := r, hold := hold })]
    mem := holding mem, nextId := 10, clock := 100 }

set_option maxRecDepth 4000 in
/-- Descriptor writes that set EN, over a descriptor within the table and outside it, with indices as they may be; one that leaves EN, one
that clears it; a write index as it may be and past the slots; packets that pass and fail their checks; a head that ages; a held copy. -/
theorem witness_launchQueues :
    let off (d : Byte) : State := queued d 0 0 [] [(0x9000, leBytes 8 3), (0x9080, leBytes 8 2)]
    let put (d : List Byte) (ofs : Nat) (b : List Byte) : List Byte := (upto 64).map fun k =>
      if 0x14 ≤ k ∧ k < 0x18 then d.getD k 0 else if ofs ≤ k ∧ k < ofs + b.length then b.getD (k - ofs) 0 else d.getD k 0
    (let s := off 0
     let x := s.queue 0
     let y : Queue := { x with desc := put x.desc 0x11 [1] }
     x.en = false ∧ x.desc.length = 64 ∧ y.desc.length = 64 ∧ s.descOk y = true ∧ s.readVa y.who (y.field 8 8) 8 = .ok (leBytes 8 3) ∧
       s.readVa y.who (y.field 8 8 + 0x80) 8 = .ok (leBytes 8 2) ∧ 3 ≤ 2 + y.slots ∧
       s.descOk { x with desc := put x.desc 0x10 (leBytes 8 0x100) } = false) ∧
    (let x := (off 1).queue 0
     x.en = true ∧ x.hold = [] ∧ x.desc.length = 64) ∧
    (∀ w ∈ [1, 6], let s := queued 1 0 2 [] [(0x9000, leBytes 8 w)]
     let x := s.queue 0
     x.en = true ∧ x.device = false ∧ s.readVa x.who (x.field 8 8) 8 = .ok (leBytes 8 w) ∧ w ≠ x.w ∧ x.w ≤ w ∧ w ≤ x.r + x.slots) ∧
    (let s := queued 1 0 2 [] [(0x9000, leBytes 8 7)]
     let x := s.queue 0
     s.readVa x.who (x.field 8 8) 8 = .ok (leBytes 8 7) ∧ x.r + x.slots < 7) ∧
    (let s := queued 1 1 0 [] [(0x8000, packet 1 0 0x1040 0x5000)]
     let x := s.queue 0
     s.droverChoice = some 0 ∧ s.headBytes 0 = .ok (packet 1 0 0x1040 0x5000) ∧ (∃ u, s.putVa x.who (x.field 8 8 + 0x80) (leBytes 8 (x.r + 1)) = .ok u) ∧
       (∃ p, s.accepts 0 (packet 1 0 0x1040 0x5000) = .ok p) ∧ s.hasHead 0 = true ∧ s.headPrio 0 + x.boost < 7) ∧
    (let s := queued 1 1 0 [] [(0x8000, packet 6 0 0x1040 0x5000)]
     let x := s.queue 0
     s.droverChoice = some 0 ∧ s.headBytes 0 = .ok (packet 6 0 0x1040 0x5000) ∧ s.accepts 0 (packet 6 0 0x1040 0x5000) = .error 1 ∧
       ∃ u v, s.putVa x.who (x.field 8 8 + 0x80) (leBytes 8 (x.r + 1)) = .ok u ∧ u.putVa x.who 0x5000 (leBytes 8 (2 ^ 63 + 1)) = .ok v) ∧
    (let h : Held := ⟨packet 1 0 0x1040 0x5000, none, []⟩
     let s := queued 5 0 0 [h] []
     (s.queue 0).hold = h :: [] ∧ (s.queue 0).w - (s.queue 0).r < (s.queue 0).slots ∧
       ∃ u, State.pushSlot { s with queues := tabSet s.queues 0 { s.queue 0 with hold := [] } } 0 h.bytes = .ok u) := by
  letI (a b : Except (Cause × Nat) (List Byte)) := sameResult a b
  letI (a b : Except Nat Plan) := sameResult a b
  refine ⟨by decide, by decide, fun w hw => ?_, by decide, ⟨by decide, by decide, some_ok (by decide), some_ok (by decide), by decide⟩,
    ⟨by decide, by decide, by decide, _, _, rfl, rfl⟩, by decide, by decide, some_ok (by decide)⟩
  simp only [List.mem_cons, List.not_mem_nil, or_false] at hw
  obtain rfl | rfl := hw <;> decide

/-- The command of an operation of a context, with its operands from byte 8 on. -/
def order (op ctx : Nat) (args : List Byte) : List Byte :=
  (leBytes 2 op ++ [0, 0] ++ leBytes 4 ctx ++ args ++ List.replicate 56 0).take 64

/-- A command of link 0 that waits to be served, with context 1 live or as `x` says, and nothing resident. -/
def ordered (cmd : List Byte) (x : Ctx := { root := 0 }) (mem : List (Nat × List Byte) := []) : State :=
  { level := 4, mbox0 := { cmd := cmd, cmdseq := 1 }, svc := [{ link := false }], ctxs := [(1, x)]
    dies := (upto 4).map fun d => (d, { inService := true }), cores := [(640, { tlb := [page] })], mem := holding mem }

/-- The command is for an operation, with zeros where the operation takes nothing, at a level that serves it. -/
abbrev asks (s : State) (op used level : Nat) : Prop :=
  s.svc = { link := false } :: [] ∧ (s.mbox false).tampered = false ∧ (s.mbox false).op = op ∧ zeros (s.mbox false).cmd 2 2 = true ∧
    zeros (s.mbox false).cmd used (64 - used) = true ∧ level ≤ s.level

/-- Context 1 busy: a grid of it is resident. -/
def busied (s : State) : State := { s with grids := [(5, { ctx := 1, id := 1, queue := 0, pkt := {} })] }

/-- The mailbox at rest and with a command outstanding; and for each service the refusals that all share. -/
theorem witness_servicesAnswer_mailbox :
    ((State.reset.mbox false).rspseq = (State.reset.mbox false).cmdseq ∧ (State.reset.mbox false).cmd.length = 64) ∧
    (let m := (ordered []).mbox false
     m.rspseq ≠ m.cmdseq) ∧
    (∀ e ∈ ([(3, 8, 1), (4, 0x18, 1), (5, 0x10, 1), (6, 0x18, 1), (8, 0x10, 1), (9, 0x10, 1), (1, 0x10, 1), (7, 0x1C, 1), (10, 0xC, 2)] :
        List (Nat × Nat × Nat)),
      let s := ordered (order e.1 9 [])
      asks s e.1 e.2.1 e.2.2 ∧ (s.mbox false).ctxid ≠ 0 ∧ (tabGet s.ctxs (s.mbox false).ctxid).isSome = false ∧ 0 < e.2.2 ∧
        zeros ((order e.1 9 []).set 2 1) 2 2 = false ∧ zeros ((order e.1 9 []).set e.2.1 1) e.2.1 (64 - e.2.1) = false) ∧
    ∀ p ∈ ([(13, 0), (0, 0), (2, 5), (11, 3)] : List (Nat × Nat)), let s := ordered (order p.1 1 (leBytes 4 p.2)); s.listed (s.mbox false) = false := by
  decide

/-- A table that holds every number below `n`. -/
def full {α : Type} (x : α) : Nat → Nat → Tab α
  | _, 0 => []
  | k, n + 1 => (k, x) :: full x (k + 1) n

theorem full_get {α : Type} (x : α) (k n j : Nat) (h : j < n) : tabGet (full x k n) (k + j) = some x := by
  induction n generalizing k j with
  | zero => omega
  | succ n ih =>
    cases j with
    | zero => simp [full, tabGet]
    | succ j => simpa [full, tabGet, Nat.add_assoc, Nat.add_comm 1 j] using ih (k + 1) j (by omega)

/-- CTXCREATE with a root that is none, with one that is, and with no CTXID free; each item of CTXSET within its limits and outside them, on
a context at rest and on a busy one; CTXDESTROY of both. -/
theorem witness_servicesAnswer_contexts :
    (let s := ordered (order 1 0 (leBytes 8 1))
     asks s 1 0x10 1 ∧ (s.mbox false).ctxid = 0 ∧ fld (order 1 0 (leBytes 8 1)) 8 8 % 4096 ≠ 0) ∧
    (let s := ordered (order 1 0 (leBytes 8 0x1000))
     asks s 1 0x10 1 ∧ (s.mbox false).ctxid = 0 ∧ fld (order 1 0 (leBytes 8 0x1000)) 8 8 % 4096 = 0 ∧ kindOf 0x1000 ≠ none ∧
       tabGet s.ctxs 2 = none ∧ (∀ j, 1 ≤ j → j < 2 → tabGet s.ctxs j ≠ none)) ∧
    (let s := { ordered (order 1 0 (leBytes 8 0x1000)) with ctxs := full { root := 0 } 0 4096 }
     asks s 1 0x10 1 ∧ ∀ n, 1 ≤ n → n < 4096 → tabGet s.ctxs n ≠ none) ∧
    (∀ e ∈ ([(0, 0x20, leBytes 4 0 ++ leBytes 8 0x1000 ++ leBytes 8 0x1000), (1, 0x20, leBytes 4 0 ++ leBytes 8 0x1000 ++ leBytes 8 0x1000),
        (2, 0x20, leBytes 4 3 ++ leBytes 8 0 ++ leBytes 8 (2 ^ 27)), (2, 0x20, leBytes 4 0 ++ leBytes 8 0 ++ leBytes 8 (2 ^ 32)),
        (3, 0x24, leBytes 4 3 ++ leBytes 8 128 ++ leBytes 8 128 ++ leBytes 4 4), (3, 0x24, leBytes 4 3 ++ leBytes 8 0 ++ leBytes 8 0 ++ leBytes 4 16),
        (4, 0x18, leBytes 4 0 ++ leBytes 8 0x4001)] : List (Nat × Nat × List Byte)),
      let b := order 2 1 (leBytes 4 e.1 ++ e.2.2)
      let s := ordered b
      let die := fld b 0xC 4
      asks s 2 e.2.1 1 ∧ fld b 8 4 = e.1 ∧ (tabGet s.ctxs (s.mbox false).ctxid).isSome = true ∧ s.ctxBusy (s.mbox false).ctxid = false ∧
        (if e.1 = 2 ∨ e.1 = 3 then die ≤ 3 else die = 0) ∧ (e.1 = 2 → 2 ^ 27 ≤ fld b 0x18 8 ∧ fld b 0x18 8 ≤ 2 ^ 32) ∧
        (e.1 = 3 → fld b 0x10 8 % 128 = 0 ∧ fld b 0x18 8 % 128 = 0 ∧ 4 ≤ fld b 0x20 4 ∧ fld b 0x20 4 ≤ 16) ∧
        (busied s).ctxBusy (s.mbox false).ctxid = true) ∧
    (∀ e ∈ ([(0, 0x20, leBytes 4 1), (2, 0x20, leBytes 4 4), (3, 0x24, leBytes 4 4)] : List (Nat × Nat × List Byte)),
      let b := order 2 1 (leBytes 4 e.1 ++ e.2.2)
      asks (ordered b) 2 e.2.1 1 ∧ fld b 8 4 = e.1 ∧ ¬ (if e.1 = 2 ∨ e.1 = 3 then fld b 0xC 4 ≤ 3 else fld b 0xC 4 = 0)) ∧
    (let s := ordered (order 3 1 [])
     asks s 3 8 1 ∧ (tabGet s.ctxs (s.mbox false).ctxid).isSome = true ∧ s.ctxBusy 1 = false ∧ s.queues = [] ∧ (busied s).ctxBusy 1 = true) := by
  refine ⟨by decide, ⟨by decide, by decide, by decide, by decide, by decide, fun j h1 h2 => ?_⟩, ⟨by decide, fun n _ h => ?_⟩, by decide, by decide,
    by decide⟩
  · obtain rfl : j = 1 := by omega
    decide
  · have := full_get ({ root := 0 } : Ctx) 0 4096 n h
    rw [Nat.zero_add] at this
    exact fun e => nomatch (this.symm.trans e)

/-- A native image of one clause of one word, and a portable one. -/
def native : List Byte :=
  leBytes 4 0x314D494E ++ leBytes 4 0x06400A01 ++ leBytes 4 2 ++ leBytes 4 0x48 ++ List.replicate 48 0 ++ leBytes 4 0x000FF100 ++ leBytes 4 0 ++
    leBytes 8 1

def portable (version : Nat) : List Byte :=
  leBytes 4 0x31455048 ++ leBytes 2 version ++ leBytes 2 0 ++ leBytes 4 2 ++ List.replicate 52 0 ++ leBytes 4 0x100000 ++ leBytes 4 0

set_option maxRecDepth 4000 in
/-- IMGLOAD of what cannot be read, of bytes that are no image, of a native image, of a portable one that fails its checks and of one that
passes, in a context with room and in one without; IMGDROP of no image and of one. -/
theorem witness_servicesAnswer_images :
    let im : Image := { base := 0x4000, words := 2, mapOfs := 0x48 }
    let load (base : Nat) (b : List Byte) (x : Ctx) : State := ordered (order 4 1 (leBytes 8 base ++ leBytes 8 80)) x [(0x4000, b)]
    let meets (s : State) : Prop := asks s 4 0x18 1 ∧ (tabGet s.ctxs (s.mbox false).ctxid).isSome = true
    let reads (s : State) (b : List Byte) : Prop := s.readVa (unitWho 1 true) (fld (s.mbox false).cmd 8 8) (fld (s.mbox false).cmd 0x10 8) = .ok b
    let padded (b : List Byte) : List Byte := b ++ List.replicate (80 - b.length) 0
    let bare : Ctx := { root := 0 }
    (let s := load 0x40000000 [] bare
     meets s ∧ s.readVa (unitWho 1 true) 0x40000000 80 = .error (.notPresent, 0x40000000)) ∧
    (let s := load 0x4000 [] bare
     meets s ∧ reads s (padded []) ∧ fld (padded []) 0 4 ≠ 0x31455048 ∧ bare.registers 0x4000 (padded []) = .error 0x21) ∧
    (let s := load 0x4000 native bare
     meets s ∧ reads s (padded native) ∧ fld (padded native) 0 4 ≠ 0x31455048 ∧ bare.registers 0x4000 (padded native) = .ok im) ∧
    (let s := load 0x4000 (portable 2) bare
     meets s ∧ reads s (padded (portable 2)) ∧ fld (padded (portable 2)) 0 4 = 0x31455048 ∧ translate (padded (portable 2)) = none) ∧
    (∀ x ∈ [bare, { bare with images := List.replicate 1024 im }], let s := load 0x4000 (portable 1) x
     meets s ∧ reads s (padded (portable 1)) ∧ fld (padded (portable 1)) 0 4 = 0x31455048 ∧ (translate (padded (portable 1))).isSome = true) ∧
    (let s := ordered (order 5 1 (leBytes 8 0x4000)) { bare with images := [im] }
     asks s 5 0x10 1 ∧ (tabGet s.ctxs (s.mbox false).ctxid).isSome = true ∧ im.base = fld (s.mbox false).cmd 8 8 ∧ s.ctxBusy 1 = false ∧
       (busied s).ctxBusy 1 = true) := by
  letI (a b : Except (Cause × Nat) (List Byte)) := sameResult a b
  letI (a b : Except Nat Image) := sameResult a b
  refine ⟨by decide, by decide, by decide, by decide, fun x hx => ?_, by decide⟩
  simp only [List.mem_cons, List.not_mem_nil, or_false] at hx
  obtain rfl | rfl := hx <;> exact ⟨by decide, by decide, by decide, by decide⟩

/-- INVAL; HOSTRANGE of a bad range, of a dropped one, of one more with room and without; WLOAD of a line, out of the weight store, from an
address that is none, and from a context. -/
theorem witness_servicesAnswer_ranges :
    (let s := ordered (order 6 1 (leBytes 8 0x1000 ++ leBytes 8 0x1000))
     asks s 6 0x18 1 ∧ (tabGet s.ctxs (s.mbox false).ctxid).isSome = true) ∧
    (∀ e ∈ ([(1, 0x1000, 0), (0x1000, 1, 1), (0x1000, 0x1000, 2)] : List (Nat × Nat × Nat)),
      let s := ordered (order 7 0 (leBytes 8 e.1 ++ leBytes 8 e.2.1 ++ leBytes 4 e.2.2))
      asks s 7 0x1C 1 ∧ (s.mbox false).ctxid = 0 ∧ ¬ (e.1 % 4096 = 0 ∧ e.2.1 % 4096 = 0 ∧ e.2.2 ≤ 1)) ∧
    (∀ e ∈ ([(0x1000, 0, 0), (0x1000, 0x1000, 1)] : List (Nat × Nat × Nat)),
      let s := ordered (order 7 0 (leBytes 8 e.1 ++ leBytes 8 e.2.1 ++ leBytes 4 e.2.2))
      asks s 7 0x1C 1 ∧ (s.mbox false).ctxid = 0 ∧ e.1 % 4096 = 0 ∧ e.2.1 % 4096 = 0 ∧ e.2.2 ≤ 1 ∧ s.hostRanges.length < 64 ∧
        64 ≤ { s with hostRanges := List.replicate 64 (0, 0x1000, false) }.hostRanges.length) ∧
    (∀ e ∈ ([(0, 0x1000, 0x2000000000), (1, 0x1000, 0x3FFFFFFF80)] : List (Nat × Nat × Nat)),
      let s := ordered (order 12 e.1 (leBytes 8 e.2.1 ++ leBytes 8 e.2.2 ++ leBytes 8 128))
      asks s 12 0x20 2 ∧ (s.mbox false).ctxid = e.1 ∧ e.2.1 % 128 = 0 ∧ e.2.2 % 128 = 0 ∧ (tabGet s.ctxs 1).isSome = true ∧ 0x2000000000 ≤ e.2.2 ∧
        e.2.2 + 128 ≤ 0x4000000000 ∧ (s.wloadSource e.1 e.2.1 128).isSome = true ∧ s.wloadSource 1 0x40000000 128 = none) ∧
    (let s := ordered (order 12 0 (leBytes 8 0x1000 ++ leBytes 8 0x1000 ++ leBytes 8 128))
     asks s 12 0x20 2 ∧ ¬ 0x2000000000 ≤ fld (s.mbox false).cmd 0x10 8) := by decide

/-- A command of link 0 that waits to be served. -/
def mailed (cmd : List Byte) (s : State) : State := { s with mbox0 := { cmd := cmd, cmdseq := 1 }, svc := [{ link := false }] }

/-- `board` with one lane, no scratchpad and every die in service; the team and the context as given. -/
def savable (t : Team) (x : Ctx) (mem : List (Nat × List Byte) := []) : State :=
  { board [(0, thread [])] with
    grids := [(5, { ctx := 1, id := 1, queue := 0, pkt := { vbud := [32, 0, 0] } })], teams := [(6, t)], ctxs := [(1, x)]
    dies := (upto 4).map fun d => (d, { inService := true }), mem := holding mem }

set_option maxRecDepth 4000 in
/-- SAVE with a team to save and with none left; the exact stop with a pool that holds the save and with none; a save asked for; a saved team
that the Drover restores, and one whose die a QUIESCE holds; one that RESTORE does, from its own record, from one that was moved, from one of
another part, and a record of no team; QUIESCE asked for and done; POWER at levels 2 and 4. -/
theorem witness_savesAndPower :
    let t : Team := { grid := 5, tid := 0, cores := [0], slices := [(0, {})] }
    let bare : Ctx := { root := 0 }
    let saved (auto : Bool) : Saved := { groups := [], records := [0x10000], bytes := 64, mode := 0, auto := auto }
    let record : List Byte := leBytes 4 0x31564153 ++ leBytes 4 0x06400A01
    let opened (tm : Team) : Prop := tm.grid = 5 ∧ tm.shadow = none ∧ tm.cores ≠ [] ∧ tm.finished = false ∧ tm.saved = none
    (let s := mailed (order 8 1 (leBytes 8 1)) (savable t bare)
     asks s 8 0x10 1 ∧ (tabGet s.ctxs (s.mbox false).ctxid).isSome = true ∧ (s.grid 5).ctx = (s.mbox false).ctxid ∧ (s.grid 5).id = 1 ∧
       (s.grid 5).ended = false ∧ s.grids.map (·.1) = [5] ∧ 6 < s.nextId ∧ opened t ∧ t.saving = none ∧
       (let u := { s with teams := [(6, { t with finished := true })], groups := [] }
        (∀ e ∈ u.teams, ¬ opened e.2) ∧ ∀ e ∈ u.groups, e.2.grid ≠ 5)) ∧
    (let s := savable { t with saving := some 50 } { bare with pool := some (0x10000, 0x10000) }
     (s.team 6).saving.isSome = true ∧ (s.team 6).saved = none ∧ s.stopped 6 = true ∧ (s.writeSave 6).isSome = true) ∧
    (let s := savable { t with saving := some 50 } bare
     (s.team 6).saving = some 50 ∧ (s.team 6).saved = none ∧ s.stopped 6 = true ∧ s.writeSave 6 = none) ∧
    (let tm := { t with saved := some (saved true) }
     let s := { savable tm bare [(0x10000, record)] with groups := [] }
     tabGet s.teams 6 = some tm ∧ (s.saveRecords (s.grid tm.grid) (saved true)).isSome = true ∧ s.canRestore tm [0] = true ∧
       (∀ c ∈ tm.cores, s.quiescing c = false) ∧
       let u := { s with dies := (1, { inService := true, quiescing := true }) :: s.dies }
       let away := { tm with cores := [160] }
       u.canRestore away [0] = true ∧ ∃ c ∈ away.cores, u.quiescing c = true) ∧
    (let tm := { t with saved := some (saved false) }
     let s := mailed (order 9 1 (leBytes 8 0x10000)) { savable tm bare [(0x10000, record)] with groups := [] }
     asks s 9 0x10 1 ∧ (tabGet s.ctxs (s.mbox false).ctxid).isSome = true ∧ s.teams = [(6, tm)] ∧ (s.grid tm.grid).ctx = (s.mbox false).ctxid ∧
       fld (s.mbox false).cmd 8 8 ∈ (saved false).records ∧ (s.saveRecords (s.grid tm.grid) (saved false)).isSome = true ∧
       s.restorePlace tm = some [0] ∧ s.savedAt 1 0x10000 tm = some (saved false)) ∧
    (∀ tag ∈ [0x06400A01, 0x06400A02],
      let tm := { t with saved := some (saved false) }
      let moved := leBytes 4 0x31564153 ++ leBytes 4 tag ++ leBytes 8 1 ++ leBytes 8 t.recordId ++ leBytes 2 0 ++ leBytes 2 1 ++ leBytes 16 0
      let s := mailed (order 9 1 (leBytes 8 0x18000)) { savable tm bare [(0x18000, moved)] with groups := [] }
      let w := { saved false with records := [0x18000] }
      asks s 9 0x10 1 ∧ s.savedAt 1 0x18000 tm = some w ∧ (s.saveRecords (s.grid tm.grid) w).isSome = decide (tag = 0x06400A01)) ∧
    (let s := mailed (order 9 1 (leBytes 8 0x20000)) (savable { t with saved := some (saved false) } bare)
     asks s 9 0x10 1 ∧ (tabGet s.ctxs (s.mbox false).ctxid).isSome = true ∧ fld (s.mbox false).cmd 8 8 ∉ (saved false).records ∧ ∀ e ∈ s.teams, s.savedAt 1 0x20000 e.2 = none) ∧
    (∀ m ∈ [0, 15], let s := mailed (order 10 0 (leBytes 4 m)) { savable t bare with level := 2 }
     let quiet := { s with groups := [], teams := [], quiesce := some (false, m), svc := [{ link := false, cmd := some (s.mbox false) }], mbox0 := {} }
     asks s 10 0xC 2 ∧ (s.mbox false).ctxid = 0 ∧ fld (s.mbox false).cmd 8 4 < 16 ∧ s.quiesce = none ∧
       quiet.svc.map (·.cmd) = [some (s.mbox false)] ∧ quiet.quiesce ≠ none ∧ ∀ d < 4, quiet.dieResident d = false) ∧
    (∀ level ∈ [2, 4], ∀ state ∈ [0, 1], ∀ mask ∈ [0, 15, 16],
      let s := mailed (order 11 0 (leBytes 4 state ++ leBytes 4 mask)) { savable t bare with level := level }
      asks s 11 0x10 2 ∧ (s.mbox false).ctxid = 0 ∧ fld (s.mbox false).cmd 8 4 = state ∧ fld (s.mbox false).cmd 0xC 4 = mask) ∧
    (let s := mailed (order 11 0 (leBytes 4 2 ++ leBytes 4 15)) (savable t bare)
     asks s 11 0x10 4 ∧ (s.mbox false).ctxid = 0 ∧ fld (s.mbox false).cmd 8 4 = 2 ∧ fld (s.mbox false).cmd 0xC 4 < 16 ∧ s.dieResident 0 = true ∧
       ∀ d < 4, { s with groups := [], teams := [] }.dieResident d = false) := by
  exact ⟨by decide, ⟨by decide, by decide, by decide, by decide +kernel⟩, ⟨by decide, by decide, by decide, rfl⟩, by decide, by decide, by decide,
    by decide, by decide, by decide, by decide⟩

/-! ### What reaches the part from outside -/

/-- A slot of context 1 on die 0 that waits for the contributions of experts 5 and 6. -/
def filling : CSlot := ⟨.opened, 7, 16, [5, 6], [0x3F800000, 0x3F800000], 0, 0x4000, 100, 0, false, 0, 70000, 5, true, 0, [], 50, false, none, false, 0, [], false, []⟩

/-- Peer 7 in the domain, a host line leased to core die 1, a device line to the bridge, a held weight write, a remote contribution of lane 0. -/
def reached : State :=
  let out : MemOp := { g := 0, uid := 2, lane := 0, lanes := [0], flag := some 0, remote := some (7, 3, 5), ctx := 1, since := 60 }
  { board [(0, { thread [] with flags := [(0, 1)] })] with
    flash := { peers := [7] }
    dies := [(0, { inService := true }), (1, { held := [⟨0x2800000000, [1, 2], some 3⟩] }), (2, { held := [⟨0x3000000000, [1], none⟩] })]
    leases := [(32, ⟨[(4, 70)], [(0x1001, 9)]⟩), (hostKey, ⟨[(1, 80)], [(0x4000000000003, 5)]⟩)]
    ctxs := [(1, { root := 0, coops := [(0, { slots := [(3, filling)], relq := some (0x5000, 4, 0x6000) })] })]
    ops := [(4, out)], ports := [(2, { spare := false, swapping := true })] }

/-- A trained address of near memory, one of the weight store, one that is not trained; a snoop; a held write; a lane of each kind of port; a
peer's access; a contribution that arrives; one acknowledged; a lease that runs out. -/
theorem witness_hostAndFabric :
    let s := reached
    let inLine (pa n : Nat) : Prop := n ≠ 0 ∧ pa / 64 = (pa + n - 1) / 64
    (inLine 0x1000 64 ∧ s.trained 0x1000 64 = true ∧ kindOf 0x1000 ≠ some 1) ∧ (inLine 0x2000000000 8 ∧ s.trained 0x2000000000 8 = true ∧
      kindOf 0x2000000000 = some 1) ∧ (inLine 0x1000 1 ∧ { s with level := 0 }.trained 0x1000 1 = false) ∧
    (isHost 0x4000000000000 = true ∧ (tabGet s.leases hostKey).isSome = true) ∧
    (∃ h, (tabGetD s.dies 1 {}).held = h :: [] ∧ h.pa / 128 = (h.pa + h.bytes.length - 1) / 128 ∧ h.load = some 3 ∧ s.dieResident 1 = false) ∧
    (∃ h, (tabGetD s.dies 2 {}).held = h :: [] ∧ h.load = none ∧ s.dieResident 2 = false) ∧
    ((tabGetD s.ports 0 {}).spare = true ∧ (tabGetD s.ports 2 {}).spare = false ∧ (tabGetD s.ports 2 {}).swapping = true) ∧
    (4 ≤ s.level ∧ 7 ∈ s.flash.peers ∧ ∀ n ∈ [4, 8], (0x1000 : Nat) / 128 = (0x1000 + n - 1) / 128 ∧ s.trained 0x1000 n = true ∧
      s.lostAt 0x1000 n = false ∧ 0x1000 % n = 0) ∧
    ((tabGet s.ctxs 1).isSome = true ∧ ((s.ctx 1).coop (3 / 2 ^ 28)).current 3 = some filling ∧ filling.st = .opened ∧
      filling.experts.findIdx (fun e => e == 6) = 1 ∧ 1 < filling.experts.length ∧ bitAt filling.arrived 1 = false ∧
      filling.arrived + 2 ^ 1 ≠ 2 ^ filling.experts.length - 1 ∧ tabGet s.ctxs 2 = none) ∧
    (∃ o x, tabGet s.ops 4 = some o ∧ o.remote = some (7, 3, 5) ∧ o.dsts = [] ∧ tabGet s.groups o.g = some x ∧ x.uid = o.uid ∧ o.lanes.Nodup ∧
      (∀ l ∈ o.lanes, (tabGet x.lanes l).isSome = true) ∧ (tabGet s.ctxs o.ctx).isSome = true ∧
      (((s.ctx o.ctx).coop (coreOf o.g / 160)).relq).isSome = true) ∧
    (tabGet s.leases 32 = some ⟨[(4, 70)], [(0x1001, 9)]⟩ ∧ (([(0x1001, 9)] : Tab Byte).map (·.1)).Nodup ∧ s.lost.length < Config.lostRegions) ∧
    (tabGet s.leases hostKey = some ⟨[(1, 80)], [(0x4000000000003, 5)]⟩ ∧ .cacheWay 1 2 ∉ s.flash.spares) :=
  ⟨by decide, by decide, by decide, by decide, ⟨_, rfl, by decide⟩, ⟨_, rfl, by decide⟩, by decide, by decide, by decide,
    ⟨_, _, rfl, by decide, by decide, rfl, by decide⟩, by decide, by decide⟩

/-! ### The Drover's work and what time brings -/

/-- Grid 5 of context 1 beside `others`, with the teams, groups and cores given; die 0 in service. -/
def working (gr : Grid) (teams : Tab Team := []) (groups : Tab Group := []) (core : Core := {}) (others : Tab Grid := []) : State :=
  { level := 4, dies := [(0, { inService := true })], ctxs := [(1, { root := 0 })], grids := (5, gr) :: others, teams := teams, groups := groups
    cores := [(0, core), (640, { tlb := [page] })], nextId := 10, clock := 100 }

/-- Its group in slot 0. -/
def resident : Tab Group := [(0, { uid := 2, grid := 5, team := 6, lanes := [(0, thread [])] })]

set_option maxRecDepth 4000 in
/-- A team placed by a map; one popped; one stolen; grids of kinds 1 and 4, a marker and a reprojection that are done; a watchdog that runs; a
closed bin; a victim; a wait for an ordered section. -/
theorem witness_droverWork :
    let p : Packet := { signal := 0x5000, entry := 0x1040 }
    let gr : Grid := { ctx := 1, id := 1, queue := 0, pkt := p }
    let tm : Team := { grid := 5, tid := 0, cores := [0], groups := 1, slices := [(0, {})] }
    let signals (s : State) : Prop := ∃ v, s.putVa (unitWho 1 false) 0x5000 (leBytes 8 1) = .ok v
    (let g := { gr with entries := [(0, 1)], lc := 160 }
     let s := working g
     tabGet s.grids 5 = some g ∧ s.savedWaits 5 = false ∧ s.placeable 5 g = some (0, [0], 0) ∧ tabGet s.groups 0 = none) ∧
    (let s := working { gr with dealt := 1 } (core := { deque := [(5, 0)] })
     (s.core 0).deque.getLast? = some (5, 0) ∧ s.canStart 0 (5, 0) = true ∧ (s.core 1).deque = [] ∧ s.stealFrom 1 = some 0 ∧
       (s.core 0).deque = (5, 0) :: [] ∧ s.canStart 1 (5, 0) = true ∧ (s.grid 5).teams ≤ (s.grid 5).dealt ∧ tabGet s.groups 64 = none) ∧
    (let s := working { gr with dealt := 1 } [(6, { tm with finished := true })]
     p.kind = 1 ∧ s.gridDone 5 = true ∧ signals s ∧ p.signal ≠ 0 ∧ p.signal.toNat % 8 = 0 ∧ 65536 ≤ p.counter ∧
       ∀ e ∈ s.teams, e.2.grid = 5 → e.2.shadow = none) ∧
    (let s := working { gr with pkt := { p with kind := 4 }, done := true }
     (s.grid 5).pkt.kind = 4 ∧ (s.grid 5).done = true ∧ (s.grid 5).ended = false ∧ signals s) ∧
    (let s := working { gr with pkt := { p with kind := 5 } } (others := [(4, { gr with ended := true }), (7, gr)])
     (s.grid 5).pkt.kind = 5 ∧ (s.grid 5).ended = false ∧ (∀ e ∈ s.grids, e.1 < 5 → e.2.queue = 0 → e.2.ended = true) ∧ signals s) ∧
    (let b := (packet 2 0 0x1040 0x5000).set 0x39 0x60 |>.set 0x69 0
     let s := working { gr with pkt := { parsePacket b with vbud := [] } }
     (s.grid 5).pkt.kind = 2 ∧ (s.grid 5).ended = false ∧ fld (s.grid 5).pkt.raw 0x58 8 = 0 ∧
       ∃ u v, s.putVa (unitWho 1 false) (fld (s.grid 5).pkt.raw 0x38 8) (leBytes 4 (s.grid 5).count ++ leBytes 4 0) = .ok u ∧
         u.putVa (unitWho 1 false) 0x5000 (leBytes 8 1) = .ok v) ∧
    (let s := working { gr with progress := some 50, dealt := 1 } [(6, tm)] resident
     (s.grid 5).progress = some 50 ∧ (s.grid 5).paused = none ∧ s.watchSuspended 5 = false ∧
       ∃ v, s.putVa (unitWho 1 false) 0x5000 (leBytes 8 (2 ^ 63 + 0x11)) = .ok v) ∧
    (∀ n ∈ [1, 32], let s := working gr (core := { bins := [(3, { bin n with closed := true })] })
     ∃ b, tabGet (s.core 0).bins 3 = some b ∧ b.grid = 5 ∧ b.closed = true ∧ b.items.length = n ∧ (tabGetD s.dies 0 {}).inService = true ∧ (tabGetD s.dies 0 {}).parked = false ∧
       s.hasRoom 0 ⟨1, 32 * (s.grid 5).pkt.vbud.getD 0 0, 32 * (s.grid 5).pkt.resid, 0⟩ = true ∧ tabGet s.groups 0 = none) ∧
    (let v := { gr with pkt := { p with flags := 2 }, dealt := 1, started := true }
     let w := { gr with queue := 1, pkt := { p with prio := 2 }, level := 2 }
     let s := { working v [(6, tm)] resident (others := [(7, w)]) with dies := [(0, { inService := true, quiescing := true })] }
     s.waitingPacket 1 = some (some 7, w, 2) ∧ s.hasPicks 1 (some 7) = false ∧ s.sectionsAwaited 5 = false ∧ s.isVictim 5 v w 2 [0] = true ∧ (∀ e ∈ s.grids, s.isVictim e.1 e.2 w 2 [0] = true → e = (5, v)) ∧
       (∀ e ∈ s.teams, e.2.shadow = none) ∧ tabGet s.teams 6 = some tm ∧ tm.handler = none ∧ tm.leaves [0] = true ∧ ∀ c ∈ tm.cores, s.sectionOn c = false) ∧
    (let s := working { gr with picked := [(0, 1, none)] } [(6, tm)] resident
     (s.grid 5).sectWait = false ∧ ∃ e ∈ s.teams, s.givesUp 5 e.2 = true ∧ e.2.saving = none) := by
  refine ⟨by decide, by decide, ⟨by decide, by decide, ⟨_, rfl⟩, by decide⟩, ⟨by decide, by decide, by decide, _, rfl⟩,
    ⟨by decide, by decide, by decide, _, rfl⟩, ⟨by decide, by decide, by decide, _, _, rfl, rfl⟩, ⟨by decide, by decide, by decide, _, rfl⟩,
    fun n hn => ?_, ⟨by decide, by decide, by decide, by decide⟩, by decide⟩
  simp only [List.mem_cons, List.not_mem_nil, or_false] at hn
  obtain rfl | rfl := hn <;> exact ⟨_, rfl, by decide⟩

/-- `reached` with slot 3 as given and with records that wait. -/
def slotted (y : CSlot) (waiting : List RelRec := []) (relq : Option (Nat × Nat × Nat) := none) : State :=
  { reached with ctxs := [(1, { root := 0, coops := [(0, { slots := [(3, y)], relq := relq, waiting := waiting })] })] }

/-- Two V groups of team 6 on core 0: in lane 0 both stand, `a` before `b` or not; in lane 1 the first is done, in lane 2 it runs. -/
def standing (a b : DWord) : State :=
  let y (pc : DWord) (park : Park) : Lane := { pc := pc, hdr := pc, park := park }
  let x : Group := { uid := 2, grid := 5, team := 6, gidx := 0, lanes := [(0, y a .stand), (1, { y a .none with fin := true }), (2, y a .none)] }
  { working { ctx := 1, id := 1, queue := 0, pkt := {} } [(6, { grid := 5, tid := 0, cores := [0], groups := 2, slices := [(0, { timer := some 90 })] })]
      [(0, x), (1, { x with uid := 3, gidx := 1, lanes := [(0, y b .stand), (1, y b .stand), (2, y b .stand)] })] with nextId := 10 }

set_option maxRecDepth 4000 in
/-- The regroup timer, with the lanes of one number in order and out of it; an open bin; a window; walks that find a page and none. -/
theorem witness_timersAndChecks_timers :
    (∀ pc ∈ [0x1040, 0x1100], let s := standing 0x1080 (BitVec.ofNat 64 pc)
     ∃ x y, tabGet s.groups 0 = some x ∧ tabGet s.groups 1 = some y ∧ (tabGetD (s.team 6).slices ((s.team 6).sliceKey 0) {}).timer = some 90 ∧
       s.vgroups 6 0 = [0, 1] ∧ x.team = 6 ∧ y.team = 6 ∧ (s.team 6).handler = none ∧ (s.team 6).saved = none ∧
       ((x.lane 0).park = .stand ∧ (x.lane 0).fin = false ∧ (y.lane 0).park = .stand ∧ (y.lane 0).fin = false) ∧
       ((x.lane 1).fin = true ∧ (y.lane 1).fin = false ∧ (y.lane 1).park = .stand) ∧ (x.lane 2).fin = false ∧ (x.lane 2).park ≠ .stand) ∧
    (let s := binned [(3, bin 2)]
     tabGet (s.core 0).bins 3 = some (bin 2) ∧ (bin 2).closed = false) ∧
    (∃ d, tabGet reached.dies 0 = some d ∧ d.inService = true) ∧
    (let s := { board [] with
       ctxs := [(1, { root := 0x1000 })], cores := []
       mem := holding [(0x1000, leBytes 8 0x4001), (0x2000, leBytes 8 0x6001), (0x3000, leBytes 8 0x33 ++ leBytes 8 0x13)] }
     (tabGet s.ctxs 1).isSome = true ∧ s.tlbHit 0 1 0 = none ∧ ((s.walk 1 0).any fun e => e.allows true .load) = true ∧
       s.tlbHit 0 1 0x40000000 = none ∧ ((s.walk 1 0x40000000).any fun e => [Acc.load, .store, .atomic, .fetch].all fun k => !e.allows true k) = true ∧
       s.walk 1 0x80000000 = none) := by
  refine ⟨fun pc hp => ⟨_, _, rfl, rfl, ?_⟩, by decide, ⟨_, rfl, by decide⟩, by decide⟩
  revert pc; decide

set_option maxRecDepth 4000 in
/-- A parity error as the first, the third and the sixth of its region, and after an irreversible operation; checked runs that agree and that
differ. -/
theorem witness_timersAndChecks_checks :
    (∀ n ∈ [0, 2, 5], let s := board [(0, { thread [] with rollbacks := n })]
     ∃ x, tabGet s.groups 0 = some x ∧ (s.team x.team).saving = none ∧ (∀ l ∈ x.live, (x.lane l).irrev = false) ∧
       ((x.lanes.foldl (fun t e => t.finishHalves 0 e.1) s).region (s.thread 0 0)).broken = false ∧
       x.trap = none ∧ s.enginesIdle x.team = true ∧ x.live = [0] ∧ (x.lane 0).rollbacks = n) ∧
    (let s := board [(0, { thread [] with irrev := true })]
     ∃ x, tabGet s.groups 0 = some x ∧ ∃ l ∈ x.live, (x.lane l).irrev = true) ∧
    (let s := (board [(0, { thread [] with inBody := false })]).modTeam 6 fun t => { t with saving := some 90 }
     (s.team 6).saving.isSome = true ∧ s.stopped 6 = true) ∧
    (∀ d ∈ [1, 2], let t : Team := { grid := 5, tid := 0, cores := [0], finished := true, checked := true, digest := 1 }
     let s := { board [] with teams := [(6, t), (7, { t with shadow := some { primary := 6 }, digest := BitVec.ofNat 64 d })] }
     s.shadowOf 6 = some 7 ∧ (s.team 6).finished = true ∧ (s.team 7).finished = true) := by
  refine ⟨fun n hn => ⟨_, rfl, ?_⟩, ⟨_, rfl, 0, by decide, by decide⟩, by decide, by decide⟩
  revert n; decide

set_option maxRecDepth 4000 in
/-- A slot of each policy at its timeout; one that waits to be released; a record that waits. -/
theorem witness_timersAndChecks_slots :
    (∀ policy ∈ [0, 1], let y := { filling with policy := policy }
     tabGet (slotted y).ctxs 1 ≠ none ∧ tabGet (((slotted y).ctx 1).coop 0).slots 3 = some y ∧ y.timeout ≠ 0 ∧ y.timedOut = false) ∧
    (∀ r ∈ [Release.cancelled, .complete], let y := { filling with st := .releasing, reason := some r, out := [1, 2] }
     let s := slotted y
     tabGet ((s.ctx 1).coop 0).slots 3 = some y ∧ y.recordDue = false ∧ ((s.ctx 1).coop 0).mustWait y = false ∧
       ((s.ctx 1).coop 0).relq = none ∧ 65536 ≤ y.counter ∧ y.fault = false ∧ ∃ u, s.putVa (unitWho 1 y.privileged) y.dest y.out = .ok u) ∧
    (let r : RelRec := ⟨some 3, 7, 3, 5, []⟩
     let s := slotted { filling with st := .releasing, recordDue := true } [r] (some (0x5000, 4, 0x6000))
     let k := (s.ctx 1).coop 0
     tabGet k.slots 3 = some { filling with st := .releasing, recordDue := true } ∧ k.waiting = r :: [] ∧ k.relq = some (0x5000, 4, 0x6000) ∧
       s.readVa (unitWho 1 true) 0x6000 8 = .ok (leBytes 8 0) ∧ k.m < 0 + 2 ^ 4 ∧
       ∃ u, s.putVa (unitWho 1 true) (0x5000 + 16 * (k.m % 2 ^ 4)) (leBytes 4 r.token.toNat ++ leBytes 4 r.id.toNat ++
         leBytes 4 r.info.toNat ++ leBytes 4 (k.m + 1)) = .ok u) := by
  letI (a b : Except (Cause × Nat) (List Byte)) := sameResult a b
  refine ⟨by decide, fun r hr => ?_, by decide, by decide, by decide, by decide, by decide, some_ok (by decide)⟩
  simp only [List.mem_cons, List.not_mem_nil, or_false] at hr
  obtain rfl | rfl := hr <;> exact ⟨by decide, by decide, by decide, by decide, by decide, by decide, some_ok (by decide)⟩

/-! ### The step and the encodings -/

/-- A word of each size with its fields at the ends of their ranges. -/
theorem witness_encodingRoundTrip : ∀ i ∈ [Instr.iaddi 127 127 0x400, .sadd 127 127 (.lit 0xFFFFFFFF), .atom .umax true true .ar .device 0 126 126, .nop],
    i.isWord = true ∧ i.wf = true ∧ ∀ a, i ≠ .regionstatClearOvf a := by
  intro i hi
  simp only [List.mem_cons, List.not_mem_nil, or_false] at hi
  obtain rfl | rfl | rfl | rfl := hi <;> exact ⟨by decide, by decide, fun _ h => nomatch h⟩

set_option maxRecDepth 4000 in
/-- A word and two words placed at the program counter, fetched with the clause or now; a step of the device that the schedule names; a word that
spills nothing; a word in an instruction cache. -/
theorem witness_stepRunsDecoded_words :
    let meets (s : State) (i : Instr) (n : Nat) : Prop :=
      let v : State := { s.tick with sched := [] }
      let u := [0].foldl (fun t l => t.finishHalves 0 l) v
      let c := u.cxOf 0 [0]
      let a := c.y0.pc.toNat
      let word (p : Nat) : Word := BitVec.ofNat 32 (memNat u.mem p 4)
      let held (a : Nat) (x : Word) : Prop := c.y0.body[(a - c.y0.hdr.toNat) / 4 - 1]? = some (some x)
      let read (a p : Nat) : Prop := (c.y0.body[(a - c.y0.hdr.toNat) / 4 - 1]? = none ∧ (u.imageAt c.gr.ctx a).isSome = true ∧
        u.xlate c.who .fetch a 4 = .ok p ∧ tabGet (u.core c.who.core).icache (icKey c.who.ctx a) = none) ∨ held a (word p)
      s.sched = .issue 0 0 [] :: [] ∧ v.lanesFor 0 0 [] = [0] ∧ c.y0.inBody = true ∧ read a 0x10000005044 ∧
        ((n = 1 ∧ decodeWord (word 0x10000005044) none = .ok (i, 1)) ∨
          (n = 2 ∧ decodeWord (word 0x10000005044) none = .error .following ∧ 2 ≤ c.y0.room ∧ read (a + 4) 0x10000005048 ∧
            decodeWord (word 0x10000005044) (some (word 0x10000005048)) = .ok (i, 2))) ∧
        (lastOnly i = true → c.y0.room = sizeOf' i) ∧ needsLevel3 i = false ∧ u.unheld c i = []
    meets (State.reset.withFetchWord 32 0x7E600600) (.pend 12) 1 ∧
    meets ((State.reset.withFetchWord 32 0x7E600600).modLanes 0 [0] fun _ y => { y with body := [some 0x7E600600] }) (.pend 12) 1 ∧
    meets (State.reset.withFetchWord 64 0x000010003605CBFF) (.sadd 23 23 (.lit 0x1000)) 2 ∧
    (let s : State := { sched := [.event .deviceReset] }
     s.sched = .event .deviceReset :: []) ∧
    (let i : Instr := .iadd .w32 3 4 (.reg 5)
     let s := board [(0, { thread [(4, 1), (5, 2)] with resident := [4, 5] })]
     let c := cx s
     let le (l : Nat) : Entries := (s.laneEntries c i l).getD ⟨(c.x.lane l).resident, [], []⟩
     s.groupEntries c i = some ⟨c.x.sresident, [], []⟩ ∧ (∀ l ∈ c.ls, (le l).spilled = [] ∧ (le l).filled = []) ∧
       ∀ l ∈ c.ls, (s.region (s.thread c.g l)).back = false) ∧
    (let s : State := { cores := [(0, { icache := [(2 ^ 64 + 0x1044, 7)] })] }
     tabGet (s.core 0).icache (1 * 2 ^ 64 + 0x1044) = some 7 ∧ tabGet (s.core 1).icache (1 * 2 ^ 64 + 0x1044) = none) := by
  letI (a b : Except Cause Nat) := sameResult a b
  letI (a b : Except DecodeError (Instr × Nat)) := sameResult a b
  exact ⟨by decide, by decide, by decide, rfl, by decide, by decide⟩

/-- Two lanes at the header of the placed clause, which has the bits `h` besides its own; what is lost to the group; the flags of its packet. -/
def headed (h : Nat) (y0 y1 : Lane → Lane) (lost : List LostAccess := []) (flags : Nat := 16) : State :=
  let s := State.reset.withFetchWord 32 0x7E600600
  let y : Lane := { placedLane 1 0 with pc := placedCode, inBody := false }
  let s := s.modGroup 0 fun x => { x with lanes := [(0, y0 y), (1, y1 y)], running := 3, lost := lost }
  { s with
    grids := tabMap s.grids fun _ gr => { gr with pkt := { gr.pkt with flags := flags } }
    mem := memWrite s.mem 0x10000005040 (leBytes 4 (0x000FF100 + h)) }

/-- The state in which the header is looked at. -/
abbrev looked (s : State) (ls : List Nat) : State := ls.foldl (fun t l => t.finishHalves 0 l) { s.tick with sched := [] }

set_option maxRecDepth 4000 in
/-- Headers that fail their check, that wait for a flag and for what is behind, that end a region, at which a DET set yields, and ones at which
a lost access is due; headers outside every image, in no page, badly formed, well formed, and with a map that cannot be read. -/
theorem witness_stepRunsDecoded_headers :
    let at' (s : State) (ls : List Nat) : Prop :=
      s.sched = .issue 0 0 [] :: [] ∧ State.lanesFor { s.tick with sched := [] } 0 0 [] = ls ∧ ((looked s ls).cxOf 0 ls).y0.inBody = false
    let check (s : State) (ls : List Nat) : Except (Cause × Nat) Word := (looked s ls).checkHeader ((looked s ls).cxOf 0 ls).who 0x1040
    let goes (s : State) (h : Word) (l : Nat) : Prop :=
      (∀ n < 12, h.getLsbD (20 + n) = true → tabGet (((looked s [0, 1]).group 0).lane l).flags n = none) ∧
        (h.getLsbD 7 = true → ∀ e ∈ (looked s [0, 1]).resid, e.2.g = 0 → e.2.lane ≠ l)
    let stays (s : State) (h : Word) (l : Nat) : Prop :=
      (∃ n < 12, h.getLsbD (20 + n) = true ∧ tabGet (((looked s [0, 1]).group 0).lane l).flags n ≠ none) ∨
        (h.getLsbD 7 = true ∧ ∃ e ∈ (looked s [0, 1]).resid, e.2.g = 0 ∧ e.2.lane = l)
    let front (s : State) : Prop := ∀ l ∈ [0, 1], ((looked s [0, 1]).region ((looked s [0, 1]).thread 0 l)).back = false
    let flagged (y : Lane) : Lane := { y with flags := [(3, 1)] }
    let e : LostAccess := ⟨1, 0x2000, 0x1040, 4, 77⟩
    (let s := headed 1 id id
     at' s [0, 1] ∧ check s [0, 1] = .error (.illegal, 0x1040) ∧ ((looked s [0, 1]).team ((looked s [0, 1]).group 0).team).shadow = none) ∧
    (let s := headed 0x00800000 id flagged
     at' s [0, 1] ∧ check s [0, 1] = .ok 0x008FF100 ∧ goes s 0x008FF100 0 ∧ stays s 0x008FF100 1 ∧ front s) ∧
    (let s := headed 0x00800000 flagged flagged
     at' s [0, 1] ∧ check s [0, 1] = .ok 0x008FF100 ∧ ∀ l ∈ [0, 1], stays s 0x008FF100 l) ∧
    (let s := { headed 0x80 id id with resid := [(5, { g := 0, lane := 1, ins := .fadd false .rne 3 4 (.reg 5), kind := .alu })] }
     at' s [0, 1] ∧ check s [0, 1] = .ok 0x000FF180 ∧ goes s 0x000FF180 0 ∧ stays s 0x000FF180 1 ∧ front s) ∧
    (let s := headed 0x20 id id [] 17
     at' s [0, 1] ∧ check s [0, 1] = .ok 0x000FF120 ∧ ((looked s [0, 1]).grid ((looked s [0, 1]).group 0).grid).pkt.det = true) ∧
    (let s := headed 0x20 (fun y => { y with yielded := true }) (fun y => { y with yielded := true }) [] 17
     at' s [0, 1] ∧ check s [0, 1] = .ok 0x000FF120 ∧ (∀ l ∈ [0, 1], goes s 0x000FF120 l) ∧ front s) ∧
    (let s := headed 0 id id [e]
     at' s [0, 1] ∧ (∀ l ∈ ((looked s [0, 1]).group 0).ready, (((looked s [0, 1]).group 0).lane l).inBody = false)) ∧
    (let s := headed 0 id (fun y => { y with pc := placedCode + 4, inBody := true }) [e]
     at' s [0] ∧ ∃ l ∈ ((looked s [0]).group 0).ready, (((looked s [0]).group 0).lane l).inBody = true) ∧
    (let s := headed 0 id id
     let w := (s.cxOf 0 [0, 1]).who
     let im : Image := { base := 0x1000, words := 3, mapOfs := 0x50 }
     let far : State := { s with ctxs := tabMap s.ctxs fun _ x => { x with images := [{ im with mapOfs := 0x4000 }] } }
     let out : State := { s with ctxs := tabMap s.ctxs fun _ x => { x with images := [{ im with base := 0x4000 }] } }
     s.imageAt w.ctx 0x9000 = none ∧
     (out.imageAt w.ctx 0x4040 = some { im with base := 0x4000 } ∧ out.xlate w .fetch 0x4040 4 = .error .notPresent) ∧
     (s.imageAt w.ctx 0x1040 = some im ∧ s.xlate w .fetch 0x1040 4 = .ok 0x10000005040 ∧ s.mapBit w im 0 = .ok true ∧ s.mapBit w im 1 = .ok false) ∧
     (s.imageAt w.ctx 0x1044 = some im ∧ s.xlate w .fetch 0x1044 4 = .ok 0x10000005044 ∧ s.mapBit w im 1 = .ok false) ∧
     (far.imageAt w.ctx 0x1040 = some { im with mapOfs := 0x4000 } ∧ far.xlate w .fetch 0x1040 4 = .ok 0x10000005040 ∧
       far.mapBit w { im with mapOfs := 0x4000 } 0 = .error (.notPresent, 0x5000))) := by
  letI (a b : Except Cause Nat) := sameResult a b
  letI (a b : Except (Cause × Nat) Word) := sameResult a b
  letI (a b : Except (Cause × Nat) Bool) := sameResult a b
  exact ⟨by decide, by decide, by decide, by decide, by decide, by decide, by decide, by decide, by decide⟩

theorem witness_stepKeepsInv : State.reset.Inv ∧ (∃ t, step State.reset = .next t) ∧ (Tests.calm).Inv := by
  refine ⟨by unfold State.Inv; decide, ?_, by unfold State.Inv; decide⟩
  exact ⟨_, rfl⟩

end Sys2Proof.Tests
end

/-!
PROOFS. The step keeps the invariant; what becomes of the service level; the reset state.
-/

namespace Sys2Proof.Machine

open State

variable {P : Nat → Prop}

/-- What `exec` does keeps memory and the region-status table as the invariant has them, and keeps every property of the service level that a
device reset and a rise keep: no other instruction or device step touches the level (R13). -/
theorem exec_inv {i : Instr} {s : State} (h0 : i = .deviceReset ∨ i = .powerLoss → P 0)
    (h1 : (∃ pass, i = .serviceLevelRise pass) → ∀ n < 4, P n → P (n + 1)) (h : s.InvOn P) : OutInv P (exec i s) := by
  cases i with
  | iadd f d a b => exact execIadd_inv h f d a b
  | isub f d a b => exact execIsub_inv h f d a b
  | imul f d a b => exact execImul_inv h f d a b
  | imad wide d a b => exact execImad_inv h wide d a b
  | imin uns d a b => exact execImin_inv h uns d a b
  | imax uns d a b => exact execImax_inv h uns d a b
  | and d a b => exact execAnd_inv h d a b
  | andn d a b => exact execAndn_inv h d a b
  | or d a b => exact execOr_inv h d a b
  | orn d a b => exact execOrn_inv h d a b
  | xor d a b => exact execXor_inv h d a b
  | shl wide d a b => exact execShl_inv h wide d a b
  | shr wide d a b => exact execShr_inv h wide d a b
  | sar wide d a b => exact execSar_inv h wide d a b
  | rotl wide d a b => exact execRotl_inv h wide d a b
  | clz d a => exact execClz_inv h d a
  | popc d a => exact execPopc_inv h d a
  | brev d a => exact execBrev_inv h d a
  | iabs d a => exact execIabs_inv h d a
  | ineg d a => exact execIneg_inv h d a
  | not d a => exact execNot_inv h d a
  | bfx signed d a b => exact execBfx_inv h signed d a b
  | bfi d a b => exact execBfi_inv h d a b
  | bitil three d a => exact execBitil_inv h three d a
  | bitdl f d a => exact execBitdl_inv h f d a
  | icmp c d a b => exact execIcmp_inv h c d a b
  | isel p d a b => exact execIsel_inv h p d a b
  | iaddc p d a b => exact execIaddc_inv h p d a b
  | mov d a => exact execMov_inv h d a
  | movVS d a => exact execMovVS_inv h d a
  | movSV d a b => exact execMovSV_inv h d a b
  | movPP d a => exact execMovPP_inv h d a
  | movSS d a => exact execMovSS_inv h d a
  | movVP d a => exact execMovVP_inv h d a
  | movPV d a => exact execMovPV_inv h d a
  | pand d a b => exact execPand_inv h d a b
  | por d a b => exact execPor_inv h d a b
  | pxor d a b => exact execPxor_inv h d a b
  | pnot d a => exact execPnot_inv h d a
  | iaddi d a imm => exact execIaddi_inv h d a imm
  | andi d a imm => exact execAndi_inv h d a imm
  | ori d a imm => exact execOri_inv h d a imm
  | xori d a imm => exact execXori_inv h d a imm
  | shli d a imm => exact execShli_inv h d a imm
  | shri d a imm => exact execShri_inv h d a imm
  | sari d a imm => exact execSari_inv h d a imm
  | muli d a imm => exact execMuli_inv h d a imm
  | movi d imm => exact execMovi_inv h d imm
  | movh d imm => exact execMovh_inv h d imm
  | smovi d imm => exact execSmovi_inv h d imm
  | sadd d a b => exact execSadd_inv h d a b
  | ssub d a b => exact execSsub_inv h d a b
  | smul d a b => exact execSmul_inv h d a b
  | sand d a b => exact execSand_inv h d a b
  | sor d a b => exact execSor_inv h d a b
  | sxor d a b => exact execSxor_inv h d a b
  | sshl d a b => exact execSshl_inv h d a b
  | sshr d a b => exact execSshr_inv h d a b
  | smin d a b => exact execSmin_inv h d a b
  | smax d a b => exact execSmax_inv h d a b
  | sadd64 d a b => exact execSadd64_inv h d a b
  | saddi d a imm => exact execSaddi_inv h d a imm
  | scmp c d a b => exact execScmp_inv h c d a b
  | fadd sat m d a b => exact execFadd_inv h sat m d a b
  | fsub sat m d a b => exact execFsub_inv h sat m d a b
  | fmul sat m d a b => exact execFmul_inv h sat m d a b
  | ffma sat m d a b => exact execFfma_inv h sat m d a b
  | fmin num d a b => exact execFmin_inv h num d a b
  | fmax num d a b => exact execFmax_inv h num d a b
  | fcmp c d a b => exact execFcmp_inv h c d a b
  | fabs d a => exact execFabs_inv h d a
  | fneg d a => exact execFneg_inv h d a
  | fcpys d a b => exact execFcpys_inv h d a b
  | frcp d a => exact execFrcp_inv h d a
  | frsq d a => exact execFrsq_inv h d a
  | fsqrt d a => exact execFsqrt_inv h d a
  | flog2 d a => exact execFlog2_inv h d a
  | fexp2 d a => exact execFexp2_inv h d a
  | fsin d a => exact execFsin_inv h d a
  | fcos d a => exact execFcos_inv h d a
  | ftanh d a => exact execFtanh_inv h d a
  | padd2 bf16 d a b => exact execPadd2_inv h bf16 d a b
  | pmul2 bf16 d a b => exact execPmul2_inv h bf16 d a b
  | pfma2 bf16 d a b => exact execPfma2_inv h bf16 d a b
  | fcvt m sel d a => exact execFcvt_inv h m sel d a
  | fcvts f d a b => exact execFcvts_inv h f d a b
  | qcvt q hadamard n32 d a => exact execQcvt_inv h q hadamard n32 d a
  | qamax n32 d a => exact execQamax_inv h n32 d a
  | vqdec table d a => exact execVqdec_inv h table d a
  | shfl w m d a b => exact execShfl_inv h w m d a b
  | voteAny d a => exact execVoteAny_inv h d a
  | voteAll d a => exact execVoteAll_inv h d a
  | voteBallot d a => exact execVoteBallot_inv h d a
  | voteCount d a => exact execVoteCount_inv h d a
  | reduce op d a b => exact execReduce_inv h op d a b
  | scan excl op d a b => exact execScan_inv h excl op d a b
  | envrd d index => exact execEnvrd_inv h d index
  | elect d => exact execElect_inv h d
  | bra c ofs => exact execBra_inv h c ofs
  | jmp ofs => exact execJmp_inv h ofs
  | call ofs => exact execCall_inv h ofs
  | jmpi a => exact execJmpi_inv h a
  | calli d a => exact execCalli_inv h d a
  | nop => exact execNop_inv h
  | ret a => exact execRet_inv h a
  | exit => exact execExit_inv h
  | yield => exact execYield_inv h
  | enrol k => exact execEnrol_inv h k
  | join k => exact execJoin_inv h k
  | leave k => exact execLeave_inv h k
  | brp ifPending p ofs => exact execBrp_inv h ifPending p ofs
  | wbase n => exact execWbase_inv h n
  | vfree a n => exact execVfree_inv h a n
  | regroup => exact execRegroup_inv h
  | pend a => exact execPend_inv h a
  | ld acq z d a b => exact execLd_inv h acq z d a b
  | st rel z d a b => exact execSt_inv h rel z d a b
  | lds z d a b => exact execLds_inv h z d a b
  | sts z d a b => exact execSts_inv h z d a b
  | ldu z d a b => exact execLdu_inv h z d a b
  | atom op nr wide o sc d a b => exact execAtom_inv h op nr wide o sc d a b
  | cas wide o sc d a b => exact execCas_inv h wide o sc d a b
  | fenceAcq sc => exact execFenceAcq_inv h sc
  | fenceRel sc => exact execFenceRel_inv h sc
  | fenceFull sc => exact execFenceFull_inv h sc
  | fenceAsync sc => exact execFenceAsync_inv h sc
  | icinv sc => exact execIcinv_inv h sc
  | cctlWb a b => exact execCctlWb_inv h a b
  | cctlInv a b => exact execCctlInv_inv h a b
  | cctlWbinv a b => exact execCctlWbinv_inv h a b
  | fetch d a b => exact execFetch_inv h d a b
  | fqry d a sel => exact execFqry_inv h d a sel
  | tex d a b => exact execTex_inv h d a b
  | rngkey a => exact execRngkey_inv h a
  | rng d a => exact execRng_inv h d a
  | rmask d a b => exact execRmask_inv h d a b
  | cpy a => exact execCpy_inv h a
  | chain a => exact execChain_inv h a
  | sacqFree d ring => exact execSacqFree_inv h d ring
  | sacqFilled d ring => exact execSacqFilled_inv h d ring
  | spub a ring => exact execSpub_inv h a ring
  | sfree a ring => exact execSfree_inv h a ring
  | coll a => exact execColl_inv h a
  | mma solo f d a b => exact execMma_inv h solo f d a b
  | mmasp solo f d a b => exact execMmasp_inv h solo f d a b
  | conv d a b => exact execConv_inv h d a b
  | scacc d a b => exact execScacc_inv h d a b
  | aclr d b => exact execAclr_inv h d b
  | ald d a b => exact execAld_inv h d a b
  | astFp32 d a => exact execAstFp32_inv h d a
  | astBf16 d a => exact execAstBf16_inv h d a
  | tld d a b => exact execTld_inv h d a b
  | oprdy => exact execOprdy_inv h
  | mwait d => exact execMwait_inv h d
  | spawn a b => exact execSpawn_inv h a b
  | enq d a => exact execEnq_inv h d a
  | deq blocking d a => exact execDeq_inv h blocking d a
  | depset d a b => exact execDepset_inv h d a b
  | depdec d b => exact execDepdec_inv h d b
  | depadd d b => exact execDepadd_inv h d b
  | cmbopen blocking d a => exact execCmbopen_inv h blocking d a
  | cmbput d a => exact execCmbput_inv h d a
  | cmbstat d a => exact execCmbstat_inv h d a
  | cmbclose a => exact execCmbclose_inv h a
  | cmbcancel a => exact execCmbcancel_inv h a
  | binflush => exact execBinflush_inv h
  | trace cull any d a b => exact execTrace_inv h cull any d a b
  | hitget d a b => exact execHitget_inv h d a b
  | vapp d a b => exact execVapp_inv h d a b
  | vconn d a b => exact execVconn_inv h d a b
  | vmrg d a b => exact execVmrg_inv h d a b
  | vmrq d a b => exact execVmrq_inv h d a b
  | vrwtConn d a b => exact execVrwtConn_inv h d a b
  | vrwtMrg d a b => exact execVrwtMrg_inv h d a b
  | fopen a => exact execFopen_inv h a
  | fclose a => exact execFclose_inv h a
  | eseal a => exact execEseal_inv h a
  | vret a => exact execVret_inv h a
  | vget d a b => exact execVget_inv h d a b
  | trap code => exact execTrap_inv h code
  | sysrd d index => exact execSysrd_inv h d index
  | syswrTrapbase a => exact execSyswrTrapbase_inv h a
  | syswrLattice n a => exact execSyswrLattice_inv h n a
  | regionstatClearRegion a => exact execRegionstatClearRegion_inv h a
  | regionstatClearOvf a => exact execRegionstatClearOvf_inv h a
  | syswrPerfctl a => exact execSyswrPerfctl_inv h a
  | syswrPerfcnt n a => exact execSyswrPerfcnt_inv h n a
  | syswrWschedcfg a => exact execSyswrWschedcfg_inv h a
  | syswrDetsel a => exact execSyswrDetsel_inv h a
  | syswrOther index a => exact execSyswrOther_inv h index a
  | ordb => exact execOrdb_inv h
  | orde => exact execOrde_inv h
  | pxw a => exact execPxw_inv h a
  | resume a => exact execResume_inv h a
  | bkpt tag => exact execBkpt_inv h tag
  | illegalWord w => exact execIllegalWord_inv h w
  | deviceReset => exact execDeviceReset_inv (h0 (.inl rfl)) h
  | linkFunctionReset link => exact execLinkFunctionReset_inv h link
  | powerLoss => exact execPowerLoss_inv (h0 (.inr rfl)) h
  | serviceLevelRise pass => exact execServiceLevelRise_inv (h1 ⟨_, rfl⟩) h pass
  | hostRegisterWrite link offset data => exact execHostRegisterWrite_inv h link offset data
  | queueDescriptorWrite offset data => exact execQueueDescriptorWrite_inv h offset data
  | queueEnable offset data => exact execQueueEnable_inv h offset data
  | queueDisable offset data => exact execQueueDisable_inv h offset data
  | writeIndexAdvance q => exact execWriteIndexAdvance_inv h q
  | commandAreaWrite link offset data => exact execCommandAreaWrite_inv h link offset data
  | unlistedServiceOp link => exact execUnlistedServiceOp_inv h link
  | ctxcreate link => exact execCtxcreate_inv h link
  | ctxsetSavePool link => exact execCtxsetSavePool_inv h link
  | ctxsetGraphRegion link => exact execCtxsetGraphRegion_inv h link
  | ctxsetCombineRegion link => exact execCtxsetCombineRegion_inv h link
  | ctxsetReleaseQueue link => exact execCtxsetReleaseQueue_inv h link
  | ctxsetTrapbase link => exact execCtxsetTrapbase_inv h link
  | ctxdestroy link => exact execCtxdestroy_inv h link
  | imgload link => exact execImgload_inv h link
  | imgdrop link => exact execImgdrop_inv h link
  | inval link => exact execInval_inv h link
  | hostrange link => exact execHostrange_inv h link
  | save link => exact execSave_inv h link
  | restore link => exact execRestore_inv h link
  | quiesce link => exact execQuiesce_inv h link
  | powerP0 link => exact execPowerP0_inv h link
  | powerP1 link => exact execPowerP1_inv h link
  | powerPark link => exact execPowerPark_inv h link
  | wload link => exact execWload_inv h link
  | cxlMemRead pa bytes => exact execCxlMemRead_inv h pa bytes
  | cxlMemWrite pa data => exact execCxlMemWrite_inv h pa data
  | cxlCacheSnoop pa => exact execCxlCacheSnoop_inv h pa
  | weightPortWrite die => exact execWeightPortWrite_inv h die
  | fabricLaneFailure port lane => exact execFabricLaneFailure_inv h port lane
  | spareLaneSwapComplete port => exact execSpareLaneSwapComplete_inv h port
  | peerAccess peer pa op => exact execPeerAccess_inv h peer pa op
  | remoteArrival ctx slotId expert data => exact execRemoteArrival_inv h ctx slotId expert data
  | remoteAcknowledgement id => exact execRemoteAcknowledgement_inv h id
  | remoteAckTimeout id => exact execRemoteAckTimeout_inv h id
  | leaseRenewal holder => exact execLeaseRenewal_inv h holder
  | leaseExpiry line => exact execLeaseExpiry_inv h line
  | droverTakePacket q => exact execDroverTakePacket_inv h q
  | effectivePriorityAgeing q => exact execEffectivePriorityAgeing_inv h q
  | teamPlace grid => exact execTeamPlace_inv h grid
  | ownerPop core => exact execOwnerPop_inv h core
  | thiefSteal core => exact execThiefSteal_inv h core
  | gridComplete grid => exact execGridComplete_inv h grid
  | markerComplete grid => exact execMarkerComplete_inv h grid
  | holdListDelivery q => exact execHoldListDelivery_inv h q
  | watchdogExpiry grid => exact execWatchdogExpiry_inv h grid
  | memoryAccessComplete id => exact execMemoryAccessComplete_inv h id
  | closureRun id => exact execClosureRun_inv h id
  | chainEntryPerform id => exact execChainEntryPerform_inv h id
  | engineCommandComplete id => exact execEngineCommandComplete_inv h id
  | matrixCommandComplete id => exact execMatrixCommandComplete_inv h id
  | copyCommandComplete core => exact execCopyCommandComplete_inv h core
  | collectiveComplete id peers => exact execCollectiveComplete_inv h id peers
  | pageWalkComplete core ctx va => exact execPageWalkComplete_inv h core ctx va
  | latticeCopyComplete ctx => exact execLatticeCopyComplete_inv h ctx
  | regroupTimerExpiry team core => exact execRegroupTimerExpiry_inv h team core
  | binTimerExpiry core bin => exact execBinTimerExpiry_inv h core bin
  | binLaunch core bin => exact execBinLaunch_inv h core bin
  | parityError gslot => exact execParityError_inv h gslot
  | correctableError part => exact execCorrectableError_inv h part
  | trapRecordTake gslot => exact execTrapRecordTake_inv h gslot
  | handlerTeamStart ctx record => exact execHandlerTeamStart_inv h ctx record
  | deferredErrorTrap id => exact execDeferredErrorTrap_inv h id
  | spatialPreemption q cores => exact execSpatialPreemption_inv h q cores
  | preemptionWaitExpiry grid => exact execPreemptionWaitExpiry_inv h grid
  | exactStop team => exact execExactStop_inv h team
  | saveBoundExpiry team => exact execSaveBoundExpiry_inv h team
  | teamRestore team cores => exact execTeamRestore_inv h team cores
  | digestCompare team => exact execDigestCompare_inv h team
  | slotTimerExpiry ctx die index => exact execSlotTimerExpiry_inv h ctx die index
  | orderedRelease ctx die index => exact execOrderedRelease_inv h ctx die index
  | releaseRecordWrite ctx die => exact execReleaseRecordWrite_inv h ctx die
  | reprojectionComplete grid => exact execReprojectionComplete_inv h grid
  | weightRefreshWindow die => exact execWeightRefreshWindow_inv h die

/-- Where nothing is scheduled, whichever of the possible actions is chosen keeps the invariant (log 6). -/
theorem State.choose_inv {s : State} (hx : ∀ i (t : State), t.InvOn P → OutInv P (exec i t)) (h : s.InvOn P) : OutInv P s.choose := by
  have next {l : List Action} {t : State} (hl : ∀ a ∈ l, Keeps P a) (e : s.firstOf l = some t) : OutInv P (.next t) :=
    outInv_next (firstOf_inv h hl e)
  have timed {l : List (Nat × Action)} (hl : ∀ e ∈ l, e ∈ sortBy (fun e : Nat × Action => e.1) s.timers) :
      ∀ a ∈ l.map (·.2), Keeps P a := by
    intro a ha
    obtain ⟨e, he, rfl⟩ := List.mem_map.1 ha
    exact timers_keep s e (mem_sortBy (hl e he))
  unfold State.choose
  refine outInv_ite (hx (.serviceLevelRise true) s h) ?_
  split
  case h_1 e => exact next (completions_keep s) e
  split
  case h_1 e => exact next (followUps_keep s) e
  split
  case h_1 e => exact next (keeps_all_append (drover_keep s) (serviceStep_keep s)) e
  split
  case h_1 e => exact next (timed fun _ => List.mem_of_mem_filter) e
  split
  case h_1 e => exact firstIssue_inv hx h e
  split
  case h_1 e => exact next (timed fun _ => id) e
  exact outInv_next h

/-- A step keeps what every meaning keeps: it runs a meaning, issues for a set, or chooses among the actions. -/
theorem step_inv {s : State} (hx : ∀ i (t : State), t.InvOn P → OutInv P (exec i t)) (h : s.InvOn P) : OutInv P (step s) := by
  have hs (r : List Sched) : State.InvOn P { s.tick with sched := r } := h
  unfold step State.advanceStep
  split
  · exact hx _ _ (hs _)
  · split
    · exact issueOf_inv hx (hs _) ‹_›
    · exact outInv_fault _
  · exact choose_inv hx (Inv_of_kept (tick_kept s) h)

/-- Settles O60: every meaning keeps the bound on the level, and so does the step around it. -/
theorem stepKeepsInv : Obligations.StepKeepsInv := by
  intro s t h e
  have hx (i : Instr) (u : State) (hu : u.InvOn (· ≤ 4)) : OutInv (· ≤ 4) (exec i u) :=
    exec_inv (fun _ => Nat.zero_le 4) (fun _ _ hn _ => hn) hu
  exact step_inv hx (State.InvOn_bound.2 h) t e

/-! ### Resets and rises of the service level -/

theorem exec_reset {i : Instr} (hi : i = .deviceReset ∨ i = .powerLoss) (s : State) : exec i s = .next s.afterReset := by
  rcases hi with rfl | rfl <;> rfl

/-- The dies that a rise from the level of `s` brings into service or sets the clock of: die 0 alone at the first (R12). -/
def State.risingDies (s : State) : List Nat := if s.level = 0 then [0] else upto 4

theorem exec_serviceLevelRise_pass {s : State} (he : s.err = false) (hl : s.level < 4) :
    exec (.serviceLevelRise true) s =
      .next (s.risingDies.foldl (fun t d => t.raiseDie (s.level + 1) d) { s with level := s.level + 1 }) := by
  have hb : (s.err || decide (4 ≤ s.level)) = false := by simp [he, hl]
  simp [exec, execServiceLevelRise, State.risingDies, hb]

theorem exec_serviceLevelRise_fail {s : State} (he : s.err = false) (hl : s.level < 4) :
    exec (.serviceLevelRise false) s = .next { s with err := true } := by
  have hb : (s.err || decide (4 ≤ s.level)) = false := by simp [he, hl]
  simp [exec, execServiceLevelRise, hb]

/-- A rise answers a next state only from a level below 4 without ERR (R13). -/
theorem exec_serviceLevelRise_enabled {s t : State} {pass : Bool} (e : exec (.serviceLevelRise pass) s = .next t) :
    s.err = false ∧ s.level < 4 := by
  by_cases hb : (s.err || decide (4 ≤ s.level)) = true
  · simp [exec, execServiceLevelRise, hb] at e
  · simpa using hb

theorem State.foldl_raiseDie_level (n : Nat) (l : List Nat) (s : State) : (l.foldl (fun t d => t.raiseDie n d) s).level = s.level :=
  congrArg (·.2.1) (foldl_kept (fun t d => raiseDie_kept t n d) l s)

/-- Settles O49: the level that `s` has is kept by all but a reset and a rise, whose next states are known. -/
theorem serviceLevel : Obligations.ServiceLevel := by
  intro s
  refine ⟨fun i t hs e => ?_, fun he hl => ⟨_, exec_serviceLevelRise_pass he hl, foldl_raiseDie_level ..⟩, exec_serviceLevelRise_fail⟩
  by_cases hr : i = .deviceReset ∨ i = .powerLoss
  · rw [exec_reset hr] at e
    cases e
    exact .inr (.inr ⟨hr, rfl⟩)
  by_cases hp : ∃ pass, i = .serviceLevelRise pass
  · obtain ⟨pass, rfl⟩ := hp
    obtain ⟨he, hl⟩ := exec_serviceLevelRise_enabled e
    cases pass
    · rw [exec_serviceLevelRise_fail he hl] at e
      cases e
      exact .inl rfl
    · rw [exec_serviceLevelRise_pass he hl] at e
      cases e
      exact .inr (.inl ⟨rfl, foldl_raiseDie_level ..⟩)
  · obtain ⟨-, hl, -⟩ := exec_inv (fun h => absurd h hr) (fun h => absurd h hp) (State.InvOn_level hs) t e
    exact .inl hl

/-- Settles O56: the fields of the reset state as they are written, and the registers read from them. -/
theorem resetState : Obligations.ResetState := by
  refine ⟨State.InvOn_bound.1 (State.reset_inv (Nat.zero_le 4)), by decide, rfl, rfl, rfl, rfl, rfl, rfl, by decide, rfl, by decide, rfl, rfl, rfl,
    rfl, rfl, rfl, rfl, rfl, rfl, fun c => ⟨rfl, rfl, rfl⟩, fun q => ⟨?_, rfl, rfl⟩⟩
  show ({} : Queue).en = false
  decide

end Sys2Proof.Machine

/-!
PROOFS. What a device reset leaves of the fabric ports and of memory outside the part; the dies at a rise; SVCCAP and the clock registers bit by
bit.
-/

namespace Sys2Proof.Machine

open State

/-! ### A device reset: ports and memory -/

/-- The port has had a spare lane put in: it has no spare left and is not changing lanes (R304). -/
def SparePut (ports : Tab Port) (port : Nat) : Prop := ∃ q, tabGet ports port = some q ∧ q.spare = false ∧ q.swapping = false

theorem Flash.ports_of_no_lane {f : Flash} {port : Nat} (h : ∀ n, WornPart.lane port n ∉ f.spares) : tabGet f.ports port = none := by
  refine List.foldlRecOn (motive := fun t : Tab Port => tabGet t port = none) f.spares _ rfl fun t ht p hp => ?_
  split
  · next k n =>
    have hk : port ≠ k := by rintro rfl; exact h n hp
    rw [tabGet_tabSet_ne _ _ hk, ht]
  · exact ht

theorem Flash.ports_of_lane {f : Flash} {port n : Nat} (h : WornPart.lane port n ∈ f.spares) : SparePut f.ports port := by
  have put (t : Tab Port) (q : Port) : SparePut (tabSet t port (if q.spare then { spare := false } else { lanes := 3, spare := false })) port := by
    refine ⟨_, tabGet_tabSet_self .., ?_⟩
    split <;> exact ⟨rfl, rfl⟩
  obtain ⟨l, r, hs⟩ := List.append_of_mem h
  rw [Flash.ports, hs, List.foldl_append, List.foldl_cons]
  refine List.foldlRecOn (motive := fun t : Tab Port => SparePut t port) r _ (put ..) fun t ht p hp => ?_
  split
  · next k _ =>
    by_cases hk : port = k
    · subst hk
      exact put ..
    · obtain ⟨q, hq, hs⟩ := ht
      exact ⟨q, (tabGet_tabSet_ne _ _ hk).trans hq, hs⟩
  · exact ht

theorem tabGet_filter_key {α : Type} (t : Tab α) (q : Nat → Bool) (n : Nat) :
    tabGet (t.filter fun e => q e.1) n = if q n then tabGet t n else none := by
  induction t with
  | nil => simp
  | cons e t ih =>
    obtain ⟨k, v⟩ := e
    by_cases hk : n = k
    · subst hk
      cases hq : q n
      · simpa [List.filter_cons, hq] using ih
      · simp [hq, tabGet]
    · cases hq : q k
      · simpa [List.filter_cons, hq, tabGet, hk] using ih
      · simpa [hq, tabGet, hk] using ih

theorem memByte_filter_key (m : Tab Byte) (q : Nat → Bool) (p : Nat) :
    memByte (m.filter fun e => q e.1) p = if q p then memByte m p else unlisted := by
  rw [memByte, tabGetD, tabGet_filter_key]
  split <;> rfl

/-- Stores of which each at `p` is of `v` leave `v` there. -/
theorem memByte_foldl_memSet_keeps {m : Tab Byte} {p : Nat} {v : Byte} {l : List (Nat × Byte)} (hm : memByte m p = v)
    (hl : ∀ w ∈ l, w.1 = p → w = (p, v)) : memByte (l.foldl (fun m w => memSet m w.1 w.2) m) p = v := by
  refine List.foldlRecOn (motive := fun m => memByte m p = v) l _ hm fun m hm w hw => ?_
  by_cases hp : w.1 = p
  · rw [hl w hw hp, memByte_memSet_self]
  · rw [memByte_memSet_ne _ _ (Ne.symm hp), hm]

theorem memByte_foldl_memSet_mem {m : Tab Byte} {p : Nat} {v : Byte} {l : List (Nat × Byte)} (h : (p, v) ∈ l)
    (hl : ∀ w ∈ l, w.1 = p → w = (p, v)) : memByte (l.foldl (fun m w => memSet m w.1 w.2) m) p = v := by
  obtain ⟨a, b, rfl⟩ := List.append_of_mem h
  rw [List.foldl_append, List.foldl_cons]
  exact memByte_foldl_memSet_keeps (memByte_memSet_self ..) fun w hw => hl w (by simp [hw])

/-- A byte of host or peer memory of which no die's cache holds a change is as it was; device memory reads as nothing listed (R16, log 1). -/
theorem State.outside_unchanged {s : State} {p : Nat} (h : ∀ e ∈ s.leases, ∀ w ∈ e.2.wb, w.1 ≠ p) :
    memByte s.outside p = if isHost p || isPeer p then memByte s.mem p else unlisted := by
  refine List.foldlRecOn (motive := fun m => memByte m p = _) s.leases _ (memByte_filter_key _ (fun a => isHost a || isPeer a) _) fun m hm e he => ?_
  split
  · exact memByte_foldl_memSet_keeps hm fun w hw hp => absurd hp (h e he w hw)
  · exact hm

/-- A byte that a die has changed in a line of the host or a peer is as before that change (R16). -/
theorem State.outside_restored {s : State} {p : Nat} {e : Nat × Lease} {v : Byte} (he : e ∈ s.leases) (hw : (p, v) ∈ e.2.wb)
    (ho : isHost (lineBase e.1) = true ∨ isPeer (lineBase e.1) = true) (hd : ∃ h ∈ e.2.holders, h.1 < 4)
    (hv : ∀ f ∈ s.leases, ∀ w ∈ f.2.wb, w.1 = p → w = (p, v)) : memByte s.outside p = v := by
  obtain ⟨l, r, hs⟩ := List.append_of_mem he
  have hc : ((isHost (lineBase e.1) || isPeer (lineBase e.1)) && e.2.holders.any fun h => decide (h.1 < 4)) = true := by
    simpa using And.intro ho hd
  rw [State.outside, hs, List.foldl_append, List.foldl_cons, if_pos hc]
  refine List.foldlRecOn (motive := fun m => memByte m p = v) r _ (memByte_foldl_memSet_mem hw (hv e he)) fun m hm f hf => ?_
  split
  · exact memByte_foldl_memSet_keeps hm (hv f (hs ▸ by simp [hf]))
  · exact hm

/-! ### The dies at a rise of the service level -/

theorem State.mem_risingDies {s : State} {d : Nat} : d ∈ s.risingDies ↔ d = 0 ∨ (1 ≤ s.level ∧ d < 4) := by
  unfold State.risingDies
  split
  · simp [*]
  · simp only [upto, List.mem_range]
    omega

theorem State.nodup_risingDies (s : State) : s.risingDies.Nodup := by
  unfold State.risingDies
  split
  · exact List.nodup_singleton 0
  · exact List.nodup_range

theorem State.raiseDie_eq (s : State) (n d : Nat) : ∃ phase,
    s.raiseDie n d = { s with
      dies := tabSet s.dies d { tabGetD s.dies d {} with inService := true, clock := s.dieClock n d, phase := phase } } ∧
    ((tabGetD s.dies d {}).inService = true → phase = (tabGetD s.dies d {}).phase) :=
  ⟨_, rfl, fun h => if_pos h⟩

/-- Raising dies changes nothing but them, and of them only those raised. -/
theorem State.foldl_raiseDie_rest (s : State) (n : Nat) (l : List Nat) :
    ∃ ds, l.foldl (fun t d => t.raiseDie n d) s = { s with dies := ds } ∧ ∀ d ∉ l, tabGet ds d = tabGet s.dies d := by
  induction l generalizing s with
  | nil => exact ⟨_, rfl, fun _ _ => rfl⟩
  | cons k l ih =>
    obtain ⟨phase, hk, -⟩ := s.raiseDie_eq n k
    obtain ⟨ds, ht, hd⟩ := ih (s.raiseDie n k)
    rw [List.foldl_cons, ht, hk]
    refine ⟨ds, rfl, fun d hn => ?_⟩
    obtain ⟨hne, hnl⟩ := not_or.1 (mt List.mem_cons.2 hn)
    rw [hd d hnl, hk]
    exact tabGet_tabSet_ne _ _ hne

theorem State.foldl_raiseDie_mem {s : State} {n d : Nat} {l : List Nat} (hl : l.Nodup) (hd : d ∈ l) : ∃ phase,
    tabGet (l.foldl (fun t d => t.raiseDie n d) s).dies d =
      some { tabGetD s.dies d {} with inService := true, clock := s.dieClock n d, phase := phase } ∧
    ((tabGetD s.dies d {}).inService = true → phase = (tabGetD s.dies d {}).phase) := by
  obtain ⟨a, b, rfl⟩ := List.append_of_mem hd
  obtain ⟨-, hb, hab⟩ := List.nodup_append.1 hl
  obtain ⟨ds, ha, hds⟩ := s.foldl_raiseDie_rest n a
  have hold : tabGetD ds d {} = tabGetD s.dies d {} := congrArg (·.getD {}) (hds d fun h => hab d h d (by simp) rfl)
  obtain ⟨phase, hr, hp⟩ := State.raiseDie_eq { s with dies := ds } n d
  obtain ⟨es, hrest, hes⟩ := State.foldl_raiseDie_rest (State.raiseDie { s with dies := ds } n d) n b
  have hclock : State.dieClock { s with dies := ds } n d = s.dieClock n d := by simp [State.dieClock, hold]
  refine ⟨phase, ?_, hold ▸ hp⟩
  rw [List.foldl_append, List.foldl_cons, ha, hrest]
  simp only [hes d (List.nodup_cons.1 hb).1, hr, tabGet_tabSet_self, hclock, hold]

/-! ### SVCCAP and the clocks -/

/-- Whether a die's DIES bit is set (R12, R15). -/
def State.serving (s : State) (d : Nat) : Bool :=
  (tabGetD s.dies d {}).inService && (decide (s.level < 4) || !(tabGetD s.dies d {}).quiescing && !(tabGetD s.dies d {}).parked)

theorem State.dieUp_eq (s : State) (d : Nat) : s.dieUp d =
    ((tabGetD s.dies d {}).inService && !(tabGetD s.dies d {}).quiescing && !(tabGetD s.dies d {}).parked) := by
  unfold State.dieUp tabGetD
  cases tabGet s.dies d <;> rfl

theorem State.svcDies_eq (s : State) : s.svcDies = (upto 4).filter s.serving := by
  unfold State.svcDies State.diesUp
  split
  · next h => exact List.filter_congr fun d _ => by simp [State.serving, h]
  · next h => exact List.filter_congr fun d _ => by simp [State.serving, h, State.dieUp_eq, Bool.and_assoc]

theorem State.mem_svcDies_iff_serving {s : State} {d : Nat} : d ∈ s.svcDies ↔ d < 4 ∧ s.serving d = true := by
  simp [State.svcDies_eq, upto]

theorem State.mem_svcDies {s : State} {d : Nat} : d ∈ s.svcDies ↔ d < 4 ∧ (tabGetD s.dies d {}).inService = true ∧
    (4 ≤ s.level → (tabGetD s.dies d {}).parked = false ∧ (tabGetD s.dies d {}).quiescing = false) := by
  simp only [State.mem_svcDies_iff_serving, State.serving, Bool.and_eq_true, Bool.or_eq_true, decide_eq_true_eq,
    Bool.not_eq_true']
  rw [imp_iff_not_or, Nat.not_le, and_comm (a := (tabGetD s.dies d {}).quiescing = false)]

/-- The clocks of the dies whose DIES bit is set. -/
def State.svcClocks (s : State) : List Nat := s.svcDies.map fun d => (tabGetD s.dies d {}).clock

/-- The lowest of them, 0 where there is none. -/
def State.lowClock (s : State) : Nat := s.svcClocks.foldl min (s.svcClocks.headD 0)

theorem State.lowClock_none {s : State} (h : ∀ d, d ∉ s.svcDies) : s.lowClock = 0 := by
  simp [State.lowClock, State.svcClocks, List.eq_nil_iff_forall_not_mem.2 h]

theorem foldl_min_headD {l : List Nat} (h : l ≠ []) : l.foldl min (l.headD 0) ∈ l ∧ ∀ b ∈ l, l.foldl min (l.headD 0) ≤ b := by
  obtain ⟨a, l, rfl⟩ := List.exists_cons_of_ne_nil h
  refine List.min?_eq_some_iff.1 (List.min?_cons'.trans ?_)
  simp

theorem State.lowClock_le {s : State} {d : Nat} (h : d ∈ s.svcDies) :
    s.lowClock ≤ (tabGetD s.dies d {}).clock ∧ ∃ e ∈ s.svcDies, s.lowClock = (tabGetD s.dies e {}).clock := by
  have hd : (tabGetD s.dies d {}).clock ∈ s.svcClocks := List.mem_map_of_mem h
  obtain ⟨hm, hle⟩ := foldl_min_headD (List.ne_nil_of_mem hd)
  obtain ⟨e, he, hc⟩ := List.mem_map.1 hm
  exact ⟨hle _ hd, e, he, hc.symm⟩

theorem State.clocks_differ_iff {s : State} : s.svcClocks.any (· != s.lowClock) = true ↔
    ∃ d ∈ s.svcDies, ∃ e ∈ s.svcDies, (tabGetD s.dies d {}).clock ≠ (tabGetD s.dies e {}).clock := by
  simp only [State.svcClocks, List.any_map, List.any_eq_true, Function.comp_apply, bne_iff_ne]
  constructor
  · rintro ⟨d, hd, hne⟩
    obtain ⟨-, e, he, hc⟩ := State.lowClock_le hd
    exact ⟨d, hd, e, he, hc ▸ hne⟩
  · rintro ⟨d, hd, e, he, hne⟩
    by_cases hl : (tabGetD s.dies d {}).clock = s.lowClock
    · exact ⟨e, he, fun h => hne (hl.trans h.symm)⟩
    · exact ⟨d, hd, hl⟩

/-- The DIES field: bit `d` for die `d`. -/
theorem State.svcDies_mask (s : State) : s.svcDies.foldl (fun m d => m + 2 ^ d) 0 =
    (s.serving 0).toNat + 2 * (s.serving 1).toNat + 4 * (s.serving 2).toNat + 8 * (s.serving 3).toNat := by
  rw [State.svcDies_eq, show upto 4 = [0, 1, 2, 3] from rfl]
  cases h0 : s.serving 0 <;> cases h1 : s.serving 1 <;> cases h2 : s.serving 2 <;> cases h3 : s.serving 3 <;>
    simp [h0, h1, h2, h3]

theorem getLsbD_eq_decide {n : Nat} (w : BitVec n) (k : Nat) : w.getLsbD k = decide (w.toNat / 2 ^ k % 2 = 1) := by
  rw [← BitVec.testBit_toNat, Nat.testBit_eq_decide_div_mod_eq]

/-- The clocks of the dies fit in the twelve bits of their fields (R10, R11). -/
def State.ClocksFit (s : State) : Prop := ∀ d < 4, (tabGetD s.dies d {}).clock < 2 ^ 12

theorem State.lowClock_lt {s : State} (hc : s.ClocksFit) : s.lowClock < 2 ^ 12 := by
  by_cases h : ∃ d, d ∈ s.svcDies
  · obtain ⟨d, hd⟩ := h
    exact Nat.lt_of_le_of_lt (State.lowClock_le hd).1 (hc d (State.mem_svcDies.1 hd).1)
  · rw [State.lowClock_none fun d hd => h ⟨d, hd⟩]
    decide

/-- SVCCAP as the sum of its fields (Table 0.2): LEVEL, the bits of DIES, the classes of level 3, the lowest clock, and two bits more. -/
theorem State.svccap_toNat {s : State} (hl : s.level ≤ 4) (hc : s.ClocksFit) : s.svccap.toNat =
    s.level + 16 * (s.serving 0).toNat + 32 * (s.serving 1).toNat + 64 * (s.serving 2).toNat + 128 * (s.serving 3).toNat +
      3584 * (decide (3 ≤ s.level)).toNat + 65536 * s.lowClock + 1073741824 * (s.svcClocks.any (· != s.lowClock)).toNat +
      2147483648 * s.err.toNat := by
  have hlow := State.lowClock_lt hc
  have hbit (b : Bool) (n : Nat) : (if b = true then n else 0) = n * b.toNat := by cases b <;> simp
  have hclass : (if 3 ≤ s.level then 7 * 2 ^ 9 else 0) = 3584 * (decide (3 ≤ s.level)).toNat := by
    rw [← hbit]
    simp
  have hsum : s.svccap = w32 (s.level + (s.svcDies.foldl (fun m d => m + 2 ^ d) 0) * 2 ^ 4 + (if 3 ≤ s.level then 7 * 2 ^ 9 else 0) +
      s.lowClock * 2 ^ 16 + (if s.svcClocks.any (· != s.lowClock) = true then 2 ^ 30 else 0) + if s.err = true then 2 ^ 31 else 0) := rfl
  have h0 := (s.serving 0).toNat_le
  have h1 := (s.serving 1).toNat_le
  have h2 := (s.serving 2).toNat_le
  have h3 := (s.serving 3).toNat_le
  have h4 := (decide (3 ≤ s.level)).toNat_le
  have h5 := (s.svcClocks.any (· != s.lowClock)).toNat_le
  have h6 := s.err.toNat_le
  rw [hsum, State.svcDies_mask, hclass, hbit, hbit, w32, BitVec.toNat_ofNat, Nat.mod_eq_of_lt (by omega)]
  omega

/-- A number that is written out around a field has that field. -/
theorem div_mod_of_parts {x n m : Nat} (lo b hi : Nat) (hx : x = lo + n * (b + m * hi)) (hlo : lo < n) (hb : b < m) : x / n % m = b := by
  rw [hx, Nat.add_mul_div_left _ _ (by omega), Nat.div_eq_of_lt hlo, Nat.zero_add, Nat.add_mul_mod_self_left, Nat.mod_eq_of_lt hb]

/-- The fields of SVCCAP by their bits (R10, R12, R15, Table 0.2). -/
structure SvccapFields (s : State) : Prop where
  level : s.svccap.toNat % 2 ^ 4 = s.level
  dies : ∀ d < 4, s.svccap.getLsbD (4 + d) = s.serving d
  classes : ∀ k ∈ [9, 10, 11], s.svccap.getLsbD k = decide (3 ≤ s.level)
  zero : ∀ k ∈ [8, 12, 13, 14, 15, 28, 29], s.svccap.getLsbD k = false
  mhz : s.svccap.toNat / 2 ^ 16 % 2 ^ 12 = s.lowClock
  mixed : s.svccap.getLsbD 30 = s.svcClocks.any (· != s.lowClock)
  err : s.svccap.getLsbD 31 = s.err

theorem State.svccap_fields {s : State} (hl : s.level ≤ 4) (hc : s.ClocksFit) : SvccapFields s := by
  have hw := State.svccap_toNat hl hc
  have hlow := State.lowClock_lt hc
  have h0 := (s.serving 0).toNat_le
  have h1 := (s.serving 1).toNat_le
  have h2 := (s.serving 2).toNat_le
  have h3 := (s.serving 3).toNat_le
  have h4 := (decide (3 ≤ s.level)).toNat_le
  have h5 := (s.svcClocks.any (· != s.lowClock)).toNat_le
  set k := (decide (3 ≤ s.level)).toNat with hk
  set x := (s.svcClocks.any (· != s.lowClock)).toNat with hx
  set e := s.err.toNat with he
  obtain ⟨d, hd⟩ : ∃ d, d = s.level + 16 * (s.serving 0).toNat + 32 * (s.serving 1).toNat + 64 * (s.serving 2).toNat +
    128 * (s.serving 3).toNat := ⟨_, rfl⟩
  rw [← hd] at hw
  have bit {n : Nat} {b : Bool} (lo hi : Nat) (hsum : s.svccap.toNat = lo + 2 ^ n * (b.toNat + 2 * hi)) (hlo : lo < 2 ^ n) :
      s.svccap.getLsbD n = b := by
    rw [getLsbD_eq_decide, div_mod_of_parts lo b.toNat hi hsum hlo b.toNat_lt]
    cases b <;> rfl
  constructor
  case level => omega
  case dies =>
    intro j hj
    match j with
    | 0 =>
      exact bit s.level
        ((s.serving 1).toNat + 2 * (s.serving 2).toNat + 4 * (s.serving 3).toNat + 112 * k + 2048 * s.lowClock + 33554432 * x + 67108864 * e)
        (by omega) (by omega)
    | 1 =>
      exact bit (s.level + 16 * (s.serving 0).toNat)
        ((s.serving 2).toNat + 2 * (s.serving 3).toNat + 56 * k + 1024 * s.lowClock + 16777216 * x + 33554432 * e) (by omega) (by omega)
    | 2 =>
      exact bit (s.level + 16 * (s.serving 0).toNat + 32 * (s.serving 1).toNat)
        ((s.serving 3).toNat + 28 * k + 512 * s.lowClock + 8388608 * x + 16777216 * e) (by omega) (by omega)
    | 3 =>
      exact bit (s.level + 16 * (s.serving 0).toNat + 32 * (s.serving 1).toNat + 64 * (s.serving 2).toNat)
        (14 * k + 256 * s.lowClock + 4194304 * x + 8388608 * e) (by omega) (by omega)
  case classes =>
    intro j hj
    simp only [List.mem_cons, List.not_mem_nil, or_false] at hj
    rcases hj with rfl | rfl | rfl
    · exact bit d (3 * k + 64 * s.lowClock + 1048576 * x + 2097152 * e) (by omega) (by omega)
    · exact bit (d + 512 * k) (k + 32 * s.lowClock + 524288 * x + 1048576 * e) (by omega) (by omega)
    · exact bit (d + 1536 * k) (16 * s.lowClock + 262144 * x + 524288 * e) (by omega) (by omega)
  case zero =>
    intro j hj
    simp only [List.mem_cons, List.not_mem_nil, or_false] at hj
    have hz : false.toNat = 0 := rfl
    rcases hj with rfl | rfl | rfl | rfl | rfl | rfl | rfl
    · exact bit d (7 * k + 128 * s.lowClock + 2097152 * x + 4194304 * e) (by omega) (by omega)
    · exact bit (d + 3584 * k) (8 * s.lowClock + 131072 * x + 262144 * e) (by omega) (by omega)
    · exact bit (d + 3584 * k) (4 * s.lowClock + 65536 * x + 131072 * e) (by omega) (by omega)
    · exact bit (d + 3584 * k) (2 * s.lowClock + 32768 * x + 65536 * e) (by omega) (by omega)
    · exact bit (d + 3584 * k) (s.lowClock + 16384 * x + 32768 * e) (by omega) (by omega)
    · exact bit (d + 3584 * k + 65536 * s.lowClock) (2 * x + 4 * e) (by omega) (by omega)
    · exact bit (d + 3584 * k + 65536 * s.lowClock) (x + 2 * e) (by omega) (by omega)
  case mhz => exact div_mod_of_parts (d + 3584 * k) s.lowClock (4 * x + 8 * e) (by omega) (by omega) hlow
  case mixed => exact bit (d + 3584 * k + 65536 * s.lowClock) e (by omega) (by omega)
  case err => exact bit (d + 3584 * k + 65536 * s.lowClock + 1073741824 * x) 0 (by omega) (by omega)

/-- A die's clock as SVCCLK01 or SVCCLK23 shows it. -/
def State.shownClock (s : State) (d : Nat) : Nat := if s.svcDies.contains d then (tabGetD s.dies d {}).clock else 0

theorem State.shownClock_lt {s : State} (hc : s.ClocksFit) (d : Nat) : s.shownClock d < 2 ^ 12 := by
  unfold State.shownClock
  split
  · next h => exact hc d (State.mem_svcDies.1 (List.contains_iff_mem.1 h)).1
  · decide

theorem State.shownClock_testBit {s : State} (hc : s.ClocksFit) (d k : Nat) : (s.shownClock d).testBit k = true ↔
    d ∈ s.svcDies ∧ k < 12 ∧ (tabGetD s.dies d {}).clock.testBit k = true := by
  have hk : (s.shownClock d).testBit k = true → k < 12 := fun h => by
    by_contra hk
    have := Nat.testBit_lt_two_pow (Nat.lt_of_lt_of_le (s.shownClock_lt hc d) (Nat.pow_le_pow_right (by decide) (Nat.not_lt.1 hk)))
    simp [this] at h
  by_cases hd : d ∈ s.svcDies
  · have he : s.shownClock d = (tabGetD s.dies d {}).clock := by simp [State.shownClock, hd]
    rw [he] at hk ⊢
    exact ⟨fun h => ⟨hd, hk h, h⟩, fun h => h.2.2⟩
  · simp [State.shownClock, hd]

/-- SVCCLK01 and SVCCLK23: each die's clock in its half (R11, Table 0.3). -/
theorem State.svcclk_getLsbD {s : State} (hc : s.ClocksFit) (d : Nat) {k : Nat} (hk : k < 32) : (s.svcclk d).getLsbD k = true ↔
    ∃ e ∈ [0, 1], d + e ∈ s.svcDies ∧ 16 * e ≤ k ∧ k < 16 * e + 12 ∧ (tabGetD s.dies (d + e) {}).clock.testBit (k - 16 * e) = true := by
  have h0 : s.shownClock d < 2 ^ 16 := Nat.lt_trans (s.shownClock_lt hc d) (by decide)
  have hw : s.svcclk d = w32 (2 ^ 16 * s.shownClock (d + 1) + s.shownClock d) :=
    congrArg w32 ((Nat.add_comm _ _).trans (congrArg (· + s.shownClock d) (Nat.mul_comm _ _)))
  have hb : (s.svcclk d).getLsbD k = if k < 16 then (s.shownClock d).testBit k else (s.shownClock (d + 1)).testBit (k - 16) := by
    rw [hw, w32, BitVec.getLsbD_ofNat, decide_eq_true hk, Bool.true_and, Nat.testBit_two_pow_mul_add _ h0]
  rw [hb]
  split
  · next h =>
    rw [State.shownClock_testBit hc]
    simp only [List.mem_cons, List.not_mem_nil, or_false, exists_eq_or_imp, exists_eq_left]
    simp
    omega
  · next h =>
    rw [State.shownClock_testBit hc]
    simp only [List.mem_cons, List.not_mem_nil, or_false, exists_eq_or_imp, exists_eq_left]
    have : ¬ k < 12 := by omega
    have h16 : 16 ≤ k := by omega
    have h28 : k - 16 < 12 ↔ k < 28 := by omega
    simp [this, h16, h28]

theorem State.dvsec_head (s : State) : (s.dvsec 0).toNat % 2 ^ 20 = 0x10023 := by
  have hd : s.dvsec 0 = w32 (0x00010023 + Config.nextCapability.toNat * 2 ^ 20) := rfl
  rw [hd, w32, BitVec.toNat_ofNat]
  omega

/-! ### The statement -/

theorem exec_linkFunctionReset (s : State) (link : Bool) : ∃ t, exec (.linkFunctionReset link) s = .next t ∧
      t.noMail = State.noMail { s with msixTable0 := t.msixTable0, msixTable1 := t.msixTable1 } ∧
      t.msixTable0 = (if link then s.msixTable0 else List.replicate 16 0) ∧ t.msixTable1 = (if link then List.replicate 16 0 else s.msixTable1) ∧
      t.mbox link = {} ∧ t.mbox (!link) = s.mbox (!link) ∧
      t.msix0 = (if link then s.msix0 else 0) ∧ t.msix1 = (if link then 0 else s.msix1) ∧
      t.svc = s.svc.map fun r => if r.link = link ∧ r.gone = none then { r with gone := some (s.mbox link) } else r := by
  have hsvc : (s.svc.map fun (r : SvcReq) => if r.link = link && r.gone.isNone then { r with gone := some (s.mbox link) } else r) =
      s.svc.map fun r => if r.link = link ∧ r.gone = none then { r with gone := some (s.mbox link) } else r := by
    simp
  cases link <;> exact ⟨_, rfl, rfl, rfl, rfl, rfl, rfl, rfl, rfl, hsvc⟩

theorem State.dieClock_succ (s : State) (level d : Nat) : State.dieClock { s with level := level } (s.level + 1) d =
    if s.level ≤ 1 then 1000 else if s.level = 2 then s.flash.p1
      else if (tabGetD s.dies d {}).recorded = some 1 then s.flash.p1 else 2500 := by
  have h1 : s.level + 1 ≤ 2 ↔ s.level ≤ 1 := by omega
  have h2 : s.level + 1 = 3 ↔ s.level = 2 := by omega
  simp only [State.dieClock, h1, h2]
  congr 2
  split
  · next h => simp [h]
  · next h => rw [if_neg h]

theorem exec_serviceLevelRise_dies {s : State} (he : s.err = false) (hl : s.level < 4) :
    ∃ t, exec (.serviceLevelRise true) s = .next t ∧ t = { s with level := s.level + 1, dies := t.dies } ∧
        ∀ d, let rises := d = 0 ∨ (1 ≤ s.level ∧ d < 4)
          (¬ rises → tabGet t.dies d = tabGet s.dies d) ∧
          (rises → ∃ x phase, tabGet t.dies d = some x ∧ x = { tabGetD s.dies d {} with
            inService := true, phase := phase
            clock := if s.level ≤ 1 then 1000 else if s.level = 2 then s.flash.p1
              else if (tabGetD s.dies d {}).recorded = some 1 then s.flash.p1 else 2500 } ∧
            ((tabGetD s.dies d {}).inService = true → phase = (tabGetD s.dies d {}).phase)) := by
  rw [exec_serviceLevelRise_pass he hl]
  obtain ⟨ds, ht, hd⟩ := State.foldl_raiseDie_rest { s with level := s.level + 1 } (s.level + 1) s.risingDies
  refine ⟨_, rfl, by rw [ht], fun d => ⟨fun hn => ?_, fun hr => ?_⟩⟩
  · rw [ht]
    exact hd d (mt State.mem_risingDies.1 hn)
  · obtain ⟨phase, hg, hp⟩ := State.foldl_raiseDie_mem (s := { s with level := s.level + 1 }) (n := s.level + 1)
      s.nodup_risingDies (State.mem_risingDies.2 hr)
    exact ⟨_, phase, hg, by rw [State.dieClock_succ], hp⟩

/-- Settles O48: a device reset by its ports and its memory, a rise by the dies it raises, and the registers by their fields. -/
theorem resetsAndBringUp : Obligations.ResetsAndBringUp := by
  intro s link ofs data
  refine ⟨fun i hi => ⟨_, exec_reset (by simpa using hi) s, rfl, fun k => Flash.ports_of_no_lane, fun k n => Flash.ports_of_lane, fun p hp => ?_,
    fun p e v he hw ho hd hv => State.outside_restored he hw ho hd hv⟩, exec_linkFunctionReset s link,
    fun he hl => ⟨exec_serviceLevelRise_fail he hl, exec_serviceLevelRise_dies he hl⟩, rfl, ?_⟩
  · exact (State.outside_unchanged hp).trans (by simp)
  · intro x up w mhz hl hc
    have hup {d : Nat} : up d ↔ d ∈ s.svcDies := State.mem_svcDies.symm
    obtain ⟨hlevel, hdies, hclasses, hzero, hmhz, hmixed, herr⟩ := State.svccap_fields hl hc
    have hmixed' : w.getLsbD 30 = true ↔ ∃ d e, up d ∧ up e ∧ (x d).clock ≠ (x e).clock := by
      rw [hmixed, State.clocks_differ_iff]
      exact ⟨fun ⟨d, hd, e, he, hne⟩ => ⟨d, e, hup.2 hd, hup.2 he, hne⟩,
        fun ⟨d, e, hd, he, hne⟩ => ⟨d, hup.1 hd, e, hup.1 he, hne⟩⟩
    refine ⟨hlevel, fun d hd => ?_, hclasses, hzero, herr, hmixed', fun hn => ?_, fun d hd => ?_, fun d _ k hk => ?_, s.dvsec_head,
      rfl, rfl, rfl, rfl, rfl, rfl, rfl, by decide, Config.revision, rfl⟩
    · rw [hdies d hd, hup, State.mem_svcDies_iff_serving]
      exact (and_iff_right hd).symm
    · exact hmhz.trans (State.lowClock_none fun d hd => hn d (hup.2 hd))
    · obtain ⟨hle, e, he, hc⟩ := State.lowClock_le (hup.1 hd)
      exact ⟨hmhz.trans_le hle, e, hup.2 he, hmhz.trans hc⟩
    · rw [State.svcclk_getLsbD hc d hk]
      simp only [hup]
      rfl

end Sys2Proof.Machine

/-!
PROOFS. Traps: what one changes; what TRAP, BKPT, a word that encodes nothing and LD do; the LD that traps in one lane while another lane parks
behind its own captured load.
-/

namespace Sys2Proof.Machine

/-! ### What a trap changes -/

/-- Outside a shadow run a trap suspends the group and changes nothing else (R202, R224). -/
theorem State.trap_suspended {s : State} {c : Cx} (h : s.inFocus = some c) (hs : (s.team c.x.team).shadow = none) (fs : List LaneFault) :
    ∃ t, s.trap c fs = .next t ∧ Suspended s c t fs := by
  refine ⟨_, by rw [State.trap, hs]; rfl, rfl, fun g hg => ?_, ?_⟩
  · rw [State.modGroup_groups, tabGet_tabMod_ne _ _ hg]
  · rw [State.modGroup_groups, tabGet_tabMod_self, State.inFocus_group h]
    rfl

/-- The threads of a suspended group are as they were. -/
theorem Suspended.lane {s t : State} {c : Cx} {fs : List LaneFault} (h : Suspended s c t fs) (l : Nat) : (t.group c.g).lane l = c.x.lane l := by
  rw [State.group, tabGetD, h.group]
  rfl

theorem State.trapAll_suspended {s : State} {c : Cx} (h : s.inFocus = some c) (hs : (s.team c.x.team).shadow = none) (k : Cause) (a : Nat) :
    ∃ t, s.trapAll c k a = .next t ∧ Suspended s c t (c.ls.map fun l => (l, k, a)) :=
  s.trap_suspended h hs _

theorem State.checked_some {s : State} {c : Cx} {f : Nat → Option (Cause × Nat)} {k : Out State} (h : ∃ l ∈ c.ls, f l ≠ none) :
    s.checked c f k = s.trap c (faultsOf c.ls f) := by
  obtain ⟨l, hl, hf⟩ := h
  refine if_neg fun he => hf ?_
  simpa using List.filterMap_eq_nil_iff.1 he l hl

theorem faultsOf_congr {ls : List Nat} {f g : Nat → Option (Cause × Nat)} (h : ∀ l ∈ ls, f l = g l) : faultsOf ls f = faultsOf ls g :=
  List.filterMap_congr fun l hl => by rw [h l hl]

theorem State.checked_congr {s : State} {c : Cx} {f g : Nat → Option (Cause × Nat)} {k : Out State} (h : ∀ l ∈ c.ls, f l = g l) :
    s.checked c f k = s.checked c g k := by
  rw [State.checked, State.checked, faultsOf_congr h]

theorem faultsOf_some (ls : List Nat) (p : Cause × Nat) : faultsOf ls (fun _ => some p) = ls.map fun l => (l, p) :=
  congrFun (List.filterMap_eq_map' (f := fun l => (l, p))) ls

/-! ### Lanes that go on -/

/-- A state in which only the lane table of the group of `c` has changed, as `f` says for the lanes of `c`. -/
theorem LanesOnly.of_table {s t : State} {c : Cx} {f : Nat → Lane → Lane} {lanes : Tab Lane} (h : s.Acts c)
    (hr : t = { s with groups := t.groups }) (ho : ∀ g, g ≠ c.g → tabGet t.groups g = tabGet s.groups g)
    (hg : tabGet t.groups c.g = some { c.x with lanes := lanes }) (hi : ∀ l, l ∉ c.ls → tabGet lanes l = tabGet c.x.lanes l)
    (ha : ∀ l ∈ c.ls, tabGet lanes l = (tabGet c.x.lanes l).map (f l)) : LanesOnly s c t f := by
  have hx : t.group c.g = { c.x with lanes := lanes } := by rw [State.group, tabGetD, hg, Option.getD_some]
  refine ⟨hr, ho, by rw [hg, hx], fun _ => by rw [hx], fun l hl => by rw [hx, hi l hl], fun l hl => ?_⟩
  obtain ⟨y, hy⟩ := Option.isSome_iff_exists.1 (h.slots l hl)
  rw [hx, Group.lane, Group.lane, tabGetD, tabGetD, ha l hl, hy]
  rfl

theorem Lane.past_eq_passed (y : Lane) (i : Instr) (clock : Nat) :
    y.past i clock = ({ y with irrev := irreversible i || y.irrev } : Lane).passed (sizeOf' i) clock := by
  unfold Lane.past Lane.passed Lane.advance Lane.goto Lane.bodyEnd
  simp only
  split <;> rfl

/-- A thread whose region has performed an irreversible operation (R101). -/
def Lane.marked (y : Lane) : Lane := { y with irrev := true }

/-- An issue set that is done with `i` stands past it, and nothing else has changed. -/
theorem State.done_lanesOnly {s : State} {c : Cx} (h : s.Acts c) (i : Instr) : LanesOnly s c (s.done c i) fun _ y => y.past i s.clock := by
  simp only [Lane.past_eq_passed]
  cases hi : irreversible i with
  | false =>
    simp only [State.done, hi, Bool.false_eq_true, if_false]
    refine .of_table (lanes := passLanes c.ls (sizeOf' i) s.clock c.x.lanes) h rfl (fun g hg => tabGet_tabMod_ne _ _ hg) ?_
      (fun l hl => passLanes_other _ _ _ _ _ hl) fun l hl => passLanes_self _ _ _ _ _ hl h.distinct
    exact (tabGet_tabMod_self ..).trans (by rw [State.inFocus_group h.focus]; rfl)
  | true =>
    simp only [State.done, hi, if_true]
    refine .of_table (lanes := passLanes c.ls (sizeOf' i) s.clock (c.ls.foldl (fun t l => tabMod t l Lane.marked) c.x.lanes)) h rfl
      (fun g hg => (tabGet_tabMod_ne _ _ hg).trans (tabGet_tabMod_ne _ _ hg)) ?_
      (fun l hl => (passLanes_other _ _ _ _ _ hl).trans (foldl_tabMod_other _ (fun _ => Lane.marked) _ _ hl)) fun l hl => ?_
    · refine (tabGet_tabMod_self ..).trans ?_
      simp only [State.irrev, State.irrevIn, State.modLanes, State.modGroup_groups, tabGet_tabMod_self, State.inFocus_group h.focus]
      rfl
    · rw [passLanes_self _ _ _ _ _ hl h.distinct, foldl_tabMod_self _ (fun _ => Lane.marked) _ _ hl h.distinct, Option.map_map]
      rfl

/-! ### TRAP, BKPT and a word that encodes nothing -/

theorem State.trapWord_suspended {s : State} {c : Cx} (h : s.Acts c) (hs : (s.team c.x.team).shadow = none)
    (hp : ∀ l ∈ c.ls, (c.x.lane l).pass = false) (i : Instr) (k : Cause) (a : Nat) :
    ∃ t, s.trapWord c i k a = .next t ∧ Suspended s c t (c.ls.map fun l => (l, k, a)) := by
  have hf : ∀ l ∈ c.ls, must (c.x.lane l).pass k a = some (k, a) := fun l hl => by rw [hp l hl]; rfl
  obtain ⟨l, hl⟩ := List.exists_mem_of_ne_nil _ (State.inFocus_ne h.focus)
  rw [State.trapWord, State.checked_some ⟨l, hl, by simp [hf l hl]⟩, faultsOf_congr hf, faultsOf_some]
  exact s.trap_suspended h.focus hs _

theorem State.trapWord_passes {s : State} {c : Cx} (h : s.Acts c) (hp : ∀ l ∈ c.ls, (c.x.lane l).pass = true) (i : Instr) (k : Cause) (a : Nat) :
    ∃ t, s.trapWord c i k a = .next t ∧ LanesOnly s c t fun _ y => y.past i s.clock :=
  ⟨_, State.checked_none fun l hl => by rw [hp l hl]; rfl, State.done_lanesOnly h i⟩

theorem exec_trap_suspended {s : State} {c : Cx} {code : BitVec 18} (h : s.Ready (.trap code) c) (hp : ∀ l ∈ c.ls, (c.x.lane l).pass = false) :
    ∃ t, exec (.trap code) s = .next t ∧ Suspended s c t (c.ls.map fun l => (l, .software, code.toNat)) := by
  rw [exec, execTrap, issue_ready rfl h]
  exact State.trapWord_suspended h.toActs (h.primary rfl) hp _ _ _

theorem exec_trap_passes {s : State} {c : Cx} {code : BitVec 18} (h : s.Ready (.trap code) c) (hp : ∀ l ∈ c.ls, (c.x.lane l).pass = true) :
    ∃ t, exec (.trap code) s = .next t ∧ LanesOnly s c t fun _ y => y.past (.trap code) s.clock := by
  rw [exec, execTrap, issue_ready rfl h]
  exact State.trapWord_passes h.toActs hp _ _ _

theorem exec_bkpt_suspended {s : State} {c : Cx} {tag : BitVec 7} (h : s.Ready (.bkpt tag) c) (hs : (s.team c.x.team).shadow = none)
    (hp : ∀ l ∈ c.ls, (c.x.lane l).pass = false) :
    ∃ t, exec (.bkpt tag) s = .next t ∧ Suspended s c t (c.ls.map fun l => (l, .breakpoint, tag.toNat)) := by
  rw [exec, execBkpt, issue_ready rfl h]
  exact State.trapWord_suspended h.toActs hs hp _ _ _

theorem exec_bkpt_passes {s : State} {c : Cx} {tag : BitVec 7} (h : s.Ready (.bkpt tag) c) (hp : ∀ l ∈ c.ls, (c.x.lane l).pass = true) :
    ∃ t, exec (.bkpt tag) s = .next t ∧ LanesOnly s c t fun _ y => y.past (.bkpt tag) s.clock := by
  rw [exec, execBkpt, issue_ready rfl h]
  exact State.trapWord_passes h.toActs hp _ _ _

theorem exec_illegalWord_suspended {s : State} {c : Cx} {w : Word} (h : s.Ready (.illegalWord w) c) (hs : (s.team c.x.team).shadow = none) :
    ∃ t, exec (.illegalWord w) s = .next t ∧ Suspended s c t (c.ls.map fun l => (l, .illegal, 0)) := by
  rw [exec, execIllegalWord, issue_ready rfl h]
  exact State.trapAll_suspended h.focus hs _ _

/-! ### LD where a lane fails -/

theorem State.waitsFor_of_chain_nil {s : State} {g l : Nat} (h : s.chain g l = []) (loc : Loc) (n : Nat) : s.waitsFor g l loc n = [] := by
  simp [State.waitsFor, State.behind, h]

/-- An access that is not captured needs no room (R114). -/
theorem firstOf_budgetCheck {s : State} {c : Cx} {l : Nat} {captures : Bool} (h : captures = false) (f : Option (Cause × Nat)) :
    Machine.firstOf [f, s.budgetCheck c l captures] = f := by
  subst h
  cases f <;> rfl

/-- Nothing is owed to a destination of an instruction that nothing keeps back (R107). -/
theorem State.Ready.dstOwed {s : State} {i : Instr} {c : Cx} (h : s.Ready i c) (hi : Instr.alu i = none) :
    ∀ l ∈ c.ls, State.dstOwed i c l = false := by
  refine fun l hl => List.any_eq_false.2 fun o ho => ?_
  rcases h.operands l hl o (by rw [regsOf_of_issue hi]; exact List.mem_append_right _ ho) with hp | ⟨-, -, hn⟩
  · rw [hp]; exact Bool.false_ne_true
  · exact absurd (List.mem_append_right _ ho) hn

/-- Loads that no entry of the chain and no captured load keeps back trap in the lanes that have no place. -/
theorem State.loads_trap {s : State} {c : Cx} {i : Instr} {z : Size} {d : VField} {va : Nat → Nat} {loc : Nat → Except (Cause × Nat) Loc}
    (hc : ∀ l ∈ c.ls, s.chain c.g l = []) (hd : ∀ l ∈ c.ls, State.dstOwed i c l = false)
    (hm : ∀ l ∈ c.ls, ∀ p, loc l = .ok p → s.loadMeets c.g l p z.bytes = false) (hf : ∃ l ∈ c.ls, failOf (loc l) ≠ none) :
    s.loads c i z d va loc = s.trap c (faultsOf c.ls fun l => failOf (loc l)) := by
  unfold State.loads
  refine (State.parking_none fun l hl => ?_).trans
    ((State.checked_congr fun l hl => firstOf_budgetCheck ?_ _).trans (State.checked_some hf))
  · rw [hd l hl]
    cases hp : loc l with
    | ok p => simp [hp, hm l hl p hp]
    | error e => simp [hp]
  · cases hp : loc l with
    | ok p => simp [hp, State.waitsFor_of_chain_nil (hc l hl)]
    | error e => simp [hp]

/-- LD traps in the lanes that have no place, where no captured load of a lane that has one reads the bytes there. -/
theorem exec_ld_suspended {s : State} {c : Cx} {acq : Bool} {z : Size} {d a : VField} {b : BOp} (h : s.Ready (.ld acq z d a b) c)
    (hs : (s.team c.x.team).shadow = none) (hc : ∀ l ∈ c.ls, s.chain c.g l = []) :
    let place (l : Nat) : Except (Cause × Nat) Loc := s.place c.who .load (s.vaddr c l a b) z.bytes
    (∀ l ∈ c.ls, ∀ p, place l = .ok p → s.loadMeets c.g l p z.bytes = false) → (∃ l ∈ c.ls, failOf (place l) ≠ none) →
      ∃ t, exec (.ld acq z d a b) s = .next t ∧ Suspended s c t (faultsOf c.ls fun l => failOf (place l)) := by
  intro place hm hf
  rw [exec, execLd, issue_ready rfl h, State.loads_trap hc (h.dstOwed rfl) hm hf]
  exact s.trap_suspended h.focus hs _

/-! ### The captured load that the statement leaves out -/

/-- Two lanes at one word, v10:v11 the address of LD: aligned in lane 0, odd in lane 3. The store that an earlier load of lane 0, of the word
at 0x2000 into v21, was captured behind has been made, and that load has not issued yet (R109). -/
def loadHeld : State :=
  let y (a : Word) : Lane := { pc := 0x1044, hdr := 0x1040, hword := 0x000FF200, inBody := true, rgnHdr := 0x1040, regs := [(10, a), (11, 0)] }
  { level := 4
    groups := [(0, { uid := 2, grid := 5, team := 6, lanes := [(0, { y 0x2000 with pend := [(21, 9)] }), (3, y 0x2001)], running := 9 })]
    grids := [(5, { ctx := 1, id := 1, queue := 0, pkt := { resid := 8 } })]
    teams := [(6, { grid := 5, tid := 0, cores := [0] })]
    ctxs := [(1, { root := 0 })]
    cores := [(0, { tlb := [⟨1, false, 0, 0x40000000, 0, true, true, true, true, false⟩] })]
    resid := [(8, { g := 0, lane := 0, lanes := [0], ins := .ld false .b32 21 10 (.lit 0), kind := .load [7] (.phys 0x2000) 4 0x2000
                    dsts := [(.v 21, 9)] })]
    nextId := 10
    clock := 100
    focus := some ⟨0, [0, 3]⟩ }

/-- Its issue set. -/
def loadHeldSet : Cx := ⟨0, loadHeld.group 0, loadHeld.grid 5, [0, 3]⟩

theorem loadHeld_ready : loadHeld.Ready (.ld false .b32 20 10 (.lit 0)) loadHeldSet where
  focus := by decide
  slots := by decide
  distinct := by decide
  operands := by decide
  role := by decide
  named := by decide
  primary := by decide
  flags := by decide
  acquired := by decide
  fresh := by decide
  drained := by decide
  ordered := by decide

/-- Lane 0 does not load: behind its captured load of the same bytes it parks, while lane 3 traps (R109, R190). -/
theorem loadHeld_parks : ∃ t, exec (.ld false .b32 20 10 (.lit 0)) loadHeld = .next t ∧ ((t.group loadHeldSet.g).lane 0).park = .retry :=
  ⟨_, rfl, by decide⟩

/-- Refutes O44: of an LD that is misaligned in lane 3, lane 0 parks behind its own captured load of the same bytes, so that the group is not as
it was but for its trap. The last clause lacks the premise of `exec_ld_suspended` on captured loads; the others hold (`exec_trap_suspended`,
`exec_trap_passes`, `exec_bkpt_suspended`, `exec_bkpt_passes`, `exec_illegalWord_suspended`). -/
theorem not_trapsTaken : ¬ Obligations.TrapsTaken := by
  unfold Obligations.TrapsTaken
  intro h
  obtain ⟨-, -, -, -, -, hld⟩ := h loadHeld loadHeldSet 0 0 0
  have hlanes : ∀ l ∈ loadHeldSet.ls, l = 0 ∨ l = 3 := by decide
  obtain ⟨t, ht, hs⟩ := hld false .b32 20 10 (.lit 0) (fun l => if l = 3 then some .misaligned else none) (by decide) loadHeld_ready (by decide)
    (by decide) fun l hl => by
      rcases hlanes l hl with rfl | rfl
      · exact ⟨by decide, fun hn => absurd (by decide) hn, fun _ => ⟨0x2000, rfl⟩⟩
      · exact ⟨by decide, fun _ => rfl, fun hz => absurd hz (by decide)⟩
  obtain ⟨u, hu, hp⟩ := loadHeld_parks
  obtain rfl : t = u := Host.Outcome.next.inj (ht.symm.trans hu)
  rw [hs.lane] at hp
  exact absurd hp (by decide)

end Sys2Proof.Machine

/-!
SUPPORT. The lanes of an issue set as `LanesOnly` speaks of them, the running set, and what a count of PERFCNT changes.
-/

namespace Sys2Proof.Machine

/-! ### Lanes and the running set -/

/-- A state in which only the lane table and the running set of the group of `c` have changed, the one as `f` says for the lanes of `c`, the other
under DET alone (R50). -/
theorem LanesOnly.of_tables {s t : State} {c : Cx} {f : Nat → Lane → Lane} {lanes : Tab Lane} {running : BitVec 32} (h : s.Acts c)
    (hr : t = { s with groups := t.groups }) (ho : ∀ g, g ≠ c.g → tabGet t.groups g = tabGet s.groups g)
    (hg : tabGet t.groups c.g = some { c.x with lanes := lanes, running := running })
    (hrun : c.gr.pkt.det = false → running = c.x.running) (hi : ∀ l, l ∉ c.ls → tabGet lanes l = tabGet c.x.lanes l)
    (ha : ∀ l ∈ c.ls, tabGet lanes l = (tabGet c.x.lanes l).map (f l)) : LanesOnly s c t f := by
  have hx : t.group c.g = { c.x with lanes := lanes, running := running } := by rw [State.group, tabGetD, hg, Option.getD_some]
  refine ⟨hr, ho, by rw [hg, hx], fun hd => by rw [hx]; exact hrun hd, fun l hl => by rw [hx, hi l hl], fun l hl => ?_⟩
  obtain ⟨y, hy⟩ := Option.isSome_iff_exists.1 (h.slots l hl)
  rw [hx, Group.lane, Group.lane, tabGetD, tabGetD, ha l hl, hy]
  rfl

theorem State.modGroup_get {s : State} {g : Nat} {x : Group} (h : tabGet s.groups g = some x) (f : Group → Group) :
    tabGet (s.modGroup g f).groups g = some (f x) := by
  rw [State.modGroup_groups, tabGet_tabMod_self, h]
  rfl

theorem State.group_of_get {s : State} {g : Nat} {x : Group} (h : tabGet s.groups g = some x) : s.group g = x := by
  rw [State.group, tabGetD, h, Option.getD_some]

theorem LanesOnly.get {s t : State} {c : Cx} {f : Nat → Lane → Lane} (h : LanesOnly s c t f) :
    tabGet t.groups c.g = some (t.group c.g) := by
  rw [State.group_of_get h.group]
  exact h.group

/-- A set of lanes changed, each by its own function. -/
theorem State.modLanes_lanesOnly {s : State} {c : Cx} (h : s.Acts c) (f : Nat → Lane → Lane) : LanesOnly s c (s.modLanes c.g c.ls f) f :=
  .of_tables h rfl (fun _ hg => tabGet_tabMod_ne _ _ hg) (State.modGroup_get (State.inFocus_group h.focus) _) (fun _ => rfl)
    (fun _ hl => foldl_tabMod_other _ f _ _ hl) fun _ hl => foldl_tabMod_self _ f _ _ hl h.distinct

/-- The lanes read as another function says that agrees with the first on the lanes of the set. -/
theorem LanesOnly.congr {s t : State} {c : Cx} {f g : Nat → Lane → Lane} (h : LanesOnly s c t f)
    (he : ∀ l ∈ c.ls, f l (c.x.lane l) = g l (c.x.lane l)) : LanesOnly s c t g :=
  { h with active := fun l hl => (h.active l hl).trans (he l hl) }

/-- Under DET another set of the group may run: of what the lanes hold that changes nothing (R50). -/
theorem LanesOnly.rerun {s u : State} {c : Cx} {f : Nat → Lane → Lane} (h : LanesOnly s c u f) (hd : c.gr.pkt.det = true)
    (r : Group → BitVec 32) : LanesOnly s c (u.modGroup c.g fun x => { x with running := r x }) f := by
  have hg : tabGet (u.modGroup c.g fun x => { x with running := r x }).groups c.g = some { u.group c.g with running := r (u.group c.g) } := by
    rw [State.modGroup_groups, tabGet_tabMod_self, h.group, State.group, tabGetD, h.group]
    rfl
  have hx : (u.modGroup c.g fun x => { x with running := r x }).group c.g = { u.group c.g with running := r (u.group c.g) } := by
    rw [State.group, tabGetD, hg, Option.getD_some]
  have hu : u.group c.g = { c.x with lanes := (u.group c.g).lanes, running := (u.group c.g).running } :=
    Option.some.inj ((show tabGet u.groups c.g = some (u.group c.g) by rw [State.group, tabGetD, h.group]; rfl).symm.trans h.group)
  refine ⟨?_, fun g hne => ?_, ?_, fun hn => absurd (hn.symm.trans hd) (by decide), fun l hl => ?_, fun l hl => ?_⟩
  · rw [h.rest]; rfl
  · exact (tabGet_tabMod_ne _ _ hne).trans (h.others g hne)
  · rw [hg, hx, hu]
  · rw [hx]; exact h.idle l hl
  · rw [hx]; exact h.active l hl

theorem LanesOnly.detSplit {s u : State} {c : Cx} {f : Nat → Lane → Lane} (h : LanesOnly s c u f) : LanesOnly s c (u.detSplit c) f := by
  rw [State.detSplit]
  split
  · next hd => exact h.rerun hd _
  · exact h

/-! ### Counts -/

/-- Counting changes the counts of one core (Table 22.9). -/
theorem State.count_rest (s : State) (core ctx kind n : Nat) : s.count core ctx kind n = { s with cores := (s.count core ctx kind n).cores } := by
  simp only [State.count]
  split <;> rfl

theorem State.core_tabSet (s : State) (k : Nat) (x : Core) (j : Nat) :
    ({ s with cores := tabSet s.cores k x } : State).core j = if j = k then x else s.core j := by
  unfold State.core tabGetD
  split
  · next e => rw [e, tabGet_tabSet_self]; rfl
  · next e => rw [tabGet_tabSet_ne _ _ e]

theorem State.count_onlyCounts (s : State) (core ctx kind n : Nat) : OnlyCounts s (s.count core ctx kind n) := by
  intro k
  simp only [State.count]
  split
  · exact ⟨_, rfl⟩
  · rw [State.core_tabSet]
    split
    · next e => exact ⟨_, by rw [e]⟩
    · exact ⟨_, rfl⟩

@[simp] theorem State.count_groups (s : State) (core ctx kind n : Nat) : (s.count core ctx kind n).groups = s.groups := by
  rw [State.count_rest]

@[simp] theorem State.count_teams (s : State) (core ctx kind n : Nat) : (s.count core ctx kind n).teams = s.teams := by
  rw [State.count_rest]

@[simp] theorem State.count_ops (s : State) (core ctx kind n : Nat) : (s.count core ctx kind n).ops = s.ops := by
  rw [State.count_rest]

@[simp] theorem State.count_resid (s : State) (core ctx kind n : Nat) : (s.count core ctx kind n).resid = s.resid := by
  rw [State.count_rest]

@[simp] theorem State.count_nextId (s : State) (core ctx kind n : Nat) : (s.count core ctx kind n).nextId = s.nextId := by
  rw [State.count_rest]

@[simp] theorem State.count_clock (s : State) (core ctx kind n : Nat) : (s.count core ctx kind n).clock = s.clock := by
  rw [State.count_rest]

end Sys2Proof.Machine

/-!
PROOFS. Instructions of the execution model that issue or do not, and go on: the roles that may issue an instruction, ENVRD, branches and calls.
-/

namespace Sys2Proof.Machine

/-! ### Roles -/

/-- What a group of some role may not issue, it issues as `issue` does, which looks at the role (R41). -/
theorem exec_eq_issue_of_not_roleOk {i : Instr} {r : Nat} (h : roleOk i r = false) (s : State) : ∃ k, exec i s = issue i s k := by
  cases i
  all_goals first
    | exact ⟨_, rfl⟩
    | cases h

/-- ROLE in every lane of a set whose group's role may not issue the word. -/
theorem issue_suspended_of_not_roleOk {i : Instr} {s : State} {c : Cx} (h : s.Acts c) (hi : illegalAt i c.ls.length = false)
    (hs : (s.team c.x.team).shadow = none) (hr : roleOk i c.x.role = false) (k : Cx → State → Out State) :
    ∃ t, issue i s k = .next t ∧ Suspended s c t (c.ls.map fun l => (l, .role, 0)) := by
  simp only [issue, h.focus, hi, hr, Bool.not_false, if_true, Bool.false_eq_true, if_false]
  exact State.trapAll_suspended h.focus hs _ _

/-- Settles O46: the table by its cases, and `issue`, which every instruction listed for a role runs through. -/
theorem roleTable : Obligations.RoleTable := by
  unfold Obligations.RoleTable
  intro i s c listed
  have hl : ∀ r, roleOk i r = true ↔ listed r := fun r => by
    cases i
    all_goals first
      | exact iff_of_true rfl trivial
      | exact beq_iff_eq
  refine ⟨hl, fun h _ hi hs hr => ?_⟩
  have hn : roleOk i c.x.role = false := Bool.eq_false_iff.2 fun ho => hr ((hl _).1 ho)
  obtain ⟨k, hk⟩ := exec_eq_issue_of_not_roleOk hn s
  rw [hk]
  exact issue_suspended_of_not_roleOk h hi hs hn k

/-! ### ENVRD -/

/-- ENVRD completes, and the word of its index stands in its destination in every active lane (R354). -/
theorem exec_envrd_gives (d : VField) (x : BitVec 18) :
    Gives (.envrd d x) fun s c t l => t.vreg c l d = w32 (s.envrdWord c l x.toNat) := by
  intro s c _ h
  rw [exec, execEnvrd, issue_ready rfl h]
  obtain ⟨t, ht, hw, hp⟩ := finish_completes rfl h (.v d.toNat) (fun l => w32 (s.envrdWord c l x.toNat)) rfl
  exact ⟨t, ht, hw, fun l hl => hp.vreg hl d _ (tabGet_tabSet_self ..)⟩

/-- Settles O15: each index reads its row of Table 20.3. -/
theorem environmentReads : Obligations.EnvironmentReads := by
  unfold Obligations.EnvironmentReads
  intro d x s c hwf h
  obtain ⟨t, ht, hw, hv⟩ := exec_envrd_gives d x s c hwf h
  refine ⟨t, ht, hw, fun l hl => ?_⟩
  have hr : (t.vreg c l d).toNat = s.envrdWord c l x.toNat % 2 ^ 32 := by rw [hv l hl]; rfl
  simp only [hr]
  refine ⟨?_, ?_, ?_, ?_, ?_, ?_, ?_, ?_, ?_, ?_, ?_, ?_, ?_, ?_, ?_, ?_, ?_, ?_⟩
  · intro hn
    have hnone : (c.x.bin.isSome || (if (s.team c.x.team).handler.isSome then s.team (s.team c.x.team).faulty else s.team c.x.team).dynamic) =
        true := by
      rcases hn with hb | ⟨hh, hdyn⟩
      · simp [Option.isSome_iff_ne_none.2 hb]
      · simp [Option.isSome_iff_ne_none.2 hh, hdyn]
    rintro (rfl | rfl | rfl) <;> simp only [State.envrdWord] <;> rw [hnone] <;> rfl
  · rintro rfl; rfl
  · rintro rfl; rfl
  · rintro rfl; rfl
  · rintro rfl; simp [State.envrdWord, bits]
  · rintro rfl; simp [State.envrdWord, bits]; omega
  · rintro rfl; cases hdet : c.gr.pkt.det <;> simp [State.envrdWord, bits, hdet]
  · rintro rfl; cases hdet : c.gr.pkt.det <;> simp [State.envrdWord, bits, hdet]
  · rintro rfl; rfl
  · rintro rfl; cases hdet : c.gr.pkt.det <;> cases hsh : (s.team c.x.team).shadow <;> simp [State.envrdWord, hdet, hsh]
  · rintro ⟨hb, hh, hdyn, hk⟩ rfl; simp [State.envrdWord, hb]
  · rintro ⟨hb, hh, hdyn, hk⟩ rfl; simp [State.envrdWord, hb, hh, hdyn, hk, teamCoord]
  · rintro ⟨hb, hh, hdyn, hk⟩ rfl; simp [State.envrdWord, hb, hh, hdyn, hk, teamCoord]
  · rintro ⟨hb, hh, hdyn, hk⟩ rfl; simp [State.envrdWord, hb, hh, hdyn, hk, teamCoord]
  · rintro ⟨hb, hh, hdyn, hk⟩ rfl; simp [State.envrdWord, hb, hh, hk]
  · rintro ⟨hb, hh, hdyn, hk⟩ rfl; simp [State.envrdWord, hk]
  · rintro ⟨hb, hh, hdyn, hk⟩ rfl; simp [State.envrdWord, hk]
  · rintro ⟨hb, hh, hdyn, hk⟩ rfl; simp [State.envrdWord, hk]

/-! ### Link registers -/

theorem sputs_of_no_uniform (t : Tab Word) (rs : List PReg) (ws : List Word) (h : ∀ n, PReg.s n ∉ rs) : sputs t rs ws = t := by
  induction rs generalizing t ws with
  | nil => rfl
  | cons r rs ih =>
    cases ws with
    | nil => rfl
    | cons w ws =>
      rw [sputs, ih _ _ fun n hn => h n (List.mem_cons_of_mem _ hn)]
      cases r with
      | s n => exact absurd List.mem_cons_self (h n)
      | v n => rfl
      | p n => rfl

/-- Where no lane writes a uniform register, writes change the lane table alone. -/
theorem foldWrites_lanes (ls : List Nat) (rs : Nat → List PReg) (ws : Nat → List Word) (x : Group) (h : ∀ l n, PReg.s n ∉ rs l) :
    foldWrites ls rs ws x = { x with lanes := (foldWrites ls rs ws x).lanes } := by
  have hs : (foldWrites ls rs ws x).sregs = x.sregs := by
    induction ls generalizing x with
    | nil => rfl
    | cons l ls ih => exact (ih _).trans ((writeAll_sregs ..).trans (sputs_of_no_uniform _ _ _ (h l)))
  exact (foldWrites_rest ls rs ws x).trans (by rw [hs])

theorem foldWrites_none (ls : List Nat) (ws : Nat → List Word) (x : Group) : foldWrites ls (fun _ => []) ws x = x := by
  induction ls with
  | nil => rfl
  | cons l ls ih => exact ih

theorem foldWrites_congr {ls : List Nat} {rs rs' : Nat → List PReg} (ws : Nat → List Word) (x : Group) (h : ∀ l ∈ ls, rs l = rs' l) :
    foldWrites ls rs ws x = foldWrites ls rs' ws x :=
  List.foldl_ext _ _ _ fun y l hl => by rw [h l hl]

/-- The vector registers that a run of words from a field on goes to in a lane. -/
def Group.runRegs (x : Group) (d : VField) (n l : Nat) : List PReg := (upto n).map fun k => .v ((x.lane l).arch (d.toNat + k))

/-- Each lane of a set finds its registers as they were before the lanes below it wrote theirs. -/
theorem foldl_writeV {ls : List Nat} (hd : ls.Nodup) (d : VField) (ws : List Word) (x : Group) :
    ls.foldl (fun x l => x.writeV l d ws) x = foldWrites ls (x.runRegs d ws.length) (fun _ => ws) x := by
  induction ls generalizing x with
  | nil => rfl
  | cons l ls ih =>
    rw [List.nodup_cons] at hd
    rw [List.foldl_cons, ih hd.2]
    refine foldWrites_congr _ _ fun k hk => ?_
    have hk : k ≠ l := fun e => hd.1 (e ▸ hk)
    simp only [Group.runRegs, Group.lane, tabGetD, Group.writeV, writeAll_other _ _ _ hk]

/-! ### Branches -/

/-- A lane that a branch has sent to a target, or on past its word of one. -/
def Lane.sent (y : Lane) (clock : Nat) : Option DWord → Lane
  | some a => { y.goto a with stamp := clock }
  | none => { y.advance 1 with stamp := clock }

theorem State.branch_eq (s : State) (c : Cx) (dest : Nat → Option DWord) (pre : Nat → Group → Group) :
    s.branch c dest pre = s.checked c (fun l => (dest l).bind fun a => s.badTarget c.who a.toNat)
      (.next (((s.modGroup c.g fun x => c.ls.foldl (fun x l => pre l x) x).modLanes c.g c.ls fun l y =>
        y.sent s.clock (dest l)).detSplit c)) := by
  have hsent : (fun (l : Nat) (y : Lane) => y.sent s.clock (dest l)) = fun (l : Nat) (y : Lane) =>
      match dest l with
      | some a => { y.goto a with stamp := s.clock }
      | none => { y.advance 1 with stamp := s.clock } := by
    funext l y
    cases dest l <;> rfl
  rw [hsent]
  rfl

/-- A branch whose targets are all accepted: each lane takes its writes and then goes to its target, or past the word. -/
theorem State.branch_lanesOnly {s : State} {c : Cx} (h : s.Acts c) {dest : Nat → Option DWord} {pre : Nat → Group → Group}
    {rs : Nat → List PReg} {ws : Nat → List Word} (hpre : c.ls.foldl (fun x l => pre l x) c.x = foldWrites c.ls rs ws c.x)
    (hs : ∀ l n, PReg.s n ∉ rs l) (hok : ∀ l ∈ c.ls, ∀ a, dest l = some a → s.badTarget c.who a.toNat = none) :
    ∃ t, s.branch c dest pre = .next t ∧ LanesOnly s c t fun l y => (y.takes (rs l) (ws l)).sent s.clock (dest l) := by
  have hc : ∀ l ∈ c.ls, (dest l).bind (fun a => s.badTarget c.who a.toNat) = none := fun l hl => by
    cases hd : dest l with
    | none => rfl
    | some a => exact hok l hl a hd
  refine ⟨_, (State.branch_eq ..).trans (State.checked_none hc), .detSplit ?_⟩
  have hw : tabGet (s.modGroup c.g fun x => c.ls.foldl (fun x l => pre l x) x).groups c.g =
      some { c.x with lanes := (foldWrites c.ls rs ws c.x).lanes } := by
    rw [State.modGroup_get (State.inFocus_group h.focus), hpre, foldWrites_lanes _ _ _ _ hs]
  refine .of_table h rfl (fun g hg => (tabGet_tabMod_ne _ _ hg).trans (tabGet_tabMod_ne _ _ hg)) (State.modGroup_get hw _)
    (fun l hl => ?_) fun l hl => ?_
  · rw [foldl_tabMod_other _ (fun l y => Lane.sent y s.clock (dest l)) _ _ hl, foldWrites_other _ _ _ _ _ hl]
  · rw [foldl_tabMod_self _ (fun l y => Lane.sent y s.clock (dest l)) _ _ hl h.distinct, foldWrites_self _ _ _ _ _ hl h.distinct,
      Option.map_map]
    rfl

/-- A branch that writes no register. -/
theorem State.branch_lanesOnly_of_no_write {s : State} {c : Cx} (h : s.Acts c) {dest : Nat → Option DWord}
    (hok : ∀ l ∈ c.ls, ∀ a, dest l = some a → s.badTarget c.who a.toNat = none) :
    ∃ t, s.branch c dest (fun _ x => x) = .next t ∧ LanesOnly s c t fun l y => y.sent s.clock (dest l) :=
  State.branch_lanesOnly (rs := fun _ => []) (ws := fun _ => []) h (by rw [foldWrites_none]; exact List.foldl_fixed _)
    (fun _ _ => List.not_mem_nil) hok

/-- A branch that some lanes take. -/
theorem State.branchIf_lanesOnly {s : State} {c : Cx} (h : s.Acts c) {a : DWord} (hok : s.badTarget c.who a.toNat = none)
    {takes takes' : Nat → Bool} (he : ∀ l, takes' l = takes l) :
    ∃ t, s.branch c (fun l => if takes' l then some a else none) (fun _ x => x) = .next t ∧ LanesOnly s c t fun l y =>
      if takes l then { y.goto a with stamp := s.clock } else { y.advance 1 with stamp := s.clock } := by
  obtain ⟨t, ht, hl⟩ := State.branch_lanesOnly_of_no_write (dest := fun l => if takes' l then some a else none) h fun l _ b hb => by
    obtain ⟨-, hb⟩ := Option.ite_none_right_eq_some.1 hb
    exact Option.some.inj hb ▸ hok
  refine ⟨t, ht, hl.congr fun l _ => ?_⟩
  rw [he]
  cases takes l <;> rfl

/-- A lane with the address after its word in two registers. -/
theorem Lane.takes_link (y : Lane) (pc : DWord) (r : Nat) :
    y.takes [.v r, .v (r + 1)] (linkWords pc) =
      { y with regs := tabSet (tabSet y.regs r ((pc + 4).setWidth 32)) (r + 1) (((pc + 4) >>> 32).setWidth 32) } := by
  have h0 : w32 (pc + 4).toNat = (pc + 4).setWidth 32 := by rw [w32]; exact BitVec.eq_of_toNat_eq (by simp)
  have h1 : w32 ((pc + 4).toNat / 2 ^ 32) = ((pc + 4) >>> 32).setWidth 32 :=
    BitVec.eq_of_toNat_eq (by simp [w32, BitVec.toNat_setWidth, Nat.shiftRight_eq_div_pow])
  rw [linkWords, pairWords, h0, h1]
  rfl

/-- The registers of a pair are neighbours (R89, Table 5.7a). -/
theorem Lane.arch_succ_of_pairOk (y : Lane) {d : VField} (h : pairOk d = true) : y.arch (d.toNat + 1) = y.arch d.toNat + 1 := by
  have he : d.toNat % 2 = 0 := beq_iff_eq.1 h
  unfold Lane.arch
  split <;> split <;> omega

theorem Cx.pairTarget_eq {s : State} {c : Cx} (h : s.Acts c) (a : VField) (l : Nat) : c.pairTarget s a l = s.vpair c l a := by
  rw [Cx.pairTarget, State.vpair, h.group]

/-- What BRA takes of a predicate. -/
theorem State.readPred_ne_zero {s : State} {c : Cx} (h : s.Acts c) (p : PField) (l : Nat) :
    (s.readOpd c.x l (.p p.toNat) != 0) = s.preg c l p := by
  rw [State.preg, h.group]
  simp only [State.readOpd, Opd.reg, State.readReg]
  cases (c.x.lane l).preds.getLsbD p.toNat <;> rfl

/-- Settles O17: each instruction is `State.branch`, with the targets and the link registers that its rule names. -/
theorem branchesAndCalls : Obligations.BranchesAndCalls := by
  unfold Obligations.BranchesAndCalls
  intro s c clock far ok go past link
  refine ⟨fun b ofs h hok => ?_, fun ofs h hok => ?_, fun ofs h hok => ?_, fun a h hok => ?_, fun a h hok => ?_, fun d a hwf h hok => ?_,
    fun ifP p ofs h hok => ?_⟩
  · rw [exec, execBra, issue_ready rfl h]
    refine State.branchIf_lanesOnly h.toActs hok fun l => ?_
    cases b with
    | always => rfl
    | ifTrue p => exact State.readPred_ne_zero h.toActs p l
    | ifFalse p => exact (Bool.not_not _).symm.trans (congrArg not (State.readPred_ne_zero h.toActs p l))
  · rw [exec, execJmp, issue_ready rfl h]
    exact State.branch_lanesOnly_of_no_write h.toActs fun l _ a ha => by cases ha; exact hok
  · rw [exec, execCall, issue_ready rfl h]
    obtain ⟨t, ht, hl⟩ := State.branch_lanesOnly (dest := fun _ => some (relTarget c.y0.pc ofs)) (rs := fun _ => [.v 1054, .v 1055])
      (ws := fun _ => linkWords c.y0.pc) h.toActs rfl (by simp) (fun l _ a ha => by cases ha; exact hok)
    exact ⟨t, ht, hl.congr fun l _ => by rw [Lane.takes_link]; rfl⟩
  · rw [exec, execJmpi, issue_ready rfl h]
    obtain ⟨t, ht, hl⟩ := State.branch_lanesOnly_of_no_write h.toActs (dest := fun l => some (c.pairTarget s a l))
      fun l hl b hb => by cases hb; rw [Cx.pairTarget_eq h.toActs]; exact hok l hl
    exact ⟨t, ht, hl.congr fun l _ => by rw [Cx.pairTarget_eq h.toActs]; rfl⟩
  · rw [exec, execRet, issue_ready rfl h]
    obtain ⟨t, ht, hl⟩ := State.branch_lanesOnly_of_no_write h.toActs (dest := fun l => some (c.pairTarget s a l))
      fun l hl b hb => by cases hb; rw [Cx.pairTarget_eq h.toActs]; exact hok l hl
    exact ⟨t, ht, hl.congr fun l _ => by rw [Cx.pairTarget_eq h.toActs]; rfl⟩
  · rw [exec, execCalli, issue_ready rfl h]
    have hd : pairOk d = true := (Bool.and_eq_true_iff.1 hwf).1
    have hr : ∀ l, c.x.runRegs d (linkWords c.y0.pc).length l = [.v ((c.x.lane l).arch d.toNat), .v ((c.x.lane l).arch d.toNat + 1)] :=
      fun l => by rw [← Lane.arch_succ_of_pairOk _ hd]; rfl
    obtain ⟨t, ht, hl⟩ := State.branch_lanesOnly (dest := fun l => some (c.pairTarget s a l))
      (ws := fun _ => linkWords c.y0.pc) h.toActs (foldl_writeV h.distinct d _ c.x) (by simp [hr])
      fun l hl b hb => by cases hb; rw [Cx.pairTarget_eq h.toActs]; exact hok l hl
    exact ⟨t, ht, hl.congr fun l _ => by rw [Cx.pairTarget_eq h.toActs, hr, Lane.takes_link]; rfl⟩
  · rw [exec, execBrp, issue_ready rfl h]
    exact State.branchIf_lanesOnly h.toActs hok fun _ => rfl

end Sys2Proof.Machine

/-!
PROOFS. Pending registers: what a capture leaves in the state, and the two things that become of a set whose operands are pending.
-/

namespace Sys2Proof.Machine

/-! ### Pending marks -/

/-- A register is owed a write under a tag that is no older than `b`. -/
def Group.OwedFrom (x : Group) (b l : Nat) (r : PReg) : Prop := ∃ n, b ≤ n ∧ x.pending l r = some n

/-- A group whose lanes have other pending marks, and nothing else. -/
structure MarkedOnly (x y : Group) : Prop where
  rest : y = { x with lanes := y.lanes, spend := y.spend }
  lanes : ∀ l, ∃ p q, tabGet y.lanes l = (tabGet x.lanes l).map fun z => { z with pend := p, ppend := q }

theorem MarkedOnly.refl (x : Group) : MarkedOnly x x := by
  refine ⟨rfl, fun l => ?_⟩
  cases h : tabGet x.lanes l with
  | none => exact ⟨[], [], rfl⟩
  | some z => exact ⟨z.pend, z.ppend, rfl⟩

theorem MarkedOnly.trans {x y z : Group} (h : MarkedOnly x y) (k : MarkedOnly y z) : MarkedOnly x z := by
  refine ⟨by rw [k.rest, h.rest], fun l => ?_⟩
  obtain ⟨p, q, hp⟩ := h.lanes l
  obtain ⟨p', q', hq⟩ := k.lanes l
  exact ⟨p', q', by rw [hq, hp, Option.map_map]; rfl⟩

theorem MarkedOnly.isSome {x y : Group} (h : MarkedOnly x y) (l : Nat) : (tabGet y.lanes l).isSome = (tabGet x.lanes l).isSome := by
  obtain ⟨p, q, hp⟩ := h.lanes l
  rw [hp, Option.isSome_map]

/-- A thread keeps all but its pending marks. -/
theorem MarkedOnly.lane {x y : Group} (h : MarkedOnly x y) (l : Nat) :
    y.lane l = { x.lane l with pend := (y.lane l).pend, ppend := (y.lane l).ppend } := by
  obtain ⟨p, q, hp⟩ := h.lanes l
  simp only [Group.lane, tabGetD, hp]
  cases tabGet x.lanes l <;> rfl

theorem Group.markPending_markedOnly (x : Group) (l : Nat) (r : PReg) (t : Nat) : MarkedOnly x (x.markPending l r t) := by
  have hlane (f : Lane → Lane) (hf : ∀ z : Lane, f z = { z with pend := (f z).pend, ppend := (f z).ppend }) (k : Nat) :
      ∃ p q, tabGet (tabMod x.lanes l f) k = (tabGet x.lanes k).map fun z => { z with pend := p, ppend := q } := by
    by_cases e : k = l
    · subst e
      rw [tabGet_tabMod_self]
      cases tabGet x.lanes k with
      | none => exact ⟨[], [], rfl⟩
      | some z => exact ⟨_, _, congrArg some (hf z)⟩
    · rw [tabGet_tabMod_ne _ _ e]
      exact (MarkedOnly.refl x).lanes k
  cases r with
  | v n => exact ⟨rfl, hlane _ fun _ => rfl⟩
  | p n => exact ⟨rfl, hlane _ fun _ => rfl⟩
  | s n => exact ⟨rfl, (MarkedOnly.refl x).lanes⟩

theorem Group.markPending_self {x : Group} {l : Nat} (h : (tabGet x.lanes l).isSome = true) (r : PReg) (t : Nat) :
    (x.markPending l r t).pending l r = some t := by
  obtain ⟨y, hy⟩ := Option.isSome_iff_exists.1 h
  cases r <;> simp [Group.markPending, Group.pending, Group.lane, tabGetD, hy]

/-- A mark takes no register's tag away but to give it the new one. -/
theorem Group.markPending_pending (x : Group) (l : Nat) (r : PReg) (t k : Nat) (d : PReg) :
    (x.markPending l r t).pending k d = x.pending k d ∨ (x.markPending l r t).pending k d = some t := by
  have hset (m : Tab Nat) (n j : Nat) : tabGet (tabSet m n t) j = tabGet m j ∨ tabGet (tabSet m n t) j = some t := by
    by_cases e : j = n
    · exact .inr (e ▸ tabGet_tabSet_self ..)
    · exact .inl (tabGet_tabSet_ne _ _ e)
  cases r with
  | s n =>
    cases d with
    | s m => exact hset _ _ _
    | v m | p m => exact .inl rfl
  | v n | p n =>
    by_cases e : k = l
    · subst e
      cases hy : tabGet x.lanes k with
      | none => cases d <;> simp [Group.markPending, Group.pending, Group.lane, tabGetD, hy]
      | some y => cases d <;> simp [Group.markPending, Group.pending, Group.lane, tabGetD, hy, hset]
    · cases d <;> simp [Group.markPending, Group.pending, Group.lane, tabGetD, tabGet_tabMod_ne _ _ e]

theorem Group.OwedFrom.markPending {x : Group} {b k : Nat} {d : PReg} (h : x.OwedFrom b k d) (l : Nat) (r : PReg) {t : Nat} (ht : b ≤ t) :
    (x.markPending l r t).OwedFrom b k d := by
  obtain ⟨n, hn, hp⟩ := h
  rcases x.markPending_pending l r t k d with e | e
  · exact ⟨n, hn, e.trans hp⟩
  · exact ⟨t, ht, e⟩

theorem tagAll_markedOnly (x : Group) (l : Nat) (rs : List PReg) (t : Nat) : MarkedOnly x (tagAll x l rs t) := by
  induction rs generalizing x t with
  | nil => exact .refl x
  | cons r rs ih => exact (x.markPending_markedOnly l r t).trans (ih _ _)

theorem Group.OwedFrom.tagAll {x : Group} {b k : Nat} {d : PReg} (h : x.OwedFrom b k d) (l : Nat) (rs : List PReg) {t : Nat} (ht : b ≤ t) :
    (Machine.tagAll x l rs t).OwedFrom b k d := by
  induction rs generalizing x t with
  | nil => exact h
  | cons r rs ih => exact ih (h.markPending l r ht) (by omega)

/-- Every destination is owed a write once all are tagged. -/
theorem tagAll_owedFrom {x : Group} {l : Nat} (h : (tabGet x.lanes l).isSome = true) {rs : List PReg} {b t : Nat} (ht : b ≤ t) :
    ∀ d ∈ rs, (tagAll x l rs t).OwedFrom b l d := by
  induction rs generalizing x t with
  | nil => simp
  | cons r rs ih =>
    intro d hd
    rcases List.mem_cons.1 hd with rfl | hd
    · exact Group.OwedFrom.tagAll ⟨t, ht, Group.markPending_self h d t⟩ l rs (by omega)
    · exact ih (by rw [(x.markPending_markedOnly l r t).isSome]; exact h) (by omega) d hd

/-! ### Captures -/

@[simp] theorem State.supersede_groups (s : State) (g : Nat) (ls : List Nat) (i : Instr) (dsts : List PReg) :
    (s.supersede g ls i dsts).groups = s.groups := by
  simp only [State.supersede]
  split <;> rfl

@[simp] theorem State.supersede_nextId (s : State) (g : Nat) (ls : List Nat) (i : Instr) (dsts : List PReg) :
    (s.supersede g ls i dsts).nextId = s.nextId := by
  simp only [State.supersede]
  split <;> rfl

/-- Of an access outstanding a younger write changes which registers it writes no more (R106). -/
theorem State.supersede_ops (s : State) (g : Nat) (ls : List Nat) (i : Instr) (dsts : List PReg) (id : Nat) :
    ∃ st, tabGet (s.supersede g ls i dsts).ops id = (tabGet s.ops id).map fun o => { o with stale := o.stale ++ st } := by
  have hsame : ∃ st, tabGet s.ops id = (tabGet s.ops id).map fun o => { o with stale := o.stale ++ st } := ⟨[], by simp⟩
  simp only [State.supersede]
  split
  · exact hsame
  · simp only [tabGet_tabMap]
    cases tabGet s.ops id with
    | none => exact ⟨[], rfl⟩
    | some o =>
      simp only [Option.map_some]
      split
      · exact ⟨_, rfl⟩
      · exact ⟨[], by simp⟩

/-- Of an entry likewise. -/
theorem State.supersede_resid (s : State) (g : Nat) (ls : List Nat) (i : Instr) (dsts : List PReg) (id : Nat) :
    ∃ st, tabGet (s.supersede g ls i dsts).resid id = (tabGet s.resid id).map fun r => { r with stale := r.stale ++ st } := by
  simp only [State.supersede]
  split
  · exact ⟨[], by simp⟩
  · simp only [tabGet_tabMap]
    cases tabGet s.resid id with
    | none => exact ⟨[], rfl⟩
    | some o =>
      simp only [Option.map_some]
      split
      · exact ⟨_, rfl⟩
      · exact ⟨[], by simp⟩

theorem State.capture_resid (s : State) (g l : Nat) (r : Resid) (dsts : List PReg) :
    (s.capture g l r dsts).resid = tabSet (s.supersede g (l :: r.lanes) r.ins dsts).resid s.nextId
      { r with g := g, lane := l, dsts := dsts.zip ((upto dsts.length).map (s.nextId + 1 + ·)) } := by
  simp only [State.capture, State.modGroup_resid, State.supersede_nextId]

/-- What the captures of `ls` have left, of an instruction that computes from registers (R105): closures with the values and tags of their sources,
destinations owed a write, and all else of the group as it was. -/
structure CapturedIn (i : Instr) (u : Alu) (s : State) (c : Cx) (ls : List Nat) (t : State) : Prop where
  ids : s.nextId ≤ t.nextId
  mem : t.mem = s.mem
  ops : ∀ id, ∃ st, tabGet t.ops id = (tabGet s.ops id).map fun o => { o with stale := o.stale ++ st }
  resid : ∀ l ∈ ls, ∃ id r, s.nextId ≤ id ∧ id < t.nextId ∧ tabGet t.resid id = some r ∧ r.g = c.g ∧ r.lane = l ∧ r.ins = i ∧ r.kind = .alu ∧
    r.srcs = u.srcs.map (s.captureOpd c.x l) ∧ r.dsts.map (·.1) = u.regs c l
  group : ∃ x, tabGet t.groups c.g = some x ∧ MarkedOnly c.x x ∧ ∀ l ∈ ls, ∀ d ∈ u.regs c l, x.OwedFrom s.nextId l d

theorem CapturedIn.start {i : Instr} {s : State} {c : Cx} (h : s.Acts c) (u : Alu) : CapturedIn i u s c [] (s.modGroup c.g fun x => x) :=
  ⟨le_rfl, rfl, fun _ => ⟨[], by simp⟩, by simp, c.x, State.modGroup_get (State.inFocus_group h.focus) _, .refl _, by simp⟩

/-- The entry that a capture makes of a lane. -/
def aluEntry (i : Instr) (u : Alu) (s : State) (c : Cx) (l : Nat) : Resid :=
  { g := c.g, lane := l, ins := i, kind := .alu, srcs := u.srcs.map (s.captureOpd c.x l), hdr := (c.x.lane l).hdr }

theorem CapturedIn.capture {i : Instr} {u : Alu} {s t : State} {c : Cx} {ls : List Nat} (h : CapturedIn i u s c ls t) {l : Nat}
    (hl : (tabGet c.x.lanes l).isSome = true) :
    CapturedIn i u s c (l :: ls) (t.capture c.g l (aluEntry i u s c l) (u.regs c l)) := by
  obtain ⟨x, hx, hm, ho⟩ := h.group
  have hgrp : tabGet (t.capture c.g l (aluEntry i u s c l) (u.regs c l)).groups c.g = some (tagAll x l (u.regs c l) (t.nextId + 1)) := by
    simp only [State.capture, State.supersede_nextId]
    exact State.modGroup_get (by simpa using hx) _
  have hids := h.ids
  have hnext : (t.capture c.g l (aluEntry i u s c l) (u.regs c l)).nextId = t.nextId + 1 + (u.regs c l).length := by
    simp [State.capture]
  refine ⟨by omega, (State.kept_mem (State.capture_kept ..)).trans h.mem, fun id => ?_, fun k hk => ?_, _, hgrp, ?_, ?_⟩
  · obtain ⟨st, hst⟩ := h.ops id
    obtain ⟨st', hst'⟩ := t.supersede_ops c.g (l :: (aluEntry i u s c l).lanes) i (u.regs c l) id
    refine ⟨st ++ st', hst'.trans ?_⟩
    rw [hst, Option.map_map]
    simp [Function.comp_def]
  · rcases List.mem_cons.1 hk with rfl | hk
    · refine ⟨t.nextId, _, h.ids, by omega, by rw [State.capture_resid]; exact tabGet_tabSet_self .., rfl, rfl, rfl, rfl, rfl, ?_⟩
      exact List.map_fst_zip (by simp [upto])
    · obtain ⟨id, r, hid, hlt, hr, h1, h2, h3, h4, h5, h6⟩ := h.resid k hk
      obtain ⟨st, hst⟩ := t.supersede_resid c.g (l :: (aluEntry i u s c l).lanes) i (u.regs c l) id
      refine ⟨id, { r with stale := r.stale ++ st }, hid, by omega, ?_, h1, h2, h3, h4, h5, h6⟩
      rw [State.capture_resid, tabGet_tabSet_ne _ _ (by omega)]
      exact hst.trans (by rw [hr]; rfl)
  · exact hm.trans (tagAll_markedOnly ..)
  · intro k hk d hd
    rcases List.mem_cons.1 hk with rfl | hk
    · exact tagAll_owedFrom (by rw [hm.isSome]; exact hl) (by omega) d hd
    · exact (ho k hk d hd).tagAll _ _ (by omega)

theorem captureAlu_capturedIn {i : Instr} {u : Alu} {s t : State} {c : Cx} {ls done : List Nat} (h : CapturedIn i u s c done t)
    (hl : ∀ l ∈ ls, (tabGet c.x.lanes l).isSome = true) :
    CapturedIn i u s c (ls.reverse ++ done) (ls.foldl (fun t l => t.capture c.g l (aluEntry i u s c l) (u.regs c l)) t) := by
  induction ls generalizing t done with
  | nil => exact h
  | cons l ls ih =>
    rw [List.reverse_cons, List.append_assoc]
    exact ih (h.capture (hl l List.mem_cons_self)) fun k hk => hl k (List.mem_cons_of_mem _ hk)

theorem captureAlu_capturedIn_all {s : State} {c : Cx} (h : s.Acts c) (i : Instr) (u : Alu) :
    CapturedIn i u s c c.ls ((s.modGroup c.g fun x => x).captureAlu i c u c.ls) := by
  obtain ⟨hids, hmem, hops, hres, hgrp⟩ := captureAlu_capturedIn (CapturedIn.start (i := i) h u) (ls := c.ls) h.slots
  simp only [List.append_nil, List.mem_reverse] at hres hgrp
  exact ⟨hids, hmem, hops, hres, hgrp⟩

/-! ### The set goes on, or parks -/

theorem Lane.advance_with_marks (y : Lane) (n : Nat) (p q : Tab Nat) :
    ({ y with pend := p, ppend := q } : Lane).advance n = { y.advance n with pend := p, ppend := q } := by
  unfold Lane.advance Lane.goto Lane.bodyEnd
  simp only
  split <;> rfl

theorem Lane.advance_pend (y : Lane) (n : Nat) : (y.advance n).pend = y.pend := by
  unfold Lane.advance Lane.goto; simp only; split <;> rfl

theorem Lane.advance_ppend (y : Lane) (n : Nat) : (y.advance n).ppend = y.ppend := by
  unfold Lane.advance Lane.goto; simp only; split <;> rfl

theorem State.fate_capture {s : State} {c : Cx} {u : Alu} {l : Nat} (hp : u.parks = false) (hd : hDefer (c.x.lane l).hword = true)
    (hs : u.srcs.any (c.x.isPending l) = true) (hf : u.firm.any (c.x.isPending l) = false) (hb : s.budgeted c.g l < s.residBudget c.x) :
    s.fate c u l = .capture := by
  simp only [State.fate, hp, hd, hs, hf, Bool.not_false, Bool.and_self, if_true, Bool.false_eq_true, if_false]
  exact if_neg (by omega)

theorem filter_of_const {α β : Type} [DecidableEq β] {ls : List α} {f : α → β} {b : β} (h : ∀ l ∈ ls, f l = b) (b' : β) :
    (ls.filter fun l => f l == b') = if b = b' then ls else [] := by
  split
  · next e => exact List.filter_eq_self.2 fun l hl => by rw [h l hl, e]; exact beq_self_eq_true _
  · next e => exact List.filter_eq_nil_iff.2 fun l hl => by rw [h l hl]; simpa using e

/-- A set whose every lane is captured. -/
theorem issueAlu_capture {i : Instr} {u : Alu} {s : State} {c : Cx} (h : s.Acts c) (hf : ∀ l ∈ c.ls, s.fate c u l = .capture) :
    issueAlu i u s = .next ((((s.modGroup c.g fun x => x).captureAlu i c u c.ls).advance c (sizeOf' i)).parkLanes c.g []
      |>.count (coreOf c.g) c.gr.ctx 3 c.ls.length) := by
  have hlen : (0 == c.ls.length) = false := by
    cases hc : c.ls with
    | nil => exact absurd hc (State.inFocus_ne h.focus)
    | cons => rfl
  have hpark : (c.ls.filter fun l => s.fate c u l == .park || s.fate c u l == .full) = [] :=
    List.filter_eq_nil_iff.2 fun l m => by simp [hf l m]
  rw [issueAlu, h.focus]
  simp only [hpark, filter_of_const hf, holdAll, reduceCtorEq, if_false, if_true, List.length_nil, hlen, List.nil_append,
    List.foldl_nil, State.count_zero]
  simp only [bne_self_eq_false, Bool.false_and, Bool.and_false, Bool.or_false, Bool.false_eq_true, if_false]

/-- A set whose every lane parks, as `issueAlu` decides of each. -/
theorem issueAlu_park {i : Instr} {u : Alu} {s : State} {c : Cx} (h : s.Acts c) (hf : ∀ l ∈ c.ls, s.fate c u l = .park) :
    issueAlu i u s = .next ((s.parkLanes c.g c.ls).count (coreOf c.g) c.gr.ctx 4 c.ls.length) := by
  have hpark : (c.ls.filter fun l => s.fate c u l == .park || s.fate c u l == .full) = c.ls :=
    List.filter_eq_self.2 fun l m => by simp [hf l m]
  rw [issueAlu, h.focus]
  simp only [hpark, filter_of_const hf, reduceCtorEq, if_false, bne_self_eq_false, Bool.false_and, Bool.or_true,
    beq_self_eq_true, if_true, Bool.false_eq_true]

theorem State.fate_park_of_source {s : State} {c : Cx} {i : Instr} {u : Alu} {l : Nat} (hi : Instr.alu i = some u)
    (hd : hDefer (c.x.lane l).hword = false) (hs : (u.srcs ++ u.firm).any (c.x.isPending l) = true) : s.fate c u l = .park := by
  have hs : u.srcs.any (c.x.isPending l) = true := by
    obtain ⟨o, ho, hp⟩ := List.any_eq_true.1 hs
    exact List.any_eq_true.2 ⟨o, (List.mem_append.1 ho).elim id (firm_mem_srcs hi o), hp⟩
  simp [State.fate, hs, hd]

theorem State.fate_park_of_destination {s : State} {c : Cx} {i : Instr} {u : Alu} {l : Nat} (hi : Instr.alu i = some u)
    (hs : u.srcs.any (c.x.isPending l) = false) (hd : u.dsts.any (c.x.isPending l) = true) : s.fate c u l = .park := by
  have hf : u.firm.any (c.x.isPending l) = false :=
    List.any_eq_false.2 fun o ho => List.any_eq_false.1 hs o (firm_mem_srcs hi o ho)
  simp [State.fate, hs, hd, hf]

/-- Lanes that have been captured go on past the word with their marks (R104). -/
theorem CapturedIn.gone {i : Instr} {u : Alu} {s t : State} {c : Cx} (h : s.Acts c) (hc : CapturedIn i u s c c.ls t) (n k : Nat) :
    ∃ y, tabGet (((t.advance c n).parkLanes c.g []).count (coreOf c.g) c.gr.ctx 3 k).groups c.g = some y ∧ y.trap = c.x.trap ∧
      ∀ l ∈ c.ls, (∀ d ∈ u.regs c l, ∃ m, s.nextId ≤ m ∧ y.pending l d = some m) ∧
        ∃ p q, y.lane l = { (c.x.lane l).advance n with stamp := t.clock, pass := false, pend := p, ppend := q } := by
  obtain ⟨x, hx, hm, ho⟩ := hc.group
  have hy : tabGet (((t.advance c n).parkLanes c.g []).count (coreOf c.g) c.gr.ctx 3 k).groups c.g =
      some { x with lanes := passLanes c.ls n t.clock x.lanes } := by
    rw [State.count_groups, State.parkLanes_nil_get]
    exact State.modGroup_get hx _
  have hlane : ∀ l ∈ c.ls, ({ x with lanes := passLanes c.ls n t.clock x.lanes } : Group).lane l = (x.lane l).passed n t.clock := fun l hl => by
    obtain ⟨z, hz⟩ := Option.isSome_iff_exists.1 ((hm.isSome l).trans (h.slots l hl))
    simp only [Group.lane, tabGetD, passLanes_self _ _ _ _ _ hl h.distinct, hz, Option.map_some, Option.getD_some]
  refine ⟨_, hy, by rw [hm.rest], fun l hl => ⟨fun d hd => ?_, (x.lane l).pend, (x.lane l).ppend, ?_⟩⟩
  · obtain ⟨m, hmm, hp⟩ := ho l hl d hd
    refine ⟨m, hmm, ?_⟩
    rw [← hp]
    cases d with
    | s n => rfl
    | v n => simp only [Group.pending, hlane l hl, Lane.passed, Lane.advance_pend]
    | p n => simp only [Group.pending, hlane l hl, Lane.passed, Lane.advance_ppend]
  · rw [hlane l hl, Lane.passed, hm.lane l, Lane.advance_with_marks]

/-- Settles O30: what becomes of a set is decided lane by lane by `State.fate`; the captures are followed by `CapturedIn`. -/
theorem pendingRegisters : Obligations.PendingRegisters := by
  unfold Obligations.PendingRegisters
  intro i u s c hu h
  have hregs : ∀ l, dstRegs i c l = u.regs c l := fun l => by rw [dstRegs, regsOf_of_alu hu]; rfl
  refine ⟨fun _ hp hl => ?_, fun hl => ?_⟩
  · refine ⟨_, (exec_of_alu hu s).trans (issueAlu_capture h fun l m => ?_), ?_⟩
    · obtain ⟨hd, hs, hf, hb, -⟩ := hl l m
      exact State.fate_capture hp hd hs hf hb
    have hc : CapturedIn i u s c c.ls ((s.modGroup c.g fun x => x).captureAlu i c u c.ls) := captureAlu_capturedIn_all h i u
    obtain ⟨y, hy, htrap, hlanes⟩ := hc.gone h (sizeOf' i) c.ls.length
    rw [Passed, State.group_of_get hy]
    refine ⟨⟨htrap, fun l hl => ?_⟩, ?_, ?_, ?_, fun l hl => ?_⟩
    · obtain ⟨-, p, q, he⟩ := hlanes l hl
      rw [he]
      exact ⟨rfl, rfl⟩
    · exact (State.kept_mem (by simp)).trans hc.mem
    · rw [State.count_ops]; exact hc.ops
    · intro l hl
      obtain ⟨id, r, hid, -, hr, h1, h2, h3, h4, h5, h6⟩ := hc.resid l hl
      rw [State.count_resid, hregs]
      exact ⟨id, r, hid, hr, h1, h2, h3, h4, h5, h6⟩
    · obtain ⟨hd, p, q, he⟩ := hlanes l hl
      rw [he, hregs]
      exact ⟨Lane.advance_regs .., Lane.advance_preds .., hd⟩
  · have hf : ∀ l ∈ c.ls, s.fate c u l = .park := by
      rcases hl with hl | hl
      · exact fun l m => State.fate_park_of_source hu (hl l m).1 (hl l m).2
      · exact fun l m => State.fate_park_of_destination hu (hl l m).1 (hl l m).2
    have hk := State.modLanes_lanesOnly h fun _ y => { y with park := .retry, stamp := s.clock }
    have hget : tabGet (s.parkLanes c.g c.ls).groups c.g = some _ := State.modGroup_get (State.inFocus_group h.focus) _
    have hg : ((s.parkLanes c.g c.ls).count (coreOf c.g) c.gr.ctx 4 c.ls.length).group c.g = (s.parkLanes c.g c.ls).group c.g := by
      rw [State.group, State.count_groups]; rfl
    refine ⟨_, (exec_of_alu hu s).trans (issueAlu_park h hf), by rw [State.count_rest]; rfl, ?_, ?_, ?_, ?_⟩
    · rw [State.count_groups]; exact hk.others
    · rw [State.count_groups, hg, State.group_of_get hget]; exact hget
    · rw [hg]; exact hk.idle
    · rw [hg]; exact hk.active

end Sys2Proof.Machine

/-!
PROOFS. Rejoin barriers (R48): what ENROL, JOIN and LEAVE do to the masks of a barrier, and which lanes they let go on.
-/

namespace Sys2Proof.Machine

/-! ### Masks of lanes -/

theorem maskOf_foldl_getLsbD (ls : List Nat) (m : BitVec 32) (l : Nat) (h : ∀ k ∈ ls, k < 32) :
    (ls.foldl (fun m k => m ||| BitVec.ofNat 32 (2 ^ k)) m).getLsbD l = (m.getLsbD l || decide (l ∈ ls)) := by
  induction ls generalizing m with
  | nil => simp
  | cons k ls ih =>
    rw [List.foldl_cons, ih _ fun j hj => h j (List.mem_cons_of_mem _ hj)]
    have hk : k < 32 := h k List.mem_cons_self
    have hb : (BitVec.ofNat 32 (2 ^ k)).getLsbD l = decide (l = k) := by
      rw [BitVec.getLsbD_ofNat, Nat.testBit_two_pow]
      by_cases e : l = k
      · simp [e, hk]
      · simp [e, Ne.symm e]
    rw [BitVec.getLsbD_or, hb]
    simp [List.mem_cons, Bool.or_assoc]

/-- The lanes of a mask that is made of lanes of a group. -/
theorem maskOf_getLsbD {ls : List Nat} (h : ∀ k ∈ ls, k < 32) (l : Nat) : (maskOf ls).getLsbD l = decide (l ∈ ls) := by
  rw [maskOf, maskOf_foldl_getLsbD _ _ _ h]
  simp

theorem mem_lanesOf {m : BitVec 32} {l : Nat} : l ∈ lanesOf m ↔ m.getLsbD l = true := by
  simp only [lanesOf, upto, List.mem_filter, List.mem_range, and_iff_right_iff_imp]
  exact BitVec.lt_of_getLsbD

theorem nodup_lanesOf (m : BitVec 32) : (lanesOf m).Nodup := List.nodup_range.filter _

/-- The lanes of a set that a mask holds. -/
theorem maskOf_filter {ls : List Nat} (h : ∀ k ∈ ls, k < 32) (e : BitVec 32) : maskOf (ls.filter fun l => e.getLsbD l) = e &&& maskOf ls := by
  refine BitVec.eq_of_getLsbD_eq fun l _ => ?_
  rw [maskOf_getLsbD fun k hk => h k (List.mem_of_mem_filter hk), BitVec.getLsbD_and, maskOf_getLsbD h]
  simp [Bool.and_comm]

/-! ### One group changed -/

/-- Only the group of `c`, which is now `x`, the counts of cores, and the identities given out differ from `s`. -/
structure GroupOnly (s : State) (c : Cx) (t : State) (x : Group) : Prop where
  rest : t = { s with groups := t.groups, nextId := t.nextId, cores := t.cores }
  counts : OnlyCounts s t
  others : ∀ g, g ≠ c.g → tabGet t.groups g = tabGet s.groups g
  get : tabGet t.groups c.g = some x

theorem GroupOnly.refl {s : State} {c : Cx} (h : s.Acts c) : GroupOnly s c s c.x :=
  ⟨rfl, fun _ => ⟨_, rfl⟩, fun _ _ => rfl, State.inFocus_group h.focus⟩

theorem GroupOnly.modGroup {s t : State} {c : Cx} {x : Group} (h : GroupOnly s c t x) (f : Group → Group) :
    GroupOnly s c (t.modGroup c.g f) (f x) :=
  ⟨by rw [h.rest]; rfl, h.counts, fun g hg => (tabGet_tabMod_ne _ _ hg).trans (h.others g hg), State.modGroup_get h.get f⟩

theorem GroupOnly.setGroup {s t : State} {c : Cx} {x : Group} (h : GroupOnly s c t x) (y : Group) (n : Nat) :
    GroupOnly s c { t.setGroup c.g y with nextId := n } y :=
  ⟨by rw [h.rest]; rfl, h.counts, fun g hg => (tabGet_tabSet_ne _ _ hg).trans (h.others g hg), tabGet_tabSet_self ..⟩

theorem OnlyCounts.trans {s t u : State} (h : OnlyCounts s t) (k : OnlyCounts t u) : OnlyCounts s u := fun j => by
  obtain ⟨p, hp⟩ := h j
  obtain ⟨q, hq⟩ := k j
  exact ⟨q, by rw [hq, hp]⟩

theorem GroupOnly.count {s t : State} {c : Cx} {x : Group} (h : GroupOnly s c t x) (core ctx kind n : Nat) :
    GroupOnly s c (t.count core ctx kind n) x :=
  ⟨by rw [t.count_rest, h.rest], h.counts.trans (t.count_onlyCounts core ctx kind n), by rw [State.count_groups]; exact h.others,
    by rw [State.count_groups]; exact h.get⟩

theorem GroupOnly.group {s t : State} {c : Cx} {x : Group} (h : GroupOnly s c t x) : t.group c.g = x := State.group_of_get h.get

theorem GroupOnly.clock {s t : State} {c : Cx} {x : Group} (h : GroupOnly s c t x) : t.clock = s.clock := by rw [h.rest]

/-- A group with another running set. -/
def Group.withRunning (x : Group) (r : BitVec 32) : Group := { x with running := r }

/-- Under DET another set may run after a stop (R50). -/
theorem GroupOnly.detStop {s t : State} {c : Cx} {x : Group} (h : GroupOnly s c t x) : ∃ r, GroupOnly s c (t.detStop c) (x.withRunning r) := by
  rw [State.detStop]
  split
  · exact ⟨_, h.modGroup _⟩
  · exact ⟨x.running, h⟩

theorem GroupOnly.detRelease {s t : State} {c : Cx} {x : Group} (h : GroupOnly s c t x) (ls : List Nat) :
    ∃ r, GroupOnly s c (t.detRelease c ls) (x.withRunning r) := by
  cases ls with
  | nil => exact h.detStop
  | cons l ls =>
    rw [State.detRelease]
    split
    · exact ⟨_, h.modGroup _⟩
    · exact ⟨x.running, h⟩

/-- A release check is made of the group alone. -/
theorem GroupOnly.releaseBar {s t : State} {c : Cx} {x : Group} (h : GroupOnly s c t x) (k : Nat) (stops : Bool) :
    ∃ r, GroupOnly s c (t.releaseBar c k stops) ((x.checkRelease k t.nextId s.clock).1.withRunning r) := by
  rw [← h.clock]
  have hr : GroupOnly s c { t.setGroup c.g ((t.group c.g).checkRelease k t.nextId t.clock).1 with nextId := t.nextId + 32 } _ :=
    h.setGroup _ _
  rw [h.group] at hr
  simp only [State.releaseBar, h.group]
  split
  · exact hr.detRelease _
  · split
    · exact hr.detStop
    · exact ⟨_, hr⟩

/-! ### Lanes and masks of the group -/

@[simp] theorem Lane.advance_park (y : Lane) (n : Nat) : (y.advance n).park = .none := by
  unfold Lane.advance Lane.goto; simp only; split <;> rfl


/-- A group whose threads hold the registers and predicates that they held, and whose barriers other than `b` are as they were. -/
structure KeepsRegs (b : Nat) (x y : Group) : Prop where
  sregs : y.sregs = x.sregs
  bars : ∀ j, j ≠ b → y.enrolled j = x.enrolled j ∧ y.arrived j = x.arrived j
  lanes : ∀ l, (y.lane l).regs = (x.lane l).regs ∧ (y.lane l).preds = (x.lane l).preds

theorem KeepsRegs.refl (b : Nat) (x : Group) : KeepsRegs b x x := ⟨rfl, fun _ _ => ⟨rfl, rfl⟩, fun _ => ⟨rfl, rfl⟩⟩

theorem KeepsRegs.trans {b : Nat} {x y z : Group} (h : KeepsRegs b x y) (k : KeepsRegs b y z) : KeepsRegs b x z :=
  ⟨k.sregs.trans h.sregs, fun j hj => ⟨(k.bars j hj).1.trans (h.bars j hj).1, (k.bars j hj).2.trans (h.bars j hj).2⟩,
    fun l => ⟨(k.lanes l).1.trans (h.lanes l).1, (k.lanes l).2.trans (h.lanes l).2⟩⟩

theorem KeepsRegs.rerun {b : Nat} {x y : Group} (h : KeepsRegs b x y) (r : BitVec 32) : KeepsRegs b x (y.withRunning r) :=
  ⟨h.sregs, h.bars, h.lanes⟩

@[simp] theorem Group.withRunning_lane (x : Group) (r : BitVec 32) (l : Nat) : (x.withRunning r).lane l = x.lane l := rfl

@[simp] theorem Group.withRunning_enrolled (x : Group) (r : BitVec 32) (k : Nat) : (x.withRunning r).enrolled k = x.enrolled k := rfl

@[simp] theorem Group.withRunning_arrived (x : Group) (r : BitVec 32) (k : Nat) : (x.withRunning r).arrived k = x.arrived k := rfl

theorem Group.setBar_keepsRegs (x : Group) (b : Nat) (e a : BitVec 32) : KeepsRegs b x (x.setBar b e a) :=
  ⟨rfl, fun j hj => by simp [Group.enrolled, Group.arrived, Group.setBar, tabGetD, tabGet_tabSet_ne _ _ hj], fun _ => ⟨rfl, rfl⟩⟩

@[simp] theorem Group.setBar_enrolled (x : Group) (b : Nat) (e a : BitVec 32) : (x.setBar b e a).enrolled b = e := by
  simp [Group.enrolled, Group.setBar, tabGetD]

@[simp] theorem Group.setBar_arrived (x : Group) (b : Nat) (e a : BitVec 32) : (x.setBar b e a).arrived b = a := by
  simp [Group.arrived, Group.setBar, tabGetD]

@[simp] theorem Group.setBar_lane (x : Group) (b : Nat) (e a : BitVec 32) (l : Nat) : (x.setBar b e a).lane l = x.lane l := rfl

@[simp] theorem Group.setBar_lanes (x : Group) (b : Nat) (e a : BitVec 32) : (x.setBar b e a).lanes = x.lanes := rfl

/-- A group with lanes changed, each by its own function. -/
def Group.withLanes (x : Group) (ls : List Nat) (f : Nat → Lane → Lane) : Group :=
  { x with lanes := ls.foldl (fun t l => tabMod t l (f l)) x.lanes }

theorem Group.withLanes_other (x : Group) {ls : List Nat} (f : Nat → Lane → Lane) {l : Nat} (h : l ∉ ls) : (x.withLanes ls f).lane l = x.lane l := by
  rw [Group.lane, Group.withLanes, tabGetD, foldl_tabMod_other _ _ _ _ h]
  rfl

theorem Group.withLanes_self {x : Group} {ls : List Nat} (f : Nat → Lane → Lane) {l : Nat} (h : l ∈ ls) (hd : ls.Nodup)
    (hs : (tabGet x.lanes l).isSome = true) : (x.withLanes ls f).lane l = f l (x.lane l) := by
  obtain ⟨y, hy⟩ := Option.isSome_iff_exists.1 hs
  rw [Group.lane, Group.withLanes, tabGetD, foldl_tabMod_self _ _ _ _ h hd, Group.lane, tabGetD, hy]
  rfl

theorem Group.withLanes_isSome (x : Group) {ls : List Nat} (f : Nat → Lane → Lane) (l : Nat) (hd : ls.Nodup) :
    (tabGet (x.withLanes ls f).lanes l).isSome = (tabGet x.lanes l).isSome := by
  by_cases h : l ∈ ls
  · rw [Group.withLanes, foldl_tabMod_self _ _ _ _ h hd, Option.isSome_map]
  · rw [Group.withLanes, foldl_tabMod_other _ _ _ _ h]

theorem Group.withLanes_keepsRegs {x : Group} (b : Nat) {ls : List Nat} {f : Nat → Lane → Lane} (hd : ls.Nodup)
    (hf : ∀ l y, (f l y).regs = y.regs ∧ (f l y).preds = y.preds) : KeepsRegs b x (x.withLanes ls f) := by
  refine ⟨rfl, fun _ _ => ⟨rfl, rfl⟩, fun l => ?_⟩
  by_cases h : l ∈ ls
  · cases hy : tabGet x.lanes l with
    | none => simp [Group.lane, Group.withLanes, tabGetD, foldl_tabMod_self _ f _ _ h hd, hy]
    | some y => simp [Group.lane, Group.withLanes, tabGetD, foldl_tabMod_self _ f _ _ h hd, hy, hf]
  · rw [Group.withLanes_other x f h]
    exact ⟨rfl, rfl⟩

/-- A lane that waits at a JOIN of barrier `k`. -/
def Lane.waitAt (y : Lane) (k clock : Nat) : Lane := { y with park := .join k, stamp := clock }

/-- A lane that a barrier has released. -/
def Lane.released (y : Lane) (set clock : Nat) : Lane := { y.advance 1 with set := set, stamp := clock }

theorem Group.checkRelease_of_not {x : Group} {k : Nat} (h : x.releases k = false) (id clock : Nat) :
    x.checkRelease k id clock = (x, []) := by
  rw [Group.checkRelease, h]
  rfl

theorem Group.checkRelease_of {x : Group} {k : Nat} (h : x.releases k = true) (id clock : Nat) :
    (x.checkRelease k id clock).1 = (x.withLanes (lanesOf (x.arrived k)) fun l y =>
      y.released (id + x.place (lanesOf (x.arrived k)) l) clock).setBar k 0 0 := by
  rw [Group.checkRelease, h]
  rfl

theorem Group.releases_iff (x : Group) (k : Nat) : x.releases k = true ↔ x.enrolled k ≠ 0 ∧ x.enrolled k &&& ~~~x.arrived k = 0 := by
  simp [Group.releases]

/-- The threads that have arrived go on past the JOIN that they wait at (R48). -/
theorem Group.checkRelease_lane {x : Group} {k l : Nat} (h : x.releases k = true) (id clock : Nat) (ha : (x.arrived k).getLsbD l = true)
    (hs : (tabGet x.lanes l).isSome = true) :
    ((x.checkRelease k id clock).1.lane l).pc = ((x.lane l).advance 1).pc ∧ ((x.checkRelease k id clock).1.lane l).park = .none := by
  rw [Group.checkRelease_of h]
  rw [Group.setBar_lane, Group.withLanes_self _ (mem_lanesOf.2 ha) (nodup_lanesOf _) hs]
  exact ⟨rfl, Lane.advance_park ..⟩

theorem Group.checkRelease_lane_other {x : Group} {k l : Nat} (id clock : Nat) (ha : (x.arrived k).getLsbD l = false) :
    (x.checkRelease k id clock).1.lane l = x.lane l := by
  cases h : x.releases k with
  | false => rw [Group.checkRelease_of_not h]
  | true =>
    rw [Group.checkRelease_of h, Group.setBar_lane, Group.withLanes_other]
    rw [mem_lanesOf, ha]
    exact Bool.false_ne_true

theorem Group.checkRelease_bar {x : Group} {k : Nat} (h : x.releases k = true) (id clock : Nat) :
    (x.checkRelease k id clock).1.enrolled k = 0 ∧ (x.checkRelease k id clock).1.arrived k = 0 := by
  rw [Group.checkRelease_of h]
  exact ⟨Group.setBar_enrolled _ k 0 0, Group.setBar_arrived _ k 0 0⟩

theorem Lane.advance_pc (y : Lane) (n : Nat) : (y.advance n).pc = y.pc + BitVec.ofNat 64 (4 * n) := by
  unfold Lane.advance Lane.goto; simp only; split <;> rfl

theorem Lane.released_keeps (y : Lane) (n clock : Nat) : (y.released n clock).regs = y.regs ∧ (y.released n clock).preds = y.preds :=
  ⟨Lane.advance_regs .., Lane.advance_preds ..⟩

theorem Lane.passed_keeps (y : Lane) (n clock : Nat) : (y.passed n clock).regs = y.regs ∧ (y.passed n clock).preds = y.preds :=
  ⟨Lane.advance_regs .., Lane.advance_preds ..⟩

/-- A release check leaves registers and other barriers alone. -/
theorem Group.checkRelease_keepsRegs (x : Group) (k id clock : Nat) : KeepsRegs k x (x.checkRelease k id clock).1 := by
  cases h : x.releases k with
  | false => rw [Group.checkRelease_of_not h]; exact .refl k x
  | true =>
    rw [Group.checkRelease_of h]
    exact (Group.withLanes_keepsRegs k (nodup_lanesOf _) fun _ y => y.released_keeps _ _).trans (Group.setBar_keepsRegs ..)

theorem GroupOnly.advance {s t : State} {c : Cx} {x : Group} (h : GroupOnly s c t x) (ls : List Nat) (n : Nat) :
    GroupOnly s c (t.advance { c with ls := ls } n) (x.withLanes ls fun _ y => y.passed n s.clock) := by
  rw [← h.clock]
  exact h.modGroup _

/-! ### ENROL, JOIN, LEAVE -/

/-- The group that ENROL leaves. -/
def Cx.enrolledSet (c : Cx) (k clock : Nat) : Group :=
  (c.x.setBar k (c.x.enrolled k ||| maskOf c.ls) (c.x.arrived k)).withLanes c.ls fun _ y => y.passed 1 clock

/-- The group that JOIN leaves before the release check: enrolled threads wait, the others have gone on. -/
def Cx.joined (c : Cx) (k clock : Nat) : Group :=
  let waits := c.ls.filter fun l => (c.x.enrolled k).getLsbD l
  let goes := c.ls.filter fun l => !(c.x.enrolled k).getLsbD l
  ((c.x.withLanes waits fun _ y => y.waitAt k clock).withLanes goes fun _ y => y.passed 1 clock).setBar k
    (c.x.enrolled k) (c.x.arrived k ||| maskOf waits)

/-- The group that LEAVE leaves before the release check. -/
def Cx.left (c : Cx) (k clock : Nat) : Group := (c.x.leaveBar k (maskOf c.ls)).withLanes c.ls fun _ y => y.passed 1 clock

theorem Cx.enrolledSet_keepsRegs {s : State} {c : Cx} (h : s.Acts c) (k clock : Nat) : KeepsRegs k c.x (c.enrolledSet k clock) :=
  (Group.setBar_keepsRegs ..).trans (Group.withLanes_keepsRegs k h.distinct fun _ y => y.passed_keeps 1 clock)

theorem Cx.joined_keepsRegs {s : State} {c : Cx} (h : s.Acts c) (k clock : Nat) : KeepsRegs k c.x (c.joined k clock) :=
  ((Group.withLanes_keepsRegs (f := fun _ y => y.waitAt k clock) k (h.distinct.filter _) fun _ _ => ⟨rfl, rfl⟩).trans
    (Group.withLanes_keepsRegs k (h.distinct.filter _) fun _ y => y.passed_keeps 1 clock)).trans (Group.setBar_keepsRegs _ k _ _)

theorem Cx.left_keepsRegs {s : State} {c : Cx} (h : s.Acts c) (k clock : Nat) : KeepsRegs k c.x (c.left k clock) :=
  (Group.setBar_keepsRegs ..).trans (Group.withLanes_keepsRegs k h.distinct fun _ y => y.passed_keeps 1 clock)

theorem Cx.enrolledSet_lane {s : State} {c : Cx} (h : s.Acts c) (k clock : Nat) {l : Nat} (hl : l ∈ c.ls) :
    (c.enrolledSet k clock).lane l = (c.x.lane l).passed 1 clock :=
  Group.withLanes_self _ hl h.distinct (h.slots l hl)

theorem Cx.left_lane {s : State} {c : Cx} (h : s.Acts c) (k clock : Nat) {l : Nat} (hl : l ∈ c.ls) :
    (c.left k clock).lane l = (c.x.lane l).passed 1 clock :=
  Group.withLanes_self _ hl h.distinct (h.slots l hl)

theorem Cx.left_lane_other {c : Cx} (k clock : Nat) {l : Nat} (hl : l ∉ c.ls) : (c.left k clock).lane l = c.x.lane l :=
  Group.withLanes_other _ _ hl

theorem Cx.left_isSome {s : State} {c : Cx} (h : s.Acts c) (k clock l : Nat) :
    (tabGet (c.left k clock).lanes l).isSome = (tabGet c.x.lanes l).isSome :=
  Group.withLanes_isSome _ _ _ h.distinct

theorem Cx.left_enrolled (c : Cx) (k clock : Nat) : (c.left k clock).enrolled k = c.x.enrolled k &&& ~~~maskOf c.ls :=
  c.x.setBar_enrolled k _ (c.x.arrived k &&& ~~~maskOf c.ls)

theorem Cx.left_arrived (c : Cx) (k clock : Nat) : (c.left k clock).arrived k = c.x.arrived k &&& ~~~maskOf c.ls :=
  c.x.setBar_arrived k (c.x.enrolled k &&& ~~~maskOf c.ls) _

/-- An enrolled thread of the set waits at the JOIN. -/
theorem Cx.joined_lane_waits {s : State} {c : Cx} (h : s.Acts c) (k clock : Nat) {l : Nat} (hl : l ∈ c.ls)
    (he : (c.x.enrolled k).getLsbD l = true) : (c.joined k clock).lane l = (c.x.lane l).waitAt k clock := by
  refine (Group.withLanes_other _ _ (by simp [he])).trans ?_
  exact Group.withLanes_self _ (List.mem_filter.2 ⟨hl, he⟩) (h.distinct.filter _) (h.slots l hl)

/-- A thread of the set that is not enrolled goes on. -/
theorem Cx.joined_lane_goes {s : State} {c : Cx} (h : s.Acts c) (k clock : Nat) {l : Nat} (hl : l ∈ c.ls)
    (he : (c.x.enrolled k).getLsbD l = false) : (c.joined k clock).lane l = (c.x.lane l).passed 1 clock := by
  refine (Group.withLanes_self _ (List.mem_filter.2 ⟨hl, by rw [he]; rfl⟩) (h.distinct.filter _) ?_).trans ?_
  · rw [Group.withLanes_isSome _ _ _ (h.distinct.filter _)]
    exact h.slots l hl
  · rw [Group.withLanes_other _ _ (by simp [he])]

theorem Cx.joined_lane_other {c : Cx} (k clock : Nat) {l : Nat} (hl : l ∉ c.ls) : (c.joined k clock).lane l = c.x.lane l :=
  (Group.withLanes_other _ _ fun hm => hl (List.mem_of_mem_filter hm)).trans
    (Group.withLanes_other _ _ fun hm => hl (List.mem_of_mem_filter hm))

theorem Cx.joined_isSome {s : State} {c : Cx} (h : s.Acts c) (k clock l : Nat) :
    (tabGet (c.joined k clock).lanes l).isSome = (tabGet c.x.lanes l).isSome :=
  (Group.withLanes_isSome _ _ _ (h.distinct.filter _)).trans (Group.withLanes_isSome _ _ _ (h.distinct.filter _))

theorem Cx.enrolledSet_enrolled (c : Cx) (k clock : Nat) : (c.enrolledSet k clock).enrolled k = c.x.enrolled k ||| maskOf c.ls :=
  c.x.setBar_enrolled k _ (c.x.arrived k)

theorem Cx.enrolledSet_arrived (c : Cx) (k clock : Nat) : (c.enrolledSet k clock).arrived k = c.x.arrived k :=
  c.x.setBar_arrived k (c.x.enrolled k ||| maskOf c.ls) _

theorem Cx.joined_enrolled (c : Cx) (k clock : Nat) : (c.joined k clock).enrolled k = c.x.enrolled k :=
  Group.setBar_enrolled ..

theorem Cx.joined_arrived {c : Cx} (h : ∀ l ∈ c.ls, l < 32) (k clock : Nat) :
    (c.joined k clock).arrived k = c.x.arrived k ||| (c.x.enrolled k &&& maskOf c.ls) := by
  rw [← maskOf_filter h]
  exact Group.setBar_arrived ..

/-- At a release every thread of the set and every one that had arrived stands past its JOIN. -/
theorem Cx.joined_release_lane {s : State} {c : Cx} (h : s.Acts c) (hl : ∀ l ∈ c.ls, l < 32) {k clock : Nat}
    (hr : (c.joined k clock).releases k = true) (id now : Nat) {l : Nat} (hm : l ∈ c.ls ∨ (c.x.arrived k).getLsbD l = true)
    (hd : (c.x.arrived k).getLsbD l = true → l ∉ c.ls) (hp : (c.x.arrived k).getLsbD l = true → (tabGet c.x.lanes l).isSome = true) :
    (((c.joined k clock).checkRelease k id now).1.lane l).pc = ((c.x.lane l).advance 1).pc ∧
      (((c.joined k clock).checkRelease k id now).1.lane l).park = .none := by
  have harr := Cx.joined_arrived hl k clock
  have hs := Cx.joined_isSome h k clock l
  by_cases hset : l ∈ c.ls
  · cases hb : (c.x.enrolled k).getLsbD l with
    | true =>
      have hw := Group.checkRelease_lane hr id now (l := l) (by rw [harr]; simp [hb, maskOf_getLsbD hl, hset]) (hs.trans (h.slots l hset))
      rw [Cx.joined_lane_waits h k clock hset hb, Lane.advance_pc] at hw
      rw [Lane.advance_pc]
      exact hw
    | false =>
      have hn : (c.x.arrived k).getLsbD l = false := Bool.eq_false_iff.2 fun ha => hd ha hset
      rw [Group.checkRelease_lane_other _ _ (by rw [harr]; simp [hb, hn]), Cx.joined_lane_goes h k clock hset hb]
      exact ⟨rfl, Lane.advance_park ..⟩
  · have ha := hm.resolve_left hset
    have hw := Group.checkRelease_lane hr id now (l := l) (by rw [harr]; simp [ha]) (hs.trans (hp ha))
    rwa [Cx.joined_lane_other _ _ hset] at hw

/-- The same of a release that LEAVE makes. -/
theorem Cx.left_release_lane {s : State} {c : Cx} (h : s.Acts c) (hl : ∀ l ∈ c.ls, l < 32) {k clock : Nat}
    (hr : (c.left k clock).releases k = true) (id now : Nat) {l : Nat}
    (hm : l ∈ c.ls ∨ (c.x.arrived k &&& ~~~maskOf c.ls).getLsbD l = true)
    (hp : (c.x.arrived k &&& ~~~maskOf c.ls).getLsbD l = true → (tabGet c.x.lanes l).isSome = true) :
    (((c.left k clock).checkRelease k id now).1.lane l).pc = ((c.x.lane l).advance 1).pc ∧
      (((c.left k clock).checkRelease k id now).1.lane l).park = .none := by
  have harr := Cx.left_arrived c k clock
  by_cases hset : l ∈ c.ls
  · rw [Group.checkRelease_lane_other _ _ (by rw [harr]; simp [maskOf_getLsbD hl, hset]), Cx.left_lane h _ _ hset]
    exact ⟨rfl, Lane.advance_park ..⟩
  · have ha := hm.resolve_left hset
    have hw := Group.checkRelease_lane hr id now (l := l) (by rw [harr]; exact ha) ((Cx.left_isSome h k clock l).trans (hp ha))
    rwa [Cx.left_lane_other _ _ hset] at hw

theorem exec_enrol_groupOnly {s : State} {c : Cx} {k : KField} (h : s.Ready (.enrol k) c) :
    ∃ t, exec (.enrol k) s = .next t ∧ GroupOnly s c t (c.enrolledSet k.toNat s.clock) := by
  rw [exec, execEnrol, issue_ready rfl h]
  exact ⟨_, rfl, ((GroupOnly.refl h.toActs).modGroup _).modGroup _⟩

theorem exec_join_groupOnly {s : State} {c : Cx} {k : KField} (h : s.Ready (.join k) c) :
    ∃ t id r, exec (.join k) s = .next t ∧
      GroupOnly s c t (((c.joined k.toNat s.clock).checkRelease k.toNat id s.clock).1.withRunning r) := by
  rw [exec, execJoin, issue_ready rfl h]
  have h1 := ((GroupOnly.refl h.toActs).modGroup fun x =>
    x.withLanes (c.ls.filter fun l => (c.x.enrolled k.toNat).getLsbD l) fun _ y => y.waitAt k.toNat s.clock).count
      (coreOf c.g) c.gr.ctx 4 (c.ls.filter fun l => (c.x.enrolled k.toNat).getLsbD l).length
  have h2 := (h1.advance (c.ls.filter fun l => !(c.x.enrolled k.toNat).getLsbD l) 1).modGroup fun x =>
    x.setBar k.toNat (c.x.enrolled k.toNat) (x.arrived k.toNat ||| maskOf (c.ls.filter fun l => (c.x.enrolled k.toNat).getLsbD l))
  obtain ⟨r, hr⟩ := h2.releaseBar k.toNat ((c.ls.filter fun l => (c.x.enrolled k.toNat).getLsbD l) != [])
  exact ⟨_, _, r, rfl, hr⟩

theorem exec_leave_groupOnly {s : State} {c : Cx} {k : KField} (h : s.Ready (.leave k) c) :
    ∃ t id r, exec (.leave k) s = .next t ∧
      GroupOnly s c t (((c.left k.toNat s.clock).checkRelease k.toNat id s.clock).1.withRunning r) := by
  rw [exec, execLeave, issue_ready rfl h]
  obtain ⟨r, hr⟩ := (((GroupOnly.refl h.toActs).modGroup fun x => x.leaveBar k.toNat (maskOf c.ls)).modGroup fun x =>
    x.withLanes c.ls fun _ y => y.passed 1 s.clock).releaseBar k.toNat false
  exact ⟨_, _, r, rfl, hr⟩

/-- Settles O19: the group that each instruction leaves is written out; a release check then releases, or it does not. -/
theorem rejoinBarriers : Obligations.RejoinBarriers := by
  unfold Obligations.RejoinBarriers
  intro s c k hl b set e a past keeps bar
  have hkeeps : ∀ {t x}, GroupOnly s c t x → KeepsRegs b c.x x → keeps t := fun h hk =>
    ⟨h.rest, h.counts, h.others, by rw [h.group]; exact hk.bars, by rw [h.group]; exact hk.sregs, by rw [h.group]; exact hk.lanes⟩
  have hbar : ∀ {t x} {e' a' : BitVec 32}, GroupOnly s c t x → (bar t e' a' ↔ x.enrolled b = e' ∧ x.arrived b = a') := fun h => by
    simp only [bar, h.group]
  have hpast : ∀ {t x l}, GroupOnly s c t x → (past l t ↔ (x.lane l).pc = ((c.x.lane l).advance 1).pc ∧ (x.lane l).park = .none) := fun h => by
    simp only [past, h.group]
  refine ⟨fun h => ?_, fun h hn => ?_, fun h he hz hd hp => ?_, fun h hn => ?_, fun h he hz hp => ?_⟩
  · obtain ⟨t, ht, hg⟩ := exec_enrol_groupOnly h
    refine ⟨t, ht, hkeeps hg (Cx.enrolledSet_keepsRegs h.toActs ..), ?_, fun l hm => ?_⟩
    · rw [hbar hg]; exact ⟨Cx.enrolledSet_enrolled .., Cx.enrolledSet_arrived ..⟩
    · rw [hpast hg, Cx.enrolledSet_lane h.toActs _ _ hm]; exact ⟨rfl, Lane.advance_park ..⟩
  · obtain ⟨t, id, r, ht, hg⟩ := exec_join_groupOnly h
    have hno : (c.joined b s.clock).releases b = false := by
      rw [Bool.eq_false_iff, Ne, Group.releases_iff, Cx.joined_enrolled, Cx.joined_arrived hl]
      tauto
    have hg : GroupOnly s c t ((c.joined b s.clock).withRunning r) := by rwa [Group.checkRelease_of_not hno] at hg
    refine ⟨t, ht, hkeeps hg ((Cx.joined_keepsRegs h.toActs ..).rerun r), ?_, fun l hm => ?_⟩
    · rw [hbar hg, Group.withRunning_enrolled, Group.withRunning_arrived]; exact ⟨c.joined_enrolled b s.clock, Cx.joined_arrived hl b s.clock⟩
    · split
      · next hb =>
        rw [hg.group, Group.withRunning_lane]
        rw [Cx.joined_lane_waits h.toActs b s.clock hm hb]
        exact ⟨rfl, rfl⟩
      · next hb =>
        rw [hpast hg, Group.withRunning_lane, Cx.joined_lane_goes h.toActs b s.clock hm (Bool.eq_false_iff.2 hb)]
        exact ⟨rfl, Lane.advance_park ..⟩
  · obtain ⟨t, id, r, ht, hg⟩ := exec_join_groupOnly h
    have hyes : (c.joined b s.clock).releases b = true := by
      rw [Group.releases_iff, Cx.joined_enrolled, Cx.joined_arrived hl]
      exact ⟨he, hz⟩
    refine ⟨t, ht, hkeeps hg (((Cx.joined_keepsRegs h.toActs ..).trans (Group.checkRelease_keepsRegs ..)).rerun r), ?_, fun l h32 hm => ?_⟩
    · rw [hbar hg, Group.withRunning_enrolled, Group.withRunning_arrived]
      exact Group.checkRelease_bar hyes id s.clock
    · rw [hpast hg, Group.withRunning_lane]
      exact Cx.joined_release_lane h.toActs hl hyes id s.clock hm (hd l h32) (hp l h32)
  · obtain ⟨t, id, r, ht, hg⟩ := exec_leave_groupOnly h
    have hno : (c.left b s.clock).releases b = false := by
      rw [Bool.eq_false_iff, Ne, Group.releases_iff, Cx.left_enrolled, Cx.left_arrived]
      tauto
    have hg : GroupOnly s c t ((c.left b s.clock).withRunning r) := by rwa [Group.checkRelease_of_not hno] at hg
    refine ⟨t, ht, hkeeps hg ((Cx.left_keepsRegs h.toActs ..).rerun r), ?_, fun l hm => ?_⟩
    · rw [hbar hg, Group.withRunning_enrolled, Group.withRunning_arrived]; exact ⟨c.left_enrolled b s.clock, c.left_arrived b s.clock⟩
    · rw [hpast hg, Group.withRunning_lane, Cx.left_lane h.toActs _ _ hm]; exact ⟨rfl, Lane.advance_park ..⟩
  · obtain ⟨t, id, r, ht, hg⟩ := exec_leave_groupOnly h
    have hyes : (c.left b s.clock).releases b = true := by
      rw [Group.releases_iff, Cx.left_enrolled, Cx.left_arrived]
      exact ⟨he, hz⟩
    refine ⟨t, ht, hkeeps hg (((Cx.left_keepsRegs h.toActs ..).trans (Group.checkRelease_keepsRegs ..)).rerun r), ?_, fun l h32 hm => ?_⟩
    · rw [hbar hg, Group.withRunning_enrolled, Group.withRunning_arrived]
      exact Group.checkRelease_bar hyes id s.clock
    · rw [hpast hg, Group.withRunning_lane]
      exact Cx.left_release_lane h.toActs hl hyes id s.clock hm (hp l h32)

end Sys2Proof.Machine

/-!
PROOFS. O20: the step of a REGROUP over a set that is all there is, where a lane of the set is finished.
-/

namespace Sys2Proof.Machine

/-- One group whose only lane is finished, and is the issue set all the same. -/
def standsFinished : State :=
  { level := 4
    groups := [(0, { uid := 2, grid := 5, team := 6, lanes := [(0, { fin := true })] })]
    grids := [(5, { ctx := 1, id := 1, queue := 0, pkt := { resid := 8 } })]
    teams := [(6, { grid := 5, tid := 0, cores := [0] })]
    ctxs := [(1, { root := 0 })]
    focus := some ⟨0, [0]⟩ }

/-- Its issue set. -/
def standsFinishedSet : Cx := ⟨0, standsFinished.group 0, standsFinished.grid 5, [0]⟩

theorem standsFinished_ready : standsFinished.Ready .regroup standsFinishedSet where
  focus := by decide
  slots := by decide
  distinct := by decide
  operands := by decide
  role := by decide
  named := by decide
  primary := by decide
  flags := by decide
  acquired := by decide
  fresh := by decide
  drained := by decide
  ordered := by decide

/-- The lane that REGROUP parks stands: a step takes the lanes that are not finished on, and there is none (R53). -/
theorem standsFinished_stands :
    ∃ t, exec .regroup standsFinished = .next t ∧ ((t.group standsFinishedSet.g).lane 0).park = .stand :=
  ⟨_, rfl, by decide⟩

/-- Refutes O20: of a set whose one lane is finished, which the premises of the last clause allow, REGROUP leaves that lane parked at its regroup
point, where the clause has it go on. The clause lacks the premise that no lane of the set is finished. -/
theorem not_exitAndRegroup : ¬ Obligations.ExitAndRegroup := by
  unfold Obligations.ExitAndRegroup
  intro h
  obtain ⟨-, hregroup⟩ := h standsFinished standsFinishedSet
  obtain ⟨-, hall⟩ := hregroup standsFinished_ready (by decide)
  obtain ⟨t, ht, hlanes, -⟩ := hall (by decide) (by decide) (by decide)
  obtain ⟨u, hu, hp⟩ := standsFinished_stands
  obtain rfl : t = u := Host.Outcome.next.inj (ht.symm.trans hu)
  rw [hlanes.active 0 (by decide)] at hp
  exact absurd hp (by decide)

end Sys2Proof.Machine

/-!
PROOFS. O55: the digests compared where the table of teams lists a key twice.
-/

namespace Sys2Proof.Machine

/-- A table of teams that lists the key 6 twice: first the checked team of grid 5, which has ended, then one of another grid. -/
def twoOfOneKey : State :=
  { groups := [(0, { uid := 2, grid := 5, team := 6 })]
    grids := [(5, { ctx := 1, id := 1, queue := 0, pkt := { resid := 8 }, ended := true })]
    teams := [(6, { grid := 5, tid := 0, cores := [0], finished := true }), (6, { grid := 7, tid := 0, cores := [0], checked := true }),
      (8, { grid := 5, tid := 0, cores := [1], finished := true, shadow := some { primary := 6 } })] }

/-- With the teams of grid 5 gone, the key names the other team, which still awaits its check (R225). -/
theorem twoOfOneKey_compared : ∃ t, exec (.digestCompare 6) twoOfOneKey = .next t ∧ (t.team 6).checked = true :=
  ⟨_, rfl, by decide⟩

/-- Refutes O55: where the table of teams lists the key of the checked team once more, for a team of another grid, and the team's own grid has
ended, DIGEST_COMPARE drops the teams of that grid, and what the key then names still awaits a check. The clause lacks the premise that a key
stands in the table of teams once. -/
theorem not_timersAndChecks : ¬ Obligations.TimersAndChecks := by
  unfold Obligations.TimersAndChecks
  intro h
  obtain ⟨-, -, -, hdigest, -⟩ := h twoOfOneKey 0 { uid := 2, grid := 5, team := 6 } (by decide)
  obtain ⟨t, ht, -, hchecked, -⟩ := hdigest 6 8 (by decide) (by decide) (by decide)
  obtain ⟨u, hu, hc⟩ := twoOfOneKey_compared
  obtain rfl : t = u := Host.Outcome.next.inj (ht.symm.trans hu)
  rw [hchecked] at hc
  exact absurd hc (by decide)

end Sys2Proof.Machine

/-!
PROOFS. O59: a header passed by a group whose table of lanes lists a key twice.
-/

namespace Sys2Proof.Machine

/-- The placed program at its clause header, in a group whose table of lanes lists the key 0 twice. -/
def headedTwice : State :=
  let y : Lane := { placedLane 1 0 with pc := placedCode, inBody := false }
  (State.reset.withFetchWord 32 0x7E600600).modGroup 0 fun x => { x with lanes := [(0, y), (0, y)], running := 1 }

/-- The state in which the header is looked at. -/
def headedTwiceLooked : State := { headedTwice.tick with sched := [] }.finishHalves 0 0 |>.finishHalves 0 0

set_option maxRecDepth 4000 in
theorem headedTwice_checked :
    headedTwiceLooked.checkHeader (headedTwiceLooked.cxOf 0 [0, 0]).who 0x1040 = .ok 0x000FF100 := by
  rfl

/-- The lane goes into the body once for each time that its key is listed. -/
theorem headedTwice_passes : ∃ t, step headedTwice = .next t ∧ ((t.group 0).lane 0).pc = placedCode + 8 :=
  ⟨_, rfl, by decide⟩

/-- Refutes O59: of a group whose table of lanes lists a key twice, the set that passes the header holds the lane twice, and its program counter
comes to stand two words on, where the header clause has it one word on. The clause lacks the premise that a key stands in the table of lanes
once. -/
theorem not_stepRunsDecoded : ¬ Obligations.StepRunsDecoded := by
  unfold Obligations.StepRunsDecoded
  intro h
  obtain ⟨-, -, hheader, -⟩ := h
  obtain ⟨hfront, -⟩ := hheader headedTwice 0 0 [] [0, 0] [] 0x000FF100 rfl (by decide) (by decide) (by decide)
  obtain ⟨-, hok⟩ := hfront (by decide)
  obtain ⟨-, hgo⟩ := hok headedTwice_checked
  obtain ⟨-, -, hpass⟩ := hgo (by decide)
  obtain ⟨t, ht, -, -, -, -, -, hlanes⟩ := hpass (by decide) (by decide) (by decide)
  obtain ⟨u, hu, hp⟩ := headedTwice_passes
  obtain rfl : t = u := Host.Outcome.next.inj (ht.symm.trans hu)
  obtain ⟨hlane, -⟩ := (hlanes 0 (by decide)).2 (by decide)
  have hone : ((t.group 0).lane 0).pc = placedCode + 4 := congrArg Lane.pc hlane
  exact absurd (hone.symm.trans hp) (by decide)

end Sys2Proof.Machine

/-!
SUPPORT. What a translation depends on, and what a write through a context's page tables changes.
-/

namespace Sys2Proof.Machine

/-! ### What a translation depends on -/

/-- Two states in which every address translates alike: their TLBs, roots of page tables, memory and lost regions are the same. -/
structure SameTables (s t : State) : Prop where
  tlb : ∀ k, (t.core k).tlb = (s.core k).tlb
  root : ∀ k, (tabGet t.ctxs k).map (·.root) = (tabGet s.ctxs k).map (·.root)
  mem : t.mem = s.mem
  lost : t.lost = s.lost
  ovf : t.ovf = s.ovf

theorem SameTables.walk {s t : State} (h : SameTables s t) (ctx va : Nat) : t.walk ctx va = s.walk ctx va := by
  have hr := h.root ctx
  unfold State.walk
  rw [h.mem]
  split
  · rfl
  · cases hs : tabGet s.ctxs ctx with
    | none => rw [hs, Option.map_none, Option.map_eq_none_iff] at hr; rw [hr]
    | some c =>
      rw [hs, Option.map_some, Option.map_eq_some_iff] at hr
      obtain ⟨d, hd, hroot⟩ := hr
      simp only [hd, hroot]

theorem SameTables.xlate {s t : State} (h : SameTables s t) (w : Who) (acc : Acc) (va n : Nat) : t.xlate w acc va n = s.xlate w acc va n := by
  have he : t.entryFor w va = s.entryFor w va := by simp only [State.entryFor, State.tlbHit, h.tlb, h.walk]
  have hl : ∀ pa, t.lostAt pa n = s.lostAt pa n := fun pa => by simp only [State.lostAt, h.lost, h.ovf]
  simp only [State.xlate, he, hl]

theorem SameTables.xlateAll {s t : State} (h : SameTables s t) (w : Who) (acc : Acc) (va n : Nat) :
    t.xlateAll w acc va n = s.xlateAll w acc va n := by
  have hrun : ∀ f va n, t.xlateRun w acc f va n = s.xlateRun w acc f va n := fun f => by
    induction f with
    | zero => exact fun _ _ => rfl
    | succ f ih => exact fun va n => by simp only [State.xlateRun, h.xlate, ih]
  exact hrun ..

/-! ### Writes of memory -/

/-- A state in which nothing has changed but memory, what was stored to it and when, and who holds its lines. -/
def StoredOnly (s t : State) : Prop := t = { s with mem := t.mem, stored := t.stored, leases := t.leases, hostLines := t.hostLines }

theorem StoredOnly.refl (s : State) : StoredOnly s s := rfl

theorem StoredOnly.trans {s t u : State} (h : StoredOnly s t) (k : StoredOnly t u) : StoredOnly s u := by
  unfold StoredOnly at h k ⊢
  rw [k, h]

theorem StoredOnly.groups {s t : State} (h : StoredOnly s t) : t.groups = s.groups := by
  unfold StoredOnly at h
  rw [h]

theorem StoredOnly.teams {s t : State} (h : StoredOnly s t) : t.teams = s.teams := by
  unfold StoredOnly at h
  rw [h]

/-- Bytes laid down in pieces. -/
def memWrites (m : Tab Byte) (ps : List (Nat × List Byte)) : Tab Byte := ps.foldl (fun m p => memWrite m p.1 p.2) m

theorem State.foldl_storePhys (s : State) (agent : Nat) (ps : List (Nat × List Byte)) :
    StoredOnly s (ps.foldl (fun t p => t.storePhys agent p.1 p.2) s) ∧
      (ps.foldl (fun t p => t.storePhys agent p.1 p.2) s).mem = memWrites s.mem ps := by
  induction ps generalizing s with
  | nil => exact ⟨rfl, rfl⟩
  | cons p ps ih => exact ⟨StoredOnly.trans (t := s.storePhys agent p.1 p.2) rfl (ih _).1, (ih _).2⟩

theorem State.storeRun_storedOnly (s : State) (agent pa : Nat) (bs : List Byte) : StoredOnly s (s.storeRun agent pa bs) :=
  (s.foldl_storePhys agent _).1

theorem State.storeRun_mem (s : State) (agent pa : Nat) (bs : List Byte) :
    (s.storeRun agent pa bs).mem = memWrites s.mem (linePieces (bs.length / 64 + 2) pa bs) := (s.foldl_storePhys agent _).2

/-- Of a run laid down line by line, no byte beside the run is written. -/
theorem memByte_memWrites_linePieces (f pa : Nat) (bs : List Byte) (m : Tab Byte) {p : Nat} (h : p < pa ∨ pa + bs.length ≤ p) :
    memByte (memWrites m (linePieces f pa bs)) p = memByte m p := by
  induction f generalizing pa bs m with
  | zero => rfl
  | succ f ih =>
    cases bs with
    | nil => rfl
    | cons b bs =>
      refine (ih (pa + (lineBytes pa - pa % lineBytes pa)) _ _ ?_).trans (memByte_memWrite_outside _ _ _ ?_)
      · rw [List.length_drop]
        omega
      · simp only [List.length_take]
        omega

/-- One piece of a run written. -/
def State.putPiece (t : State × List Byte) (p : Piece) : State × List Byte :=
  (match p.loc with
    | .phys pa => t.1.storeRun (homeOf pa) pa (t.2.take p.len)
    | _ => t.1, t.2.drop p.len)

theorem State.putVa_error {s : State} {w : Who} {va : Nat} {bs : List Byte} {e : Cause × Nat}
    (h : s.xlateAll w .store va bs.length = .error e) : s.putVa w va bs = .error e := by
  rw [State.putVa, h]

theorem State.putVa_ok {s : State} {w : Who} {va : Nat} {bs : List Byte} {ps : List Piece}
    (h : s.xlateAll w .store va bs.length = .ok ps) : s.putVa w va bs = .ok (ps.foldl State.putPiece (s, bs)).1 := by
  rw [State.putVa, h]
  rfl

theorem State.putVa_eq_ok {s u : State} {w : Who} {va : Nat} {bs : List Byte} (h : s.putVa w va bs = .ok u) :
    ∃ ps, s.xlateAll w .store va bs.length = .ok ps ∧ u = (ps.foldl State.putPiece (s, bs)).1 := by
  cases hx : s.xlateAll w .store va bs.length with
  | error e => rw [State.putVa_error hx] at h; cases h
  | ok ps =>
    rw [State.putVa_ok hx] at h
    exact ⟨ps, rfl, (Except.ok.inj h).symm⟩

theorem State.putPiece_storedOnly (t : State × List Byte) (p : Piece) : StoredOnly t.1 (State.putPiece t p).1 := by
  unfold State.putPiece
  cases p.loc with
  | phys pa => exact State.storeRun_storedOnly ..
  | _ => exact StoredOnly.refl _

theorem State.foldl_putPiece_storedOnly (ps : List Piece) (t : State × List Byte) : StoredOnly t.1 (ps.foldl State.putPiece t).1 := by
  induction ps generalizing t with
  | nil => exact StoredOnly.refl _
  | cons p ps ih => exact (State.putPiece_storedOnly t p).trans (ih _)

theorem State.foldl_putPiece_outside (ps : List Piece) (t : State × List Byte) {p : Nat}
    (h : ∀ q ∈ ps, ∀ pa, q.loc = .phys pa → p < pa ∨ pa + q.len ≤ p) :
    memByte (ps.foldl State.putPiece t).1.mem p = memByte t.1.mem p := by
  induction ps generalizing t with
  | nil => rfl
  | cons q ps ih =>
    refine (ih _ fun r hr => h r (List.mem_cons_of_mem _ hr)).trans ?_
    have hq := h q List.mem_cons_self
    unfold State.putPiece
    cases hl : q.loc with
    | phys pa =>
      have hlen := List.length_take (i := q.len) (l := t.2)
      simp only [State.storeRun_mem]
      exact memByte_memWrites_linePieces _ _ _ _ (by have := hq pa hl; omega)
    | _ => rfl

/-- What a run leaves in memory depends on memory alone. -/
theorem State.foldl_putPiece_mem (ps : List Piece) {s t : State} (bs : List Byte) (h : t.mem = s.mem) :
    (ps.foldl State.putPiece (t, bs)).1.mem = (ps.foldl State.putPiece (s, bs)).1.mem := by
  induction ps generalizing s t bs with
  | nil => exact h
  | cons q ps ih =>
    refine ih _ ?_
    cases hl : q.loc with
    | phys pa => simp only [State.storeRun_mem, h]
    | _ => exact h

/-- A write made in a state that translates alike. -/
theorem SameTables.putVa {s t u : State} (h : SameTables s t) {w : Who} {va : Nat} {bs : List Byte} (hu : s.putVa w va bs = .ok u) :
    ∃ v, t.putVa w va bs = .ok v ∧ StoredOnly t v ∧ v.mem = u.mem := by
  obtain ⟨ps, hps, rfl⟩ := State.putVa_eq_ok hu
  exact ⟨_, State.putVa_ok ((h.xlateAll ..).trans hps), State.foldl_putPiece_storedOnly ..,
    State.foldl_putPiece_mem ps bs h.mem⟩

end Sys2Proof.Machine

/-!
PROOFS. O36: SPAWN into a bin or a staging list, and BINFLUSH.
-/

namespace Sys2Proof.Machine

/-! ### The lowest free number -/

theorem lowestFree_eq {α : Type} {t : Tab α} {k : Nat} (hk : tabGet t k = none) (i n : Nat) (hi : i ≤ k) (hn : k < i + n)
    (hlow : ∀ j, i ≤ j → j < k → (tabGet t j).isSome = true) : lowestFree t i n = some k := by
  induction n generalizing i with
  | zero => omega
  | succ n ih =>
    rw [lowestFree]
    split
    · next hfree =>
      rcases Nat.lt_or_eq_of_le hi with hlt | rfl
      · rw [Option.isNone_iff_eq_none] at hfree
        simpa [hfree] using hlow i le_rfl hlt
      · rfl
    · next hfull =>
      have hne : i ≠ k := by
        rintro rfl
        simp [hk] at hfull
      exact ih (i + 1) (by omega) (by omega) fun j hj => hlow j (by omega)

/-! ### The bin an item goes into -/

theorem Core.place_joins {x : Core} {grid team clock k : Nat} {i : Item} {q : Bin}
    (hf : (x.bins.filter fun e => e.1 < 32).find? (fun e => e.2.grid == grid && e.2.entry == i.entry) = some (k, q))
    (ho : q.closed = false) (hl : q.items.length < 32) :
    x.place grid team clock i = some (k, { q with items := q.items ++ [i], closed := q.items.length = 31 }) := by
  have hkeyed : (x.bins.filter fun e => e.1 < binsPerCore).find? (fun e => e.2.keyed grid i.entry) = some (k, q) := hf
  have hroom : ¬ binsPerCore ≤ q.items.length := Nat.not_le.2 hl
  have hfull : decide (binsPerCore ≤ q.items.length + 1) = decide (q.items.length = 31) :=
    decide_eq_decide.2 (show 32 ≤ q.items.length + 1 ↔ q.items.length = 31 by omega)
  simp only [Core.place, hkeyed, ho, hroom, hfull, decide_false, Bool.or_self, Bool.false_eq_true, if_false]

theorem Core.place_opens {x : Core} {grid team clock k : Nat} {i : Item}
    (hn : ∀ e ∈ x.bins, e.1 < 32 → e.2.grid = grid → e.2.entry ≠ i.entry) (hk : k < 32) (hfree : tabGet x.bins k = none)
    (hlow : ∀ j < k, (tabGet x.bins j).isSome = true) :
    x.place grid team clock i = some (k, { grid := grid, team := team, entry := i.entry, items := [i], timer := clock }) := by
  have hfind : (x.bins.filter fun e => e.1 < binsPerCore).find? (fun e => e.2.keyed grid i.entry) = none := by
    refine List.find?_eq_none.2 fun e he => ?_
    obtain ⟨hm, hlt⟩ := List.mem_filter.1 he
    simpa [Bin.keyed] using hn e hm (of_decide_eq_true hlt)
  have hget : ∀ j, j ≤ k → tabGet (x.bins.filter fun e => e.1 < binsPerCore) j = tabGet x.bins j := fun j hj => by
    rw [tabGet_filter_key x.bins (fun n => decide (n < binsPerCore)) j, if_pos (decide_eq_true (show j < binsPerCore from Nat.lt_of_le_of_lt hj hk))]
  have hlowest : lowestFree (x.bins.filter fun e => e.1 < binsPerCore) 0 binsPerCore = some k :=
    lowestFree_eq ((hget k le_rfl).trans hfree) 0 32 (Nat.zero_le _) (by omega) fun j _ hj => by rw [hget j (by omega)]; exact hlow j hj
  simp only [Core.place, hfind, hlowest]

/-! ### SPAWN of one lane -/

theorem State.readOpd_b {s : State} {c : Cx} (h : s.Acts c) (l : Nat) (b : BOp) : s.readOpd c.x l (b.v.headD (.imm 0)) = s.vb c l b := by
  cases b with
  | reg r => rw [State.vb, State.vreg, h.group]; rfl
  | lit w => rfl

/-- The item of the lane `l`. -/
def State.itemOf (s : State) (c : Cx) (l : Nat) (a : VField) (b : BOp) : Item :=
  ⟨s.vpair c l a, s.vb c l b, (c.x.lane l).spawnIdx, (c.x.lane l).spawnSeq⟩

theorem State.spawnItem_eq {s : State} {c : Cx} (h : s.Acts c) (l : Nat) (a : VField) (b : BOp) :
    s.spawnItem c l a b = s.itemOf c l a b := by
  simp only [State.spawnItem, State.itemOf, State.readOpd_b h, h.group, State.vpair]

/-- What the lane's place in the order of items becomes when it has spawned. -/
def Lane.spawned (y : Lane) : Lane := { y with spawnSeq := y.spawnSeq + 1 }

theorem Lane.spawned_past (y : Lane) (i : Instr) (clock : Nat) :
    (y.spawned.past i clock).pc = (y.advance (sizeOf' i)).pc ∧ (y.spawned.past i clock).inBody = (y.advance (sizeOf' i)).inBody ∧
      (y.spawned.past i clock).spawnSeq = y.spawnSeq + 1 := by
  have hend : y.spawned.bodyEnd = y.bodyEnd := rfl
  have hpc : y.spawned.pc = y.pc := rfl
  rw [Lane.past, Lane.advance, Lane.advance, hend, hpc]
  by_cases h : y.pc + BitVec.ofNat 64 (4 * sizeOf' i) = y.bodyEnd
  · rw [if_pos h, if_pos h]
    exact ⟨rfl, rfl, rfl⟩
  · rw [if_neg h, if_neg h]
    exact ⟨rfl, rfl, rfl⟩

theorem Lane.past_eq (y : Lane) {i : Instr} (hi : irreversible i = true) (clock : Nat) :
    Lane.passed { y with irrev := true } (sizeOf' i) clock = y.past i clock := by
  rw [Lane.past_eq_passed, hi, Bool.true_or]

/-- Where the item of a set of one lane finds its place, the lane goes on, and all else is as the placing left it. -/
theorem exec_spawn_placed {s u : State} {c : Cx} {l : Nat} {a : VField} {b : BOp} (h : s.Ready (.spawn a b) c) (hl : c.ls = [l])
    (ha : (s.vpair c l a).toNat % 4 = 0) (hu : s.spawnLane c l (s.itemOf c l a b) = some u)
    (hg : u.groups = (s.modLane c.g l Lane.spawned).groups) :
    ∃ t, exec (.spawn a b) s = .next t ∧ t = { u with groups := t.groups } ∧ Passed (.spawn a b) c t ∧
      ((t.group c.g).lane l).spawnSeq = (c.x.lane l).spawnSeq + 1 := by
  have hmem : l ∈ c.ls := by rw [hl]; exact List.mem_singleton_self l
  have hmust : must (s.readPair c.x l a % 4 == 0) .misaligned (s.readPair c.x l a) = none := by
    rw [State.vpair, h.toActs.group, BitVec.toNat_ofNat] at ha
    have : s.readPair c.x l a % 4 = 0 := by omega
    rw [must, this]
    rfl
  have hx : tabGet u.groups c.g = some (c.x.withLanes [l] fun _ => Lane.spawned) := by
    rw [hg]
    exact State.modGroup_get (State.inFocus_group h.focus) _
  have hex : exec (.spawn a b) s = .next ((u.done { c with ls := [l] } (.spawn a b)).parkLanes c.g []) := by
    rw [exec, execSpawn, issue_ready rfl h, State.checked_none fun m hm => by rw [hl, List.mem_singleton] at hm; rw [hm]; exact hmust]
    simp only [hl, List.foldl_cons, List.foldl_nil, State.spawnItem_eq h.toActs, hu, List.contains_nil, Bool.not_false, List.filter_true,
      List.length_nil, State.count_zero]
  have hnodup : [l].Nodup := List.nodup_singleton l
  have hgroup : ((u.done { c with ls := [l] } (.spawn a b)).parkLanes c.g []).group c.g =
      ((c.x.withLanes [l] fun _ => Lane.spawned).withLanes [l] fun _ y => { y with irrev := true }).withLanes [l]
        fun _ y => y.passed (sizeOf' (.spawn a b)) u.clock :=
    State.group_of_get (State.modGroup_get (State.modGroup_get (State.modGroup_get hx _) _) _)
  have hlane : (((u.done { c with ls := [l] } (.spawn a b)).parkLanes c.g []).group c.g).lane l =
      (c.x.lane l).spawned.past (.spawn a b) u.clock := by
    have hs := h.slots l hmem
    have hself : l ∈ [l] := List.mem_singleton_self l
    rw [hgroup, Group.withLanes_self _ hself hnodup (by rw [Group.withLanes_isSome _ _ _ hnodup, Group.withLanes_isSome _ _ _ hnodup]; exact hs),
      Group.withLanes_self _ hself hnodup (by rw [Group.withLanes_isSome _ _ _ hnodup]; exact hs), Group.withLanes_self _ hself hnodup hs]
    exact Lane.past_eq _ rfl _
  obtain ⟨hpc, hbody, hseq⟩ := (c.x.lane l).spawned_past (.spawn a b) u.clock
  refine ⟨_, hex, rfl, ⟨by rw [hgroup]; rfl, fun m hm => ?_⟩, by rw [hlane]; exact hseq⟩
  rw [hl, List.mem_singleton] at hm
  rw [hm, hlane]
  exact ⟨hpc, hbody⟩

theorem State.spawnLane_binned {s : State} {c : Cx} {l k : Nat} {i : Item} {q : Bin} (hd : c.gr.pkt.det = false)
    (hp : (s.core (coreOf c.g)).place c.x.grid c.x.team s.clock i = some (k, q)) :
    s.spawnLane c l i = some ((s.modLane c.g l Lane.spawned).modCore (coreOf c.g) fun x => { x with bins := tabSet x.bins k q }) := by
  simp only [State.spawnLane, hd, hp, Bool.false_eq_true, if_false]
  rfl

/-- An item that finds a bin of its core joins it or opens it. -/
theorem exec_spawn_binned {s : State} {c : Cx} {l k : Nat} {a : VField} {b : BOp} {q : Bin} (h : s.Ready (.spawn a b) c) (hl : c.ls = [l])
    (ha : (s.vpair c l a).toNat % 4 = 0) (hd : c.gr.pkt.det = false)
    (hp : (s.core (coreOf c.g)).place c.x.grid c.x.team s.clock (s.itemOf c l a b) = some (k, q)) :
    ∃ t, exec (.spawn a b) s = .next t ∧
      ((Passed (.spawn a b) c t ∧ ((t.group c.g).lane l).spawnSeq = (c.x.lane l).spawnSeq + 1) ∧
        t = { s with groups := t.groups, cores := t.cores }) ∧ tabGet (t.core (coreOf c.g)).bins k = some q := by
  obtain ⟨t, ht, hrest, hpass, hseq⟩ := exec_spawn_placed h hl ha (State.spawnLane_binned hd hp) rfl
  refine ⟨t, ht, ⟨⟨hpass, hseq⟩, by rw [hrest]; rfl⟩, ?_⟩
  have hcore : t.core (coreOf c.g) = { s.core (coreOf c.g) with bins := tabSet (s.core (coreOf c.g)).bins k q } := by
    rw [hrest]
    exact (State.core_tabSet s _ _ _).trans (if_pos rfl)
  rw [hcore]
  exact tabGet_tabSet_self ..

/-! ### Staging under DET -/

/-- The items of a grid that are staged. -/
def State.stagedOf (s : State) (grid : Nat) : Nat := (s.teams.map fun e => if e.2.grid = grid then e.2.staging.length else 0).sum

theorem State.stageItem_storedOnly (s : State) (c : Cx) : StoredOnly s (s.stageItem c) := by
  simp only [State.stageItem]
  split
  · next hu =>
    obtain ⟨ps, -, rfl⟩ := State.putVa_eq_ok hu
    exact State.foldl_putPiece_storedOnly ..
  · exact StoredOnly.refl s

theorem State.length_freeBytes (s : State) (i n : Nat) : (s.freeBytes i n).length = n := by simp [State.freeBytes, upto]

theorem State.stageItem_eq (s : State) (c : Cx) : s.stageItem c =
    match s.putVa c.who (c.stagedAt (s.stagedOf c.x.grid - 1)) (s.freeBytes (2 ^ 42 + 16 * s.stagedOf c.x.grid) 16) with
    | .ok t => t
    | .error _ => s := by
  rw [State.stagedOf, List.sum_eq_foldl]
  rfl

/-- Staging writes the bytes of the item's place, and none where the place cannot be written. -/
theorem State.stageItem_mem (s : State) (c : Cx) :
    match s.xlateAll c.who .store (c.stagedAt (s.stagedOf c.x.grid - 1)) 16 with
    | .error _ => (s.stageItem c).mem = s.mem
    | .ok ps => ∀ p, (∀ q ∈ ps, ∀ pa, q.loc = .phys pa → p < pa ∨ pa + q.len ≤ p) → memByte (s.stageItem c).mem p = memByte s.mem p := by
  have hlen := s.length_freeBytes (2 ^ 42 + 16 * s.stagedOf c.x.grid) 16
  cases hx : s.xlateAll c.who .store (c.stagedAt (s.stagedOf c.x.grid - 1)) 16 with
  | error e =>
    rw [State.stageItem_eq, State.putVa_error (by rw [hlen]; exact hx)]
  | ok ps =>
    rw [State.stageItem_eq, State.putVa_ok (by rw [hlen]; exact hx)]
    exact fun p hp => State.foldl_putPiece_outside ps _ hp

/-- The state in which the item of a lane has joined the list of its parent team. -/
def State.withStaged (s : State) (c : Cx) (l : Nat) (i : Item) : State :=
  (s.modLane c.g l Lane.spawned).modTeam (s.parentOf c.x.team) fun t => { t with staging := t.staging ++ [i] }

theorem State.spawnLane_staged {s : State} {c : Cx} (l : Nat) (i : Item) (hd : c.gr.pkt.det = true) :
    s.spawnLane c l i = some ((s.withStaged c l i).stageItem c) := by
  simp only [State.spawnLane, hd, if_true]
  rfl

theorem State.withStaged_sameTables (s : State) (c : Cx) (l : Nat) (i : Item) : SameTables s (s.withStaged c l i) :=
  ⟨fun _ => rfl, fun _ => rfl, rfl, rfl, rfl⟩

theorem State.withStaged_staging {s : State} {c : Cx} (l : Nat) (i : Item) (h : (tabGet s.teams (s.parentOf c.x.team)).isSome = true) :
    ((s.withStaged c l i).team (s.parentOf c.x.team)).staging = (s.team (s.parentOf c.x.team)).staging ++ [i] := by
  obtain ⟨t, ht⟩ := Option.isSome_iff_exists.1 h
  have hmod : tabGet (s.withStaged c l i).teams (s.parentOf c.x.team) = some { t with staging := t.staging ++ [i] } :=
    (tabGet_tabMod_self ..).trans (congrArg _ ht)
  simp only [State.team, tabGetD, hmod, ht, Option.getD_some]

/-- Under DET the item joins the list of its parent team, and its bytes the spill region. -/
theorem exec_spawn_staged {s : State} {c : Cx} {l : Nat} {a : VField} {b : BOp} (h : s.Ready (.spawn a b) c) (hl : c.ls = [l])
    (ha : (s.vpair c l a).toNat % 4 = 0) (hd : c.gr.pkt.det = true) :
    ∃ t, exec (.spawn a b) s = .next t ∧ t = { (s.withStaged c l (s.itemOf c l a b)).stageItem c with groups := t.groups } ∧
      Passed (.spawn a b) c t ∧ ((t.group c.g).lane l).spawnSeq = (c.x.lane l).spawnSeq + 1 :=
  exec_spawn_placed h hl ha (State.spawnLane_staged l _ hd) (State.stageItem_storedOnly _ c).groups

/-! ### BINFLUSH outside DET -/

theorem LanesOnly.passed {i : Instr} {s t : State} {c : Cx} (h : LanesOnly s c t fun _ y => y.past i s.clock) : Passed i c t :=
  ⟨by rw [State.group_of_get h.group], fun l hl => by rw [h.active l hl]; exact ⟨rfl, rfl⟩⟩

/-- A core with every bin of a grid closed. -/
def Core.closeBins (x : Core) (grid : Nat) : Core :=
  { x with bins := tabMap x.bins fun _ q => if q.grid = grid then { q with closed := true } else q }

theorem exec_binflush_closes {s : State} {c : Cx} (h : s.Ready .binflush c) (hd : c.gr.pkt.det = false) :
    ∃ t, exec .binflush s = .next t ∧ Passed .binflush c t ∧ t = { s with groups := t.groups, cores := t.cores } ∧
      (t.core (coreOf c.g)).bins = tabMap (s.core (coreOf c.g)).bins fun _ q => if q.grid = c.x.grid then { q with closed := true } else q := by
  have ha : (s.modCore (coreOf c.g) fun x => x.closeBins c.x.grid).Acts c := ⟨h.focus, h.slots, h.distinct⟩
  have hdone := State.done_lanesOnly ha .binflush
  refine ⟨_, ?_, hdone.passed, by rw [hdone.rest]; rfl, ?_⟩
  · rw [exec, execBinflush, issue_ready rfl h]
    simp only [hd, Bool.false_eq_true, if_false]
    rfl
  · have hcore : ((s.modCore (coreOf c.g) fun x => x.closeBins c.x.grid).done c .binflush).core (coreOf c.g) =
        (s.core (coreOf c.g)).closeBins c.x.grid := by
      rw [hdone.rest]
      exact (State.core_tabSet s _ _ _).trans (if_pos rfl)
    rw [hcore]
    rfl

/-! ### The flush point of a team under DET -/

theorem mem_of_tabGet {α : Type} {t : Tab α} {n : Nat} {v : α} (h : tabGet t n = some v) : (n, v) ∈ t := by
  induction t with
  | nil => cases h
  | cons e t ih =>
    obtain ⟨m, w⟩ := e
    rw [tabGet] at h
    split at h
    · next hm => rw [hm, Option.some.inj h]; exact List.mem_cons_self
    · exact List.mem_cons_of_mem _ (ih h)

/-- What a table holds of a property that the change of an entry keeps. -/
theorem exists_mem_tabSet {α : Type} {P : α → Prop} {t : Tab α} {n : Nat} {v : α} (hs : ∀ w, tabGet t n = some w → (P v ↔ P w))
    (hn : tabGet t n = none → ¬ P v) (k : Nat) : (∃ w, (k, w) ∈ tabSet t n v ∧ P w) ↔ ∃ w, (k, w) ∈ t ∧ P w := by
  induction t with
  | nil =>
    simp only [tabSet, List.mem_singleton, Prod.mk.injEq, List.not_mem_nil, false_and, exists_false, iff_false]
    rintro ⟨w, ⟨-, rfl⟩, hw⟩
    exact hn rfl hw
  | cons e t ih =>
    obtain ⟨m, w⟩ := e
    have hcons : ∀ (r : Tab α) (x : α), (∃ y, (k, y) ∈ (m, x) :: r ∧ P y) ↔ (k = m ∧ P x) ∨ ∃ y, (k, y) ∈ r ∧ P y := fun r x => by
      simp [or_and_right, exists_or]
    rw [tabSet]
    split
    · constructor
      · rintro ⟨y, hy, hP⟩
        rcases List.mem_cons.1 hy with he | hy
        · cases he
          cases hg : tabGet ((m, w) :: t) n with
          | none => exact absurd hP (hn hg)
          | some z => exact ⟨z, mem_of_tabGet hg, (hs z hg).1 hP⟩
        · exact ⟨y, hy, hP⟩
      · rintro ⟨y, hy, hP⟩
        exact ⟨y, List.mem_cons_of_mem _ hy, hP⟩
    · split
      · next he => rw [he, hcons, hcons, hs w (by rw [tabGet, if_pos he])]
      · next he =>
        have hget : tabGet ((m, w) :: t) n = tabGet t n := by rw [tabGet, if_neg he]
        rw [hget] at hs hn
        rw [hcons, hcons, ih hs hn]

theorem exists_mem_tabMod {α : Type} {P : α → Prop} {t : Tab α} {n : Nat} {f : α → α} (h : ∀ v, tabGet t n = some v → (P (f v) ↔ P v)) (k : Nat) :
    (∃ w, (k, w) ∈ tabMod t n f ∧ P w) ↔ ∃ w, (k, w) ∈ t ∧ P w := by
  rw [tabMod]
  split
  · next v hv => exact exists_mem_tabSet (fun w hw => by rw [hv] at hw; rw [← Option.some.inj hw]; exact h v hv) (fun hn => by rw [hv] at hn; cases hn) k
  · rfl

theorem State.mem_familyOf {s : State} {p g : Nat} : g ∈ s.familyOf p ↔ ∃ x, (g, x) ∈ s.groups ∧ s.parentOf x.team = p := by
  simp [State.familyOf]

theorem Group.mem_live {x : Group} {l : Nat} : l ∈ x.live ↔ ∃ y, (l, y) ∈ x.lanes ∧ y.fin = false := by
  simp [Group.live]

/-- Lanes changed as to other things than their end are live as before. -/
theorem Group.mem_live_withLanes {x : Group} {ls : List Nat} {f : Nat → Lane → Lane} (hf : ∀ l y, (f l y).fin = y.fin) {k : Nat} :
    k ∈ (x.withLanes ls f).live ↔ k ∈ x.live := by
  rw [Group.mem_live, Group.mem_live, Group.withLanes]
  induction ls generalizing x with
  | nil => rfl
  | cons l ls ih =>
    exact (ih (x := { x with lanes := tabMod x.lanes l (f l) })).trans (exists_mem_tabMod (fun v _ => by rw [hf]) k)

/-- The flush point of a team has come (R61). -/
def State.FlushCome (s : State) (p : Nat) : Prop :=
  (∀ g ∈ s.familyOf p, ∀ l ∈ (s.group g).live, ((s.group g).lane l).park = .flush) ∧ s.packsWait p = false ∧
    ∀ e ∈ s.teams, s.parentOf e.1 = p → e.2.savedLive = false

/-- A lane gone on that waited for the flush point. -/
def Lane.flushed (y : Lane) (clock : Nat) : Lane := if y.park == .flush then { y.advance 1 with stamp := clock } else y

theorem Lane.flushed_flushed (y : Lane) (clock : Nat) : (y.flushed clock).flushed clock = y.flushed clock := by
  by_cases h : (y.park == .flush) = true
  · have hnone : (y.flushed clock).park = .none := by
      rw [Lane.flushed, if_pos h]
      exact y.advance_park 1
    rw [Lane.flushed, hnone]
    rfl
  · have hsame : y.flushed clock = y := if_neg h
    rw [hsame, hsame]

/-- A group of which the lanes that waited for the flush point have gone on. -/
def Group.flushed (x : Group) (clock : Nat) : Group := { x with lanes := tabMap x.lanes fun _ y => y.flushed clock }

theorem State.flushCheck_come {s : State} {p : Nat} (h : s.FlushCome p) :
    s.flushCheck p = (s.familyOf p).foldl (fun t g => t.modGroup g fun x => x.flushed s.clock) (s.packTeam p) := by
  obtain ⟨hwait, hpacks, haway⟩ := h
  rw [State.flushCheck]
  refine if_pos ?_
  rw [hpacks, Bool.and_eq_true, Bool.and_eq_true, Bool.not_eq_true', Bool.not_eq_true', List.any_eq_false]
  refine ⟨⟨List.all_eq_true.2 fun g hg => List.all_eq_true.2 fun l hl => ?_, rfl⟩, fun e he => ?_⟩
  · rw [hwait g hg l hl]
    rfl
  · rw [Bool.and_eq_true, beq_iff_eq, not_and, Bool.not_eq_true]
    exact haway e he

theorem State.flushCheck_not_come {s : State} {p : Nat} (h : ¬ s.FlushCome p) : s.flushCheck p = s := by
  rw [State.flushCheck]
  refine if_neg fun hc => h ?_
  rw [Bool.and_eq_true, Bool.and_eq_true, Bool.not_eq_true', Bool.not_eq_true', List.any_eq_false] at hc
  obtain ⟨⟨hwait, hpacks⟩, haway⟩ := hc
  refine ⟨fun g hg l hl => ?_, hpacks, fun e he hp => ?_⟩
  · exact eq_of_beq (List.all_eq_true.1 (List.all_eq_true.1 hwait g hg) l hl)
  · simpa [hp] using haway e he

theorem Group.flushed_lane {x : Group} {l : Nat} (h : (x.lane l).park = .flush) (clock : Nat) :
    (x.flushed clock).lane l = { (x.lane l).advance 1 with stamp := clock } := by
  unfold Group.lane tabGetD at h ⊢
  rw [Group.flushed, tabGet_tabMap]
  cases hy : tabGet x.lanes l with
  | none => rw [hy] at h; exact absurd h (by decide)
  | some y =>
    rw [hy] at h
    exact if_pos (beq_iff_eq.2 h)

theorem Group.flushed_flushed (x : Group) (clock : Nat) : (x.flushed clock).flushed clock = x.flushed clock := by
  simp [Group.flushed, tabMap, Lane.flushed_flushed]

/-- A change of the groups named that is the same if made twice. -/
theorem State.foldl_modGroup_get {f : Group → Group} (hf : ∀ x, f (f x) = f x) {gs : List Nat} {g : Nat} (hg : g ∈ gs) {s : State} {x : Group}
    (hx : tabGet s.groups g = some x) : tabGet (gs.foldl (fun t g => t.modGroup g f) s).groups g = some (f x) := by
  have hkeep : ∀ (gs : List Nat) (s : State), tabGet s.groups g = some (f x) →
      tabGet (gs.foldl (fun t g => t.modGroup g f) s).groups g = some (f x) := fun gs => by
    induction gs with
    | nil => exact fun _ h => h
    | cons k gs ih =>
      refine fun s h => ih _ ?_
      by_cases hk : g = k
      · rw [← hk, State.modGroup_get h, hf]
      · exact (tabGet_tabMod_ne _ _ hk).trans h
  induction gs generalizing s with
  | nil => cases hg
  | cons k gs ih =>
    by_cases hk : g = k
    · exact hkeep gs _ (by rw [← hk]; exact State.modGroup_get hx f)
    · exact ih ((List.mem_cons.1 hg).resolve_left hk) ((tabGet_tabMod_ne _ _ hk).trans hx)

theorem State.foldl_modGroup_rest (f : Group → Group) (gs : List Nat) (s : State) :
    gs.foldl (fun t g => t.modGroup g f) s = { s with groups := (gs.foldl (fun t g => t.modGroup g f) s).groups } := by
  induction gs generalizing s with
  | nil => rfl
  | cons g gs ih => rw [List.foldl_cons, ih]; rfl

/-! ### BINFLUSH under DET -/

/-- The lanes of the set wait for the flush point. -/
def State.waitsToFlush (s : State) (c : Cx) : State :=
  ((s.irrev c).count (coreOf c.g) c.gr.ctx 4 c.ls.length).modLanes c.g c.ls fun _ y => { y with park := .flush, stamp := s.clock }

theorem exec_binflush_checks {s : State} {c : Cx} (h : s.Ready .binflush c) (hd : c.gr.pkt.det = true) :
    exec .binflush s = .next ((s.waitsToFlush c).flushCheck (s.parentOf c.x.team)) := by
  have hclock : ((s.irrev c).count (coreOf c.g) c.gr.ctx 4 c.ls.length).clock = s.clock := State.count_clock ..
  have hparent : ((s.irrev c).count (coreOf c.g) c.gr.ctx 4 c.ls.length).parentOf c.x.team = s.parentOf c.x.team := by
    rw [State.count_rest]
    rfl
  rw [exec, execBinflush, issue_ready rfl h]
  simp only [hd, if_true, hclock, hparent]
  rfl

theorem State.waitsToFlush_rest (s : State) (c : Cx) :
    s.waitsToFlush c = { s with groups := (s.waitsToFlush c).groups, cores := (s.waitsToFlush c).cores } := by
  rw [State.waitsToFlush, State.count_rest]
  rfl

/-- The group of the set while its lanes wait. -/
def Cx.flushing (c : Cx) (clock : Nat) : Group :=
  (c.x.withLanes c.ls fun _ y => { y with irrev := true }).withLanes c.ls fun _ y => { y with park := .flush, stamp := clock }

theorem State.waitsToFlush_get {s : State} {c : Cx} (h : s.Acts c) : tabGet (s.waitsToFlush c).groups c.g = some (c.flushing s.clock) := by
  refine State.modGroup_get ?_ _
  rw [State.count_groups]
  exact State.modGroup_get (State.inFocus_group h.focus) _

theorem State.waitsToFlush_other (s : State) (c : Cx) {g : Nat} (h : g ≠ c.g) : tabGet (s.waitsToFlush c).groups g = tabGet s.groups g := by
  refine (tabGet_tabMod_ne _ _ h).trans ?_
  rw [State.count_groups]
  exact tabGet_tabMod_ne _ _ h

theorem State.waitsToFlush_lanesOnly {s : State} {c : Cx} (h : s.Acts c) :
    LanesOnly { s with cores := (s.waitsToFlush c).cores } c (s.waitsToFlush c) fun _ y =>
      { y with park := .flush, stamp := s.clock, irrev := true } := by
  have ha : State.Acts { s with cores := (s.waitsToFlush c).cores } c := ⟨h.focus, h.slots, h.distinct⟩
  refine .of_tables ha ?_ (fun g hg => s.waitsToFlush_other c hg) (State.waitsToFlush_get h) (fun _ => rfl) (fun l hl => ?_) fun l hl => ?_
  · rw [s.waitsToFlush_rest c]
  · exact (foldl_tabMod_other _ _ _ _ hl).trans (foldl_tabMod_other _ _ _ _ hl)
  · refine (foldl_tabMod_self _ _ _ _ hl h.distinct).trans ?_
    refine (congrArg _ (foldl_tabMod_self _ _ _ _ hl h.distinct)).trans ?_
    rw [Option.map_map]
    rfl

theorem State.waitsToFlush_mem_familyOf (s : State) (c : Cx) (p g : Nat) :
    g ∈ (s.waitsToFlush c).familyOf p ↔ g ∈ s.familyOf p := by
  have hparent : ∀ x : Group, (s.waitsToFlush c).parentOf x.team = s.parentOf x.team := fun x => by rw [s.waitsToFlush_rest c]; rfl
  simp only [State.mem_familyOf, hparent]
  have hgroups : (s.waitsToFlush c).groups = tabMod (tabMod s.groups c.g fun x => x.withLanes c.ls fun _ y => { y with irrev := true }) c.g
      fun x => x.withLanes c.ls fun _ y => { y with park := .flush, stamp := s.clock } := by
    rw [State.waitsToFlush, State.modLanes, State.modGroup_groups, State.count_groups]
    rfl
  have hteam : ∀ (f : Nat → Lane → Lane) (t : Tab Group),
      (∃ x, (g, x) ∈ tabMod t c.g (fun x => x.withLanes c.ls f) ∧ s.parentOf x.team = p) ↔ ∃ x, (g, x) ∈ t ∧ s.parentOf x.team = p :=
    fun f _ => exists_mem_tabMod (P := fun x : Group => s.parentOf x.team = p) (f := fun x => x.withLanes c.ls f) (fun _ _ => Iff.rfl) g
  rw [hgroups, hteam, hteam]

theorem Cx.flushing_mem_live (c : Cx) (clock l : Nat) : l ∈ (c.flushing clock).live ↔ l ∈ c.x.live :=
  (Group.mem_live_withLanes (by intros; rfl)).trans (Group.mem_live_withLanes (by intros; rfl))

theorem State.count_bins (s : State) (core ctx kind n k : Nat) (P : Tab Bin → Prop) (hP : ¬ P []) :
    (∃ x, (k, x) ∈ (s.count core ctx kind n).cores ∧ P x.bins) ↔ ∃ x, (k, x) ∈ s.cores ∧ P x.bins := by
  simp only [State.count]
  split
  · rfl
  · refine exists_mem_tabSet (P := fun x : Core => P x.bins) (fun w hw => ?_) (fun hn => ?_) k
    · rw [State.core, tabGetD, hw]
      rfl
    · rw [State.core, tabGetD, hn]
      exact hP

theorem State.packsWait_iff (s : State) (p : Nat) : s.packsWait p = true ↔
    ∃ k x, (k, x) ∈ s.cores ∧ (x.bins.any fun b => b.2.closed && b.2.team == p && b.2.grid == (s.team p).grid && 32 ≤ b.1) = true := by
  rw [State.packsWait, List.any_eq_true]
  exact ⟨fun ⟨e, he, h⟩ => ⟨e.1, e.2, he, h⟩, fun ⟨k, x, hx, h⟩ => ⟨(k, x), hx, h⟩⟩

theorem State.waitsToFlush_packsWait (s : State) (c : Cx) (p : Nat) : (s.waitsToFlush c).packsWait p = s.packsWait p := by
  have hteam : (s.waitsToFlush c).team p = s.team p := by rw [s.waitsToFlush_rest c]; rfl
  rw [Bool.eq_iff_iff, State.packsWait_iff, State.packsWait_iff, hteam]
  refine exists_congr fun k => ?_
  exact State.count_bins (s.irrev c) _ _ _ _ k
    (fun t => (t.any fun b => b.2.closed && b.2.team == p && b.2.grid == (s.team p).grid && 32 ≤ b.1) = true) (by simp)

/-- The flush point comes where all others wait for it. -/
theorem State.waitsToFlush_come {s : State} {c : Cx} (h : s.Acts c) (p : Nat) : (s.waitsToFlush c).FlushCome p ↔
    (∀ g ∈ s.familyOf p, ∀ k ∈ (s.group g).live, (g = c.g ∧ k ∈ c.ls) ∨ ((s.group g).lane k).park = .flush) ∧
      s.packsWait p = false ∧ ∀ e ∈ s.teams, s.parentOf e.1 = p → e.2.savedLive = false := by
  have hlanes := State.waitsToFlush_lanesOnly h
  have hself : (s.waitsToFlush c).group c.g = c.flushing s.clock := State.group_of_get (State.waitsToFlush_get h)
  have hparent : ∀ k, (s.waitsToFlush c).parentOf k = s.parentOf k := fun k => by rw [s.waitsToFlush_rest c]; rfl
  have hteams : (s.waitsToFlush c).teams = s.teams := by rw [s.waitsToFlush_rest c]
  have hgroup : ∀ g, (∀ l ∈ ((s.waitsToFlush c).group g).live, (((s.waitsToFlush c).group g).lane l).park = .flush) ↔
      ∀ l ∈ (s.group g).live, (g = c.g ∧ l ∈ c.ls) ∨ ((s.group g).lane l).park = .flush := fun g => by
    by_cases hg : g = c.g
    · subst hg
      refine forall_congr' fun l => ?_
      rw [hself, Cx.flushing_mem_live, h.group]
      refine imp_congr_right fun _ => ?_
      by_cases hl : l ∈ c.ls
      · have hpark := hlanes.active l hl
        rw [hself] at hpark
        simp [hl, hpark]
      · have hidle := hlanes.idle l hl
        rw [hself] at hidle
        simp [hl, Group.lane, tabGetD, hidle]
    · have hother : (s.waitsToFlush c).group g = s.group g := by rw [State.group, tabGetD, s.waitsToFlush_other c hg]; rfl
      simp [hother, hg]
  unfold State.FlushCome
  simp only [s.waitsToFlush_mem_familyOf c, hgroup, hparent, hteams, s.waitsToFlush_packsWait c]

theorem State.packTeam_staging (s : State) (p : Nat) : ((s.packTeam p).team p).staging = [] := by
  have hteam : ∃ n, (s.packTeam p).team p = ((tabGet s.teams p).map fun t => { t with staging := [], packs := t.packs + n }).getD noTeam :=
    ⟨_, by rw [State.team, tabGetD]; exact congrArg (Option.getD · noTeam) (tabGet_tabMod_self ..)⟩
  obtain ⟨n, hn⟩ := hteam
  rw [hn]
  cases tabGet s.teams p <;> rfl

/-- That a lane has waited for the flush point does not change where it goes on. -/
theorem Lane.flushing_advance (y : Lane) (i : Instr) (clock : Nat) :
    ((({ y with park := .flush, stamp := clock, irrev := true } : Lane).advance (sizeOf' i)).pc = (y.advance (sizeOf' i)).pc) ∧
      (({ y with park := .flush, stamp := clock, irrev := true } : Lane).advance (sizeOf' i)).inBody = (y.advance (sizeOf' i)).inBody := by
  refine ⟨by rw [Lane.advance_pc, Lane.advance_pc], ?_⟩
  have hend : ({ y with park := .flush, stamp := clock, irrev := true } : Lane).bodyEnd = y.bodyEnd := rfl
  rw [Lane.advance, Lane.advance, hend]
  by_cases h : y.pc + BitVec.ofNat 64 (4 * sizeOf' i) = y.bodyEnd
  · rw [if_pos h, if_pos h]
    rfl
  · rw [if_neg h, if_neg h]

theorem State.packTeam_rest (s : State) (p : Nat) : s.packTeam p = { s with teams := (s.packTeam p).teams, cores := (s.packTeam p).cores } := rfl

theorem State.flushCheck_come_rest {s : State} {p : Nat} (h : s.FlushCome p) :
    s.flushCheck p = { s with groups := (s.flushCheck p).groups, teams := (s.flushCheck p).teams, cores := (s.flushCheck p).cores } := by
  rw [State.flushCheck_come h, State.foldl_modGroup_rest, s.packTeam_rest p]

theorem State.flushCheck_come_get {s : State} {p g : Nat} {x : Group} (h : s.FlushCome p) (hg : g ∈ s.familyOf p)
    (hx : tabGet s.groups g = some x) : tabGet (s.flushCheck p).groups g = some (x.flushed s.clock) := by
  rw [State.flushCheck_come h]
  exact State.foldl_modGroup_get (f := fun x => x.flushed s.clock) (fun x => x.flushed_flushed _) hg hx

theorem State.flushCheck_come_staging {s : State} {p : Nat} (h : s.FlushCome p) : ((s.flushCheck p).team p).staging = [] := by
  rw [State.flushCheck_come h, State.foldl_modGroup_rest]
  exact s.packTeam_staging p

/-- At its flush point the lists of a team are packed and the lanes of the set go on. -/
theorem exec_binflush_come {s : State} {c : Cx} (h : s.Ready .binflush c) (hd : c.gr.pkt.det = true)
    (hc : (s.waitsToFlush c).FlushCome (s.parentOf c.x.team)) :
    ∃ t, exec .binflush s = .next t ∧ t = { s with groups := t.groups, cores := t.cores, teams := t.teams } ∧ Passed .binflush c t ∧
      (t.team (s.parentOf c.x.team)).staging = [] := by
  have hmem : c.g ∈ (s.waitsToFlush c).familyOf (s.parentOf c.x.team) := by
    rw [s.waitsToFlush_mem_familyOf c]
    exact State.mem_familyOf.2 ⟨c.x, mem_of_tabGet (State.inFocus_group h.focus), rfl⟩
  have hgroup := State.group_of_get (State.flushCheck_come_get hc hmem (State.waitsToFlush_get h.toActs))
  refine ⟨_, exec_binflush_checks h hd, ?_, ⟨by rw [hgroup]; rfl, fun l hl => ?_⟩, State.flushCheck_come_staging hc⟩
  · rw [State.flushCheck_come_rest hc, s.waitsToFlush_rest c]
  · have hactive := (State.waitsToFlush_lanesOnly h.toActs).active l hl
    rw [State.group_of_get (State.waitsToFlush_get h.toActs)] at hactive
    have hpark : ((c.flushing s.clock).lane l).park = .flush := by rw [hactive]
    rw [hgroup, Group.flushed_lane hpark, hactive]
    exact (c.x.lane l).flushing_advance .binflush s.clock

theorem rest_of_storedOnly {s v u t : State} (hv : v = { s with groups := v.groups, teams := v.teams }) (hu : StoredOnly v u)
    (ht : t = { u with groups := t.groups }) :
    t = { s with
      groups := t.groups, cores := t.cores, teams := t.teams, mem := t.mem, stored := t.stored, leases := t.leases
      hostLines := t.hostLines } := by
  unfold StoredOnly at hu
  rw [ht, hu, hv]

/-- Settles O36: an item's bin is the open one of its entry or the lowest free one; under DET the item is staged; BINFLUSH closes the bins of its
grid, or waits for the flush point, which is looked at with the lanes of the set waiting. -/
theorem spawnBins : Obligations.SpawnBins := by
  unfold Obligations.SpawnBins
  intro a b s c l i core entry item bins parent staged spawned binned
  refine ⟨fun _ h hl ha => ⟨?_, ?_, ?_⟩, fun h hd => exec_binflush_closes h hd, fun h hd => ?_⟩
  · intro k q hd hf ho hlen
    exact exec_spawn_binned h hl ha hd (Core.place_joins (i := item) hf ho hlen)
  · intro k hd hn hk hfree hlow
    exact exec_spawn_binned h hl ha hd (Core.place_opens (i := item) hn hk hfree hlow)
  · intro hd hteam
    obtain ⟨t, ht, hrest, hpass, hseq⟩ := exec_spawn_staged h hl ha hd
    have hstored := State.stageItem_storedOnly (s.withStaged c l item) c
    have hteams : t.teams = (s.withStaged c l item).teams := by rw [hrest]; exact hstored.teams
    have hmem : t.mem = ((s.withStaged c l item).stageItem c).mem := by
      have := congrArg State.mem hrest
      exact this
    refine ⟨t, ht, ⟨hpass, hseq⟩, ?_, ?_, ?_⟩
    · rw [State.team, hteams]
      exact State.withStaged_staging l item hteam
    · exact rest_of_storedOnly rfl hstored hrest
    · have hm := (s.withStaged c l item).stageItem_mem c
      rw [(s.withStaged_sameTables c l item).xlateAll] at hm
      rw [hmem]
      simp only [staged, hteams]
      exact hm
  · intro come
    have hiff := State.waitsToFlush_come h.toActs parent
    by_cases hc : come
    · obtain ⟨t, ht, hrest, hgone⟩ := exec_binflush_come h hd (hiff.2 hc)
      exact ⟨t, ht, hrest, fun _ => hgone, fun hn => absurd hc hn⟩
    · refine ⟨_, (exec_binflush_checks h hd).trans (congrArg _ (State.flushCheck_not_come fun hf => hc (hiff.1 hf))), ?_,
        fun hf => absurd hf hc, fun _ => ⟨?_, State.waitsToFlush_lanesOnly h.toActs⟩⟩
      · rw [s.waitsToFlush_rest c]
      · rw [s.waitsToFlush_rest c]

end Sys2Proof.Machine

/-!
SUPPORT. What the units that write completion signals and fired packets change, and the end of a grid.
-/

namespace Sys2Proof.Machine

/-! ### Writes of the units -/

/-- A state in which a unit of the device has at most written memory, queues and counters. -/
def UnitOnly (s t : State) : Prop :=
  t = { s with
    mem := t.mem, stored := t.stored, leases := t.leases, hostLines := t.hostLines, order := t.order, queues := t.queues
    counters := t.counters }

theorem UnitOnly.refl (s : State) : UnitOnly s s := rfl

theorem UnitOnly.trans {s t u : State} (h : UnitOnly s t) (k : UnitOnly t u) : UnitOnly s u := by
  unfold UnitOnly at h k ⊢
  rw [k, h]

theorem StoredOnly.unitOnly {s t : State} (h : StoredOnly s t) : UnitOnly s t := by
  unfold StoredOnly at h
  unfold UnitOnly
  rw [h]

theorem UnitOnly.foldl {α : Type} {f : State → α → State} (hf : ∀ s a, UnitOnly s (f s a)) (l : List α) (s : State) :
    UnitOnly s (l.foldl f s) := by
  induction l generalizing s with
  | nil => exact .refl s
  | cons a l ih => exact (hf s a).trans (ih _)

theorem UnitOnly.ite {s t u : State} {p : Prop} [Decidable p] (ht : UnitOnly s t) (hu : UnitOnly s u) : UnitOnly s (if p then t else u) := by
  split
  · exact ht
  · exact hu

theorem State.modQueue_unitOnly (s : State) (q : Nat) (f : Queue → Queue) : UnitOnly s (s.modQueue q f) := rfl

theorem State.publish_unitOnly (s : State) (key : Nat) (rs : List Rel) : UnitOnly s (s.publish key rs) := rfl

theorem State.touchRead_unitOnly (s : State) (agent pa n : Nat) : UnitOnly s (s.touchRead agent pa n) :=
  UnitOnly.foldl (f := fun t (r : Nat × Nat) => t.readLine agent r.1 r.2) (fun _ _ => rfl) _ s

theorem State.touchVa_unitOnly (s : State) (ctx : Nat) (sys : Bool) (va n : Nat) : UnitOnly s (s.touchVa (unitWho ctx sys) va n) := by
  rw [State.touchVa]
  split
  · exact .refl s
  · refine UnitOnly.foldl (fun t p => ?_) _ s
    cases p.loc with
    | phys pa =>
      simp only [unitWho, lt_irrefl, if_false]
      exact t.touchRead_unitOnly ..
    | spad => exact .refl t

theorem State.putVa_unitOnly {s u : State} {w : Who} {va : Nat} {bs : List Byte} (h : s.putVa w va bs = .ok u) : UnitOnly s u := by
  obtain ⟨ps, -, rfl⟩ := State.putVa_eq_ok h
  exact (State.foldl_putPiece_storedOnly ps (s, bs)).unitOnly

theorem joinPieces_eq_ok {a b : Except (Cause × Nat) (List Piece)} {ps : List Piece} (h : joinPieces a b = .ok ps) :
    ∃ p q, a = .ok p ∧ b = .ok q ∧ ps = p ++ q := by
  cases a with
  | error e => cases b <;> cases h
  | ok p =>
    cases b with
    | error f => cases h
    | ok q => exact ⟨p, q, rfl, rfl, (Except.ok.inj h).symm⟩

/-- Pieces of a translated run lie in memory. -/
theorem State.xlateAll_phys {s : State} {w : Who} {acc : Acc} {va n : Nat} {ps : List Piece} (h : s.xlateAll w acc va n = .ok ps) :
    ∀ p ∈ ps, ∃ pa, p.loc = .phys pa := by
  have hrun : ∀ f va n ps, s.xlateRun w acc f va n = .ok ps → ∀ p ∈ ps, ∃ pa, p.loc = .phys pa := fun f => by
    induction f with
    | zero =>
      intro va n ps h
      cases h
      exact fun p hp => absurd hp List.not_mem_nil
    | succ f ih =>
      intro va n ps h
      rw [State.xlateRun] at h
      split at h
      · cases h
        exact fun p hp => absurd hp List.not_mem_nil
      · obtain ⟨q, r, hq, hr, rfl⟩ := joinPieces_eq_ok h
        refine fun p hp => (List.mem_append.1 hp).elim (fun hp => ?_) (ih _ _ _ hr p)
        split at hq
        · cases hq
        · cases hq
          rw [List.mem_singleton.1 hp]
          exact ⟨_, rfl⟩
  exact hrun _ _ _ _ h

theorem State.stamp_unitOnly {s : State} {loc : Loc} (h : ∃ pa, loc = .phys pa) (n : Nat) (writers : List Nat) (rels : List Rel) :
    UnitOnly s (s.stamp loc n writers rels) ∧ (s.stamp loc n writers rels).mem = s.mem := by
  obtain ⟨pa, rfl⟩ := h
  rw [State.stamp]
  split
  · exact ⟨.refl s, rfl⟩
  · exact ⟨rfl, rfl⟩

/-! ### Completion signals and fired packets -/

theorem State.stamps_unitOnly {ps : List Piece} (h : ∀ p ∈ ps, ∃ pa, p.loc = .phys pa) (rels : List Rel) (s : State) :
    UnitOnly s (ps.foldl (fun t p => t.stamp p.loc p.len [] rels) s) ∧
      (ps.foldl (fun t p => t.stamp p.loc p.len [] rels) s).mem = s.mem := by
  induction ps generalizing s with
  | nil => exact ⟨.refl s, rfl⟩
  | cons p ps ih =>
    obtain ⟨hfirst, hmem⟩ := State.stamp_unitOnly (s := s) (h p List.mem_cons_self) p.len [] rels
    obtain ⟨hrest, hmems⟩ := ih (fun q hq => h q (List.mem_cons_of_mem _ hq)) (s.stamp p.loc p.len [] rels)
    exact ⟨hfirst.trans hrest, hmems.trans hmem⟩

theorem State.putRel_ok {s v : State} {w : Who} {va : Nat} {bs : List Byte} (h : s.putVa w va bs = .ok v) (sc : Scope) (know : Tab Nat) :
    ∃ u, s.putRel w va bs sc know = .ok u ∧ UnitOnly s u ∧ u.mem = v.mem := by
  obtain ⟨ps, hps, -⟩ := State.putVa_eq_ok h
  obtain ⟨hunit, hmem⟩ := State.stamps_unitOnly (State.xlateAll_phys hps) [unitRel sc know] v
  exact ⟨_, by rw [State.putRel, hps, h], (State.putVa_unitOnly h).trans hunit, hmem⟩

theorem State.putRel_error {s : State} {w : Who} {va : Nat} {bs : List Byte} {e : Cause × Nat} (h : s.putVa w va bs = .error e) (sc : Scope)
    (know : Tab Nat) : ∃ f, s.putRel w va bs sc know = .error f := by
  rw [State.putRel, h]
  cases s.xlateAll w .store va bs.length with
  | error f => exact ⟨f, rfl⟩
  | ok ps => exact ⟨e, rfl⟩

theorem State.writeSignal_unitOnly (s : State) (q ctx : Nat) (sys : Bool) (sig status : Nat) (know : Tab Nat) :
    UnitOnly s (s.writeSignal q ctx sys sig status know) := by
  rw [State.writeSignal]
  split
  · exact s.modQueue_unitOnly ..
  · cases hv : s.putVa (unitWho ctx sys) sig (leBytes 8 (signalValue status)) with
    | error e =>
      obtain ⟨f, hf⟩ := State.putRel_error hv .host know
      rw [hf]
      exact s.modQueue_unitOnly ..
    | ok v =>
      obtain ⟨u, hu, hunit, -⟩ := State.putRel_ok hv .host know
      rw [hu]
      exact hunit

/-- A signal that can be written is in memory. -/
theorem State.writeSignal_mem {s v : State} {ctx sig status : Nat} {sys : Bool} (h0 : sig ≠ 0) (h8 : sig % 8 = 0)
    (hv : s.putVa (unitWho ctx sys) sig (leBytes 8 (signalValue status)) = .ok v) (q : Nat) (know : Tab Nat) :
    (s.writeSignal q ctx sys sig status know).mem = v.mem := by
  obtain ⟨u, hu, -, hmem⟩ := State.putRel_ok hv .host know
  rw [State.writeSignal, if_neg (by simp [h0, h8]), hu]
  exact hmem

theorem State.dropHeld_unitOnly (s : State) (q : Nat) (h : Held) : UnitOnly s (s.dropHeld q h) :=
  (s.modQueue_unitOnly q _).trans (.ite (State.writeSignal_unitOnly ..) (.refl _))

theorem State.newHead_unitOnly (s : State) (q : Nat) : UnitOnly s (s.newHead q) :=
  .ite (.refl s) ((s.touchVa_unitOnly ..).trans (State.modQueue_unitOnly ..))

theorem State.pushSlot_unitOnly {s u : State} {q : Nat} {bs : List Byte} (h : s.pushSlot q bs = .ok u) : UnitOnly s u := by
  rw [State.pushSlot] at h
  split at h
  · cases h
  · next s1 h1 =>
    split at h
    · cases h
    · next s2 h2 =>
      rw [← Except.ok.inj h]
      exact ((State.putVa_unitOnly h1).trans (State.putVa_unitOnly h2)).trans
        ((State.modQueue_unitOnly ..).trans (.ite (State.newHead_unitOnly ..) (.refl _)))

theorem State.pushHeld_unitOnly {s u : State} {q : Nat} {h : Held} (hu : s.pushHeld q h = .ok u) : UnitOnly s u := by
  rw [State.pushHeld] at hu
  split at hu
  · cases hu
  · next t ht =>
    rw [← Except.ok.inj hu]
    exact (State.pushSlot_unitOnly ht).trans (State.publish_unitOnly ..)

theorem State.deliver_unitOnly (s : State) (q : Nat) (h : Held) : UnitOnly s (s.deliver q h) := by
  refine .ite (s.dropHeld_unitOnly q h) (.ite (s.modQueue_unitOnly q _) ?_)
  split
  · next ht => exact State.pushHeld_unitOnly ht
  · exact (s.modQueue_unitOnly q _).trans (State.dropHeld_unitOnly ..)

theorem State.fire_unitOnly (s : State) (c : Nat) : UnitOnly s (s.fire c) := by
  refine UnitOnly.trans ?_ (State.deliver_unitOnly ..)
  exact (s.touchVa_unitOnly ..).trans rfl

theorem State.change_unitOnly (s : State) (c : Nat) (d : Int) (know : Tab Nat) : UnitOnly s (s.change c d know) := by
  have hflag : ∀ (t : State) (p : Prop) [Decidable p] (q b : Nat), UnitOnly t (if p then t.flagCounter q c b else t) :=
    fun t _ _ _ _ => .ite (t.modQueue_unitOnly ..) (.refl t)
  have hcounters : ∀ (t : State) (x : Tab Counter), UnitOnly t { t with counters := x } := fun _ _ => rfl
  exact (hflag s _ _ 2).trans ((hflag _ _ _ 3).trans ((hcounters _ _).trans (.ite (State.fire_unitOnly ..) (.refl _))))

/-! ### The end of a grid -/

theorem State.grid_of_get {s : State} {k : Nat} {x : Grid} (h : tabGet s.grids k = some x) : s.grid k = x := by
  rw [State.grid, tabGetD, h, Option.getD_some]

theorem State.modGrid_get {s : State} {k : Nat} {x : Grid} (h : tabGet s.grids k = some x) (f : Grid → Grid) :
    tabGet (s.modGrid k f).grids k = some (f x) := (tabGet_tabMod_self ..).trans (congrArg _ h)

/-- A grid that ends: its effects are visible, its trap records free. -/
def State.freedOf (s : State) (k : Nat) : State :=
  (s.allSee k).modCtx (s.grid k).ctx fun c => { c with records := c.records.filter fun r => r.2.grid != k }

/-- The end of a grid told by its signal. -/
def State.signalledOf (s : State) (k status : Nat) : State :=
  (s.freedOf k).writeSignal (s.grid k).queue (s.grid k).ctx (s.grid k).pkt.sys (s.grid k).pkt.signal.toNat status (s.gridKnows k)

/-- The end of a grid told by its signal and its counter. -/
def State.toldOf (s : State) (k status : Nat) : State :=
  if (s.grid k).pkt.counter < 65536 then (s.signalledOf k status).change (s.grid k).pkt.counter (-1) (s.gridKnows k)
  else s.signalledOf k status

/-- A grid's end noted: no core stays picked for it. -/
def State.endedOf (s : State) (k : Nat) : State :=
  { s with grids := tabMap (tabMod s.grids k fun g => { g with ended := true, progress := none }) fun _ g =>
      { g with picked := g.picked.filter fun p => p.2.2 != some k } }

theorem State.finishGrid_eq (s : State) (k status : Nat) : s.finishGrid k status = ((s.toldOf k status).endedOf k).reapGrid k := rfl

theorem State.reapGrid_eq {s : State} {k : Nat} (he : (s.grid k).ended = true) (hs : ∀ e ∈ s.teams, e.2.grid = k → e.2.shadow = none) :
    s.reapGrid k = { s with grids := tabDel s.grids k, teams := s.teams.filter fun t => t.2.grid != k } := by
  refine if_pos ?_
  rw [he, Bool.true_and, List.all_eq_true]
  intro e hm
  by_cases hk : e.2.grid = k
  · simp [hs e hm hk]
  · simp [hk]

theorem State.reapGrid_rest (s : State) (k : Nat) : s.reapGrid k = { s with grids := (s.reapGrid k).grids, teams := (s.reapGrid k).teams } := by
  rw [State.reapGrid]
  split <;> rfl

theorem State.endedOf_ended {s : State} {k : Nat} (h : (tabGet s.grids k).isSome = true) : ((s.endedOf k).grid k).ended = true := by
  obtain ⟨gr, hg⟩ := Option.isSome_iff_exists.1 h
  have hset : tabGet (s.endedOf k).grids k = some { gr with ended := true, progress := none, picked := gr.picked.filter fun p => p.2.2 != some k } := by
    rw [State.endedOf, tabGet_tabMap, tabGet_tabMod_self, hg]
    rfl
  rw [State.grid_of_get hset]

/-- What a grid that ends leaves as it was besides memory and queues. -/
structure GridEnded (s : State) (k : Nat) (t : State) : Prop where
  groups : t.groups = s.groups
  cores : t.cores = s.cores
  clock : t.clock = s.clock
  gone : (∀ e ∈ s.teams, e.2.grid = k → e.2.shadow = none) → tabGet t.grids k = none

theorem State.allSee_rest (s : State) (k : Nat) : s.allSee k = { s with order := (s.allSee k).order } := by
  rw [State.allSee]
  split <;> rfl

theorem State.freedOf_rest (s : State) (k : Nat) : s.freedOf k = { s with ctxs := (s.freedOf k).ctxs, order := (s.freedOf k).order } := by
  rw [State.freedOf, s.allSee_rest k]
  rfl

/-- A context changed as to other things than its page tables. -/
theorem tabMod_root {t : Tab Ctx} {k : Nat} {f : Ctx → Ctx} (hf : ∀ c, (f c).root = c.root) (j : Nat) :
    (tabGet (tabMod t k f) j).map (·.root) = (tabGet t j).map (·.root) := by
  by_cases h : j = k
  · rw [h, tabGet_tabMod_self, Option.map_map]
    exact congrArg (Option.map · _) (funext hf)
  · rw [tabGet_tabMod_ne _ _ h]

theorem State.freedOf_sameTables (s : State) (k : Nat) : SameTables s (s.freedOf k) := by
  refine ⟨fun _ => ?_, fun j => ?_, ?_, ?_, ?_⟩
  · rw [s.freedOf_rest k]; rfl
  · have hctxs : (s.allSee k).ctxs = s.ctxs := by rw [s.allSee_rest k]
    rw [← hctxs]
    exact tabMod_root (by intro; rfl) j
  · rw [s.freedOf_rest k]
  · rw [s.freedOf_rest k]
  · rw [s.freedOf_rest k]

theorem State.toldOf_unitOnly (s : State) (k status : Nat) : UnitOnly (s.freedOf k) (s.toldOf k status) :=
  .ite ((State.writeSignal_unitOnly ..).trans (State.change_unitOnly ..)) (State.writeSignal_unitOnly ..)

theorem State.toldOf_rest (s : State) (k status : Nat) :
    UnitOnly { s with ctxs := (s.freedOf k).ctxs, order := (s.freedOf k).order } (s.toldOf k status) := by
  rw [← s.freedOf_rest k]
  exact s.toldOf_unitOnly k status

theorem State.finishGrid_ended {s : State} {k : Nat} (h : (tabGet s.grids k).isSome = true) (status : Nat) :
    GridEnded s k (s.finishGrid k status) := by
  have hu := s.toldOf_rest k status
  unfold UnitOnly at hu
  have hgrids : (s.toldOf k status).grids = s.grids := by rw [hu]
  have hteams : (s.toldOf k status).teams = s.teams := by rw [hu]
  rw [State.finishGrid_eq]
  refine ⟨?_, ?_, ?_, fun hs => ?_⟩
  · rw [State.reapGrid_rest, State.endedOf, hu]
  · rw [State.reapGrid_rest, State.endedOf, hu]
  · rw [State.reapGrid_rest, State.endedOf, hu]
  · rw [State.reapGrid_eq (State.endedOf_ended (by rw [hgrids]; exact h)) (by rw [State.endedOf, hteams]; exact hs)]
    exact tabGet_tabDel_self ..

theorem SameTables.trans {s t u : State} (h : SameTables s t) (k : SameTables t u) : SameTables s u :=
  ⟨fun j => (k.tlb j).trans (h.tlb j), fun j => (k.root j).trans (h.root j), k.mem.trans h.mem, k.lost.trans h.lost, k.ovf.trans h.ovf⟩

/-- A signal that can be written before the grid ends is in memory after it, where no counter tells of the end (R68). -/
theorem State.finishGrid_mem {u s v : State} {k status : Nat} {gr : Grid} (ht : SameTables u s) (hg : s.grid k = gr) (h0 : gr.pkt.signal ≠ 0)
    (h8 : gr.pkt.signal.toNat % 8 = 0) (hc : 65536 ≤ gr.pkt.counter)
    (hv : u.putVa (unitWho gr.ctx gr.pkt.sys) gr.pkt.signal.toNat (leBytes 8 (signalValue status)) = .ok v) :
    (s.finishGrid k status).mem = v.mem := by
  obtain ⟨w, hw, -, hmem⟩ := (ht.trans (s.freedOf_sameTables k)).putVa hv
  have h0' : gr.pkt.signal.toNat ≠ 0 := fun h => h0 (BitVec.eq_of_toNat_eq h)
  have htold : s.toldOf k status = s.signalledOf k status := if_neg (by rw [hg]; omega)
  rw [State.finishGrid_eq, State.reapGrid_rest, State.endedOf, htold, State.signalledOf, hg]
  exact (State.writeSignal_mem h0' h8 hw _ _).trans hmem

/-! ### A grid that is aborted -/

theorem Ctx.dropOpener_root (c : Ctx) (k : Nat) : (c.dropOpener k).root = c.root := by
  refine List.foldlRecOn (motive := fun d : Ctx => d.root = c.root) _ _ rfl fun d hd f _ => ?_
  split
  · exact hd
  · exact hd

theorem tabMap_tlb {t : Tab Core} {f : Nat → Core → Core} (hf : ∀ k c, (f k c).tlb = c.tlb) (j : Nat) :
    (tabGetD (tabMap t f) j {}).tlb = (tabGetD t j {}).tlb := by
  rw [tabGetD, tabGetD, tabGet_tabMap]
  cases tabGet t j with
  | none => rfl
  | some c => exact hf j c

theorem State.dropCode_rest (s : State) (ctx : Nat) (cores : Nat → Bool) (base n : Nat) :
    s.dropCode ctx cores base n = { s with cores := (s.dropCode ctx cores base n).cores } ∧
      ∀ j, ((s.dropCode ctx cores base n).core j).tlb = (s.core j).tlb := by
  refine ⟨rfl, fun j => ?_⟩
  rw [State.dropCode, State.core, tabMap_tlb fun k c => by split <;> rfl]
  rfl

theorem State.endIcinvs_rest (s : State) (p : MemOp → Bool) :
    s.endIcinvs p = { s with ops := (s.endIcinvs p).ops, cores := (s.endIcinvs p).cores } ∧
      ∀ j, ((s.endIcinvs p).core j).tlb = (s.core j).tlb := by
  have hfold : ∀ (l : List (Nat × MemOp)) (t : State),
      let u := l.foldl (fun t e => t.dropCode e.2.ctx e.2.reach.contains 0 (2 ^ 64)) t
      u = { t with cores := u.cores } ∧ ∀ j, (u.core j).tlb = (t.core j).tlb := fun l => by
    induction l with
    | nil => exact fun _ => ⟨rfl, fun _ => rfl⟩
    | cons e l ih =>
      intro t
      obtain ⟨hrest, htlb⟩ := t.dropCode_rest e.2.ctx e.2.reach.contains 0 (2 ^ 64)
      obtain ⟨hrest', htlb'⟩ := ih (t.dropCode e.2.ctx e.2.reach.contains 0 (2 ^ 64))
      exact ⟨by rw [hrest] at hrest'; exact hrest', fun j => (htlb' j).trans (htlb j)⟩
  obtain ⟨hrest, htlb⟩ := hfold (s.ops.filter fun e => e.2.icinv && p e.2) s
  refine ⟨?_, htlb⟩
  rw [State.endIcinvs, hrest]

/-- A core without what a grid has on it. -/
def Core.strip (c : Core) (k : Nat) (ours : Nat → Bool) : Core :=
  { c with
    bins := c.bins.filter fun b => b.2.grid != k
    deque := c.deque.filter fun e => e.1 != k
    copyq := c.copyq.filter fun q => !ours q.own.team
    mport := c.mport.filter fun q => !ours q.own.team
    munwaited := c.munwaited.filter fun q => !ours q.own.team }

/-- A context without what a grid has opened in it. -/
def Ctx.strip (c : Ctx) (k : Nat) : Ctx :=
  { c with
    coops := tabMap c.coops fun _ p => p.dropOpener k
    handlers := c.handlers.filter fun n => c.recordGrid n != some k }.dropOpener k

theorem Ctx.strip_root (c : Ctx) (k : Nat) : (c.strip k).root = c.root := Ctx.dropOpener_root _ k

/-- A grid that is aborted: what runs of it has been taken away. -/
def State.strippedOf (s : State) (k : Nat) : State :=
  let ours (t : Nat) : Bool := (s.team t).grid == k
  let s1 := (s.endIcinvs fun o => o.grid == k).dropGroups fun _ x => x.grid == k
  { s1 with
    teams := s1.teams.filter fun t => t.2.grid != k || t.2.shadow.isNone
    cores := tabMap s1.cores fun _ c => c.strip k ours
    colls := s1.colls.filter fun c => c.2.grid != some k &&
      (match c.2.own with | some q => !ours q.team | none => true) }.modCtx (s.grid k).ctx fun c => c.strip k

theorem State.abortGrid_eq (s : State) (k status : Nat) : s.abortGrid k status = (s.strippedOf k).finishGrid k status := rfl

/-- What the taking away leaves: translations and grids as they were, and nothing of the grid. -/
structure Stripped (s : State) (k : Nat) (t : State) : Prop where
  tables : SameTables s t
  grids : t.grids = s.grids
  clock : t.clock = s.clock
  groups : ∀ e ∈ t.groups, e.2.grid ≠ k
  deques : ∀ c, ∀ e ∈ (t.core c).deque, e.1 ≠ k
  teams : ∀ e ∈ t.teams, e.2.grid = k → e.2.shadow = none

theorem State.strippedOf_stripped (s : State) (k : Nat) : Stripped s k (s.strippedOf k) := by
  obtain ⟨hrest, htlb⟩ := s.endIcinvs_rest fun o => o.grid == k
  generalize hu : (s.endIcinvs fun o => o.grid == k) = u at hrest htlb
  have hcores : (s.strippedOf k).cores = tabMap u.cores fun _ c => c.strip k fun t => (s.team t).grid == k := by rw [← hu]; rfl
  have hctxs : (s.strippedOf k).ctxs = tabMod s.ctxs (s.grid k).ctx fun c => c.strip k := by
    rw [show s.ctxs = u.ctxs by rw [hrest], ← hu]
    rfl
  have hframe : (s.strippedOf k).mem = u.mem ∧ (s.strippedOf k).lost = u.lost ∧ (s.strippedOf k).ovf = u.ovf ∧
      (s.strippedOf k).grids = u.grids ∧ (s.strippedOf k).clock = u.clock := by
    rw [← hu]
    exact ⟨rfl, rfl, rfl, rfl, rfl⟩
  obtain ⟨hmem, hlost, hovf, hgrids, hclock⟩ := hframe
  refine ⟨⟨fun j => ?_, fun j => ?_, ?_, ?_, ?_⟩, ?_, ?_, fun e he => ?_, fun c e he => ?_, fun e he hk => ?_⟩
  · rw [State.core, hcores]
    exact (tabMap_tlb (f := fun _ c => c.strip k _) (fun _ _ => rfl) j).trans (htlb j)
  · rw [hctxs]
    exact tabMod_root (fun c => c.strip_root k) j
  · rw [hmem, hrest]
  · rw [hlost, hrest]
  · rw [hovf, hrest]
  · rw [hgrids, hrest]
  · rw [hclock, hrest]
  · have := (List.mem_filter.1 he).2
    simpa using this
  · rw [State.core, hcores, tabGetD, tabGet_tabMap] at he
    cases hc : tabGet u.cores c with
    | none =>
      rw [hc] at he
      exact absurd he List.not_mem_nil
    | some x =>
      rw [hc] at he
      simpa using (List.mem_filter.1 he).2
  · have := (List.mem_filter.1 he).2
    simpa [hk] using this

end Sys2Proof.Machine

/-!
SUPPORT. Teams placed on cores: what a start brings, and what it keeps of other teams and groups.
-/

namespace Sys2Proof.Machine

/-! ### Tables listed in order -/

theorem tabGet_map_key {α : Type} (ls : List Nat) (f : Nat → α) (j : Nat) :
    tabGet (ls.map fun l => (l, f l)) j = if j ∈ ls then some (f j) else none := by
  induction ls with
  | nil => rfl
  | cons l ls ih =>
    rw [List.map_cons, tabGet, ih]
    by_cases h : j = l
    · simp [h]
    · simp [h]

theorem tabGet_map_zip {α β : Type} (ls : List β) (f : β → Nat → α) (j : Nat) :
    tabGet ((ls.zip (upto ls.length)).map fun e => (e.2, f e.1 e.2)) j = (ls[j]?).map fun b => f b j := by
  have hfrom : ∀ (ls : List β) (n j : Nat), tabGet ((ls.zipIdx n).map fun e => (e.2, f e.1 e.2)) (n + j) = (ls[j]?).map fun b => f b (n + j) :=
    fun ls => by
      induction ls with
      | nil => exact fun _ _ => rfl
      | cons b ls ih =>
        intro n j
        rw [List.zipIdx_cons, List.map_cons, tabGet]
        cases j with
        | zero => simp
        | succ j =>
          rw [if_neg (by simp)]
          have := ih (n + 1) j
          rw [show n + 1 + j = n + (j + 1) by omega] at this
          simpa using this
  have := hfrom ls 0 j
  rw [Nat.zero_add, List.zipIdx_eq_zip_range'] at this
  simpa [upto, List.range_eq_range'] using this

/-! ### What a start keeps -/

theorem lowestFree_free {α : Type} {t : Tab α} {i n k : Nat} (h : lowestFree t i n = some k) : tabGet t k = none := by
  induction n generalizing i with
  | zero => cases h
  | succ n ih =>
    rw [lowestFree] at h
    split at h
    · next hfree => rw [← Option.some.inj h]; exact Option.isNone_iff_eq_none.1 hfree
    · exact ih h

/-- A grid of which teams have started: it counts its starts and watches over its progress. -/
def Grid.Onward (x y : Grid) : Prop :=
  y = { x with starts := y.starts, started := y.started, progress := y.progress, paused := y.paused } ∧ (x.started = true → y.started = true)

theorem Grid.Onward.refl (x : Grid) : x.Onward x := ⟨rfl, fun h => h⟩

theorem Grid.Onward.trans {x y z : Grid} (h : x.Onward y) (k : y.Onward z) : x.Onward z := by
  obtain ⟨hy, hs⟩ := h
  obtain ⟨hz, ht⟩ := k
  exact ⟨by rw [hz, hy], ht ∘ hs⟩

/-- Work has started beside the team `n` and the groups that there are: they stand as they were, but that the team may count more groups and be
checked. -/
structure StartsBeside (n : Nat) (s t : State) : Prop where
  cores : t.cores = s.cores
  mem : t.mem = s.mem
  nextId : s.nextId ≤ t.nextId
  groups : ∀ g x, tabGet s.groups g = some x → tabGet t.groups g = some x
  team : ∀ x, tabGet s.teams n = some x → ∃ y : Team, tabGet t.teams n = some y ∧ y = { x with groups := y.groups, checked := y.checked }
  grid : ∀ k x, tabGet s.grids k = some x → ∃ y, tabGet t.grids k = some y ∧ x.Onward y

theorem StartsBeside.refl (n : Nat) (s : State) : StartsBeside n s s :=
  ⟨rfl, rfl, le_rfl, fun _ _ h => h, fun x h => ⟨x, h, rfl⟩, fun _ x h => ⟨x, h, .refl x⟩⟩

theorem StartsBeside.trans {n : Nat} {s t u : State} (h : StartsBeside n s t) (k : StartsBeside n t u) : StartsBeside n s u := by
  refine ⟨k.cores.trans h.cores, k.mem.trans h.mem, h.nextId.trans k.nextId, fun g x hx => k.groups g x (h.groups g x hx), fun x hx => ?_, fun j x hx => ?_⟩
  · obtain ⟨y, hy, he⟩ := h.team x hx
    obtain ⟨z, hz, hf⟩ := k.team y hy
    exact ⟨z, hz, by rw [hf, he]⟩
  · obtain ⟨y, hy, he⟩ := h.grid j x hx
    obtain ⟨z, hz, hf⟩ := k.grid j y hy
    exact ⟨z, hz, he.trans hf⟩

theorem StartsBeside.foldl {α : Type} {n : Nat} {f : State → α → State} (hf : ∀ s a, StartsBeside n s (f s a)) (l : List α) (s : State) :
    StartsBeside n s (l.foldl f s) := by
  induction l generalizing s with
  | nil => exact .refl n s
  | cons a l ih => exact (hf s a).trans (ih _)

theorem State.learnAll_rest (s : State) (team : Nat) (lanes : Tab Lane) (know : Tab Nat) :
    s.learnAll team lanes know = { s with order := (s.learnAll team lanes know).order } := by
  refine List.foldlRecOn (motive := fun t : State => t = { s with order := t.order }) lanes _ rfl fun t ht e _ => ?_
  rw [State.learn]
  split
  · exact ht
  · rw [ht]
    rfl

/-- A change of a grid that lets it go on. -/
theorem StartsBeside.modGrid (n : Nat) (s : State) (k : Nat) {f : Grid → Grid} (hf : ∀ x : Grid, x.Onward (f x)) : StartsBeside n s (s.modGrid k f) := by
  refine ⟨rfl, rfl, le_rfl, fun _ _ h => h, fun x h => ⟨x, h, rfl⟩, fun j x hx => ?_⟩
  by_cases hj : j = k
  · rw [hj] at hx ⊢
    exact ⟨f x, (tabGet_tabMod_self ..).trans (congrArg _ hx), hf x⟩
  · exact ⟨x, (tabGet_tabMod_ne _ _ hj).trans hx, .refl x⟩

/-- A change of a team as to what a start changes. -/
theorem StartsBeside.modTeam (n : Nat) (s : State) (k : Nat) {f : Team → Team}
    (hf : ∀ x, f x = { x with groups := (f x).groups, checked := (f x).checked }) : StartsBeside n s (s.modTeam k f) := by
  refine ⟨rfl, rfl, le_rfl, fun _ _ h => h, fun x hx => ?_, fun _ x h => ⟨x, h, .refl x⟩⟩
  by_cases hn : n = k
  · rw [hn] at hx ⊢
    exact ⟨f x, (tabGet_tabMod_self ..).trans (congrArg _ hx), hf x⟩
  · exact ⟨x, (tabGet_tabMod_ne _ _ hn).trans hx, rfl⟩

theorem State.addGroup_of_free {s : State} {core g : Nat} (h : lowestFree s.groups (core * Config.slotsPerCore) Config.slotsPerCore = some g)
    (x : Group) : s.addGroup core x = { s with
      groups := tabSet s.groups g { x with uid := s.nextId }, nextId := s.nextId + 1, order := (s.addGroup core x).order } := by
  simp only [State.addGroup, h]
  rw [State.learnAll_rest]

theorem StartsBeside.addGroup (n : Nat) (s : State) (core : Nat) (x : Group) : StartsBeside n s (s.addGroup core x) := by
  cases h : lowestFree s.groups (core * Config.slotsPerCore) Config.slotsPerCore with
  | none =>
    have hnone : s.addGroup core x = s := by simp only [State.addGroup, h]
    rw [hnone]
    exact .refl n s
  | some g =>
    rw [State.addGroup_of_free h]
    refine ⟨rfl, rfl, Nat.le_succ _, fun k y hy => ?_, fun y hy => ⟨y, hy, rfl⟩, fun _ y hy => ⟨y, hy, .refl y⟩⟩
    have hne : k ≠ g := by
      rintro rfl
      rw [lowestFree_free h] at hy
      cases hy
    exact (tabGet_tabSet_ne _ _ hne).trans hy

theorem StartsBeside.startGroups (n : Nat) (s : State) (k team tid : Nat) (cores : List Nat) :
    StartsBeside n s (s.startGroups k team tid cores) := by
  refine StartsBeside.foldl (fun t g => ?_) _ s
  simp only
  split
  · exact .refl n t
  · exact (StartsBeside.addGroup n t _ _).trans (StartsBeside.modTeam n _ team (by intro; rfl))

/-- Another team starts. -/
theorem StartsBeside.startTeam {n : Nat} {s : State} (h : n < s.nextId) (k tid : Nat) (cores : List Nat) (lcore : Nat) (shadow : Option Nat) :
    StartsBeside n s (s.startTeam k tid cores lcore shadow) := by
  refine StartsBeside.trans ?_ (StartsBeside.startGroups n _ k s.nextId tid cores)
  refine StartsBeside.trans (t := { s with nextId := s.nextId + 1, teams := tabSet s.teams s.nextId _ }) ?_
    (StartsBeside.modGrid n _ k fun x => ⟨rfl, fun h => h⟩)
  exact ⟨rfl, rfl, Nat.le_succ _, fun _ _ h => h, fun x hx => ⟨x, (tabGet_tabSet_ne _ _ h.ne).trans hx, rfl⟩, fun _ x h => ⟨x, h, .refl x⟩⟩

theorem StartsBeside.rewatch (n : Nat) (s : State) (k : Nat) : StartsBeside n s (s.rewatch k) := by
  rw [State.rewatch]
  refine StartsBeside.modGrid n s k fun x => ?_
  split
  · exact ⟨rfl, fun h => h⟩
  · exact ⟨rfl, fun h => h⟩
  · exact .refl x

theorem StartsBeside.progressed (n : Nat) (s : State) (k : Nat) : StartsBeside n s (s.progressed k) :=
  StartsBeside.modGrid n s k fun _ => ⟨rfl, fun h => h⟩

theorem StartsBeside.startCheck {n : Nat} {s : State} (h : n < s.nextId) (k team tid : Nat) (cores : List Nat) (lcore : Nat) :
    StartsBeside n s (s.startCheck k team tid cores lcore) := by
  rw [State.startCheck]
  split
  · split
    · exact ⟨rfl, rfl, le_rfl, fun _ _ h => h, fun x h => ⟨x, h, rfl⟩, fun _ x h => ⟨x, h, .refl x⟩⟩
    · exact (StartsBeside.modTeam n s team (f := fun t => { t with checked := true }) (fun _ => rfl)).trans
        (StartsBeside.startTeam (s := s.modTeam team fun t => { t with checked := true }) h ..)
  · exact .refl n s

/-! ### A team placed -/

/-- The lowest free slot of a core, as the words of an obligation name it. -/
theorem lowestFree_slot {t : Tab Group} {core slot : Nat} (hc : slot / 64 = core) (hs : tabGet t slot = none)
    (hlow : ∀ n < slot, n / 64 = core → (tabGet t n).isSome = true) :
    lowestFree t (core * Config.slotsPerCore) Config.slotsPerCore = some slot :=
  lowestFree_eq hs (core * 64) 64 (by omega) (by omega) fun j hj hlt => hlow j hlt (by omega)

/-- The threads of a group of an ordinary team stand in all its lanes, at the entry. -/
theorem Grid.threads_get {gr : Grid} (h : gr.pkt.kind = 1) (tid g clock : Nat) {l : Nat} (hl : l < 32) :
    tabGet (gr.threads tid g clock) l = some (newLane gr.pkt.entry (32 * g + l) (32 * g + l) [] none clock) := by
  have hthread : ∀ l, gr.thread tid g l clock = some (newLane gr.pkt.entry (32 * g + l) (32 * g + l) [] none clock) := fun l =>
    if_neg (by rw [h]; decide)
  have hall : gr.threads tid g clock = (upto 32).map fun l => (l, newLane gr.pkt.entry (32 * g + l) (32 * g + l) [] none clock) := by
    simp only [Grid.threads, hthread, Option.map_some, List.filterMap_eq_map']
  rw [hall, tabGet_map_key, if_pos (show l ∈ upto 32 from List.mem_range.2 hl)]

theorem State.addGroup_get {s : State} {core g : Nat} (h : lowestFree s.groups (core * Config.slotsPerCore) Config.slotsPerCore = some g)
    (x : Group) : tabGet (s.addGroup core x).groups g = some { x with uid := s.nextId } := by
  rw [State.addGroup_of_free h]
  exact tabGet_tabSet_self ..

/-- The one group of a team of 32 threads. -/
theorem State.startGroups_one {s : State} {k team tid core slot : Nat} {gr : Grid} (hg : s.grid k = gr) (hk : gr.pkt.kind = 1)
    (hn : gr.pkt.teamSize = 32) (h : lowestFree s.groups (core * Config.slotsPerCore) Config.slotsPerCore = some slot) :
    tabGet (s.startGroups k team tid [core]).groups slot =
      some { newGroup k team 0 (gr.pkt.roleOf 0) gr.pkt.args (gr.threads tid 0 s.clock) gr.pkt.det with uid := s.nextId } := by
  have hne : gr.threads tid 0 s.clock ≠ [] := fun he => by
    have := Grid.threads_get hk tid 0 s.clock (l := 0) (by decide)
    rw [he] at this
    cases this
  have hone : gr.pkt.groups = 1 := by rw [Packet.groups, hn]
  have hstart : s.startGroups k team tid [core] =
      (s.addGroup core (newGroup k team 0 (gr.pkt.roleOf 0) gr.pkt.args (gr.threads tid 0 s.clock) gr.pkt.det)).modTeam team fun t =>
        { t with groups := t.groups + 1 } := by
    rw [State.startGroups, hg, hone]
    exact if_neg hne
  rw [hstart]
  exact State.addGroup_get h _

/-- The team that a start makes. -/
def State.newTeam (s : State) (k tid : Nat) (cores : List Nat) (lcore : Nat) (shadow : Option Nat) : Team :=
  { grid := k, tid := tid, cores := cores, lcore := lcore, started := s.clock
    shadow := shadow.map fun p => { primary := p }
    slices := (upto cores.length).map fun j => (j, newSlice (s.grid k).rings (s.nextId * 1024 + j)) }

/-- A team made, and its grid marked, before its groups start. -/
def State.withTeam (s : State) (k tid : Nat) (cores : List Nat) (lcore : Nat) (shadow : Option Nat) : State :=
  State.modGrid { s with nextId := s.nextId + 1, teams := tabSet s.teams s.nextId (s.newTeam k tid cores lcore shadow) } k fun gr =>
    gr.mark cores s.clock

theorem State.startTeam_eq (s : State) (k tid : Nat) (cores : List Nat) (lcore : Nat) (shadow : Option Nat) :
    s.startTeam k tid cores lcore shadow = (s.withTeam k tid cores lcore shadow).startGroups k s.nextId tid cores := rfl

/-- A team of a grid has been placed: beside it nothing is as it was not, but that the grid is started. -/
structure TeamPlaced (s : State) (k : Nat) (gr : Grid) (tid : Nat) (cores : List Nat) (lcore : Nat) (t : State) : Prop where
  kept : t.cores = s.cores
  team : ∃ y : Team, tabGet t.teams s.nextId = some y ∧
    y = { s.newTeam k tid cores lcore none with groups := y.groups, checked := y.checked }
  grid : ∃ y : Grid, tabGet t.grids k = some y ∧ gr.Onward y ∧ y.started = true
  group : ∀ core slot, gr.pkt.kind = 1 → gr.pkt.teamSize = 32 → cores = [core] →
    lowestFree s.groups (core * Config.slotsPerCore) Config.slotsPerCore = some slot →
    ∃ uid, tabGet t.groups slot =
      some { newGroup k s.nextId 0 (gr.pkt.roleOf 0) gr.pkt.args (gr.threads tid 0 s.clock) gr.pkt.det with uid := uid }

/-- A start of a grid noted: its first is a progress event, a later one may set its watchdog going again (R212). -/
def State.countStart (s : State) (k : Nat) (first : Bool) : State :=
  if first then (s.modGrid k fun gr => { gr with started := true }).progressed k else s.rewatch k

theorem State.placeTeam_eq (s : State) (k tid : Nat) (cores : List Nat) (lcore : Nat) : s.placeTeam k tid cores lcore =
    ((s.startTeam k tid cores lcore none).countStart k (!(s.grid k).started)).startCheck k s.nextId tid cores lcore := by
  rw [State.placeTeam, State.countStart]
  cases (s.grid k).started <;> rfl

theorem State.countStart_grid {s : State} {k : Nat} {x : Grid} (h : tabGet s.grids k = some x) {first : Bool}
    (hs : first = false → x.started = true) (n : Nat) : StartsBeside n s (s.countStart k first) ∧
      ∃ y, tabGet (s.countStart k first).grids k = some y ∧ x.Onward y ∧ y.started = true := by
  cases first with
  | false =>
    have hb := StartsBeside.rewatch n s k
    obtain ⟨y, hy, ho⟩ := hb.grid k x h
    exact ⟨hb, y, hy, ho, ho.2 (hs rfl)⟩
  | true =>
    have hb := StartsBeside.modGrid n s k (f := fun gr => { gr with started := true }) fun x => ⟨rfl, fun _ => rfl⟩
    have hp := StartsBeside.progressed n (s.modGrid k fun gr => { gr with started := true }) k
    obtain ⟨y, hy, ho⟩ := hp.grid k _ (State.modGrid_get h _)
    exact ⟨hb.trans hp, y, hy, Grid.Onward.trans ⟨rfl, fun _ => rfl⟩ ho, ho.2 rfl⟩

theorem State.placeTeam_placed {s : State} {k : Nat} {gr : Grid} (h : tabGet s.grids k = some gr) (tid : Nat) (cores : List Nat) (lcore : Nat) :
    TeamPlaced s k gr tid cores lcore (s.placeTeam k tid cores lcore) := by
  have hgrid := State.grid_of_get h
  have hmade : tabGet (s.withTeam k tid cores lcore none).teams s.nextId = some (s.newTeam k tid cores lcore none) := tabGet_tabSet_self ..
  have hmark : tabGet (s.withTeam k tid cores lcore none).grids k = some (gr.mark cores s.clock) :=
    State.modGrid_get h _
  have hbegun : StartsBeside s.nextId (s.withTeam k tid cores lcore none) (s.startTeam k tid cores lcore none) := by
    rw [State.startTeam_eq]
    exact .startGroups ..
  obtain ⟨w, hw, hon⟩ := hbegun.grid k _ hmark
  obtain ⟨hcount, y, hy, ho, hys⟩ := State.countStart_grid hw (first := !(s.grid k).started)
    (fun hf => hon.2 (by rw [hgrid] at hf; simpa [Grid.mark] using hf)) s.nextId
  have hcheck : StartsBeside s.nextId ((s.startTeam k tid cores lcore none).countStart k (!(s.grid k).started))
      (s.placeTeam k tid cores lcore) := by
    rw [State.placeTeam_eq]
    exact .startCheck (Nat.lt_of_lt_of_le (Nat.lt_succ_self _) (hbegun.nextId.trans hcount.nextId)) ..
  have hall := hbegun.trans (hcount.trans hcheck)
  refine ⟨hall.cores, hall.team _ hmade, ?_, fun core slot hk hn hc hfree => ?_⟩
  · obtain ⟨z, hz, hoz⟩ := hcheck.grid k y hy
    exact ⟨z, hz, (Grid.Onward.trans ⟨rfl, fun h => h⟩ (hon.trans ho)).trans hoz, hoz.2 hys⟩
  · have hmarked := State.grid_of_get hmark
    have hone := State.startGroups_one (s := s.withTeam k tid cores lcore none) (team := s.nextId) (tid := tid) hmarked hk hn hfree
    rw [← hc, ← State.startTeam_eq] at hone
    exact ⟨_, (hcount.trans hcheck).groups slot _ hone⟩

end Sys2Proof.Machine

/-!
SUPPORT. Teams dealt to deques, and saves asked for of teams that leave cores.
-/

namespace Sys2Proof.Machine

/-! ### Teams dealt -/

theorem State.grid_modGrid_started (s : State) (k : Nat) {f : Grid → Grid} (hf : ∀ x, (f x).started = x.started) (j : Nat) :
    ((s.modGrid k f).grid j).started = (s.grid j).started := by
  unfold State.grid tabGetD State.modGrid
  by_cases hj : j = k
  · rw [hj, tabGet_tabMod_self]
    cases tabGet s.grids k with
    | none => rfl
    | some x => exact hf x
  · rw [tabGet_tabMod_ne _ _ hj]

/-- Dealing changes deques, and of grids how many teams are dealt. -/
theorem State.dealUpTo_keeps (f : Nat) (s : State) (k : Nat) : (s.dealUpTo f k).teams = s.teams ∧ (s.dealUpTo f k).groups = s.groups ∧
    ∀ j, ((s.dealUpTo f k).grid j).started = (s.grid j).started := by
  induction f generalizing s with
  | zero => exact ⟨rfl, rfl, fun _ => rfl⟩
  | succ f ih =>
    rw [State.dealUpTo_succ]
    split
    · exact ⟨rfl, rfl, fun _ => rfl⟩
    · split
      · exact ⟨rfl, rfl, fun _ => rfl⟩
      · next c _ =>
        obtain ⟨hteams, hgroups, hstarted⟩ := ih
          ((s.modCore c fun q => { q with deque := q.deque ++ [(k, (s.grid k).dealt)] }).modGrid k fun g => { g with dealt := g.dealt + 1 })
        exact ⟨hteams, hgroups, fun j => (hstarted j).trans (State.grid_modGrid_started _ k (by intro; rfl) j)⟩

/-- Where every team is dealt, no other one is. -/
theorem State.deal_of_dealt {s : State} {k : Nat} (h : (s.grid k).teams ≤ (s.grid k).dealt) : s.deal k = s := by
  rw [State.deal, show 8 * Config.cores = 5119 + 1 from rfl, State.dealUpTo_succ]
  exact if_pos (by rw [Bool.or_eq_true]; exact Or.inr (decide_eq_true h))

/-! ### Saves asked for -/

/-- What the asking for saves keeps: of a group only its team of bin groups may be another, of a team on cores of its own only its save. -/
structure SavesAsked (s t : State) : Prop where
  cores : t.cores = s.cores
  nextId : s.nextId ≤ t.nextId
  groups : ∀ g x, tabGet s.groups g = some x → ∃ m, tabGet t.groups g = some { x with team := m }
  sections : ∀ c, t.sectionOn c = s.sectionOn c
  grid : ∀ k x, tabGet s.grids k = some x → ∃ y : Grid, tabGet t.grids k = some y ∧ y = { x with progress := y.progress, paused := y.paused }
  team : ∀ j x, j < s.nextId → tabGet s.teams j = some x → x.cores ≠ [] → ∃ y : Team, tabGet t.teams j = some y ∧
    y = { x with saving := y.saving, saveAuto := y.saveAuto } ∧ (x.saving.isSome = true → y.saving.isSome = true)
  shadows : (∀ e ∈ s.teams, e.2.shadow = none) → ∀ e ∈ t.teams, e.2.shadow = none

theorem SavesAsked.refl (s : State) : SavesAsked s s :=
  ⟨rfl, le_rfl, fun _ x h => ⟨x.team, h⟩, fun _ => rfl, fun _ x h => ⟨x, h, rfl⟩, fun _ x _ h _ => ⟨x, h, rfl, fun h => h⟩, fun h => h⟩

theorem SavesAsked.trans {s t u : State} (h : SavesAsked s t) (k : SavesAsked t u) : SavesAsked s u := by
  refine ⟨k.cores.trans h.cores, h.nextId.trans k.nextId, fun g x hx => ?_, fun c => (k.sections c).trans (h.sections c), fun j x hx => ?_,
    fun j x hj hx hc => ?_, fun hs => k.shadows (h.shadows hs)⟩
  · obtain ⟨m, hm⟩ := h.groups g x hx
    obtain ⟨n, hn⟩ := k.groups g _ hm
    exact ⟨n, hn⟩
  · obtain ⟨y, hy, he⟩ := h.grid j x hx
    obtain ⟨z, hz, hf⟩ := k.grid j y hy
    exact ⟨z, hz, by rw [hf, he]⟩
  · obtain ⟨y, hy, he, hs⟩ := h.team j x hj hx hc
    obtain ⟨z, hz, hf, ht⟩ := k.team j y (hj.trans_le h.nextId) hy (by rw [he]; exact hc)
    exact ⟨z, hz, by rw [hf, he], ht ∘ hs⟩

theorem SavesAsked.foldl {α : Type} {f : State → α → State} (hf : ∀ s a, SavesAsked s (f s a)) (l : List α) (s : State) :
    SavesAsked s (l.foldl f s) := by
  induction l generalizing s with
  | nil => exact .refl s
  | cons a l ih => exact (hf s a).trans (ih _)

theorem State.sectionOn_iff (s : State) (c : Nat) : s.sectionOn c = true ↔
    ∃ g x, (g, x) ∈ s.groups ∧ (coreOf g == c && x.lanes.any fun l => l.2.inSect) = true := by
  rw [State.sectionOn, List.any_eq_true]
  exact ⟨fun ⟨e, he, h⟩ => ⟨e.1, e.2, he, h⟩, fun ⟨g, x, hx, h⟩ => ⟨(g, x), hx, h⟩⟩

/-- A group that joins another team. -/
theorem SavesAsked.moveGroup (s : State) (g team : Nat) : SavesAsked s (s.moveGroup g team) := by
  refine ⟨rfl, le_rfl, fun k x hx => ?_, fun c => ?_, fun _ x h => ⟨x, h, rfl⟩, fun _ x _ h _ => ⟨x, h, rfl, fun h => h⟩, fun h => h⟩
  · by_cases hk : k = g
    · rw [hk] at hx ⊢
      exact ⟨team, (tabGet_tabMod_self ..).trans (congrArg _ hx)⟩
    · exact ⟨x.team, (tabGet_tabMod_ne _ _ hk).trans hx⟩
  · rw [Bool.eq_iff_iff, State.sectionOn_iff, State.sectionOn_iff]
    refine exists_congr fun k => ?_
    exact exists_mem_tabMod (P := fun x : Group => (coreOf k == c && x.lanes.any fun l => l.2.inSect) = true)
      (f := fun x => { x with team := team }) (fun _ _ => Iff.rfl) k

theorem mem_tabMod {α : Type} {t : Tab α} {n : Nat} {f : α → α} {e : Nat × α} (h : e ∈ tabMod t n f) :
    e ∈ t ∨ ∃ v, (n, v) ∈ t ∧ e = (n, f v) := by
  rw [tabMod] at h
  split at h
  · next v hv => exact (mem_tabSet h).elim (fun he => .inr ⟨v, mem_of_tabGet hv, he⟩) .inl
  · exact .inl h

theorem State.team_shadow_none {s : State} (h : ∀ e ∈ s.teams, e.2.shadow = none) (k : Nat) : (s.team k).shadow = none := by
  rw [State.team, tabGetD]
  cases hk : tabGet s.teams k with
  | none => rfl
  | some x => exact h _ (mem_of_tabGet hk)

/-- A team of bin groups that gives some of them to a new team. -/
theorem SavesAsked.splitOff {s : State} {k : Nat} (hk : (s.team k).cores = []) {f : Team → Team} (hf : ∀ x, (f x).shadow = x.shadow) {own : Team}
    (ho : own.shadow = (s.team k).shadow) :
    SavesAsked s { s with nextId := s.nextId + 1, teams := tabSet (tabMod s.teams k f) s.nextId own } := by
  refine ⟨rfl, Nat.le_succ _, fun _ x h => ⟨x.team, h⟩, fun _ => rfl, fun _ x h => ⟨x, h, rfl⟩, fun j x hj hx hc => ?_, fun hs e he => ?_⟩
  · have hne : j ≠ k := by
      rintro rfl
      rw [State.team, tabGetD, hx] at hk
      exact hc hk
    exact ⟨x, (tabGet_tabSet_ne _ _ hj.ne).trans ((tabGet_tabMod_ne _ _ hne).trans hx), rfl, fun h => h⟩
  · rcases mem_tabSet he with rfl | he
    · exact ho.trans (State.team_shadow_none hs k)
    · rcases mem_tabMod he with he | ⟨v, hv, rfl⟩
      · exact hs e he
      · exact (hf v).trans (hs _ hv)

/-- Bin groups made a team of their own. -/
theorem SavesAsked.splitTeam (s : State) (core k : Nat) : SavesAsked s (s.splitTeam core k) := by
  unfold State.splitTeam
  simp only
  split
  · exact .refl s
  · next h =>
    have hcores : (s.team k).cores = [] := by
      rw [Bool.or_eq_true, Bool.or_eq_true, not_or, not_or] at h
      obtain ⟨⟨-, hempty⟩, -⟩ := h
      simpa using hempty
    refine SavesAsked.trans ?_ (SavesAsked.foldl (fun t g => .moveGroup t g s.nextId) _ _)
    exact SavesAsked.splitOff hcores (by intro; rfl) rfl

theorem SavesAsked.splitBins (s : State) (grid : Option Nat) (core : Nat) : SavesAsked s (s.splitBins grid core) := by
  refine SavesAsked.foldl (fun t e => ?_) _ s
  split
  · exact .splitTeam t core e.1
  · exact .refl t

theorem SavesAsked.rewatch (s : State) (k : Nat) : SavesAsked s (s.rewatch k) := by
  refine ⟨rfl, le_rfl, fun _ x h => ⟨x.team, h⟩, fun _ => rfl, fun j x hx => ?_, fun _ x _ h _ => ⟨x, h, rfl, fun h => h⟩, fun h => h⟩
  by_cases hj : j = k
  · rw [hj] at hx ⊢
    refine ⟨_, (tabGet_tabMod_self ..).trans (congrArg _ hx), ?_⟩
    beta_reduce
    split <;> rfl
  · exact ⟨x, (tabGet_tabMod_ne _ _ hj).trans hx, rfl⟩

/-- A save asked for of a team. -/
theorem SavesAsked.modTeam (s : State) (k : Nat) (auto : Bool) :
    SavesAsked s (s.modTeam k fun x => { x with saving := some s.clock, saveAuto := auto }) := by
  refine ⟨rfl, le_rfl, fun _ x h => ⟨x.team, h⟩, fun _ => rfl, fun _ x h => ⟨x, h, rfl⟩, fun j x _ hx _ => ?_, fun hs e he => ?_⟩
  · by_cases hj : j = k
    · rw [hj] at hx ⊢
      exact ⟨_, (tabGet_tabMod_self ..).trans (congrArg _ hx), rfl, fun _ => rfl⟩
    · exact ⟨x, (tabGet_tabMod_ne _ _ hj).trans hx, rfl, fun h => h⟩
  · rcases mem_tabMod he with he | ⟨v, hv, rfl⟩
    · exact hs e he
    · exact hs (k, v) hv

theorem State.askSave_eq {s : State} {j : Nat} {abandon : Bool} (h : abandon = false ∨ s.shadowOf j = none) (auto : Bool) :
    s.askSave j auto abandon = if (s.team j).finished || (s.team j).saving.isSome || (s.team j).saved.isSome then s
      else (s.modTeam j fun x => { x with saving := some s.clock, saveAuto := auto }).rewatch (s.team j).grid := by
  rw [State.askSave]
  simp only
  split
  · rfl
  · rcases h with rfl | h
    · cases s.shadowOf j <;> rfl
    · rw [h]

theorem SavesAsked.askSave {s : State} {j : Nat} {abandon : Bool} (h : abandon = false ∨ s.shadowOf j = none) (auto : Bool) :
    SavesAsked s (s.askSave j auto abandon) := by
  rw [State.askSave_eq h]
  split
  · exact .refl s
  · exact (SavesAsked.modTeam s j auto).trans (SavesAsked.rewatch _ _)

/-- The team of which a save is asked for has one asked for. -/
theorem State.askSave_saving {s : State} {j : Nat} {abandon : Bool} (h : abandon = false ∨ s.shadowOf j = none) (auto : Bool) {x : Team}
    (hx : tabGet s.teams j = some x) (hf : x.finished = false) (hs : x.saved = none) :
    ∃ y : Team, tabGet (s.askSave j auto abandon).teams j = some y ∧ y.saving.isSome = true := by
  have hteam : s.team j = x := by rw [State.team, tabGetD, hx]; rfl
  rw [State.askSave_eq h, hteam, hf, hs]
  cases hsv : x.saving with
  | some n => exact ⟨x, hx, by rw [hsv]; rfl⟩
  | none => exact ⟨_, (tabGet_tabMod_self ..).trans (congrArg _ hx), rfl⟩

theorem SavesAsked.quiesceSaves (s : State) (cores : List Nat) : SavesAsked s (s.quiesceSaves cores) := by
  unfold State.quiesceSaves
  refine SavesAsked.trans (SavesAsked.foldl (fun t core => SavesAsked.foldl (fun t e => ?_) t.grids t) cores s) (SavesAsked.foldl (fun t e => ?_) _ _)
  · split
    · exact .splitBins t _ core
    · exact .refl t
  · split
    · exact .askSave (.inl rfl) true
    · exact .refl t

end Sys2Proof.Machine

/-!
PROOFS. O54: what the Drover does.
-/

namespace Sys2Proof.Machine

/-! ### Teams placed -/

/-- A team of grid `k` stands placed, and where it is one group on one core that group stands at its entry in the lowest free slot (log 67). -/
def Placed (s : State) (k : Nat) (gr : Grid) (tid : Nat) (cores : List Nat) (lcore : Nat) (t : State) : Prop :=
  (∃ tm, tabGet t.teams s.nextId = some tm ∧ tm.grid = k ∧ tm.tid = tid ∧ tm.cores = cores ∧ tm.lcore = lcore ∧ tm.shadow = none ∧
    tm.saved = none ∧ tm.finished = false) ∧ (t.grid k).started = true ∧
  ∀ core slot, gr.pkt.kind = 1 → gr.pkt.teamSize = 32 → cores = [core] → slot / 64 = core → tabGet s.groups slot = none →
    (∀ n < slot, n / 64 = core → (tabGet s.groups n).isSome = true) →
    ∃ x, tabGet t.groups slot = some x ∧ x.grid = k ∧ x.team = s.nextId ∧ x.gidx = 0 ∧
      x.sregs = [(0, gr.pkt.args.setWidth 32), (1, (gr.pkt.args >>> 32).setWidth 32)] ∧
      ∀ l < 32, ∃ z, tabGet x.lanes l = some z ∧ z.pc = gr.pkt.entry ∧ z.inBody = false ∧ z.fin = false ∧ z.regs = [] ∧ z.tix = l

/-- A team stays placed while others are dealt. -/
theorem TeamPlaced.placed {s t u : State} {k tid lcore : Nat} {gr : Grid} {cores : List Nat} (h : TeamPlaced s k gr tid cores lcore t)
    (hteams : u.teams = t.teams) (hgroups : u.groups = t.groups) (hstarted : (u.grid k).started = (t.grid k).started) :
    Placed s k gr tid cores lcore u := by
  refine ⟨?_, ?_, fun core slot hk hn hc hs hfree hlow => ?_⟩
  · obtain ⟨y, hy, he⟩ := h.team
    rw [hteams]
    exact ⟨y, hy, by rw [he]; rfl, by rw [he]; rfl, by rw [he]; rfl, by rw [he]; rfl, by rw [he]; rfl, by rw [he]; rfl, by rw [he]; rfl⟩
  · obtain ⟨y, hy, -, hys⟩ := h.grid
    rw [hstarted, State.grid_of_get hy]
    exact hys
  · obtain ⟨uid, hx⟩ := h.group core slot hk hn hc (lowestFree_slot hs hfree hlow)
    rw [hgroups]
    refine ⟨_, hx, rfl, rfl, rfl, rfl, fun l hl => ⟨_, Grid.threads_get hk tid 0 s.clock hl, rfl, rfl, rfl, rfl, ?_⟩⟩
    exact (congrArg (· + l) (Nat.mul_zero 32)).trans (Nat.zero_add l)

theorem exec_teamPlace_places {s : State} {k tid lcore : Nat} {gr : Grid} {cores : List Nat} (h : tabGet s.grids k = some gr)
    (hw : s.savedWaits k = false) (hp : s.placeable k gr = some (tid, cores, lcore)) :
    ∃ t, exec (.teamPlace k) s = .next t ∧ Placed s k gr tid cores lcore t ∧ (t.grid k).dealt = gr.dealt + 1 := by
  have hplaced := State.placeTeam_placed (State.modGrid_get h fun g => { g with dealt := g.dealt + 1 }) tid cores lcore
  refine ⟨_, ?_, hplaced.placed rfl rfl rfl, ?_⟩
  · rw [exec, execTeamPlace, h]
    simp only [hw, hp, Bool.false_eq_true, if_false]
  · obtain ⟨y, hy, ho, -⟩ := hplaced.grid
    rw [State.grid_of_get hy, ho.1]

/-- A dealt team that starts is placed, and where every team is dealt already the deques stay as they are. -/
theorem State.startDealt_places {s : State} {k tid core : Nat} {gr : Grid} (h : tabGet s.grids k = some gr) :
    Placed s k gr tid [core] 0 (s.startDealt core (k, tid)) ∧ (gr.teams ≤ gr.dealt → (s.startDealt core (k, tid)).cores = s.cores) := by
  have hplaced := State.placeTeam_placed h tid [core] 0
  obtain ⟨hteams, hgroups, hstarted⟩ := State.dealUpTo_keeps (8 * Config.cores) (s.placeTeam k tid [core] 0) k
  refine ⟨hplaced.placed hteams hgroups (hstarted k), fun hd => ?_⟩
  obtain ⟨y, hy, ho, -⟩ := hplaced.grid
  have hgrid := State.grid_of_get hy
  have hdealt : s.startDealt core (k, tid) = s.placeTeam k tid [core] 0 := State.deal_of_dealt (by rw [hgrid, ho.1]; exact hd)
  rw [hdealt]
  exact hplaced.kept

theorem State.core_modCore_self (s : State) (k : Nat) (f : Core → Core) : (s.modCore k f).core k = f (s.core k) :=
  (s.core_tabSet k _ k).trans (if_pos rfl)

theorem exec_ownerPop_places {s : State} {k tid core : Nat} {gr : Grid} (h : tabGet s.grids k = some gr)
    (hq : (s.core core).deque.getLast? = some (k, tid)) (hc : s.canStart core (k, tid) = true) :
    ∃ t, exec (.ownerPop core) s = .next t ∧ Placed s k gr tid [core] 0 t ∧
      (gr.teams ≤ gr.dealt → (t.core core).deque = (s.core core).deque.dropLast) := by
  obtain ⟨hplaced, hcores⟩ := State.startDealt_places (s := s.modCore core fun q => { q with deque := q.deque.dropLast }) (tid := tid)
    (core := core) h
  refine ⟨_, ?_, hplaced, fun hd => ?_⟩
  · rw [exec, execOwnerPop, hq]
    exact if_pos hc
  · rw [State.core, hcores hd]
    exact congrArg Core.deque (s.core_modCore_self core _)

theorem exec_thiefSteal_places {s : State} {k tid core v : Nat} {gr : Grid} {rest : List (Nat × Nat)} (h : tabGet s.grids k = some gr)
    (he : (s.core core).deque = []) (hv : s.stealFrom core = some v) (hq : (s.core v).deque = (k, tid) :: rest)
    (hc : s.canStart core (k, tid) = true) :
    ∃ t, exec (.thiefSteal core) s = .next t ∧ Placed s k gr tid [core] 0 t ∧ (gr.teams ≤ gr.dealt → (t.core v).deque = rest) := by
  obtain ⟨hplaced, hcores⟩ := State.startDealt_places (s := s.modCore v fun q => { q with deque := rest }) (tid := tid) (core := core) h
  refine ⟨_, ?_, hplaced, fun hd => ?_⟩
  · rw [exec, execThiefSteal, he, hv]
    simp only [hq, hc, if_true]
    rfl
  · rw [State.core, hcores hd]
    exact congrArg Core.deque (s.core_modCore_self v _)

/-! ### Grids ended -/

/-- The grid `k` has ended: what a signal writes in `u` is in memory, and the grid is gone where no shadow run of it is left. -/
def Ends (s : State) (k : Nat) (gr : Grid) (u t : State) (status : Nat) : Prop :=
  (∀ v, gr.pkt.signal ≠ 0 → gr.pkt.signal.toNat % 8 = 0 → 65536 ≤ gr.pkt.counter →
    u.putVa (unitWho gr.ctx gr.pkt.sys) gr.pkt.signal.toNat (leBytes 8 (if status = 0 then 1 else 2 ^ 63 + status)) = .ok v →
      t.mem = v.mem) ∧
  ((∀ e ∈ s.teams, e.2.grid = k → e.2.shadow = none) → tabGet t.grids k = none)

theorem State.finishGrid_ends {s u w : State} {k status : Nat} {gr : Grid} (h : tabGet w.grids k = some gr) (ht : SameTables u w)
    (hs : (∀ e ∈ s.teams, e.2.grid = k → e.2.shadow = none) → ∀ e ∈ w.teams, e.2.grid = k → e.2.shadow = none) (hst : status < 2 ^ 16) :
    Ends s k gr u (w.finishGrid k status) status := by
  have hgrid := State.grid_of_get h
  have hvalue : signalValue status = if status = 0 then 1 else 2 ^ 63 + status := by rw [signalValue, Nat.mod_eq_of_lt hst]
  refine ⟨fun v h0 h8 hc hv => ?_, fun hn => (State.finishGrid_ended (by rw [h]; rfl) status).gone (hs hn)⟩
  rw [← hvalue] at hv
  exact State.finishGrid_mem ht hgrid h0 h8 hc hv

theorem SameTables.refl (s : State) : SameTables s s := ⟨fun _ => rfl, fun _ => rfl, rfl, rfl, rfl⟩

theorem exec_gridComplete_ends {s : State} {k : Nat} {gr : Grid} (h : tabGet s.grids k = some gr) (ho : s.gridOver k gr = true) :
    ∃ t, exec (.gridComplete k) s = .next t ∧ Ends s k gr s t 0 := by
  refine ⟨_, ?_, State.finishGrid_ends h (.refl s) (fun hs => hs) (by decide)⟩
  rw [exec, execGridComplete, h]
  exact if_pos ho

theorem exec_markerComplete_ends {s : State} {k : Nat} {gr : Grid} (h : tabGet s.grids k = some gr) (hk : gr.pkt.kind = 5)
    (he : gr.ended = false) (hq : ∀ e ∈ s.grids, e.1 < k → e.2.queue = gr.queue → e.2.ended = true) :
    ∃ t, exec (.markerComplete k) s = .next t ∧ Ends s k gr s t 0 := by
  refine ⟨_, ?_, State.finishGrid_ends h (.refl s) (fun hs => hs) (by decide)⟩
  rw [exec, execMarkerComplete, h]
  refine if_pos ?_
  rw [hk, he, Bool.and_eq_true, List.all_eq_true]
  refine ⟨rfl, fun e hm => ?_⟩
  by_cases hlt : e.1 < k
  · by_cases hqueue : e.2.queue = gr.queue
    · simp [hq e hm hlt hqueue]
    · simp [hqueue]
  · simp [Nat.not_lt.1 hlt]

theorem exec_reprojectionComplete_ends {s u : State} {k : Nat} {gr : Grid} (h : tabGet s.grids k = some gr) (hk : gr.pkt.kind = 2)
    (he : gr.ended = false) (hf : fld gr.pkt.raw 0x58 8 = 0)
    (hu : s.putVa (unitWho gr.ctx gr.pkt.sys) (fld gr.pkt.raw 0x38 8) (leBytes 4 gr.count ++ leBytes 4 0) = .ok u) :
    ∃ t, exec (.reprojectionComplete k) s = .next t ∧ Ends s k gr u t 0 := by
  have hstored : StoredOnly s u := by
    obtain ⟨ps, -, rfl⟩ := State.putVa_eq_ok hu
    exact State.foldl_putPiece_storedOnly ..
  unfold StoredOnly at hstored
  have hgrids : u.grids = s.grids := by rw [hstored]
  have hteams : u.teams = s.teams := by rw [hstored]
  refine ⟨u.finishGrid k 0, ?_, State.finishGrid_ends (by rw [hgrids]; exact h) (.refl u) (by rw [hteams]; exact fun hs => hs) (by decide)⟩
  rw [exec, execReprojectionComplete, h]
  simp only [hk, he, hf, State.unitWrite, hu, if_true]
  rfl

theorem exec_watchdogExpiry_ends {s : State} {k since : Nat} {gr : Grid} (h : tabGet s.grids k = some gr) (hp : gr.progress = some since)
    (hn : gr.paused = none) (hw : s.watchSuspended k = false) :
    ∃ t, exec (.watchdogExpiry k) s = .next t ∧ Ends s k gr s t 0x11 ∧ (∀ e ∈ t.groups, e.2.grid ≠ k) ∧
      (∀ c, ∀ e ∈ (t.core c).deque, e.1 ≠ k) ∧
      t.clock = max s.clock (since + (if gr.pkt.watchdog = 0 then 2000 else gr.pkt.watchdog) * 2500000) := by
  have hstrip := (s.atLeast (since + gr.pkt.watchCycles)).strippedOf_stripped k
  have hget : tabGet ((s.atLeast (since + gr.pkt.watchCycles)).strippedOf k).grids k = some gr := by rw [hstrip.grids]; exact h
  have hended := State.finishGrid_ended (s := (s.atLeast (since + gr.pkt.watchCycles)).strippedOf k) (k := k) (by rw [hget]; rfl) 0x11
  refine ⟨((s.atLeast (since + gr.pkt.watchCycles)).strippedOf k).finishGrid k 0x11, ?_,
    State.finishGrid_ends hget (.trans (t := s.atLeast (since + gr.pkt.watchCycles)) ⟨fun _ => rfl, fun _ => rfl, rfl, rfl, rfl⟩ hstrip.tables) (fun _ => hstrip.teams) (by decide),
    ?_, ?_, ?_⟩
  · rw [exec, execWatchdogExpiry, h]
    simp only [hp, hn, hw]
    rfl
  · rw [hended.groups]
    exact hstrip.groups
  · intro c
    rw [State.core, hended.cores]
    exact hstrip.deques c
  · rw [hended.clock, hstrip.clock]
    rfl

/-! ### Bins launched -/

theorem State.withDynamic_rest (s : State) (grid : Nat) (parent : Option Nat) : (s.withDynamic grid parent).1 =
    { s with nextId := (s.withDynamic grid parent).1.nextId, teams := (s.withDynamic grid parent).1.teams } := by
  unfold State.withDynamic
  split <;> rfl

/-- A closed bin become a group on its core. -/
def State.launchOf (s : State) (core bin : Nat) (b : Bin) : State :=
  let gr := s.grid b.grid
  let r := s.withDynamic b.grid (if gr.pkt.det then some b.team else none)
  let pack := if gr.pkt.det then b.pack else (r.1.team r.2).packs
  let x := newGroup b.grid r.2 pack 0 gr.pkt.args (binLanes b.items pack s.clock) gr.pkt.det
  let t := r.1.modTeam r.2 fun t => { t with groups := t.groups + 1, packs := t.packs + 1 }
  let t := t.modCore core fun c => { c with bins := tabDel c.bins bin }
  ((t.modGrid b.grid fun g => g.mark [core] s.clock).addGroup core { x with bin := some (b.items.length, pack) }).rewatch b.grid

theorem exec_binLaunch_eq {s : State} {core bin : Nat} {b : Bin} (hb : tabGet (s.core core).bins bin = some b) (hc : b.closed = true)
    (hr : s.coreRuns core = true) (hroom : s.hasRoom core ((s.grid b.grid).pkt.groupNeed 0) = true) :
    exec (.binLaunch core bin) s =
      .next (if s.quiescing core then (s.launchOf core bin b).quiesceSaves [core] else s.launchOf core bin b) := by
  rw [exec, execBinLaunch, hb]
  exact if_neg (by rw [hc, hr, hroom]; decide)

/-- What a launch puts in the lowest free slot of the core. -/
theorem State.launchOf_get {s : State} {core slot : Nat} (h : lowestFree s.groups (core * Config.slotsPerCore) Config.slotsPerCore = some slot)
    (bin : Nat) (b : Bin) : ∃ team pack uid, tabGet (s.launchOf core bin b).groups slot =
      some { newGroup b.grid team pack 0 (s.grid b.grid).pkt.args (binLanes b.items pack s.clock) (s.grid b.grid).pkt.det with
        bin := some (b.items.length, pack), uid := uid } := by
  have hgroups : ∀ parent, (s.withDynamic b.grid parent).1.groups = s.groups := fun parent => by rw [s.withDynamic_rest b.grid parent]
  refine ⟨_, _, _, State.addGroup_get ?_ _⟩
  rw [← h, ← hgroups]
  rfl

theorem State.launchOf_core (s : State) (core bin : Nat) (b : Bin) :
    (s.launchOf core bin b).core core = { s.core core with bins := tabDel (s.core core).bins bin } := by
  have hcore : ∀ parent, (s.withDynamic b.grid parent).1.core core = s.core core := fun parent => by
    rw [s.withDynamic_rest b.grid parent]
    rfl
  refine (congrArg (tabGetD · core {}) (StartsBeside.addGroup 0 _ core _).cores).trans ?_
  refine (State.core_modCore_self _ core fun c => { c with bins := tabDel c.bins bin }).trans ?_
  exact congrArg (fun c : Core => { c with bins := tabDel c.bins bin }) (hcore _)

theorem binLanes_get (items : List Item) (pack clock j : Nat) : tabGet (binLanes items pack clock) j =
    (items[j]?).map fun i => newLane i.entry (32 * pack + j) (2 ^ 15 + 32 * pack + j) [i.payload] none clock :=
  tabGet_map_zip items (fun i j => newLane i.entry (32 * pack + j) (2 ^ 15 + 32 * pack + j) [i.payload] none clock) j

theorem exec_binLaunch_launches {s : State} {k core bin slot : Nat} {gr : Grid} {b : Bin} (h : tabGet s.grids k = some gr)
    (hb : tabGet (s.core core).bins bin = some b) (hk : b.grid = k) (hc : b.closed = true)
    (hr : s.coreRuns core = true) (hroom : s.hasRoom core (gr.pkt.groupNeed 0) = true)
    (hfree : lowestFree s.groups (core * Config.slotsPerCore) Config.slotsPerCore = some slot) :
    ∃ t, exec (.binLaunch core bin) s = .next t ∧ tabGet (t.core core).bins bin = none ∧ ∃ y pack, tabGet t.groups slot = some y ∧ y.grid = k ∧
      y.role = 0 ∧ y.bin = some (b.items.length, pack) ∧ ∀ j item, b.items[j]? = some item → ∃ z, tabGet y.lanes j = some z ∧
        z.pc = item.entry ∧ z.fin = false ∧ tabGet z.regs 0 = some item.payload := by
  have hgrid : s.grid b.grid = gr := by rw [hk, State.grid_of_get h]
  have hasked : SavesAsked (s.launchOf core bin b)
      (if s.quiescing core then (s.launchOf core bin b).quiesceSaves [core] else s.launchOf core bin b) := by
    split
    · exact .quiesceSaves ..
    · exact .refl _
  refine ⟨_, exec_binLaunch_eq hb hc hr (by rw [hgrid]; exact hroom), ?_, ?_⟩
  · rw [State.core, hasked.cores]
    have := s.launchOf_core core bin b
    rw [State.core] at this
    rw [this]
    exact tabGet_tabDel_self ..
  · obtain ⟨team, pack, uid, hx⟩ := State.launchOf_get hfree bin b
    obtain ⟨m, hm⟩ := hasked.groups slot _ hx
    refine ⟨_, pack, hm, hk, rfl, rfl, fun j item hj => ?_⟩
    exact ⟨_, (binLanes_get b.items pack s.clock j).trans (congrArg _ hj), rfl, rfl, rfl⟩

/-! ### Teams picked for pre-emption -/

theorem State.shadowOf_none {s : State} (h : ∀ e ∈ s.teams, e.2.shadow = none) (j : Nat) : s.shadowOf j = none := by
  rw [State.shadowOf, List.find?_eq_none.2 fun e he => by simp [h e he]]
  rfl

/-- A team of a victim grid leaves picked cores, where none of them holds an ordered section. -/
def State.vacateTeam (s : State) (k : Nat) (picked : List Nat) (t : State) (e : Nat × Team) : State :=
  if !s.givesUp k e.2 then t
  else if e.2.cores.any fun c => picked.contains c && t.sectionOn c then t
  else t.askSave e.1 true true

theorem SavesAsked.vacateTeam {t : State} (h : ∀ e ∈ t.teams, e.2.shadow = none) (s : State) (k : Nat) (picked : List Nat) (e : Nat × Team) :
    SavesAsked t (s.vacateTeam k picked t e) := by
  rw [State.vacateTeam]
  split
  · exact .refl t
  · split
    · exact .refl t
    · exact .askSave (.inr (State.shadowOf_none h _)) true

theorem SavesAsked.vacateTeams {t : State} (h : ∀ e ∈ t.teams, e.2.shadow = none) (s : State) (k : Nat) (picked : List Nat)
    (l : List (Nat × Team)) : SavesAsked t (l.foldl (s.vacateTeam k picked) t) := by
  induction l generalizing t with
  | nil => exact .refl t
  | cons e l ih =>
    have hfirst := SavesAsked.vacateTeam h s k picked e
    exact hfirst.trans (ih (hfirst.shadows h))

/-- A team that gives up picked cores, none of which holds an ordered section, is saved. -/
theorem State.vacateTeams_saving {s t : State} {k j : Nat} {picked : List Nat} {x y : Team} {l : List (Nat × Team)}
    (h : ∀ e ∈ t.teams, e.2.shadow = none) (hl : (j, x) ∈ l) (hg : s.givesUp k x = true)
    (hsect : ∀ c ∈ x.cores, c ∈ picked → t.sectionOn c = false) (hj : j < t.nextId) (hy : tabGet t.teams j = some y)
    (hf : y.finished = false) (hs : y.saved = none) (hc : y.cores ≠ []) :
    ∃ z : Team, tabGet (l.foldl (s.vacateTeam k picked) t).teams j = some z ∧ z.saving.isSome = true := by
  induction l generalizing t y with
  | nil => cases hl
  | cons e l ih =>
    have hfirst := SavesAsked.vacateTeam h s k picked e
    rcases List.mem_cons.1 hl with rfl | hl
    · have hfree : ¬ (x.cores.any fun c => picked.contains c && t.sectionOn c) = true := by
        rw [List.any_eq_true]
        rintro ⟨c, hcx, hcp⟩
        rw [Bool.and_eq_true, List.contains_iff_mem] at hcp
        rw [hsect c hcx hcp.1] at hcp
        exact absurd hcp.2 Bool.false_ne_true
      have hask : s.vacateTeam k picked t (j, x) = t.askSave j true true := by
        rw [State.vacateTeam, hg, if_neg (by decide), if_neg hfree]
      obtain ⟨z, hz, hsaving⟩ := State.askSave_saving (.inr (State.shadowOf_none h j)) true hy hf hs
      obtain ⟨w, hw, he, -⟩ := hfirst.team j y hj hy hc
      rw [hask] at hw
      obtain rfl : z = w := Option.some.inj (hz.symm.trans hw)
      rw [← hask] at hz
      obtain ⟨v, hv, -, hstays⟩ := (SavesAsked.vacateTeams (hfirst.shadows h) s k picked l).team j z (hj.trans_le hfirst.nextId) hz
        (by rw [he]; exact hc)
      exact ⟨v, hv, hstays hsaving⟩
    · obtain ⟨w, hw, he, -⟩ := hfirst.team j y hj hy hc
      exact ih (hfirst.shadows h) hl (fun c hcx hcp => (hfirst.sections c).trans (hsect c hcx hcp)) (hj.trans_le hfirst.nextId) hw
        (by rw [he]; exact hf) (by rw [he]; exact hs) (by rw [he]; exact hc)

theorem Team.leaves_iff (x : Team) (cores : List Nat) :
    x.leaves cores = true ↔ x.finished = false ∧ x.saved = none ∧ ∃ c ∈ x.cores, c ∈ cores := by
  simp [Team.leaves, and_assoc]

/-- The bin groups on picked cores in teams of their own. -/
def State.splitPicked (s : State) (k : Nat) (picked : List Nat) : State := picked.foldl (fun t c => t.splitBins (some k) c) s

/-- The teams on picked cores asked to save. -/
def State.askPicked (s : State) (k : Nat) (picked : List Nat) : State := s.teams.foldl (s.vacateTeam k picked) s

theorem State.vacate_eq {s : State} {k : Nat} (h : (s.grid k).picked ≠ []) : s.vacate k =
    ((((s.splitPicked k (s.grid k).pickedCores).askPicked k (s.grid k).pickedCores).modGrid k fun g =>
      { g with sectWait := g.sectWait && ((s.splitPicked k (s.grid k).pickedCores).askPicked k (s.grid k).pickedCores).sectionsAwaited k }).rewatch
        k) := by
  rw [State.vacate]
  exact if_neg h

theorem SavesAsked.splitPicked (s : State) (k : Nat) (picked : List Nat) : SavesAsked s (s.splitPicked k picked) :=
  SavesAsked.foldl (fun t c => .splitBins t (some k) c) picked s

theorem SavesAsked.askPicked {s : State} (h : ∀ e ∈ s.teams, e.2.shadow = none) (k : Nat) (picked : List Nat) :
    SavesAsked s (s.askPicked k picked) := .vacateTeams h s k picked s.teams

/-- What a grid has given up stays noted while it is vacated. -/
theorem State.vacate_grid {s : State} {k : Nat} {gr : Grid} (h : tabGet s.grids k = some gr) (hs : ∀ e ∈ s.teams, e.2.shadow = none) :
    ∃ y : Grid, tabGet (s.vacate k).grids k = some y ∧ y.picked = gr.picked ∧ y.pickedAt = gr.pickedAt := by
  by_cases hp : (s.grid k).picked = []
  · have hsame : s.vacate k = s := by
      rw [State.vacate]
      exact if_pos hp
    exact ⟨gr, by rw [hsame]; exact h, rfl, rfl⟩
  · have hsplit := SavesAsked.splitPicked s k (s.grid k).pickedCores
    obtain ⟨x, hx, hxe⟩ := (hsplit.trans (SavesAsked.askPicked (hsplit.shadows hs) k (s.grid k).pickedCores)).grid k gr h
    rw [State.vacate_eq hp]
    obtain ⟨y, hy, hye⟩ := (SavesAsked.rewatch _ k).grid k _ (State.modGrid_get hx _)
    exact ⟨y, hy, by rw [hye, hxe], by rw [hye, hxe]⟩

/-- The teams on picked cores are saved. -/
theorem State.vacate_saves {s : State} {k j : Nat} {gr : Grid} {x : Team} (hg : tabGet s.grids k = some gr) (hs : ∀ e ∈ s.teams, e.2.shadow = none)
    (hj : j < s.nextId) (hx : tabGet s.teams j = some x) (hk : x.grid = k) (hh : x.handler = none) (hl : x.leaves gr.pickedCores = true)
    (hsect : ∀ c ∈ x.cores, c ∈ gr.pickedCores → s.sectionOn c = false) : ((s.vacate k).team j).saving.isSome = true := by
  obtain ⟨hf, hsaved, c, hcx, hcp⟩ := (x.leaves_iff _).1 hl
  have hc : x.cores ≠ [] := List.ne_nil_of_mem hcx
  have hp : (s.grid k).picked ≠ [] := by
    rw [State.grid_of_get hg]
    rintro he
    rw [Grid.pickedCores, he] at hcp
    cases hcp
  have hsplit := SavesAsked.splitPicked s k (s.grid k).pickedCores
  obtain ⟨v, hv, hve⟩ := hsplit.grid k gr hg
  obtain ⟨y, hy, hye, -⟩ := hsplit.team j x hj hx hc
  have hcores : y.cores = x.cores := by rw [hye]
  have hfin : y.finished = false := by rw [hye]; exact hf
  have hkept : y.saved = none := by rw [hye]; exact hsaved
  have hgives : (s.splitPicked k (s.grid k).pickedCores).givesUp k y = true := by
    have hleaves : y.leaves gr.pickedCores = true := (y.leaves_iff _).2 ⟨hfin, hkept, c, by rw [hcores]; exact hcx, hcp⟩
    have hpicked : v.pickedCores = gr.pickedCores := by rw [hve]; rfl
    rw [State.givesUp, State.grid_of_get hv, hpicked, hleaves, hye, hk, hh]
    simp
  obtain ⟨z, hz, hsaving⟩ := State.vacateTeams_saving (picked := (s.grid k).pickedCores) (hsplit.shadows hs) (mem_of_tabGet hy) hgives
    (fun d hd hdp => (hsplit.sections d).trans (hsect d (by rw [← hcores]; exact hd) (by rw [State.grid_of_get hg] at hdp; exact hdp)))
    (hj.trans_le hsplit.nextId) hy hfin hkept (by rw [hcores]; exact hc)
  have hteam : (s.vacate k).team j = z := by
    rw [State.vacate_eq hp]
    exact congrArg (Option.getD · noTeam) hz
  rw [hteam]
  exact hsaving

/-- A victim grid that gives up cores. -/
def Grid.givesUpTo (v : Grid) (q : Nat) (key : Option Nat) (cores : List Nat) (waits : Bool) (clock : Nat) : Grid :=
  { v with
    picked := v.picked ++ cores.map fun c => (c, q, key)
    pickedAt := if waits then v.pickedAt else clock, sectWait := waits && v.sectWait }

theorem exec_spatialPreemption_eq {s : State} {q k level : Nat} {key : Option Nat} {waits gr : Grid} {cores : List Nat}
    (h : tabGet s.grids k = some gr) (hw : s.waitingPacket q = some (key, waits, level)) (hp : s.hasPicks q key = false)
    (hv : s.isVictim k gr waits level cores = true) (hone : ∀ e ∈ s.grids, s.isVictim e.1 e.2 waits level cores = true → e = (k, gr)) :
    exec (.spatialPreemption q cores) s =
      .next ((s.modGrid k fun v => v.givesUpTo q key cores (s.sectionsAwaited k) s.clock).vacate k) := by
  have hfind : s.grids.find? (fun e => s.isVictim e.1 e.2 waits level cores) = some (k, gr) := by
    cases hf : s.grids.find? (fun e => s.isVictim e.1 e.2 waits level cores) with
    | none => exact absurd hv (List.find?_eq_none.1 hf _ (mem_of_tabGet h))
    | some e =>
      have he := List.find?_some (p := fun e : Nat × Grid => s.isVictim e.1 e.2 waits level cores) hf
      rw [hone e (List.mem_of_find?_eq_some hf) he]
  rw [exec, execSpatialPreemption, hw]
  simp only [hp, hfind, Bool.false_eq_true, if_false]
  rfl

theorem exec_spatialPreemption_picks {s : State} {q k level : Nat} {key : Option Nat} {waits gr : Grid} {cores : List Nat}
    (h : tabGet s.grids k = some gr) (hw : s.waitingPacket q = some (key, waits, level)) (hp : s.hasPicks q key = false)
    (hv : s.isVictim k gr waits level cores = true) (hone : ∀ e ∈ s.grids, s.isVictim e.1 e.2 waits level cores = true → e = (k, gr))
    (hs : ∀ e ∈ s.teams, e.2.shadow = none) :
    ∃ t, exec (.spatialPreemption q cores) s = .next t ∧ (t.grid k).picked = gr.picked ++ cores.map (fun c => (c, q, key)) ∧
      (s.sectionsAwaited k = false → (t.grid k).pickedAt = s.clock) ∧
      ∀ j tm, j < s.nextId → tabGet s.teams j = some tm → tm.grid = k → tm.handler = none → tm.leaves cores = true →
        (∀ c ∈ tm.cores, c ∈ gr.pickedCores ++ cores → s.sectionOn c = false) → (t.team j).saving.isSome = true := by
  have hset : tabGet (s.modGrid k fun v => v.givesUpTo q key cores (s.sectionsAwaited k) s.clock).grids k =
      some (gr.givesUpTo q key cores (s.sectionsAwaited k) s.clock) := State.modGrid_get h _
  have hcores : (gr.givesUpTo q key cores (s.sectionsAwaited k) s.clock).pickedCores = gr.pickedCores ++ cores := by
    simp [Grid.pickedCores, Grid.givesUpTo, Function.comp_def]
  obtain ⟨y, hy, hpicked, hat⟩ := State.vacate_grid hset hs
  refine ⟨_, exec_spatialPreemption_eq h hw hp hv hone, ?_, fun hn => ?_, fun j tm hj htm hk hh hl hsect => ?_⟩
  · rw [State.grid_of_get hy]
    exact hpicked
  · rw [State.grid_of_get hy]
    exact hat.trans (by rw [hn]; rfl)
  · obtain ⟨hf, hsaved, c, hc, hcc⟩ := (tm.leaves_iff _).1 hl
    refine State.vacate_saves (s := s.modGrid k fun v => v.givesUpTo q key cores (s.sectionsAwaited k) s.clock)
      hset hs hj htm hk hh ?_ (by rw [hcores]; exact hsect)
    rw [hcores]
    exact (tm.leaves_iff _).2 ⟨hf, hsaved, c, hc, List.mem_append_right _ hcc⟩

theorem exec_preemptionWaitExpiry_waits {s : State} {k : Nat} {gr : Grid} (h : tabGet s.grids k = some gr) (hn : gr.sectWait = false)
    (hw : s.sectionsAwaited k = true) :
    ∃ t, exec (.preemptionWaitExpiry k) s = .next t ∧ (t.grid k).sectWait = true ∧ t.clock = max s.clock (gr.pickedAt + 250000) ∧ t.mem = s.mem := by
  have hset := State.modGrid_get (s := s.atLeast (gr.pickedAt + 250000)) h fun g => { g with sectWait := true }
  obtain ⟨y, hy, he⟩ := (SavesAsked.rewatch ((s.atLeast (gr.pickedAt + 250000)).modGrid k fun g => { g with sectWait := true }) k).grid k _ hset
  refine ⟨((s.atLeast (gr.pickedAt + 250000)).modGrid k fun g => { g with sectWait := true }).rewatch k, ?_, ?_, rfl, rfl⟩
  · rw [exec, execPreemptionWaitExpiry, h]
    exact if_neg (by rw [hn, hw]; decide)
  · rw [State.grid_of_get hy, he]

/-- Settles O54: each event of the Drover is made by one of the steps above, from what the Drover looks at before it makes it. -/
theorem droverWork : Obligations.DroverWork := by
  unfold Obligations.DroverWork
  intro s k gr w goes placed ends h
  refine ⟨fun tid cores lcore hw hp => exec_teamPlace_places h hw hp, fun core tid hq hc => exec_ownerPop_places h hq hc,
    fun core tid v rest he hv hq hc => exec_thiefSteal_places h he hv hq hc, fun hk hd => exec_gridComplete_ends h ?_,
    fun hk hd he => exec_gridComplete_ends h ?_, fun hk he hq => exec_markerComplete_ends h hk he hq,
    fun hk he hf u hu => exec_reprojectionComplete_ends h hk he hf hu, fun since hp hn hw => exec_watchdogExpiry_ends h hp hn hw,
    fun core bin b slot hb hk hc _ hin hpark hroom hs hfree hlow => exec_binLaunch_launches h hb hk hc ?_ hroom (lowestFree_slot hs hfree hlow),
    fun q key waits level cores hw hp hv hone hs => exec_spatialPreemption_picks h hw hp hv hone hs,
    fun hn hw => exec_preemptionWaitExpiry_waits h hn ?_⟩
  · rcases hk with hk | hk <;> simp [State.gridOver, hk, hd]
  · simp [State.gridOver, hk, hd, he]
  · rw [State.coreRuns, dieOf, hin, hpark]
    rfl
  · obtain ⟨e, he, hg, hs⟩ := hw
    exact List.any_eq_true.2 ⟨e, he, by rw [hg, hs]; rfl⟩

end Sys2Proof.Machine

/-!
PROOFS. Accesses and queries that complete: what a value leaves as it lands, what a flag counts as it counts down, and the completion of an access, of
an engine's command and of an access whose data is lost with its region.
-/

namespace Sys2Proof.Machine

/-! ### A value that lands -/

/-- Waking stamps lanes; nothing that they hold changes. -/
theorem Group.wake_lane (x : Group) (clock k : Nat) : ∃ n, (x.wake clock).lane k = { x.lane k with stamp := n } := by
  rw [Group.lane, tabGetD, Group.wake, tabGet_tabMap, Group.lane, tabGetD]
  cases tabGet x.lanes k with
  | none => exact ⟨_, rfl⟩
  | some y =>
    rw [Option.map_some, Option.getD_some, Option.getD_some]
    split
    · exact ⟨clock, rfl⟩
    · exact ⟨y.stamp, rfl⟩

/-- A lane of the group has the registers that it has pending. -/
theorem Group.isSome_of_pending {x : Group} {l t : Nat} {r : PReg} (h : x.pending l r = some t) (hr : ∀ n, r ≠ .s n) :
    (tabGet x.lanes l).isSome = true := by
  cases hl : tabGet x.lanes l with
  | some y => rfl
  | none => cases r <;> simp_all [Group.pending, Group.lane, tabGetD]

/-- A lane after a register's pending mark is removed. -/
def Lane.clear1 (y : Lane) : PReg → Lane
  | .v n => { y with pend := tabDel y.pend n }
  | .p n => { y with ppend := tabDel y.ppend n }
  | .s _ => y

/-- A register write reaches the writer's lane alone. -/
theorem Group.writeReg_lane (x : Group) (l k : Nat) (r : PReg) (w : Word) :
    (x.writeReg l r w).lane k = x.lane k ∨ (k = l ∧ (x.writeReg l r w).lane k = (x.lane k).take1 r w) := by
  by_cases hk : k = l
  · subst hk
    rw [Group.lane, Group.lane, tabGetD, tabGetD, Group.writeReg_self]
    cases tabGet x.lanes k with
    | none => exact .inl rfl
    | some y => exact .inr ⟨rfl, rfl⟩
  · exact .inl (by rw [Group.lane, Group.lane, tabGetD, tabGetD, Group.writeReg_other x r w hk])

/-- A pending mark is removed in its lane alone. -/
theorem Group.clearPending_lane (x : Group) (l k : Nat) (r : PReg) :
    (x.clearPending l r).lane k = x.lane k ∨ (k = l ∧ (x.clearPending l r).lane k = (x.lane k).clear1 r) := by
  by_cases hk : k = l
  · subst hk
    have h : tabGet (x.clearPending k r).lanes k = (tabGet x.lanes k).map (·.clear1 r) := by
      cases r <;> simp [Group.clearPending, Lane.clear1]
    rw [Group.lane, Group.lane, tabGetD, tabGetD, h]
    cases tabGet x.lanes k with
    | none => exact .inl rfl
    | some y => exact .inr ⟨rfl, rfl⟩
  · have h : tabGet (x.clearPending l r).lanes k = tabGet x.lanes k := by
      cases r <;> simp [Group.clearPending, tabGet_tabMod_ne _ _ hk]
    exact .inl (by rw [Group.lane, Group.lane, tabGetD, tabGetD, h])

/-- Of a register write another register, or the same one of another lane, keeps what it holds. -/
theorem Group.writeReg_holds_ne (x : Group) {l k : Nat} {r q : PReg} (w : Word) (hq : (k ≠ l ∧ ∀ n, q ≠ .s n) ∨ q ≠ r) :
    (x.writeReg l r w).holds k q = x.holds k q := by
  cases q with
  | s m =>
    have hne : PReg.s m ≠ r := hq.resolve_left fun h => h.2 m rfl
    cases r with
    | s n => exact tabGet_tabSet_ne _ _ fun e => hne (by rw [e])
    | v n => rfl
    | p n => rfl
  | v m =>
    obtain h | ⟨hk, h⟩ := x.writeReg_lane l k r w
    · rw [Group.holds, Group.holds, h]
    · have hne : PReg.v m ≠ r := hq.resolve_left fun h => h.1 hk
      rw [Group.holds, Group.holds, h]
      cases r with
      | v n => exact tabGet_tabSet_ne _ _ fun e => hne (by rw [e])
      | s n => rfl
      | p n => rfl
  | p m =>
    obtain h | ⟨hk, h⟩ := x.writeReg_lane l k r w
    · rw [Group.holds, Group.holds, h]
    · have hne : PReg.p m ≠ r := hq.resolve_left fun h => h.1 hk
      rw [Group.holds, Group.holds, h]
      cases r with
      | p n => rw [Lane.take1, setPred_ne _ _ fun e => hne (by rw [e])]
      | s n => rfl
      | v n => rfl

theorem Group.writeReg_pending (x : Group) (l k : Nat) (r q : PReg) (w : Word) : (x.writeReg l r w).pending k q = x.pending k q := by
  have hl : ((x.writeReg l r w).lane k).pend = (x.lane k).pend ∧ ((x.writeReg l r w).lane k).ppend = (x.lane k).ppend := by
    obtain h | ⟨-, h⟩ := x.writeReg_lane l k r w
    · rw [h]; exact ⟨rfl, rfl⟩
    · rw [h]; cases r <;> exact ⟨rfl, rfl⟩
  cases q with
  | v m => exact congrArg (tabGet · m) hl.1
  | p m => exact congrArg (tabGet · m) hl.2
  | s m => rw [Group.writeReg_rest]; rfl

theorem Group.clearPending_holds (x : Group) (l k : Nat) (r q : PReg) : (x.clearPending l r).holds k q = x.holds k q := by
  have hl : ((x.clearPending l r).lane k).regs = (x.lane k).regs ∧ ((x.clearPending l r).lane k).preds = (x.lane k).preds := by
    obtain h | ⟨-, h⟩ := x.clearPending_lane l k r
    · rw [h]; exact ⟨rfl, rfl⟩
    · rw [h]; cases r <;> exact ⟨rfl, rfl⟩
  cases q with
  | v m => exact congrArg (tabGet · m) hl.1
  | p m => rw [Group.holds, Group.holds, hl.2]
  | s m => cases r <;> rfl

/-- Another register, or the same one of another lane, keeps its pending mark. -/
theorem Group.clearPending_pending_ne (x : Group) {l k : Nat} {r q : PReg} (hq : (k ≠ l ∧ ∀ n, q ≠ .s n) ∨ q ≠ r) :
    (x.clearPending l r).pending k q = x.pending k q := by
  cases q with
  | s m =>
    have hne : PReg.s m ≠ r := hq.resolve_left fun h => h.2 m rfl
    cases r with
    | s n => exact tabGet_tabDel_ne _ fun e => hne (by rw [e])
    | v n => rfl
    | p n => rfl
  | v m =>
    obtain h | ⟨hk, h⟩ := x.clearPending_lane l k r
    · rw [Group.pending, Group.pending, h]
    · have hne : PReg.v m ≠ r := hq.resolve_left fun h => h.1 hk
      rw [Group.pending, Group.pending, h]
      cases r with
      | v n => exact tabGet_tabDel_ne _ fun e => hne (by rw [e])
      | s n => rfl
      | p n => rfl
  | p m =>
    obtain h | ⟨hk, h⟩ := x.clearPending_lane l k r
    · rw [Group.pending, Group.pending, h]
    · have hne : PReg.p m ≠ r := hq.resolve_left fun h => h.1 hk
      rw [Group.pending, Group.pending, h]
      cases r with
      | p n => exact tabGet_tabDel_ne _ fun e => hne (by rw [e])
      | s n => rfl
      | v n => rfl

/-- Under its current tag a value is written and its register pending no more. -/
theorem Group.landed_current {x : Group} {l t : Nat} {r : PReg} (h : x.pending l r = some t) (w : Word) (stands : Bool) :
    x.landed l r t w stands = (x.writeReg l r w).clearPending l r := by
  unfold Group.landed
  rw [if_pos h]

/-- A value that lands under its register's current tag: the register holds it and is pending no more (R106). -/
theorem Group.landed_self {x : Group} {l t : Nat} {r : PReg} (h : x.pending l r = some t) (hn : ∀ n, r = .p n → n < 16) (w : Word)
    (stands : Bool) : (x.landed l r t w stands).holds l r = some (r.kept w) ∧ (x.landed l r t w stands).pending l r = none := by
  rw [Group.landed_current h]
  cases r with
  | s n => simp [Group.writeReg, Group.clearPending, Group.holds, Group.pending, PReg.kept]
  | v n =>
    obtain ⟨y, hy⟩ := Option.isSome_iff_exists.1 (Group.isSome_of_pending h (by simp))
    simp [Group.writeReg, Group.clearPending, Group.holds, Group.pending, PReg.kept, Group.lane, tabGetD, hy]
  | p n =>
    obtain ⟨y, hy⟩ := Option.isSome_iff_exists.1 (Group.isSome_of_pending h (by simp))
    have hp := setPred_self y.preds (w != 0) (hn n rfl)
    by_cases hw : w = 0 <;>
      simp_all [Group.writeReg, Group.clearPending, Group.holds, Group.pending, PReg.kept, Group.lane, tabGetD]

/-- A landing leaves the other lanes' own registers and the other registers as they were. -/
theorem Group.landed_ne {x : Group} {l t k : Nat} {r q : PReg} (h : x.pending l r = some t)
    (hq : (k ≠ l ∧ ∀ n, q ≠ .s n) ∨ q ≠ r) (w : Word) (stands : Bool) :
    (x.landed l r t w stands).holds k q = x.holds k q ∧ (x.landed l r t w stands).pending k q = x.pending k q := by
  rw [Group.landed_current h, Group.clearPending_holds, Group.clearPending_pending_ne _ hq]
  exact ⟨x.writeReg_holds_ne w hq, x.writeReg_pending l k r q w⟩

theorem Group.landed_flags {x : Group} {l t : Nat} {r : PReg} (h : x.pending l r = some t) (w : Word) (stands : Bool) (k : Nat) :
    ((x.landed l r t w stands).lane k).flags = (x.lane k).flags := by
  have hw : ((x.writeReg l r w).lane k).flags = (x.lane k).flags := by
    obtain h | ⟨-, h⟩ := x.writeReg_lane l k r w
    · rw [h]
    · rw [h]; cases r <;> rfl
  rw [Group.landed_current h, ← hw]
  obtain h | ⟨-, h⟩ := (x.writeReg l r w).clearPending_lane l k r
  · rw [h]
  · rw [h]; cases r <;> rfl

theorem Group.landed_rest {x : Group} {l t : Nat} {r : PReg} (h : x.pending l r = some t) (w : Word) (stands : Bool) :
    ∃ lanes sregs spend, x.landed l r t w stands = { x with lanes := lanes, sregs := sregs, spend := spend } := by
  rw [Group.landed_current h]
  cases r <;> exact ⟨_, _, _, rfl⟩

/-- What values that land under current tags leave of a group: the registers hold them, every other one is as it was. -/
structure Group.Received (x z : Group) (l : Nat) (dsts : List (PReg × Nat)) (vals : List Word) : Prop where
  landed : ∀ p ∈ dsts.zip vals, z.holds l p.1.1 = some (p.1.1.kept p.2) ∧ z.pending l p.1.1 = none
  rest : ∀ k r, ((k ≠ l ∧ ∀ n, r ≠ .s n) ∨ r ∉ dsts.map (·.1)) → z.holds k r = x.holds k r ∧ z.pending k r = x.pending k r
  flags : ∀ k, (z.lane k).flags = (x.lane k).flags
  uid : z.uid = x.uid
  lost : z.lost = x.lost

/-- What a group holds and has pending does not depend on stamps or flags. -/
theorem Group.holds_of_lane {x z : Group} {k n : Nat} {fl : Tab Nat} (h : z.lane k = { x.lane k with stamp := n, flags := fl })
    (hs : z.sregs = x.sregs) (hp : z.spend = x.spend) (r : PReg) : z.holds k r = x.holds k r ∧ z.pending k r = x.pending k r := by
  cases r <;> simp only [Group.holds, Group.pending, h, hs, hp, and_self]

theorem Group.wake_holds (x : Group) (clock k : Nat) (r : PReg) :
    (x.wake clock).holds k r = x.holds k r ∧ (x.wake clock).pending k r = x.pending k r := by
  obtain ⟨n, h⟩ := x.wake_lane clock k
  exact Group.holds_of_lane h rfl rfl r

theorem Group.wake_flags (x : Group) (clock k : Nat) : ((x.wake clock).lane k).flags = (x.lane k).flags := by
  obtain ⟨n, h⟩ := x.wake_lane clock k
  rw [h]

/-- One value that lands under the current tag of its register. -/
theorem Group.received_one {x : Group} {l t : Nat} {r : PReg} (h : x.pending l r = some t) (hn : ∀ n, r = .p n → n < 16) (w : Word)
    (stands : Bool) (clock : Nat) : x.Received ((x.landed l r t w stands).wake clock) l [(r, t)] [w] where
  landed p hp := by
    obtain rfl : p = ((r, t), w) := by simpa using hp
    rw [((x.landed l r t w stands).wake_holds clock l r).1, ((x.landed l r t w stands).wake_holds clock l r).2]
    exact Group.landed_self h hn w stands
  rest k q hq := by
    rw [((x.landed l r t w stands).wake_holds clock k q).1, ((x.landed l r t w stands).wake_holds clock k q).2]
    exact Group.landed_ne h (by simpa using hq) w stands
  flags k := (Group.wake_flags ..).trans (Group.landed_flags h ..)
  uid := by obtain ⟨_, _, _, e⟩ := Group.landed_rest h w stands; simp only [Group.wake, e]
  lost := by obtain ⟨_, _, _, e⟩ := Group.landed_rest h w stands; simp only [Group.wake, e]

/-- Registers still owed are owed after other registers have had their values. -/
theorem Group.Owes.of_cons {x z : Group} {l : Nat} {d : PReg × Nat} {ds : List (PReg × Nat)} {ws : List Word}
    (h : x.Owes l (d :: ds)) (hz : x.Received z l [d] ws) : z.Owes l ds := by
  obtain ⟨hnd, hp⟩ := h
  rw [List.map_cons, List.nodup_cons] at hnd
  refine ⟨hnd.2, fun e he => ⟨?_, (hp e (List.mem_cons_of_mem _ he)).2⟩⟩
  have hne : e.1 ∉ [d].map (·.1) := by
    intro hm
    exact hnd.1 (List.mem_map.2 ⟨e, he, by simpa using hm⟩)
  rw [(hz.rest l e.1 (.inr hne)).2]
  exact (hp e (List.mem_cons_of_mem _ he)).1

theorem Group.Received.cons {x y z : Group} {l : Nat} {d : PReg × Nat} {ds : List (PReg × Nat)} {w : Word} {ws : List Word}
    (hd : d.1 ∉ ds.map (·.1)) (h : x.Received y l [d] [w]) (h' : y.Received z l ds ws) : x.Received z l (d :: ds) (w :: ws) where
  landed p hp := by
    rw [List.zip_cons_cons, List.mem_cons] at hp
    obtain rfl | hp := hp
    · obtain ⟨h1, h2⟩ := h.landed (d, w) (by simp)
      obtain ⟨e1, e2⟩ := h'.rest l d.1 (.inr hd)
      exact ⟨e1.trans h1, e2.trans h2⟩
    · exact h'.landed p hp
  rest k r hr := by
    have h1 : (k ≠ l ∧ ∀ n, r ≠ .s n) ∨ r ∉ [d].map (·.1) := hr.imp_right fun hm hn => hm (by simp_all)
    have h2 : (k ≠ l ∧ ∀ n, r ≠ .s n) ∨ r ∉ ds.map (·.1) := hr.imp_right fun hm hn => hm (List.mem_cons_of_mem _ hn)
    exact ⟨((h'.rest k r h2).1).trans (h.rest k r h1).1, ((h'.rest k r h2).2).trans (h.rest k r h1).2⟩
  flags k := (h'.flags k).trans (h.flags k)
  uid := h'.uid.trans h.uid
  lost := h'.lost.trans h.lost

theorem Group.Received.nil {x : Group} {l : Nat} {dsts : List (PReg × Nat)} {vals : List Word} (h : dsts.zip vals = []) :
    x.Received x l dsts vals where
  landed p hp := by rw [h] at hp; exact absurd hp (by simp)
  rest _ _ _ := ⟨rfl, rfl⟩
  flags _ := rfl
  uid := rfl
  lost := rfl

/-- The sources of a closure or chain entry after values have landed. -/
def fillAll (dsts : List (PReg × Nat)) (vals : List Word) (srcs : List Src) : List Src :=
  (dsts.zip vals).foldl (fun x p => x.map (Src.fill p.1.2 p.2)) srcs

/-- What values landed in a group leave: the group has received them, entries of chains and closures have them, and nothing else has changed but
the SHFLs that waited for one. -/
structure State.Landed (s t : State) (g : Nat) (x : Group) (l : Nat) (dsts : List (PReg × Nat)) (vals : List Word) : Prop where
  rest : t = { s with groups := t.groups, resid := t.resid, ops := t.ops }
  others : ∀ h, h ≠ g → tabGet t.groups h = tabGet s.groups h
  group : ∃ z, tabGet t.groups g = some z ∧ x.Received z l dsts vals
  resid : ∀ id, tabGet t.resid id = (tabGet s.resid id).map fun r => { r with srcs := fillAll dsts vals r.srcs }

theorem State.land_group {s : State} {g l : Nat} {x : Group} (hx : tabGet s.groups g = some x) (r : PReg) (t : Nat) (w : Word) (b : Bool) :
    tabGet (s.land g x.uid l r t w b).groups g = some ((x.landed l r t w b).wake s.clock) := by
  show tabGet (s.modGroup g _).groups g = _
  rw [State.modGroup_get hx, if_pos rfl]

/-- Values that land under current tags (R102, R106). -/
theorem State.landAll_landed {g l : Nat} {stands : Nat → Bool} {dsts : List (PReg × Nat)} {vals : List Word} {s : State} {x : Group}
    (hx : tabGet s.groups g = some x) (ho : x.Owes l dsts) :
    s.Landed (s.landAll g x.uid l stands dsts vals) g x l dsts vals := by
  induction dsts generalizing s x vals with
  | nil =>
    have e : s.landAll g x.uid l stands [] vals = s := by cases vals <;> rfl
    rw [e]
    exact ⟨rfl, fun _ _ => rfl, ⟨x, hx, .nil rfl⟩, fun id => by simp [fillAll]⟩
  | cons d ds ih =>
    cases vals with
    | nil => exact ⟨rfl, fun _ _ => rfl, ⟨x, hx, .nil rfl⟩, fun id => by simp [fillAll, State.landAll]⟩
    | cons w ws =>
      have hd := ho.2 d (by simp)
      have hone := Group.received_one hd.1 hd.2 w (stands d.2) s.clock
      have huid : ((x.landed l d.1 d.2 w (stands d.2)).wake s.clock).uid = x.uid := hone.uid
      have hrec := ih (s := s.land g x.uid l d.1 d.2 w (stands d.2)) (vals := ws) (State.land_group hx ..) (ho.of_cons hone)
      rw [huid] at hrec
      obtain ⟨hr, hoth, ⟨z, hz, hzr⟩, hres⟩ := hrec
      have hfresh : d.1 ∉ ds.map (·.1) := (List.nodup_cons.1 ho.1).1
      refine ⟨hr, fun h hne => (hoth h hne).trans (tabGet_tabMod_ne _ _ hne), ⟨z, hz, hone.cons hfresh hzr⟩, fun id => ?_⟩
      refine (hres id).trans ?_
      rw [State.land, tabGet_tabMap, Option.map_map]
      rfl

/-- A flag that counts down in lanes of a group changes nothing that they hold. -/
def Group.counted (x : Group) (ls : List Nat) (f : Option Nat) (clock : Nat) : Group :=
  ({ x with lanes := ls.foldl (fun t l => tabMod t l fun y => y.decFlag f) x.lanes } : Group).wake clock

theorem Lane.decFlag_rest (y : Lane) (f : Option Nat) : y.decFlag f = { y with flags := (y.decFlag f).flags } := by
  cases f <;> rfl

/-- A lane that a group has not got reads as having no flags, and has none to count. -/
theorem noLane_decFlag (f : Option Nat) : ({ fin := true } : Lane).decFlag f = { fin := true } := by
  cases f <;> rfl

theorem foldl_decFlag_lane (ls : List Nat) (f : Option Nat) (t : Tab Lane) (k : Nat) (hd : ls.Nodup) :
    tabGetD (ls.foldl (fun t l => tabMod t l fun y => y.decFlag f) t) k { fin := true } =
      if k ∈ ls then (tabGetD t k { fin := true }).decFlag f else tabGetD t k { fin := true } := by
  split
  · next hk =>
    rw [tabGetD, foldl_tabMod_self ls (fun _ y => y.decFlag f) t k hk hd, tabGetD]
    cases tabGet t k with
    | none => exact (noLane_decFlag f).symm
    | some y => rfl
  · next hk => rw [tabGetD, foldl_tabMod_other ls (fun _ y => y.decFlag f) t k hk, tabGetD]

theorem Group.counted_lane (x : Group) {ls : List Nat} (f : Option Nat) (clock k : Nat) (hd : ls.Nodup) :
    ∃ n, (x.counted ls f clock).lane k = { (if k ∈ ls then (x.lane k).decFlag f else x.lane k) with stamp := n } := by
  obtain ⟨n, h⟩ := ({ x with lanes := ls.foldl (fun t l => tabMod t l fun y => y.decFlag f) x.lanes } : Group).wake_lane clock k
  refine ⟨n, h.trans ?_⟩
  rw [Group.lane, foldl_decFlag_lane ls f x.lanes k hd]
  rfl

theorem Group.counted_flags (x : Group) {ls : List Nat} (f : Option Nat) (clock : Nat) {k : Nat} (hd : ls.Nodup) (hk : k ∈ ls) :
    ((x.counted ls f clock).lane k).flags = ((x.lane k).decFlag f).flags := by
  obtain ⟨n, h⟩ := x.counted_lane f clock k hd
  rw [h, if_pos hk]

theorem Group.counted_holds (x : Group) {ls : List Nat} (f : Option Nat) (clock k : Nat) (hd : ls.Nodup) (r : PReg) :
    (x.counted ls f clock).holds k r = x.holds k r ∧ (x.counted ls f clock).pending k r = x.pending k r := by
  obtain ⟨n, h⟩ := x.counted_lane f clock k hd
  refine Group.holds_of_lane (x := x) (z := x.counted ls f clock) (n := n) (fl := ((x.counted ls f clock).lane k).flags) ?_ rfl rfl r
  rw [h]
  split
  · rw [Lane.decFlag_rest]
  · rfl

/-! ### An operation that leaves the table -/

/-- What an operation that has completed leaves: the values landed, the flag counted down, the operation gone. -/
structure State.Finished (s t : State) (id : Nat) (o : MemOp) (x z : Group) (vals : List Word) : Prop where
  rest : t = { s with groups := t.groups, resid := t.resid, ops := t.ops }
  gone : tabGet t.ops id = none
  get : tabGet t.groups o.g = some z
  uid : z.uid = x.uid
  lost : z.lost = x.lost
  flags : ∀ l ∈ o.lanes, (z.lane l).flags = ((x.lane l).decFlag o.flag).flags
  delivered : Delivered s t o.g o.lane o.dsts vals

theorem Lane.decFlag_flags_congr {y z : Lane} (f : Option Nat) (h : y.flags = z.flags) : (y.decFlag f).flags = (z.decFlag f).flags := by
  cases f with
  | none => exact h
  | some n => simp only [Lane.decFlag, Lane.setFlag, Lane.flag, h]; rfl

theorem State.finishOp_finished {s : State} {id : Nat} {o : MemOp} {x : Group} {vals : List Word} (hx : tabGet s.groups o.g = some x)
    (hu : x.uid = o.uid) (ho : x.Owes o.lane o.dsts) (hd : o.lanes.Nodup) :
    ∃ z, s.Finished (s.finishOp id o vals) id o x z vals := by
  have hs : s.group o.g = x := State.group_of_get hx
  obtain ⟨hr, hoth, ⟨y, hy, hrec⟩, hres⟩ :=
    State.landAll_landed (stands := fun n => o.toUniform && !o.stale.contains n) (vals := vals) hx ho
  rw [hu] at hr hoth hy hres
  generalize ht : s.landAll o.g o.uid o.lane (fun n => o.toUniform && !o.stale.contains n) o.dsts vals = t at hr hoth hy hres
  have hget : tabGet (t.countDown o.g o.uid o.lanes o.flag).groups o.g = some (y.counted o.lanes o.flag t.clock) := by
    rw [State.countDown, State.modGroup_get hy, if_pos (hrec.uid.trans hu)]
    rfl
  have hfin : s.finishOp id o vals = { t.countDown o.g o.uid o.lanes o.flag with ops := tabDel t.ops id } := by
    rw [State.finishOp, ht]
  have hz : (s.finishOp id o vals).group o.g = y.counted o.lanes o.flag t.clock := by
    rw [hfin]; exact State.group_of_get hget
  refine ⟨y.counted o.lanes o.flag t.clock, ?_, ?_, ?_, hrec.uid, hrec.lost, fun l hl => ?_, ?_⟩
  · rw [hfin, hr]; rfl
  · rw [hfin]; exact tabGet_tabDel_self ..
  · rw [hfin]; exact hget
  · rw [Group.counted_flags y o.flag t.clock hd hl]
    exact Lane.decFlag_flags_congr o.flag (hrec.flags l)
  · refine ⟨fun p hp => ?_, fun k r hk => ?_, fun h hne => ?_, fun i r hi _ => ?_⟩
    · rw [hz, (y.counted_holds o.flag t.clock o.lane hd p.1.1).1, (y.counted_holds o.flag t.clock o.lane hd p.1.1).2]
      exact hrec.landed p hp
    · rw [hz, hs, (y.counted_holds o.flag t.clock k hd r).1, (y.counted_holds o.flag t.clock k hd r).2]
      exact hrec.rest k r hk
    · rw [hfin]; exact (tabGet_tabMod_ne _ _ hne).trans (hoth h hne)
    · rw [hfin]
      exact (hres i).trans (by rw [hi]; rfl)

/-- The part of `AccessesComplete` that every completion concludes. -/
theorem State.Finished.after {s t : State} {id : Nat} {o : MemOp} {x z : Group} {vals : List Word} (h : s.Finished t id o x z vals)
    (hx : tabGet s.groups o.g = some x) :
    t = { s with groups := t.groups, ops := t.ops, resid := t.resid, cores := t.cores } ∧ (o.icinv = false → t.cores = s.cores) ∧
      tabGet t.ops id = none ∧ ∀ l ∈ o.lanes, ((t.group o.g).lane l).flags = (((s.group o.g).lane l).decFlag o.flag).flags := by
  refine ⟨?_, fun _ => ?_, h.gone, fun l hl => ?_⟩
  · rw [h.rest]
  · rw [h.rest]
  · rw [State.group_of_get h.get, State.group_of_get hx]
    exact h.flags l hl

/-- An ICINV leaves no word of its context in a cache that it reaches (R140). -/
theorem State.dropCode_icache (s : State) (ctx : Nat) (cores : Nat → Bool) {k a : Nat} (hk : cores k = true) (ha : a < 2 ^ 64) :
    tabGet ((s.dropCode ctx cores 0 (2 ^ 64)).core k).icache (icKey ctx a) = none := by
  rw [State.core, tabGetD, State.dropCode, tabGet_tabMap]
  cases tabGet s.cores k with
  | none => rfl
  | some c =>
    rw [Option.map_some, Option.getD_some, if_pos hk,
      tabGet_filter_key c.icache (fun n => !(decide (icKey ctx 0 ≤ n) && decide (n < icKey ctx 0 + 2 ^ 64)))]
    exact if_neg (by simp only [icKey]; simp; omega)

/-- A completion after an ICINV's words are gone is one of the state before in all but the caches. -/
theorem Delivered.of_dropped {s t : State} {ctx g l : Nat} {cores : Nat → Bool} {dsts : List (PReg × Nat)} {vals : List Word}
    (h : Delivered (s.dropCode ctx cores 0 (2 ^ 64)) t g l dsts vals) : Delivered s t g l dsts vals :=
  ⟨h.landed, h.rest, h.others, h.entries⟩

theorem freeWords_length (s : State) (i n : Nat) : (s.freeWords i n).length = n := by simp [State.freeWords, upto]

/-- MEMORY_ACCESS_COMPLETE from a state in which it is enabled. -/
theorem exec_memoryAccessComplete {id : Nat} {s : State} {o : MemOp} (hop : tabGet s.ops id = some o) (he : o.engine = false)
    (ha : o.awaits = none) (hr : o.remote = none) (hl : o.lost = false ∨ o.dsts = []) (hv : o.vals.length = o.dsts.length)
    (hi : o.icinv = true → s.chainBefore id o = false) :
    exec (.memoryAccessComplete id) s =
      .next ((if o.icinv then s.dropCode o.ctx o.reach.contains 0 (2 ^ 64) else s).finishOp id o o.vals) := by
  have hlost : (o.lost && o.dsts != []) = false := by rcases hl with h | h <;> simp [h]
  have hfull : o.full = true := by simp [MemOp.full, hv]
  have hchain : (o.icinv && s.chainBefore id o) = false := by cases hc : o.icinv <;> simp [hi, hc]
  show execMemoryAccessComplete id s = _
  simp [execMemoryAccessComplete, hop, he, ha, hr, hlost, hfull, hchain]

/-- The deferred errors of an access whose data is lost: one for its lane, of an LDU one for each (R116, R384). -/
def MemOp.lostErrors (o : MemOp) (dst : Nat) : List LostAccess :=
  (if o.toUniform then o.lanes else [o.lane]).map fun l => ⟨l, o.va, o.hdr, dst, o.issue⟩

/-- DEFERRED_ERROR_TRAP from a state in which it is enabled; the error names a register of the access. -/
theorem exec_deferredErrorTrap {id : Nat} {s : State} {o : MemOp} (hop : tabGet s.ops id = some o) (hl : o.lost = true) (hne : o.dsts ≠ []) :
    ∃ dst, exec (.deferredErrorTrap id) s =
      .next ((s.finishOp id o (s.freeWords (2 ^ 56) o.dsts.length)).modGroup o.g fun x =>
        if x.uid = o.uid then { x with lost := x.lost ++ o.lostErrors dst } else x) := by
  have hen : ¬(!o.lost || o.dsts == []) = true := by simp [hl, hne]
  show ∃ dst, execDeferredErrorTrap id s = _
  simp only [execDeferredErrorTrap, hop, if_neg hen]
  exact ⟨_, rfl⟩

/-- Once every value of an operation has landed, none of its registers is pending. -/
theorem Delivered.pending_none {s t : State} {g l : Nat} {dsts : List (PReg × Nat)} {vals : List Word} (h : Delivered s t g l dsts vals)
    (hv : vals.length = dsts.length) {d : PReg × Nat} (hd : d ∈ dsts) : (t.group g).pending l d.1 = none := by
  have hm : d ∈ (dsts.zip vals).map Prod.fst := by rwa [List.map_fst_zip (by omega)]
  obtain ⟨p, hp, rfl⟩ := List.mem_map.1 hm
  exact (h.landed p hp).2

/-- Settles O28: each completion is `finishOp`, after the caches of an ICINV and before the deferred error of a lost access. -/
theorem accessesComplete : Obligations.AccessesComplete := by
  unfold Obligations.AccessesComplete
  intro id s o hop hg hu ho hd after
  obtain ⟨x, hx⟩ := Option.isSome_iff_exists.1 hg
  rw [State.group_of_get hx] at hu ho
  refine ⟨fun he ha hr hl hv hi => ?_, fun he => ?_, fun hl hne => ?_⟩
  · rw [exec_memoryAccessComplete hop he ha hr hl hv hi]
    cases hc : o.icinv with
    | false =>
      obtain ⟨z, hz⟩ := State.finishOp_finished (s := s) (id := id) (vals := o.vals) hx hu ho hd
      exact ⟨_, rfl, hz.after hx, hz.delivered, fun h => absurd h (by decide)⟩
    | true =>
      obtain ⟨z, hz⟩ := State.finishOp_finished (s := s.dropCode o.ctx o.reach.contains 0 (2 ^ 64)) (id := id) (vals := o.vals) hx hu ho hd
      obtain ⟨hrest, -, hgone, hflags⟩ := hz.after hx
      refine ⟨_, rfl, ⟨?_, fun h => absurd (hc.symm.trans h) (by decide), hgone, hflags⟩, hz.delivered.of_dropped, fun _ k hk a ha => ?_⟩
      · rw [if_pos rfl, hrest]; rfl
      · rw [if_pos rfl, hz.rest]
        exact s.dropCode_icache o.ctx o.reach.contains (by simpa using hk) ha
  · obtain ⟨z, hz⟩ := State.finishOp_finished (s := s) (id := id) (vals := o.vals) hx hu ho hd
    refine ⟨_, ?_, hz.after hx, hz.delivered⟩
    show execEngineCommandComplete id s = _
    simp [execEngineCommandComplete, hop, he]
  · obtain ⟨z, hz⟩ := State.finishOp_finished (s := s) (id := id) (vals := s.freeWords (2 ^ 56) o.dsts.length) hx hu ho hd
    obtain ⟨dst, hex⟩ := exec_deferredErrorTrap hop hl hne
    obtain ⟨hrest, hcores, hgone, hflags⟩ := hz.after hx
    have hpend := fun d hd => hz.delivered.pending_none (freeWords_length s _ _) (d := d) hd
    generalize s.finishOp id o (s.freeWords (2 ^ 56) o.dsts.length) = t at hz hex hrest hcores hgone hflags hpend
    have hgroup := State.group_of_get (State.modGroup_get hz.get fun x => if x.uid = o.uid then { x with lost := x.lost ++ o.lostErrors dst } else x)
    rw [if_pos (hz.uid.trans hu)] at hgroup
    rw [State.group_of_get hz.get] at hflags hpend
    refine ⟨_, hex, ⟨?_, hcores, hgone, fun l hl => ?_⟩, fun d hd => ?_, o.lostErrors dst, ?_, ?_, ?_⟩
    · rw [hrest]; rfl
    · rw [hgroup]; exact hflags l hl
    · rw [hgroup]; exact hpend d hd
    · rw [hgroup, State.group_of_get hx, ← hz.lost]
    · rw [MemOp.lostErrors, List.map_map]; exact List.map_id _
    · intro e he
      obtain ⟨l, -, rfl⟩ := List.mem_map.1 he
      exact ⟨rfl, rfl, rfl⟩

end Sys2Proof.Machine

/-!
PROOFS. O29: the load that waits in the chain of a shadow run whose overlay passes 64 KiB as the load performs.
-/

namespace Sys2Proof.Machine

theorem length_le_tabSet {α : Type} (t : Tab α) (n : Nat) (v : α) : t.length ≤ (tabSet t n v).length := by
  induction t with
  | nil => simp [tabSet]
  | cons e t ih =>
    obtain ⟨k, w⟩ := e
    simp only [tabSet]
    split
    · simp
    · split
      · simp
      · simpa using ih

theorem length_le_foldl_tabSet {α : Type} (ps : List (α × Nat)) (va : Nat) (t : Tab α) :
    t.length ≤ (ps.foldl (fun t p => tabSet t (va + p.2) p.1) t).length := by
  induction ps generalizing t with
  | nil => exact le_rfl
  | cons p ps ih => exact (length_le_tabSet ..).trans (ih _)

/-- A store of a shadow run whose overlay is past 64 KiB abandons the check (R224). -/
theorem State.overlayStore_full (s : State) (team va : Nat) {sh : Shadow} (bs : List Byte) (h : 65536 < sh.overlay.length) :
    s.overlayStore team va sh bs = s.abandonCheck team :=
  if_pos (Nat.lt_of_lt_of_le h (length_le_foldl_tabSet ..))

/-- A store of a lane of such a run does that, and its region notes the bytes. -/
theorem State.storeAs_full (s : State) (i : Instr) (g l team va pa : Nat) {sh : Shadow} (bs : List Byte) (know : Tab Nat)
    (hs : (s.team team).shadow = some sh) (h : 65536 < sh.overlay.length) :
    s.storeAs i g l team va (.phys pa) bs know =
      ((s.modTeam team fun t => { t with digest := digestStep t.digest va bs }).abandonCheck team).modRegion (s.thread g l)
        fun r => r.writes ⟨va, .phys pa, bs.length⟩ := by
  simp only [State.storeAs, State.performStore, State.reaches, hs, Option.isSome_some, Bool.or_true, if_true, Option.isNone_some,
    Bool.false_and, Bool.not_false]
  rw [State.overlayStore_full _ _ _ _ h]

/-- What the model keeps of happens-before as lanes read is beside the accesses outstanding. -/
theorem State.readAs_ops (s : State) (i : Instr) (g : Nat) (ls : List Nat) (loc : Loc) (n : Nat) (rels : List Rel) (m : Option AtomWrite) :
    (s.readAs i g ls loc n rels m).ops = s.ops := by
  have hone (t : State) (l : Nat) : (t.noteRead g l (orderingOf i).1 rels).ops = t.ops := by
    unfold State.noteRead
    split
    · rfl
    · split
      · rw [State.acquireFrom]; split <;> rfl
      · rfl
  have hall (t : State) : (ls.foldl (fun t l => (t.noteRead g l (orderingOf i).1 rels).modRegion (t.thread g l) fun r => r.reads loc n) t).ops =
      t.ops := by
    induction ls generalizing t with
    | nil => rfl
    | cons l ls ih => exact (ih _).trans (hone t l)
  refine Eq.trans ?_ (hall s)
  unfold State.readAs State.noteReaders
  split <;> rfl

/-- A load of a chain that performs is outstanding from then on, with the words that it reads. -/
theorem State.performEntry_load (s : State) (id : Nat) {r : Resid} {after : List Nat} {loc : Loc} {n va : Nat}
    (h : r.kind = .load after loc n va) :
    let ls := r.lane :: r.lanes.filter fun l => l != r.lane
    tabGet (s.performEntry id r).ops id = some (r.toOp s
      ((loadSize r.ins).extend (s.loadRead r.g r.lane (s.group r.g).team va loc n (s.missed r.g ls r.ins loc))) va loc n true) := by
  simp only [State.performEntry, h]
  rw [State.readAs_ops]
  exact tabGet_tabSet_self ..

/-- The LD that waits: four bytes at address 0. -/
def waitingLoad : Resid :=
  { g := 7, lane := 0, lanes := [0], ins := .ld false .b32 0 0 (.lit 0), kind := .load [] (.phys 0) 4 0, dsts := [(.v 0, 3)] }

/-- The second half of a B128 store of the same thread. -/
def waitingHalf : Resid :=
  { g := 7, lane := 0, lanes := [0], ins := .st false .b128 0 0 (.lit 0), kind := .half (.phys 72) 72 [1, 2, 3, 4, 5, 6, 7, 8] }

/-- A group of team 6, a shadow run with an overlay `o`. Team 0, another shadow run, has written 0x55 at address 0. -/
def overfullShadow (o : Tab Byte) : State :=
  { groups := [(7, { team := 6, lanes := [(0, {})] })]
    teams := [(0, { grid := 0, tid := 0, shadow := some { primary := 9, overlay := [(0, 0x55)] } }),
      (6, { grid := 0, tid := 6, shadow := some { primary := 9, overlay := o } })]
    resid := [(0, waitingLoad), (1, waitingHalf)]
    nextId := 2 }

/-- The half is made: the check is abandoned, and the group and its team are gone. -/
def overfullAbandoned : State :=
  { teams := [(0, { grid := 0, tid := 0, shadow := some { primary := 9, overlay := [(0, 0x55)] } })]
    abandon := 1
    nextId := 2 }

/-- The half is out of the chain, and its store is to be made. -/
def overfullStoring (o : Tab Byte) : State := ({ overfullShadow o with resid := [(0, waitingLoad)] } : State).noteActed 7 0

theorem finishHalves_overfullShadow {o : Tab Byte} (h : 65536 < o.length) :
    ∃ ord, (overfullShadow o).finishHalves 7 0 = { overfullAbandoned with order := ord } ∧ ord.atoms = [] := by
  have hf : (overfullShadow o).finishHalves 7 0 = ((overfullStoring o).storeAs waitingHalf.ins 7 0 6 72 (.phys 72) [1, 2, 3, 4, 5, 6, 7, 8]
    (waitingHalf.knowNow (overfullStoring o))).countDown 7 0 [0] none := rfl
  rw [hf, State.storeAs_full (overfullStoring o) waitingHalf.ins 7 0 6 72 72 [1, 2, 3, 4, 5, 6, 7, 8] _ rfl h]
  exact ⟨_, rfl, rfl⟩

/-- The load then performs for no group and no team: it reads what team 0 has written. -/
theorem exec_overfullShadow {o : Tab Byte} (h : 65536 < o.length) :
    ∃ t op, exec (.chainEntryPerform 0) (overfullShadow o) = .next t ∧ tabGet t.ops 0 = some op ∧ op.vals = [0x55] := by
  obtain ⟨ord, hu, -⟩ := finishHalves_overfullShadow h
  have hx : exec (.chainEntryPerform 0) (overfullShadow o) =
      .next ((((overfullShadow o).finishHalves 7 0).performEntry 0 waitingLoad).sealLearns 0 [((overfullShadow o).thread 7 0, 0)]) := rfl
  have hop := State.performEntry_load { overfullAbandoned with order := ord } 0 (r := waitingLoad) rfl
  rw [← hu] at hop
  refine ⟨_, _, hx, (congrArg (tabGet · 0) ?_).trans hop, ?_⟩
  · unfold State.sealLearns
    split <;> rfl
  · rw [hu]
    rfl

/-- Of its own team's overlay nothing is left: the only read that the statement allows is of memory. -/
theorem mayRead_overfullAbandoned {ord : Order} (h : ord.atoms = []) {bs : List Byte} :
    let u : State := { overfullAbandoned with order := ord }
    u.mayRead waitingLoad.ins 7 [0] (.phys 0) (u.loadBytes 6 0 (.phys 0) 4) bs → bs = [0, 0, 0, 0] := by
  intro u hr
  have hnow : u.loadBytes 6 0 (.phys 0) 4 = [0, 0, 0, 0] := rfl
  have hsyncs : u.syncsOf (.phys 0) (readBytes waitingLoad.ins) = [] := by
    unfold State.syncsOf
    rw [show u.order.atoms = [] from h]
    rfl
  rw [hnow] at hr
  obtain ⟨e, he, -⟩ | ⟨-, hbs⟩ | ⟨hlen, -⟩ := hr
  · rw [hsyncs] at he
    exact absurd he (by simp)
  · exact hbs
  · exact absurd hlen (by decide)

/-- Refutes O29, by its clause of a load that waits, which does not ask that the load's team be no shadow run. A group of the shadow run
`overfullShadow`, whose overlay is past 64 KiB, has such a load in a chain, and the second half of a B128 store before it: the half abandons the
check and takes the group with it, and the load brings what team 0, a shadow run as well, has written at its address. The bytes that the clause
allows are those of memory there. -/
theorem not_closuresAndEntriesRun : ¬ Obligations.ClosuresAndEntriesRun := by
  unfold Obligations.ClosuresAndEntriesRun
  intro h
  have hfull : 65536 < (List.replicate 65537 ((0 : Nat), (0 : Byte))).length := by rw [List.length_replicate]; decide
  generalize List.replicate 65537 ((0 : Nat), (0 : Byte)) = o at hfull
  obtain ⟨-, -, hchain⟩ := h 0 (overfullShadow o) waitingLoad rfl rfl (by decide)
  obtain ⟨-, -, hload, -⟩ := hchain rfl
  obtain ⟨t, bs, hex, -, -, hread, op, hop, -, -, -, -, -, hvals⟩ := hload [] (.phys 0) 4 0 rfl rfl
  obtain ⟨ord, hu, hatoms⟩ := finishHalves_overfullShadow hfull
  obtain ⟨t', op', hex', hop', hvals'⟩ := exec_overfullShadow hfull
  have hbs : bs = [0, 0, 0, 0] := by
    refine mayRead_overfullAbandoned hatoms ?_
    rw [← hu]
    exact hread
  obtain rfl : t = t' := by simpa [hex'] using hex.symm
  obtain rfl : op = op' := Option.some.inj (hop.symm.trans hop')
  rw [hbs] at hvals
  exact absurd (hvals.symm.trans hvals') (by decide)

end Sys2Proof.Machine

/-!
PROOFS. Queues and counters: what a read by a unit, the advance of a write index and the delivery of a packet leave of queues, counters and groups.
-/

namespace Sys2Proof.Machine

/-! ### Reads -/

/-- A state in which lines have been read: beyond who holds them only TLBs and counts of cores have changed. -/
def TouchedOnly (s t : State) : Prop := t = { s with cores := t.cores, leases := t.leases, hostLines := t.hostLines }

theorem TouchedOnly.refl (s : State) : TouchedOnly s s := rfl

theorem TouchedOnly.trans {s t u : State} (h : TouchedOnly s t) (k : TouchedOnly t u) : TouchedOnly s u := by
  unfold TouchedOnly at h k ⊢
  rw [k, h]

theorem TouchedOnly.foldl {α : Type} {f : State → α → State} (hf : ∀ s a, TouchedOnly s (f s a)) (l : List α) (s : State) :
    TouchedOnly s (l.foldl f s) := by
  induction l generalizing s with
  | nil => exact .refl s
  | cons a l ih => exact (hf s a).trans (ih _)

theorem State.touchRead_touchedOnly (s : State) (agent pa n : Nat) : TouchedOnly s (s.touchRead agent pa n) :=
  TouchedOnly.foldl (f := fun t (r : Nat × Nat) => t.readLine agent r.1 r.2) (fun _ _ => rfl) _ s

theorem State.fillTlb_touchedOnly (s : State) (w : Who) (acc : Acc) (va : Nat) : TouchedOnly s (s.fillTlb w acc va) := by
  have hcount : TouchedOnly s (s.count w.core w.ctx 5 1) := by
    have h := s.count_rest w.core w.ctx 5 1
    unfold TouchedOnly
    rw [h]
  unfold State.fillTlb
  split
  · exact .refl s
  · simp only
    split
    · exact hcount
    · split
      · exact hcount.trans rfl
      · exact hcount

theorem State.touchVa_touchedOnly (s : State) (w : Who) (va n : Nat) : TouchedOnly s (s.touchVa w va n) := by
  unfold State.touchVa
  split
  · exact .refl s
  · refine TouchedOnly.foldl (fun t p => ?_) _ s
    cases p.loc with
    | spad => exact .refl t
    | phys pa =>
      simp only
      split
      · exact (t.fillTlb_touchedOnly ..).trans (State.touchRead_touchedOnly ..)
      · exact (State.touchRead_touchedOnly ..)

/-- A read by a unit fills no TLB. -/
theorem State.touchVa_unit_cores (s : State) (ctx : Nat) (sys : Bool) (va n : Nat) : (s.touchVa (unitWho ctx sys) va n).cores = s.cores := by
  have h := s.touchVa_unitOnly ctx sys va n
  unfold UnitOnly at h
  rw [h]

theorem TouchedOnly.sameTables {s t : State} (h : TouchedOnly s t) (hc : t.cores = s.cores) : SameTables s t := by
  unfold TouchedOnly at h
  rw [hc] at h
  rw [h]
  exact ⟨fun _ => rfl, fun _ => rfl, rfl, rfl, rfl⟩

theorem State.touchVa_sameTables (s : State) (ctx : Nat) (sys : Bool) (va n : Nat) : SameTables s (s.touchVa (unitWho ctx sys) va n) :=
  (s.touchVa_touchedOnly ..).sameTables (s.touchVa_unit_cores ..)

theorem TouchedOnly.queues {s t : State} (h : TouchedOnly s t) : t.queues = s.queues := by unfold TouchedOnly at h; rw [h]
theorem TouchedOnly.counters {s t : State} (h : TouchedOnly s t) : t.counters = s.counters := by unfold TouchedOnly at h; rw [h]
theorem TouchedOnly.groups {s t : State} (h : TouchedOnly s t) : t.groups = s.groups := by unfold TouchedOnly at h; rw [h]
theorem TouchedOnly.mem {s t : State} (h : TouchedOnly s t) : t.mem = s.mem := by unfold TouchedOnly at h; rw [h]
theorem StoredOnly.queues {s t : State} (h : StoredOnly s t) : t.queues = s.queues := by unfold StoredOnly at h; rw [h]
theorem StoredOnly.counters {s t : State} (h : StoredOnly s t) : t.counters = s.counters := by unfold StoredOnly at h; rw [h]

theorem State.queue_congr {s t : State} (h : t.queues = s.queues) (q : Nat) : t.queue q = s.queue q := by rw [State.queue, State.queue, h]

theorem State.queue_modQueue (s : State) (q : Nat) (f : Queue → Queue) : (s.modQueue q f).queue q = f (s.queue q) := by
  rw [State.queue, tabGetD, State.modQueue_queues, tabGet_tabSet_self, Option.getD_some]

theorem State.modQueue_sameTables (s : State) (q : Nat) (f : Queue → Queue) : SameTables s (s.modQueue q f) :=
  ⟨fun _ => rfl, fun _ => rfl, rfl, rfl, rfl⟩

theorem State.putVa_storedOnly {s u : State} {w : Who} {va : Nat} {bs : List Byte} (h : s.putVa w va bs = .ok u) : StoredOnly s u := by
  obtain ⟨ps, -, rfl⟩ := State.putVa_eq_ok h
  exact State.foldl_putPiece_storedOnly ps (s, bs)

/-! ### The next slot -/

/-- A packet that becomes a head changes of its queue what the Drover knows of the head, and nothing more (R80). -/
theorem State.newHead_queue (s : State) (q : Nat) :
    ∃ p b n, (s.newHead q).queue q = { s.queue q with prio := p, boost := b, since := n } := by
  unfold State.newHead
  simp only
  split
  · exact ⟨(s.queue q).prio, (s.queue q).boost, (s.queue q).since, rfl⟩
  · rw [State.queue_modQueue, State.queue_congr (s.touchVa_touchedOnly ..).queues]
    exact ⟨_, _, _, rfl⟩

theorem State.newHead_counters (s : State) (q : Nat) : (s.newHead q).counters = s.counters := by
  unfold State.newHead
  simp only
  split
  · rfl
  · exact (s.touchVa_touchedOnly ..).counters

/-- An entry that goes into a queue moves its write index; counters stay as they were (R75, R76). -/
theorem State.pushSlot_queue {s v : State} {q : Nat} {bs : List Byte} (h : s.pushSlot q bs = .ok v) :
    (∃ p b n, v.queue q = { s.queue q with w := (s.queue q).w + 1, prio := p, boost := b, since := n }) ∧ v.counters = s.counters := by
  rw [State.pushSlot] at h
  split at h
  · cases h
  · next s1 h1 =>
    split at h
    · cases h
    · next s2 h2 =>
      have hs2 : StoredOnly s s2 := (State.putVa_storedOnly h1).trans (State.putVa_storedOnly h2)
      have hq : (s2.modQueue q fun y => { y with w := y.w + 1 }).queue q = { s.queue q with w := (s.queue q).w + 1 } := by
        rw [State.queue_modQueue, State.queue_congr hs2.queues]
      rw [← Except.ok.inj h]
      split
      · obtain ⟨p, b, n, hn⟩ := (s2.modQueue q fun y => { y with w := y.w + 1 }).newHead_queue q
        exact ⟨⟨p, b, n, by rw [hn, hq]⟩, (State.newHead_counters ..).trans hs2.counters⟩
      · exact ⟨⟨_, _, _, hq⟩, hs2.counters⟩

/-! ### What delivery leaves of the counters -/

theorem State.stamp_tables (s : State) (loc : Loc) (n : Nat) (writers : List Nat) (rels : List Rel) :
    (s.stamp loc n writers rels).counters = s.counters ∧ (s.stamp loc n writers rels).queues = s.queues := by
  unfold State.stamp
  cases loc with
  | spad => exact ⟨rfl, rfl⟩
  | phys pa => simp only; split <;> exact ⟨rfl, rfl⟩

/-- A release written to memory leaves counters and queues alone. -/
theorem State.putRel_tables {s v : State} {w : Who} {va : Nat} {bs : List Byte} {sc : Scope} {know : Tab Nat}
    (h : s.putRel w va bs sc know = .ok v) : v.counters = s.counters ∧ v.queues = s.queues := by
  have hstamps (ps : List Piece) (rels : List Rel) (t : State) :
      (ps.foldl (fun t p => t.stamp p.loc p.len [] rels) t).counters = t.counters ∧
        (ps.foldl (fun t p => t.stamp p.loc p.len [] rels) t).queues = t.queues := by
    induction ps generalizing t with
    | nil => exact ⟨rfl, rfl⟩
    | cons p ps ih =>
      obtain ⟨hc, hq⟩ := t.stamp_tables p.loc p.len [] rels
      exact ⟨(ih _).1.trans hc, (ih _).2.trans hq⟩
  unfold State.putRel at h
  split at h
  · next hput =>
    have hstored := State.putVa_storedOnly hput
    rw [← Except.ok.inj h]
    exact ⟨(hstamps ..).1.trans hstored.counters, (hstamps ..).2.trans hstored.queues⟩
  · cases h
  · cases h

theorem State.writeSignal_counters (s : State) (q ctx : Nat) (sys : Bool) (sig status : Nat) (know : Tab Nat) :
    (s.writeSignal q ctx sys sig status know).counters = s.counters := by
  unfold State.writeSignal
  split
  · rfl
  · split
    · next hput => exact (State.putRel_tables hput).1
    · rfl

theorem State.dropHeld_counters (s : State) (q : Nat) (h : Held) : (s.dropHeld q h).counters = s.counters := by
  unfold State.dropHeld
  simp only
  split
  · exact State.writeSignal_counters ..
  · rfl

theorem State.pushHeld_counters {s u : State} {q : Nat} {h : Held} (hu : s.pushHeld q h = .ok u) : u.counters = s.counters := by
  unfold State.pushHeld at hu
  split at hu
  · cases hu
  · next hpush =>
    rw [← Except.ok.inj hu]
    exact (State.pushSlot_queue hpush).2

theorem State.deliver_counters (s : State) (q : Nat) (h : Held) : (s.deliver q h).counters = s.counters := by
  unfold State.deliver
  simp only
  split
  · exact State.dropHeld_counters ..
  · split
    · rfl
    · split
      · next hpush => exact State.pushHeld_counters hpush
      · exact State.dropHeld_counters ..

theorem State.counter_tabSet (s : State) (c : Nat) (k : Counter) : ({ s with counters := tabSet s.counters c k } : State).counter c = k := by
  rw [State.counter, tabGetD, tabGet_tabSet_self, Option.getD_some]

/-- A counter that has fired is armed no more, and has the value it had (R79). -/
theorem State.fire_counter (s : State) (c : Nat) : (s.fire c).counter c = { s.counter c with armed := false } := by
  rw [State.counter, State.fire, State.deliver_counters]
  exact State.counter_tabSet ..

end Sys2Proof.Machine

/-!
PROOFS. O37: ENQ, DEQ and the counter instructions of one lane.
-/

namespace Sys2Proof.Machine

/-! ### A lane that is served and goes on -/

/-- Where a lane stands. -/
def Lane.spot (y : Lane) : DWord × DWord × Word × Bool := (y.pc, y.hdr, y.hword, y.inBody)

theorem Lane.advance_spot {y z : Lane} (h : y.spot = z.spot) (n : Nat) :
    (y.advance n).pc = (z.advance n).pc ∧ (y.advance n).inBody = (z.advance n).inBody := by
  simp only [Lane.spot, Prod.mk.injEq] at h
  obtain ⟨hpc, hhdr, hword, hbody⟩ := h
  have hend : y.bodyEnd = z.bodyEnd := by rw [Lane.bodyEnd, Lane.bodyEnd, hhdr, hword]
  rw [Lane.advance, Lane.advance, hend, hpc]
  by_cases h : z.pc + BitVec.ofNat 64 (4 * n) = z.bodyEnd
  · rw [if_pos h, if_pos h]
    exact ⟨rfl, rfl⟩
  · rw [if_neg h, if_neg h]
    exact ⟨rfl, hbody⟩

/-- The lane `l` of `c` stands where it did, and its group has not trapped. -/
def Stood (c : Cx) (l : Nat) (t : State) : Prop :=
  ∃ y, tabGet t.groups c.g = some y ∧ y.trap = c.x.trap ∧ (tabGet y.lanes l).isSome = true ∧ (y.lane l).spot = (c.x.lane l).spot

theorem State.Acts.stood {s : State} {c : Cx} (h : s.Acts c) {l : Nat} (hl : c.ls = [l]) : Stood c l s :=
  ⟨c.x, State.inFocus_group h.focus, rfl, h.slots l (by rw [hl]; exact List.mem_singleton_self l), rfl⟩

/-- In a set of one lane there is no other. -/
theorem Cx.eq_of_one {c : Cx} {l : Nat} (hl : c.ls = [l]) (k : Nat) (hk : k ∈ c.ls) : k = l := by rwa [hl, List.mem_singleton] at hk

theorem Stood.of_groups {c : Cx} {l : Nat} {s t : State} (h : Stood c l s) (hg : t.groups = s.groups) : Stood c l t := by
  unfold Stood
  rw [hg]
  exact h

/-- Its flag counts once more: a lane stands where it did. -/
theorem Group.incFlags_lane {x : Group} {l : Nat} (h : (tabGet x.lanes l).isSome = true) (f : Option Nat) :
    (x.incFlags [l] f).lane l = (x.lane l).incFlag f :=
  Group.withLanes_self (fun _ y => y.incFlag f) (List.mem_singleton_self l) (List.nodup_singleton l) h

theorem Group.incFlags_isSome (x : Group) (l : Nat) (f : Option Nat) : (tabGet (x.incFlags [l] f).lanes l).isSome = (tabGet x.lanes l).isSome :=
  x.withLanes_isSome (fun _ y => y.incFlag f) l (List.nodup_singleton l)

theorem Lane.incFlag_rest (y : Lane) (f : Option Nat) : y.incFlag f = { y with flags := (y.incFlag f).flags } := by cases f <;> rfl

/-- What a launch leaves of its group. -/
theorem State.launch_group {v : State} {c : Cx} {y : Group} (hy : tabGet v.groups c.g = some y) (i : Instr) (l : Nat) (dsts : List PReg)
    (o : MemOp) : tabGet (v.launch c i l [l] dsts o).groups c.g =
      some ((tagAll y l dsts (v.nextId + 1)).incFlags [l] ((c.x.lane l).flagOf i)) :=
  State.modGroup_get (s := { v with nextId := _, ops := _ }) hy _

theorem Stood.launch {c : Cx} {l : Nat} {v : State} (h : Stood c l v) (i : Instr) (dsts : List PReg) (o : MemOp) :
    Stood c l (v.launch c i l [l] dsts o) := by
  obtain ⟨y, hy, htrap, hs, hspot⟩ := h
  have hm := tagAll_markedOnly y l dsts (v.nextId + 1)
  have hs' : (tabGet (tagAll y l dsts (v.nextId + 1)).lanes l).isSome = true := (hm.isSome l).trans hs
  refine ⟨_, State.launch_group hy i l dsts o, ?_, (Group.incFlags_isSome ..).trans hs', ?_⟩
  · rw [← htrap, hm.rest]; rfl
  · rw [Group.incFlags_lane hs', Lane.incFlag_rest, hm.lane l]
    exact hspot

theorem Stood.counted {c : Cx} {l : Nat} {v : State} (h : Stood c l v) (i : Instr) : Stood c l (v.counted c i l) := by
  unfold State.counted
  split
  · exact h.launch ..
  · exact h

/-- The lane goes on: what an irreversible instruction leaves as it is done. -/
theorem State.done_group {v : State} {c : Cx} {y : Group} {l : Nat} {i : Instr} (hi : irreversible i = true)
    (hy : tabGet v.groups c.g = some y) (hs : (tabGet y.lanes l).isSome = true) :
    ∃ z, tabGet (v.done { c with ls := [l] } i).groups c.g = some z ∧ z.trap = y.trap ∧ z.spend = y.spend ∧
      z.lane l = (y.lane l).past i v.clock := by
  have hself : l ∈ [l] := List.mem_singleton_self l
  have hnodup : [l].Nodup := List.nodup_singleton l
  have hdone : v.done { c with ls := [l] } i = (v.irrev { c with ls := [l] }).advance { c with ls := [l] } (sizeOf' i) := by
    rw [State.done, hi]
    rfl
  refine ⟨(y.withLanes [l] fun _ z => { z with irrev := true }).withLanes [l] fun _ z => z.passed (sizeOf' i) v.clock, ?_, rfl, rfl, ?_⟩
  · rw [hdone]
    exact State.modGroup_get (State.modGroup_get hy _) _
  · rw [Group.withLanes_self _ hself hnodup (by rw [Group.withLanes_isSome _ _ _ hnodup]; exact hs), Group.withLanes_self _ hself hnodup hs]
    exact Lane.past_eq _ hi _

/-- What a served lane that has gone on leaves: it stands past its word, with what it had pending. -/
structure WentOn (i : Instr) (c : Cx) (l : Nat) (v t : State) : Prop where
  rest : t = { v with groups := t.groups }
  passed : Passed i c t
  pending : ∀ r, (t.group c.g).pending l r = (v.group c.g).pending l r

theorem Stood.done {c : Cx} {l : Nat} {v : State} {i : Instr} (h : Stood c l v) (hl : c.ls = [l]) (hi : irreversible i = true) :
    WentOn i c l v (v.done { c with ls := [l] } i) := by
  obtain ⟨y, hy, htrap, hs, hspot⟩ := h
  obtain ⟨z, hz, hztrap, hspend, hlane⟩ := State.done_group hi hy hs
  have hgroup := State.group_of_get hz
  obtain ⟨hpc, hbody⟩ := Lane.advance_spot hspot (sizeOf' i)
  refine ⟨?_, ⟨?_, fun k hk => ?_⟩, fun r => ?_⟩
  · rw [State.done, hi]; rfl
  · rw [hgroup, hztrap, htrap]
  · rw [hl, List.mem_singleton] at hk
    rw [hgroup, hk, hlane]
    exact ⟨hpc, hbody⟩
  · rw [hgroup, State.group_of_get hy]
    cases r with
    | s n => exact congrArg (tabGet · n) hspend
    | v n => rw [Group.pending, hlane]; exact congrArg (tabGet · n) (Lane.advance_pend ..)
    | p n => rw [Group.pending, hlane]; exact congrArg (tabGet · n) (Lane.advance_ppend ..)

/-- A set of one lane that can be served is: no lane parks, and it goes on. -/
theorem State.inOrder_serves {s v : State} {c : Cx} {l : Nat} {i : Instr} {serve : State → Nat → Option State} (hl : c.ls = [l])
    (hb : c.heldBelow l = false) (hv : serve s l = some v) (h : Stood c l v) (hi : irreversible i = true) :
    ∃ t, s.inOrder c i serve = .next t ∧ WentOn i c l v t := by
  have hdone := h.done hl hi
  generalize hu : v.done { c with ls := [l] } i = u at hdone
  have hget : tabGet (u.modLanes c.g [] fun _ y => { y with park := .ring, stamp := s.clock }).groups c.g = tabGet u.groups c.g := by
    rw [State.modLanes, State.modGroup_groups, tabGet_tabMod_self]
    cases tabGet u.groups c.g <;> rfl
  have hgroup : (u.modLanes c.g [] fun _ y => { y with park := .ring, stamp := s.clock }).group c.g = u.group c.g := by
    rw [State.group, State.group, tabGetD, tabGetD, hget]
  refine ⟨u.modLanes c.g [] fun _ y => { y with park := .ring, stamp := s.clock }, ?_, ?_, ?_, fun r => ?_⟩
  · simp only [State.inOrder, hl, List.foldl_cons, List.foldl_nil, hb, hv, bne_self_eq_false, Bool.or_self, Bool.false_eq_true, if_false,
      List.contains_nil, Bool.not_false, List.filter_true, List.length_nil, State.count_zero, Bool.and_false, hu]
  · rw [hdone.rest]; rfl
  · have hp := hdone.passed
    rw [Passed, ← hgroup] at hp
    exact hp
  · rw [hgroup]; exact hdone.pending r

/-! ### Destinations of a launch -/

/-- A mark of one register is no other register's. -/
theorem Group.markPending_pending_ne {x : Group} {l t : Nat} (h : (tabGet x.lanes l).isSome = true) {r q : PReg} (hne : q ≠ r) :
    (x.markPending l r t).pending l q = x.pending l q := by
  obtain ⟨y, hy⟩ := Option.isSome_iff_exists.1 h
  cases r with
  | s n =>
    cases q with
    | s m => exact tabGet_tabSet_ne _ _ fun e => hne (by rw [e])
    | v m | p m => rfl
  | v n =>
    cases q with
    | v m =>
      simp only [Group.markPending, Group.pending, Group.lane, tabGetD, tabGet_tabMod_self, hy, Option.map_some, Option.getD_some]
      exact tabGet_tabSet_ne _ _ fun e => hne (by rw [e])
    | s m => rfl
    | p m => simp [Group.markPending, Group.pending, Group.lane, tabGetD, hy]
  | p n =>
    cases q with
    | p m =>
      simp only [Group.markPending, Group.pending, Group.lane, tabGetD, tabGet_tabMod_self, hy, Option.map_some, Option.getD_some]
      exact tabGet_tabSet_ne _ _ fun e => hne (by rw [e])
    | s m => rfl
    | v m => simp [Group.markPending, Group.pending, Group.lane, tabGetD, hy]

theorem tagAll_pending_ne {x : Group} {l t : Nat} (h : (tabGet x.lanes l).isSome = true) {rs : List PReg} {q : PReg} (hq : q ∉ rs) :
    (tagAll x l rs t).pending l q = x.pending l q := by
  induction rs generalizing x t with
  | nil => rfl
  | cons r rs ih =>
    rw [List.mem_cons, not_or] at hq
    exact (ih ((x.markPending_markedOnly l r t).isSome l |>.trans h) hq.2).trans (Group.markPending_pending_ne h hq.1)

/-- Distinct registers are pending under the tags that they were given. -/
theorem tagAll_pending {x : Group} {l t : Nat} (h : (tabGet x.lanes l).isSome = true) {rs : List PReg} (hd : rs.Nodup) :
    ∀ d ∈ rs.zip ((upto rs.length).map (t + ·)), (tagAll x l rs t).pending l d.1 = some d.2 := by
  induction rs generalizing x t with
  | nil => simp
  | cons r rs ih =>
    rw [List.nodup_cons] at hd
    have hs := (x.markPending_markedOnly l r t).isSome l |>.trans h
    have hzip : (r :: rs).zip ((upto (r :: rs).length).map (t + ·)) = (r, t) :: rs.zip ((upto rs.length).map (t + 1 + ·)) := by
      simp [upto, List.range_succ_eq_map, Function.comp_def, Nat.add_assoc, Nat.add_comm 1]
    rw [hzip]
    intro d hm
    obtain rfl | hm := List.mem_cons.1 hm
    · exact (tagAll_pending_ne hs hd.1).trans (Group.markPending_self h r t)
    · exact ih hs hd.2 d hm

/-- Counting flags leaves pending marks alone. -/
theorem Group.incFlags_pending {x : Group} {l : Nat} (h : (tabGet x.lanes l).isSome = true) (f : Option Nat) (r : PReg) :
    (x.incFlags [l] f).pending l r = x.pending l r := by
  have hl := Group.incFlags_lane h f
  rw [Lane.incFlag_rest] at hl
  cases r with
  | s n => rfl
  | v n | p n => rw [Group.pending, hl, Group.pending]

/-- A launch of one lane: the access is outstanding, and its destinations are pending under its tags (R102). -/
theorem Stood.launched {i : Instr} {s v : State} {c : Cx} {l : Nat} (h : Stood c l v) (hid : s.nextId ≤ v.nextId) {dsts : List PReg}
    (hd : dsts.Nodup) (vals : List Word) : Launched i s c (v.launch c i l [l] dsts { vals := vals }) l [l] dsts vals := by
  obtain ⟨y, hy, -, hs, -⟩ := h
  have hs' : (tabGet (tagAll y l dsts (v.nextId + 1)).lanes l).isSome = true := ((tagAll_markedOnly ..).isSome l).trans hs
  refine ⟨v.nextId, _, hid, tabGet_tabSet_self .., rfl, rfl, rfl, rfl, rfl, ?_, rfl, rfl, rfl, rfl, fun d hm => ?_⟩
  · exact List.map_fst_zip (by simp [upto])
  · rw [State.group_of_get (State.launch_group hy ..), Group.incFlags_pending hs']
    exact tagAll_pending hs hd d hm

theorem Launched.of_ops {i : Instr} {s t u : State} {c : Cx} {l : Nat} {lanes : List Nat} {dsts : List PReg} {vals : List Word}
    (h : Launched i s c t l lanes dsts vals) (ho : u.ops = t.ops) (hp : ∀ r, (u.group c.g).pending l r = (t.group c.g).pending l r) :
    Launched i s c u l lanes dsts vals := by
  obtain ⟨id, o, hid, hget, h1, h2, h3, h4, h5, h6, h7, h8, h9, h10, hpend⟩ := h
  exact ⟨id, o, hid, by rw [ho]; exact hget, h1, h2, h3, h4, h5, h6, h7, h8, h9, h10, fun d hm => (hp d.1).trans (hpend d hm)⟩

/-! ### What is known of happens-before -/

/-- A state in which nothing has changed but what is known of happens-before. -/
def OrderOnly (s t : State) : Prop := t = { s with order := t.order }

theorem OrderOnly.foldl {α : Type} {f : State → α → State} (hf : ∀ s a, OrderOnly s (f s a)) (l : List α) (s : State) :
    OrderOnly s (l.foldl f s) := by
  induction l generalizing s with
  | nil => exact rfl
  | cons a l ih =>
    have h := hf s a
    have k := ih (f s a)
    unfold OrderOnly at h k ⊢
    rw [List.foldl_cons, k, h]

theorem State.noteRelease_orderOnly (s : State) (g l : Nat) (sc : Scope) : OrderOnly s (s.noteRelease g l sc) := by
  unfold State.noteRelease
  split
  · exact rfl
  · exact rfl

theorem State.acquireAt_orderOnly (s : State) (g : Nat) (ls : List Nat) (sc : Scope) (key : Nat) : OrderOnly s (s.acquireAt g ls sc key) := by
  refine OrderOnly.foldl (fun t l => ?_) ls s
  unfold State.acquireFrom
  split
  · exact rfl
  · exact rfl

theorem State.releaseAt_orderOnly (s : State) (g : Nat) (ls : List Nat) (sc : Scope) (key : Nat) : OrderOnly s (s.releaseAt g ls sc key) := by
  have h := OrderOnly.foldl (fun t l => State.noteRelease_orderOnly t g l sc) ls (s.publish key (s.relsOf g ls sc))
  unfold OrderOnly at h
  unfold OrderOnly State.releaseAt
  rw [h]
  rfl

/-- What serving a lane leaves beside what the instruction does: the access that counts on its flag, and what is known of happens-before. -/
def ServedOnly (s t : State) : Prop := t = { s with groups := t.groups, ops := t.ops, nextId := t.nextId, order := t.order }

theorem ServedOnly.trans {s t u : State} (h : ServedOnly s t) (k : ServedOnly t u) : ServedOnly s u := by
  unfold ServedOnly at h k ⊢
  rw [k, h]

theorem OrderOnly.servedOnly {s t : State} (h : OrderOnly s t) : ServedOnly s t := by
  unfold OrderOnly at h
  unfold ServedOnly
  rw [h]

theorem OrderOnly.groups {s t : State} (h : OrderOnly s t) : t.groups = s.groups := by unfold OrderOnly at h; rw [h]
theorem OrderOnly.ops {s t : State} (h : OrderOnly s t) : t.ops = s.ops := by unfold OrderOnly at h; rw [h]

theorem State.launch_servedOnly (s : State) (c : Cx) (i : Instr) (l : Nat) (lanes : List Nat) (dsts : List PReg) (o : MemOp) :
    ServedOnly s (s.launch c i l lanes dsts o) := rfl

theorem State.counted_servedOnly (s : State) (c : Cx) (i : Instr) (l : Nat) : ServedOnly s (s.counted c i l) := by
  unfold State.counted
  split
  · exact s.launch_servedOnly ..
  · exact rfl

theorem WentOn.servedOnly {i : Instr} {c : Cx} {l : Nat} {v t : State} (h : WentOn i c l v t) : ServedOnly v t := by
  have hr := h.rest
  unfold ServedOnly
  rw [hr]

theorem ServedOnly.queues {s t : State} (h : ServedOnly s t) : t.queues = s.queues := by unfold ServedOnly at h; rw [h]
theorem ServedOnly.counters {s t : State} (h : ServedOnly s t) : t.counters = s.counters := by unfold ServedOnly at h; rw [h]
theorem ServedOnly.mem {s t : State} (h : ServedOnly s t) : t.mem = s.mem := by unfold ServedOnly at h; rw [h]

end Sys2Proof.Machine

/-!
PROOFS. O37: an ENQ, a DEQ, a change of a counter and a DEPSET of one lane, each from a state in which it is served.
-/

namespace Sys2Proof.Machine

/-! ### ENQ -/

theorem Cx.ahead_one {c : Cx} {l : Nat} (hl : c.ls = [l]) (q : Nat → Nat) : c.ahead q l = 0 := by simp [Cx.ahead, hl]

theorem State.readOpd_vreg {s : State} {c : Cx} (h : s.Acts c) (l : Nat) (d : VField) : s.readOpd c.x l (.v d.toNat) = s.vreg c l d := by
  rw [State.vreg, h.group]

/-- What ENQ leaves beside the entry: the packet's lines read, and the right of its index noted (R66). -/
def State.enqueued (v : State) (c : Cx) (i : Instr) (l q va idx : Nat) (task : Bool) : State :=
  let v := if task then v else v.touchVa c.who va 128
  let v := if c.gr.pkt.sys && !task then v.modQueue q fun y => { y with privok := y.privok ++ [idx] } else v
  (v.releaseAt c.g [l] .device (slotSync q idx)).counted c i l

/-- A lane whose queue has room enqueues (R351, R352). -/
theorem exec_enq_serves {d a : VField} {s v : State} {c : Cx} {l id : Nat} {x : Queue} {bs : List Byte} (hl : c.ls = [l])
    (hb : c.heldBelow l = false) (h : s.Ready (.enq d a) c) (hd : (s.vreg c l d).toNat = id) (hx : s.queue id = x) (hid : id < 64)
    (hen : x.en = true) (hdev : x.device = true) (hctx : x.ctxid = c.gr.ctx) (hroom : x.w - x.r < x.slots) (hhold : x.hold = [])
    (hring : s.ringFail id x.w .store = [none, none])
    (htask : x.task = true → a.toNat % 4 = 0 ∧ s.vreg c l a ≠ 0 ∧ (v4 a).any (c.x.isPending l) = false)
    (hbytes : s.enqBytes c l id a = .ok bs) (hpush : s.pushSlot id bs = .ok v)
    (hstood : Stood c l (v.enqueued c (.enq d a) l id (s.readPair c.x l a) x.w x.task)) :
    ∃ t, exec (.enq d a) s = .next t ∧ WentOn (.enq d a) c l (v.enqueued c (.enq d a) l id (s.readPair c.x l a) x.w x.task) t := by
  have hw : s.readOpd c.x l (.v d.toNat) = s.vreg c l d := State.readOpd_vreg h.toActs l d
  have hq : queueOf (s.vreg c l d) = id := (Nat.mod_eq_of_lt (hd ▸ hid)).trans hd
  have hone := Cx.eq_of_one hl
  have hparks : ∀ k ∈ c.ls,
      ((s.queue (queueOf (s.readOpd c.x k (.v d.toNat)))).task && a.toNat % 4 == 0 && (v4 a).any (c.x.isPending k)) = false := by
    intro k hk
    rw [hone k hk, hw, hq, hx]
    cases ht : x.task with
    | false => rfl
    | true => rw [(htask ht).2.2, Bool.and_false]
  have hentry : x.task = false ∨ a.toNat % 4 = 0 ∧ ¬ s.vreg c l a = 0#32 := by
    cases ht : x.task with
    | false => exact .inl rfl
    | true => exact .inr ⟨(htask ht).1, (htask ht).2.1⟩
  have hfull : (!x.en || decide (x.slots ≤ x.w - x.r) || !x.hold.isEmpty) = false := by simp [hen, hroom, hhold]
  rw [exec, execEnq, issue_ready rfl h, State.parking_none hparks, State.checked_none]
  · refine State.inOrder_serves hl hb ?_ hstood rfl
    simp only [hw, hq, hx, hfull, hbytes, hpush, Bool.false_eq_true, if_false]
    rfl
  · intro k hk
    have hreg : s.readOpd c.x l (.v a.toNat) = s.vreg c l a := State.readOpd_vreg h.toActs l a
    simp [hone k hk, hw, hq, hx, hd, hid, v4, hreg, hentry, hbytes, hen, hdev, hctx, hring, Cx.ahead_one hl, firstOf, must, failOf]

theorem UnitOnly.groups {s t : State} (h : UnitOnly s t) : t.groups = s.groups := by unfold UnitOnly at h; rw [h]
theorem UnitOnly.nextId {s t : State} (h : UnitOnly s t) : t.nextId = s.nextId := by unfold UnitOnly at h; rw [h]

/-- The enqueued state differs from the one after the entry in nothing that a queue's indices or memory hold. -/
theorem State.enqueued_keeps {v : State} {c : Cx} {l : Nat} (h : Stood c l v) (i : Instr) (q va idx : Nat) (task : Bool) :
    (v.enqueued c i l q va idx task).mem = v.mem ∧ ((v.enqueued c i l q va idx task).queue q).w = (v.queue q).w ∧
      ((v.enqueued c i l q va idx task).queue q).r = (v.queue q).r ∧ Stood c l (v.enqueued c i l q va idx task) := by
  have hread : ∃ u, u = (if task then v else v.touchVa c.who va 128) ∧ TouchedOnly v u := by
    refine ⟨_, rfl, ?_⟩
    split
    · exact .refl v
    · exact v.touchVa_touchedOnly ..
  obtain ⟨u, hu, htouched⟩ := hread
  have hright : ∃ p, p = (if c.gr.pkt.sys && !task then u.modQueue q fun y => { y with privok := y.privok ++ [idx] } else u) ∧
      p.mem = v.mem ∧ p.groups = v.groups ∧ (p.queue q).w = (v.queue q).w ∧ (p.queue q).r = (v.queue q).r := by
    refine ⟨_, rfl, ?_⟩
    split
    · rw [State.queue_modQueue, State.queue_congr htouched.queues]
      exact ⟨htouched.mem, htouched.groups, rfl, rfl⟩
    · rw [State.queue_congr htouched.queues]
      exact ⟨htouched.mem, htouched.groups, rfl, rfl⟩
  obtain ⟨p, hp, hmem, hgroups, hw, hr⟩ := hright
  have he : v.enqueued c i l q va idx task = (p.releaseAt c.g [l] .device (slotSync q idx)).counted c i l := by
    rw [hp, hu]
    rfl
  have horder := p.releaseAt_orderOnly c.g [l] .device (slotSync q idx)
  have hserved := horder.servedOnly.trans (State.counted_servedOnly _ c i l)
  rw [he, hserved.mem, State.queue_congr hserved.queues]
  exact ⟨hmem, hw, hr, ((h.of_groups hgroups).of_groups horder.groups).counted i⟩

/-! ### DEQ -/

/-- The registers of a quad-aligned field are distinct. -/
theorem nodup_quad (y : Lane) {d : VField} (h : d.toNat % 4 = 0) : ((v4 d).filterMap (·.reg y)).Nodup := by
  simp only [v4, Opd.reg, List.filterMap_cons, List.filterMap_nil, Lane.arch]
  by_cases h96 : d.toNat < 96
  · have h1 : d.toNat + 1 < 96 := by omega
    have h2 : d.toNat + 2 < 96 := by omega
    have h3 : d.toNat + 3 < 96 := by omega
    simp [h96, h1, h2, h3]
  · have h1 : ¬ d.toNat + 1 < 96 := by omega
    have h2 : ¬ d.toNat + 2 < 96 := by omega
    have h3 : ¬ d.toNat + 3 < 96 := by omega
    simp [h96, h1, h2, h3]
    omega

theorem State.copyIndex_ok {s u : State} {q : Nat}
    (h : s.putVa (s.queue q).who ((s.queue q).field 8 8 + 0x80) (leBytes 8 (s.queue q).r) = .ok u) : s.copyIndex q = u := by
  rw [State.copyIndex]
  simp only [h]

/-- The entry at a queue's read index has been read: the index passes it, and so does its copy (R348, R349). -/
def State.dequeued (s : State) (q : Nat) : State :=
  let x := s.queue q
  ((s.touchVa x.who (x.slotAddr x.r) 16).modQueue q fun y => { y with r := y.r + 1 }).copyIndex q

theorem State.dequeued_keeps {s v : State} {q : Nat} {x : Queue} (hx : s.queue q = x)
    (hv : s.putVa x.who (x.field 8 8 + 0x80) (leBytes 8 (x.r + 1)) = .ok v) :
    (s.dequeued q).mem = v.mem ∧ (s.dequeued q).queue q = { x with r := x.r + 1 } ∧ (s.dequeued q).groups = s.groups ∧
      (s.dequeued q).nextId = s.nextId := by
  have htouched := s.touchVa_touchedOnly x.who (x.slotAddr x.r) 16
  have hsame := (s.touchVa_sameTables x.ctxid x.priv (x.slotAddr x.r) 16).trans (State.modQueue_sameTables _ q fun y => { y with r := y.r + 1 })
  obtain ⟨u, hu, hstored, hmem⟩ := hsame.putVa hv
  have hqueue : ((s.touchVa x.who (x.slotAddr x.r) 16).modQueue q fun y => { y with r := y.r + 1 }).queue q = { x with r := x.r + 1 } := by
    rw [State.queue_modQueue, State.queue_congr htouched.queues, hx]
  have hd : s.dequeued q = u := by
    rw [State.dequeued, hx]
    exact State.copyIndex_ok (by rw [hqueue]; exact hu)
  have hunit : UnitOnly s u :=
    ((s.touchVa_unitOnly x.ctxid x.priv (x.slotAddr x.r) 16).trans (State.modQueue_unitOnly ..)).trans hstored.unitOnly
  rw [hd]
  exact ⟨hmem, (State.queue_congr hstored.queues q).trans hqueue, hunit.groups, hunit.nextId⟩

/-- The entry's words. -/
def entryWords (bs : List Byte) : List Word := (List.range 4).map fun j => BitVec.ofNat 32 (fld bs (4 * j) 4)

/-- What a lane checks of its queue before it dequeues. -/
theorem exec_deq_serves {blocking : Bool} {d a : VField} {s v : State} {c : Cx} {l id : Nat} {x : Queue} (hl : c.ls = [l])
    (hb : c.heldBelow l = false) (h : s.Ready (.deq blocking a d) c) (hd : (s.vreg c l d).toNat = id) (hx : s.queue id = x) (hid : id < 64)
    (hen : x.en = true) (htask : x.task = true) (hctx : x.ctxid = c.gr.ctx) (hring : x.r < x.w → s.ringFail id x.r .load = [none, none])
    (hstood : Stood c l v)
    (hv : (∃ bs, x.r < x.w ∧ s.readVa x.who (x.slotAddr x.r) 16 = .ok bs ∧
        v = ((s.dequeued id).launch c (.deq blocking a d) l [l] (dstRegs (.deq blocking a d) c l) { vals := entryWords bs }).acquireAt c.g [l] .device
          (slotSync id x.r)) ∨
      (x.w ≤ x.r ∧ blocking = false ∧ v = s.launch c (.deq blocking a d) l [l] (dstRegs (.deq blocking a d) c l) { vals := [0, 0, 0, 0] })) :
    ∃ t, exec (.deq blocking a d) s = .next t ∧ WentOn (.deq blocking a d) c l v t := by
  have hw : s.readOpd c.x l (.v d.toNat) = s.vreg c l d := State.readOpd_vreg h.toActs l d
  have hq : queueOf (s.vreg c l d) = id := (Nat.mod_eq_of_lt (hd ▸ hid)).trans hd
  have hone := Cx.eq_of_one hl
  rw [exec, execDeq, issue_ready rfl h, State.checked_none]
  · refine State.inOrder_serves hl hb ?_ hstood rfl
    obtain ⟨bs, hlt, hread, rfl⟩ | ⟨hle, rfl, rfl⟩ := hv
    · simp only [hw, hq, hx, hlt, hread, if_true]
      subst hx
      rfl
    · simp only [hw, hq, hx, Nat.not_lt.2 hle, Bool.false_eq_true, if_false]
      rfl
  · intro k hk
    by_cases hlt : x.r < x.w
    · simp [hone k hk, hw, hq, hx, hd, hid, hen, htask, hctx, hring hlt, hlt, Cx.ahead_one hl, firstOf, must]
    · simp [hone k hk, hw, hq, hx, hd, hid, hen, htask, hctx, hlt, Cx.ahead_one hl, firstOf, must]

/-! ### Counters -/

/-- A change within bounds by which an armed counter does not come to zero (R77). -/
theorem State.change_moves {s : State} {c v : Nat} {d : Int} (hv : ((s.counter c).value : Int) + d = v) (hmax : v < 2 ^ 32)
    (hkeep : (s.counter c).armed = false ∨ (s.counter c).value = 0 ∨ v ≠ 0) (know : Tab Nat) :
    ∃ w, s.change c d know = { s with counters := tabSet s.counters c { s.counter c with value := v, know := w } } := by
  have hlow : ¬ ((s.counter c).value : Int) + d < 0 := by omega
  have hhigh : ¬ ((s.counter c).value : Int) + d > 0xFFFFFFFF := by omega
  have hclamp : (max 0 (min (((s.counter c).value : Int) + d) 0xFFFFFFFF)).toNat = v := by omega
  have hfire : ((s.counter c).armed && (s.counter c).value != 0 && v == 0) = false := by
    obtain h | h | h := hkeep <;> simp [h]
  refine ⟨joinTimes (s.counter c).know know, ?_⟩
  simp only [State.change, if_neg hlow, if_neg hhigh, hclamp, hfire, Bool.false_eq_true, if_false]

/-- An armed counter that comes to zero is fired: armed no more, and zero (R77, R79). -/
theorem State.change_fires {s : State} {c : Nat} {d : Int} (hv : ((s.counter c).value : Int) + d = 0) (ha : (s.counter c).armed = true)
    (hn : (s.counter c).value ≠ 0) (know : Tab Nat) :
    ((s.change c d know).counter c).armed = false ∧ ((s.change c d know).counter c).value = 0 := by
  have hlow : ¬ ((s.counter c).value : Int) + d < 0 := by omega
  have hhigh : ¬ ((s.counter c).value : Int) + d > 0xFFFFFFFF := by omega
  have hclamp : (max 0 (min (((s.counter c).value : Int) + d) 0xFFFFFFFF)).toNat = 0 := by omega
  have hfire : ((s.counter c).armed && (s.counter c).value != 0 && 0 == 0) = true := by simp [ha, hn]
  have he : ∃ w, s.change c d know = ({ s with counters := tabSet s.counters c { s.counter c with value := 0, know := w } } : State).fire c := by
    refine ⟨joinTimes (s.counter c).know know, ?_⟩
    simp only [State.change, if_neg hlow, if_neg hhigh, hclamp, hfire, if_true]
  obtain ⟨w, he⟩ := he
  rw [he, State.fire_counter, State.counter_tabSet]
  exact ⟨rfl, rfl⟩

/-- A lane's change is served: it goes on, and all else is as the change left it. -/
theorem State.served_counted {u : State} {c : Cx} {l : Nat} {i : Instr} (h : Stood c l u) (hl : c.ls = [l]) (hi : irreversible i = true) :
    ∃ t, t = ((u.noteRelease c.g l .device).counted c i l).done c i ∧ Passed i c t ∧ ServedOnly u t := by
  have horder := u.noteRelease_orderOnly c.g l .device
  have hdone := ((h.of_groups horder.groups).counted i).done hl hi
  rw [← hl] at hdone
  exact ⟨_, rfl, hdone.passed, (horder.servedOnly.trans (State.counted_servedOnly ..)).trans hdone.servedOnly⟩

theorem State.depChange_serves {s : State} {c : Cx} {l : Nat} {i : Instr} {d : VField} {b : BOp} (h : s.Acts c) (hl : c.ls = [l])
    (hi : irreversible i = true) (hid : (s.vreg c l d).toNat < 2 ^ 16) (f : Nat → Int) :
    ∃ t, s.depChange c i d b f = .next t ∧ Passed i c t ∧
      ServedOnly (s.change (s.vreg c l d).toNat (f (s.vb c l b).toNat) (s.seenBy c.g l)) t := by
  have hw : s.readOpd c.x l (.v d.toNat) = s.vreg c l d := State.readOpd_vreg h l d
  have hn : s.readB c l b = (s.vb c l b).toNat := by rw [State.readB, State.readOpd_b h]
  have hstood : Stood c l (s.change (s.vreg c l d).toNat (f (s.vb c l b).toNat) (s.seenBy c.g l)) :=
    (h.stood hl).of_groups (State.change_unitOnly ..).groups
  obtain ⟨t, ht, hpass, hserved⟩ := State.served_counted hstood hl hi
  refine ⟨t, ?_, hpass, hserved⟩
  have hone := Cx.eq_of_one hl
  rw [State.depChange, State.checked_none, ht]
  · simp only [hl, List.foldl_cons, List.foldl_nil, hw, hn]
  · intro k hk
    simpa [hone k hk, hw, must] using hid

/-- DEPSET arms an unarmed counter above zero with a packet that it can read (R295). -/
theorem State.depset_arms {s : State} {w : Who} {c n pkt : Nat} {bs : List Byte} (ha : (s.counter c).armed = false) (hn : 0 < n)
    (hb : s.readVa w pkt 128 = .ok bs) (q : Nat) (know : Tab Nat) :
    s.depset w c n pkt q know =
      { s.touchVa w pkt 128 with counters := tabSet s.counters c ⟨n, true, pkt, some q, bs, w.sys, s.clock, know⟩ } := by
  simp only [State.depset, ha, hb, Bool.false_eq_true, if_false, if_neg (Nat.pos_iff_ne_zero.1 hn)]

theorem exec_depset_serves {d a : VField} {b : BOp} {s : State} {c : Cx} {l id : Nat} {bs : List Byte} (hl : c.ls = [l])
    (h : s.Ready (.depset d a b) c) (hd : (s.vreg c l d).toNat = id) (hid : id < 2 ^ 22) (hpkt : (s.vpair c l a).toNat % 128 = 0)
    (hn : 0 < (s.vb c l b).toNat) (ha : (s.counter (id % 2 ^ 16)).armed = false) (hb : s.readVa c.who (s.vpair c l a).toNat 128 = .ok bs)
    (hen : (s.queue (id / 2 ^ 16)).en = true) (htask : (s.queue (id / 2 ^ 16)).task = false) (hdev : (s.queue (id / 2 ^ 16)).device = true)
    (hctx : (s.queue (id / 2 ^ 16)).ctxid = c.gr.ctx) :
    ∃ t, exec (.depset d a b) s = .next t ∧ Passed (.depset d a b) c t ∧
      ServedOnly { s.touchVa c.who (s.vpair c l a).toNat 128 with
        counters := tabSet s.counters (id % 2 ^ 16)
          ⟨(s.vb c l b).toNat, true, (s.vpair c l a).toNat, some (id / 2 ^ 16), bs, c.who.sys, s.clock, s.seenBy c.g l⟩ } t := by
  have hw : s.readOpd c.x l (.v d.toNat) = s.vreg c l d := State.readOpd_vreg h.toActs l d
  have hB : s.readB c l b = (s.vb c l b).toNat := by rw [State.readB, State.readOpd_b h.toActs]
  have hp : s.readPair c.x l a = (s.vpair c l a).toNat := by
    have h1 := (s.readOpd c.x l (.v a.toNat)).isLt
    have h2 := (s.readOpd c.x l (.v (a.toNat + 1))).isLt
    rw [State.vpair, h.toActs.group, BitVec.toNat_ofNat, Nat.mod_eq_of_lt]
    rw [State.readPair, pairNat]
    omega
  have hc : bits id 0 16 = id % 2 ^ 16 := by simp [bits]
  have hq : bits id 16 6 = id / 2 ^ 16 := by
    rw [bits]
    omega
  have hmap : failOf (s.xlateAll c.who .load (s.vpair c l a).toNat 128) = none := by
    rw [State.readVa] at hb
    split at hb
    · cases hb
    · next hx => rw [hx]; rfl
  have hstood : Stood c l { s.touchVa c.who (s.vpair c l a).toNat 128 with
      counters := tabSet s.counters (id % 2 ^ 16)
        ⟨(s.vb c l b).toNat, true, (s.vpair c l a).toNat, some (id / 2 ^ 16), bs, c.who.sys, s.clock, s.seenBy c.g l⟩ } :=
    (h.toActs.stood hl).of_groups (s.touchVa_touchedOnly ..).groups
  obtain ⟨t, ht, hpass, hserved⟩ := State.served_counted hstood hl (i := .depset d a b) rfl
  refine ⟨t, ?_, hpass, hserved⟩
  have hone := Cx.eq_of_one hl
  rw [exec, execDepset, issue_ready rfl h, State.checked_none, ht]
  · simp only [hl, List.foldl_cons, List.foldl_nil, hw, hd, hB, hp, hc, hq, State.depset_arms ha hn hb]
  · intro k hk
    have hid' : decide (id < 2 ^ 22) = true := decide_eq_true hid
    simp only [hone k hk, hw, hd, hid', hp, hpkt, hmap, hq, hen, htask, hdev, hctx, must]
    simp [firstOf]

end Sys2Proof.Machine

/-!
PROOFS. O37: what each of the instructions leaves of queues, counters and memory.
-/

namespace Sys2Proof.Machine

theorem State.counter_congr {s t : State} (h : t.counters = s.counters) (c : Nat) : t.counter c = s.counter c := by
  rw [State.counter, State.counter, h]

/-- ENQ of O37. -/
theorem exec_enq_one {d a : VField} {s v : State} {c : Cx} {l id : Nat} {x : Queue} {bs : List Byte} (hl : c.ls = [l])
    (hb : c.heldBelow l = false) (h : s.Ready (.enq d a) c) (hd : (s.vreg c l d).toNat = id) (hx : s.queue id = x) (hid : id < 64)
    (hen : x.en = true) (hdev : x.device = true) (hctx : x.ctxid = c.gr.ctx) (hroom : x.w - x.r < x.slots) (hhold : x.hold = [])
    (hring : s.ringFail id x.w .store = [none, none])
    (htask : x.task = true → a.toNat % 4 = 0 ∧ s.vreg c l a ≠ 0 ∧ (v4 a).any (c.x.isPending l) = false)
    (hbytes : s.enqBytes c l id a = .ok bs) (hpush : s.pushSlot id bs = .ok v) :
    ∃ t, exec (.enq d a) s = .next t ∧ Passed (.enq d a) c t ∧ t.mem = v.mem ∧ (t.queue id).w = x.w + 1 ∧ (t.queue id).r = x.r := by
  obtain ⟨⟨p, b, n, hq⟩, -⟩ := State.pushSlot_queue hpush
  have hstood : Stood c l v :=
    (h.toActs.stood hl).of_groups (State.pushSlot_unitOnly hpush).groups
  obtain ⟨hmem, hw, hr, hst⟩ := State.enqueued_keeps hstood (.enq d a) id (s.readPair c.x l a) x.w x.task
  obtain ⟨t, hex, hwent⟩ := exec_enq_serves hl hb h hd hx hid hen hdev hctx hroom hhold hring htask hbytes hpush hst
  refine ⟨t, hex, hwent.passed, hwent.servedOnly.mem.trans hmem, ?_, ?_⟩
  · rw [State.queue_congr hwent.servedOnly.queues, hw, hq, hx]
  · rw [State.queue_congr hwent.servedOnly.queues, hr, hq, hx]

/-- DEQ of O37 where there is an entry. -/
theorem exec_deq_entry {blocking : Bool} {d a : VField} {s v : State} {c : Cx} {l id : Nat} {x : Queue} {bs : List Byte} (hl : c.ls = [l])
    (hb : c.heldBelow l = false) (hwf : (Instr.deq blocking a d).wf = true) (h : s.Ready (.deq blocking a d) c) (hd : (s.vreg c l d).toNat = id)
    (hx : s.queue id = x) (hid : id < 64) (hen : x.en = true) (htask : x.task = true) (hctx : x.ctxid = c.gr.ctx) (hlt : x.r < x.w)
    (hring : s.ringFail id x.r .load = [none, none]) (hread : s.readVa x.who (x.slotAddr x.r) 16 = .ok bs)
    (hv : s.putVa x.who (x.field 8 8 + 0x80) (leBytes 8 (x.r + 1)) = .ok v) :
    ∃ t, exec (.deq blocking a d) s = .next t ∧ Passed (.deq blocking a d) c t ∧ t.mem = v.mem ∧ (t.queue id).r = x.r + 1 ∧
      Launched (.deq blocking a d) s c t l [l] (dstRegs (.deq blocking a d) c l) (entryWords bs) := by
  obtain ⟨hmem, hqueue, hgroups, hnext⟩ := State.dequeued_keeps hx hv
  have hstood : Stood c l (s.dequeued id) := (h.toActs.stood hl).of_groups hgroups
  have hnodup : (dstRegs (.deq blocking a d) c l).Nodup := nodup_quad _ (by simpa [Instr.wf, quadOk] using hwf)
  have hlaunched := hstood.launched (i := .deq blocking a d) hnext.ge hnodup (entryWords bs)
  have hst := hstood.launch (.deq blocking a d) (dstRegs (.deq blocking a d) c l) { vals := entryWords bs }
  have hserved := (s.dequeued id).launch_servedOnly c (.deq blocking a d) l [l] (dstRegs (.deq blocking a d) c l) { vals := entryWords bs }
  generalize hu : (s.dequeued id).launch c (.deq blocking a d) l [l] (dstRegs (.deq blocking a d) c l) { vals := entryWords bs } = u
    at hlaunched hst hserved
  have horder := u.acquireAt_orderOnly c.g [l] .device (slotSync id x.r)
  obtain ⟨t, hex, hwent⟩ := exec_deq_serves hl hb h hd hx hid hen htask hctx (fun _ => hring) (hst.of_groups horder.groups)
    (.inl ⟨bs, hlt, hread, by rw [hu]⟩)
  have hall := hserved.trans (horder.servedOnly.trans hwent.servedOnly)
  refine ⟨t, hex, hwent.passed, hall.mem.trans hmem, ?_, hlaunched.of_ops ?_ fun r => ?_⟩
  · rw [State.queue_congr hall.queues, hqueue]
  · rw [hwent.rest]; exact horder.ops
  · rw [hwent.pending r, State.group, horder.groups]; rfl

/-- DEQ.NB of O37 where there is none. -/
theorem exec_deq_empty {d a : VField} {s : State} {c : Cx} {l id : Nat} {x : Queue} (hl : c.ls = [l])
    (hb : c.heldBelow l = false) (hwf : (Instr.deq false a d).wf = true) (h : s.Ready (.deq false a d) c) (hd : (s.vreg c l d).toNat = id)
    (hx : s.queue id = x) (hid : id < 64) (hen : x.en = true) (htask : x.task = true) (hctx : x.ctxid = c.gr.ctx) (hle : x.w ≤ x.r) :
    ∃ t, exec (.deq false a d) s = .next t ∧ Passed (.deq false a d) c t ∧ t.mem = s.mem ∧ t.queues = s.queues ∧
      Launched (.deq false a d) s c t l [l] (dstRegs (.deq false a d) c l) [0, 0, 0, 0] := by
  have hstood : Stood c l s := h.toActs.stood hl
  have hnodup : (dstRegs (.deq false a d) c l).Nodup := nodup_quad _ (by simpa [Instr.wf, quadOk] using hwf)
  obtain ⟨t, hex, hwent⟩ := exec_deq_serves hl hb h hd hx hid hen htask hctx (fun hlt => absurd hlt (Nat.not_lt.2 hle))
    (hstood.launch _ _ _) (.inr ⟨hle, rfl, rfl⟩)
  have hall := (s.launch_servedOnly ..).trans hwent.servedOnly
  exact ⟨t, hex, hwent.passed, hall.mem, hall.queues, (hstood.launched le_rfl hnodup _).of_ops (by rw [hwent.rest]) hwent.pending⟩

/-- DEPADD and DEPDEC of O37 where the counter moves. -/
theorem exec_depChange_moves {i : Instr} {d : VField} {b : BOp} {s : State} {c : Cx} {l v : Nat} {f : Nat → Int} (h : s.Acts c)
    (hl : c.ls = [l]) (hi : irreversible i = true) (hex : exec i s = s.depChange c i d b f) (hid : (s.vreg c l d).toNat < 2 ^ 16)
    (hv : ((s.counter (s.vreg c l d).toNat).value : Int) + f (s.vb c l b).toNat = v) (hmax : v < 2 ^ 32)
    (hkeep : (s.counter (s.vreg c l d).toNat).armed = false ∨ (s.counter (s.vreg c l d).toNat).value = 0 ∨ v ≠ 0) :
    ∃ t, exec i s = .next t ∧ Passed i c t ∧ t.mem = s.mem ∧ t.queues = s.queues ∧
      ∃ w, t.counter (s.vreg c l d).toNat = { s.counter (s.vreg c l d).toNat with value := v, know := w } := by
  obtain ⟨t, ht, hpass, hserved⟩ := State.depChange_serves (b := b) h hl hi hid f
  obtain ⟨w, hw⟩ := State.change_moves hv hmax hkeep (s.seenBy c.g l)
  rw [hw] at hserved
  exact ⟨t, hex.trans ht, hpass, hserved.mem, hserved.queues, w, (State.counter_congr hserved.counters _).trans (State.counter_tabSet ..)⟩

/-- Settles O37, an instruction at a time: the lane is served (`State.inOrder_serves`, `State.served_counted`), and what serving it leaves of queues,
counters and memory is what the queue or the counter does. -/
theorem queuesAndCounters : Obligations.QueuesAndCounters := by
  unfold Obligations.QueuesAndCounters
  intro d a b blocking s c l id n k x hl hb
  obtain ⟨hd, hn, hk, hx⟩ : (s.vreg c l d).toNat = id ∧ (s.vb c l b).toNat = n ∧ s.counter id = k ∧ s.queue id = x :=
    ⟨rfl, rfl, rfl, rfl⟩
  clear_value x k n id
  subst hx hk hn hd
  refine ⟨?_, ?_, ?_, ?_, ?_⟩
  · intro i hwf h hid hen hdev hctx hroom hhold hring htask bs v hbytes hpush
    exact exec_enq_one hl hb h rfl rfl hid hen hdev hctx hroom hhold hring htask hbytes hpush
  · intro i hwf h hid hen htask hctx
    refine ⟨fun bs v hlt hring hread hv => exec_deq_entry hl hb hwf h rfl rfl hid hen htask hctx hlt hring hread hv, fun hle hnb => ?_⟩
    subst hnb
    exact exec_deq_empty hl hb hwf h rfl rfl hid hen htask hctx hle
  · intro i h hid hmax
    have hex : exec (.depadd d b) s = s.depChange c (.depadd d b) d b fun n => (n : Int) := by rw [exec, execDepadd, issue_ready rfl h]
    exact exec_depChange_moves h.toActs hl rfl hex hid (v := _ + _) (by push_cast; rfl) hmax (by omega)
  · intro i h hid hmax
    have hex : exec (.depdec d b) s = s.depChange c (.depdec d b) d b fun n => -(n : Int) := by rw [exec, execDepdec, issue_ready rfl h]
    refine ⟨fun hle hkeep => ?_, fun heq harm hpos => ?_⟩
    · exact exec_depChange_moves h.toActs hl rfl hex hid (v := _ - _) (Int.ofNat_sub hle).symm (by omega) (hkeep.imp_right fun _ => by omega)
    · obtain ⟨t, ht, hpass, hserved⟩ := State.depChange_serves (i := .depdec d b) (b := b) h.toActs hl rfl hid fun n => -(n : Int)
      have hzero : ((s.counter (s.vreg c l d).toNat).value : Int) + -((s.vb c l b).toNat : Int) = 0 := by rw [← heq, Int.add_right_neg]
      have hfires := State.change_fires hzero harm (Nat.pos_iff_ne_zero.1 (heq ▸ hpos)) (s.seenBy c.g l)
      rw [← State.counter_congr hserved.counters] at hfires
      exact ⟨t, hex.trans ht, hpass, hfires⟩
  · intro i q bs hwf h hid hpkt hn ha hbytes hen htask hdev hctx
    obtain ⟨t, ht, hpass, hserved⟩ := exec_depset_serves hl h rfl hid hpkt hn ha hbytes hen htask hdev hctx
    have htouched := s.touchVa_touchedOnly c.who (s.vpair c l a).toNat 128
    exact ⟨t, ht, hpass, hserved.mem.trans htouched.mem, hserved.queues.trans htouched.queues, s.seenBy c.g l,
      (State.counter_congr hserved.counters _).trans (State.counter_tabSet ..)⟩

end Sys2Proof.Machine

/-!
PROOFS. O50: descriptor bytes, the queue-table window, and what the Drover reads of queues.
-/

namespace Sys2Proof.Machine

/-! ### Bytes of a descriptor -/

theorem length_putBytes {l bs : List Byte} {ofs : Nat} (h : ofs + bs.length ≤ l.length) : (putBytes l ofs bs).length = l.length := by
  simp only [putBytes, List.length_append, List.length_take, List.length_drop]
  omega

theorem getD_putBytes {l bs : List Byte} {ofs : Nat} (h : ofs + bs.length ≤ l.length) (k : Nat) :
    (putBytes l ofs bs).getD k 0 = if ofs ≤ k ∧ k < ofs + bs.length then bs.getD (k - ofs) 0 else l.getD k 0 := by
  have htake : (l.take ofs).length = ofs := by rw [List.length_take]; omega
  simp only [putBytes, List.getD_eq_getElem?_getD]
  by_cases h1 : k < ofs
  · rw [if_neg (by omega), List.append_assoc, List.getElem?_append_left (by omega), List.getElem?_take_of_lt h1]
  · by_cases h2 : k < ofs + bs.length
    · rw [if_pos ⟨by omega, h2⟩, List.append_assoc, List.getElem?_append_right (by omega), List.getElem?_append_left (by omega), htake]
    · rw [if_neg (by omega), List.getElem?_append_right (by rw [List.length_append]; omega), List.getElem?_drop, List.length_append, htake]
      congr 2
      omega

/-- Bytes that stand before those replaced. -/
theorem take_drop_putBytes {l bs : List Byte} {o ofs n : Nat} (h : ofs + n ≤ o) (ho : o ≤ l.length) :
    ((putBytes l o bs).drop ofs).take n = (l.drop ofs).take n := by
  have htake : (l.take o).length = o := by rw [List.length_take]; omega
  rw [putBytes, List.append_assoc, List.drop_append_of_le_length (by omega), List.take_append_of_le_length (by rw [List.length_drop]; omega),
    List.drop_take, List.take_take, Nat.min_eq_left (by omega)]

theorem length_leBytes (n x : Nat) : (leBytes n x).length = n := by
  induction n generalizing x with
  | zero => rfl
  | succ n ih => rw [leBytes, List.length_cons, ih]

theorem leNat_leBytes (n x : Nat) (h : x < 2 ^ (8 * n)) : leNat (leBytes n x) = x := by
  induction n generalizing x with
  | zero => simp at h; simp [leBytes, leNat, h]
  | succ n ih =>
    have hx : x / 256 < 2 ^ (8 * n) := by
      rw [Nat.div_lt_iff_lt_mul (by decide)]
      calc x < 2 ^ (8 * (n + 1)) := h
        _ = 2 ^ (8 * n) * 256 := by rw [Nat.mul_add, pow_add]; rfl
    rw [leBytes, leNat, ih _ hx, BitVec.toNat_ofNat]
    omega

/-- Two queues whose descriptors agree up to STATUS: what the Drover reads of them is the same. -/
def Queue.Alike (x y : Queue) : Prop := ∀ ofs n, ofs + n ≤ 0x14 → y.field ofs n = x.field ofs n

theorem Queue.setField_alike {x : Queue} {o : Nat} (ho : 0x14 ≤ o) (hl : o ≤ x.desc.length) (n v : Nat) : x.Alike (x.setField o n v) := by
  intro ofs m h
  rw [Queue.field, Queue.field, Queue.setField, take_drop_putBytes (by omega) hl]

theorem Queue.Alike.who {x y : Queue} (h : x.Alike y) : y.who = x.who := by
  simp only [Queue.who, Queue.ctxid, Queue.priv, h 0x12 2 (by decide), h 0x11 1 (by decide)]

theorem Queue.Alike.slots {x y : Queue} (h : x.Alike y) : y.slots = x.slots := by simp only [Queue.slots, h 0x10 1 (by decide)]
theorem Queue.Alike.en {x y : Queue} (h : x.Alike y) : y.en = x.en := by simp only [Queue.en, h 0x11 1 (by decide)]
theorem Queue.Alike.task {x y : Queue} (h : x.Alike y) : y.task = x.task := by simp only [Queue.task, h 0x11 1 (by decide)]

theorem Queue.Alike.slotAddr {x y : Queue} (h : x.Alike y) (i : Nat) : y.slotAddr i = x.slotAddr i := by
  simp only [Queue.slotAddr, Queue.slotBytes, h.task, h.slots, h 0 8 (by decide)]

theorem Queue.length_setField {x : Queue} {o n : Nat} (v : Nat) (h : o + n ≤ x.desc.length) : (x.setField o n v).desc.length = x.desc.length := by
  rw [Queue.setField]
  exact length_putBytes (by rw [length_leBytes]; exact h)

/-- Clearing EN clears it. -/
theorem Queue.disable_en {x : Queue} (h : x.desc.length = 64) : x.disable.en = false := by
  have hfld (v : Nat) : ((putBytes x.desc 0x11 (leBytes 1 v)).drop 0x11).take 1 = leBytes 1 v := by
    have htake : (x.desc.take 0x11).length = 0x11 := by rw [List.length_take]; omega
    rw [putBytes, List.append_assoc, List.drop_append_of_le_length (by omega), List.drop_eq_nil_of_le (by omega), List.nil_append]
    rfl
  rw [Queue.en, Queue.disable, Queue.field, Queue.setField, hfld]
  simp only [leBytes, leNat, bitAt, BitVec.toNat_ofNat]
  have : ((x.field 17 1 / 2 * 2) % 2 ^ 8 + 256 * 0) / 2 ^ 0 % 2 = 0 := by omega
  rw [this]
  rfl

theorem Queue.length_disable {x : Queue} (h : x.desc.length = 64) : x.disable.desc.length = 64 := by
  rw [Queue.disable, Queue.length_setField _ (by omega), h]

/-! ### A write to the window -/

theorem windowParts_one {ofs : Nat} {d : List Byte} (hn : d.length ∈ [1, 2, 4, 8]) (h : ofs % d.length = 0) : windowParts ofs d = [(ofs, d)] := by
  have hlen : (d.length == 1 || d.length == 2 || d.length == 4 || d.length == 8) = true := by
    simpa only [List.mem_cons, List.not_mem_nil, or_false, Bool.or_eq_true, beq_iff_eq, or_assoc] using hn
  rw [windowParts]
  simp only [hlen, h]
  rfl

/-- The three names of a window write are one write of one part. -/
theorem exec_window {s : State} {ofs : Nat} {d : List Byte} {i : Instr}
    (hi : i ∈ [Instr.queueDescriptorWrite ofs d, .queueEnable ofs d, .queueDisable ofs d])
    (hn : d.length ∈ [1, 2, 4, 8]) (h : ofs % d.length = 0) (hend : ofs + d.length ≤ 0x1000) : exec i s = .next (s.windowPart ofs d) := by
  have hwrite : s.windowWrite ofs d = .next (s.windowPart ofs d) := by
    rw [State.windowWrite, if_neg (Nat.not_lt.2 hend), windowParts_one hn h]
    rfl
  simp only [List.mem_cons, List.not_mem_nil, or_false] at hi
  obtain rfl | rfl | rfl := hi
  · exact hwrite
  · exact hwrite
  · exact hwrite

/-- An aligned part lies within one descriptor. -/
theorem part_fits {ofs n : Nat} (hn : n ∈ [1, 2, 4, 8]) (h : ofs % n = 0) : ofs % 64 + n ≤ 64 := by
  simp only [List.mem_cons, List.not_mem_nil, or_false] at hn
  obtain rfl | rfl | rfl | rfl := hn <;> omega

/-- The part covers the byte of EN. -/
def partCovers (o : Nat) (d : List Byte) : Prop := o ≤ 0x11 ∧ 0x11 < o + d.length

/-- It writes 1 to EN. -/
def partSets (o : Nat) (d : List Byte) : Prop := partCovers o d ∧ (d.getD (0x11 - o) 0).getLsbD 0 = true

theorem partCovers_iff (o : Nat) (d : List Byte) : (decide (o ≤ 0x11) && decide (0x11 < o + d.length)) = true ↔ partCovers o d := by
  rw [Bool.and_eq_true, decide_eq_true_iff, decide_eq_true_iff, partCovers]

theorem partSets_iff (o : Nat) (d : List Byte) :
    (decide (o ≤ 0x11) && decide (0x11 < o + d.length) && bitAt (fld d (0x11 - o) 1) 0) = true ↔ partSets o d := by
  rw [Bool.and_eq_true, partCovers_iff, partSets]
  refine and_congr_right fun h => ?_
  have hlt : 0x11 - o < d.length := by have := h.2; have := h.1; omega
  have hbyte : fld d (0x11 - o) 1 = (d.getD (0x11 - o) 0).toNat := by
    rw [fld, List.drop_eq_getElem_cons hlt, List.take_succ_cons, List.take_zero, List.getD_eq_getElem _ _ hlt]
    simp [leNat]
  rw [hbyte, bitAt, BitVec.getLsbD, Nat.testBit_zero, pow_zero, Nat.div_one, beq_iff_eq, decide_eq_true_iff]

/-- A descriptor is what its bytes are: STATUS as before, the part's bytes, and the rest as before (R70). -/
theorem writeDesc_eq {desc d ds : List Byte} {o : Nat} (h : desc.length = 64) (hfit : o + d.length ≤ 64) (hds : ds.length = 64)
    (hbytes : ∀ k < 64, ds.getD k 0 =
      if 0x14 ≤ k ∧ k < 0x18 then desc.getD k 0 else if o ≤ k ∧ k < o + d.length then d.getD (k - o) 0 else desc.getD k 0) :
    writeDesc desc o d = ds := by
  have hput : (putBytes desc o d).length = 64 := (length_putBytes (by omega)).trans h
  have hstatus : ((desc.drop 0x14).take 4).length = 4 := by rw [List.length_take, List.length_drop]; omega
  have hlen : (writeDesc desc o d).length = 64 := (length_putBytes (by omega)).trans hput
  refine List.ext_getElem (by rw [hlen, hds]) fun k hk hk' => ?_
  have hk64 : k < 64 := by omega
  rw [← List.getD_eq_getElem _ 0 hk, ← List.getD_eq_getElem _ 0 hk', hbytes k hk64, writeDesc, getD_putBytes (by omega), hstatus,
    getD_putBytes (by omega)]
  by_cases h1 : 0x14 ≤ k ∧ k < 0x18
  · rw [if_pos (by omega), if_pos h1, List.getD_eq_getElem?_getD, List.getElem?_take_of_lt (by omega), List.getElem?_drop,
      List.getD_eq_getElem?_getD]
    congr 2
    omega
  · rw [if_neg (by omega), if_neg h1]

/-- A state in which one queue alone is another. -/
def QueueOnly (s t : State) (q : Nat) : Prop := t = { s with queues := t.queues } ∧ ∀ j, j ≠ q → t.queue j = s.queue j

theorem State.queue_modQueue_ne (s : State) {q j : Nat} (f : Queue → Queue) (h : j ≠ q) : (s.modQueue q f).queue j = s.queue j := by
  rw [State.queue, State.queue, tabGetD, tabGetD, State.modQueue_queues, tabGet_tabSet_ne _ _ h]

theorem State.modQueue_queueOnly (s : State) (q : Nat) (f : Queue → Queue) : QueueOnly s (s.modQueue q f) q :=
  ⟨rfl, fun _ h => s.queue_modQueue_ne f h⟩

theorem QueueOnly.trans {s t u : State} {q : Nat} (h : QueueOnly s t q) (k : QueueOnly t u q) : QueueOnly s u q :=
  ⟨by rw [k.1, h.1], fun j hj => (k.2 j hj).trans (h.2 j hj)⟩

/-- A window part, by the bits that it looks at. -/
theorem State.windowPart_eq (s : State) (ofs : Nat) (d : List Byte) {x : Queue} (hx : s.queue (ofs / 64) = x) {covers sets : Bool}
    (hc : covers = true ↔ partCovers (ofs % 64) d) (hs : sets = true ↔ partSets (ofs % 64) d) :
    s.windowPart ofs d =
      if x.en then if covers && !sets then (s.modQueue (ofs / 64) fun y => y.disable).dropHolds (ofs / 64) else s
      else if sets && s.descOk { x with desc := writeDesc x.desc (ofs % 64) d } then
        s.openQueue (ofs / 64) { x with desc := writeDesc x.desc (ofs % 64) d }
      else s.modQueue (ofs / 64) fun _ =>
        if sets then ({ x with desc := writeDesc x.desc (ofs % 64) d } : Queue).disable else { x with desc := writeDesc x.desc (ofs % 64) d } := by
  have hcov : (decide (ofs % 64 ≤ 0x11) && decide (0x11 < ofs % 64 + d.length)) = covers :=
    Bool.eq_iff_iff.2 ((partCovers_iff ..).trans hc.symm)
  have hset : (decide (ofs % 64 ≤ 0x11) && decide (0x11 < ofs % 64 + d.length) && bitAt (fld d (0x11 - ofs % 64) 1) 0) = sets :=
    Bool.eq_iff_iff.2 ((partSets_iff ..).trans hs.symm)
  rw [hcov] at hset
  simp only [State.windowPart, hx, hcov, hset]

/-! ### EN set -/

/-- What a read of the Drover changes beside the queue it is for. -/
def QueueRead (s t : State) (q : Nat) : Prop :=
  t = { s with queues := t.queues, leases := t.leases, hostLines := t.hostLines } ∧ ∀ j, j ≠ q → t.queue j = s.queue j

theorem QueueRead.trans {s t u : State} {q : Nat} (h : QueueRead s t q) (k : QueueRead t u q) : QueueRead s u q :=
  ⟨by rw [k.1, h.1], fun j hj => (k.2 j hj).trans (h.2 j hj)⟩

theorem QueueOnly.queueRead {s t : State} {q : Nat} (h : QueueOnly s t q) : QueueRead s t q := ⟨by rw [h.1], h.2⟩

theorem State.touchVa_queueRead (s : State) (ctx : Nat) (sys : Bool) (va n q : Nat) : QueueRead s (s.touchVa (unitWho ctx sys) va n) q := by
  have h := s.touchVa_touchedOnly (unitWho ctx sys) va n
  have hq := h.queues
  unfold TouchedOnly at h
  rw [s.touchVa_unit_cores ctx sys va n] at h
  refine ⟨?_, fun j _ => State.queue_congr hq j⟩
  rw [h]

theorem QueueRead.sameTables {s t : State} {q : Nat} (h : QueueRead s t q) : SameTables s t := by
  rw [h.1]
  exact ⟨fun _ => rfl, fun _ => rfl, rfl, rfl, rfl⟩

/-- Reads in a state that translates alike. -/
theorem SameTables.readVa {s t : State} (h : SameTables s t) (w : Who) (va n : Nat) : t.readVa w va n = s.readVa w va n := by
  rw [State.readVa, State.readVa, h.xlateAll, h.mem]

/-- The packet at the read index becomes the head, with its PRIO (R80). -/
theorem State.newHead_queueRead (s : State) (q : Nat) : QueueRead s (s.newHead q) q := by
  unfold State.newHead
  simp only
  split
  · exact ⟨rfl, fun _ _ => rfl⟩
  · exact (s.touchVa_queueRead ..).trans (State.modQueue_queueOnly ..).queueRead

/-- A queue of launch packets that has a head. -/
theorem State.newHead_launch {s : State} {q : Nat} {x : Queue} (hx : s.queue q = x) (hlt : x.r < x.w) (ht : x.task = false) :
    ∃ p, (s.newHead q).queue q = { x with prio := p, boost := 0, since := s.clock } ∧
      ∀ e : Byte, s.readVa x.who (x.slotAddr x.r + 1) 1 = .ok [e] → p = e.toNat := by
  have hhead : ¬(decide (x.w ≤ x.r) || x.task) = true := by simp [ht, hlt]
  simp only [State.newHead, hx, if_neg hhead]
  rw [State.queue_modQueue, State.queue_congr (s.touchVa_touchedOnly ..).queues, hx]
  refine ⟨_, rfl, fun e he => ?_⟩
  rw [show s.readVa (unitWho x.ctxid x.priv) (x.slotAddr x.r + 1) 1 = .ok [e] from he]
  simp [leNat]

/-- A queue with no head, or of tasks, is as it was. -/
theorem State.newHead_idle {s : State} {q : Nat} {x : Queue} (hx : s.queue q = x) (h : x.w ≤ x.r ∨ x.task = true) : s.newHead q = s := by
  simp only [State.newHead, hx]
  exact if_pos (by simpa using h)

/-- A queue that has been given EN, its rights and what is known of its head gone (R74, log 66). -/
def Queue.cleared (x : Queue) (clock : Nat) : Queue := { x.setField 0x14 4 0 with boost := 0, since := clock, privok := [] }

theorem Queue.cleared_alike {x : Queue} (hl : x.desc.length = 64) (clock : Nat) : x.Alike (x.cleared clock) :=
  fun ofs n h => Queue.setField_alike (x := x) (o := 0x14) le_rfl (by omega) 4 0 ofs n h

/-- The indices of a queue that is given EN are loaded, and checked (R74). -/
def State.loadIndices (u : State) (q : Nat) (x : Queue) : State :=
  match u.readVa x.who (x.field 8 8) 8, u.readVa x.who (x.field 8 8 + 0x80) 8 with
  | .ok w, .ok r =>
    if leNat w < leNat r || leNat r + x.slots < leNat w then u.modQueue q fun x => ({ x with w := leNat w, r := leNat r }.orStatus 1).disable
    else (u.modQueue q fun x => { x with w := leNat w, r := leNat r }).newHead q
  | _, _ => u.xlfault q

/-- A queue given EN, its index block read. -/
def State.opening (s : State) (q : Nat) (x : Queue) : State := (s.modQueue q fun _ => x).touchVa x.who (x.field 8 8) 256

theorem State.openQueue_eq (s : State) (q : Nat) (y : Queue) :
    s.openQueue q y = (s.opening q (y.cleared s.clock)).loadIndices q (y.cleared s.clock) := rfl

theorem State.opening_queueRead (s : State) (q : Nat) (x : Queue) : QueueRead s (s.opening q x) q ∧ (s.opening q x).queue q = x :=
  ⟨(State.modQueue_queueOnly ..).queueRead.trans (State.touchVa_queueRead ..),
    by rw [State.opening, State.queue_congr (State.touchVa_touchedOnly ..).queues, State.queue_modQueue]⟩

theorem State.loadIndices_ok {u : State} {q w r : Nat} {x : Queue} (hw : u.readVa x.who (x.field 8 8) 8 = .ok (leBytes 8 w))
    (hr : u.readVa x.who (x.field 8 8 + 0x80) 8 = .ok (leBytes 8 r)) (hw64 : w < 2 ^ 64) (hle : r ≤ w) (hroom : w ≤ r + x.slots)
    (hr64 : r < 2 ^ 64) : u.loadIndices q x = (u.modQueue q fun x => { x with w := w, r := r }).newHead q := by
  have hbounds : ¬(decide (w < r) || decide (r + x.slots < w)) = true := by simp [hle, hroom]
  simp only [State.loadIndices, hw, hr, leNat_leBytes 8 w hw64, leNat_leBytes 8 r hr64, if_neg hbounds]

/-- EN is set: the indices are loaded, and the head is known (R74). -/
theorem State.openQueue_opens {s : State} {q w r : Nat} {y : Queue} (hl : y.desc.length = 64)
    (hw : s.readVa y.who (y.field 8 8) 8 = .ok (leBytes 8 w)) (hr : s.readVa y.who (y.field 8 8 + 0x80) 8 = .ok (leBytes 8 r))
    (hw64 : w < 2 ^ 64) (hle : r ≤ w) (hroom : w ≤ r + y.slots) (hr64 : r < 2 ^ 64) :
    QueueRead s (s.openQueue q y) q ∧ ∃ p, (s.openQueue q y).queue q = { y.cleared s.clock with w := w, r := r, prio := p } ∧
      ∀ e : Byte, r < w → y.task = false → s.readVa y.who (y.slotAddr r + 1) 1 = .ok [e] → p = e.toNat := by
  have hsame := Queue.cleared_alike hl s.clock
  obtain ⟨hread, hqueue⟩ := s.opening_queueRead q (y.cleared s.clock)
  have hopen := State.loadIndices_ok (u := s.opening q (y.cleared s.clock)) (q := q) (x := y.cleared s.clock) (w := w) (r := r)
    (by rw [hread.sameTables.readVa, hsame.who, hsame 8 8 (by decide), hw])
    (by rw [hread.sameTables.readVa, hsame.who, hsame 8 8 (by decide), hr]) hw64 hle (by rw [hsame.slots]; exact hroom) hr64
  rw [← State.openQueue_eq] at hopen
  have hmod := (s.opening q (y.cleared s.clock)).modQueue_queueOnly q fun x => { x with w := w, r := r }
  have hload : ((s.opening q (y.cleared s.clock)).modQueue q fun x => { x with w := w, r := r }).queue q =
      { y.cleared s.clock with w := w, r := r } := by rw [State.queue_modQueue, hqueue]
  have hall := hread.trans hmod.queueRead
  rw [hopen]
  refine ⟨hall.trans (State.newHead_queueRead ..), ?_⟩
  by_cases hhead : r < w ∧ y.task = false
  · obtain ⟨p, hp, hprio⟩ := State.newHead_launch hload hhead.1 (hsame.task.trans hhead.2)
    have hclock : ((s.opening q (y.cleared s.clock)).modQueue q fun x => { x with w := w, r := r }).clock = s.clock := by rw [hall.1]
    refine ⟨p, by rw [hp, hclock]; rfl, fun e _ _ he => hprio e ?_⟩
    rw [hall.sameTables.readVa]
    refine Eq.trans ?_ he
    rw [show ({ y.cleared s.clock with w := w, r := r } : Queue).who = y.who from hsame.who,
      show ({ y.cleared s.clock with w := w, r := r } : Queue).slotAddr r = y.slotAddr r from hsame.slotAddr r]
  · have hidle : w ≤ r ∨ y.task = true := by
      rcases Nat.lt_or_ge r w with hlt | hge
      · exact .inr (by simpa [hlt] using hhead)
      · exact .inl hge
    rw [State.newHead_idle hload (hidle.imp_right hsame.task.trans), hload]
    exact ⟨_, rfl, fun e hlt ht => absurd ⟨hlt, ht⟩ hhead⟩

/-! ### EN cleared -/

/-- A queue that is off, with no copy held for it. -/
def Queue.Off (x : Queue) : Prop := x.desc.length = 64 ∧ x.en = false ∧ x.hold = []

theorem Queue.Off.setField {x : Queue} (h : x.Off) {o n : Nat} (ho : 0x14 ≤ o) (hn : o + n ≤ 64) (v : Nat) : (x.setField o n v).Off := by
  obtain ⟨hl, hen, hhold⟩ := h
  exact ⟨(Queue.length_setField v (by omega)).trans hl, (Queue.setField_alike ho (by omega) n v).en.trans hen, hhold⟩

/-- A signal written changes of queues at most the STATUS of its own. -/
theorem State.writeSignal_queue (s : State) (q ctx : Nat) (sys : Bool) (sig status : Nat) (know : Tab Nat) :
    (s.writeSignal q ctx sys sig status know).queue q = s.queue q ∨
      (s.writeSignal q ctx sys sig status know).queue q = (s.queue q).orStatus 0x2 := by
  unfold State.writeSignal
  split
  · exact .inr (State.queue_modQueue ..)
  · split
    · next hput => exact .inl (State.queue_congr (State.putRel_tables hput).2 q)
    · exact .inr (State.queue_modQueue ..)

theorem State.writeSignal_off {s : State} {q : Nat} (h : (s.queue q).Off) (ctx : Nat) (sys : Bool) (sig status : Nat) (know : Tab Nat) :
    ((s.writeSignal q ctx sys sig status know).queue q).Off := by
  obtain e | e := s.writeSignal_queue q ctx sys sig status know
  · rw [e]
    exact h
  · rw [e]
    exact h.setField (by decide) (by decide) _

/-- The STATUS of a queue of which a copy is dropped. -/
def Queue.dropped (x : Queue) (k : Held) : Queue :=
  match k.counter with
  | some c => (x.orStatus 0x40).setField 0x16 2 c
  | none => x.orStatus 0x40

theorem Queue.Off.dropped {x : Queue} (h : x.Off) (k : Held) : (x.dropped k).Off := by
  have hstatus : (x.orStatus 0x40).Off := h.setField (by decide) (by decide) _
  unfold Queue.dropped
  split
  · exact hstatus.setField (by decide) (by decide) _
  · exact hstatus

theorem State.dropHeld_off {s : State} {q : Nat} (h : (s.queue q).Off) (k : Held) : ((s.dropHeld q k).queue q).Off := by
  have hmod : ((s.modQueue q fun x => x.dropped k).queue q).Off := by rw [State.queue_modQueue]; exact h.dropped k
  rw [show s.dropHeld q k = if leNat ((k.bytes.drop 0x48).take 8) != 0 && leNat ((k.bytes.drop 0x48).take 8) % 8 == 0 then
      (s.modQueue q fun x => x.dropped k).writeSignal q ((s.modQueue q fun x => x.dropped k).queue q).ctxid
        ((s.modQueue q fun x => x.dropped k).queue q).priv (leNat ((k.bytes.drop 0x48).take 8)) 0x0005 k.know
    else s.modQueue q fun x => x.dropped k from rfl]
  split
  · exact State.writeSignal_off hmod ..
  · exact hmod

/-- A queue that is off stays so as the copies held for it are dropped. -/
theorem State.dropHolds_off {s : State} {q : Nat} (hl : (s.queue q).desc.length = 64) (hen : (s.queue q).en = false) :
    ((s.dropHolds q).queue q).Off := by
  have hall (ks : List Held) (t : State) (h : (t.queue q).Off) : ((ks.foldl (fun t k => t.dropHeld q k) t).queue q).Off := by
    induction ks generalizing t with
    | nil => exact h
    | cons k ks ih => exact ih _ (State.dropHeld_off h k)
  refine hall _ _ ?_
  rw [State.queue_modQueue]
  exact ⟨hl, hen, rfl⟩

/-- EN is cleared (R70): the queue is off, and where no copy is held nothing else changes. -/
theorem State.disable_drops {s : State} {q : Nat} {x : Queue} (hx : s.queue q = x) (hl : x.desc.length = 64) :
    (((s.modQueue q fun y => y.disable).dropHolds q).queue q).Off ∧
      (x.hold = [] → QueueOnly s ((s.modQueue q fun y => y.disable).dropHolds q) q ∧
        ((s.modQueue q fun y => y.disable).dropHolds q).queue q = x.disable) := by
  have hq : (s.modQueue q fun y => y.disable).queue q = x.disable := by rw [State.queue_modQueue, hx]
  refine ⟨State.dropHolds_off (by rw [hq]; exact Queue.length_disable hl) (by rw [hq]; exact Queue.disable_en hl), fun hh => ?_⟩
  have hnone : (s.modQueue q fun y => y.disable).dropHolds q =
      (s.modQueue q fun y => y.disable).modQueue q fun x => { x with hold := [] } := by
    rw [State.dropHolds, hq, show x.disable.hold = [] from hh]
    rfl
  rw [hnone]
  refine ⟨(State.modQueue_queueOnly ..).trans (State.modQueue_queueOnly ..), ?_⟩
  rw [State.queue_modQueue, hq, ← show x.disable.hold = [] from hh]

/-! ### The window -/

/-- A window write to a queue that is off (R70, R71, R74). -/
theorem State.windowPart_off {s : State} {ofs q : Nat} {d ds : List Byte} {x : Queue} (hx : s.queue q = x) (hq : ofs / 64 = q) (hen : x.en = false)
    (hds : writeDesc x.desc (ofs % 64) d = ds) :
    (¬ partSets (ofs % 64) d → s.windowPart ofs d = s.modQueue q fun _ => { x with desc := ds }) ∧
      (partSets (ofs % 64) d → s.descOk { x with desc := ds } = false →
        s.windowPart ofs d = s.modQueue q fun _ => ({ x with desc := ds } : Queue).disable) ∧
      (partSets (ofs % 64) d → s.descOk { x with desc := ds } = true → s.windowPart ofs d = s.openQueue q { x with desc := ds }) := by
  subst hq hds
  refine ⟨fun hs => ?_, fun hs hok => ?_, fun hs hok => ?_⟩
  · rw [s.windowPart_eq ofs d hx (partCovers_iff ..) (sets := false) (by simp [hs])]
    simp [hen]
  · rw [s.windowPart_eq ofs d hx (partCovers_iff ..) (sets := true) (by simp [hs])]
    simp [hen, hok]
  · rw [s.windowPart_eq ofs d hx (partCovers_iff ..) (sets := true) (by simp [hs])]
    simp [hen, hok]

/-- A window write to a queue that is on does nothing, but where it clears EN (R70). -/
theorem State.windowPart_on {s : State} {ofs q : Nat} {d : List Byte} {x : Queue} (hx : s.queue q = x) (hq : ofs / 64 = q) (hen : x.en = true) :
    (¬ partCovers (ofs % 64) d ∨ partSets (ofs % 64) d → s.windowPart ofs d = s) ∧
      (partCovers (ofs % 64) d → ¬ partSets (ofs % 64) d → s.windowPart ofs d = (s.modQueue q fun y => y.disable).dropHolds q) := by
  subst hq
  refine ⟨fun h => ?_, fun hc hs => ?_⟩
  · obtain h | h := h
    · rw [s.windowPart_eq ofs d hx (covers := false) (by simp [h]) (partSets_iff ..)]
      simp [hen]
    · rw [s.windowPart_eq ofs d hx (partCovers_iff ..) (sets := true) (by simp [h])]
      simp [hen]
  · rw [s.windowPart_eq ofs d hx (covers := true) (by simp [hc]) (sets := false) (by simp [hs])]
    simp [hen]

end Sys2Proof.Machine

/-!
PROOFS. O50: the window, a write index that advances, a packet taken, the ageing of a head, a held copy delivered.
-/

namespace Sys2Proof.Machine

/-- A write index that advances within bounds is learnt (R75). -/
theorem exec_writeIndexAdvance_learns {s : State} {q w : Nat} {x : Queue} (hx : s.queue q = x) (hen : x.en = true) (hdev : x.device = false)
    (hr : s.readVa x.who (x.field 8 8) 8 = .ok (leBytes 8 w)) (hw64 : w < 2 ^ 64) (hne : w ≠ x.w) (hle : x.w ≤ w)
    (hroom : w ≤ x.r + x.slots) :
    ∃ t, exec (.writeIndexAdvance q) s = .next t ∧ QueueRead s t q ∧ (t.queue q).w = w ∧ (t.queue q).r = x.r ∧ (t.queue q).desc = x.desc ∧
      (x.w = x.r → x.task = false → (t.queue q).since = s.clock ∧ (t.queue q).boost = 0 ∧
        ∀ e : Byte, s.readVa x.who (x.slotAddr x.r + 1) 1 = .ok [e] → (t.queue q).prio = e.toNat) := by
  have hoff : ¬(!x.en || x.device) = true := by simp [hen, hdev]
  have hbounds : ¬(decide (w < x.w) || decide (x.r + x.slots < w)) = true := by simp [hle, hroom]
  have hread := (s.touchVa_queueRead x.ctxid x.priv (x.field 8 8) 8 q).trans
    ((State.modQueue_queueOnly _ q fun y => { y with w := w }).queueRead)
  have hq : ((s.touchVa x.who (x.field 8 8) 8).modQueue q fun y => { y with w := w }).queue q = { x with w := w } := by
    rw [State.queue_modQueue, State.queue_congr (State.touchVa_touchedOnly ..).queues, hx]
  generalize hu : ((s.touchVa x.who (x.field 8 8) 8).modQueue q fun y => { y with w := w }) = u at hq
  have hread : QueueRead s u q := hu ▸ hread
  have hex : exec (.writeIndexAdvance q) s = .next (if x.w = x.r then u.newHead q else u) := by
    show execWriteIndexAdvance q s = _
    simp only [execWriteIndexAdvance, hx, if_neg hoff, hr, leNat_leBytes 8 w hw64, if_neg hne, if_neg hbounds, hu]
  by_cases hempty : x.w = x.r
  · rw [if_pos hempty] at hex
    obtain ⟨p, b, n, hn⟩ := u.newHead_queue q
    refine ⟨_, hex, hread.trans (State.newHead_queueRead ..), by rw [hn, hq], by rw [hn, hq], by rw [hn, hq], fun _ ht => ?_⟩
    obtain ⟨p, hp, hprio⟩ := State.newHead_launch hq (by show x.r < w; omega) ht
    rw [hp]
    refine ⟨by rw [hread.1], rfl, fun e he => hprio e ?_⟩
    rw [hread.sameTables.readVa]
    exact he
  · rw [if_neg hempty] at hex
    exact ⟨_, hex, hread, by rw [hq], by rw [hq], by rw [hq], fun h => absurd h hempty⟩

/-- One out of bounds turns the queue off (R75). -/
theorem exec_writeIndexAdvance_faults {s : State} {q w : Nat} {x : Queue} (hx : s.queue q = x) (hen : x.en = true) (hdev : x.device = false)
    (hr : s.readVa x.who (x.field 8 8) 8 = .ok (leBytes 8 w)) (hw64 : w < 2 ^ 64) (hne : w ≠ x.w) (hout : w < x.w ∨ x.r + x.slots < w) :
    exec (.writeIndexAdvance q) s = .next (s.modQueue q fun y => (y.orStatus 1).disable) := by
  have hoff : ¬(!x.en || x.device) = true := by simp [hen, hdev]
  show execWriteIndexAdvance q s = _
  simp only [execWriteIndexAdvance, hx, if_neg hoff, hr, leNat_leBytes 8 w hw64, if_neg hne]
  exact if_pos (by simpa using hout)

/-! ### A head that ages, and a copy delivered -/

theorem exec_effectivePriorityAgeing {s : State} {q : Nat} {x : Queue} (hx : s.queue q = x) (hh : s.hasHead q = true)
    (hp : s.headPrio q + x.boost < 7) :
    exec (.effectivePriorityAgeing q) s =
      .next ((s.atLeast (x.since + 5000000 * (x.boost + 1))).modQueue q fun y => { y with boost := y.boost + 1 }) := by
  show execEffectivePriorityAgeing q s = _
  simp only [execEffectivePriorityAgeing, hx, hh, hp, decide_true, Bool.and_self, if_true]

theorem exec_holdListDelivery {s u : State} {q : Nat} {x : Queue} {h : Held} {rest : List Held} (hx : s.queue q = x) (hh : x.hold = h :: rest)
    (hroom : x.w - x.r < x.slots)
    (hu : State.pushSlot { s with queues := tabSet s.queues q { x with hold := rest } } q h.bytes = .ok u) :
    ∃ t, exec (.holdListDelivery q) s = .next t ∧ t.mem = u.mem ∧ t.queues = u.queues := by
  have hmod : (s.modQueue q fun y => { y with hold := rest }) = { s with queues := tabSet s.queues q { x with hold := rest } } := by
    rw [State.modQueue, hx]
  rw [← hmod] at hu
  refine ⟨u.publish (slotSync q ((s.modQueue q fun y => { y with hold := rest }).queue q).w) [unitRel .device h.know], ?_, rfl, rfl⟩
  show execHoldListDelivery q s = _
  simp only [execHoldListDelivery, hx, hh, if_neg (Nat.not_le.2 hroom), State.pushHeld, hu]

end Sys2Proof.Machine

/-!
PROOFS. O50: the head of a queue taken, and admitted as a grid or rejected with its signal.
-/

namespace Sys2Proof.Machine

/-! ### What taking a packet reads -/

theorem UnitOnly.cores {s t : State} (h : UnitOnly s t) : t.cores = s.cores := by unfold UnitOnly at h; rw [h]
theorem UnitOnly.grids {s t : State} (h : UnitOnly s t) : t.grids = s.grids := by unfold UnitOnly at h; rw [h]
theorem UnitOnly.ctxs {s t : State} (h : UnitOnly s t) : t.ctxs = s.ctxs := by unfold UnitOnly at h; rw [h]

theorem State.touchPacket_touches (s : State) (q : Nat) (b : List Byte) :
    TouchedOnly s (s.touchPacket q b) ∧ UnitOnly s (s.touchPacket q b) := by
  unfold State.touchPacket
  split
  · exact ⟨TouchedOnly.foldl (f := fun t (r : Nat × Nat) => t.touchVa _ r.1 r.2) (fun t r => t.touchVa_touchedOnly ..) _ s,
      UnitOnly.foldl (f := fun t (r : Nat × Nat) => t.touchVa _ r.1 r.2) (fun t r => t.touchVa_unitOnly ..) _ s⟩
  · exact ⟨.refl s, .refl s⟩

/-- The state in which the head of a queue has been copied out, its read index in the index block being past it in `u`. -/
def State.headTaken (s u : State) (q : Nat) (b : List Byte) : State :=
  let x := s.queue q
  let t := ({ u with rr := tabSet u.rr (s.headLevel q) q } : State).touchPacket q b
  (t.touchVa x.who (x.slotAddr x.r) 128).modQueue q fun y =>
    { y with r := y.r + 1, boost := 0, since := s.clock, privok := y.privok.filter fun i => i != x.r }

/-- A head taken out: the read index is past it; memory, translations, grids and contexts are as they were. -/
structure Taken (s u t : State) (q : Nat) (x : Queue) : Prop where
  tables : SameTables u t
  grids : t.grids = s.grids
  ctxs : t.ctxs = s.ctxs
  nextId : t.nextId = s.nextId
  index : (t.queue q).r = x.r + 1
  desc : (t.queue q).desc = x.desc

theorem State.headTaken_taken {s u : State} {q : Nat} {x : Queue} (hx : s.queue q = x) {va : Nat} {bs : List Byte}
    (hu : s.putVa x.who va bs = .ok u) (b : List Byte) : Taken s u (s.headTaken u q b) q x := by
  have hstored := State.putVa_storedOnly hu
  have hs := hstored.unitOnly
  generalize ht : ({ u with rr := tabSet u.rr (s.headLevel q) q } : State) = t
  have htu : SameTables u t ∧ t.grids = u.grids ∧ t.ctxs = u.ctxs ∧ t.nextId = u.nextId ∧ t.queues = u.queues := by
    rw [← ht]
    exact ⟨⟨fun _ => rfl, fun _ => rfl, rfl, rfl, rfl⟩, rfl, rfl, rfl, rfl⟩
  obtain ⟨htables, hgrids, hctxs, hnext, hqueues⟩ := htu
  obtain ⟨htouched, hunit⟩ := t.touchPacket_touches q b
  have hread := (t.touchPacket q b).touchVa_touchedOnly x.who (x.slotAddr x.r) 128
  have hall : UnitOnly t ((t.touchPacket q b).touchVa x.who (x.slotAddr x.r) 128) := hunit.trans (State.touchVa_unitOnly ..)
  have hqueue : ((t.touchPacket q b).touchVa x.who (x.slotAddr x.r) 128).queue q = x := by
    rw [State.queue_congr hread.queues, State.queue_congr htouched.queues, State.queue_congr hqueues, State.queue_congr hstored.queues, hx]
  have he : s.headTaken u q b = ((t.touchPacket q b).touchVa x.who (x.slotAddr x.r) 128).modQueue q fun y =>
      { y with r := y.r + 1, boost := 0, since := s.clock, privok := y.privok.filter fun i => i != x.r } := by
    rw [State.headTaken, hx, ht]
  rw [he]
  refine ⟨?_, ?_, ?_, ?_, ?_, ?_⟩
  · exact (htables.trans ((htouched.trans hread).sameTables hall.cores)).trans (State.modQueue_sameTables ..)
  · exact (hall.grids.trans hgrids).trans hs.grids
  · exact (hall.ctxs.trans hctxs).trans hs.ctxs
  · exact (hall.nextId.trans hnext).trans hs.nextId
  · rw [State.queue_modQueue, hqueue]
  · rw [State.queue_modQueue, hqueue]

theorem Taken.newHead {s u t : State} {q : Nat} {x : Queue} (h : Taken s u t q x) : Taken s u (t.newHead q) q x := by
  have hunit := t.newHead_unitOnly q
  obtain ⟨p, b, n, hq⟩ := t.newHead_queue q
  exact ⟨h.tables.trans (t.newHead_queueRead q).sameTables, hunit.grids.trans h.grids, hunit.ctxs.trans h.ctxs, hunit.nextId.trans h.nextId,
    by rw [hq]; exact h.index, by rw [hq]; exact h.desc⟩

/-- A head that fails its checks is taken and rejected. -/
theorem State.takePacket_error {s u : State} {q st : Nat} {x : Queue} {b : List Byte} (hx : s.queue q = x) (hb : s.headBytes q = .ok b)
    (hu : s.putVa x.who (x.field 8 8 + 0x80) (leBytes 8 (x.r + 1)) = .ok u) (hv : s.accepts q b = .error st) :
    s.takePacket q = (((s.headTaken u q b).newHead q).givePicks q none).reject q b st (s.knownAt (slotSync q x.r)) := by
  subst hx
  simp only [State.takePacket, hb, hu, hv]
  rfl

/-- One that passes them is taken and accepted. -/
theorem State.takePacket_ok {s u : State} {q : Nat} {x : Queue} {b : List Byte} {p : Plan} (hx : s.queue q = x) (hb : s.headBytes q = .ok b)
    (hu : s.putVa x.who (x.field 8 8 + 0x80) (leBytes 8 (x.r + 1)) = .ok u) (hv : s.accepts q b = .ok p) :
    s.takePacket q =
      (((s.headTaken u q b).newHead q).givePicks q (some (s.headTaken u q b).nextId)).accept q p (s.knownAt (slotSync q x.r)) := by
  subst hx
  simp only [State.takePacket, hb, hu, hv]
  rfl

/-! ### A packet rejected -/

/-- What the checks of a packet come to: one of four statuses, or a plan of the packet that was read (R68). -/
def Checked (b : List Byte) : Except Nat Plan → Prop
  | .error st => st ∈ [1, 2, 3, 4]
  | .ok p => p.pkt = parsePacket b

theorem Checked.ite {b : List Byte} {p : Prop} [Decidable p] {e f : Except Nat Plan} (he : Checked b e) (hf : Checked b f) :
    Checked b (if p then e else f) := by
  split
  · exact he
  · exact hf

theorem State.accepts_checked (s : State) (q : Nat) (b : List Byte) : Checked b (s.accepts q b) := by
  have hstatus : Checked b (.error 1) ∧ Checked b (.error 2) ∧ Checked b (.error 3) ∧ Checked b (.error 4) := by simp [Checked]
  obtain ⟨h1, h2, h3, h4⟩ := hstatus
  unfold State.accepts
  simp only
  generalize (if (parsePacket b).kind = 4 then s.packetColl (unitWho (s.queue q).ctxid (parsePacket b).sys) (parsePacket b) else none) = coll
  refine .ite h1 ?_
  split
  · exact h1
  · refine .ite h1 (.ite h4 (.ite rfl ?_))
    split
    · exact h2
    · exact .ite rfl h3

theorem State.accepts_error {s : State} {q st : Nat} {b : List Byte} (h : s.accepts q b = .error st) : st ∈ [1, 2, 3, 4] := by
  have hc := s.accepts_checked q b
  rwa [h] at hc

theorem State.accepts_ok {s : State} {q : Nat} {b : List Byte} {p : Plan} (h : s.accepts q b = .ok p) : p.pkt = parsePacket b := by
  have hc := s.accepts_checked q b
  rwa [h] at hc

theorem signalValue_error {st : Nat} (h : st ∈ [1, 2, 3, 4]) : signalValue st = 2 ^ 63 + st := by
  simp only [List.mem_cons, List.not_mem_nil, or_false] at h
  obtain rfl | rfl | rfl | rfl := h <;> rfl

theorem filterMap_picked (q : Nat) (l : List (Nat × Nat × Option Nat)) :
    l.filterMap (fun p => if p.2.1 == q && p.2.2.isNone then (none : Option Nat).map fun n => (p.1, q, some n) else some p) =
      l.filter fun p => p.2.1 != q || p.2.2.isSome := by
  rw [← List.filterMap_eq_filter]
  refine List.filterMap_congr fun p _ => ?_
  cases hq : p.2.1 == q <;> cases hs : p.2.2 <;> simp [Option.guard, bne, hq, hs]

/-- A packet that fails its checks is rejected: its picks go back, and its signal is written (R68). -/
theorem exec_takePacket_rejects {s u : State} {q st : Nat} {x : Queue} {b : List Byte} (hx : s.queue q = x) (hc : s.droverChoice = some q)
    (hb : s.headBytes q = .ok b) (hu : s.putVa x.who (x.field 8 8 + 0x80) (leBytes 8 (x.r + 1)) = .ok u) (hst : s.accepts q b = .error st) :
    ∃ t, exec (.droverTakePacket q) s = .next t ∧ (t.queue q).r = x.r + 1 ∧
      t.grids = tabMap s.grids (fun _ g => { g with picked := g.picked.filter fun p => p.2.1 != q || p.2.2.isSome }) ∧
      ∀ v, fld b 0x48 8 ≠ 0 → fld b 0x48 8 % 8 = 0 → u.putVa x.who (fld b 0x48 8) (leBytes 8 (2 ^ 63 + st)) = .ok v → t.mem = v.mem := by
  have htaken := (State.headTaken_taken hx hu b).newHead
  generalize hh : (s.headTaken u q b).newHead q = t at htaken
  have hwho : (t.queue q).who = x.who := by simp only [Queue.who, Queue.ctxid, Queue.priv, Queue.field, htaken.desc]
  refine ⟨(t.givePicks q none).reject q b st (s.knownAt (slotSync q x.r)), ?_, ?_, ?_, fun v h0 h8 hv => ?_⟩
  · show execDroverTakePacket q s = _
    rw [execDroverTakePacket, if_pos hc, State.takePacket_error hx hb hu hst, hh]
  · obtain e | e := (t.givePicks q none).writeSignal_queue q (t.queue q).ctxid (t.queue q).priv (fld b 0x48 8) st (s.knownAt (slotSync q x.r))
    · exact (congrArg Queue.r e).trans htaken.index
    · exact (congrArg Queue.r e).trans htaken.index
  · refine (State.writeSignal_unitOnly ..).grids.trans ?_
    simp only [State.givePicks, filterMap_picked, htaken.grids]
  · have htables : SameTables u (t.givePicks q none) := htaken.tables.trans ⟨fun _ => rfl, fun _ => rfl, rfl, rfl, rfl⟩
    obtain ⟨w, hw, -, hmem⟩ := htables.putVa hv
    rw [← hmem]
    refine State.writeSignal_mem h0 h8 ?_ q _
    rw [signalValue_error (State.accepts_error hst)]
    rw [← hwho] at hw
    exact hw

/-! ### A packet admitted -/

/-- A state in which units have read and written memory. -/
def AccessedOnly (s t : State) : Prop :=
  t = { s with cores := t.cores, mem := t.mem, stored := t.stored, leases := t.leases, hostLines := t.hostLines }

theorem AccessedOnly.trans {s t u : State} (h : AccessedOnly s t) (k : AccessedOnly t u) : AccessedOnly s u := by
  unfold AccessedOnly at h k ⊢
  rw [k, h]

theorem TouchedOnly.accessedOnly {s t : State} (h : TouchedOnly s t) : AccessedOnly s t := by
  unfold TouchedOnly at h
  unfold AccessedOnly
  rw [h]

theorem State.unitWrite_accessedOnly (s : State) (w : Who) (va : Nat) (bs : List Byte) : AccessedOnly s (s.unitWrite w va bs) := by
  unfold State.unitWrite
  split
  · next hput =>
    have h := State.putVa_storedOnly hput
    unfold StoredOnly at h
    unfold AccessedOnly
    rw [h]
  · exact rfl

/-- The pass of a reprojection reads and writes memory. -/
theorem State.reproject_accessedOnly (s : State) (w : Who) (b : List Byte) : AccessedOnly s (s.reproject w b).1 := by
  have hput (a : State × Nat) (runs : List (Nat × Nat)) (va vb : Nat) (bs cs : List Byte) (failed : Bool) :
      let u := (runs.foldl (fun u k => u.touchVa w k.1 k.2) a.1).unitWrite w va bs
      AccessedOnly a.1 (if failed then (u.unitWrite w vb cs, a.2 + 1) else (u, a.2)).1 := by
    have hu : AccessedOnly a.1 ((runs.foldl (fun u k => u.touchVa w k.1 k.2) a.1).unitWrite w va bs) :=
      (TouchedOnly.foldl (fun (u : State) (k : Nat × Nat) => u.touchVa_touchedOnly w k.1 k.2) runs a.1).accessedOnly.trans
        (State.unitWrite_accessedOnly ..)
    cases failed with
    | true => exact hu.trans (State.unitWrite_accessedOnly ..)
    | false => exact hu
  have hall (f : State × Nat → Nat → State × Nat) (hf : ∀ a i, AccessedOnly a.1 (f a i).1) (l : List Nat) (a : State × Nat) :
      AccessedOnly a.1 (l.foldl f a).1 := by
    induction l generalizing a with
    | nil => exact rfl
    | cons i l ih => exact (hf a i).trans (ih _)
  refine hall _ (fun a i => ?_) _ (s, 0)
  dsimp only
  split
  · exact hput ..
  · exact hput ..
  · exact hput ..

/-- What becomes of a grid that has been admitted, as it starts: it is there, and queues and contexts are as they were. -/
structure Admitted (t r : State) (k : Nat) (gr : Grid) : Prop where
  queues : r.queues = t.queues
  ctxs : r.ctxs = t.ctxs
  grid : ∃ g, tabGet r.grids k = some g ∧ g.pkt = gr.pkt ∧ g.queue = gr.queue ∧ g.ctx = gr.ctx ∧ g.id = gr.id ∧ g.teams = gr.teams

theorem Admitted.refl {t : State} {k : Nat} {gr : Grid} (h : tabGet t.grids k = some gr) : Admitted t t k gr :=
  ⟨rfl, rfl, gr, h, rfl, rfl, rfl, rfl, rfl⟩

theorem Admitted.trans {t u r : State} {k : Nat} {gr : Grid} (h : Admitted t u k gr)
    (hr : ∀ g, tabGet u.grids k = some g → Admitted u r k g) : Admitted t r k gr := by
  obtain ⟨hq, hc, g, hg, h1, h2, h3, h4, h5⟩ := h
  obtain ⟨hq', hc', g', hg', h1', h2', h3', h4', h5'⟩ := hr g hg
  exact ⟨hq'.trans hq, hc'.trans hc, g', hg', h1'.trans h1, h2'.trans h2, h3'.trans h3, h4'.trans h4, h5'.trans h5⟩

theorem AccessedOnly.admitted {t u : State} (h : AccessedOnly t u) {k : Nat} {gr : Grid} (hg : tabGet t.grids k = some gr) : Admitted t u k gr := by
  unfold AccessedOnly at h
  rw [h]
  exact ⟨rfl, rfl, gr, hg, rfl, rfl, rfl, rfl, rfl⟩

theorem State.touchPieces_touchedOnly (s : State) (agent : Nat) (ps : List Piece) : TouchedOnly s (s.touchPieces agent ps) := by
  refine TouchedOnly.foldl (fun t p => ?_) ps s
  unfold State.touchLoc
  split
  · exact State.touchRead_touchedOnly ..
  · exact .refl t

/-- A change of the grid that leaves its packet, its queue and its names alone. -/
theorem State.modGrid_admitted {t : State} {k : Nat} {gr : Grid} (h : tabGet t.grids k = some gr) {f : Grid → Grid}
    (hf : (f gr).pkt = gr.pkt ∧ (f gr).queue = gr.queue ∧ (f gr).ctx = gr.ctx ∧ (f gr).id = gr.id ∧ (f gr).teams = gr.teams) :
    Admitted t (t.modGrid k f) k gr :=
  ⟨rfl, rfl, f gr, by rw [State.modGrid_grids, tabGet_tabMod_self, h]; rfl, hf⟩

/-- Dealing its teams is such a change, over and over. -/
theorem State.dealUpTo_admitted (f : Nat) {t : State} {k : Nat} {gr : Grid} (h : tabGet t.grids k = some gr) :
    Admitted t (t.dealUpTo f k) k gr := by
  induction f generalizing t gr with
  | zero => exact .refl h
  | succ f ih =>
    rw [State.dealUpTo_succ]
    split
    · exact .refl h
    · split
      · exact .refl h
      · next c _ =>
        have hcore : tabGet (t.modCore c fun q => { q with deque := q.deque ++ [(k, (t.grid k).dealt)] }).grids k = some gr := h
        have hstep := State.modGrid_admitted hcore (f := fun g => { g with dealt := g.dealt + 1 }) ⟨rfl, rfl, rfl, rfl, rfl⟩
        have hstep : Admitted t ((t.modCore c fun q => { q with deque := q.deque ++ [(k, (t.grid k).dealt)] }).modGrid k fun g =>
          { g with dealt := g.dealt + 1 }) k gr := ⟨hstep.queues, hstep.ctxs, hstep.grid⟩
        exact hstep.trans fun g hg => ih hg

/-- The state in which a grid has been given its key and its number. -/
def State.admitting (v : State) (q : Nat) (p : Plan) (know : Tab Nat) : State :=
  ({ v with nextId := v.nextId + 1, grids := tabSet v.grids v.nextId (v.planGrid q p know) } : State).modCtx (v.planGrid q p know).ctx fun c =>
    { c with nextGrid := c.nextGrid + 1 }

theorem State.accept_admitted (v : State) (q : Nat) (p : Plan) (know : Tab Nat) :
    Admitted (v.admitting q p know) (v.accept q p know) v.nextId (v.planGrid q p know) := by
  have hget : tabGet (v.admitting q p know).grids v.nextId = some (v.planGrid q p know) := tabGet_tabSet_self ..
  unfold State.accept
  simp only
  split
  · have h := (v.admitting q p know).reproject_accessedOnly (unitWho (v.planGrid q p know).ctx (v.planGrid q p know).pkt.sys)
      (v.planGrid q p know).pkt.raw
    exact h.admitted hget |>.trans fun g hg => State.modGrid_admitted hg ⟨rfl, rfl, rfl, rfl, rfl⟩
  · split
    · exact .refl hget
    · next peers _ _ _ =>
      have h := ((v.admitting q p know).touchPieces_touchedOnly 0 peers).accessedOnly.admitted hget
      exact ⟨h.queues, h.ctxs, h.grid⟩
  · exact State.modGrid_admitted hget ⟨rfl, rfl, rfl, rfl, rfl⟩
  · exact State.dealUpTo_admitted _ hget

end Sys2Proof.Machine

/-!
PROOFS. O50: the packet of the head admitted, and the settling of the obligation.
-/

namespace Sys2Proof.Machine

/-- A packet that passes its checks is a grid from then on (R64, R71). -/
theorem exec_takePacket_admits {s u : State} {q : Nat} {x : Queue} {b : List Byte} {p : Plan} (hx : s.queue q = x)
    (hc : s.droverChoice = some q) (hb : s.headBytes q = .ok b) (hu : s.putVa x.who (x.field 8 8 + 0x80) (leBytes 8 (x.r + 1)) = .ok u)
    (hp : s.accepts q b = .ok p) :
    ∃ t g, exec (.droverTakePacket q) s = .next t ∧ (t.queue q).r = x.r + 1 ∧ tabGet t.grids s.nextId = some g ∧ g.pkt = parsePacket b ∧
      g.queue = q ∧ g.ctx = x.ctxid ∧ g.id = (s.ctx x.ctxid).nextGrid ∧ g.teams = p.teams ∧
      ((tabGet s.ctxs x.ctxid).isSome = true → (t.ctx x.ctxid).nextGrid = g.id + 1) := by
  have htaken := (State.headTaken_taken hx hu b).newHead
  generalize hh : (s.headTaken u q b).newHead q = t at htaken
  generalize hv : t.givePicks q (some (s.headTaken u q b).nextId) = v
  have hkept : v.nextId = s.nextId ∧ v.ctxs = s.ctxs ∧ v.queues = t.queues := by
    rw [← hv]
    exact ⟨htaken.nextId, htaken.ctxs, rfl⟩
  obtain ⟨hnext, hctxs, hqueues⟩ := hkept
  have hctxid : (v.queue q).ctxid = x.ctxid := by
    rw [State.queue_congr hqueues]
    simp only [Queue.ctxid, Queue.field, htaken.desc]
  have hctx (k : Nat) : v.ctx k = s.ctx k := by rw [State.ctx, State.ctx, hctxs]
  obtain ⟨hq, hc', g, hg, h1, h2, h3, h4, h5⟩ := v.accept_admitted q p (s.knownAt (slotSync q x.r))
  have hid : g.id = (s.ctx x.ctxid).nextGrid := by rw [h4, ← hctx, ← hctxid]; rfl
  refine ⟨v.accept q p (s.knownAt (slotSync q x.r)), g, ?_, ?_, hnext ▸ hg, ?_, h2, h3.trans hctxid, hid, h5, fun hs => ?_⟩
  · show execDroverTakePacket q s = _
    rw [execDroverTakePacket, if_pos hc, State.takePacket_ok hx hb hu hp, hh, hv]
  · rw [State.queue_congr (hq.trans hqueues)]
    exact htaken.index
  · exact h1.trans (State.accepts_ok hp)
  · obtain ⟨c, hc⟩ := Option.isSome_iff_exists.1 hs
    have hget : tabGet (v.admitting q p (s.knownAt (slotSync q x.r))).ctxs x.ctxid = some { c with nextGrid := c.nextGrid + 1 } := by
      have hk : (v.planGrid q p (s.knownAt (slotSync q x.r))).ctx = x.ctxid := hctxid
      rw [State.admitting, State.modCtx_ctxs, hk, tabGet_tabMod_self]
      show Option.map _ (tabGet v.ctxs x.ctxid) = _
      rw [hctxs, hc]
      rfl
    rw [hid, State.ctx, State.ctx, tabGetD, tabGetD, hc', hget, hc]
    rfl

/-- Settles O50, in the order of its clauses: the window (`State.windowPart_off`, `State.openQueue_opens`, `State.windowPart_on`), a write index, a
packet taken (`State.headTaken_taken`), the ageing of a head, and a held copy delivered. -/
theorem launchQueues : Obligations.LaunchQueues := by
  unfold Obligations.LaunchQueues
  intro s q x only reads hx
  refine ⟨?_, fun w hen hdev hr hw hne => ⟨fun hle hroom => ?_, fun hout => ?_⟩, fun b u hc hb hu => ⟨fun st hst => ?_, fun p hp => ?_⟩,
    fun hh hp => ?_, fun h rest u hh hroom hu => ?_⟩
  · intro ofs d ds i n o covers sets y hi hn hmod hend hofs hl hds hbytes
    have hex := exec_window (s := s) hi hn hmod hend
    have hdesc : writeDesc x.desc (ofs % 64) d = ds := writeDesc_eq hl (part_fits hn hmod) hds hbytes
    refine ⟨fun hen hs => ?_, fun hen hs hok => ?_, fun w r hen hs hok hw hr hw64 hle hroom hr64 => ?_, fun hen hcs => ?_, fun hen hc hs => ?_⟩
    · exact ⟨_, hex.trans (congrArg _ ((State.windowPart_off hx hofs hen hdesc).1 hs)), State.modQueue_queueOnly .., State.queue_modQueue ..⟩
    · exact ⟨_, hex.trans (congrArg _ ((State.windowPart_off hx hofs hen hdesc).2.1 hs hok)), State.modQueue_queueOnly ..,
        State.queue_modQueue ..⟩
    · obtain ⟨hread, p, hq, hprio⟩ := State.openQueue_opens (q := q) (y := { x with desc := ds }) hds hw hr hw64 hle hroom hr64
      exact ⟨_, p, hex.trans (congrArg _ ((State.windowPart_off hx hofs hen hdesc).2.2 hs hok)), hread, hq, hprio⟩
    · exact hex.trans (congrArg _ ((State.windowPart_on hx hofs hen).1 hcs))
    · obtain ⟨⟨-, hoff, hhold⟩, hnone⟩ := State.disable_drops (s := s) hx hl
      exact ⟨_, hex.trans (congrArg _ ((State.windowPart_on hx hofs hen).2 hc hs)), hoff, hhold, hnone⟩
  · exact exec_writeIndexAdvance_learns hx hen hdev hr hw hne hle hroom
  · have hq : (s.modQueue q fun y => (y.orStatus 1).disable).queue q = (x.orStatus 1).disable := by rw [State.queue_modQueue, hx]
    exact ⟨_, exec_writeIndexAdvance_faults hx hen hdev hr hw hne hout, State.modQueue_queueOnly .., by rw [hq]; rfl, hq⟩
  · exact exec_takePacket_rejects hx hc hb hu hst
  · exact exec_takePacket_admits hx hc hb hu hp
  · have hq : ((s.atLeast (x.since + 5000000 * (x.boost + 1))).modQueue q fun y => { y with boost := y.boost + 1 }).queue q =
        { x with boost := x.boost + 1 } := by rw [State.queue_modQueue, ← hx]; rfl
    exact ⟨_, exec_effectivePriorityAgeing hx hh hp, hq, rfl, rfl⟩
  · obtain ⟨t, ht, hmem, hqueues⟩ := exec_holdListDelivery hx hh hroom hu
    obtain ⟨⟨p, b, n, hq⟩, -⟩ := State.pushSlot_queue hu
    have hstart : State.queue { s with queues := tabSet s.queues q { x with hold := rest } } q = { x with hold := rest } := by
      rw [State.queue, tabGetD, tabGet_tabSet_self, Option.getD_some]
    rw [hstart] at hq
    exact ⟨t, ht, hmem, by rw [State.queue_congr hqueues, hq], by rw [State.queue_congr hqueues, hq]⟩

end Sys2Proof.Machine

/-!
SUPPORT. A set whose lanes issue one after another: what the lanes issued so far have changed, and what each of them has left outstanding.
-/

namespace Sys2Proof.Machine

/-! ### What lies beside the group -/

/-- Of the cores nothing but TLBs and counts has changed (R165, Table 22.9). -/
def TlbsOnly (s t : State) : Prop := ∀ k, ∃ tlb perf, t.core k = { s.core k with tlb := tlb, perf := perf }

theorem TlbsOnly.of_cores {s t : State} (h : t.cores = s.cores) : TlbsOnly s t := fun k => ⟨_, _, by rw [State.core, h]; rfl⟩

theorem TlbsOnly.trans {s t u : State} (h : TlbsOnly s t) (k : TlbsOnly t u) : TlbsOnly s u := fun j => by
  obtain ⟨a, p, ha⟩ := h j
  obtain ⟨b, q, hb⟩ := k j
  exact ⟨b, q, by rw [hb, ha]⟩

theorem OnlyCounts.tlbsOnly {s t : State} (h : OnlyCounts s t) : TlbsOnly s t := fun k => by
  obtain ⟨p, hp⟩ := h k
  exact ⟨_, p, hp⟩

theorem State.tabSet_tlb_tlbsOnly (s : State) (k : Nat) (tlb : List TlbEntry) :
    TlbsOnly s { s with cores := tabSet s.cores k { s.core k with tlb := tlb } } := fun j => by
  rw [State.core_tabSet]
  split
  · next e => exact ⟨tlb, _, by rw [e]⟩
  · exact ⟨_, _, rfl⟩

theorem State.fillTlb_tlbsOnly (s : State) (w : Who) (acc : Acc) (va : Nat) : TlbsOnly s (s.fillTlb w acc va) := by
  have hcount := (s.count_onlyCounts w.core w.ctx 5 1).tlbsOnly
  unfold State.fillTlb
  split
  · exact .of_cores rfl
  · simp only
    split
    · exact hcount
    · split
      · exact hcount.trans (State.tabSet_tlb_tlbsOnly _ _ _)
      · exact hcount

/-- A state in which nothing has been issued: beyond TLBs and counts of cores, who holds lines and what is known of happens-before it is as it was. -/
structure Quiet (s t : State) : Prop where
  rest : t = { s with cores := t.cores, leases := t.leases, hostLines := t.hostLines, order := t.order }
  cores : TlbsOnly s t

theorem Quiet.refl (s : State) : Quiet s s := ⟨rfl, .of_cores rfl⟩

theorem Quiet.trans {s t u : State} (h : Quiet s t) (k : Quiet t u) : Quiet s u := ⟨by rw [k.rest, h.rest], h.cores.trans k.cores⟩

theorem Quiet.foldl {α : Type} {f : State → α → State} (hf : ∀ s a, Quiet s (f s a)) (l : List α) (s : State) : Quiet s (l.foldl f s) := by
  induction l generalizing s with
  | nil => exact .refl s
  | cons a l ih => exact (hf s a).trans (ih _)

theorem TouchedOnly.quiet {s t : State} (h : TouchedOnly s t) (hc : TlbsOnly s t) : Quiet s t := ⟨by rw [h], hc⟩

theorem State.count_quiet (s : State) (core ctx kind n : Nat) : Quiet s (s.count core ctx kind n) :=
  ⟨by rw [s.count_rest core ctx kind n], (s.count_onlyCounts core ctx kind n).tlbsOnly⟩

theorem State.fillTlb_quiet (s : State) (w : Who) (acc : Acc) (va : Nat) : Quiet s (s.fillTlb w acc va) :=
  (s.fillTlb_touchedOnly w acc va).quiet (s.fillTlb_tlbsOnly w acc va)

theorem State.fillFor_quiet (s : State) (c : Cx) (acc : Acc) (va : Nat) (loc : Loc) : Quiet s (s.fillFor c acc va loc) := by
  cases loc with
  | phys pa => exact s.fillTlb_quiet ..
  | spad => exact .refl s

theorem State.touchRead_quiet (s : State) (agent pa n : Nat) : Quiet s (s.touchRead agent pa n) :=
  .foldl (f := fun t (r : Nat × Nat) => t.readLine agent r.1 r.2) (fun _ _ => ⟨rfl, .of_cores rfl⟩) _ s

theorem Quiet.groups {s t : State} (h : Quiet s t) : t.groups = s.groups := by rw [h.rest]
theorem Quiet.ops {s t : State} (h : Quiet s t) : t.ops = s.ops := by rw [h.rest]
theorem Quiet.resid {s t : State} (h : Quiet s t) : t.resid = s.resid := by rw [h.rest]
theorem Quiet.nextId {s t : State} (h : Quiet s t) : t.nextId = s.nextId := by rw [h.rest]

/-! ### Vector destinations -/

/-- Registers that are the lane's own vector registers. -/
def Vectors (rs : List PReg) : Prop := ∀ r ∈ rs, ∃ n, r = .v n

theorem Vectors.nil : Vectors [] := fun _ h => absurd h List.not_mem_nil

theorem vectors_of_fields {ds : List Opd} (h : ∀ o ∈ ds, ∃ f, o = .v f) (y : Lane) : Vectors (ds.filterMap (·.reg y)) := fun r hr => by
  obtain ⟨o, ho, he⟩ := List.mem_filterMap.1 hr
  obtain ⟨f, rfl⟩ := h o ho
  exact ⟨_, (Option.some.inj he).symm⟩

/-- A write owed to no uniform register takes nothing from earlier loads (R106). -/
theorem State.supersede_of_vectors (s : State) (g : Nat) (ls : List Nat) (i : Instr) {rs : List PReg} (h : Vectors rs) :
    s.supersede g ls i rs = s := by
  simp only [State.supersede]
  refine if_pos (List.filter_eq_nil_iff.2 fun r hr => ?_)
  obtain ⟨n, rfl⟩ := h r hr
  exact Bool.false_ne_true

/-- Pending marks of vector registers of a lane are in that lane alone. -/
theorem tagAll_vectors (x : Group) (l : Nat) {rs : List PReg} (h : Vectors rs) (t : Nat) :
    tagAll x l rs t = { x with lanes := (tagAll x l rs t).lanes } ∧ ∀ k, k ≠ l → tabGet (tagAll x l rs t).lanes k = tabGet x.lanes k := by
  induction rs generalizing x t with
  | nil => exact ⟨rfl, fun _ _ => rfl⟩
  | cons r rs ih =>
    obtain ⟨n, rfl⟩ := h r List.mem_cons_self
    obtain ⟨hr, ho⟩ := ih (x.markPending l (.v n) t) (fun q hq => h q (List.mem_cons_of_mem _ hq)) (t + 1)
    exact ⟨by rw [tagAll, hr]; rfl, fun k hk => (ho k hk).trans (tabGet_tabMod_ne _ _ hk)⟩

/-! ### One lane issues -/

/-- A lane that has issued an instruction that counts on a flag: its flag counts once more, and registers of it may be pending. -/
def Lane.Issued (f : Option Nat) (y z : Option Lane) : Prop := ∃ p q, z = y.map fun y => { y.incFlag f with pend := p, ppend := q }

/-- The lane `l` of the group has issued `i`, and nothing else of the group has changed. -/
structure Group.IssuedBy (x y : Group) (l : Nat) (f : Option Nat) : Prop where
  rest : y = { x with lanes := y.lanes }
  other : ∀ k, k ≠ l → tabGet y.lanes k = tabGet x.lanes k
  self : Lane.Issued f (tabGet x.lanes l) (tabGet y.lanes l)

/-- From `t` to `u` the lane `l` of `c` has issued `i`: an access or an entry of its own may be outstanding, and what was so before still is. -/
structure Issues (i : Instr) (c : Cx) (l : Nat) (t u : State) : Prop where
  rest : u = { t with
    groups := u.groups, ops := u.ops, resid := u.resid, nextId := u.nextId, cores := u.cores, leases := u.leases, hostLines := u.hostLines
    order := u.order }
  others : ∀ g, g ≠ c.g → tabGet u.groups g = tabGet t.groups g
  group : ∃ x y, tabGet t.groups c.g = some x ∧ tabGet u.groups c.g = some y ∧ x.IssuedBy y l ((c.x.lane l).flagOf i)
  ids : t.nextId ≤ u.nextId
  ops : ∀ id, id < t.nextId → tabGet u.ops id = tabGet t.ops id
  resid : ∀ id, id < t.nextId → tabGet u.resid id = tabGet t.resid id
  cores : TlbsOnly t u

theorem Quiet.issues {i : Instr} {c : Cx} {l : Nat} {s t u : State} (h : Quiet s t) (k : Issues i c l t u) : Issues i c l s u where
  rest := by rw [k.rest, h.rest]
  others := by rw [← h.groups]; exact k.others
  group := by rw [← h.groups]; exact k.group
  ids := by rw [← h.nextId]; exact k.ids
  ops := by rw [← h.nextId, ← h.ops]; exact k.ops
  resid := by rw [← h.nextId, ← h.resid]; exact k.resid
  cores := h.cores.trans k.cores

theorem Issues.quiet {i : Instr} {c : Cx} {l : Nat} {s t u : State} (h : Issues i c l s t) (k : Quiet t u) : Issues i c l s u where
  rest := by rw [k.rest, h.rest]
  others := by rw [k.groups]; exact h.others
  group := by rw [k.groups]; exact h.group
  ids := by rw [k.nextId]; exact h.ids
  ops := by rw [k.ops]; exact h.ops
  resid := by rw [k.resid]; exact h.resid
  cores := h.cores.trans k.cores

theorem Lane.issued_none (y : Option Lane) : Lane.Issued none y y := by
  cases y with
  | none => exact ⟨[], [], rfl⟩
  | some y => exact ⟨y.pend, y.ppend, rfl⟩

/-- Tags for vector destinations, and one more count of the flag. -/
theorem tagAll_incFlags_issuedBy (x : Group) (l : Nat) {rs : List PReg} (h : Vectors rs) (t : Nat) (f : Option Nat) :
    x.IssuedBy ((tagAll x l rs t).incFlags [l] f) l f := by
  obtain ⟨hr, ho⟩ := tagAll_vectors x l h t
  obtain ⟨p, q, hm⟩ := (tagAll_markedOnly x l rs t).lanes l
  refine ⟨?_, fun k hk => (tabGet_tabMod_ne _ _ hk).trans (ho k hk), p, q, (tabGet_tabMod_self ..).trans ?_⟩
  · rw [Group.incFlags, hr]
  · rw [hm, Option.map_map]
    refine congrArg (Option.map · _) (funext fun y => ?_)
    cases f with
    | none => rfl
    | some f => rfl

theorem State.launch_issues {t : State} {c : Cx} {x : Group} (hx : tabGet t.groups c.g = some x) (i : Instr) (l : Nat) {dsts : List PReg}
    (hv : Vectors dsts) (o : MemOp) : Issues i c l t (t.launch c i l [l] dsts o) where
  rest := rfl
  others := fun g hg => tabGet_tabMod_ne _ _ hg
  group := ⟨x, _, hx, State.launch_group hx i l dsts o, tagAll_incFlags_issuedBy x l hv _ _⟩
  ids := show t.nextId ≤ t.nextId + 1 + dsts.length by omega
  ops := fun _ hid => tabGet_tabSet_ne _ _ (by omega)
  resid := fun _ _ => rfl
  cores := .of_cores rfl

theorem State.counted_issues {t : State} {c : Cx} {x : Group} (hx : tabGet t.groups c.g = some x) (i : Instr) (l : Nat) :
    Issues i c l t (t.counted c i l) := by
  unfold State.counted
  split
  · exact State.launch_issues hx i l .nil _
  · next hf =>
    have hnone : (c.x.lane l).flagOf i = none := by simpa using hf
    refine ⟨rfl, fun _ _ => rfl, ⟨x, x, hx, hx, rfl, fun _ _ => rfl, ?_⟩, le_rfl, fun _ _ => rfl, fun _ _ => rfl, .of_cores rfl⟩
    rw [hnone]
    exact Lane.issued_none _

/-- The entry that a capture makes of `r`, under identity `id` (R105, R112). -/
def State.entryOf (s : State) (c : Cx) (i : Instr) (l : Nat) (dsts : List PReg) (r : Resid) : Resid :=
  { r with
    flag := (c.x.lane l).flagOf i, lanes := [l], issue := s.fresh, hdr := (c.x.lane l).hdr, ins := i
    know := if releases i then s.seenBy c.g l else [], g := c.g, lane := l
    dsts := dsts.zip ((upto dsts.length).map (s.nextId + 1 + ·)) }

/-- What a capture of one lane leaves, before it is counted. -/
theorem State.captureMem_eq (t : State) (c : Cx) (i : Instr) (l : Nat) {dsts : List PReg} (hv : Vectors dsts) (r : Resid) :
    t.captureMem c i l [l] dsts r =
      ((({ t with nextId := t.nextId + 1 + dsts.length, resid := tabSet t.resid t.nextId (t.entryOf c i l dsts r) } : State).modGroup c.g
        (tagAll · l dsts (t.nextId + 1))).modGroup c.g (·.incFlags [l] ((c.x.lane l).flagOf i))).count (coreOf c.g) c.gr.ctx 3 1 := by
  simp only [State.captureMem, State.capture, State.supersede_of_vectors _ _ _ _ hv]
  rfl

theorem State.captureMem_group {t : State} {c : Cx} {x : Group} (hx : tabGet t.groups c.g = some x) (i : Instr) (l : Nat) {dsts : List PReg}
    (hv : Vectors dsts) (r : Resid) : tabGet (t.captureMem c i l [l] dsts r).groups c.g =
      some ((tagAll x l dsts (t.nextId + 1)).incFlags [l] ((c.x.lane l).flagOf i)) := by
  rw [State.captureMem_eq t c i l hv, State.count_groups]
  exact State.modGroup_get (State.modGroup_get hx _) _

theorem State.captureMem_issues {t : State} {c : Cx} {x : Group} (hx : tabGet t.groups c.g = some x) (i : Instr) (l : Nat) {dsts : List PReg}
    (hv : Vectors dsts) (r : Resid) : Issues i c l t (t.captureMem c i l [l] dsts r) := by
  have hg := State.captureMem_group hx i l hv r
  rw [State.captureMem_eq t c i l hv] at hg ⊢
  refine Issues.quiet ?_ (State.count_quiet ..)
  rw [State.count_groups] at hg
  exact ⟨rfl, fun g hne => (tabGet_tabMod_ne _ _ hne).trans (tabGet_tabMod_ne _ _ hne), ⟨x, _, hx, hg, tagAll_incFlags_issuedBy x l hv _ _⟩,
    show t.nextId ≤ t.nextId + 1 + dsts.length by omega, fun _ _ => rfl, fun _ hid => tabGet_tabSet_ne _ _ (by omega), .of_cores rfl⟩

/-! ### What a lane has left outstanding -/

/-- An entry made since `b` is among those of `t` and as `P` says, which may also speak of what is pending in the lane `l`. -/
def HasEntry (b : Nat) (c : Cx) (l : Nat) (P : Resid → (PReg → Option Nat) → Prop) (t : State) : Prop :=
  ∃ id r, b ≤ id ∧ id < t.nextId ∧ tabGet t.resid id = some r ∧ P r ((t.group c.g).pending l)

/-- An access likewise. -/
def HasAccess (b : Nat) (c : Cx) (l : Nat) (P : MemOp → (PReg → Option Nat) → Prop) (t : State) : Prop :=
  ∃ id o, b ≤ id ∧ id < t.nextId ∧ tabGet t.ops id = some o ∧ P o ((t.group c.g).pending l)

/-- What another lane issues leaves the pending marks of a lane alone. -/
theorem Issues.pending {i : Instr} {c : Cx} {k l : Nat} {t u : State} (h : Issues i c k t u) (hne : l ≠ k) :
    (u.group c.g).pending l = (t.group c.g).pending l := by
  obtain ⟨x, y, hx, hy, hg⟩ := h.group
  rw [State.group_of_get hx, State.group_of_get hy]
  have hlane : y.lane l = x.lane l := by rw [Group.lane, Group.lane, tabGetD, tabGetD, hg.other l hne]
  funext r
  cases r with
  | v n | p n => rw [Group.pending, hlane, Group.pending]
  | s n => rw [hg.rest]; rfl

theorem HasEntry.issues {i : Instr} {b : Nat} {c : Cx} {k l : Nat} {P : Resid → (PReg → Option Nat) → Prop} {t u : State}
    (h : HasEntry b c l P t) (hu : Issues i c k t u) (hne : l ≠ k) : HasEntry b c l P u := by
  obtain ⟨id, r, hb, hid, hr, hp⟩ := h
  exact ⟨id, r, hb, lt_of_lt_of_le hid hu.ids, (hu.resid id hid).trans hr, by rw [hu.pending hne]; exact hp⟩

theorem HasAccess.issues {i : Instr} {b : Nat} {c : Cx} {k l : Nat} {P : MemOp → (PReg → Option Nat) → Prop} {t u : State}
    (h : HasAccess b c l P t) (hu : Issues i c k t u) (hne : l ≠ k) : HasAccess b c l P u := by
  obtain ⟨id, o, hb, hid, ho, hp⟩ := h
  exact ⟨id, o, hb, lt_of_lt_of_le hid hu.ids, (hu.ops id hid).trans ho, by rw [hu.pending hne]; exact hp⟩

theorem State.captureMem_hasEntry {t : State} {c : Cx} {x : Group} (hx : tabGet t.groups c.g = some x) (i : Instr) (l : Nat)
    {dsts : List PReg} (hv : Vectors dsts) {r : Resid} {b : Nat} (hb : b ≤ t.nextId) {P : Resid → (PReg → Option Nat) → Prop}
    (hP : P (t.entryOf c i l dsts r) (((tagAll x l dsts (t.nextId + 1)).incFlags [l] ((c.x.lane l).flagOf i)).pending l)) :
    HasEntry b c l P (t.captureMem c i l [l] dsts r) := by
  refine ⟨t.nextId, t.entryOf c i l dsts r, hb, ?_, ?_, ?_⟩
  · rw [State.captureMem_eq t c i l hv, State.count_nextId]
    show t.nextId < t.nextId + 1 + dsts.length
    omega
  · rw [State.captureMem_eq t c i l hv, State.count_resid]
    exact tabGet_tabSet_self ..
  · rw [State.group_of_get (State.captureMem_group hx i l hv r)]
    exact hP

/-! ### The lanes that have issued -/

/-- The lanes `done` of `c` have issued `i`, one after another from `s` on. -/
structure IssuedIn (i : Instr) (s : State) (c : Cx) (done : List Nat) (t : State) : Prop where
  rest : t = { s with
    groups := t.groups, ops := t.ops, resid := t.resid, nextId := t.nextId, cores := t.cores, leases := t.leases, hostLines := t.hostLines
    order := t.order }
  others : ∀ g, g ≠ c.g → tabGet t.groups g = tabGet s.groups g
  group : ∃ x, tabGet t.groups c.g = some x ∧ x = { c.x with lanes := x.lanes } ∧
    (∀ l, l ∉ done → tabGet x.lanes l = tabGet c.x.lanes l) ∧
      ∀ l ∈ done, Lane.Issued ((c.x.lane l).flagOf i) (tabGet c.x.lanes l) (tabGet x.lanes l)
  ids : s.nextId ≤ t.nextId
  ops : ∀ id, id < s.nextId → tabGet t.ops id = tabGet s.ops id
  resid : ∀ id, id < s.nextId → tabGet t.resid id = tabGet s.resid id
  cores : TlbsOnly s t

theorem IssuedIn.start {s t : State} {c : Cx} (h : s.Acts c) (ht : Quiet s t) (i : Instr) : IssuedIn i s c [] t where
  rest := by rw [ht.rest]
  others := by rw [ht.groups]; exact fun _ _ => rfl
  group := ⟨c.x, by rw [ht.groups]; exact State.inFocus_group h.focus, rfl, fun _ _ => rfl, fun _ hl => absurd hl List.not_mem_nil⟩
  ids := by rw [ht.nextId]
  ops := by rw [ht.ops]; exact fun _ _ => rfl
  resid := by rw [ht.resid]; exact fun _ _ => rfl
  cores := ht.cores

theorem IssuedIn.step {i : Instr} {s t u : State} {c : Cx} {done : List Nat} (h : IssuedIn i s c done t) {l : Nat} (hl : l ∉ done)
    (hu : Issues i c l t u) : IssuedIn i s c (l :: done) u := by
  obtain ⟨x, hx, hrest, hidle, hdone⟩ := h.group
  obtain ⟨x', y, hx', hy, hg⟩ := hu.group
  obtain rfl : x' = x := Option.some.inj (hx'.symm.trans hx)
  have hids := h.ids
  refine ⟨by rw [hu.rest, h.rest], fun g hne => (hu.others g hne).trans (h.others g hne), ⟨y, hy, ?_, ?_, ?_⟩, hids.trans hu.ids,
    fun id hid => (hu.ops id (by omega)).trans (h.ops id hid), fun id hid => (hu.resid id (by omega)).trans (h.resid id hid),
    h.cores.trans hu.cores⟩
  · rw [hg.rest, hrest]
  · intro k hk
    rw [List.mem_cons, not_or] at hk
    exact (hg.other k hk.1).trans (hidle k hk.2)
  · intro k hk
    by_cases e : k = l
    · subst e
      rw [← hidle k hl]
      exact hg.self
    · rw [hg.other k e]
      exact hdone k (List.mem_of_ne_of_mem e hk)

/-- The lanes of a set issue one after another; what each leaves, of which `Q` speaks and which no later lane takes away, is there at the end. -/
theorem IssuedIn.foldl {i : Instr} {s : State} {c : Cx} {f : State → Nat → State} {Q : Nat → State → Prop}
    (hf : ∀ done t l, IssuedIn i s c done t → l ∈ c.ls → l ∉ done → Issues i c l t (f t l) ∧ Q l (f t l))
    (hQ : ∀ l k t u, l ≠ k → Issues i c k t u → Q l t → Q l u) (ls : List Nat) (hls : ∀ l ∈ ls, l ∈ c.ls) (hd : ls.Nodup) :
    ∀ {done : List Nat} {t : State}, IssuedIn i s c done t → (∀ l ∈ ls, l ∉ done) → (∀ l ∈ done, Q l t) →
      IssuedIn i s c (ls.reverse ++ done) (ls.foldl f t) ∧ ∀ l ∈ ls.reverse ++ done, Q l (ls.foldl f t) := by
  induction ls with
  | nil => exact fun h _ hq => ⟨h, hq⟩
  | cons l ls ih =>
    intro done t h hdis hq
    rw [List.nodup_cons] at hd
    have hl := hdis l List.mem_cons_self
    obtain ⟨hi, hql⟩ := hf done t l h (hls l List.mem_cons_self) hl
    rw [List.reverse_cons, List.append_assoc]
    refine ih (fun k hk => hls k (List.mem_cons_of_mem _ hk)) hd.2 (h.step hl hi) (fun k hk => ?_) fun k hk => ?_
    · rw [List.singleton_append, List.mem_cons, not_or]
      exact ⟨fun e => hd.1 (e ▸ hk), hdis k (List.mem_cons_of_mem _ hk)⟩
    · by_cases e : k = l
      · exact e ▸ hql
      · exact hQ k l t _ e hi (hq k (List.mem_of_ne_of_mem e hk))

theorem IssuedIn.congr {i : Instr} {s t : State} {c : Cx} {done done' : List Nat} (h : IssuedIn i s c done t)
    (he : ∀ l, l ∈ done' ↔ l ∈ done) : IssuedIn i s c done' t := by
  obtain ⟨x, hx, hrest, hidle, hdone⟩ := h.group
  exact { h with group := ⟨x, hx, hrest, fun l hl => hidle l fun k => hl ((he l).2 k), fun l hl => hdone l ((he l).1 hl)⟩ }

/-- Every lane of a set issues. -/
theorem IssuedIn.all {i : Instr} {s t : State} {c : Cx} {f : State → Nat → State} {Q : Nat → State → Prop} (h : s.Acts c) (ht : Quiet s t)
    (hf : ∀ done t l, IssuedIn i s c done t → l ∈ c.ls → l ∉ done → Issues i c l t (f t l) ∧ Q l (f t l))
    (hQ : ∀ l k t u, l ≠ k → Issues i c k t u → Q l t → Q l u) :
    IssuedIn i s c c.ls (c.ls.foldl f t) ∧ ∀ l ∈ c.ls, Q l (c.ls.foldl f t) := by
  obtain ⟨hi, hq⟩ := IssuedIn.foldl hf hQ c.ls (fun _ h => h) h.distinct (IssuedIn.start h ht i) (fun _ _ => List.not_mem_nil)
    fun _ hl => absurd hl List.not_mem_nil
  rw [List.append_nil] at hi hq
  exact ⟨hi.congr fun l => by rw [List.mem_reverse], fun l hl => hq l (List.mem_reverse.2 hl)⟩

/-! ### The set goes on -/

theorem Lane.incFlag_with_flags (y : Lane) (f : Option Nat) (p q : Tab Nat) (n : Nat) :
    ({ y.incFlag f with pend := p, ppend := q } : Lane).advance n =
      { y.advance n with flags := (y.incFlag f).flags, pend := p, ppend := q } := by
  rw [Lane.incFlag_rest]
  unfold Lane.advance Lane.goto Lane.bodyEnd
  simp only
  split <;> rfl

theorem Lane.advance_irrev (y : Lane) (n : Nat) : (y.advance n).irrev = y.irrev := by
  unfold Lane.advance Lane.goto; simp only; split <;> rfl

/-- What an advance of the set leaves of its group: each lane past the word, its flag counted, its marks as they were. -/
structure Gone (i : Instr) (s : State) (c : Cx) (t u : State) : Prop where
  rest : u = { t with groups := u.groups }
  others : ∀ g, g ≠ c.g → tabGet u.groups g = tabGet t.groups g
  group : ∃ x, tabGet u.groups c.g = some x ∧ x = { c.x with lanes := x.lanes } ∧ (∀ l, l ∉ c.ls → tabGet x.lanes l = tabGet c.x.lanes l) ∧
    ∀ l ∈ c.ls, ∃ p q, x.lane l =
      { (c.x.lane l).advance (sizeOf' i) with
        stamp := s.clock, pass := false, flags := ((c.x.lane l).incFlag ((c.x.lane l).flagOf i)).flags, pend := p, ppend := q }
  pending : ∀ l ∈ c.ls, (u.group c.g).pending l = (t.group c.g).pending l

theorem IssuedIn.clock {i : Instr} {s t : State} {c : Cx} {done : List Nat} (h : IssuedIn i s c done t) : t.clock = s.clock := by rw [h.rest]
theorem IssuedIn.fresh {i : Instr} {s t : State} {c : Cx} {done : List Nat} (h : IssuedIn i s c done t) : t.fresh = s.fresh := by rw [h.rest]
theorem IssuedIn.mem {i : Instr} {s t : State} {c : Cx} {done : List Nat} (h : IssuedIn i s c done t) : t.mem = s.mem := by rw [h.rest]
theorem IssuedIn.teams {i : Instr} {s t : State} {c : Cx} {done : List Nat} (h : IssuedIn i s c done t) : t.teams = s.teams := by rw [h.rest]

theorem IssuedIn.gone {i : Instr} {s t : State} {c : Cx} (h : s.Acts c) (ht : IssuedIn i s c c.ls t) :
    Gone i s c t (t.advance c (sizeOf' i)) := by
  obtain ⟨x, hx, hrest, hidle, hdone⟩ := ht.group
  have hg : tabGet (t.advance c (sizeOf' i)).groups c.g = some { x with lanes := passLanes c.ls (sizeOf' i) t.clock x.lanes } :=
    State.modGroup_get hx _
  have hlane : ∀ l ∈ c.ls, ({ x with lanes := passLanes c.ls (sizeOf' i) t.clock x.lanes } : Group).lane l =
      (x.lane l).passed (sizeOf' i) s.clock := fun l hl => by
    obtain ⟨y, hy⟩ := Option.isSome_iff_exists.1 (h.slots l hl)
    obtain ⟨p, q, hpq⟩ := hdone l hl
    simp only [Group.lane, tabGetD, passLanes_self _ _ _ _ _ hl h.distinct, hpq, hy, Option.map_some, Option.getD_some, ht.clock]
  refine ⟨rfl, fun g hne => tabGet_tabMod_ne _ _ hne, ⟨_, hg, by rw [hrest], fun l hl => ?_, fun l hl => ?_⟩, fun l hl => ?_⟩
  · exact (passLanes_other _ _ _ _ _ hl).trans (hidle l hl)
  · obtain ⟨y, hy⟩ := Option.isSome_iff_exists.1 (h.slots l hl)
    obtain ⟨p, q, hpq⟩ := hdone l hl
    refine ⟨p, q, ?_⟩
    rw [hlane l hl]
    simp only [Lane.passed, Group.lane, tabGetD, hpq, hy, Option.map_some, Option.getD_some, Lane.incFlag_with_flags]
  · rw [State.group_of_get hg, State.group_of_get hx]
    funext r
    cases r with
    | s n => rfl
    | v n => rw [Group.pending, hlane l hl, Lane.passed]; exact congrArg (tabGet · n) (Lane.advance_pend ..)
    | p n => rw [Group.pending, hlane l hl, Lane.passed]; exact congrArg (tabGet · n) (Lane.advance_ppend ..)

theorem Gone.passed {i : Instr} {s t u : State} {c : Cx} (h : Gone i s c t u) : Passed i c u := by
  obtain ⟨x, hx, hrest, -, hlane⟩ := h.group
  rw [Passed, State.group_of_get hx]
  refine ⟨by rw [hrest], fun l hl => ?_⟩
  obtain ⟨p, q, he⟩ := hlane l hl
  rw [he]
  exact ⟨rfl, rfl⟩

/-- An instruction that is not irreversible leaves its issue set so (R101, R124). -/
theorem Gone.frame {i : Instr} {s t u : State} {c : Cx} (h : Gone i s c t u) (hi : irreversible i = false) (ht : IssuedIn i s c c.ls t) :
    IssueFrame i s c u := by
  obtain ⟨x, hx, hrest, hidle, hlane⟩ := h.group
  have hg := State.group_of_get hx
  refine ⟨fun g hne => (h.others g hne).trans (ht.others g hne), ?_, by rw [hg]; exact hidle, fun l hl => ?_, ?_, ?_⟩
  · rw [hg, hx, hrest]
  · obtain ⟨p, q, he⟩ := hlane l hl
    rw [hg, he, hi]
    simp only [Bool.false_or]
    congr 1
    exact Lane.advance_irrev ..
  · rw [h.rest]; exact ht.ops
  · rw [h.rest]; exact ht.cores

theorem Gone.hasEntry {i : Instr} {s t u : State} {c : Cx} (h : Gone i s c t u) {b l : Nat} {P : Resid → (PReg → Option Nat) → Prop}
    (hl : l ∈ c.ls) (he : HasEntry b c l P t) : HasEntry b c l P u := by
  obtain ⟨id, r, hb, hid, hr, hp⟩ := he
  exact ⟨id, r, hb, by rw [h.rest]; exact hid, by rw [h.rest]; exact hr, by rw [h.pending l hl]; exact hp⟩

theorem Gone.hasAccess {i : Instr} {s t u : State} {c : Cx} (h : Gone i s c t u) {b l : Nat} {P : MemOp → (PReg → Option Nat) → Prop}
    (hl : l ∈ c.ls) (he : HasAccess b c l P t) : HasAccess b c l P u := by
  obtain ⟨id, o, hb, hid, ho, hp⟩ := he
  exact ⟨id, o, hb, by rw [h.rest]; exact hid, by rw [h.rest]; exact ho, by rw [h.pending l hl]; exact hp⟩

end Sys2Proof.Machine

/-!
PROOFS. The window base and the lives of registers (O18).
-/

namespace Sys2Proof.Machine

/-- A word that is not irreversible leaves its mark as it was. -/
theorem Lane.past_of_reversible (y : Lane) {i : Instr} (h : irreversible i = false) (clock : Nat) :
    y.past i clock = { y.advance (sizeOf' i) with stamp := clock, pass := false } := by
  rw [Lane.past, h, Bool.false_or, ← Lane.advance_irrev y (sizeOf' i)]

/-- A set whose lanes are changed and then go on. -/
theorem State.modLanes_done_lanesOnly {s : State} {c : Cx} (h : s.Acts c) (f : Nat → Lane → Lane) {i : Instr} (hi : irreversible i = false) :
    LanesOnly s c ((s.modLanes c.g c.ls f).done c i) fun l y => (f l y).passed (sizeOf' i) s.clock := by
  simp only [State.done, hi, Bool.false_eq_true, if_false]
  refine .of_table (lanes := passLanes c.ls (sizeOf' i) s.clock (c.ls.foldl (fun t l => tabMod t l (f l)) c.x.lanes)) h rfl
    (fun g hg => (tabGet_tabMod_ne _ _ hg).trans (tabGet_tabMod_ne _ _ hg)) ?_ (fun l hl => ?_) fun l hl => ?_
  · exact State.modGroup_get (State.modGroup_get (State.inFocus_group h.focus) _) _
  · rw [passLanes_other _ _ _ _ _ hl, foldl_tabMod_other _ f _ _ hl]
  · rw [passLanes_self _ _ _ _ _ hl h.distinct, foldl_tabMod_self _ f _ _ hl h.distinct, Option.map_map]
    rfl

/-- An instruction that leaves nothing but the place of its lanes. -/
theorem State.done_past {s : State} {c : Cx} (h : s.Acts c) {i : Instr} (hi : irreversible i = false) (hn : sizeOf' i = 1) :
    LanesOnly s c (s.done c i) fun _ y => { y.advance 1 with stamp := s.clock, pass := false } :=
  (State.done_lanesOnly h i).congr fun _ _ => by rw [Lane.past_of_reversible _ hi, hn]

/-- Advancing keeps the window base and reads none. -/
theorem Lane.advance_with_wb (y : Lane) (n w : Nat) : ({ y with wb := w } : Lane).advance n = { y.advance n with wb := w } := by
  unfold Lane.advance Lane.goto Lane.bodyEnd; simp only; split <;> rfl

theorem Lane.advance_free (y : Lane) (n : Nat) (rs : List Nat) :
    (y.free rs).advance n = { y.advance n with regs := (y.free rs).regs, resident := (y.free rs).resident } := by
  unfold Lane.free Lane.advance Lane.goto Lane.bodyEnd; simp only; split <;> rfl

theorem Lane.free_regs_get (y : Lane) (rs : List Nat) (k : Nat) :
    tabGet (y.free rs).regs k = if k ∈ rs then none else tabGet y.regs k := by
  refine (tabGet_filter_key y.regs (fun n => !rs.contains n) k).trans ?_
  simp only [Bool.not_eq_true', List.contains_eq_mem, decide_eq_false_iff_not, ite_not]

/-- The registers that `n` fields from `a` on name in the lane (R90). -/
def Lane.window (y : Lane) (a n : Nat) : List Nat := (upto n).map fun k => y.arch (a + k)

theorem Lane.mem_window {y : Lane} {a n k : Nat} : k ∈ y.window a n ↔ ∃ j < n, k = y.arch (a + j) := by
  simp only [Lane.window, upto, List.mem_map, List.mem_range, eq_comm]

/-- VFREE: every lane has freed its registers and stands past the word. -/
theorem exec_vfree {s : State} {c : Cx} {r : VField} {m : BitVec 7} (h : s.Ready (.vfree r m) c) :
    ∃ t, exec (.vfree r m) s = .next t ∧
      LanesOnly s c t fun _ y => (y.free (y.window r.toNat m.toNat)).passed 1 s.clock :=
  ⟨_, by rw [exec, execVfree, issue_ready rfl h]; rfl,
    State.modLanes_done_lanesOnly h.toActs (fun _ y => y.free (y.window r.toNat m.toNat)) (i := .vfree r m) rfl⟩

theorem LanesOnly.freed_regs {s t : State} {c : Cx} {rs : Lane → List Nat} (h : LanesOnly s c t fun _ y => (y.free (rs y)).passed 1 s.clock)
    {l : Nat} (hl : l ∈ c.ls) (k : Nat) :
    tabGet ((t.group c.g).lane l).regs k = if k ∈ rs (c.x.lane l) then none else tabGet (c.x.lane l).regs k := by
  rw [h.active l hl, Lane.passed, Lane.advance_free]
  exact Lane.free_regs_get ..

/-- Settles O18, case by case: what the instruction does to a lane, and the place past the word. -/
theorem windowAndLiveness : Obligations.WindowAndLiveness := by
  unfold Obligations.WindowAndLiveness
  intro s c r n m
  refine ⟨fun h => ?nop, fun h => ?yield, fun h => ?pend, fun h => ?wbase, fun h => ?vfree⟩
  case nop => exact ⟨_, by rw [exec, execNop, issue_ready rfl h], State.done_past h.toActs rfl rfl⟩
  case yield => exact ⟨_, by rw [exec, execYield, issue_ready rfl h], State.done_past h.toActs rfl rfl⟩
  case pend => exact ⟨_, by rw [exec, execPend, issue_ready rfl h], State.done_past h.toActs rfl rfl⟩
  case wbase =>
    refine ⟨_, by rw [exec, execWbase, issue_ready rfl h],
      (State.modLanes_done_lanesOnly h.toActs _ rfl).congr fun l _ => ?_⟩
    rw [Lane.passed, Lane.advance_with_wb]
    rfl
  case vfree =>
    obtain ⟨t, he, ht⟩ := exec_vfree h
    refine ⟨t, he, fun l hl k hk => ?freed, fun l hl k hk => ?kept, ht.congr fun l hl => ?lane⟩
    case freed => exact (ht.freed_regs hl _).trans (if_pos (Lane.mem_window.2 ⟨k, hk, rfl⟩))
    case kept =>
      refine (ht.freed_regs hl k).trans (if_neg fun hm => ?_)
      obtain ⟨j, hj, e⟩ := Lane.mem_window.1 hm
      exact hk j hj e
    case lane => rw [ht.active l hl, Lane.passed, Lane.advance_free]

end Sys2Proof.Machine

/-!
PROOFS. Fences with nothing outstanding, ICINV, and the CCTL family (O26).
-/

namespace Sys2Proof.Machine

/-! ### Fences -/

theorem OrderOnly.trans {s t u : State} (h : OrderOnly s t) (k : OrderOnly t u) : OrderOnly s u := by
  unfold OrderOnly at h k ⊢
  rw [k, h]

theorem State.modOrd_orderOnly (s : State) (k : Nat) (f : ThreadOrd → ThreadOrd) : OrderOnly s (s.modOrd k f) := rfl

theorem State.acquireFrom_orderOnly (s : State) (g l : Nat) (sc : Scope) (rs : List Rel) : OrderOnly s (s.acquireFrom g l sc rs) := by
  unfold State.acquireFrom
  split
  · exact rfl
  · exact rfl

theorem State.fenceAcquires_orderOnly (s : State) (g l : Nat) (sc : Scope) : OrderOnly s (s.fenceAcquires g l sc) := by
  unfold State.fenceAcquires
  simp only
  split
  · exact rfl
  · exact rfl

theorem State.fenceFull_orderOnly (s : State) (g l : Nat) (sc : Scope) : OrderOnly s (s.fenceFull g l sc) :=
  ((s.fenceAcquires_orderOnly g l sc).trans (State.acquireFrom_orderOnly _ g l sc s.order.fulls)).trans rfl

theorem State.fenceAs_orderOnly (s : State) (g l : Nat) (i : Instr) (know : Tab Nat) : OrderOnly s (s.fenceAs g l i know) := by
  unfold State.fenceAs
  split
  · exact rfl
  · exact s.fenceFull_orderOnly ..
  · exact rfl

/-- A set that goes on after a change of what is known of happens-before. -/
theorem OrderOnly.done_past {s u : State} {c : Cx} (h : s.Acts c) (hu : OrderOnly s u) {i : Instr} (hi : irreversible i = false)
    (hn : sizeOf' i = 1) : LanesOnly { s with order := (u.done c i).order } c (u.done c i)
      fun _ y => { y.advance 1 with stamp := s.clock, pass := false } := by
  unfold OrderOnly at hu
  generalize u.order = o at hu
  subst hu
  have hd : LanesOnly { s with order := o } c (({ s with order := o } : State).done c i)
      fun _ y => { y.advance 1 with stamp := s.clock, pass := false } := State.done_past (s := { s with order := o }) ⟨h.focus, h.slots, h.distinct⟩ hi hn
  have ho : (({ s with order := o } : State).done c i).order = o := by rw [hd.rest]
  rw [ho]
  exact hd

theorem exec_orderOnly {s u : State} {c : Cx} {i : Instr} (h : s.Acts c) (hi : irreversible i = false) (hn : sizeOf' i = 1)
    (hu : OrderOnly s u) (he : exec i s = .next (u.done c i)) : ∃ t, exec i s = .next t ∧
      LanesOnly { s with order := t.order } c t fun _ y => { y.advance 1 with stamp := s.clock, pass := false } :=
  ⟨_, he, hu.done_past h hi hn⟩

/-- A release fence of lanes whose chains are empty. -/
theorem State.releaseFence_eq {s : State} {c : Cx} {i : Instr} {full : Bool} (h : ∀ l ∈ c.ls, s.chain c.g l = []) :
    s.releaseFence c i full = .next ((c.ls.foldl (fun u l => u.fenceAs c.g l i (u.seenBy c.g l)) s).done c i) := by
  have hj : ∀ l ∈ c.ls, (s.chain c.g l != []) = false := fun l hl => by rw [h l hl]; rfl
  unfold State.releaseFence
  simp only
  rw [State.checked_none fun l hl => by rw [hj l hl]; rfl, State.parking_none fun l hl => by rw [hj l hl]; rfl]
  refine congrArg (fun u : State => Host.Outcome.next (u.done c i)) (List.foldl_ext _ _ s fun u l hl => ?_)
  exact if_neg (Bool.eq_false_iff.1 (hj l hl))

/-! ### ICINV -/

/-- An operation that is made once for the set counts on the flag of each of its lanes. -/
theorem State.countedOnce_issuedIn {i : Instr} {s : State} {c : Cx} (h : s.Acts c) (o : MemOp)
    (hw : ∀ l ∈ c.ls, (c.x.lane l).flagOf i = (c.x.lane c.l0).flagOf i) : IssuedIn i s c c.ls (s.countedOnce c i o) where
  rest := rfl
  others := fun g hg => tabGet_tabMod_ne _ _ hg
  group := by
    refine ⟨_, State.modGroup_get (State.inFocus_group h.focus) _, rfl, fun l hl => foldl_tabMod_other _ _ _ _ hl, fun l hl => ?_⟩
    obtain ⟨y, hy⟩ := Option.isSome_iff_exists.1 (h.slots l hl)
    refine ⟨y.pend, y.ppend, ?_⟩
    refine (foldl_tabMod_self c.ls (fun _ y => y.incFlag ((c.x.lane c.l0).flagOf i)) c.x.lanes l hl h.distinct).trans ?_
    rw [hw l hl, hy]
    cases (c.x.lane c.l0).flagOf i <;> rfl
  ids := Nat.le_succ _
  ops := fun _ hid => tabGet_tabSet_ne _ _ (by omega)
  resid := fun _ _ => rfl
  cores := .of_cores rfl

theorem Gone.issuedOnly {i : Instr} {s t u : State} {c : Cx} (h : Gone i s c t u) (hi : irreversible i = false) (ht : IssuedIn i s c c.ls t)
    (hr : t.resid = s.resid) : IssuedOnly i s c u :=
  ⟨h.frame hi ht, by rw [h.rest, ht.rest, hr]⟩

/-- The operation that an ICINV leaves outstanding. -/
def State.icinvOp (s : State) (c : Cx) (sc : Scope) : MemOp := { icinv := true, reach := s.icinvCores c sc, ctx := c.gr.ctx, grid := c.x.grid }

theorem exec_icinv {sc : Scope} {s : State} {c : Cx} (h : s.Ready (.icinv sc) c) (hw : ∀ l ∈ c.ls, (c.x.lane l).hword = c.y0.hword) :
    ∃ t, exec (.icinv sc) s = .next t ∧ IssuedOnly (.icinv sc) s c t ∧ ∀ l ∈ c.ls, t.icinvOut c.g l = true := by
  have hf : ∀ l ∈ c.ls, (c.x.lane l).flagOf (.icinv sc) = (c.x.lane c.l0).flagOf (.icinv sc) := fun l hl => by
    rw [Lane.flagOf, Lane.flagOf, hw l hl, Cx.y0]
  have ht := State.countedOnce_issuedIn h.toActs (s.icinvOp c sc) hf
  have hg := ht.gone h.toActs
  refine ⟨_, by rw [exec, execIcinv, issue_ready rfl h]; rfl, hg.issuedOnly rfl ht rfl, fun l hl => ?_⟩
  refine List.any_eq_true.2 ⟨(s.nextId, _), mem_of_tabGet (tabGet_tabSet_self s.ops s.nextId _), ?_⟩
  simp only [beq_self_eq_true, Bool.true_and]
  exact List.contains_iff_mem.2 hl

/-! ### CCTL -/

/-- The copies of a line that CCTL leaves: those of the dies go with INV and WBINV, those of bridges and peers stay (R331). -/
def copiesLeft (drop : Bool) (hs : Tab Nat) : Tab Nat := if drop then hs.filter fun h => bridge ≤ h.1 else hs

theorem copiesLeft_idem (drop : Bool) (hs : Tab Nat) : copiesLeft drop (copiesLeft drop hs) = copiesLeft drop hs := by
  cases drop with
  | false => rfl
  | true => exact List.filter_filter.trans (congrArg (List.filter · hs) (funext fun _ => Bool.and_self _))

/-- What a line's lease is after CCTL has written a range back. -/
def leaseLeft (ps : List Piece) (drop : Bool) (e : Nat × Lease) : Option (Nat × Lease) :=
  if inPieces ps e.1 then if copiesLeft drop e.2.holders = [] then none else some (e.1, ⟨copiesLeft drop e.2.holders, []⟩) else some e

theorem State.writeBack_leases (s : State) (ps : List Piece) (drop : Bool) :
    (s.writeBack ps drop).leases = s.leases.filterMap (leaseLeft ps drop) := by
  refine congrArg (List.filterMap · s.leases) (funext fun e => ?_)
  unfold leaseLeft
  cases inPieces ps e.1 <;> rfl

theorem mem_leaseLeft {ps : List Piece} {drop : Bool} {L : Tab Lease} {line : Nat} {x : Lease} :
    (line, x) ∈ L.filterMap (leaseLeft ps drop) ↔
      (inPieces ps line = false ∧ (line, x) ∈ L) ∨
        (inPieces ps line = true ∧ x.wb = [] ∧ x.holders ≠ [] ∧ ∃ y, (line, y) ∈ L ∧ x.holders = copiesLeft drop y.holders) := by
  rw [List.mem_filterMap]
  constructor
  · rintro ⟨⟨k, y⟩, hy, he⟩
    unfold leaseLeft at he
    split at he
    · next hin =>
      split at he
      · exact absurd he (Option.some_ne_none _).symm
      · next hne =>
        obtain ⟨rfl, rfl⟩ := Prod.mk.inj (Option.some.inj he)
        exact .inr ⟨hin, rfl, hne, y, hy, rfl⟩
    · next hout =>
      obtain ⟨rfl, rfl⟩ := Prod.mk.inj (Option.some.inj he)
      exact .inl ⟨Bool.eq_false_iff.2 hout, hy⟩
  · rintro (⟨hout, hx⟩ | ⟨hin, hwb, hne, y, hy, hh⟩)
    · exact ⟨(line, x), hx, by simp [leaseLeft, hout]⟩
    · obtain ⟨hs, wb⟩ := x
      simp only at hwb hne hh
      subst hwb hh
      exact ⟨(line, y), hy, by simp [leaseLeft, hin, hne]⟩

/-- The leases after the ranges of lanes have been written back one after another. -/
theorem mem_leasesLeft {ps : Nat → List Piece} {drop : Bool} {line : Nat} {x : Lease} (ls : List Nat) : ∀ L : Tab Lease,
    (line, x) ∈ ls.foldl (fun L l => L.filterMap (leaseLeft (ps l) drop)) L ↔
      ((¬ ∃ l ∈ ls, inPieces (ps l) line = true) ∧ (line, x) ∈ L) ∨
        ((∃ l ∈ ls, inPieces (ps l) line = true) ∧ x.wb = [] ∧ x.holders ≠ [] ∧
          ∃ y, (line, y) ∈ L ∧ x.holders = copiesLeft drop y.holders) := by
  induction ls with
  | nil => simp
  | cons l ls ih =>
    intro L
    rw [List.foldl_cons, ih]
    cases hin : inPieces (ps l) line with
    | false =>
      have hnamed : (∃ k ∈ l :: ls, inPieces (ps k) line = true) ↔ ∃ k ∈ ls, inPieces (ps k) line = true := by simp [hin]
      simp only [hnamed, mem_leaseLeft, hin, Bool.false_eq_true, true_and, false_and, or_false]
    | true =>
      have hnamed : ∃ k ∈ l :: ls, inPieces (ps k) line = true := ⟨l, List.mem_cons_self, hin⟩
      by_cases hlater : ∃ k ∈ ls, inPieces (ps k) line = true
      · simp only [hlater, hnamed, not_true_eq_false, false_and, false_or, true_and, mem_leaseLeft, hin, Bool.true_eq_false]
        refine and_congr_right fun hwb => and_congr_right fun hne => ⟨?_, ?_⟩
        · rintro ⟨y, ⟨-, -, z, hz, hyz⟩, hxy⟩
          exact ⟨z, hz, by rw [hxy, hyz, copiesLeft_idem]⟩
        · rintro ⟨z, hz, hxz⟩
          exact ⟨x, ⟨hwb, hne, z, hz, hxz⟩, by rw [hxz, copiesLeft_idem]⟩
      · simp only [hlater, hnamed, not_true_eq_false, not_false_eq_true, false_and, false_or, or_false, true_and, mem_leaseLeft, hin,
          Bool.true_eq_false]

theorem State.writeBack_quiet (s : State) (ps : List Piece) (drop : Bool) : Quiet s (s.writeBack ps drop) := ⟨rfl, .of_cores rfl⟩

/-- One lane's part of a CCTL. -/
def State.cctlLane (i : Instr) (c : Cx) (ps : Nat → List Piece) (drop : Bool) (u : State) (l : Nat) : State :=
  (u.writeBack (ps l) drop).counted c i l

/-- What CCTL leaves beside the lanes: the flag operations, and the leases of the lines of its ranges. -/
def CctlOnly (s t : State) : Prop := t = { s with groups := t.groups, ops := t.ops, nextId := t.nextId, leases := t.leases }

theorem State.cctlLane_only (i : Instr) (c : Cx) (ps : Nat → List Piece) (drop : Bool) (u : State) (l : Nat) :
    CctlOnly u (u.cctlLane i c ps drop l) := by
  unfold State.cctlLane State.counted
  split
  · exact rfl
  · exact rfl

theorem CctlOnly.trans {s t u : State} (h : CctlOnly s t) (k : CctlOnly t u) : CctlOnly s u := by
  unfold CctlOnly at h k ⊢
  rw [k, h]

theorem State.cctlLane_leases (i : Instr) (c : Cx) (ps : Nat → List Piece) (drop : Bool) (u : State) (l : Nat) :
    (u.cctlLane i c ps drop l).leases = u.leases.filterMap (leaseLeft (ps l) drop) := by
  rw [← State.writeBack_leases]
  unfold State.cctlLane State.counted
  split
  · exact rfl
  · exact rfl

theorem State.cctlLanes_rest (i : Instr) (c : Cx) (ps : Nat → List Piece) (drop : Bool) (ls : List Nat) (s : State) :
    CctlOnly s (ls.foldl (State.cctlLane i c ps drop) s) ∧
      (ls.foldl (State.cctlLane i c ps drop) s).leases = ls.foldl (fun L l => L.filterMap (leaseLeft (ps l) drop)) s.leases := by
  induction ls generalizing s with
  | nil => exact ⟨rfl, rfl⟩
  | cons l ls ih =>
    obtain ⟨hr, hl⟩ := ih (s.cctlLane i c ps drop l)
    exact ⟨(s.cctlLane_only i c ps drop l).trans hr, by rw [List.foldl_cons, hl, State.cctlLane_leases, List.foldl_cons]⟩

theorem IssuedIn.counted_issues {i : Instr} {s t u : State} {c : Cx} {done : List Nat} (h : IssuedIn i s c done t) (hq : Quiet t u) (l : Nat) :
    Issues i c l t (u.counted c i l) := by
  obtain ⟨x, hx, -⟩ := h.group
  exact hq.issues (State.counted_issues (by rw [hq.groups]; exact hx) i l)

theorem State.readPair_lt (s : State) (x : Group) (l : Nat) (f : VField) : s.readPair x l f < 2 ^ 64 := by
  have hlo := (s.readOpd x l (.v f.toNat)).isLt
  have hhi := (s.readOpd x l (.v (f.toNat + 1))).isLt
  rw [State.readPair, pairNat]
  omega

/-- What a CCTL whose ranges translate leaves. -/
theorem State.cctl_done {s : State} {c : Cx} {i : Instr} (h : s.Acts c) (hi : irreversible i = false) (ps : Nat → List Piece) (drop : Bool) :
    let t := (c.ls.foldl (State.cctlLane i c ps drop) s).done c i
    IssueFrame i s c t ∧ CctlOnly s t ∧ t.leases = c.ls.foldl (fun L l => L.filterMap (leaseLeft (ps l) drop)) s.leases := by
  intro t
  obtain ⟨hrest, hleases⟩ := State.cctlLanes_rest i c ps drop c.ls s
  obtain ⟨ht, -⟩ := IssuedIn.all (i := i) (f := State.cctlLane i c ps drop) (Q := fun _ _ => True) h (Quiet.refl s)
    (fun _ u l hu _ _ => ⟨hu.counted_issues (u.writeBack_quiet (ps l) drop) l, trivial⟩) fun _ _ _ _ _ _ _ => trivial
  have hd : t = (c.ls.foldl (State.cctlLane i c ps drop) s).advance c (sizeOf' i) := by
    show State.done _ c i = _
    rw [State.done, hi]
    rfl
  have hgone := ht.gone h
  rw [← hd] at hgone
  refine ⟨hgone.frame hi ht, hrest.trans ?_, by rw [hgone.rest, hleases]⟩
  unfold CctlOnly
  rw [hgone.rest]

theorem State.cctl_runs {s : State} {c : Cx} {i : Instr} (h : s.Acts c) (hi : irreversible i = false) {a : VField} {b : BOp} {drop : Bool}
    {ps : Nat → List Piece} (hps : ∀ l ∈ c.ls, s.cctlRun c.who (s.vpair c l a).toNat (s.vb c l b).toNat = .ok (ps l)) :
    ∃ t, s.cctl c i a b drop = .next t ∧ PerformedOnly i s c t ∧ t.mem = s.mem ∧ t.teams = s.teams ∧ t.stored = s.stored ∧
      t.hostLines = s.hostLines ∧ ∀ line x, (line, x) ∈ t.leases ↔
        ((¬ ∃ l ∈ c.ls, inPieces (ps l) line = true) ∧ (line, x) ∈ s.leases) ∨
          ((∃ l ∈ c.ls, inPieces (ps l) line = true) ∧ x.wb = [] ∧ x.holders ≠ [] ∧
            ∃ y, (line, y) ∈ s.leases ∧ x.holders = copiesLeft drop y.holders) := by
  have hrun : ∀ l ∈ c.ls, s.cctlRun c.who (s.readPair c.x l a) (s.readOpd c.x l (b.v.headD (.imm 0))).toNat = .ok (ps l) := fun l hl => by
    rw [State.readOpd_b h, ← hps l hl, State.vpair, h.group, BitVec.toNat_ofNat, Nat.mod_eq_of_lt (s.readPair_lt c.x l a)]
  obtain ⟨hframe, hrest, hleases⟩ := State.cctl_done h hi ps drop
  refine ⟨_, ?_, ⟨hframe, by rw [hrest]⟩, by rw [hrest], by rw [hrest], by rw [hrest], by rw [hrest], fun line x => ?_⟩
  · unfold State.cctl
    simp only
    rw [State.checked_none fun l hl => by rw [hrun l hl]; rfl]
    refine congrArg (fun u : State => Host.Outcome.next (u.done c i)) (List.foldl_ext _ _ s fun u l hl => ?_)
    rw [hrun l hl]
    rfl
  · rw [hleases]
    exact mem_leasesLeft c.ls s.leases

/-- Settles O26: a fence with nothing outstanding changes the order alone, ICINV is one operation of the set, and CCTL works on leases. -/
theorem fencesAndCacheControl : Obligations.FencesAndCacheControl := by
  unfold Obligations.FencesAndCacheControl
  intro sc a b s c ps
  refine ⟨fun h hr => ?acq, fun h hc => ?rel, fun h hcr => ?full, fun h => ?async, exec_icinv, fun _ h hps => ?wb, fun _ h hps => ?inv,
    fun _ h hps => ?wbinv⟩
  case acq =>
    refine exec_orderOnly h.toActs rfl rfl (OrderOnly.foldl (fun u l => u.fenceAcquires_orderOnly c.g l sc) c.ls s) ?_
    rw [exec, execFenceAcq, issue_ready rfl h, State.parking_none hr]
  case rel =>
    refine exec_orderOnly h.toActs rfl rfl (OrderOnly.foldl (fun u l => u.fenceAs_orderOnly c.g l (.fenceRel sc) (u.seenBy c.g l)) c.ls s) ?_
    rw [exec, execFenceRel, issue_ready rfl h, State.releaseFence_eq hc]
  case full =>
    refine exec_orderOnly h.toActs rfl rfl (OrderOnly.foldl (fun u l => u.fenceAs_orderOnly c.g l (.fenceFull sc) (u.seenBy c.g l)) c.ls s) ?_
    rw [exec, execFenceFull, issue_ready rfl h, State.parking_none fun l hl => (hcr l hl).2, State.releaseFence_eq fun l hl => (hcr l hl).1]
  case async =>
    refine exec_orderOnly h.toActs rfl rfl
      (OrderOnly.foldl (fun u l => u.modOrd_orderOnly (u.thread c.g l) fun o => { o with async := some u.clock }) c.ls s) ?_
    rw [exec, execFenceAsync, issue_ready rfl h]
  case wb => rw [exec, execCctlWb, issue_ready rfl h]; exact State.cctl_runs h.toActs rfl hps
  case inv => rw [exec, execCctlInv, issue_ready rfl h]; exact State.cctl_runs h.toActs rfl hps
  case wbinv => rw [exec, execCctlWbinv, issue_ready rfl h]; exact State.cctl_runs h.toActs rfl hps

end Sys2Proof.Machine

/-!
PROOFS. What joins the chain of its thread (O24).
-/

namespace Sys2Proof.Machine

/-! ### Checks and operands -/

theorem State.place_of_xlate {s : State} {w : Who} {acc : Acc} {va n pa : Nat} (ha : va % n = 0) (hx : s.xlate w acc va n = .ok pa) :
    s.place w acc va n = .ok (.phys pa) := by
  rw [State.place, if_neg (by simp [ha]), hx]

theorem State.vaddr_eq {s : State} {c : Cx} (h : s.Acts c) (l : Nat) (a : VField) (b : BOp) :
    s.vaddr c l a b = (s.vpair c l a + (s.vb c l b).signExtend 64).toNat := by
  rw [State.vaddr, State.readOpd_b h, State.vpair, h.group]

theorem State.readPair_eq {s : State} {c : Cx} (h : s.Acts c) (l : Nat) (a : VField) : s.readPair c.x l a = (s.vpair c l a).toNat := by
  rw [State.vpair, h.group, BitVec.toNat_ofNat, Nat.mod_eq_of_lt (s.readPair_lt c.x l a)]

/-- A lane with room may capture (R114). -/
theorem State.budgetCheck_of_room {s : State} {c : Cx} {l : Nat} (h : s.room c l = true) (captures : Bool) :
    s.budgetCheck c l captures = none := by
  rw [State.budgetCheck, h, Bool.or_true, Bool.true_or]
  rfl

theorem State.noRoom_of_room {s : State} {c : Cx} {l : Nat} (h : s.room c l = true) (captures : Bool) : s.noRoom c l captures = false := by
  rw [State.noRoom, h, Bool.not_true, Bool.and_false]

/-- What a captured operand is depends on the group and on the undefined values of the step alone. -/
theorem State.captureOpd_congr {s t : State} (h : t.fresh = s.fresh) (x : Group) (l : Nat) : t.captureOpd x l = s.captureOpd x l := by
  have hfree : t.freeWord = s.freeWord := funext fun k => by rw [State.freeWord, State.freeWord, h]
  have hread : t.readReg x l = s.readReg x l := funext fun r => by cases r <;> simp only [State.readReg, hfree]
  funext o
  simp only [State.captureOpd, State.readOpd, hread]

theorem State.done_of_reversible (s : State) (c : Cx) {i : Instr} (hi : irreversible i = false) : s.done c i = s.advance c (sizeOf' i) := by
  rw [State.done, hi]
  rfl

/-! ### A set that captures -/

/-- The entry made for `r` as it stands in the chain: an entry of the lane `l` of `c`, of the instruction `i`. -/
structure Resid.MadeFor (e : Resid) (i : Instr) (c : Cx) (l : Nat) (dsts : List PReg) (r : Resid) : Prop where
  g : e.g = c.g
  lane : e.lane = l
  ins : e.ins = i
  flag : e.flag = (c.x.lane l).flagOf i
  kind : e.kind = r.kind
  srcs : e.srcs = r.srcs
  dsts : e.dsts.map (·.1) = dsts

theorem State.entryOf_madeFor (t : State) (c : Cx) (i : Instr) (l : Nat) (dsts : List PReg) (r : Resid) :
    (t.entryOf c i l dsts r).MadeFor i c l dsts r where
  g := rfl
  lane := rfl
  ins := rfl
  flag := rfl
  kind := rfl
  srcs := rfl
  dsts := List.map_fst_zip (by simp [upto])

/-- One lane of a set that captures, after what its access does before, as to the TLB. -/
def State.captureEach (c : Cx) (i : Instr) (pre : State → Nat → State) (ds : Nat → List PReg) (r : State → Nat → Resid) (u : State) (l : Nat) :
    State :=
  (pre u l).captureMem c i l [l] (ds l) (r (pre u l) l)

/-- Every lane of a set captures. -/
theorem IssuedIn.captures {i : Instr} {s : State} {c : Cx} {pre : State → Nat → State} {r : State → Nat → Resid} {ds : Nat → List PReg}
    (h : s.Acts c) (hpre : ∀ u l, Quiet u (pre u l)) (hds : ∀ l, Vectors (ds l)) (hr : ∀ u, u.fresh = s.fresh → r u = r s) :
    IssuedIn i s c c.ls (c.ls.foldl (State.captureEach c i pre ds r) s) ∧ ∀ l ∈ c.ls,
      HasEntry s.nextId c l (fun e _ => e.MadeFor i c l (ds l) (r s l)) (c.ls.foldl (State.captureEach c i pre ds r) s) := by
  refine IssuedIn.all h (Quiet.refl s) (fun done t l ht hl _ => ?_) fun _ _ _ _ hne hu he => he.issues hu hne
  have hq := hpre t l
  obtain ⟨x, hx, -⟩ := ht.group
  rw [← hq.groups] at hx
  have hid : s.nextId ≤ (pre t l).nextId := by rw [hq.nextId]; exact ht.ids
  have hfresh : (pre t l).fresh = s.fresh := by rw [hq.rest]; exact ht.fresh
  rw [State.captureEach, hr _ hfresh]
  exact ⟨hq.issues (State.captureMem_issues hx i l (hds l) _), State.captureMem_hasEntry hx i l (hds l) hid (State.entryOf_madeFor ..)⟩

/-- What O24 says of a set whose lanes join their chains: each lane's entry is there, and no byte has changed. -/
theorem IssuedIn.joined {i : Instr} {s u : State} {c : Cx} {r : Nat → Resid} {ds : Nat → List PReg} {p : Nat → Resid → Prop} (h : s.Acts c)
    (hu : IssuedIn i s c c.ls u) (hent : ∀ l ∈ c.ls, HasEntry s.nextId c l (fun e _ => e.MadeFor i c l (ds l) (r l)) u)
    (he : exec i s = .next (u.advance c (sizeOf' i))) (hp : ∀ l ∈ c.ls, ∀ e : Resid, e.MadeFor i c l (ds l) (r l) → p l e) :
    ∃ t, exec i s = .next t ∧ Passed i c t ∧ t.mem = s.mem ∧ t.teams = s.teams ∧
      (∀ id, id < s.nextId → tabGet t.resid id = tabGet s.resid id) ∧
        ∀ l ∈ c.ls, ∃ id r, s.nextId ≤ id ∧ tabGet t.resid id = some r ∧ r.g = c.g ∧ r.lane = l ∧ r.ins = i ∧
          r.flag = (c.x.lane l).flagOf i ∧ p l r := by
  have hg := hu.gone h
  refine ⟨_, he, hg.passed, by rw [hg.rest]; exact hu.mem, by rw [hg.rest]; exact hu.teams, by rw [hg.rest]; exact hu.resid, fun l hl => ?_⟩
  obtain ⟨id, e, hid, -, hget, hm⟩ := hg.hasEntry hl (hent l hl)
  exact ⟨id, e, hid, hget, hm.g, hm.lane, hm.ins, hm.flag, hp l hl e hm⟩

/-! ### Stores, atomics, fences and loads that capture in every lane -/

/-- The TLB fill of a lane's access to memory. -/
def State.fillAt (c : Cx) (acc : Acc) (va pa : Nat → Nat) (u : State) (l : Nat) : State := u.fillFor c acc (va l) (.phys (pa l))

theorem State.fillAt_quiet (c : Cx) (acc : Acc) (va pa : Nat → Nat) (u : State) (l : Nat) : Quiet u (u.fillAt c acc va pa l) := u.fillFor_quiet ..

/-- The entry of a store or atomic, its data captured in the state `u`. -/
def dataEntry (c : Cx) (i : Instr) (kind : Nat → ResKind) (u : State) (l : Nat) : Resid :=
  { g := c.g, lane := l, ins := i, kind := kind l, srcs := (dataOf i).map (u.captureOpd c.x l) }

/-- The entry of an instruction without data: a fence, or a load. -/
def plainEntry (c : Cx) (i : Instr) (kind : Nat → ResKind) (l : Nat) : Resid := { g := c.g, lane := l, ins := i, kind := kind l }

theorem dataEntry_congr (c : Cx) (i : Instr) (kind : Nat → ResKind) (s u : State) (h : u.fresh = s.fresh) :
    dataEntry c i kind u = dataEntry c i kind s := by
  funext l
  rw [dataEntry, dataEntry, State.captureOpd_congr h]

theorem State.stores_join {s : State} {c : Cx} {i : Instr} {n : Nat} {rel : Bool} {va pa : Nat → Nat} {loc : Nat → Except (Cause × Nat) Loc}
    (hi : irreversible i = false) (hroom : ∀ l ∈ c.ls, s.room c l = true) (hloc : ∀ l ∈ c.ls, loc l = .ok (.phys (pa l)))
    (hj : ∀ l ∈ c.ls, s.joins c i l = true) :
    s.stores c i n rel va loc = .next ((c.ls.foldl (State.captureEach c i (State.fillAt c .store va pa) (fun _ => [])
      (dataEntry c i fun l => .store (.phys (pa l)) n (va l) rel)) s).advance c (sizeOf' i)) := by
  simp only [State.stores]
  rw [State.checked_none fun l hl => by rw [hloc l hl, State.budgetCheck_of_room (hroom l hl)]; rfl,
    State.parking_none fun l hl => State.noRoom_of_room (hroom l hl) _, State.done_of_reversible _ _ hi]
  refine congrArg (fun u : State => Host.Outcome.next (u.advance c (sizeOf' i))) (List.foldl_ext _ _ s fun u l hl => ?_)
  simp only [hloc l hl, hj l hl, State.storeLane, if_true]
  rfl

/-- No lane is marked. -/
theorem IssuedIn.irrevIn_nil {i : Instr} {s t : State} {c : Cx} {done : List Nat} (h : IssuedIn i s c done t) :
    IssuedIn i s c done (t.irrevIn c.g []) := by
  obtain ⟨x, hx, hlanes⟩ := h.group
  exact { h with
    rest := by
      have hr : t.irrevIn c.g [] = { t with groups := (t.irrevIn c.g []).groups } := rfl
      rw [hr, h.rest]
    others := fun g hg => (tabGet_tabMod_ne _ _ hg).trans (h.others g hg)
    group := ⟨x, State.modGroup_get hx _, hlanes⟩ }

theorem HasEntry.irrevIn_nil {b : Nat} {c : Cx} {l : Nat} {P : Resid → Prop} {t : State} (h : HasEntry b c l (fun r _ => P r) t) :
    HasEntry b c l (fun r _ => P r) (t.irrevIn c.g []) := h

/-- Atomics that capture in every lane. -/
theorem State.atomics_join {s : State} {c : Cx} {i : Instr} {a : VField} {pa : Nat → Nat} (hroom : ∀ l ∈ c.ls, s.room c l = true)
    (hloc : ∀ l ∈ c.ls, s.place c.who .atomic (s.readPair c.x l a) (atomBytes i) = .ok (.phys (pa l)))
    (hok : ∀ l ∈ c.ls, s.hostAtomicOk i (.phys (pa l)) = true) (hdet : detAtomic i c.gr.pkt.det = false)
    (hj : ∀ l ∈ c.ls, s.joins c i l = true) :
    s.atomics c i a = .next (((c.ls.foldl (State.captureEach c i (State.fillAt c .atomic (s.readPair c.x · a) pa)
      (fun l => (operandsOf i).2.filterMap (·.reg (c.x.lane l)))
      (dataEntry c i fun l => .atomic (.phys (pa l)) (s.readPair c.x l a))) s).irrevIn c.g []).advance c (sizeOf' i)) := by
  have hnone : (c.ls.filter fun l => !s.joins c i l) = [] := List.filter_eq_nil_iff.2 fun l hl => by rw [hj l hl]; exact Bool.false_ne_true
  simp only [State.atomics]
  rw [State.parking_none fun l hl => by rw [hj l hl]; rfl,
    State.checked_none fun l hl => by rw [hloc l hl, hdet, State.budgetCheck_of_room (hroom l hl)]; simp only [hok l hl]; rfl,
    State.parking_none fun l hl => State.noRoom_of_room (hroom l hl) _, hnone]
  refine congrArg (fun u : State => Host.Outcome.next ((u.irrevIn c.g []).advance c (sizeOf' i))) (List.foldl_ext _ _ s fun u l hl => ?_)
  simp only [hloc l hl, hj l hl, State.atomLane, if_true]
  rfl

/-- A release fence behind the chain of each lane. -/
theorem State.releaseFence_join {s : State} {c : Cx} {i : Instr} {full : Bool} (hi : irreversible i = false)
    (hroom : ∀ l ∈ c.ls, s.room c l = true) (hc : ∀ l ∈ c.ls, s.chain c.g l ≠ []) :
    s.releaseFence c i full = .next ((c.ls.foldl (State.captureEach c i (fun u _ => u) (fun _ => [])
      (fun _ => plainEntry c i fun _ => .fence full)) s).advance c (sizeOf' i)) := by
  simp only [State.releaseFence]
  rw [State.checked_none fun l hl => State.budgetCheck_of_room (hroom l hl) _,
    State.parking_none fun l hl => State.noRoom_of_room (hroom l hl) _, State.done_of_reversible _ _ hi]
  refine congrArg (fun u : State => Host.Outcome.next (u.advance c (sizeOf' i))) (List.foldl_ext _ _ s fun u l hl => ?_)
  exact if_pos (bne_iff_ne.2 (hc l hl))

/-- A load captured behind what it waits for. -/
def State.waitingLoad (s : State) (c : Cx) (z : Size) (va pa : Nat → Nat) (l : Nat) : ResKind :=
  .load (s.waitsFor c.g l (.phys (pa l)) z.bytes) (.phys (pa l)) z.bytes (va l)

/-- Loads each of which waits for an entry. -/
theorem State.loads_wait {s : State} {c : Cx} {i : Instr} {z : Size} {d : VField} {va pa : Nat → Nat} {loc : Nat → Except (Cause × Nat) Loc}
    (hi : irreversible i = false) (hroom : ∀ l ∈ c.ls, s.room c l = true) (hloc : ∀ l ∈ c.ls, loc l = .ok (.phys (pa l)))
    (hw : ∀ l ∈ c.ls, s.waitsFor c.g l (.phys (pa l)) z.bytes ≠ []) :
    s.loads c i z d va loc = .next ((c.ls.foldl (State.captureEach c i (State.fillAt c .load va pa)
      (fun l => (z.data d).filterMap (·.reg (c.x.lane l)))
      (fun _ => plainEntry c i (s.waitingLoad c z va pa))) s).advance c (sizeOf' i)) := by
  simp only [State.loads]
  rw [State.parking_none fun l hl => ?_, State.checked_none fun l hl => by rw [hloc l hl, State.budgetCheck_of_room (hroom l hl)]; rfl,
    State.parking_none fun l hl => State.noRoom_of_room (hroom l hl) _, State.done_of_reversible _ _ hi]
  · refine congrArg (fun u : State => Host.Outcome.next (u.advance c (sizeOf' i))) (List.foldl_ext _ _ s fun u l hl => ?_)
    simp only [hloc l hl, State.loadLane, bne_iff_ne, ne_eq, hw l hl, not_false_eq_true, if_true]
    rfl
  · rw [hloc l hl]
    simp only [beq_eq_false_iff_ne.2 (hw l hl), Bool.false_and]

/-- What a load waits for: the youngest entry of its bytes, and the captured loads of them. -/
theorem State.waitsFor_of_behind {s : State} {g l n e : Nat} {loc : Loc} (h : s.behind g l loc n = some e) :
    s.waitsFor g l loc n = e :: ((s.heldLoads g l).filter fun q => q.2.reads loc n).map (·.1) := by
  rw [State.waitsFor, h]

theorem State.mem_held {s : State} {g l n k : Nat} {loc : Loc} :
    k ∈ ((s.heldLoads g l).filter fun q => q.2.reads loc n).map (·.1) ↔ ∃ q, (k, q) ∈ s.heldLoads g l ∧ q.reads loc n = true := by
  simp only [List.mem_map, List.mem_filter, Prod.exists, exists_and_right, exists_eq_right]

/-! ### Destinations -/

theorem vectors_data (z : Size) (d : VField) (y : Lane) : Vectors ((z.data d).filterMap (·.reg y)) :=
  vectors_of_fields (fun _ ho => by obtain ⟨k, -, rfl⟩ := List.mem_map.1 ho; exact ⟨_, rfl⟩) y

theorem fields_v1 (f : VField) : ∀ o ∈ v1 f, ∃ n, o = .v n := by simp [v1]
theorem fields_v2 (f : VField) : ∀ o ∈ v2 f, ∃ n, o = .v n := by simp [v2]

theorem fields_atom {op : AtomOp} {nr wide : Bool} {o : Ord} {sc : Scope} {d a x : VField} :
    ∀ e ∈ (operandsOf (.atom op nr wide o sc d a x)).2, ∃ n, e = .v n := by
  cases nr with
  | true => exact fun _ he => absurd he List.not_mem_nil
  | false =>
    cases wide with
    | true => exact fields_v2 d
    | false => exact fields_v1 d

theorem fields_cas {wide : Bool} {o : Ord} {sc : Scope} {d a x : VField} : ∀ e ∈ (operandsOf (.cas wide o sc d a x)).2, ∃ n, e = .v n := by
  cases wide with
  | true => exact fields_v2 d
  | false => exact fields_v1 d

/-! ### The instructions -/

/-- FADD at the scope of a thread or group is allowed under DET (R316). -/
theorem detAtomic_of_scope {op : AtomOp} {nr wide : Bool} {o : Ord} {sc : Scope} {d a x : VField}
    (h : op = .fadd → sc = .thread ∨ sc = .group) : detAtomic (.atom op nr wide o sc d a x) true = false := by
  cases op with
  | fadd =>
    rcases h rfl with rfl | rfl
    · rfl
    · rfl
  | _ => rfl

/-- An ATOM or CAS each of whose lanes joins its chain. -/
theorem State.atomics_joined {s : State} {c : Cx} {i : Instr} {a : VField} {pa : Nat → Nat} {m : Nat} (h : s.Acts c) (hm : atomBytes i = m)
    (he : exec i s = s.atomics c i a) (hv : ∀ e ∈ (operandsOf i).2, ∃ n, e = .v n) (halu : Instr.alu i = none)
    (hdet : detAtomic i c.gr.pkt.det = false)
    (hp : ∀ l ∈ c.ls, s.joins c i l = true ∧ s.room c l = true ∧ (s.vpair c l a).toNat % m = 0 ∧
      s.xlate c.who .atomic (s.vpair c l a).toNat m = .ok (pa l) ∧ s.hostAtomicOk i (.phys (pa l)) = true) :
    ∃ t, exec i s = .next t ∧ Passed i c t ∧ t.mem = s.mem ∧ t.teams = s.teams ∧
      (∀ id, id < s.nextId → tabGet t.resid id = tabGet s.resid id) ∧
        ∀ l ∈ c.ls, ∃ id r, s.nextId ≤ id ∧ tabGet t.resid id = some r ∧ r.g = c.g ∧ r.lane = l ∧ r.ins = i ∧
          r.flag = (c.x.lane l).flagOf i ∧ r.kind = .atomic (.phys (pa l)) (s.vpair c l a).toNat ∧
            r.srcs = (dataOf i).map (s.captureOpd c.x l) ∧ r.dsts.map (·.1) = dstRegs i c l := by
  obtain ⟨ht, hent⟩ := IssuedIn.captures (i := i) h (State.fillAt_quiet c .atomic (s.readPair c.x · a) pa)
    (fun l => vectors_of_fields hv (c.x.lane l)) (dataEntry_congr c i (fun l => .atomic (.phys (pa l)) (s.readPair c.x l a)) s)
  have hloc : ∀ l ∈ c.ls, s.place c.who .atomic (s.readPair c.x l a) (atomBytes i) = .ok (.phys (pa l)) := fun l hl => by
    obtain ⟨-, -, hal, hx, -⟩ := hp l hl
    rw [State.readPair_eq h, hm]
    exact State.place_of_xlate hal hx
  refine ht.irrevIn_nil.joined h (fun l hl => (hent l hl).irrevIn_nil)
    (he.trans (State.atomics_join (fun l hl => (hp l hl).2.1) hloc (fun l hl => (hp l hl).2.2.2.2) hdet fun l hl => (hp l hl).1))
    fun l _ e hmade => ⟨?_, hmade.srcs, ?_⟩
  · rw [hmade.kind, dataEntry, State.readPair_eq h]
  · rw [hmade.dsts, dstRegs, regsOf_of_issue halu]

/-- Settles O24: in each clause every lane captures its entry, and the set goes on. -/
theorem storeChain : Obligations.StoreChain := by
  unfold Obligations.StoreChain
  intro rel acq nr wide op o z d a x b sc s c pa
  refine ⟨fun _ h hp hj => ?st, fun h hc => ?rel, fun h hc => ?full, fun _ h hp hb => ?ld, fun hdet _ h hp => ?atom, fun _ h hp => ?cas⟩
  case st =>
    have hloc : ∀ l ∈ c.ls, s.place c.who .store (s.vaddr c l a b) z.bytes = .ok (.phys (pa l)) := fun l hl => by
      obtain ⟨-, hal, hx⟩ := hp l hl
      rw [State.vaddr_eq h.toActs]
      exact State.place_of_xlate hal hx
    obtain ⟨ht, hent⟩ := IssuedIn.captures (i := .st rel z d a b) h.toActs (State.fillAt_quiet c .store (s.vaddr c · a b) pa)
      (fun _ => Vectors.nil) (dataEntry_congr c (.st rel z d a b) (fun l => .store (.phys (pa l)) z.bytes (s.vaddr c l a b) rel) s)
    refine ht.joined h.toActs hent ?_ fun l _ e hm => ⟨?_, hm.srcs⟩
    · rw [exec, execSt, issue_ready rfl h]
      exact State.stores_join rfl (fun l hl => (hp l hl).1) hloc hj
    · rw [hm.kind, dataEntry, State.vaddr_eq h.toActs]
  case rel =>
    obtain ⟨ht, hent⟩ := IssuedIn.captures (i := .fenceRel sc) (r := fun _ => plainEntry c (.fenceRel sc) fun _ => .fence false) h.toActs
      (fun u _ => Quiet.refl u) (fun _ => Vectors.nil) fun _ _ => rfl
    refine ht.joined h.toActs hent ?_ fun l _ e hm => hm.kind
    rw [exec, execFenceRel, issue_ready rfl h]
    exact State.releaseFence_join rfl (fun l hl => (hc l hl).1) fun l hl => (hc l hl).2
  case full =>
    obtain ⟨ht, hent⟩ := IssuedIn.captures (i := .fenceFull sc) (r := fun _ => plainEntry c (.fenceFull sc) fun _ => .fence true) h.toActs
      (fun u _ => Quiet.refl u) (fun _ => Vectors.nil) fun _ _ => rfl
    refine ht.joined h.toActs hent ?_ fun l _ e hm => hm.kind
    rw [exec, execFenceFull, issue_ready rfl h, State.parking_none fun l hl => (hc l hl).2.2]
    exact State.releaseFence_join rfl (fun l hl => (hc l hl).1) fun l hl => (hc l hl).2.1
  case ld =>
    have hloc : ∀ l ∈ c.ls, s.place c.who .load (s.vaddr c l a b) z.bytes = .ok (.phys (pa l)) := fun l hl => by
      obtain ⟨-, hal, hx⟩ := hp l hl
      rw [State.vaddr_eq h.toActs]
      exact State.place_of_xlate hal hx
    obtain ⟨ht, hent⟩ := IssuedIn.captures (i := .ld acq z d a b)
      (r := fun _ => plainEntry c (.ld acq z d a b) (s.waitingLoad c z (s.vaddr c · a b) pa)) h.toActs
      (State.fillAt_quiet c .load (s.vaddr c · a b) pa) (fun l => vectors_data z d (c.x.lane l)) fun _ _ => rfl
    refine ht.joined h.toActs hent ?_ fun l hl e hm => ⟨hm.dsts, ?_⟩
    · rw [exec, execLd, issue_ready rfl h]
      refine State.loads_wait rfl (fun l hl => (hp l hl).1) hloc fun l hl => ?_
      obtain ⟨k, hk⟩ := Option.ne_none_iff_exists'.1 (hb l hl)
      rw [State.waitsFor_of_behind hk]
      exact List.cons_ne_nil _ _
    · obtain ⟨k, hk⟩ := Option.ne_none_iff_exists'.1 (hb l hl)
      exact ⟨k, _, hk, by rw [hm.kind, plainEntry, State.waitingLoad, State.waitsFor_of_behind hk, State.vaddr_eq h.toActs], fun _ => State.mem_held⟩
  case atom =>
    refine State.atomics_joined (m := if wide then 8 else 4) h.toActs (by cases wide <;> rfl) (by rw [exec, execAtom, issue_ready rfl h])
      fields_atom rfl ?_ hp
    cases hd : c.gr.pkt.det with
    | false => rfl
    | true => exact detAtomic_of_scope fun hop => hdet hd hop
  case cas =>
    exact State.atomics_joined (m := if wide then 8 else 4) h.toActs (by cases wide <;> rfl) (by rw [exec, execCas, issue_ready rfl h])
      fields_cas rfl (Bool.and_false _) hp

end Sys2Proof.Machine

/-!
SUPPORT. The fetch unit: its reads of memory, and the lanes that read at once or behind their chains.
-/

namespace Sys2Proof.Machine

/-! ### What the reads leave -/

theorem State.fillPieces_quiet (s : State) (w : Who) (acc : Acc) (ps : List Piece) : Quiet s (s.fillPieces w acc ps) :=
  Quiet.foldl (fun t p => by split; exacts [t.fillTlb_quiet .., .refl t]) ps s

theorem State.touchLoc_quiet (s : State) (agent : Nat) (loc : Loc) (n : Nat) : Quiet s (s.touchLoc agent loc n) := by
  cases loc with
  | phys pa => exact s.touchRead_quiet agent pa n
  | spad => exact .refl s

theorem State.touchPieces_quiet (s : State) (agent : Nat) (ps : List Piece) : Quiet s (s.touchPieces agent ps) :=
  Quiet.foldl (f := fun t (p : Piece) => t.touchLoc agent p.loc p.len) (fun t p => t.touchLoc_quiet agent p.loc p.len) ps s

theorem State.afterReads_quiet (s : State) (w : Who) (runs : List (Nat × Nat)) : Quiet s (s.afterReads w runs) :=
  Quiet.foldl (fun t r => by
    split
    · exact .refl t
    · exact (t.fillPieces_quiet ..).trans (State.touchPieces_quiet ..)) runs.eraseDups s

theorem State.regionReads_quiet (s : State) (c : Cx) (l : Nat) (runs : List (Nat × Nat)) : Quiet s (s.regionReads c l runs) := ⟨rfl, .of_cores rfl⟩

/-! ### Bytes read -/

theorem drop_memRead (m : Tab Byte) (pa n k : Nat) : (memRead m pa n).drop k = memRead m (pa + k) (n - k) := by
  induction k generalizing pa n with
  | zero => rfl
  | succ k ih =>
    cases n with
    | zero => rw [Nat.zero_sub]; rfl
    | succ n => rw [memRead, List.drop_succ_cons, ih, Nat.add_sub_add_right, Nat.add_right_comm, Nat.add_assoc]

theorem take_memRead (m : Tab Byte) {n k : Nat} (h : k ≤ n) (pa : Nat) : (memRead m pa n).take k = memRead m pa k := by
  induction k generalizing pa n with
  | zero => rfl
  | succ k ih =>
    cases n with
    | zero => omega
    | succ n => rw [memRead, List.take_succ_cons, ih (by omega), memRead]

/-- A field of a record in memory. -/
theorem fld_memRead (m : Tab Byte) (pa : Nat) {len ofs n : Nat} (h : ofs + n ≤ len) : fld (memRead m pa len) ofs n = memNat m (pa + ofs) n := by
  rw [fld, memNat, drop_memRead, take_memRead m (by omega)]

/-- A run within one page is one piece. -/
theorem State.xlateAll_one {s : State} {w : Who} {acc : Acc} {va n pa : Nat} (hn : 0 < n) (hfit : n ≤ 4096 - va % 4096)
    (hx : s.xlate w acc va n = .ok pa) : s.xlateAll w acc va n = .ok [⟨va, .phys pa, n⟩] := by
  rw [State.xlateAll, State.xlateRun, if_neg (by omega)]
  simp only [Nat.min_eq_left hfit, hx, Nat.sub_self]
  rw [State.xlateRun, if_pos rfl]
  rfl

/-- A read through the fetch cache within one page, of bytes that were stored in time (R170). -/
theorem State.fetchBytes_one {s : State} {f : FetchCx} {va n pa : Nat} (hva : va < 2 ^ 64) (hn : 0 < n) (hfit : n ≤ 4096 - va % 4096)
    (hx : s.xlate f.w .load va n = .ok pa) (hold : ∀ k < n, s.storedAt (pa + k) ≤ f.start) :
    (s.fetchBytes f va n).gives (memRead s.mem pa n) := by
  have hfresh : (upto n).all (fun k => decide (s.storedAt (pa + k) ≤ f.start)) = true :=
    List.all_eq_true.2 fun k hk => decide_eq_true (hold k (List.mem_range.1 hk))
  simp only [State.fetchBytes, Nat.mod_eq_of_lt hva, State.xlateAll_one hn hfit hx, List.all_cons, hfresh, List.all_nil, Bool.and_true, if_true,
    List.flatMap_cons, List.flatMap_nil, List.append_nil]
  exact ⟨rfl, rfl⟩

theorem readless_gives {α : Type} (x : α) : (readless (some x)).gives x := ⟨rfl, rfl⟩

theorem andThen_gives {α β : Type} {r : Reads α} {k : α → Reads β} {x : α} {y : β} (h : r.gives x) (hk : (k x).gives y) :
    (andThen r k).gives y := by
  obtain ⟨hf, hv⟩ := h
  obtain ⟨hf', hv'⟩ := hk
  simp only [andThen, hv, Reads.gives, hf, hf', hv', and_true]
  rfl

/-! ### Accesses and entries of a lane -/

/-- Destinations tagged and the flag counted: each is pending under its tag. -/
theorem tagged_pending {x : Group} {l : Nat} (h : (tabGet x.lanes l).isSome = true) {dsts : List PReg} (hd : dsts.Nodup) (t : Nat)
    (f : Option Nat) : ∀ d ∈ dsts.zip ((upto dsts.length).map (t + ·)), ((tagAll x l dsts t).incFlags [l] f).pending l d.1 = some d.2 :=
  fun d hm => (Group.incFlags_pending (((tagAll_markedOnly x l dsts t).isSome l).trans h) f d.1).trans (tagAll_pending h hd d hm)

/-- What `Launched` says of an access. -/
structure MemOp.LaunchedFor (o : MemOp) (i : Instr) (c : Cx) (l : Nat) (dsts : List PReg) (vals : List Word)
    (pending : PReg → Option Nat) : Prop where
  g : o.g = c.g
  uid : o.uid = c.x.uid
  lane : o.lane = l
  lanes : o.lanes = [l]
  flag : o.flag = (c.x.lane l).flagOf i
  dsts : o.dsts.map (·.1) = dsts
  vals : o.vals = vals
  remote : o.remote = none
  lost : o.lost = false
  awaits : o.awaits = none
  owed : ∀ d ∈ o.dsts, pending d.1 = some d.2

theorem HasAccess.launched {i : Instr} {s t : State} {c : Cx} {l : Nat} {dsts : List PReg} {vals : List Word}
    (h : HasAccess s.nextId c l (fun o p => o.LaunchedFor i c l dsts vals p) t) : Launched i s c t l [l] dsts vals := by
  obtain ⟨id, o, hid, -, hget, ho⟩ := h
  exact ⟨id, o, hid, hget, ho.g, ho.uid, ho.lane, ho.lanes, ho.flag, ho.dsts, ho.vals, ho.remote, ho.lost, ho.awaits, ho.owed⟩

theorem State.launch_hasAccess {t : State} {c : Cx} {x : Group} (hx : tabGet t.groups c.g = some x) {l : Nat}
    (hs : (tabGet x.lanes l).isSome = true) (i : Instr) {dsts : List PReg} (hd : dsts.Nodup) {b : Nat} (hb : b ≤ t.nextId)
    (vals : List Word) :
    HasAccess b c l (fun o p => o.LaunchedFor i c l dsts vals p) (t.launch c i l [l] dsts { vals := vals, isLoad := true }) := by
  refine ⟨t.nextId, _, hb, ?_, tabGet_tabSet_self .., rfl, rfl, rfl, rfl, rfl, List.map_fst_zip (by simp [upto]), rfl, rfl, rfl, rfl, ?_⟩
  · show t.nextId < t.nextId + 1 + dsts.length
    omega
  · rw [State.group_of_get (State.launch_group hx i l dsts _)]
    exact tagged_pending hs hd _ _

/-- What a captured read leaves in its lane's chain, its destinations pending (R109). -/
structure Resid.ReadFor (r : Resid) (i : Instr) (s : State) (c : Cx) (l e : Nat) (ps : List Piece) (dsts : List PReg) (vals : List Word)
    (pending : PReg → Option Nat) : Prop where
  g : r.g = c.g
  lane : r.lane = l
  lanes : r.lanes = [l]
  ins : r.ins = i
  flag : r.flag = (c.x.lane l).flagOf i
  kind : r.kind = .read [e] vals ps s.clock
  dsts : r.dsts.map (·.1) = dsts
  owed : ∀ d ∈ r.dsts, pending d.1 = some d.2

/-- What the fetch unit leaves of a lane: an access, or an entry behind one of its chain. -/
def FetchLeft (i : Instr) (s : State) (c : Cx) (dsts : Nat → List PReg) (w : Nat → List Word) (l : Nat) (t : State) : Prop :=
  HasAccess s.nextId c l (fun o p => o.LaunchedFor i c l (dsts l) (w l) p) t ∨
    ∃ e q ps, (e, q) ∈ s.chain c.g l ∧ (q.acquires = true ∨ ∃ p ∈ ps, q.holds p.loc p.len = true) ∧
      HasEntry s.nextId c l (fun r p => r.ReadFor i s c l e ps (dsts l) (w l) p) t

theorem FetchLeft.issues {i : Instr} {s : State} {c : Cx} {dsts : Nat → List PReg} {w : Nat → List Word} {l k : Nat} {t u : State}
    (h : FetchLeft i s c dsts w l t) (hne : l ≠ k) (hu : Issues i c k t u) : FetchLeft i s c dsts w l u := by
  obtain ha | ⟨e, q, ps, hm, hq, he⟩ := h
  · exact .inl (ha.issues hu hne)
  · exact .inr ⟨e, q, ps, hm, hq, he.issues hu hne⟩

theorem FetchLeft.gone {i : Instr} {s : State} {c : Cx} {dsts : Nat → List PReg} {w : Nat → List Word} {l : Nat} {t u : State}
    (h : FetchLeft i s c dsts w l t) (hu : Gone i s c t u) (hl : l ∈ c.ls) : FetchLeft i s c dsts w l u := by
  obtain ha | ⟨e, q, ps, hm, hq, he⟩ := h
  · exact .inl (hu.hasAccess hl ha)
  · exact .inr ⟨e, q, ps, hm, hq, hu.hasEntry hl he⟩

/-- The entry that a read waits for. -/
theorem State.behindAny_some {s : State} {g l e : Nat} {ps : List Piece} (h : s.behindAny g l ps = some e) :
    ∃ q, (e, q) ∈ s.chain g l ∧ (q.acquires = true ∨ ∃ p ∈ ps, q.holds p.loc p.len = true) := by
  obtain ⟨⟨k, q⟩, hlast, rfl⟩ := Option.map_eq_some_iff.1 h
  obtain ⟨hm, hq⟩ := List.mem_filter.1 (List.mem_of_getLast? hlast)
  exact ⟨q, hm, by simpa only [Bool.or_eq_true, List.any_eq_true] using hq⟩

/-- One lane's read. -/
theorem IssuedIn.fetchLane {i : Instr} {s t : State} {c : Cx} {done : List Nat} (h : s.Acts c) (ht : IssuedIn i s c done t) {l : Nat}
    (hl : l ∈ c.ls) (hnew : l ∉ done) (ps : List Piece) {dsts : Nat → List PReg} (hv : Vectors (dsts l)) (hd : (dsts l).Nodup)
    (w : Nat → List Word) :
    Issues i c l t (t.fetchLane c i l (s.behindAny c.g l ps).toList ps (dsts l) (w l)) ∧
      FetchLeft i s c dsts w l (t.fetchLane c i l (s.behindAny c.g l ps).toList ps (dsts l) (w l)) := by
  obtain ⟨x, hx, -, hidle, -⟩ := ht.group
  have hs : (tabGet x.lanes l).isSome = true := by rw [hidle l hnew]; exact h.slots l hl
  cases hb : s.behindAny c.g l ps with
  | none => exact ⟨State.launch_issues hx i l hv _, .inl (State.launch_hasAccess hx hs i hd ht.ids (w l))⟩
  | some e =>
    obtain ⟨q, hm, hq⟩ := State.behindAny_some hb
    refine ⟨State.captureMem_issues hx i l hv _, .inr ⟨e, q, ps, hm, hq, State.captureMem_hasEntry hx i l hv ht.ids ?_⟩⟩
    exact ⟨rfl, rfl, rfl, rfl, rfl, by rw [← ht.clock]; rfl, List.map_fst_zip (by simp [upto]), tagged_pending hs hd _ _⟩

/-- The reads of a set, each of which gives its words. -/
theorem State.fetchLanes_gives {i : Instr} {s : State} {c : Cx} {dsts : Nat → List PReg} {r : Nat → Reads (List Word)} {w : Nat → List Word}
    (h : s.Acts c) (hi : irreversible i = false) (howed : ∀ l ∈ c.ls, State.dstOwed i c l = false)
    (hroom : ∀ l ∈ c.ls, s.chain c.g l = [] ∨ s.room c l = true) (hr : ∀ l ∈ c.ls, (r l).gives (w l)) (hv : ∀ l, Vectors (dsts l))
    (hd : ∀ l, (dsts l).Nodup) :
    ∃ t u, s.fetchLanes c i dsts r = .next u ∧ IssuedIn i s c c.ls t ∧ Gone i s c t u ∧ ∀ l ∈ c.ls, FetchLeft i s c dsts w l u := by
  have hbudget : ∀ l ∈ c.ls, ∀ ps : List Piece,
      s.budgetCheck c l ((s.behindAny c.g l ps).toList != []) = none ∧ s.noRoom c l ((s.behindAny c.g l ps).toList != []) = false := by
    intro l hl ps
    obtain hc | hroom := hroom l hl
    · have hb : s.behindAny c.g l ps = none := by rw [State.behindAny, hc]; rfl
      rw [hb]
      exact ⟨rfl, rfl⟩
    · exact ⟨State.budgetCheck_of_room hroom _, State.noRoom_of_room hroom _⟩
  have hquiet : Quiet s (c.ls.foldl (fun u l => u.regionReads c l (r l).runs) (s.afterReads c.who (c.ls.flatMap fun l => (r l).runs))) :=
    (s.afterReads_quiet ..).trans (Quiet.foldl (fun u l => u.regionReads_quiet c l (r l).runs) c.ls _)
  obtain ⟨ht, hq⟩ := IssuedIn.all (i := i) (Q := FetchLeft i s c dsts w) h hquiet
    (f := fun u l => u.fetchLane c i l (s.behindAny c.g l (s.runPieces c (r l).runs)).toList (s.runPieces c (r l).runs) (dsts l) (w l))
    (fun done t l ht hl hnew => ht.fetchLane h hl hnew _ (hv l) (hd l) w) fun _ _ _ _ hne hu hf => hf.issues hne hu
  have hgone := ht.gone h
  refine ⟨_, _, ?_, ht, hgone, fun l hl => (hq l hl).gone hgone hl⟩
  simp only [State.fetchLanes]
  rw [State.parking_none fun l hl => by rw [howed l hl, Bool.and_false],
    State.checked_none fun l hl => by rw [(hr l hl).1, (hbudget l hl _).1]; rfl,
    State.parking_none fun l hl => (hbudget l hl _).2, State.done_of_reversible _ _ hi]
  refine congrArg (fun u : State => Host.Outcome.next (u.advance c (sizeOf' i))) (List.foldl_ext _ _ _ fun u l hl => ?_)
  rw [(hr l hl).2, Option.getD_some]

end Sys2Proof.Machine

/-!
PROOFS. FQRY, FETCH and TEX (O31).
-/

namespace Sys2Proof.Machine

/-! ### What a set that reads leaves -/

theorem FetchLeft.cases {i : Instr} {s t : State} {c : Cx} {dsts : Nat → List PReg} {w : Nat → List Word} {l : Nat}
    (h : FetchLeft i s c dsts w l t) :
    Launched i s c t l [l] (dsts l) (w l) ∨
      ∃ e q ps id r, (e, q) ∈ s.chain c.g l ∧ (q.acquires = true ∨ ∃ p ∈ ps, q.holds p.loc p.len = true) ∧ s.nextId ≤ id ∧
        tabGet t.resid id = some r ∧ r.g = c.g ∧ r.lane = l ∧ r.lanes = [l] ∧ r.ins = i ∧ r.flag = (c.x.lane l).flagOf i ∧
        r.kind = .read [e] (w l) ps s.clock ∧ r.dsts.map (·.1) = dsts l ∧ ∀ v ∈ r.dsts, (t.group c.g).pending l v.1 = some v.2 := by
  obtain ha | ⟨e, q, ps, hm, hq, id, r, hid, -, hget, hr⟩ := h
  · exact .inl ha.launched
  · exact .inr ⟨e, q, ps, id, r, hm, hq, hid, hget, hr.g, hr.lane, hr.lanes, hr.ins, hr.flag, hr.kind, hr.dsts, hr.owed⟩

/-- An instruction of the fetch unit whose reads give their words. -/
theorem exec_fetchUnit {i : Instr} {d : VField} {n : Nat} {s : State} {c : Cx} {r : Nat → Reads (List Word)} {w : Nat → List Word}
    (hi : irreversible i = false) (halu : Instr.alu i = none) (hdst : ∀ l, (operandsOf i).2.filterMap (·.reg (c.x.lane l)) = c.regs l d n)
    (hd : ∀ l, (c.regs l d n).Nodup) (h : s.Ready i c) (hroom : ∀ l ∈ c.ls, s.chain c.g l = [] ∨ s.room c l = true)
    (he : exec i s = s.fetchLanes c i (fun l => c.regs l d n) r) (hr : ∀ l ∈ c.ls, (r l).gives (w l)) :
    ∃ t, exec i s = .next t ∧ IssuedOnly i { s with resid := t.resid } c t ∧
      (∀ id, id < s.nextId → tabGet t.resid id = tabGet s.resid id) ∧
      ∀ l ∈ c.ls, dstRegs i c l = c.regs l d n ∧
        (Launched i s c t l [l] (c.regs l d n) (w l) ∨
          ∃ e q ps id r, (e, q) ∈ s.chain c.g l ∧ (q.acquires = true ∨ ∃ p ∈ ps, q.holds p.loc p.len = true) ∧ s.nextId ≤ id ∧
            tabGet t.resid id = some r ∧ r.g = c.g ∧ r.lane = l ∧ r.lanes = [l] ∧ r.ins = i ∧ r.flag = (c.x.lane l).flagOf i ∧
            r.kind = .read [e] (w l) ps s.clock ∧ r.dsts.map (·.1) = c.regs l d n ∧
              ∀ v ∈ r.dsts, (t.group c.g).pending l v.1 = some v.2) := by
  have hv : ∀ l, Vectors (c.regs l d n) := fun l q hq => by obtain ⟨k, -, rfl⟩ := List.mem_map.1 hq; exact ⟨_, rfl⟩
  obtain ⟨t, u, hu, ht, hgone, hleft⟩ := State.fetchLanes_gives h.toActs hi (h.dstOwed halu) hroom hr hv hd
  obtain ⟨hothers, hgroup, hidle, hactive, hearlier, hcores⟩ := hgone.frame hi ht
  refine ⟨u, he.trans hu, ⟨⟨hothers, hgroup, hidle, hactive, hearlier, hcores⟩, by rw [hgone.rest, ht.rest]⟩,
    by rw [hgone.rest]; exact ht.resid, fun l hl => ⟨?_, (hleft l hl).cases⟩⟩
  rw [dstRegs, regsOf_of_issue halu]
  exact hdst l

theorem Cx.regs_one_nodup (c : Cx) (l : Nat) (d : VField) : (c.regs l d 1).Nodup := List.nodup_singleton _

theorem Cx.regs_quad (c : Cx) (l : Nat) (d : VField) : (v4 d).filterMap (·.reg (c.x.lane l)) = c.regs l d 4 := rfl

theorem State.readSPair_eq {s : State} {c : Cx} (h : s.Acts c) (a : SField) : s.readSPair c.x a = (s.upair c a).toNat := by
  have hlo := (s.readReg c.x 0 (.s a.toNat)).isLt
  have hhi := (s.readReg c.x 0 (.s (a.toNat + 1))).isLt
  rw [State.upair, h.group, BitVec.toNat_ofNat, Nat.mod_eq_of_lt]
  rw [State.readSPair, pairNat]
  omega

/-- A later register of a run that does not leave the fields. -/
theorem State.readOpd_next {s : State} {c : Cx} (h : s.Acts c) (l : Nat) {b k : VField} (hb : b.toNat + k.toNat < 128) :
    s.readOpd c.x l (.v (b.toNat + k.toNat)) = s.vreg c l (b + k) := by
  rw [State.vreg, h.group, BitVec.toNat_add, Nat.mod_eq_of_lt hb]

theorem State.checkedOnce_must {s : State} {c : Cx} {ok : Bool} (h : ok = true) (e : Cause) (a : Nat) (k : Out State) :
    s.checkedOnce c (must ok e a) k = k := by
  rw [h]
  rfl

/-- The record of a handle, as it is read. -/
theorem State.fetchBytes_handle {s : State} {c : Cx} {a : SField} {pa : Nat} (h : s.Acts c) (hal : (s.upair c a).toNat % 64 = 0)
    (hx : s.xlate c.who .load (s.upair c a).toNat 64 = .ok pa) (hold : ∀ k < 64, s.storedAt (pa + k) ≤ (c.fetcher s).start) :
    (s.fetchBytes (c.fetcher s) (s.readSPair c.x a) 64).gives (memRead s.mem pa 64) := by
  rw [State.readSPair_eq h]
  exact State.fetchBytes_one (s.upair c a).isLt (by decide) (by omega) hx hold

theorem exec_fqry_eq {d : VField} {a : SField} {sel : BitVec 7} {s : State} {c : Cx} (h : s.Ready (.fqry d a sel) c)
    (hal : (s.upair c a).toNat % 64 = 0) : exec (.fqry d a sel) s = s.fetchLanes c (.fqry d a sel) (fun l => c.regs l d 1) fun _ =>
      andThen (s.fetchBytes (c.fetcher s) (s.readSPair c.x a) 64) fun hd => readless (some [w32 (fqryValue hd sel.toNat)]) := by
  rw [exec, execFqry, issue_ready rfl h]
  exact State.checkedOnce_must (by rw [State.readSPair_eq h.toActs]; exact beq_iff_eq.2 hal) ..

theorem exec_fetch_eq {d : VField} {a : SField} {b : VField} {s : State} {c : Cx} (hb : quadOk b = true) (h : s.Ready (.fetch d a b) c)
    (hal : (s.upair c a).toNat % 64 = 0) : exec (.fetch d a b) s = s.fetchLanes c (.fetch d a b) (fun l => c.regs l d 1) fun l =>
      andThen (s.fetchBytes (c.fetcher s) (s.readSPair c.x a) 64) fun hd =>
        andThen (s.fetchElem (c.fetcher s) (s.ctx c.gr.ctx).lattice hd (s.vreg c l b).toNat (s.vreg c l (b + 1)).toNat
          (s.vreg c l (b + 2)).toNat) fun w => readless (some [w]) := by
  have hquad : b.toNat % 4 = 0 := beq_iff_eq.1 hb
  have hlt := b.isLt
  have h1 (l : Nat) : s.readOpd c.x l (.v (b.toNat + 1)) = s.vreg c l (b + 1) := State.readOpd_next h.toActs l (k := 1) (by simp; omega)
  have h2 (l : Nat) : s.readOpd c.x l (.v (b.toNat + 2)) = s.vreg c l (b + 2) := State.readOpd_next h.toActs l (k := 2) (by simp; omega)
  rw [exec, execFetch, issue_ready rfl h]
  refine (State.checkedOnce_must (by rw [State.readSPair_eq h.toActs]; exact beq_iff_eq.2 hal) ..).trans ?_
  simp only [h1, h2, Nat.add_zero, State.readOpd_vreg h.toActs]

theorem exec_tex_eq {d : VField} {a : SField} {b : VField} {s : State} {c : Cx} (hb : pairOk b = true) (h : s.Ready (.tex d a b) c)
    (hal : (s.upair c a).toNat % 64 = 0) : exec (.tex d a b) s = s.fetchLanes c (.tex d a b) (fun l => c.regs l d 4) fun l =>
      andThen (s.fetchBytes (c.fetcher s) (s.readSPair c.x a) 64) fun r =>
        if fld r 0 1 = 7 then s.texNeural (c.fetcher s) r (s.vreg c l b) (s.vreg c l (b + 1))
        else s.texPlain (c.fetcher s) r (s.vreg c l b) (s.vreg c l (b + 1)) := by
  have hpair : b.toNat % 2 = 0 := beq_iff_eq.1 hb
  have hlt := b.isLt
  have h1 (l : Nat) : s.readOpd c.x l (.v (b.toNat + 1)) = s.vreg c l (b + 1) := State.readOpd_next h.toActs l (k := 1) (by simp; omega)
  rw [exec, execTex, issue_ready rfl h]
  refine (State.checkedOnce_must (by rw [State.readSPair_eq h.toActs]; exact beq_iff_eq.2 hal) ..).trans ?_
  simp only [h1, State.readOpd_vreg h.toActs]

/-! ### FQRY -/

theorem fqryValue_memRead (m : Tab Byte) (pa : Nat) {sel : BitVec 7} (h : sel.toNat < 8) :
    fqryValue (memRead m pa 64) sel.toNat =
      if sel = 0 then memNat m (pa + 0) 4 else if sel = 1 then memNat m (pa + 4) 4 else if sel = 2 then memNat m (pa + 8) 4
      else if sel = 3 then memNat m (pa + 0x10) 4 else if sel = 4 then memNat m (pa + 0x14) 4 else if sel = 5 then memNat m (pa + 0x18) 4
      else if sel = 6 then memNat m (pa + 0x1C) 4 else (memNat m (pa + 0x10) 4 + 63) / 64 := by
  obtain ⟨k, hk⟩ : ∃ k, sel.toNat = k := ⟨_, rfl⟩
  obtain rfl : sel = BitVec.ofNat 7 k := by rw [← hk, BitVec.ofNat_toNat, BitVec.setWidth_eq]
  rw [hk] at h ⊢
  have hf (ofs : Nat) (ho : ofs + 4 ≤ 64) : fld (memRead m pa 64) ofs 4 = memNat m (pa + ofs) 4 := fld_memRead m pa ho
  interval_cases k <;> simp [fqryValue, hf]

/-! ### The element of a flat handle -/

theorem memNat_one (m : Tab Byte) (pa : Nat) : memNat m pa 1 = (memByte m pa).toNat := by
  rw [memNat, memRead, memRead, leNat, leNat, Nat.mul_zero, Nat.add_zero]

theorem memNat_three (m : Tab Byte) (pa : Nat) :
    memNat m pa 3 = memNat m pa 1 + 256 * (memNat m (pa + 1) 1 + 256 * memNat m (pa + 2) 1) := by
  rw [memNat_one, memNat_one, memNat_one]
  simp only [memNat, memRead, leNat, Nat.mul_zero, Nat.add_zero, Nat.add_assoc, Nat.reduceAdd]

theorem memNat_one_lt (m : Tab Byte) (pa : Nat) : memNat m pa 1 < 256 := by
  rw [memNat_one]
  exact (memByte m pa).isLt

theorem length_memRead (m : Tab Byte) (pa n : Nat) : (memRead m pa n).length = n := by
  induction n generalizing pa with
  | zero => rfl
  | succ n ih => rw [memRead, List.length_cons, ih]

theorem leNat_lt (bs : List Byte) : leNat bs < 2 ^ (8 * bs.length) := by
  induction bs with
  | nil => exact Nat.one_pos
  | cons b bs ih =>
    have hb := b.isLt
    rw [leNat, List.length_cons, Nat.mul_add, pow_add]
    omega

/-- A word of memory as a register takes it. -/
theorem narrow_word (m : Tab Byte) (pa : Nat) : narrow (esize 4) (leNat (memRead m pa 4)) = BitVec.ofNat 32 (memNat m pa 4) := by
  have hlt : leNat (memRead m pa 4) < 2 ^ (8 * 4) := by
    have h := leNat_lt (memRead m pa 4)
    rwa [length_memRead] at h
  show w32 (leNat (leBytes 4 (leNat (memRead m pa 4)))) = _
  rw [leNat_leBytes 4 _ hlt]
  rfl

/-- The extents of a handle that is in order are not 0. -/
theorem handleOk_extent {d : List Byte} (h : handleOk d = true) : 1 ≤ fld d 0x14 4 ∧ 1 ≤ fld d 0x18 4 := by
  simp only [handleOk, Bool.and_eq_true, List.all_eq_true, upto, List.mem_range, decide_eq_true_eq] at h
  obtain ⟨⟨⟨⟨-, hext⟩, -⟩, -⟩, -⟩ := h
  exact ⟨(hext 1 (by decide)).1.1, (hext 2 (by decide)).1.1⟩

/-- Outside the first extent the border value is read. -/
theorem State.fetchElem_border (s : State) (f : FetchCx) (lat : List (List (BitVec 16))) {d : List Byte} {x : Nat} (y z : Nat)
    (hok : handleOk d = true) (hx : fld d 0x10 4 ≤ x) : (s.fetchElem f lat d x y z).gives (BitVec.ofNat 32 (fld d 0x1C 4)) := by
  simp only [State.fetchElem, hok, hx, decide_true, Bool.true_or, Bool.not_true, Bool.false_eq_true, if_false, if_true]
  exact readless_gives _

/-- An element of a flat handle of one dimension and words. -/
theorem State.fetchElem_flat (s : State) (f : FetchCx) (lat : List (List (BitVec 16))) {d : List Byte} {x q : Nat} (hok : handleOk d = true)
    (hfmt : fld d 8 1 = 0) (hsize : fld d 9 1 = 4) (hdims : fld d 10 1 = 1) (hx : x < fld d 0x10 4) (hal : (fld d 0 8 + 4 * x) % 4 = 0)
    (hlt : fld d 0 8 + 4 * x < 2 ^ 64) (hq : s.xlate f.w .load (fld d 0 8 + 4 * x) 4 = .ok q) (hold : ∀ k < 4, s.storedAt (q + k) ≤ f.start) :
    (s.fetchElem f lat d x 0 0).gives (BitVec.ofNat 32 (memNat s.mem q 4)) := by
  obtain ⟨hy, hz⟩ := handleOk_extent hok
  have hread := State.fetchBytes_one hlt (by decide : 0 < 4) (by omega) hq hold
  have hin : (decide (fld d 0x10 4 ≤ x) || decide (fld d 0x14 4 ≤ 0) || decide (fld d 0x18 4 ≤ 0)) = false := by
    simp only [Bool.or_eq_false_iff, decide_eq_false_iff_not]
    omega
  have hva : fld d 0 8 + 0 * fld d 0x20 8 + 0 * fld d 0x28 8 + x * (esize 4).bytes = fld d 0 8 + 4 * x := by
    rw [Nat.zero_mul, Nat.zero_mul, Nat.add_zero, Nat.mul_comm]
    rfl
  simp only [State.fetchElem, hok, hfmt, hsize, hdims, Bool.not_true, Bool.false_eq_true, if_false, if_true, ite_self, hin, hva]
  exact andThen_gives hread (by rw [narrow_word]; exact readless_gives _)

/-! ### A coordinate that is NaN -/

theorem State.texPlain_nan (s : State) (f : FetchCx) {r : List Byte} {u v : Word} (hok : samplerOk r = true)
    (h : asFp u = .nan ∨ asFp v = .nan) : (s.texPlain f r u v).gives (List.replicate 4 0x7FC00000) := by
  simp only [State.texPlain, hok, Bool.not_true, Bool.false_eq_true, if_false]
  rcases h with h | h
  · rw [h]
    exact readless_gives _
  · rw [h]
    cases asFp u <;> exact readless_gives _

theorem State.texNeural_nan (s : State) (f : FetchCx) {r : List Byte} {u v : Word} (hok : neuralOk r = true)
    (h : asFp u = .nan ∨ asFp v = .nan) : (s.texNeural f r u v).gives (List.replicate 4 0x7FC00000) := by
  have hnan : ((asFp u).isNan || (asFp v).isNan) = true := by
    rcases h with h | h
    · rw [h]; rfl
    · rw [h, Bool.or_comm]; rfl
  simp only [State.texNeural, hok, hnan, Bool.not_true, Bool.false_eq_true, if_false, if_true]
  exact readless_gives _

/-- The bytes 00 04 01 of a handle: FMT 0, ESIZE 4, one dimension. -/
theorem flat_fields {m : Tab Byte} {pa : Nat} (h : memNat m (pa + 8) 3 = 0x10400) :
    memNat m (pa + 8) 1 = 0 ∧ memNat m (pa + 9) 1 = 4 ∧ memNat m (pa + 10) 1 = 1 := by
  have h8 := memNat_one_lt m (pa + 8)
  have h9 := memNat_one_lt m (pa + 9)
  rw [memNat_three, show pa + 8 + 1 = pa + 9 from rfl, show pa + 8 + 2 = pa + 10 from rfl] at h
  omega

/-- Settles O31: the reads give their words, and each lane takes them at once or behind an entry of its chain. -/
theorem fetchUnit : Obligations.FetchUnit := by
  unfold Obligations.FetchUnit
  intro d a b sel s c pa h f lat hd at' brings nan hal hx hold
  have hfld : ∀ {ofs n}, ofs + n ≤ 64 → fld (memRead s.mem pa 64) ofs n = memNat s.mem (pa + ofs) n := fld_memRead s.mem pa
  refine ⟨fun hsel _ hR hroom => ?fqry, fun w hw hwf hR hroom => ?fetch, fun x y z hok hout => ?border,
    fun x q hok hkind hin hword hlt hq hq' => ?flat, fun w hw hwf hR hroom => ?tex,
    fun u v huv => ⟨fun hok => s.texPlain_nan f hok huv, fun hok => s.texNeural_nan f hok huv⟩⟩
  case fqry =>
    refine exec_fetchUnit rfl rfl (fun _ => rfl) (fun l => c.regs_one_nodup l d) hR hroom (exec_fqry_eq hR hal) fun l _ =>
      andThen_gives (State.fetchBytes_handle hR.toActs hal hx hold) ?_
    rw [fqryValue_memRead _ _ hsel]
    exact readless_gives _
  case fetch =>
    obtain ⟨-, hquad⟩ := (Bool.and_eq_true ..).mp hwf
    exact exec_fetchUnit rfl rfl (fun _ => rfl) (fun l => c.regs_one_nodup l d) hR hroom (exec_fetch_eq hquad hR hal) fun l hl =>
      andThen_gives (State.fetchBytes_handle hR.toActs hal hx hold) (andThen_gives (hw l hl) (readless_gives _))
  case border =>
    have hread := s.fetchElem_border f lat y z hok (x := x) (by rw [hfld (by decide)]; exact hout)
    rw [hfld (by decide)] at hread
    exact hread
  case flat =>
    obtain ⟨hfmt, hsize, hdims⟩ := flat_fields hkind
    refine s.fetchElem_flat f lat hok ?_ ?_ ?_ ?_ ?_ ?_ ?_ hq'
    · rw [hfld (by decide), hfmt]
    · rw [hfld (by decide), hsize]
    · rw [hfld (by decide), hdims]
    · rw [hfld (by decide)]; exact hin
    · rw [hfld (by decide)]; exact hword
    · rw [hfld (by decide)]; exact hlt
    · rw [hfld (by decide)]; exact hq
  case tex =>
    obtain ⟨hda, hb⟩ := (Bool.and_eq_true ..).mp hwf
    obtain ⟨hd4, -⟩ := (Bool.and_eq_true ..).mp hda
    refine exec_fetchUnit rfl rfl (fun l => c.regs_quad l d) (fun l => nodup_quad (c.x.lane l) (beq_iff_eq.1 hd4)) hR hroom
      (exec_tex_eq hb hR hal) fun l hl => andThen_gives (State.fetchBytes_handle hR.toActs hal hx hold) ?_
    rw [hfld (by decide)]
    exact (hw l hl).2

end Sys2Proof.Machine

/-!
PROOFS. The encodings (R127 to R133): the fields of a packed word are what was packed; from the fields the decoder finds the instruction, format
by format; so the words of an instruction decode to it (O58), and the words that the entries write out are among them (O57).
-/

namespace Sys2Proof.Encoding

/-! ### Fields of packed words -/

section Fields
variable (op d a b : BitVec 7) (fn : BitVec 4) (x : BitVec 11) (u : BitVec 18) (o : BitVec 14) (j : BitVec 25) (start len : Nat)

/-- The library's lemmas on joined bit vectors apply at the width 7 + 4 + 7 + 7 + 7, and a word's is written 32; so for each format. -/
theorem extract_packT : (packT op fn d a b).extractLsb' start len =
    BitVec.extractLsb' (n := 7 + 4 + 7 + 7 + 7) start len (op ++ fn ++ d ++ a ++ b) := rfl

theorem extract_packI : (packI op d a x).extractLsb' start len =
    BitVec.extractLsb' (n := 7 + 7 + 7 + 11) start len (op ++ d ++ a ++ x) := rfl

theorem extract_packU : (packU op d u).extractLsb' start len = BitVec.extractLsb' (n := 7 + 7 + 18) start len (op ++ d ++ u) := rfl

theorem extract_packB : (packB op fn d o).extractLsb' start len =
    BitVec.extractLsb' (n := 7 + 4 + 7 + 14) start len (op ++ fn ++ d ++ o) := rfl

theorem extract_packJ : (packJ op j).extractLsb' start len = BitVec.extractLsb' (n := 7 + 25) start len (op ++ j) := rfl

@[simp] theorem op_packT : Field.op (packT op fn d a b) = op := by
  rw [Field.op, extract_packT]
  simp [-Nat.reduceAdd, BitVec.extractLsb'_append_eq_of_le]

@[simp] theorem fn_packT : Field.fn (packT op fn d a b) = fn := by
  rw [Field.fn, extract_packT]
  simp [-Nat.reduceAdd, BitVec.extractLsb'_append_eq_of_le, BitVec.extractLsb'_append_eq_right]

@[simp] theorem d_packT : Field.d (packT op fn d a b) = d := by
  rw [Field.d, extract_packT]
  simp [-Nat.reduceAdd, BitVec.extractLsb'_append_eq_of_le, BitVec.extractLsb'_append_eq_right]

@[simp] theorem a_packT : Field.a (packT op fn d a b) = a := by
  rw [Field.a, extract_packT]
  simp [-Nat.reduceAdd, BitVec.extractLsb'_append_eq_of_le, BitVec.extractLsb'_append_eq_right]

@[simp] theorem b_packT : Field.b (packT op fn d a b) = b := by
  rw [Field.b, extract_packT, BitVec.extractLsb'_append_eq_right]

@[simp] theorem op_packI : Field.op (packI op d a x) = op := by
  rw [Field.op, extract_packI]
  simp [-Nat.reduceAdd, BitVec.extractLsb'_append_eq_of_le]

@[simp] theorem id_packI : Field.id (packI op d a x) = d := by
  rw [Field.id, extract_packI]
  simp [-Nat.reduceAdd, BitVec.extractLsb'_append_eq_of_le, BitVec.extractLsb'_append_eq_right]

@[simp] theorem ia_packI : Field.ia (packI op d a x) = a := by
  rw [Field.ia, extract_packI]
  simp [-Nat.reduceAdd, BitVec.extractLsb'_append_eq_of_le, BitVec.extractLsb'_append_eq_right]

@[simp] theorem imm11_packI : Field.imm11 (packI op d a x) = x := by
  rw [Field.imm11, extract_packI, BitVec.extractLsb'_append_eq_right]

@[simp] theorem op_packU : Field.op (packU op d u) = op := by
  rw [Field.op, extract_packU]
  simp [-Nat.reduceAdd, BitVec.extractLsb'_append_eq_of_le]

@[simp] theorem id_packU : Field.id (packU op d u) = d := by
  rw [Field.id, extract_packU]
  simp [-Nat.reduceAdd, BitVec.extractLsb'_append_eq_of_le, BitVec.extractLsb'_append_eq_right]

@[simp] theorem imm18_packU : Field.imm18 (packU op d u) = u := by
  rw [Field.imm18, extract_packU, BitVec.extractLsb'_append_eq_right]

@[simp] theorem op_packB : Field.op (packB op fn d o) = op := by
  rw [Field.op, extract_packB]
  simp [-Nat.reduceAdd, BitVec.extractLsb'_append_eq_of_le]

@[simp] theorem fn_packB : Field.fn (packB op fn d o) = fn := by
  rw [Field.fn, extract_packB]
  simp [-Nat.reduceAdd, BitVec.extractLsb'_append_eq_of_le, BitVec.extractLsb'_append_eq_right]

@[simp] theorem d_packB : Field.d (packB op fn d o) = d := by
  rw [Field.d, extract_packB]
  simp [-Nat.reduceAdd, BitVec.extractLsb'_append_eq_of_le, BitVec.extractLsb'_append_eq_right]

@[simp] theorem ofs14_packB : Field.ofs14 (packB op fn d o) = o := by
  rw [Field.ofs14, extract_packB, BitVec.extractLsb'_append_eq_right]

@[simp] theorem op_packJ : Field.op (packJ op j) = op := by
  rw [Field.op, extract_packJ, BitVec.extractLsb'_append_eq_left]

@[simp] theorem ofs25_packJ : Field.ofs25 (packJ op j) = j := by
  rw [Field.ofs25, extract_packJ, BitVec.extractLsb'_append_eq_right]

/-- The index of a SYSWR or SYSRD word stands in FN and B. -/
theorem fn_append_b_packSys : Field.fn (packSys op d a x) ++ Field.b (packSys op d a x) = x := by
  rw [packSys, fn_packT, b_packT]
  exact BitVec.extractLsb'_append_extractLsb'

end Fields

/-! ### The second word of ATOM and CAS -/

theorem scopeOf_code (sc : Scope) : scopeOf sc.code = some sc := by cases sc <;> rfl

theorem ordOf_code (o : Ord) : ordOf o.code = o := by cases o <;> rfl

theorem second_secondWord (nr wide : Bool) (o : Ord) (sc : Scope) : second (secondWord nr wide o sc) = some (nr, wide, o, sc) := by
  have hx (start len : Nat) : (secondWord nr wide o sc).extractLsb' start len =
      BitVec.extractLsb' (n := 24 + 1 + 1 + 2 + 4) start len ((0 : BitVec 24) ++ bit nr ++ bit wide ++ o.code ++ sc.code) := rfl
  have hb (k : Nat) : (secondWord nr wide o sc).getLsbD k =
      BitVec.getLsbD (w := 24 + 1 + 1 + 2 + 4) ((0 : BitVec 24) ++ bit nr ++ bit wide ++ o.code ++ sc.code) k := rfl
  have hzero : (secondWord nr wide o sc).extractLsb' 8 24 = 0 := by
    rw [hx]; simp [-Nat.reduceAdd, BitVec.extractLsb'_append_eq_of_le]
  have hsc : (secondWord nr wide o sc).extractLsb' 0 4 = sc.code := by rw [hx, BitVec.extractLsb'_append_eq_right]
  have ho : (secondWord nr wide o sc).extractLsb' 4 2 = o.code := by
    rw [hx]; simp [-Nat.reduceAdd, BitVec.extractLsb'_append_eq_of_le, BitVec.extractLsb'_append_eq_right]
  have hw : (secondWord nr wide o sc).getLsbD 6 = wide := by rw [hb]; simp only [BitVec.getLsbD_append]; simp [bit]
  have hnr : (secondWord nr wide o sc).getLsbD 7 = nr := by rw [hb]; simp only [BitVec.getLsbD_append]; simp [bit]
  rw [second, if_pos hzero, hsc, ho, hw, hnr, scopeOf_code, ordOf_code]

/-! ### The table's word -/

theorem word4_wordBytes (w : Word) : word4 (w.extractLsb' 0 8) (w.extractLsb' 8 8) (w.extractLsb' 16 8) (w.extractLsb' 24 8) = w := by
  unfold word4
  rw [BitVec.extractLsb'_append_extractLsb'_eq_extractLsb' (start₁ := 16) (len₁ := 8) rfl,
    BitVec.extractLsb'_append_extractLsb'_eq_extractLsb' (start₁ := 8) (len₁ := 8) rfl,
    BitVec.extractLsb'_append_extractLsb'_eq_extractLsb' (start₁ := 0) (len₁ := 8) rfl]
  exact BitVec.extractLsb'_eq_self

theorem ofNat_two_words (w v : Word) : BitVec.ofNat 32 (w.toNat + 2 ^ 32 * v.toNat) = w := by
  apply BitVec.eq_of_toNat_eq
  rw [BitVec.toNat_ofNat, Nat.add_mul_mod_self_left]
  exact Nat.mod_eq_of_lt w.isLt

theorem two_words_div (w v : Word) : (w.toNat + 2 ^ 32 * v.toNat) / 2 ^ 32 = v.toNat := by
  have := w.isLt
  omega

theorem decode_eight_bytes {b0 b1 b2 b3 c0 c1 c2 c3 : Byte} {i : Instr} {len : Nat}
    (h : decodeWord (word4 b0 b1 b2 b3) (some (word4 c0 c1 c2 c3)) = .ok (i, len)) :
    decode [b0, b1, b2, b3, c0, c1, c2, c3] = .ok (i, if len = 2 then [] else [c0, c1, c2, c3]) := by
  show (match decodeWord (word4 b0 b1 b2 b3) (some (word4 c0 c1 c2 c3)) with
    | .error e => Except.error e
    | .ok (i, n) => .ok (i, if n = 2 then [] else [c0, c1, c2, c3])) = _
  rw [h]

theorem decodeTableWord_of_decode {n w : Nat} {i : Instr} {rest : List Byte}
    (h : decode (wordBytes (BitVec.ofNat 32 w) ++ wordBytes (BitVec.ofNat 32 (w / 2 ^ 32))) = .ok (i, rest)) :
    decodeTableWord n w = some i := by
  show (match decode (wordBytes (BitVec.ofNat 32 w) ++ wordBytes (BitVec.ofNat 32 (w / 2 ^ 32))) with
    | .ok (i, _) => some i
    | .error _ => none) = _
  rw [h]

theorem decodeTableWord_two {n : Nat} {w v : Word} {i : Instr} {len : Nat} (h : decodeWord w (some v) = .ok (i, len)) :
    decodeTableWord n (w.toNat + 2 ^ 32 * v.toNat) = some i := by
  rw [← word4_wordBytes w, ← word4_wordBytes v] at h
  refine decodeTableWord_of_decode (rest := if len = 2 then [] else wordBytes v) ?_
  rw [ofNat_two_words, two_words_div, BitVec.ofNat_toNat, BitVec.setWidth_eq]
  exact decode_eight_bytes h

theorem decodeTableWord_one {n : Nat} {w : Word} {i : Instr} {len : Nat} (h : decodeWord w (some 0) = .ok (i, len)) :
    decodeTableWord n w.toNat = some i := by
  have h' := decodeTableWord_two (n := n) h
  rwa [show (0 : Word).toNat = 0 from rfl, Nat.mul_zero, Nat.add_zero] at h'

/-! ### From the fields of a word to its instruction -/

/-- What `decodeWord` does once the fields of the word have been read. -/
def decodeFields (op : Nat) (w : Word) (fn : BitVec 4) (d a b : BitVec 7) (next : Option Word) : DResult :=
  if reservedMajor op then .error .major
  else if op < 0x10 then decodeInt op fn d a b next
  else if op = 0x1B ∨ op = 0x1D then decodeUni op fn d a b next
  else if op < 0x1E then decodeImm op w
  else if op < 0x30 then decodeFlt op fn d a b next
  else if op < 0x36 then decodeLane op w fn d a b next
  else if op < 0x40 then decodeCtl op w fn d a b
  else if op < 0x4A then decodeMem op fn d a b next
  else if op < 0x5E then decodeFetch op fn d a b next
  else if op < 0x68 then decodeMat op fn d a b next
  else if op < 0x70 then decodeQueue op fn d a b next
  else if op < 0x78 then decodeGraph op fn d a b next
  else decodeSys op w fn d a b

theorem decodeWord_eq (w : Word) (next : Option Word) :
    decodeWord w next = decodeFields (Field.op w).toNat w (Field.fn w) (Field.d w) (Field.a w) (Field.b w) next := rfl

theorem decodeWord_packT (op : BitVec 7) (fn : BitVec 4) (d a b : BitVec 7) (next : Option Word) :
    decodeWord (packT op fn d a b) next = decodeFields op.toNat (packT op fn d a b) fn d a b next := by
  rw [decodeWord_eq, op_packT, fn_packT, d_packT, a_packT, b_packT]

theorem one_of_wf {i : Instr} (h : i.wf = true) : one i = .ok (i, 1) := by rw [one, if_pos h]

theorem two_of_wf {i : Instr} (h : i.wf = true) : two i = .ok (i, 2) := by rw [two, if_pos h]

theorem withB_reg {b : BitVec 7} {next : Option Word} {k : BOp → Instr} (hb : b ≠ 127) (h : (k (.reg b)).wf = true) :
    withB b next k = .ok (k (.reg b), 1) := by
  unfold withB
  rw [if_neg hb, if_pos h]

theorem withB_lit {l : Word} {k : BOp → Instr} (h : (k (.lit l)).wf = true) : withB 127 (some l) k = .ok (k (.lit l), 2) := by
  unfold withB
  rw [if_pos rfl]
  exact if_pos h

/-- A predicate number lies below 16, so it is never the field 127 of the literal form. -/
theorem withP_reg (p : PField) (next : Option Word) (k : POp → Instr) : withP (p.setWidth 7) next k = .ok (k (.reg p), 1) := by
  have h : (p.setWidth 7).toNat < 16 := by rw [BitVec.toNat_setWidth]; omega
  have hne : p.setWidth 7 ≠ 127 := fun he => by rw [he] at h; exact absurd h (by decide)
  unfold withP
  rw [if_neg hne, if_pos h, BitVec.setWidth_setWidth_of_le _ (by decide), BitVec.setWidth_eq]

theorem in16_wide7 (x : BitVec 4) (k : BitVec 4 → DResult) : in16 (wide7 x) k = k x := by
  have h : (wide7 x).toNat < 16 := by rw [wide7, BitVec.toNat_setWidth]; omega
  rw [in16, if_pos h, wide7, BitVec.setWidth_setWidth_of_le _ (by decide), BitVec.setWidth_eq]

theorem in8_wide7 (x : BitVec 3) (k : BitVec 3 → DResult) : in8 (wide7 x) k = k x := by
  have h : (wide7 x).toNat < 8 := by rw [wide7, BitVec.toNat_setWidth]; omega
  rw [in8, if_pos h, wide7, BitVec.setWidth_setWidth_of_le _ (by decide), BitVec.setWidth_eq]

section Narrow
variable {r : DResult}

/-- A decoder that checks a field for a predicate or tile number goes on with the number encoded there. -/
theorem of_in16 (x : BitVec 4) {k : BitVec 4 → DResult} (h : r = in16 (wide7 x) k) : r = k x := by rw [h, in16_wide7]

theorem of_in16_in16 (x y : BitVec 4) {k : BitVec 4 → BitVec 4 → DResult} (h : r = in16 (wide7 x) fun p => in16 (wide7 y) (k p)) :
    r = k x y := by
  rw [h, in16_wide7, in16_wide7]

theorem of_in8 (x : BitVec 3) {k : BitVec 3 → DResult} (h : r = in8 (wide7 x) k) : r = k x := by rw [h, in8_wide7]

theorem of_in8_in8 (x y : BitVec 3) {k : BitVec 3 → BitVec 3 → DResult} (h : r = in8 (wide7 x) fun p => in8 (wide7 y) (k p)) :
    r = k x y := by
  rw [h, in8_wide7, in8_wide7]

theorem of_in8_in16 (x : BitVec 3) (y : BitVec 4) {k : BitVec 3 → BitVec 4 → DResult} (h : r = in8 (wide7 x) fun p => in16 (wide7 y) (k p)) :
    r = k x y := by
  rw [h, in8_wide7, in16_wide7]

/-- FN of the float mould gives back its mode and .SAT (R358). -/
theorem of_mould (s : Bool) {m : RMode} (hm : m.mouldOk = true) {k : Bool → RMode → DResult}
    (h : r = if (mouldCode s m).toNat < 8 then k ((mouldCode s m).getLsbD 2) (mould ((mouldCode s m).setWidth 2)) else .error .fn) :
    r = k s m := by
  rw [h]
  cases m
  case rna => exact absurd hm (by decide)
  all_goals cases s <;> rfl

/-- FN of VQDEC gives back its table (R144). -/
theorem of_table (n : BitVec 2) {k : BitVec 2 → DResult}
    (h : r = if (n.setWidth 4).toNat < 4 then k ((n.setWidth 4).setWidth 2) else .error .fn) : r = k n := by
  have hn : (n.setWidth 4).toNat < 4 := by rw [BitVec.toNat_setWidth]; omega
  rw [h, if_pos hn, BitVec.setWidth_setWidth_of_le _ (by decide), BitVec.setWidth_eq]

end Narrow

/-! ### Words that decode to an instruction -/

/-- The words decode to the instruction: one word whatever follows it, two words together. -/
def Decodes (i : Instr) : List Word → Prop
  | [w] => ∀ next, decodeWord w next = .ok (i, 1)
  | [w, v] => decodeWord w (some v) = .ok (i, 2)
  | _ => False

theorem decodes_packT {op : BitVec 7} {fn : BitVec 4} {d a b : BitVec 7} {i : Instr} (h : i.wf = true)
    (hd : ∀ w next, decodeFields op.toNat w fn d a b next = one i) : Decodes i [packT op fn d a b] := fun next => by
  rw [decodeWord_packT, hd, one_of_wf h]

theorem decodes_packTB {op : BitVec 7} {fn : BitVec 4} {d a : BitVec 7} {b : BOp} {k : BOp → Instr} (h : (k b).wf = true) (hb : b.ok = true)
    (hd : ∀ w b next, decodeFields op.toNat w fn d a b next = withB b next k) : Decodes (k b) (packTB op fn d a b) := by
  cases b with
  | reg r => exact fun next => by rw [decodeWord_packT, hd, withB_reg (bne_iff_ne.1 hb) h]
  | lit l => exact (decodeWord_packT ..).trans ((hd ..).trans (withB_lit h))

theorem decodes_packTP {op : BitVec 7} {fn : BitVec 4} {d a : BitVec 7} {b : POp} {k : POp → Instr}
    (hd : ∀ w b next, decodeFields op.toNat w fn d a b next = withP b next k) : Decodes (k b) (packTP op fn d a b) := by
  cases b with
  | reg r => exact fun next => by rw [decodeWord_packT, hd, withP_reg]
  | lit l => exact (decodeWord_packT ..).trans (hd ..)

theorem decodes_packT_two {op : BitVec 7} {fn : BitVec 4} {d a b : BitVec 7} {nr wide : Bool} {o : Ord} {sc : Scope} {i : Instr}
    {k : Bool → Bool → Ord → Scope → DResult} (hd : ∀ w next, decodeFields op.toNat w fn d a b next = twoWords next k)
    (hk : k nr wide o sc = .ok (i, 2)) : Decodes i [packT op fn d a b, secondWord nr wide o sc] := by
  refine (decodeWord_packT ..).trans ((hd ..).trans ?_)
  rw [twoWords]
  simp only [second_secondWord, hk]

theorem decodes_packI {op d a : BitVec 7} {x : BitVec 11} {k : BitVec 7 → BitVec 7 → BitVec 11 → Instr} (h : (k d a x).wf = true)
    (hd : ∀ w fn d a b next, decodeFields op.toNat w fn d a b next = one (k (Field.id w) (Field.ia w) (Field.imm11 w))) :
    Decodes (k d a x) [packI op d a x] := fun next => by
  rw [decodeWord_eq, op_packI, hd, id_packI, ia_packI, imm11_packI, one_of_wf h]

theorem decodes_packU {op d : BitVec 7} {x : BitVec 18} {k : BitVec 7 → BitVec 18 → Instr} (h : (k d x).wf = true)
    (hd : ∀ w fn d a b next, decodeFields op.toNat w fn d a b next = one (k (Field.id w) (Field.imm18 w))) :
    Decodes (k d x) [packU op d x] := fun next => by
  rw [decodeWord_eq, op_packU, hd, id_packU, imm18_packU, one_of_wf h]

theorem decodes_packB {op p : BitVec 7} {fn : BitVec 4} {x : BitVec 14} {k : BitVec 14 → Instr} (h : (k x).wf = true)
    (hd : ∀ w a b next, decodeFields op.toNat w fn p a b next = one (k (Field.ofs14 w))) : Decodes (k x) [packB op fn p x] := fun next => by
  rw [decodeWord_eq, op_packB, fn_packB, d_packB, hd, ofs14_packB, one_of_wf h]

theorem decodes_packJ {op : BitVec 7} {x : BitVec 25} {k : BitVec 25 → Instr} (h : (k x).wf = true)
    (hd : ∀ w fn d a b next, decodeFields op.toNat w fn d a b next = one (k (Field.ofs25 w))) : Decodes (k x) [packJ op x] := fun next => by
  rw [decodeWord_eq, op_packJ, hd, ofs25_packJ, one_of_wf h]

theorem decodes_packSys {op d a : BitVec 7} {x : BitVec 11} {i : Instr} {k : BitVec 11 → DResult} (h : i.wf = true)
    (hd : ∀ w fn b next, decodeFields op.toNat w fn d a b next = k (fn ++ b)) (hk : k x = one i) :
    Decodes i [packSys op d a x] := fun next => by
  have hx := fn_append_b_packSys op d a x
  rw [packSys, fn_packT, b_packT] at hx
  rw [packSys, decodeWord_packT, hd, hx, hk, one_of_wf h]

/-! ### SYSWR by its index (Table 22.8) -/

theorem decodeSyswr_lattice (n : BitVec 2) (a : VField) : decodeSyswr (0x020 ||| n.setWidth 11) a = one (.syswrLattice n a) := by
  have hrange : ∀ n : BitVec 2, (0x020 ||| n.setWidth 11) ≠ (0x010 : BitVec 11) ∧ 0x020 ≤ (0x020 ||| n.setWidth 11 : BitVec 11).toNat ∧
      (0x020 ||| n.setWidth 11 : BitVec 11).toNat ≤ 0x023 ∧ (0x020 ||| n.setWidth 11 : BitVec 11).setWidth 2 = n := by decide
  obtain ⟨h1, h2, h3, h4⟩ := hrange n
  rw [decodeSyswr, if_neg h1, if_pos ⟨h2, h3⟩, h4]

theorem decodeSyswr_perfcnt (n : BitVec 3) (a : VField) : decodeSyswr (0x041 + n.setWidth 11) a = one (.syswrPerfcnt n a) := by
  have hrange : ∀ n : BitVec 3, 0x041 ≤ (0x041 + n.setWidth 11 : BitVec 11).toNat ∧ (0x041 + n.setWidth 11 : BitVec 11).toNat ≤ 0x048 ∧
      ((0x041 + n.setWidth 11 : BitVec 11) - 0x041).setWidth 3 = n := by decide
  obtain ⟨h1, h2, h3⟩ := hrange n
  have hne {k : BitVec 11} (hk : k.toNat < 0x041) : 0x041 + n.setWidth 11 ≠ k := fun he => by rw [he] at h1; omega
  rw [decodeSyswr, if_neg (hne (by decide)), if_neg (by omega), if_neg (hne (by decide)), if_neg (hne (by decide)), if_pos ⟨h1, h2⟩, h3]

theorem decodeSyswr_other {x : BitVec 11} {a : VField} (h : (Instr.syswrOther x a).wf = true) : decodeSyswr x a = one (.syswrOther x a) := by
  have hx := Bool.and_elim_right h
  simp only [Bool.not_eq_true', Bool.or_eq_false_iff, Bool.and_eq_false_iff, beq_eq_false_iff_ne, decide_eq_false_iff_not] at hx
  obtain ⟨⟨⟨⟨⟨hbase, hlattice⟩, hregion⟩, hperf⟩, hwsched⟩, hdet⟩ := hx
  have hctl : x ≠ 0x040 := fun he => by rw [he] at hperf; revert hperf; decide
  rw [decodeSyswr, if_neg hbase, if_neg (by omega), if_neg hregion, if_neg hctl, if_neg (by omega), if_neg hwsched, if_neg hdet]

/-! ### Every instruction word -/

/-- A pair is even, and field 127 is odd. -/
theorem BOp.ok_of_pairOk {b : BOp} (h : b.pairOk = true) : b.ok = true := by
  cases b with
  | reg r => exact bne_iff_ne.2 fun hr => by subst hr; exact absurd h (by decide)
  | lit => rfl

theorem ok_of_threeOk {wide : Bool} {d a : VField} {b : BOp} (h : threeOk wide d a b = true) : b.ok = true := by
  cases wide with
  | false => exact h
  | true => exact BOp.ok_of_pairOk (Bool.and_elim_right h)

theorem decodeFields_atom (op : AtomOp) (w : Word) (d a b : BitVec 7) (next : Option Word) :
    decodeFields 0x45 w op.code d a b next = twoWords next fun nr wide o sc =>
      if (op == .fadd && wide) || (nr && d != 0) then .error .unused else two (.atom op nr wide o sc d a b) := by
  cases op <;> rfl

theorem decodes_atom {op : AtomOp} {nr wide : Bool} {o : Ord} {sc : Scope} {d a b : VField} (h : (Instr.atom op nr wide o sc d a b).wf = true) :
    Decodes (.atom op nr wide o sc d a b) [packT 0x45 op.code d a b, secondWord nr wide o sc] := by
  refine decodes_packT_two (fun w next => decodeFields_atom op w d a b next) ((if_neg ?_).trans (two_of_wf h))
  simp only [Instr.wf, Bool.and_eq_true, Bool.not_eq_true', Bool.or_eq_true, beq_iff_eq] at h
  obtain ⟨⟨⟨hadd, hd⟩, -⟩, -⟩ := h
  rw [hadd, Bool.false_or, Bool.and_eq_true, bne_iff_ne]
  rintro ⟨hnr, hne⟩
  exact hd.elim (fun hf => by rw [hnr] at hf; cases hf) hne

theorem decodes_cas {wide : Bool} {o : Ord} {sc : Scope} {d a b : VField} (h : (Instr.cas wide o sc d a b).wf = true) :
    Decodes (.cas wide o sc d a b) [packT 0x46 0 d a b, secondWord false wide o sc] :=
  decodes_packT_two (k := fun nr wide o sc => if nr then .error .unused else two (.cas wide o sc d a b)) (fun _ _ => rfl) (two_of_wf h)

theorem decodes_trap (c : BitVec 18) : Decodes (.trap c) [packU 0x78 0 c] := fun next => by
  have hd (w : Word) (fn : BitVec 4) (d a b : BitVec 7) :
      decodeFields 0x78 w fn d a b next = zero (Field.id w) (one (.trap (Field.imm18 w))) := rfl
  rw [decodeWord_eq, op_packU]
  refine (hd ..).trans ?_
  rw [id_packU, imm18_packU]
  rfl

/-- The words of an instruction decode to it. The cases stand by the shape of their words: which format, which operand fields are narrower than
seven bits, which part of FN a selector gives. -/
theorem decodes_encode (i : Instr) (hword : i.isWord = true) (h : i.wf = true) (hovf : ∀ a, i ≠ .regionstatClearOvf a) :
    Decodes i (encode i) := by
  cases i with
  -- Format T without a B operand that can be a literal
  | clz d a | popc d a | brev d a | iabs d a | ineg d a | not d a | mov d a | movVS d a | movSS d a | fabs d a | fneg d a | frcp d a
  | frsq d a | fsqrt d a | flog2 d a | fexp2 d a | fsin d a | fcos d a | ftanh d a | jmpi a | calli d a | nop | ret a | exit
  | yield | wbase n | vfree a n | regroup | pend a | fetch d a b | fqry d a s | tex d a b | rngkey a | rng d a | cpy a | chain a | coll a
  | oprdy | enq d a | cmbput d a | cmbstat d a | cmbclose a | cmbcancel a | binflush | fopen a | fclose a | eseal a | vret a | ordb | orde
  | pxw a | resume a | bkpt t => exact decodes_packT h fun _ _ => rfl
  | movPP d a | pnot d a | voteAny d a | voteAll d a => exact decodes_packT h fun _ _ => by apply of_in16_in16 d a; rfl
  | movVP d a | voteBallot d a | voteCount d a => exact decodes_packT h fun _ _ => by apply of_in16 a; rfl
  | movPV d a | elect d => exact decodes_packT h fun _ _ => by apply of_in16 d; rfl
  | sacqFree d r | sacqFilled d r | spub a r | sfree a r => exact decodes_packT h fun _ _ => by apply of_in16 r; rfl
  | enrol k | join k | leave k => exact decodes_packT h fun _ _ => by apply of_in8 k; rfl
  | conv d a b | astFp32 d a | astBf16 d a | mwait d => exact decodes_packT h fun _ _ => by apply of_in8 d; rfl
  | scacc d a b => exact decodes_packT h fun _ _ => by apply of_in8_in8 d a; rfl
  | mma s f d a b | mmasp s f d a b => exact decodes_packT h fun _ _ => by cases s <;> cases f <;> (apply of_in8_in16 d a; rfl)
  | bitil f d a | bitdl f d a | qamax f d a | deq f d a | cmbopen f d a => exact decodes_packT h fun _ _ => by cases f <;> rfl
  | fenceAcq sc | fenceRel sc | fenceFull sc | fenceAsync sc | icinv sc => exact decodes_packT h fun _ _ => by cases sc <;> rfl
  | fcvt m s d a => exact decodes_packT h fun _ _ => by cases m <;> cases s <;> rfl
  | qcvt q f n d a => exact decodes_packT h fun _ _ => by cases q <;> cases f <;> cases n <;> rfl
  | trace c y d a b => exact decodes_packT h fun _ _ => by cases c <;> cases y <;> rfl
  | vqdec n d a => exact decodes_packT h fun _ _ => by apply of_table n; rfl
  -- Format T with a B operand that can be a literal
  | and d a b | andn d a b | or d a b | orn d a b | xor d a b | bfi d a b | isel p d a b | iaddc p d a b | movSV d a b | sadd d a b
  | ssub d a b | smul d a b | sand d a b | sor d a b | sxor d a b | sshl d a b | sshr d a b | smin d a b | smax d a b | fcpys d a b
  | depdec d b | depadd d b => exact decodes_packTB h h fun _ _ _ => rfl
  | cctlWb a b | cctlInv a b | cctlWbinv a b | spawn a b | depset d a b | hitget d a b | vapp d a b | vconn d a b | vmrg d a b
  | vmrq d a b | vrwtConn d a b | vrwtMrg d a b | vget d a b => exact decodes_packTB h (Bool.and_elim_right h) fun _ _ _ => rfl
  | rmask d a b | tld d a b => exact decodes_packTB h h fun _ _ _ => by apply of_in16 d; rfl
  | aclr d b | ald d a b => exact decodes_packTB h h fun _ _ _ => by apply of_in8 d; rfl
  | sadd64 d a b => exact decodes_packTB h (ok_of_threeOk h) fun _ _ _ => rfl
  | iadd f d a b | isub f d a b | imul f d a b | imad f d a b => exact decodes_packTB h (ok_of_threeOk h) fun _ _ _ => by cases f <;> rfl
  | imin f d a b | imax f d a b | bfx f d a b | fmin f d a b | fmax f d a b | padd2 f d a b | pmul2 f d a b | pfma2 f d a b | fcvts f d a b =>
    exact decodes_packTB h h fun _ _ _ => by cases f <;> rfl
  | shl f d a b | shr f d a b | sar f d a b | rotl f d a b | lds f d a b | sts f d a b =>
    exact decodes_packTB h (Bool.and_elim_right h) fun _ _ _ => by cases f <;> rfl
  | ldu z d a b =>
    refine decodes_packTB h (Bool.and_elim_right h) fun _ _ _ => ?_
    cases z
    case b32 | b64 | b128 => rfl
    all_goals exact absurd h Bool.false_ne_true
  | ld q z d a b | st q z d a b => exact decodes_packTB h (Bool.and_elim_right h) fun _ _ _ => by cases q <;> cases z <;> rfl
  | icmp c d a b | scmp c d a b | fcmp c d a b => exact decodes_packTB h h fun _ _ _ => by cases c <;> (apply of_in16 d; rfl)
  | fadd s m d a b | fsub s m d a b | fmul s m d a b | ffma s m d a b =>
    exact decodes_packTB h (Bool.and_elim_right h) fun _ _ _ => by apply of_mould s (Bool.and_elim_left h); rfl
  | shfl w m d a b => exact decodes_packTB h h fun _ _ _ => by cases w <;> cases m <;> rfl
  | pand d a b | por d a b | pxor d a b => exact decodes_packTP fun _ _ _ => by apply of_in16_in16 d a; rfl
  | reduce o d a b => exact decodes_packTP fun _ _ _ => by cases o <;> rfl
  | scan e o d a b => exact decodes_packTP fun _ _ _ => by cases e <;> cases o <;> rfl
  -- Formats I, U, B and J
  | iaddi d a x | andi d a x | ori d a x | xori d a x | shli d a x | shri d a x | sari d a x | muli d a x | saddi d a x =>
    exact decodes_packI h fun _ _ _ _ _ _ => rfl
  | movi d x | movh d x | smovi d x | envrd d x => exact decodes_packU h fun _ _ _ _ _ _ => rfl
  | trap c => exact decodes_trap c
  | bra c o =>
    cases c with
    | always => exact decodes_packB h fun _ _ _ _ => rfl
    | ifTrue p | ifFalse p => exact decodes_packB h fun _ _ _ _ => by apply of_in16 p; rfl
  | brp f p o => cases f <;> exact decodes_packB h fun _ _ _ _ => rfl
  | jmp o | call o => exact decodes_packJ h fun _ _ _ _ _ _ => rfl
  -- An index in FN and B
  | sysrd d x => exact decodes_packSys (k := fun x => one (.sysrd d x)) h (fun _ _ _ _ => rfl) rfl
  | syswrTrapbase a | regionstatClearRegion a | syswrPerfctl a | syswrWschedcfg a | syswrDetsel a =>
    exact decodes_packSys (k := fun x => decodeSyswr x a) h (fun _ _ _ _ => rfl) rfl
  | syswrLattice n a => exact decodes_packSys (k := fun x => decodeSyswr x a) h (fun _ _ _ _ => rfl) (decodeSyswr_lattice n a)
  | syswrPerfcnt n a => exact decodes_packSys (k := fun x => decodeSyswr x a) h (fun _ _ _ _ => rfl) (decodeSyswr_perfcnt n a)
  | syswrOther x a => exact decodes_packSys (k := fun x => decodeSyswr x a) h (fun _ _ _ _ => rfl) (decodeSyswr_other h)
  | regionstatClearOvf a => exact absurd rfl (hovf a)
  -- Two words
  | atom op nr w o sc d a b => exact decodes_atom h
  | cas w o sc d a b => exact decodes_cas h
  -- The steps of the device
  | _ => exact absurd hword Bool.false_ne_true

/-- Settles O58: the words decode by the decoder, and so by the table's word, which is the same words in one number. -/
theorem encodingRoundTrip : Obligations.EncodingRoundTrip := by
  unfold Obligations.EncodingRoundTrip
  refine ⟨fun i hword hwf hovf => ?_, fun _ => rfl⟩
  have h := decodes_encode i hword hwf hovf
  match hws : encode i with
  | [w] =>
    rw [hws] at h
    exact .inl ⟨w, rfl, h, decodeTableWord_one (h _)⟩
  | [w, v] =>
    rw [hws] at h
    exact .inr ⟨w, v, rfl, h, decodeTableWord_two h⟩
  | [] | _ :: _ :: _ :: _ =>
    rw [hws] at h
    exact h.elim

/-! ### Words written out -/

theorem decodeWord_of_encode {i : Instr} {w : Word} (he : encode i = [w]) (hword : i.isWord = true) (hwf : i.wf = true)
    (hovf : ∀ a, i ≠ .regionstatClearOvf a) (next : Option Word) : decodeWord w next = .ok (i, 1) := by
  have h := decodes_encode i hword hwf hovf
  rw [he] at h
  exact h next

theorem decodeWord_of_encode_two {i : Instr} {w v : Word} (he : encode i = [w, v]) (hword : i.isWord = true) (hwf : i.wf = true)
    (hovf : ∀ a, i ≠ .regionstatClearOvf a) : decodeWord w (some v) = .ok (i, 2) := by
  have h := decodes_encode i hword hwf hovf
  rw [he] at h
  exact h

/-- Settles O57: each word is the one that `encode` gives for its instruction. A first word alone names the B operand 127, or major 0x46. -/
theorem decodedWords : Obligations.DecodedWords := by
  unfold Obligations.DecodedWords
  refine ⟨fun e he next => ?one, fun e he => ?two⟩
  case one =>
    simp only [List.mem_cons, List.not_mem_nil, or_false] at he
    obtain rfl | rfl | rfl | rfl | rfl | rfl | rfl | rfl | rfl | rfl | rfl | rfl | rfl | rfl | rfl | rfl | rfl | rfl | rfl | rfl | rfl := he <;>
      exact decodeWord_of_encode rfl rfl rfl (fun _ h => by cases h) next
  case two =>
    simp only [List.mem_cons, List.not_mem_nil, or_false] at he
    obtain rfl | rfl | rfl := he <;>
      exact ⟨decodeWord_of_encode_two rfl rfl rfl (fun _ h => by cases h), rfl⟩

end Sys2Proof.Encoding

/-!
PROOFS. Commands of the copy engine and of the collectives: how they are queued, and what they write at their completion (O33).
-/

namespace Sys2Proof.Machine

/-! ### What a command reads as it is issued -/

/-- A state in which nothing has been issued, and of the cores nothing but the TLB and the counts of `k` has changed. -/
structure QuietOn (k : Nat) (s t : State) : Prop extends Quiet s t where
  beside : ∀ j, j ≠ k → t.core j = s.core j

theorem QuietOn.of_cores {k : Nat} {s t : State} (h : Quiet s t) (hc : t.cores = s.cores) : QuietOn k s t :=
  ⟨h, fun j _ => by rw [State.core, State.core, hc]⟩

theorem QuietOn.refl (k : Nat) (s : State) : QuietOn k s s := .of_cores (.refl s) rfl

theorem QuietOn.trans {k : Nat} {s t u : State} (h : QuietOn k s t) (h' : QuietOn k t u) : QuietOn k s u :=
  ⟨h.toQuiet.trans h'.toQuiet, fun j hj => (h'.beside j hj).trans (h.beside j hj)⟩

theorem QuietOn.foldl {α : Type} {k : Nat} {f : State → α → State} (hf : ∀ s a, QuietOn k s (f s a)) (l : List α) (s : State) :
    QuietOn k s (l.foldl f s) := by
  induction l generalizing s with
  | nil => exact .refl k s
  | cons a l ih => exact (hf s a).trans (ih _)

theorem QuietOn.copyq {k : Nat} {s t : State} (h : QuietOn k s t) (j : Nat) : (t.core j).copyq = (s.core j).copyq := by
  obtain ⟨tlb, perf, e⟩ := h.cores j
  rw [e]

theorem State.core_tabSet_ne (s : State) {k j : Nat} (x : Core) (h : j ≠ k) :
    ({ s with cores := tabSet s.cores k x } : State).core j = s.core j := (s.core_tabSet k x j).trans (if_neg h)

theorem State.count_core_ne (s : State) {core j : Nat} (ctx kind n : Nat) (h : j ≠ core) : (s.count core ctx kind n).core j = s.core j := by
  simp only [State.count]
  split
  · rfl
  · exact s.core_tabSet_ne _ h

theorem State.fillTlb_core_ne (s : State) {w : Who} {j : Nat} (acc : Acc) (va : Nat) (h : j ≠ w.core) :
    (s.fillTlb w acc va).core j = s.core j := by
  have hcount := s.count_core_ne w.ctx 5 1 h
  unfold State.fillTlb
  split
  · rfl
  · simp only
    split
    · exact hcount
    · split
      · exact (State.core_tabSet_ne _ _ h).trans hcount
      · exact hcount

theorem State.fillTlb_quietOn (s : State) (w : Who) (acc : Acc) (va : Nat) : QuietOn w.core s (s.fillTlb w acc va) :=
  ⟨s.fillTlb_quiet w acc va, fun _ hj => s.fillTlb_core_ne acc va hj⟩

theorem State.touchRead_quietOn (s : State) (k agent pa n : Nat) : QuietOn k s (s.touchRead agent pa n) :=
  .foldl (f := fun t (r : Nat × Nat) => t.readLine agent r.1 r.2) (fun _ _ => .of_cores ⟨rfl, .of_cores rfl⟩ rfl) _ s

theorem State.touchVa_quietOn (s : State) (w : Who) (va n : Nat) : QuietOn w.core s (s.touchVa w va n) := by
  unfold State.touchVa
  split
  · exact .refl _ s
  · refine QuietOn.foldl (fun t p => ?_) _ s
    cases p.loc with
    | spad => exact .refl _ t
    | phys pa =>
      simp only
      split
      · exact (t.fillTlb_quietOn ..).trans (State.touchRead_quietOn ..)
      · exact t.touchRead_quietOn ..

theorem State.touchPieces_quietOn (s : State) (k agent : Nat) (ps : List Piece) : QuietOn k s (s.touchPieces agent ps) :=
  .foldl (f := fun t (p : Piece) => t.touchLoc agent p.loc p.len) (fun t p => by
    cases p.loc with
    | phys pa => exact t.touchRead_quietOn ..
    | spad => exact .refl k t) ps s

theorem State.fillPieces_quietOn (s : State) (w : Who) (acc : Acc) (ps : List Piece) : QuietOn w.core s (s.fillPieces w acc ps) :=
  .foldl (fun t p => by split; exacts [t.fillTlb_quietOn .., .refl _ t]) ps s

/-! ### A command issued -/

theorem State.noteCommand_orderOnly (s : State) (g l : Nat) (f : Option Nat) : OrderOnly s (s.noteCommand g l f) := by
  unfold State.noteCommand
  split
  · exact rfl
  · split <;> exact rfl

/-- The lanes of a set note a command. -/
def State.noteCommands (s : State) (g : Nat) (ls : List Nat) (f : Option Nat) : State := ls.foldl (fun t l => t.noteCommand g l f) s

theorem State.noteCommands_rest (s : State) (g : Nat) (ls : List Nat) (f : Option Nat) :
    s.noteCommands g ls f = { s with order := (s.noteCommands g ls f).order } :=
  OrderOnly.foldl (fun t l => t.noteCommand_orderOnly g l f) ls s

theorem State.commanded_eq (s : State) (c : Cx) {i : Instr} (hi : irreversible i = true) :
    s.commanded c i =
      (((s.noteCommands c.g c.ls (c.y0.flagOf i)).modGroup c.g fun x => x.withLanes c.ls fun _ y => y.incFlag (c.y0.flagOf i)).modGroup c.g
        fun x => x.withLanes c.ls fun _ y => y.marked).advance c (sizeOf' i) := by
  rw [State.commanded, State.done, if_pos hi]
  rfl

theorem State.commanded_cores (s : State) (c : Cx) {i : Instr} (hi : irreversible i = true) : (s.commanded c i).cores = s.cores := by
  rw [State.commanded_eq s c hi, State.noteCommands_rest]
  rfl

theorem State.commanded_colls (s : State) (c : Cx) {i : Instr} (hi : irreversible i = true) : (s.commanded c i).colls = s.colls := by
  rw [State.commanded_eq s c hi, State.noteCommands_rest]
  rfl

/-- The group of a set that has issued a command. -/
def Cx.commandedSet (c : Cx) (i : Instr) (clock : Nat) : Group :=
  ((c.x.withLanes c.ls fun _ y => y.incFlag (c.y0.flagOf i)).withLanes c.ls fun _ y => y.marked).withLanes c.ls fun _ y => y.passed (sizeOf' i) clock

theorem State.commanded_groupOnly {s : State} {c : Cx} {i : Instr} (hi : irreversible i = true) (hg : tabGet s.groups c.g = some c.x) :
    ∃ v, v = { s with order := v.order } ∧ GroupOnly v c (s.commanded c i) (c.commandedSet i v.clock) := by
  have hrest := s.noteCommands_rest c.g c.ls (c.y0.flagOf i)
  refine ⟨s.noteCommands c.g c.ls (c.y0.flagOf i), hrest, ?_⟩
  rw [State.commanded_eq s c hi]
  refine GroupOnly.advance (GroupOnly.modGroup (GroupOnly.modGroup ⟨rfl, fun _ => ⟨_, rfl⟩, fun _ _ => rfl, ?_⟩ _) _) c.ls _
  rw [hrest]
  exact hg

theorem Lane.commanded_eq (y : Lane) (f : Option Nat) {i : Instr} (hi : irreversible i = true) (clock : Nat) :
    (y.incFlag f).marked.passed (sizeOf' i) clock =
      { y.advance (sizeOf' i) with
        stamp := clock, pass := false, irrev := irreversible i || y.irrev, flags := (y.incFlag f).flags } := by
  rw [hi, Bool.true_or, Lane.incFlag_rest]
  unfold Lane.passed Lane.marked Lane.advance Lane.goto Lane.bodyEnd
  simp only
  split <;> rfl

/-- A set that has issued a command: beyond its group only what issuing it may change has changed. -/
theorem State.commanded_commandedOnly {s u : State} {c : Cx} {i : Instr} (h : s.Acts c) (hi : irreversible i = true)
    (hu : u = { s with
      cores := u.cores, colls := u.colls, nextId := u.nextId, leases := u.leases, hostLines := u.hostLines, order := u.order }) :
    CommandedOnly i s c (u.commanded c i) := by
  have hgroups : u.groups = s.groups := by rw [hu]
  obtain ⟨v, hv, ht⟩ := State.commanded_groupOnly (s := u) hi (by rw [hgroups]; exact State.inFocus_group h.focus)
  have hclock : v.clock = s.clock := by rw [hv, hu]
  refine ⟨by rw [ht.rest, hv, hu], fun g hg => ?_, ?_, fun l hl => ?_, fun l hl => ?_⟩
  · rw [ht.others g hg, hv, hgroups]
  · rw [ht.group, ht.get]
    rfl
  · rw [ht.group]
    simp only [Cx.commandedSet, Group.withLanes]
    rw [foldl_tabMod_other _ _ _ _ hl, foldl_tabMod_other _ _ _ _ hl, foldl_tabMod_other _ _ _ _ hl]
  · have hd := h.distinct
    rw [ht.group, Cx.commandedSet, Group.withLanes_self _ hl hd (by simp only [Group.withLanes_isSome _ _ _ hd, h.slots l hl]),
      Group.withLanes_self _ hl hd (by simp only [Group.withLanes_isSome _ _ _ hd, h.slots l hl]), Group.withLanes_self _ hl hd (h.slots l hl),
      hclock]
    exact Lane.commanded_eq _ _ hi _

/-- The command `w` of the set `c` has joined the queue of its core's copy engine. -/
structure Joined (i : Instr) (s : State) (c : Cx) (w : CopyWork) (t : State) : Prop where
  commanded : CommandedOnly i s c t
  queue : (t.core (coreOf c.g)).copyq = (s.core (coreOf c.g)).copyq ++ [⟨s.nextId, s.ownerOf c i, w⟩]
  beside : ∀ k, k ≠ coreOf c.g → t.core k = s.core k

/-- A command at the end of its core's queue. -/
def State.enqueue (s : State) (core : Nat) (cmd : CopyCmd) : State :=
  { s with nextId := s.nextId + 1 }.modCore core fun k => { k with copyq := k.copyq ++ [cmd] }

theorem State.enqueue_core (s : State) (core : Nat) (cmd : CopyCmd) (j : Nat) : (s.enqueue core cmd).core j =
    if j = core then { s.core core with copyq := (s.core core).copyq ++ [cmd] } else s.core j :=
  State.core_tabSet { s with nextId := s.nextId + 1 } core _ j

theorem State.enqueue_joined {s r : State} {c : Cx} {i : Instr} (h : s.Acts c) (hi : irreversible i = true) (hr : QuietOn (coreOf c.g) s r)
    (w : CopyWork) : Joined i s c w ((r.enqueue (coreOf c.g) ⟨s.nextId, s.ownerOf c i, w⟩).commanded c i) := by
  have hcore (j : Nat) : ((r.enqueue (coreOf c.g) ⟨s.nextId, s.ownerOf c i, w⟩).commanded c i).core j =
      (r.enqueue (coreOf c.g) ⟨s.nextId, s.ownerOf c i, w⟩).core j := by
    rw [State.core, State.commanded_cores _ c hi, ← State.core]
  refine ⟨State.commanded_commandedOnly h hi ?_, ?_, fun k hk => ?_⟩
  · rw [State.enqueue, hr.rest]
    rfl
  · rw [hcore, State.enqueue_core, if_pos rfl, ← hr.copyq]
  · rw [hcore, State.enqueue_core, if_neg hk, hr.beside k hk]

theorem State.joinCopy_joined {s : State} {c : Cx} {i : Instr} (h : s.Acts c) (hi : irreversible i = true) (w : CopyWork) (record : Nat × Nat)
    (reads writes : List Piece) (hroom : (s.core (coreOf c.g)).copyq.length < Config.copyQueue) :
    ∃ t, s.joinCopy c i w record reads writes = .next t ∧ Joined i s c w t := by
  refine ⟨_, ?_, State.enqueue_joined h hi (r := ((s.touchVa c.who record.1 record.2).fillPieces c.who .load reads).fillPieces c.who .store writes)
    (((s.touchVa_quietOn c.who ..).trans (State.fillPieces_quietOn ..)).trans (State.fillPieces_quietOn ..)) w⟩
  rw [State.joinCopy, if_neg (Nat.not_le.2 hroom)]
  rfl

/-! ### CPY, CHAIN and COLL -/

theorem exec_cpy_joined {a : SField} {s : State} {c : Cx} {r : List Byte} {src dst : List Piece} (h : s.Ready (.cpy a) c)
    (hr : s.readRecord c (.cpy a) (s.upair c a).toNat 64 = .ok r) (hp : s.copySides c r = .ok (src, dst))
    (hroom : (s.core (coreOf c.g)).copyq.length < Config.copyQueue)
    (hok : copyOk r (s.ring? c.x.team (s.ownSlice c) (fld r 0x29 1)) = true) :
    ∃ t, exec (.cpy a) s = .next t ∧
      Joined (.cpy a) s c (.copy src dst (if bitAt (fld r 0x28 1) 2 then some (fld r 0x29 1) else none)) t := by
  rw [exec, execCpy, issue_ready rfl h]
  simp only [State.readSPair_eq h.toActs, hr, hp, hok, if_true]
  exact State.joinCopy_joined h.toActs rfl _ _ src dst hroom

theorem exec_chain_joined {a : SField} {s : State} {c : Cx} {r : List Byte} {src src2 dst : List Piece} (h : s.Ready (.chain a) c)
    (hr : s.readRecord c (.chain a) (s.upair c a).toNat 128 = .ok r) (hp : s.chainSides c.who r = .ok (src, src2, dst))
    (hroom : (s.core (coreOf c.g)).copyq.length < Config.copyQueue) (hok : chainOk r = true) :
    ∃ t, exec (.chain a) s = .next t ∧ Joined (.chain a) s c (.chain r src src2 dst) t := by
  rw [exec, execChain, issue_ready rfl h]
  simp only [State.readSPair_eq h.toActs, hr, hp, hok, if_true]
  exact State.joinCopy_joined h.toActs rfl _ _ (src ++ src2) dst hroom

/-- A collective that has joined those of its device. -/
def State.withColl (s : State) (q : Coll) : State := { s with nextId := s.nextId + 1, colls := tabSet s.colls s.nextId q }

theorem exec_coll_joined {a : SField} {s : State} {c : Cx} {r : List Byte} {peers src dst : List Piece} (h : s.Ready (.coll a) c)
    (hr : s.readRecord c (.coll a) (s.upair c a).toNat 64 = .ok r) (hp : s.collSides c.who r = .ok (peers, src, dst))
    (hroom : s.colls.length < 256) (hok : collOk r = true) :
    ∃ t, exec (.coll a) s = .next t ∧ CommandedOnly (.coll a) s c t ∧ tabGet t.colls s.nextId = some (s.collOf c a r peers src dst) := by
  obtain ⟨u, hu⟩ : ∃ u, u = (((s.touchVa c.who (s.upair c a).toNat 64).touchPieces (dieOf (coreOf c.g)) peers).fillPieces c.who .load
    (peers ++ src)).fillPieces c.who .store dst := ⟨_, rfl⟩
  have hq : QuietOn c.who.core s u := by
    rw [hu]
    exact (((s.touchVa_quietOn ..).trans (State.touchPieces_quietOn ..)).trans (State.fillPieces_quietOn ..)).trans (State.fillPieces_quietOn ..)
  refine ⟨(u.withColl (s.collOf c a r peers src dst)).commanded c (.coll a), ?_, State.commanded_commandedOnly h.toActs rfl ?_, ?_⟩
  · rw [exec, execColl, issue_ready rfl h]
    simp only [State.readSPair_eq h.toActs, hr, hp, hok, Bool.not_true, Bool.false_eq_true, if_false, if_neg (Nat.not_le.2 hroom), ← hu]
    rfl
  · rw [State.withColl, hq.rest]
  · rw [State.commanded_colls _ c rfl, ← hq.nextId]
    exact tabGet_tabSet_self ..

/-! ### Bytes that an engine reads -/

theorem memRead_eq_map (m : Tab Byte) (pa n : Nat) : memRead m pa n = (upto n).map fun j => memByte m (pa + j) := by
  induction n generalizing pa with
  | zero => rfl
  | succ n ih =>
    rw [memRead, ih, upto, upto, List.range_succ_eq_map, List.map_cons, List.map_map]
    exact congrArg (memByte m pa :: ·) (List.map_congr_left fun j _ => congrArg (memByte m) (Nat.add_right_comm pa 1 j))

theorem map_zip_map_self {α β γ : Type} (f : α → β) (g : β × α → γ) (l : List α) :
    ((l.map f).zip l).map g = l.map fun a => g (f a, a) := by
  induction l with
  | nil => rfl
  | cons a l ih => rw [List.map_cons, List.zip_cons_cons, List.map_cons, List.map_cons, ih]

theorem mem_of_pick {α : Type} {free : Nat} {l : List α} {a : α} (h : pick free l = some a) : a ∈ l := by
  cases l with
  | nil => cases h
  | cons b l =>
    rw [pick] at h
    split at h
    · cases h
    · exact List.mem_of_getElem? h

/-- A value with stores undone is the value, or one that a store undone has replaced. -/
theorem undone_eq_or_mem (time : Nat) (now : Byte) (past : List (Nat × Byte)) :
    undone time now past = now ∨ ∃ e ∈ past, time ≤ e.1 ∧ undone time now past = e.2 := by
  induction past generalizing now with
  | nil => exact .inl rfl
  | cons e past ih =>
    rw [undone]
    split
    · next he =>
      obtain h | ⟨d, hd, ht, h⟩ := ih e.2
      · exact .inr ⟨e, List.mem_cons_self, he, h⟩
      · exact .inr ⟨d, List.mem_cons_of_mem _ hd, ht, h⟩
    · exact .inl rfl

theorem State.lt_of_mem_moments {s : State} {l : Loc} {n since time : Nat} (h : time ∈ s.moments l n since) : since < time := by
  obtain ⟨k, -, hk⟩ := List.mem_flatMap.1 (List.mem_eraseDups.1 h)
  obtain ⟨e, he, rfl⟩ := List.mem_map.1 hk
  exact of_decide_eq_true (List.mem_takeWhile_imp (p := fun e : Nat × Byte => decide (since < e.1)) he)

/-- A byte not stored to after a moment is at any later moment as it is. -/
theorem State.undone_of_moments {s : State} {l : Loc} {since time : Nat} (h : s.moments l 1 since = []) (ht : since < time) (now : Byte) :
    undone time now (s.pastOf (l.add 0)) = now := by
  cases hp : s.pastOf (l.add 0) with
  | nil => rfl
  | cons e past =>
    rw [undone, if_neg]
    intro hle
    have hmem : e.1 ∈ s.moments l 1 since := by
      refine List.mem_eraseDups.2 (List.mem_flatMap.2 ⟨0, List.mem_range.2 Nat.one_pos, List.mem_map.2 ⟨e, ?_, rfl⟩⟩)
      rw [hp, List.takeWhile_cons, if_pos (decide_eq_true (by omega))]
      exact List.mem_cons_self
    rw [h] at hmem
    exact List.not_mem_nil hmem

/-- The moment at which an engine sees an aligned word of memory, where it is not that of now. -/
def State.engineMoment (s : State) (floor w : Nat) : Option Nat :=
  pick (s.freeWord (2 ^ 61 + 2 * w)).toNat (s.moments (.phys w) 4 floor)

/-- A byte of memory as an engine sees it (R194). -/
def State.engineByte (s : State) (floor p : Nat) : Byte :=
  match s.engineMoment floor (p - p % 4) with
  | none => memByte s.mem p
  | some t => undone t (memByte s.mem p) (tabGetD s.stored p [])

theorem State.engineByte_none {s : State} {floor p : Nat} (h : s.engineMoment floor (p - p % 4) = none) :
    s.engineByte floor p = memByte s.mem p := by
  rw [State.engineByte, h]

theorem State.engineByte_some {s : State} {floor p t : Nat} (h : s.engineMoment floor (p - p % 4) = some t) :
    s.engineByte floor p = undone t (memByte s.mem p) (tabGetD s.stored p []) := by
  rw [State.engineByte, h]

theorem State.engineByte_of_moments {s : State} {floor p : Nat} (h : s.moments (.phys p) 1 floor = []) :
    s.engineByte floor p = memByte s.mem p := by
  cases hw : s.engineMoment floor (p - p % 4) with
  | none => exact State.engineByte_none hw
  | some t =>
    rw [State.engineByte_some hw]
    exact State.undone_of_moments h (State.lt_of_mem_moments (mem_of_pick hw)) _

/-- The bytes that an engine reads of one run of memory. -/
theorem State.engineBytes_phys {s : State} {x n : Nat} (h : s.lostAt x n = false) (since : Option Nat) (va : Nat) :
    s.engineBytes since [⟨va, .phys x, n⟩] = (upto n).map fun j => s.engineByte (since.getD 0) (x + j) := by
  have hread : s.readPieces [⟨va, .phys x, n⟩] = (upto n).map fun j => memByte s.mem (x + j) := by
    rw [← memRead_eq_map]
    simp only [State.readPieces, State.lostLoc, State.readLoc, h, List.flatMap_cons, List.flatMap_nil, List.append_nil, Bool.false_eq_true, if_false]
  have hplaces : bytePlaces [⟨va, .phys x, n⟩] = (upto n).map fun j => Loc.phys (x + j) := by
    simp only [bytePlaces, List.flatMap_cons, List.flatMap_nil, List.append_nil]
    rfl
  rw [State.engineBytes, hread, hplaces]
  simp only
  split
  · next hall =>
    refine List.map_congr_left fun j hj => (State.engineByte_of_moments ?_).symm
    exact List.isEmpty_iff.1 (List.all_eq_true.1 hall _ (List.mem_map_of_mem hj))
  · rw [List.zip_map', List.map_map]
    rfl

/-- What an engine sees of a byte is the byte, or a value that a store after the moment has replaced. -/
theorem State.engineByte_cases (s : State) (floor p : Nat) :
    s.engineByte floor p = memByte s.mem p ∨ ∃ e ∈ tabGetD s.stored p [], floor < e.1 ∧ s.engineByte floor p = e.2 := by
  cases hw : s.engineMoment floor (p - p % 4) with
  | none => exact .inl (State.engineByte_none hw)
  | some t =>
    have ht := State.lt_of_mem_moments (mem_of_pick hw)
    rw [State.engineByte_some hw]
    obtain h | ⟨e, he, hle, h⟩ := undone_eq_or_mem t (memByte s.mem p) (tabGetD s.stored p [])
    · exact .inl h
    · exact .inr ⟨e, he, by omega, h⟩

/-- The bytes of an aligned word are seen at one moment. -/
theorem State.engineByte_word (s : State) (floor : Nat) {w : Nat} (h : w % 4 = 0) :
    ((upto 4).map fun j => s.engineByte floor (w + j)) = memRead s.mem w 4 ∨
      ∃ t ∈ s.moments (.phys w) 4 floor, ((upto 4).map fun j => s.engineByte floor (w + j)) = s.before (.phys w) 4 t := by
  have hword {j : Nat} (hj : j ∈ upto 4) : w + j - (w + j) % 4 = w := by
    have := List.mem_range.1 hj
    omega
  cases hw : s.engineMoment floor w with
  | none =>
    rw [memRead_eq_map]
    exact .inl (List.map_congr_left fun j hj => State.engineByte_none (by rw [hword hj, hw]))
  | some t =>
    refine .inr ⟨t, mem_of_pick hw, ?_⟩
    rw [State.before, State.readLoc, memRead_eq_map, map_zip_map_self]
    exact List.map_congr_left fun j hj => State.engineByte_some (by rw [hword hj, hw])

/-! ### Bytes that an engine writes -/

theorem memWrite_append (m : Tab Byte) (pa : Nat) (a b : List Byte) :
    memWrite m pa (a ++ b) = memWrite (memWrite m pa a) (pa + a.length) b := by
  induction a generalizing m pa with
  | nil => rfl
  | cons x a ih => rw [List.cons_append, memWrite, memWrite, ih, List.length_cons, Nat.add_assoc, Nat.add_comm 1]

theorem memWrite_take_drop (m : Tab Byte) (pa n : Nat) (bs : List Byte) :
    memWrite (memWrite m pa (bs.take n)) (pa + n) (bs.drop n) = memWrite m pa bs := by
  by_cases h : n ≤ bs.length
  · have happ := memWrite_append m pa (bs.take n) (bs.drop n)
    rw [List.take_append_drop, List.length_take_of_le h] at happ
    exact happ.symm
  · rw [List.take_of_length_le (by omega), List.drop_of_length_le (by omega)]
    rfl

/-- The bytes of a line from an address on: at least one, and a whole sector where the address begins one. -/
theorem lineBytes_rest (pa : Nat) : 0 < lineBytes pa - pa % lineBytes pa ∧ (pa + (lineBytes pa - pa % lineBytes pa)) % 64 = 0 ∧
    (pa % 64 = 0 → 64 ≤ lineBytes pa - pa % lineBytes pa) := by
  unfold lineBytes
  split <;> omega

/-- A run that begins at a sector, laid down line by line, is written whole. -/
theorem memWrites_linePieces_aligned (f : Nat) (m : Tab Byte) {pa : Nat} {bs : List Byte} (ha : pa % 64 = 0) (hf : bs.length ≤ 64 * f) :
    memWrites m (linePieces f pa bs) = memWrite m pa bs := by
  induction f generalizing m pa bs with
  | zero =>
    obtain rfl : bs = [] := List.eq_nil_of_length_eq_zero (by omega)
    rfl
  | succ f ih =>
    cases bs with
    | nil => rfl
    | cons b bs =>
      obtain ⟨-, hnext, hwhole⟩ := lineBytes_rest pa
      refine (ih _ hnext ?_).trans (memWrite_take_drop ..)
      rw [List.length_drop]
      have := hwhole ha
      omega

theorem State.storeRun_mem_eq (s : State) (agent pa : Nat) (bs : List Byte) : (s.storeRun agent pa bs).mem = memWrite s.mem pa bs := by
  rw [State.storeRun_mem]
  cases bs with
  | nil => rfl
  | cons b bs =>
    obtain ⟨hpos, hnext, -⟩ := lineBytes_rest pa
    refine (memWrites_linePieces_aligned _ _ hnext ?_).trans (memWrite_take_drop ..)
    rw [List.length_drop]
    omega

/-- One piece of memory written. -/
theorem State.writePieces_phys {s : State} {y n : Nat} (h : s.lostAt y n = false) (agent va : Nat) (bs : List Byte) :
    s.writePieces agent [⟨va, .phys y, n⟩] bs = s.storeRun agent y (bs.take n) := by
  simp only [State.writePieces, State.lostLoc, h, Bool.false_eq_true, if_false]
  rfl

/-! ### Completion -/

/-- Runs of memory that do not meet. -/
theorem hitsPieces_phys_false {x y n : Nat} (h : x + n ≤ y ∨ y + n ≤ x) (va : Nat) : hitsPieces [⟨va, .phys x, n⟩] (.phys y) n = false := by
  have hlt : ¬ (x < y + n ∧ y < x + n) := by omega
  simpa [hitsPieces, Loc.overlaps] using hlt

theorem State.copied_phys {s : State} {x y n : Nat} (hd : x + n ≤ y ∨ y + n ≤ x) (hx : s.lostAt x n = false) (since : Option Nat)
    (va vb : Nat) : s.copied since [⟨va, .phys x, n⟩] [⟨vb, .phys y, n⟩] = (upto n).map fun j => s.engineByte (since.getD 0) (x + j) := by
  rw [State.copied, if_pos, State.engineBytes_phys hx]
  rw [List.all_cons, List.all_nil, hitsPieces_phys_false hd]
  rfl

/-- The state in which a copy between runs of memory has performed. -/
theorem State.performCopy_phys {s : State} {core x y n : Nat} {o : Owner} (hd : x + n ≤ y ∨ y + n ≤ x) (hx : s.lostAt x n = false)
    (hy : s.lostAt y n = false) (va vb : Nat) :
    ∃ t, s.performCopy core o [⟨va, .phys x, n⟩] [⟨vb, .phys y, n⟩] none = some t ∧ (t.core core).copyq = (s.core core).copyq ∧
      t.mem = memWrite s.mem y ((upto n).map fun j => s.engineByte (o.async.getD 0) (x + j)) := by
  obtain ⟨u, hu⟩ : ∃ u, u = s.touchPieces (dieOf core) [⟨va, .phys x, n⟩] := ⟨_, rfl⟩
  have hq : QuietOn core s u := hu ▸ s.touchPieces_quietOn ..
  have hlost : u.lostAt y n = false := by
    rw [hq.rest]
    exact hy
  obtain ⟨bs, hbs⟩ : ∃ bs, bs = (upto n).map fun j => s.engineByte (o.async.getD 0) (x + j) := ⟨_, rfl⟩
  have hlen : bs.length = n := by rw [hbs, List.length_map, upto, List.length_range]
  refine ⟨u.storeRun (dieOf core) y bs, ?_, ?_, ?_⟩
  · rw [State.performCopy]
    simp only [State.copied_phys hd hx, ← hu, ← hbs, State.writePieces_phys hlost, List.take_of_length_le (Nat.le_of_eq hlen)]
    rfl
  · rw [← hq.copyq core, State.core, State.storeRun_storedOnly u (dieOf core) y bs]
    rfl
  · rw [State.storeRun_mem_eq, hq.rest, hbs]

theorem exec_copyCommandComplete_phys {s : State} {k x y n : Nat} {q : CopyCmd} {rest : List CopyCmd} (hq : (s.core k).copyq = q :: rest)
    (hw : q.work = .copy [⟨x, .phys x, n⟩] [⟨y, .phys y, n⟩] none) (hd : x + n ≤ y ∨ y + n ≤ x) (hx : s.lostAt x n = false)
    (hy : s.lostAt y n = false) :
    ∃ t, exec (.copyCommandComplete k) s = .next t ∧ (t.core k).copyq = rest ∧
      t.mem = memWrite s.mem y ((upto n).map fun j => s.engineByte (q.own.async.getD 0) (x + j)) := by
  obtain ⟨t, ht, hcopyq, hmem⟩ :=
    State.performCopy_phys (s := s.modCore k fun c => { c with copyq := rest }) (core := k) (o := q.own) hd hx hy x y
  refine ⟨t.ownerDone q.own, ?_, ?_, hmem⟩
  · rw [exec, execCopyCommandComplete]
    simp only [hq, hw, ht]
  · refine hcopyq.trans ?_
    rw [State.modCore, State.core_tabSet, if_pos rfl]

/-- The bytes of a run just written. -/
theorem memByte_memWrite_map {m : Tab Byte} {y n j : Nat} (f : Nat → Byte) (hj : j < n) :
    memByte (memWrite m y ((upto n).map f)) (y + j) = f j := by
  have hlen : ((upto n).map f).length = n := by rw [List.length_map, upto, List.length_range]
  rw [memByte_memWrite_inside m y _ j (by omega), List.getElem_map]
  simp only [upto, List.getElem_range]

theorem memByte_memWrite_map_outside {m : Tab Byte} {y n p : Nat} (f : Nat → Byte) (hp : ¬ (y ≤ p ∧ p < y + n)) :
    memByte (memWrite m y ((upto n).map f)) p = memByte m p := by
  have hlen : ((upto n).map f).length = n := by rw [List.length_map, upto, List.length_range]
  exact memByte_memWrite_outside _ _ _ (by omega)

theorem memRead_memWrite_map {m : Tab Byte} {y n k : Nat} (f : Nat → Byte) {l : Nat} (h : k + l ≤ n) :
    memRead (memWrite m y ((upto n).map f)) (y + k) l = (upto l).map fun j => f (k + j) := by
  rw [memRead_eq_map]
  refine List.map_congr_left fun j hj => ?_
  have := List.mem_range.1 hj
  rw [Nat.add_assoc, memByte_memWrite_map f (by omega)]

/-- What a collective writes to its DST: the result of its rank, or undefined bytes where the ranks disagree (R339, R340). -/
def State.collOut (s : State) (q : Coll) (ps : List (List Byte)) : List Byte :=
  if collsAgree q.record q.peers s.flash.device ps then
    (collResult q.record ((collSources q.record (s.engineBytes q.since q.src) ps).map (elems (elemBytes (fld q.record 2 1))))).flatMap
      (leBytes (elemBytes (fld q.record 2 1)))
  else s.freeBytes (2 ^ 54) ((q.dst.map (·.len)).foldl (· + ·) 0)

/-- A collective has completed at the set that issued it, or at the grid whose packet it was. -/
def State.collDone (s : State) (q : Coll) : State :=
  let t := match q.own with
    | some o => s.ownerDone o
    | none => s
  match q.grid with
  | some k => t.modGrid k fun gr => { gr with done := true }
  | none => t

theorem State.collDone_keeps (s : State) (q : Coll) : (s.collDone q).colls = s.colls ∧ (s.collDone q).mem = s.mem := by
  unfold State.collDone
  cases q.own <;> cases q.grid <;> exact ⟨rfl, rfl⟩

theorem exec_collectiveComplete_next {s : State} {id : Nat} {q : Coll} {ps : List (List Byte)} (hq : tabGet s.colls id = some q)
    (hfirst : ∀ e ∈ s.colls, e.1 < id → fld e.2.record 0x28 4 ≠ fld q.record 0x28 4) (hps : ps.length = fld q.record 4 2) :
    ∃ t, exec (.collectiveComplete id ps) s = .next t ∧ t.colls = tabDel s.colls id ∧
      t.mem = ((s.touchPieces (dieOf q.core) q.src).writePieces (dieOf q.core) q.dst (s.collOut q ps)).mem := by
  have hearlier : (s.colls.any fun e => decide (e.1 < id) && fld e.2.record 0x28 4 == fld q.record 0x28 4) = false := by
    refine List.any_eq_false.2 fun e he => ?_
    simp only [Bool.and_eq_true, decide_eq_true_eq, beq_iff_eq, not_and]
    exact hfirst e he
  have hlen : (ps.length != fld q.record 4 2) = false := by rw [hps, bne_self_eq_false]
  obtain ⟨v, hv⟩ : ∃ v, v = (s.touchPieces (dieOf q.core) q.src).writePieces (dieOf q.core) q.dst (s.collOut q ps) := ⟨_, rfl⟩
  obtain ⟨hcolls, hmem⟩ := ({ v with colls := tabDel s.colls id } : State).collDone_keeps q
  refine ⟨_, ?_, hcolls, by rw [hmem, hv]⟩
  rw [exec, execCollectiveComplete, hv]
  simp only [hq, hearlier, hlen, Bool.or_self, Bool.false_eq_true, if_false]
  rfl

theorem State.writePieces_collOut {s : State} {q : Coll} {y n : Nat} (ps : List (List Byte)) (hdst : q.dst = [⟨y, .phys y, n⟩])
    (hy : s.lostAt y n = false) :
    ((s.touchPieces (dieOf q.core) q.src).writePieces (dieOf q.core) q.dst (s.collOut q ps)).mem = memWrite s.mem y ((s.collOut q ps).take n) := by
  have hq := s.touchPieces_quiet (dieOf q.core) q.src
  have hlost : (s.touchPieces (dieOf q.core) q.src).lostAt y n = false := by
    rw [hq.rest]
    exact hy
  rw [hdst, State.writePieces_phys hlost, State.storeRun_mem_eq, hq.rest]

/-- Settles O33: a command joins its queue by the rules of the operations that issue it; at its completion every byte written is one that the
engine sees of the source, and the bytes of an aligned word are seen at one moment. -/
theorem copyEngine : Obligations.CopyEngine := by
  unfold Obligations.CopyEngine
  intro a s c r src src2 dst peers
  refine ⟨fun h hr hp hroom hok => ?_, fun h hr hp hroom hok => ?_, fun h hr hp hroom hok => exec_coll_joined h hr hp hroom hok, ?_, ?_⟩
  · obtain ⟨t, he, ht⟩ := exec_cpy_joined h hr hp hroom hok
    exact ⟨t, he, ht.commanded, ht.queue, ht.beside⟩
  · obtain ⟨t, he, ht⟩ := exec_chain_joined h hr hp hroom hok
    exact ⟨t, he, ht.commanded, ht.queue, ht.beside⟩
  · intro k q rest x y n hq hw hd hx hy
    obtain ⟨t, he, hrest, hmem⟩ := exec_copyCommandComplete_phys hq hw hd hx hy
    refine ⟨t, he, hrest, fun p hp => ?_, fun j hj => ?_, fun w hw hn => ?_⟩
    · rw [hmem, memByte_memWrite_map_outside _ hp]
    · rw [hmem, memByte_memWrite_map _ hj]
      exact s.engineByte_cases _ _
    · rw [hmem, memRead_memWrite_map _ (by omega)]
      simp only [← Nat.add_assoc]
      exact s.engineByte_word _ (by omega)
  · intro id q ps hq hfirst hps
    obtain ⟨t, he, hcolls, hmem⟩ := exec_collectiveComplete_next hq hfirst hps
    refine ⟨t, he, by rw [hcolls, tabGet_tabDel_self], fun y n hdst hy hagree p => ?_⟩
    rw [hmem, State.writePieces_collOut ps hdst hy, State.collOut, if_pos hagree]

end Sys2Proof.Machine

/-!
SUPPORT. Instructions that compute a register from registers, by the shape of their operands: what stands in the destination of each active lane.
-/

namespace Sys2Proof.Machine

/-! ### One word into a vector register -/

theorem Gives.mono {i : Instr} {p q : State → Cx → State → Nat → Prop} (h : Gives i p)
    (k : ∀ s c t l, s.Acts c → l ∈ c.ls → p s c t l → q s c t l) : Gives i q := fun s c hwf hr => by
  obtain ⟨t, ht, hw, hp⟩ := h s c hwf hr
  exact ⟨t, ht, hw, fun l hl => k s c t l hr.toActs hl (hp l hl)⟩

/-- An instruction whose one destination is a vector register leaves its word there. -/
theorem gives_of_alu {i : Instr} {u : Alu} {d : VField} {w : Env → List Word → Word} (hu : Instr.alu i = some u) (hd : u.dsts = v1 d)
    (hf : ∀ e ws, u.f e ws = [w e ws]) :
    Gives i fun s c t l => t.vreg c l d = w (s.env c.gr l) (u.srcs.map (s.readOpd (s.group c.g) l)) := fun s c _ h => by
  obtain ⟨t, ht, hw, hp⟩ := alu_completes hu h
  refine ⟨t, ht, hw, fun l hl => hp.vreg hl d _ ?_⟩
  rw [Alu.regs, hd, Alu.words, hf, h.toActs.group]
  exact tabGet_tabSet_self ..

theorem gives_of_vec1 {i : Instr} {d a : VField} {g : Word → Word} (hu : Instr.alu i = some (vec1 d a g)) :
    Gives i fun s c t l => t.vreg c l d = g (s.vreg c l a) :=
  gives_of_alu hu rfl fun _ _ => rfl

theorem gives_of_vec2 {i : Instr} {d a : VField} {b : BOp} {g : Word → Word → Word} (hu : Instr.alu i = some (vec2 d a b g)) :
    Gives i fun s c t l => t.vreg c l d = g (s.vreg c l a) (s.vb c l b) := by
  cases b <;> exact gives_of_alu hu rfl fun _ _ => rfl

theorem gives_of_vec3 {i : Instr} {d a : VField} {b : BOp} {g : Word → Word → Word → Word}
    (hu : Instr.alu i = some (alu3 (v1 d) (v1 a) b.v g)) :
    Gives i fun s c t l => t.vreg c l d = g (s.vreg c l a) (s.vb c l b) (s.vreg c l d) := by
  cases b <;> exact gives_of_alu hu rfl fun _ _ => rfl

/-! ### Sums and products of FP32 -/

/-- The least of two exponents is a place at which each number is a whole multiple. -/
theorem floorTo_of_le {q e : Int} (h : q ≤ e) (g : Bool) (m : Nat) :
    floorTo g m e q = (if g then -(m : Int) else m) * (2 ^ (e - q).toNat : Nat) := by
  rw [floorTo, if_pos h]

theorem Val.zero_lt_fin (g : Bool) (m : Nat) (e : Int) : (Val.fin false 0 0).lt (.fin g m e) = (!g && m != 0) := by
  have h0 : floorTo false 0 0 (min 0 e) = 0 := by rw [floorTo_of_le (Int.min_le_left ..)]; simp
  have hp : (0 : Int) < (2 ^ (e - min 0 e).toNat : Nat) := by exact_mod_cast Nat.two_pow_pos _
  simp only [Val.lt, h0, floorTo_of_le (Int.min_le_right 0 e)]
  cases g
  · rcases Nat.eq_zero_or_pos m with rfl | hm
    · simp
    · rw [decide_eq_true (mul_pos (by simpa using hm) hp)]
      simp [hm.ne']
  · exact decide_eq_false (not_lt.2 (mul_nonpos_of_nonpos_of_nonneg (by simp) hp.le))

/-- A value is above zero where it is a number that is neither negative nor zero. -/
theorem Val.zero_lt_eq (v : Val) : (Val.fin false 0 0).lt v = !(v.isNan || v.isNeg || v.isZero) := by
  match v with
  | .nan => rfl
  | .inf g => cases g <;> rfl
  | .fin g m e => rw [Val.zero_lt_fin]; cases g <;> rfl

/-- .SAT by the order of values (R358). -/
theorem satFp_eq (y : Word) : satFp y =
    if (asFp y).isNan ∨ (Val.fin false 0 0).lt (asFp y) = false then 0 else if (asFp 0x3F800000).lt (asFp y) then 0x3F800000 else y := by
  rw [satFp, Val.zero_lt_eq]
  cases (asFp y).isNan <;> cases (asFp y).isNeg <;> cases (asFp y).isZero <;> rfl

/-- Settles O9: each instruction is one exact operation and the rounding that the four share. -/
theorem floatSumsAndProducts : Obligations.FloatSumsAndProducts := by
  unfold Obligations.FloatSumsAndProducts
  intro sat m d a b zero clamp done
  have hdone : ∀ v, mouldResult sat m v = done v := fun v => by
    cases sat
    · rfl
    · exact satFp_eq _
  simp only [← hdone]
  exact ⟨gives_of_vec2 (g := fun x y => mouldResult sat m ((asFp x).add m (asFp y))) rfl,
    gives_of_vec2 (g := fun x y => mouldResult sat m ((asFp x).add m (asFp y).neg)) rfl,
    gives_of_vec2 (g := fun x y => mouldResult sat m ((asFp x).mul (asFp y))) rfl,
    gives_of_vec3 (g := fun x y z => mouldResult sat m ((asFp z).add m ((asFp x).mul (asFp y)))) rfl⟩

end Sys2Proof.Machine

/-!
PROOFS. The packed pairs, the conversions and the codebook decoder: a rounded result fits its format, and each destination register of a run
holds its word.
-/

namespace Sys2Proof.Machine

/-! ### A rounded result fits its format -/

/-- The order of a format's greatest patterns: largest finite value, infinity, canonical NaN, within exponent and mantissa. -/
abbrev Fmt.Ordered (f : Fmt) : Prop := f.maxBits ≤ f.infBits ∧ f.infBits < 2 ^ (f.ebits + f.mbits) ∧ f.nan < 2 ^ (f.ebits + f.mbits)

theorem fp32_ordered : fp32.Ordered := by decide
theorem fp16_ordered : fp16.Ordered := by decide
theorem bf16_ordered : bf16.Ordered := by decide
theorem fp8e4_ordered : fp8e4.Ordered := by decide
theorem fp8e5_ordered : fp8e5.Ordered := by decide

theorem narrowFmt_ordered (f : NarrowFmt) : (narrowFmt f).Ordered := by
  cases f
  · exact bf16_ordered
  · exact fp16_ordered
  · exact fp8e4_ordered
  · exact fp8e5_ordered

theorem Fmt.signed_lt {f : Fmt} {x : Nat} (h : x < 2 ^ (f.ebits + f.mbits)) (g : Bool) : f.signed g x < 2 ^ f.width := by
  have hw : 2 ^ f.width = 2 * 2 ^ (f.ebits + f.mbits) := by rw [Fmt.width, Nat.add_assoc, Nat.pow_add, Nat.pow_one]
  rw [Fmt.signed, hw]
  split <;> omega

theorem Fmt.getD_pack_le {f : Fmt} (hf : f.Ordered) (n : Nat) (q : Int) {x : Nat} (hx : x ≤ f.infBits) : (f.pack n q).getD x ≤ f.infBits := by
  obtain ⟨hmax, -, -⟩ := hf
  cases hp : f.pack n q with
  | none => exact hx
  | some y =>
    simp only [Fmt.pack, Option.ite_none_right_eq_some, Option.some.injEq] at hp
    exact hp.2 ▸ Nat.le_trans hp.1 hmax

theorem overflowBits_le {f : Fmt} (hf : f.Ordered) (m : RMode) (g : Bool) : overflowBits f m g ≤ f.infBits := by
  obtain ⟨hmax, -, -⟩ := hf
  cases m <;> cases g <;> first | exact Nat.le_refl _ | exact hmax

/-- A rounded number is a magnitude up to infinity under the number's own sign. -/
theorem Fmt.round_eq_signed {f : Fmt} (hf : f.Ordered) (m : RMode) {v : Val} (hv : v ≠ .nan) :
    ∃ x ≤ f.infBits, f.round m v = f.signed v.isNeg x := by
  match v with
  | .nan => exact absurd rfl hv
  | .inf g => exact ⟨_, Nat.le_refl _, rfl⟩
  | .fin g k e =>
    simp only [Fmt.round]
    split
    · exact ⟨0, Nat.zero_le _, rfl⟩
    · exact ⟨_, Fmt.getD_pack_le hf _ _ (overflowBits_le hf m g), rfl⟩

theorem Fmt.round_lt {f : Fmt} (hf : f.Ordered) (m : RMode) (v : Val) : f.round m v < 2 ^ f.width := by
  by_cases hv : v = .nan
  · subst hv
    exact Fmt.signed_lt hf.2.2 false
  · obtain ⟨x, hx, he⟩ := Fmt.round_eq_signed hf m hv
    rw [he]
    exact Fmt.signed_lt (Nat.lt_of_le_of_lt hx hf.2.1) _

theorem Fmt.roundSr_lt {f : Fmt} (hf : f.Ordered) (r : Nat) (v : Val) : f.roundSr r v < 2 ^ f.width := by
  have hinf : ∀ (g : Bool) (x : Nat), x ≤ f.infBits → f.signed g x < 2 ^ f.width := fun g x hx =>
    Fmt.signed_lt (Nat.lt_of_le_of_lt hx hf.2.1) g
  match v with
  | .nan => exact Fmt.signed_lt hf.2.2 false
  | .inf g => exact hinf g _ (Nat.le_refl _)
  | .fin g k e =>
    simp only [Fmt.roundSr]
    split
    · exact hinf g 0 (Nat.zero_le _)
    · exact hinf g _ (Fmt.getD_pack_le hf _ _ (Nat.le_refl _))

theorem narrowFmt_width_le (f : NarrowFmt) : 2 ^ (narrowFmt f).width ≤ 2 ^ 32 := by cases f <;> decide

/-- A result of a format no wider than a word, as a word. -/
theorem toNat_w32 {x n : Nat} (h : x < n) (hn : n ≤ 2 ^ 32) : (w32 x).toNat = x :=
  (BitVec.toNat_ofNat ..).trans (Nat.mod_eq_of_lt (Nat.lt_of_lt_of_le h hn))

theorem toNat_toFp (m : RMode) (v : Val) : (toFp m v).toNat = fp32.round m v :=
  toNat_w32 (Fmt.round_lt fp32_ordered m v) (Nat.le_refl _)

/-! ### Packed pairs -/

theorem half_w32_pair {x y : Nat} (hx : x < 2 ^ 16) (hy : y < 2 ^ 16) :
    half (w32 (x + 2 ^ 16 * y)) 0 = x ∧ half (w32 (x + 2 ^ 16 * y)) 1 = y := by
  have hn : (w32 (x + 2 ^ 16 * y)).toNat = x + 2 ^ 16 * y := toNat_w32 (n := 2 ^ 32) (by omega) (Nat.le_refl _)
  simp only [half, hn]
  omega

theorem packFmt_ordered (bf : Bool) : (packFmt bf).Ordered := by
  cases bf
  · exact fp16_ordered
  · exact bf16_ordered

theorem half_packed (bf : Bool) (g : Nat → Val) {e : Nat} (he : e < 2) :
    half (packed (packFmt bf) g) e = (packFmt bf).round .rne (g e) := by
  have hlt : ∀ v, (packFmt bf).round .rne v < 2 ^ 16 := fun v => by
    have h := Fmt.round_lt (packFmt_ordered bf) .rne v
    cases bf <;> exact h
  obtain ⟨h0, h1⟩ := half_w32_pair (hlt (g 0)) (hlt (g 1))
  match e, he with
  | 0, _ => exact h0
  | 1, _ => exact h1

/-! ### FCVT -/

theorem roundClamp_mem (m : RMode) {lo hi : Int} (hlo : lo ≤ 0) (hhi : 0 ≤ hi) (v : Val) :
    lo ≤ roundClamp m lo hi v ∧ roundClamp m lo hi v ≤ hi := by
  match v with
  | .nan => exact ⟨hlo, hhi⟩
  | .inf g => cases g <;> simp only [roundClamp, if_true, Bool.false_eq_true, if_false] <;> omega
  | .fin g k e => simp only [roundClamp]; omega

theorem toInt_ofInt_roundClamp (m : RMode) {lo hi : Int} (hlo : -2 ^ 31 ≤ lo) (h0 : lo ≤ 0) (h1 : 0 ≤ hi) (hhi : hi < 2 ^ 31) (v : Val) :
    (BitVec.ofInt 32 (roundClamp m lo hi v)).toInt = roundClamp m lo hi v := by
  obtain ⟨hl, hh⟩ := roundClamp_mem m h0 h1 v
  exact BitVec.toInt_ofInt_eq_self (by decide) (by omega) (by omega)

/-- A value rounded to a whole number other than zero keeps its sign. -/
theorem roundInt_neg {m : RMode} {g : Bool} {k : Nat} {e : Int} (h : roundInt m g k e ≠ 0) : decide (roundInt m g k e < 0) = g := by
  obtain ⟨n, hn⟩ : ∃ n : Nat, roundInt m g k e = if g then -(n : Int) else n := ⟨_, rfl⟩
  rw [hn] at h ⊢
  cases g
  · simp
  · have hn : -(n : Int) ≠ 0 := h
    simp only [if_true, decide_eq_true_eq]
    omega

theorem rintW_fin {m : RMode} {x : Word} {g : Bool} {k : Nat} {e : Int} (h : asFp x = .fin g k e) :
    rintW m x = w32 (fp32.round .rne (.fin g (roundInt m g k e).natAbs 0)) := by
  simp only [rintW, h]
  split
  · next h0 => rw [h0]; rfl
  · next h0 => rw [Val.ofInt, roundInt_neg h0]; rfl

/-! ### Registers of a run -/

/-- Of registers written in order and none of them twice, each holds its own word. -/
theorem Lane.takes_regs_get {y : Lane} {rs : List PReg} {ws : List Word} (hd : rs.Nodup) {j n : Nat} {w : Word} (hr : rs[j]? = some (.v n))
    (hw : ws[j]? = some w) : tabGet (y.takes rs ws).regs n = some w := by
  induction rs generalizing y ws j with
  | nil => cases hr
  | cons r rs ih =>
    rw [List.nodup_cons] at hd
    cases ws with
    | nil => cases hw
    | cons v ws =>
      cases j with
      | zero =>
        rw [List.getElem?_cons_zero, Option.some.injEq] at hr hw
        subst hr hw
        rw [Lane.takes, Lane.takes_regs_other _ _ _ _ hd.1]
        exact tabGet_tabSet_self ..
      | succ j => exact ih hd.2 hr hw

theorem Wrote.readOpd {s t : State} {c : Cx} {rs : Nat → List PReg} {ws : Nat → List Word} {n l : Nat} (h : Wrote s c rs ws n t)
    (hl : l ∈ c.ls) {f : Nat} {w : Word} (hw : tabGet ((c.x.lane l).takes (rs l) (ws l)).regs ((c.x.lane l).arch f) = some w) :
    t.readOpd (t.group c.g) l (.v f) = w := by
  have hr : tabGet ((t.group c.g).lane l).regs (((t.group c.g).lane l).arch f) = some w := by
    rw [h.arch hl, h.lane l hl]
    simpa using hw
  simp [State.readOpd, Opd.reg, State.readReg, hr]

/-! ### VQDEC -/

theorem popcount_eq_countP (n x : Nat) : popcount n x = (List.range n).countP fun k => x.testBit k := by
  induction n generalizing x with
  | zero => rfl
  | succ n ih =>
    rw [popcount, ih, List.range_succ_eq_map, List.countP_cons, List.countP_map, Nat.add_comm]
    congr 1
    · exact List.countP_congr fun k _ => by simp [Nat.testBit_succ]
    · rw [Nat.testBit_zero]
      rcases Nat.mod_two_eq_zero_or_one x with h | h <;> simp [h]

theorem bitAt_eq_testBit (x k : Nat) : bitAt x k = x.testBit k := by
  rw [Nat.testBit_eq_decide_div_mod_eq]
  rfl

/-- The weight in place `k` of a VQ2 index, as R144 gives it from the entry and the signs. -/
theorem vq2Weights_get (table : List (BitVec 16)) {x k : Nat} (hx : x < 2 ^ 16) (hk : k < 8) :
    (vq2Weights table x)[k]? = some (.fin
      (if k < 7 then x.testBit k else ((List.range 7).countP fun j => x.testBit j) % 2 == 1)
      (2 * (((table[x / 2 ^ 7]?).getD 0).toNat / 4 ^ k % 4) + 1) (-1)) := by
  have hentry : bits x 7 9 = x / 2 ^ 7 := Nat.mod_eq_of_lt (by omega)
  have hsigns : popcount 7 (bits x 0 7) = (List.range 7).countP fun j => x.testBit j := by
    rw [popcount_eq_countP]
    refine List.countP_congr fun j hj => ?_
    have hj : j < 7 := List.mem_range.1 hj
    rw [bits, Nat.pow_zero, Nat.div_one, Nat.testBit_mod_two_pow, decide_eq_true hj, Bool.true_and]
  have hpow : ∀ e, bits e (2 * k) 2 = e / 4 ^ k % 4 := fun e => by rw [bits, Nat.pow_mul]; rfl
  simp only [vq2Weights, upto, hentry, hsigns, bitAt_eq_testBit]
  rw [List.getElem?_map, List.getElem?_range hk, Option.map_some, hpow]

/-- The four words of VQDEC hold the eight weights, two to a word. -/
theorem vqdecW_get (table : List (BitVec 16)) (a : Word) {k : Nat} (hk : k < 8) {v : Val} (hv : (vq2Weights table (half a 0))[k]? = some v) :
    ∃ w, (vqdecW table a)[k / 2]? = some w ∧ half w (k % 2) = bf16.round .rne v := by
  have ha : bits a.toNat 0 16 = half a 0 := rfl
  refine ⟨_, by simp only [vqdecW, upto, ha]; rw [List.getElem?_map, List.getElem?_range (by omega)]; rfl, ?_⟩
  have hlt : ∀ j, (((vq2Weights table (half a 0)).map fun v => bf16.round .rne v).getD j 0) < 2 ^ 16 := fun j => by
    rw [List.getD_eq_getElem?_getD, List.getElem?_map]
    cases (vq2Weights table (half a 0))[j]? with
    | none => exact Nat.two_pow_pos 16
    | some v => exact Fmt.round_lt bf16_ordered .rne v
  have hget : ((vq2Weights table (half a 0)).map fun v => bf16.round .rne v).getD k 0 = bf16.round .rne v := by
    rw [List.getD_eq_getElem?_getD, List.getElem?_map, hv]
    rfl
  obtain ⟨h0, h1⟩ := half_w32_pair (hlt (2 * (k / 2))) (hlt (2 * (k / 2) + 1))
  rcases Nat.mod_two_eq_zero_or_one k with h | h
  · rw [h, h0, ← hget, show 2 * (k / 2) = k by omega]
  · rw [h, h1, ← hget, show 2 * (k / 2) + 1 = k by omega]

theorem exec_vqdec_gives (n : BitVec 2) (d a : VField) : Gives (.vqdec n d a) fun s c t l =>
    ∀ k < 4, ∀ w, (vqdecW ((s.ctx c.gr.ctx).lattice.getD n.toNat []) (s.vreg c l a))[k]? = some w →
      t.readOpd (t.group c.g) l (.v (d.toNat + k)) = w := fun s c hwf h => by
  obtain ⟨t, ht, hw, hp⟩ := alu_completes (u := vqdecAlu n d a) rfl h
  have hx := h.toActs.group
  refine ⟨t, ht, hw, fun l hl k hk w hkw => hp.readOpd hl (Lane.takes_regs_get (nodup_quad _ (beq_iff_eq.1 hwf)) (j := k) ?_ ?_)⟩
  · match k, hk with
    | 0, _ | 1, _ | 2, _ | 3, _ => rfl
  · rw [← hkw, State.vreg, hx]
    rfl

/-- Settles O12: the packed pairs and conversions by the shape of their results, VQDEC by the words of its run of registers. -/
theorem packedPairsAndConversions : Obligations.PackedPairsAndConversions := by
  unfold Obligations.PackedPairsAndConversions
  intro bf m f n d a b
  have hnarrow : ∀ {x : Nat}, x < 2 ^ (narrowFmt f).width → (w32 x).toNat = x := fun hx => toNat_w32 hx (narrowFmt_width_le f)
  refine ⟨?_, ?_, ?_, fun sel => ?_, ?_, ?_⟩
  · exact (gives_of_vec2 rfl).mono fun s c t l _ _ ht e he => by rw [ht]; exact half_packed bf _ he
  · exact (gives_of_vec2 rfl).mono fun s c t l _ _ ht e he => by rw [ht]; exact half_packed bf _ he
  · exact (gives_of_vec3 rfl).mono fun s c t l _ _ ht e he => by rw [ht]; exact half_packed bf _ he
  · refine (gives_of_vec1 (g := fcvtW m sel) rfl).mono fun s c t l _ _ ht => ?_
    have hlow : ∀ w k, bits w 0 k = w % 2 ^ k := fun w k => by rw [bits, Nat.pow_zero, Nat.div_one]
    simp only [ht]
    cases sel with
    | toFp16 => exact toNat_w32 (Fmt.round_lt fp16_ordered ..) (by decide)
    | toBf16 => exact toNat_w32 (Fmt.round_lt bf16_ordered ..) (by decide)
    | toFp8e4 => exact toNat_w32 (Fmt.round_lt fp8e4_ordered ..) (by decide)
    | toFp8e5 => exact toNat_w32 (Fmt.round_lt fp8e5_ordered ..) (by decide)
    | fromFp16 | fromBf16 | fromFp8e4 | fromFp8e5 => exact (toNat_toFp ..).trans (by rw [hlow])
    | toInt32 | toInt8 | toUint8 => exact toInt_ofInt_roundClamp m (by decide) (by decide) (by decide) (by decide) _
    | fromInt32 | fromUint32 => exact toNat_toFp ..
    | rint =>
      show match asFp (s.vreg c l a) with
        | .nan => rintW m (s.vreg c l a) = 0x7FC00000
        | .inf _ => rintW m (s.vreg c l a) = s.vreg c l a
        | .fin g k e => asFp (rintW m (s.vreg c l a)) = asFp (w32 (fp32.round .rne (.fin g (roundInt m g k e).natAbs 0)))
      split
      · next hv => rw [rintW, hv]; rfl
      · next hv => rw [rintW, hv]
      · next hv => rw [rintW_fin hv]
  · have hfcvts := gives_of_alu (i := .fcvts f d a b) (d := d)
      (w := fun e ws => fcvtsW (narrowFmt f) e.seed (opn ws 0) (opn ws 1) (opn ws 2)) rfl rfl fun _ _ => rfl
    refine hfcvts.mono fun s c t l ha _ ht => ?_
    have hsrcs : t.vreg c l d = fcvtsW (narrowFmt f) c.gr.pkt.seed (s.vreg c l a) (s.vb c l b) (tabGetD (c.x.lane l).regs 1053 0) := by
      rw [ht, ← ha.group]
      cases b <;> rfl
    simp only [hsrcs, fcvtsW]
    split
    · exact hnarrow (Fmt.round_lt (narrowFmt_ordered f) ..)
    · exact hnarrow (Fmt.roundSr_lt (narrowFmt_ordered f) ..)
  · refine (exec_vqdec_gives n d a).mono fun s c t l _ _ ht => fun k hk => ?_
    have hx : half (s.vreg c l a) 0 < 2 ^ 16 := Nat.mod_lt _ (Nat.two_pow_pos 16)
    obtain ⟨w, hw, hhalf⟩ := vqdecW_get _ (s.vreg c l a) hk (vq2Weights_get _ hx hk)
    rw [ht (k / 2) (by omega) w hw, hhalf]

end Sys2Proof.Machine

/-!
SUPPORT. FP32 words: the value of a word by its magnitude bits, and the order of values as the order of those bits.
-/

namespace Sys2Proof.Machine

/-! ### The value of a word -/

/-- The exponent field of magnitude bits, a subnormal's counted as one. -/
def fpExpo (x : Nat) : Nat := max (x / 2 ^ 23) 1

/-- The significand of magnitude bits, the hidden bit of a normal number included. -/
def fpMant (x : Nat) : Nat := x - (fpExpo x - 1) * 2 ^ 23

theorem fpMant_spec (x : Nat) : fpMant x + (fpExpo x - 1) * 2 ^ 23 = x ∧ fpMant x < 2 ^ 24 ∧ 1 ≤ fpExpo x ∧ (1 < fpExpo x → 2 ^ 23 ≤ fpMant x) := by
  unfold fpMant fpExpo
  omega

/-- The value that a sign and magnitude bits stand for (R142, Table 6.1). -/
theorem fp32_decode_signed (g : Bool) {x : Nat} (hx : x < 2 ^ 31) : fp32.decode (fp32.signed g x) =
    if x < 0x7F800000 then .fin g (fpMant x) ((fpExpo x : Int) - 150) else if x = 0x7F800000 then .inf g else .nan := by
  obtain ⟨n, hn⟩ : ∃ n, n = fp32.signed g x := ⟨_, rfl⟩
  have hsum : n = if g then x + 2 ^ 31 else x := hn
  have hs : bitAt n 31 = g := by
    cases g <;> simp only [bitAt, hsum, if_true, Bool.false_eq_true, if_false, beq_iff_eq, beq_eq_false_iff_ne] <;> omega
  have he : bits n 23 8 = x / 2 ^ 23 := by
    cases g <;> simp only [bits, hsum, if_true, Bool.false_eq_true, if_false] <;> omega
  have hm : bits n 0 23 = x % 2 ^ 23 := by
    cases g <;> simp only [bits, hsum, if_true, Bool.false_eq_true, if_false] <;> omega
  have hd : fp32.decode n = if x / 2 ^ 23 = 255 then (if x % 2 ^ 23 = 0 then .inf g else .nan) else
      if x / 2 ^ 23 = 0 then .fin g (x % 2 ^ 23) (-149) else .fin g (x % 2 ^ 23 + 2 ^ 23) (((x / 2 ^ 23 : Nat) : Int) - 150) := by
    simp [Fmt.decode, fp32, hs, he, hm, Int.sub_sub]
  rw [← hn, hd]
  obtain ⟨hparts, hmant, -, -⟩ := fpMant_spec x
  have hE : fpExpo x = max (x / 2 ^ 23) 1 := rfl
  by_cases h255 : x / 2 ^ 23 = 255
  · rw [if_pos h255, if_neg (show ¬ x < 0x7F800000 by omega)]
    exact if_congr (by omega) rfl rfl
  · rw [if_neg h255, if_pos (show x < 0x7F800000 by omega)]
    by_cases h0 : x / 2 ^ 23 = 0
    · rw [if_pos h0, show fpExpo x = 1 by omega, show fpMant x = x % 2 ^ 23 by omega]
      rfl
    · rw [if_neg h0, show fpExpo x = x / 2 ^ 23 by omega, show fpMant x = x % 2 ^ 23 + 2 ^ 23 by omega]

theorem asFp_eq (w : Word) : asFp w =
    if w.toNat % 2 ^ 31 < 0x7F800000 then .fin w.msb (fpMant (w.toNat % 2 ^ 31)) ((fpExpo (w.toNat % 2 ^ 31) : Int) - 150)
    else if w.toNat % 2 ^ 31 = 0x7F800000 then .inf w.msb else .nan := by
  have hw : w.toNat = fp32.signed w.msb (w.toNat % 2 ^ 31) := by
    have hlt := w.isLt
    rw [BitVec.msb_eq_decide]
    simp only [Fmt.signed, fp32, decide_eq_true_eq]
    split <;> omega
  rw [← fp32_decode_signed _ (Nat.mod_lt _ (by decide)), ← hw]
  rfl

theorem asFp_eq_nan_iff (w : Word) : asFp w = .nan ↔ 0x7F800000 < w.toNat % 2 ^ 31 := by
  rw [asFp_eq]
  split
  · exact iff_of_false nofun (by omega)
  · split
    · exact iff_of_false nofun (by omega)
    · exact iff_of_true rfl (by omega)

theorem eq_of_asFp_inf {w : Word} {g : Bool} (h : asFp w = .inf g) : w.toNat % 2 ^ 31 = 0x7F800000 ∧ w.msb = g := by
  rw [asFp_eq] at h
  split at h
  · cases h
  · split at h
    · next he => exact ⟨he, Val.inf.inj h⟩
    · cases h

/-! ### The order of words that are not negative -/

theorem Val.lt_fin_pos {m n : Nat} {e f q : Int} (he : q ≤ e) (hf : q ≤ f) (hq : q = min e f) :
    (Val.fin false m e).lt (.fin false n f) = decide (m * 2 ^ (e - q).toNat < n * 2 ^ (f - q).toNat) := by
  simp only [Val.lt, ← hq, floorTo_of_le he, floorTo_of_le hf, Bool.false_eq_true, if_false, decide_eq_decide]
  exact_mod_cast Iff.rfl

theorem fp32_lt_iff {x y : Nat} (hx : x < 0x7F800000) (hy : y < 0x7F800000) :
    (Val.fin false (fpMant x) ((fpExpo x : Int) - 150)).lt (.fin false (fpMant y) ((fpExpo y : Int) - 150)) = decide (x < y) := by
  obtain ⟨hsx, hx24, hx1, hxn⟩ := fpMant_spec x
  obtain ⟨hsy, hy24, hy1, hyn⟩ := fpMant_spec y
  have hgrow : ∀ (m : Nat) {k : Nat}, 0 < k → 2 ^ 23 ≤ m → 2 ^ 24 ≤ m * 2 ^ k := fun m k hk hm => by
    have h2 : 2 ^ 1 ≤ 2 ^ k := Nat.pow_le_pow_right (by decide) hk
    calc 2 ^ 24 = 2 ^ 23 * 2 ^ 1 := by decide
      _ ≤ m * 2 ^ k := Nat.mul_le_mul hm h2
  rcases Nat.lt_trichotomy (fpExpo x) (fpExpo y) with h | h | h
  · rw [Val.lt_fin_pos (q := (fpExpo x : Int) - 150) (Int.le_refl _) (by omega) (by omega), decide_eq_decide, Int.sub_self]
    have := hgrow (fpMant y) (k := ((fpExpo y : Int) - 150 - ((fpExpo x : Int) - 150)).toNat) (by omega) (hyn (by omega))
    exact iff_of_true (by rw [Int.toNat_zero, Nat.pow_zero]; omega) (by omega)
  · rw [h, Val.lt_fin_pos (Int.le_refl _) (Int.le_refl _) (Int.min_self _).symm, decide_eq_decide, Int.sub_self, Int.toNat_zero, Nat.pow_zero]
    rw [h] at hsx
    omega
  · rw [Val.lt_fin_pos (q := (fpExpo y : Int) - 150) (by omega) (Int.le_refl _) (by omega), decide_eq_decide, Int.sub_self]
    have := hgrow (fpMant x) (k := ((fpExpo x : Int) - 150 - ((fpExpo y : Int) - 150)).toNat) (by omega) (hxn (by omega))
    exact iff_of_false (by rw [Int.toNat_zero, Nat.pow_zero]; omega) (by omega)

/-- Numbers and infinity, none of them negative, rank as their bits do. -/
theorem asFp_lt_iff {a b : Word} (ha : a.toNat ≤ 0x7F800000) (hb : b.toNat ≤ 0x7F800000) :
    (asFp a).lt (asFp b) = decide (a.toNat < b.toNat) := by
  have hval : ∀ {w : Word}, w.toNat ≤ 0x7F800000 → asFp w =
      if w.toNat < 0x7F800000 then .fin false (fpMant w.toNat) ((fpExpo w.toNat : Int) - 150) else .inf false := fun {w} hw => by
    rw [asFp_eq, Nat.mod_eq_of_lt (by omega), BitVec.msb_eq_decide, show decide (2 ^ (32 - 1) ≤ w.toNat) = false from decide_eq_false (by omega)]
    split
    · rfl
    · rw [if_pos (by omega)]
  rw [hval ha, hval hb]
  by_cases ha' : a.toNat < 0x7F800000
  · by_cases hb' : b.toNat < 0x7F800000
    · rw [if_pos ha', if_pos hb']
      exact fp32_lt_iff ha' hb'
    · rw [if_pos ha', if_neg hb']
      exact (decide_eq_true (by omega)).symm
  · rw [if_neg ha']
    refine Eq.trans ?_ (decide_eq_false (by omega)).symm
    split <;> rfl

end Sys2Proof.Machine

/-!
PROOFS. The special functions: numbers that FP32 holds come back from their words, powers of two go through reciprocal, square root, logarithm
and exponential unrounded.
-/

namespace Sys2Proof.Machine

/-! ### Numbers that FP32 holds -/

/-- A count of grid steps that is normal, or stands on the least grid, packs to the bits of that number. -/
theorem fp32_pack_canonical {n : Nat} {q : Int} (hn : n < 2 ^ 24) (hq : -149 ≤ q) (hq' : q ≤ 104) (hc : 2 ^ 23 ≤ n ∨ q = -149) :
    ∃ x < 0x7F800000, fp32.pack n q = some x ∧ fpMant x = n ∧ (fpExpo x : Int) - 150 = q := by
  have hpack : ∀ x, (if n < 2 ^ 23 then n else (q + 23 + 127).toNat * 2 ^ 23 + (n - 2 ^ 23)) = x → x < 0x7F800000 → fp32.pack n q = some x :=
      fun x hx hlt => by
    have hmax : fp32.maxBits = 0x7F7FFFFF := rfl
    simp only [Fmt.pack, hmax, show fp32.mbits = 23 from rfl, show fp32.bias = 127 from rfl]
    rw [if_neg (show ¬ 2 ^ (23 + 1) ≤ n by omega)]
    simp only [Nat.cast_ofNat]
    rw [hx, if_pos (by omega)]
  by_cases h : n < 2 ^ 23
  · refine ⟨n, by omega, hpack n (if_pos h) (by omega), ?_⟩
    have hE : fpExpo n = 1 := by unfold fpExpo; omega
    rw [fpMant, hE]
    omega
  · obtain ⟨E, hE⟩ : ∃ E : Nat, E = (q + 23 + 127).toNat := ⟨_, rfl⟩
    refine ⟨E * 2 ^ 23 + (n - 2 ^ 23), by omega, hpack _ (by rw [if_neg h, hE]) (by omega), ?_⟩
    have hx : fpExpo (E * 2 ^ 23 + (n - 2 ^ 23)) = E := by unfold fpExpo; omega
    rw [fpMant, hx]
    omega

/-- A number on its own grid is its word's value, whatever the mode. -/
theorem asFp_round_of_exact {mode : RMode} {g : Bool} {m n sh : Nat} {e q : Int} (hm : m ≠ 0) (hq : fp32.spacing m e = q)
    (hs : splitAt m e q = (n, 0, sh)) (hn : n < 2 ^ 24) (hlo : -149 ≤ q) (hhi : q ≤ 104) (hc : 2 ^ 23 ≤ n ∨ q = -149) :
    asFp (w32 (fp32.round mode (.fin g m e))) = .fin g n q := by
  obtain ⟨x, hx, hp, hmant, hexpo⟩ := fp32_pack_canonical hn hlo hhi hc
  have hr : fp32.round mode (.fin g m e) = fp32.signed g x := by
    simp only [Fmt.round, if_neg hm, hq, hs, takesHi, if_true, Bool.false_eq_true, if_false, hp, Option.getD_some]
  rw [asFp, toNat_w32 (Fmt.round_lt fp32_ordered ..) (Nat.le_refl _), hr, fp32_decode_signed g (by omega), if_pos hx, hmant, hexpo]

/-! ### Powers of two -/

/-- A power of two over a grid that it lies on. -/
theorem splitAt_two_pow {a : Nat} {e j q : Int} (hj : (a : Int) + e = j) (hq : q ≤ j) : ∃ sh, splitAt (2 ^ a) e q = (2 ^ (j - q).toNat, 0, sh) := by
  unfold splitAt
  split
  · next h => exact ⟨0, by rw [← Nat.pow_add]; congr 2; omega⟩
  · next h =>
    have hle : (q - e).toNat ≤ a := by omega
    refine ⟨(q - e).toNat, ?_⟩
    simp only
    rw [Nat.pow_div hle (by decide), Nat.mod_eq_zero_of_dvd (Nat.pow_dvd_pow 2 hle), show a - (q - e).toNat = (j - q).toNat by omega]

theorem log2Of_two_pow {a : Nat} {e j : Int} (hj : (a : Int) + e = j) : log2Of (2 ^ a) e = j := by rw [log2Of, Nat.log2_two_pow, hj]

theorem fp32_spacing_two_pow {a : Nat} {e j : Int} (hj : (a : Int) + e = j) : fp32.spacing (2 ^ a) e = max (j - 23) (-149) := by
  rw [Fmt.spacing, log2Of_two_pow hj]
  rfl

/-- The word of a power of two. -/
def pow2W (j : Int) : Word := w32 (fp32.round .rne (.fin false 1 j))

/-- A power of two rounds alike however it is written. -/
theorem toFp_two_pow {a : Nat} {e j : Int} (hj : (a : Int) + e = j) (h : -149 ≤ j) : toFp .rne (.fin false (2 ^ a) e) = pow2W j := by
  have hr : ∀ {b : Nat} {f : Int}, (b : Int) + f = j → fp32.round .rne (.fin false (2 ^ b) f) =
      ((fp32.pack (2 ^ (j - max (j - 23) (-149)).toNat) (max (j - 23) (-149))).getD fp32.infBits) := fun {b f} hb => by
    obtain ⟨sh, hs⟩ := splitAt_two_pow (q := max (j - 23) (-149)) hb (by omega)
    simp only [Fmt.round, if_neg (Nat.two_pow_pos b).ne', fp32_spacing_two_pow hb, hs, takesHi, if_true, Bool.false_eq_true, if_false,
      Fmt.signed, overflowBits]
  rw [toFp, pow2W, hr hj, ← hr (b := 0) (f := j) (by omega), Nat.pow_zero]

/-- The value of the word of a power of two that FP32 holds. -/
theorem asFp_pow2W {j : Int} (hlo : -149 ≤ j) (hhi : j ≤ 127) : ∃ (a : Nat) (e : Int), asFp (pow2W j) = .fin false (2 ^ a) e ∧ (a : Int) + e = j ∧
    a ≤ 23 := by
  obtain ⟨sh, hs⟩ := splitAt_two_pow (a := 0) (e := j) (j := j) (q := max (j - 23) (-149)) (by omega) (by omega)
  refine ⟨(j - max (j - 23) (-149)).toNat, max (j - 23) (-149), asFp_round_of_exact (by decide) (fp32_spacing_two_pow (a := 0) (by omega)) hs
    (Nat.pow_lt_pow_right (by decide) (by omega)) (by omega) (by omega) ?_, by omega, by omega⟩
  rcases Int.le_total (j - 23) (-149) with h | h
  · exact .inr (by omega)
  · exact .inl (Nat.pow_le_pow_right (by decide) (by omega))

theorem pow2_ne_zero (a : Nat) : 2 ^ a ≠ 0 := (Nat.two_pow_pos a).ne'

/-- A result that a truncating function finds exactly. -/
theorem stickyVal_exact (a : Nat) (e : Int) : stickyVal false (2 ^ a) true e = .fin false (2 ^ (a + 1)) (e - 1) := by
  rw [stickyVal, if_pos rfl, Nat.add_zero, Nat.pow_succ, Nat.mul_comm]

/-! ### Reciprocal, square roots, logarithm -/

theorem frcpW_pow2W {j : Int} (hlo : -149 ≤ j) (hhi : j ≤ 127) : frcpW (pow2W j) = pow2W (-j) := by
  obtain ⟨a, e, hv, hj, -⟩ := asFp_pow2W hlo hhi
  have hrec : recipVal false (2 ^ a) e = .fin false (2 ^ (64 + 1)) (-((a + 64 : Nat) : Int) - e - 1) := by
    rw [recipVal, Nat.log2_two_pow, Nat.pow_div (Nat.le_add_right a 64) (by decide), Nat.mod_eq_zero_of_dvd (Nat.pow_dvd_pow 2 (Nat.le_add_right a 64)),
      Nat.add_sub_cancel_left]
    exact stickyVal_exact 64 _
  simp only [frcpW, hv, if_neg (pow2_ne_zero a), hrec]
  exact toFp_two_pow (by omega) (by omega)

/-- The square root of a square, of which `k` bits are left to find. -/
theorem isqrt_square {k r x : Nat} (hr : r ≤ x) (hx : x < r + 2 ^ k) : isqrt k (x * x) r = x := by
  induction k generalizing r with
  | zero => exact Nat.le_antisymm hr (Nat.lt_succ_iff.1 hx)
  | succ k ih =>
    rw [isqrt]
    have hsplit : 2 ^ (k + 1) = 2 ^ k + 2 ^ k := by rw [Nat.pow_succ]; omega
    by_cases h : r + 2 ^ k ≤ x
    · rw [if_pos (Nat.mul_le_mul h h)]
      exact ih h (by omega)
    · rw [if_neg fun hs => h (Nat.mul_self_le_mul_self_iff.1 hs)]
      exact ih hr (by omega)

/-- An even power of two, with its significand made a square. -/
theorem evenPow2 {a : Nat} {e i : Int} (hj : (a : Int) + e = 2 * i) (ha : a ≤ 23) : ∃ b : Nat, b ≤ 12 ∧
    (if e % 2 = 0 then (2 ^ a, e) else (2 * 2 ^ a, e - 1)) = (2 ^ (2 * b), 2 * (i - b)) := by
  split
  · exact ⟨a / 2, by omega, by rw [show 2 * (a / 2) = a by omega, show 2 * (i - ((a / 2 : Nat) : Int)) = e by omega]⟩
  · refine ⟨(a + 1) / 2, by omega, ?_⟩
    rw [show 2 * ((a + 1) / 2) = a + 1 by omega, show 2 * (i - (((a + 1) / 2 : Nat) : Int)) = e - 1 by omega, Nat.pow_succ, Nat.mul_comm]

theorem sqrtVal_of_even {m n : Nat} {e f : Int} (h : (if e % 2 = 0 then (m, e) else (2 * m, e - 1)) = (n, f)) :
    sqrtVal m e = stickyVal false (isqrt 48 (n * 2 ^ 64) 0) (isqrt 48 (n * 2 ^ 64) 0 * isqrt 48 (n * 2 ^ 64) 0 == n * 2 ^ 64) (f / 2 - 32) := by
  unfold sqrtVal
  rw [h]

theorem rsqrtVal_of_even {m n : Nat} {e f : Int} (h : (if e % 2 = 0 then (m, e) else (2 * m, e - 1)) = (n, f)) :
    rsqrtVal m e = stickyVal false (isqrt 60 (2 ^ 112 / n) 0) (isqrt 60 (2 ^ 112 / n) 0 * isqrt 60 (2 ^ 112 / n) 0 * n == 2 ^ 112)
      (-(f / 2) - 56) := by
  unfold rsqrtVal
  rw [h]

theorem sqrtVal_pow2 {a : Nat} {e i : Int} (hj : (a : Int) + e = 2 * i) (ha : a ≤ 23) :
    ∃ (b : Nat) (f : Int), sqrtVal (2 ^ a) e = .fin false (2 ^ b) f ∧ (b : Int) + f = i := by
  obtain ⟨b, hb, he⟩ := evenPow2 hj ha
  have hsq : 2 ^ (2 * b) * 2 ^ 64 = 2 ^ (b + 32) * 2 ^ (b + 32) := by rw [← Nat.pow_add, ← Nat.pow_add]; congr 1; omega
  have hroot : isqrt 48 (2 ^ (b + 32) * 2 ^ (b + 32)) 0 = 2 ^ (b + 32) :=
    isqrt_square (Nat.zero_le _) (by rw [Nat.zero_add]; exact Nat.pow_lt_pow_right (by decide) (by omega))
  exact ⟨b + 32 + 1, 2 * (i - b) / 2 - 32 - 1, by rw [sqrtVal_of_even he, hsq, hroot, beq_self_eq_true, stickyVal_exact], by omega⟩

theorem rsqrtVal_pow2 {a : Nat} {e i : Int} (hj : (a : Int) + e = 2 * i) (ha : a ≤ 23) :
    ∃ (b : Nat) (f : Int), rsqrtVal (2 ^ a) e = .fin false (2 ^ b) f ∧ (b : Int) + f = -i := by
  obtain ⟨b, hb, he⟩ := evenPow2 hj ha
  have hsq : 2 ^ 112 / 2 ^ (2 * b) = 2 ^ (56 - b) * 2 ^ (56 - b) := by
    rw [Nat.pow_div (by omega) (by decide), ← Nat.pow_add]; congr 1; omega
  have hroot : isqrt 60 (2 ^ (56 - b) * 2 ^ (56 - b)) 0 = 2 ^ (56 - b) :=
    isqrt_square (Nat.zero_le _) (by rw [Nat.zero_add]; exact Nat.pow_lt_pow_right (by decide) (by omega))
  have hback : 2 ^ (56 - b) * 2 ^ (56 - b) * 2 ^ (2 * b) = 2 ^ 112 := by
    rw [← Nat.pow_add, ← Nat.pow_add]; congr 1; omega
  exact ⟨56 - b + 1, -(2 * (i - b) / 2) - 56 - 1, by rw [rsqrtVal_of_even he, hsq, hroot, hback, beq_self_eq_true, stickyVal_exact], by omega⟩

theorem fsqrtW_pow2W {i : Int} (hlo : -74 ≤ i) (hhi : i ≤ 63) : fsqrtW (pow2W (2 * i)) = pow2W i := by
  obtain ⟨a, e, hv, hj, ha⟩ := asFp_pow2W (j := 2 * i) (by omega) (by omega)
  obtain ⟨b, f, hs, hb⟩ := sqrtVal_pow2 hj ha
  simp only [fsqrtW, hv, if_neg (pow2_ne_zero a), hs]
  exact toFp_two_pow hb (by omega)

theorem frsqW_pow2W {i : Int} (hlo : -74 ≤ i) (hhi : i ≤ 63) : frsqW (pow2W (2 * i)) = pow2W (-i) := by
  obtain ⟨a, e, hv, hj, ha⟩ := asFp_pow2W (j := 2 * i) (by omega) (by omega)
  obtain ⟨b, f, hs, hb⟩ := rsqrtVal_pow2 hj ha
  simp only [frsqW, hv, if_neg (pow2_ne_zero a), hs]
  exact toFp_two_pow hb (by omega)

theorem flog2W_pow2W {j : Int} (hlo : -149 ≤ j) (hhi : j ≤ 127) : flog2W (pow2W j) = toFp .rne (.ofInt j) := by
  obtain ⟨a, e, hv, hj, -⟩ := asFp_pow2W hlo hhi
  have hp : isPow2 (2 ^ a) = true := by rw [isPow2, Nat.log2_two_pow, beq_self_eq_true]
  simp only [flog2W, hv, if_neg (pow2_ne_zero a), hp, log2Of_two_pow hj, if_true, Bool.false_eq_true, if_false]

/-! ### Exponential -/

/-- A whole number on a grid of its own is the same number over a grid of ones. -/
theorem splitAt_whole (m : Nat) {q : Int} (hq : q ≤ 0) : ∃ sh, splitAt (m * 2 ^ (-q).toNat) q 0 = (m, 0, sh) := by
  unfold splitAt
  split
  · next h =>
    have h0 : q = 0 := by omega
    subst h0
    exact ⟨0, by simp⟩
  · refine ⟨(0 - q).toNat, ?_⟩
    simp only [zero_sub]
    rw [Nat.mul_div_cancel _ (Nat.two_pow_pos _), Nat.mul_mod_left]

/-- The value of the word of a whole number. -/
theorem asFp_ofInt {j : Int} (h0 : j ≠ 0) (hj : j.natAbs < 2 ^ 24) : ∃ q : Int, q ≤ 0 ∧
    asFp (w32 (fp32.round .rne (.ofInt j))) = .fin (decide (j < 0)) (j.natAbs * 2 ^ (-q).toNat) q := by
  have hm : j.natAbs ≠ 0 := by omega
  have hlog : Nat.log2 j.natAbs < 24 := (Nat.log2_lt hm).2 hj
  have hlo := Nat.log2_self_le hm
  have hhi := Nat.lt_log2_self (n := j.natAbs)
  have hq : fp32.spacing j.natAbs 0 = (Nat.log2 j.natAbs : Int) - 23 := by
    simp only [Fmt.spacing, log2Of, fp32]
    omega
  refine ⟨(Nat.log2 j.natAbs : Int) - 23, by omega, asFp_round_of_exact hm hq (sh := 0) ?_ ?_ (by omega) (by omega) (.inl ?_)⟩
  · rw [splitAt, if_pos (by omega), Int.zero_sub]
  · calc j.natAbs * 2 ^ (-((Nat.log2 j.natAbs : Int) - 23)).toNat
        < 2 ^ (Nat.log2 j.natAbs + 1) * 2 ^ (-((Nat.log2 j.natAbs : Int) - 23)).toNat := (Nat.mul_lt_mul_right (Nat.two_pow_pos _)).2 hhi
      _ = 2 ^ 24 := by rw [← Nat.pow_add]; congr 1; omega
  · calc 2 ^ 23 = 2 ^ Nat.log2 j.natAbs * 2 ^ (-((Nat.log2 j.natAbs : Int) - 23)).toNat := by rw [← Nat.pow_add]; congr 1; omega
      _ ≤ j.natAbs * 2 ^ (-((Nat.log2 j.natAbs : Int) - 23)).toNat := Nat.mul_le_mul_right _ hlo

/-- A value is below a whole number where its floor is. -/
theorem Val.lt_whole (g : Bool) (m : Nat) (e : Int) (n : Nat) : (Val.fin g m e).lt (.fin false n 0) = decide (floorTo g m e 0 < n) := by
  simp only [Val.lt, decide_eq_decide]
  rcases Int.le_total 0 e with h | h
  · rw [min_eq_right h, floorTo_of_le (Int.le_refl 0) false n]
    simp
  · have hp : (0 : Int) < (2 ^ (0 - e).toNat : Nat) := by exact_mod_cast Nat.two_pow_pos _
    rw [min_eq_left h, floorTo_of_le (Int.le_refl e), floorTo_of_le h false n]
    rcases Int.lt_or_eq_of_le h with h | rfl
    · simp only [floorTo, if_neg (Int.not_le.2 h), Int.sub_self, Int.toNat_zero, Nat.pow_zero, Nat.cast_one, mul_one, Bool.false_eq_true, if_false]
      exact (Int.ediv_lt_iff_lt_mul hp).symm
    · simp [floorTo]

theorem floorTo_whole (g : Bool) (m : Nat) {q : Int} (hq : q ≤ 0) : floorTo g (m * 2 ^ (-q).toNat) q 0 = if g then -(m : Int) else m := by
  have hp : ((2 ^ (-q).toNat : Nat) : Int) ≠ 0 := by exact_mod_cast (Nat.two_pow_pos _).ne'
  rcases Int.lt_or_eq_of_le hq with h | rfl
  · rw [floorTo, if_neg (Int.not_le.2 h), Int.zero_sub]
    cases g <;> simp only [if_true, Bool.false_eq_true, if_false, Nat.cast_mul]
    · exact Int.mul_ediv_cancel _ hp
    · rw [← Int.neg_mul]
      exact Int.mul_ediv_cancel _ hp
  · simp [floorTo]

theorem fexp2W_ofInt {j : Int} (hlo : -149 ≤ j) (hhi : j ≤ 127) : fexp2W (w32 (fp32.round .rne (.ofInt j))) = pow2W j := by
  by_cases h0 : j = 0
  · subst h0
    decide
  · obtain ⟨q, hq, hv⟩ := asFp_ofInt h0 (by omega)
    obtain ⟨sh, hs⟩ := splitAt_whole j.natAbs hq
    have hsign : (if decide (j < 0) = true then -(j.natAbs : Int) else j.natAbs) = j := by
      simp only [decide_eq_true_eq]
      omega
    simp only [fexp2W, hv, hs, floorTo_whole _ _ hq, hsign, if_neg (show ¬ 128 ≤ j by omega), if_true]
    rw [max_eq_left (by omega)]
    rfl

theorem fexp2W_large {x : Word} (hn : asFp x ≠ .nan) (h : (asFp x).lt (.ofInt 128) = false) : fexp2W x = 0x7F800000 := by
  cases hv : asFp x with
  | nan => exact absurd hv hn
  | inf g =>
    rw [hv] at h
    obtain ⟨hm, hg⟩ := eq_of_asFp_inf hv
    have hgf : g = false := by cases g <;> first | rfl | cases h
    subst hgf
    simp only [fexp2W, hv, Bool.false_eq_true, if_false]
    refine BitVec.eq_of_toNat_eq ?_
    rw [BitVec.msb_eq_decide, decide_eq_false_iff_not] at hg
    have hx := x.isLt
    show x.toNat = 0x7F800000
    omega
  | fin g m e =>
    rw [hv, show Val.ofInt 128 = .fin false 128 0 from rfl, Val.lt_whole, decide_eq_false_iff_not, Int.not_lt] at h
    simp only [fexp2W, hv]
    exact if_pos h

/-! ### Sine and cosine -/

/-- A value that lies in [-1, 1]. -/
def inUnit (y : Word) : Prop := asFp y ≠ .nan ∧ (asFp y).lt (.ofInt (-1)) = false ∧ (Val.ofInt 1).lt (asFp y) = false

theorem within_inUnit (w : Word) : inUnit (within (.ofInt (-1)) (.ofInt 1) w) := by
  simp only [within]
  split
  · exact ⟨by decide, by decide, by decide⟩
  · next h =>
    simp only [Bool.or_eq_true, not_or, Bool.not_eq_true] at h
    obtain ⟨⟨hn, hlo⟩, hhi⟩ := h
    exact ⟨by simpa [Val.isNan] using hn, hlo, hhi⟩

theorem circular_inUnit {m : Nat} {e : Int} (h : (Val.ofInt 32768).lt (.fin false m e) = true) (g : Bool) (f : Val × Val → Val) (w : Word) :
    inUnit (circular g m e f w) := by
  rw [circular, if_pos h]
  exact within_inUnit w

theorem ne_zero_of_large {m : Nat} {e : Int} (h : (Val.ofInt 32768).lt (.fin false m e) = true) : m ≠ 0 := by
  rintro rfl
  simp only [show Val.ofInt 32768 = .fin false 32768 0 from rfl, Val.lt, floorTo_of_le (Int.min_le_left 0 e), floorTo_of_le (Int.min_le_right 0 e),
    decide_eq_true_eq, Bool.false_eq_true, if_false, Nat.cast_zero, zero_mul] at h
  have : (0 : Int) ≤ ((32768 : Nat) : Int) * (2 ^ (0 - min 0 e).toNat : Nat) := by positivity
  omega

/-! ### The statement -/

/-- The four rows of a table that a function gives. -/
theorem table_of_rows {g : Word → Word} {x₁ y₁ x₂ y₂ x₃ y₃ x₄ y₄ : Word} (h₁ : g x₁ = y₁) (h₂ : g x₂ = y₂) (h₃ : g x₃ = y₃) (h₄ : g x₄ = y₄)
    (x : Word) : ∀ e ∈ [(x₁, y₁), (x₂, y₂), (x₃, y₃), (x₄, y₄)], x = e.1 → g x = e.2 := by
  simp only [List.forall_mem_cons, List.not_mem_nil, false_implies, implies_true, and_true]
  exact ⟨(· ▸ h₁), (· ▸ h₂), (· ▸ h₃), (· ▸ h₄)⟩

/-- Settles O11: special inputs by the case of the input's value, powers of two and whole numbers by their words' values. -/
theorem specialFunctions : Obligations.SpecialFunctions := by
  unfold Obligations.SpecialFunctions
  intro d a inf ninf nzero one qnan table nan negative pow2 num bounded
  refine ⟨?_, ?_, ?_, ?_, ?_, ?_, ?_, ?_⟩
  · refine (gives_of_vec1 (g := frcpW) rfl).mono fun s c t l _ _ ht => ?_
    simp only [ht]
    refine ⟨fun hn => ?_, table_of_rows (by decide) (by decide) (by decide) (by decide) _, fun k hk hx => ?_⟩
    · simp only [frcpW, hn]; rfl
    · rw [hx]
      exact (frcpW_pow2W (by omega) (by omega)).trans (by rw [Int.neg_sub]; rfl)
  · refine (gives_of_vec1 (g := frsqW) rfl).mono fun s c t l _ _ ht => ?_
    simp only [ht]
    refine ⟨fun hn => ?_, fun m e hv hm => ?_, table_of_rows (by decide) (by decide) (by decide) (by decide) _, fun k hk hx => ?_⟩
    · simp only [frsqW, hn]; rfl
    · simp only [frsqW, hv, if_neg hm]; rfl
    · rw [hx, show (2 * (k : Int) - 148) = 2 * (k - 74) by omega]
      exact (frsqW_pow2W (by omega) (by omega)).trans (by rw [Int.neg_sub]; rfl)
  · refine (gives_of_vec1 (g := fsqrtW) rfl).mono fun s c t l _ _ ht => ?_
    simp only [ht]
    refine ⟨fun hn => ?_, fun m e hv hm => ?_, table_of_rows (by decide) (by decide) (by decide) (by decide) _, fun k hk hx => ?_⟩
    · simp only [fsqrtW, hn]; rfl
    · simp only [fsqrtW, hv, if_neg hm]; rfl
    · rw [hx, show (2 * (k : Int) - 148) = 2 * (k - 74) by omega]
      exact fsqrtW_pow2W (by omega) (by omega)
  · refine (gives_of_vec1 (g := flog2W) rfl).mono fun s c t l _ _ ht => ?_
    simp only [ht]
    refine ⟨fun hn => ?_, fun m e hv hm => ?_, table_of_rows (by decide) (by decide) (by decide) (by decide) _, fun k hk hx => ?_⟩
    · simp only [flog2W, hn]; rfl
    · simp only [flog2W, hv, if_neg hm]; rfl
    · rw [hx]
      exact flog2W_pow2W (by omega) (by omega)
  · refine (gives_of_vec1 (g := fexp2W) rfl).mono fun s c t l _ _ ht => ?_
    simp only [ht]
    refine ⟨fun hn => ?_, table_of_rows (by decide) (by decide) (by decide) (by decide) _, fexp2W_large, fun k hk hx => ?_⟩
    · simp only [fexp2W, hn]; rfl
    · rw [hx]
      exact fexp2W_ofInt (by omega) (by omega)
  · refine (gives_of_vec1 (g := fsinW) rfl).mono fun s c t l _ _ ht => ?_
    simp only [ht]
    refine ⟨fun hn => ?_, table_of_rows (by decide) (by decide) (by decide) (by decide) _, fun g m e hv hm => ?_⟩
    · simp only [fsinW, hn]; rfl
    · simp only [fsinW, hv, if_neg (ne_zero_of_large hm)]
      exact circular_inUnit hm ..
  · refine (gives_of_vec1 (g := fcosW) rfl).mono fun s c t l _ _ ht => ?_
    simp only [ht]
    refine ⟨fun hn => ?_, table_of_rows (by decide) (by decide) (by decide) (by decide) _, fun g m e hv hm => ?_⟩
    · simp only [fcosW, hn]; rfl
    · simp only [fcosW, hv, if_neg (ne_zero_of_large hm)]
      exact circular_inUnit hm ..
  · refine (gives_of_vec1 (g := ftanhW) rfl).mono fun s c t l _ _ ht => ?_
    simp only [ht]
    refine ⟨fun hn => ?_, table_of_rows (by decide) (by decide) (by decide) (by decide) _⟩
    simp only [ftanhW, hn]; rfl

end Sys2Proof.Machine

/-!
PROOFS. REDUCE and SCAN: what an instruction across lanes leaves in its one destination, and the tree of R155 by its levels.
-/

namespace Sys2Proof.Machine

/-! ### One destination of an instruction across lanes -/

/-- An instruction across lanes whose results go to a vector register. -/
theorem gives_vreg_of_finish {i : Instr} {d : VField} {v : State → Cx → Nat → Word} (ha : Instr.alu i = none) (hi : irreversible i = false)
    (hd : (regsOf i).2 = [.v d.toNat]) (he : ∀ s, exec i s = issue i s fun c t => t.finish c i (.v d.toNat) (v t c)) :
    Gives i fun s c t l => t.vreg c l d = v s c l := fun s c _ h => by
  rw [he, issue_ready ha h]
  obtain ⟨t, ht, hw, hp⟩ := finish_completes hi h _ (v s c) hd
  exact ⟨t, ht, hw, fun l hl => hp.vreg hl d _ (tabGet_tabSet_self ..)⟩

/-- An instruction across lanes whose results go to a predicate. -/
theorem gives_preg_of_finish {i : Instr} {p : PField} {v : State → Cx → Nat → Bool} (ha : Instr.alu i = none) (hi : irreversible i = false)
    (hd : (regsOf i).2 = [.p p.toNat]) (he : ∀ s, exec i s = issue i s fun c t => t.finish c i (.p p.toNat) fun l => bitWord (v t c l)) :
    Gives i fun s c t l => t.preg c l p = v s c l := fun s c _ h => by
  rw [he, issue_ready ha h]
  obtain ⟨t, ht, hw, hp⟩ := finish_completes hi h _ (fun l => bitWord (v s c l)) hd
  refine ⟨t, ht, hw, fun l hl => ?_⟩
  have hb : (bitWord (v s c l) != 0) = v s c l := by cases v s c l <;> rfl
  exact (hp.preg hl p).trans ((setPred_self _ _ p.isLt).trans hb)

/-- An instruction across lanes whose result goes to a uniform register. -/
theorem gives_ureg_of_finish {i : Instr} {u : SField} {v : State → Cx → Word} (ha : Instr.alu i = none) (hi : irreversible i = false)
    (hd : (regsOf i).2 = [.s u.toNat]) (he : ∀ s, exec i s = issue i s fun c t => t.finish c i (.s u.toNat) fun _ => v t c) :
    Gives i fun s c t _ => t.ureg c u = v s c := fun s c _ h => by
  rw [he, issue_ready ha h]
  obtain ⟨t, ht, hw, hp⟩ := finish_completes hi h _ (fun _ => v s c) hd
  exact ⟨t, ht, hw, fun l hl => hp.ureg (List.ne_nil_of_mem hl) u _ fun _ _ _ => tabGet_tabSet_self ..⟩

/-! ### The tree of R155 -/

/-- A level of the tree over twice as many leaves. -/
theorem pairUp_map_range (f : Word → Word → Word) (g : Nat → Word) (n : Nat) :
    pairUp f ((List.range (2 * n)).map g) = (List.range n).map fun k => f (g (2 * k)) (g (2 * k + 1)) := by
  induction n generalizing g with
  | zero => rfl
  | succ n ih =>
    have hl : (List.range (2 * (n + 1))).map g = g 0 :: g 1 :: (List.range (2 * n)).map fun k => g (k + 2) := by
      rw [show 2 * (n + 1) = 2 * n + 1 + 1 by omega, List.range_succ_eq_map, List.range_succ_eq_map]
      simp [Function.comp_def]
    rw [hl, pairUp, ih, List.range_succ_eq_map, List.map_cons, List.map_map]
    rfl

/-- The tree over the leaves is the tree, one level lower, over their pairs. -/
theorem treeOver_succ (f : Word → Word → Word) (leaf : Nat → Word) (n k : Nat) :
    treeOver f leaf (n + 1) k = treeOver f (fun j => f (leaf (2 * j)) (leaf (2 * j + 1))) n k := by
  induction n generalizing k with
  | zero => rfl
  | succ n ih => rw [treeOver, ih, ih, treeOver]

/-- The five levels over 32 leaves. -/
theorem treeRoot_eq_treeOver (f : Word → Word → Word) (leaf : Nat → Word) : treeRoot f ((upto 32).map leaf) = treeOver f leaf 5 0 := by
  simp only [treeRoot, upto, show (32 : Nat) = 2 * (2 * (2 * (2 * (2 * 1)))) from rfl, pairUp_map_range, treeOver_succ]
  rfl

/-! ### REDUCE and SCAN -/

/-- The mask operand as an instruction across lanes reads it. -/
theorem POp.bit_eq {s : State} {c : Cx} (h : s.Acts c) (b : POp) (l : Nat) : b.bit l (s.readOpd c.x l (b.p.headD (.imm 0))) = s.pb c l b := by
  cases b with
  | reg p => exact State.readPred_ne_zero h p l
  | lit w => rfl

/-- Active lanes that the mask selects supply A, every other leaf is the identity. -/
theorem leaves_eq {s : State} {c : Cx} (h : s.Acts c) (e : Word) (a : VField) (b : POp) (keep : Nat → Prop) [DecidablePred keep] :
    leaves e (fun k => c.selected s b k && decide (keep k)) (c.vecA s a) =
      (upto 32).map fun k => if k ∈ c.ls ∧ s.pb c k b = true ∧ keep k then s.vreg c k a else e := by
  refine List.map_congr_left fun k _ => ?_
  simp only [Cx.selected, POp.bit_eq h, Cx.vecA, State.readOpd_vreg h, Bool.and_eq_true, decide_eq_true_eq, List.contains_iff_mem, and_assoc]

/-- Settles O13: the operations and identities of Table 6.7 case by case, over the tree of R155. -/
theorem reduceAndScan : Obligations.ReduceAndScan := by
  unfold Obligations.ReduceAndScan
  intro op sop excl u d a b fadd imin imax f unit as leaf
  have hmin : minResult false = imin := by funext x y; simp only [minResult, imin, BitVec.slt, Bool.false_eq_true, if_false, decide_eq_true_eq]
  have hmax : maxResult false = imax := by funext x y; simp only [maxResult, imax, BitVec.slt, Bool.false_eq_true, if_false, decide_eq_true_eq]
  have hop : ∀ o, redOp o = (f o, unit o) := fun o => by
    cases o with
    | imin => exact congrArg (·, _) hmin
    | imax => exact congrArg (·, _) hmax
    | umin => exact congrArg (·, _) (by funext x y; simp only [minResult, BitVec.ult, if_true, decide_eq_true_eq]; rfl)
    | umax => exact congrArg (·, _) (by funext x y; simp only [maxResult, BitVec.ult, if_true, decide_eq_true_eq]; rfl)
    | iadd | and | or | xor | fadd | fmin | fmax => rfl
  have hsop : scanOp sop = redOp (as sop) := by cases sop <;> rfl
  constructor
  · refine (gives_ureg_of_finish (v := fun s c => treeRoot (redOp op).1 (leaves (redOp op).2 (c.selected s b) (c.vecA s a)))
      rfl rfl rfl fun _ => rfl).mono fun s c t l h _ ht => ?_
    have hleaves := leaves_eq h (unit op) a b fun _ => True
    simp only [decide_true, Bool.and_true] at hleaves
    rw [ht, hop, hleaves]
    exact treeRoot_eq_treeOver ..
  · refine (gives_vreg_of_finish (v := fun s c i => treeRoot (scanOp sop).1 (leaves (scanOp sop).2
      (fun l => c.selected s b l && (if excl then decide (l < i) else decide (l ≤ i))) (c.vecA s a)))
      rfl rfl rfl fun _ => rfl).mono fun s c t i h _ ht => ?_
    have hleaves := leaves_eq h (unit (as sop)) a b fun k => if excl then k < i else k ≤ i
    have hkeep : ∀ k, (if excl then decide (k < i) else decide (k ≤ i)) = decide (if excl then k < i else k ≤ i) := fun k => by
      cases excl <;> rfl
    rw [ht, hsop, hop]
    simp only [hkeep]
    rw [hleaves]
    exact treeRoot_eq_treeOver ..

end Sys2Proof.Machine

/-!
PROOFS. Random numbers, and results of two words: what stands in a pair of vector registers that each active lane has written.
-/

namespace Sys2Proof.Machine

/-! ### A pair of registers -/

theorem tabMod_congr {α : Type} {t : Tab α} {n : Nat} {v : α} (h : tabGet t n = some v) {f g : α → α} (e : f v = g v) :
    tabMod t n f = tabMod t n g := by
  simp only [tabMod, h, e]

/-- Each lane of a set finds its registers as they were before the lanes below it wrote theirs, also where each writes its own words. -/
theorem foldl_writeV_each {ls : List Nat} (hd : ls.Nodup) (d : VField) (ws : Nat → List Word) (x : Group) :
    ls.foldl (fun x l => x.writeV l d (ws l)) x = foldWrites ls (fun l => x.runRegs d (ws l).length l) ws x := by
  induction ls generalizing x with
  | nil => rfl
  | cons l ls ih =>
    rw [List.nodup_cons] at hd
    rw [List.foldl_cons, ih hd.2]
    refine foldWrites_congr _ _ fun k hk => ?_
    have hk : k ≠ l := fun e => hd.1 (e ▸ hk)
    simp only [Group.runRegs, Group.lane, tabGetD, Group.writeV, writeAll_other _ _ _ hk]

theorem ofNat_pairNat_w32 (x : DWord) : BitVec.ofNat 64 (pairNat (w32 x.toNat) (w32 (x.toNat / 2 ^ 32))) = x := by
  apply BitVec.eq_of_toNat_eq
  have hx := x.isLt
  simp only [pairNat, w32, BitVec.toNat_ofNat]
  omega

/-- A set that writes a value to a pair of vector registers in each lane, and goes on. -/
theorem writePairs_completes {i : Instr} {s : State} {c : Cx} {d : VField} (hi : irreversible i = false) (h : s.Ready i c)
    (hd : (regsOf i).2 = v2 d) (hok : pairOk d = true) (v : Nat → DWord) :
    let t := (s.modGroup c.g fun x => c.ls.foldl (fun x l => x.writeV l d (pairWords (v l).toNat)) x).done c i
    WroteOnly i s c t ∧ ∀ l ∈ c.ls, t.vpair c l d = v l := by
  intro t
  have ha := h.toActs
  have ht : t = s.wroteOn c (c.x.runRegs d 2) (fun l => pairWords (v l).toNat) (sizeOf' i) := by
    have hg : (s.modGroup c.g fun x => c.ls.foldl (fun x l => x.writeV l d (pairWords (v l).toNat)) x) =
        s.modGroup c.g (foldWrites c.ls (c.x.runRegs d 2) fun l => pairWords (v l).toNat) := by
      have hx := foldl_writeV_each ha.distinct d (fun l => pairWords (v l).toNat) c.x
      simp only [State.modGroup]
      congr 1
      exact tabMod_congr (State.inFocus_group ha.focus) hx
    simp only [t, State.done, hi, Bool.false_eq_true, if_false, State.wroteOn, hg]
  have hregs : ∀ l, c.x.runRegs d 2 l = (v2 d).filterMap (·.reg (c.x.lane l)) := fun _ => rfl
  rw [ht]
  refine ⟨State.wroteOn_only ha _ _ fun l _ r hr => by rwa [dstRegs, hd, ← hregs], fun l hl => ?_⟩
  have hw : Wrote s c (c.x.runRegs d 2) (fun l => pairWords (v l).toNat) (sizeOf' i)
      (s.wroteOn c (c.x.runRegs d 2) (fun l => pairWords (v l).toNat) (sizeOf' i)) :=
    ⟨fun l hl => State.wroteOn_lane ha _ _ _ _ hl, State.wroteOn_sregs ha _ _ _⟩
  have hnd : (c.x.runRegs d 2 l).Nodup := by
    rw [hregs]
    simp [v2, Opd.reg, Lane.arch_succ_of_pairOk _ hok]
  have hlo := hw.readOpd hl (f := d.toNat) (Lane.takes_regs_get hnd (j := 0) rfl rfl)
  have hhi := hw.readOpd hl (f := d.toNat + 1) (Lane.takes_regs_get hnd (j := 1) rfl rfl)
  rw [State.vpair, State.readPair, hlo, hhi, ofNat_pairNat_w32]

/-! ### RNGKEY, RNG, RMASK -/

/-- Settles O16: each draw by the key that the seed and the stream of the lane give. -/
theorem randomDraws : Obligations.RandomDraws := by
  unfold Obligations.RandomDraws
  intro d a b p key
  refine ⟨fun s c hwf h => ?_, fun s c hwf h => ?_, ?_⟩
  · rw [exec, execRngkey, issue_ready rfl h]
    obtain ⟨t, ht, hw, hp⟩ := finish_completes rfl h (.abs 1053) (c.vecA s a) rfl
    refine ⟨t, ht, hw, fun l hl => ?_⟩
    have hregs : ((t.group c.g).lane l).regs = tabSet (c.x.lane l).regs 1053 (s.vreg c l a) := by
      rw [hp.lane l hl, Cx.vecA, State.readOpd_vreg h.toActs]
      exact Lane.advance_regs ..
    exact (congrArg (tabGet · 1053) hregs).trans (tabGet_tabSet_self ..)
  · simp only [Instr.wf, Bool.and_eq_true] at hwf
    rw [exec, execRng, issue_ready rfl h]
    obtain ⟨hw, hv⟩ := writePairs_completes rfl h rfl hwf.1 fun l => rngBlock (s.threadKey c l) (BitVec.ofNat 64 (s.readPair c.x l a))
    refine ⟨_, rfl, hw, fun l hl => (hv l hl).trans ?_⟩
    rw [State.vpair, h.toActs.group]
    rfl
  · refine (gives_preg_of_finish (v := fun s c l => decide (rngDraw (s.threadKey c l) ((c.vecA s a l).setWidth 64)
      (bits (s.readOpd c.x l (b.v.headD (.imm 0))).toNat 16 2) < bits (s.readOpd c.x l (b.v.headD (.imm 0))).toNat 0 16))
      rfl rfl rfl fun _ => rfl).mono fun s c t l h _ ht => ?_
    have hlow : ∀ w, bits w 0 16 = w % 2 ^ 16 := fun w => by rw [bits, Nat.pow_zero, Nat.div_one]
    rw [State.readOpd_b h, Cx.vecA, State.readOpd_vreg h, hlow] at ht
    exact Iff.of_eq (congrArg (· = true) ht) |>.trans decide_eq_true_iff

end Sys2Proof.Machine

/-!
PROOFS. VOTE, ELECT, QAMAX, QCVT and MOV from a lane to a uniform register: masks of lanes, the greatest magnitude of a block, elements and
scales of a quantised block.
-/

namespace Sys2Proof.Machine

/-! ### VOTE and ELECT -/

/-- The lanes below 32 of a mask. -/
theorem maskOf_getLsbD_of_lt (ls : List Nat) {k : Nat} (hk : k < 32) : (maskOf ls).getLsbD k = decide (k ∈ ls) := by
  have hfold : ∀ m : BitVec 32, (ls.foldl (fun m l => m ||| BitVec.ofNat 32 (2 ^ l)) m).getLsbD k = (m.getLsbD k || decide (k ∈ ls)) := by
    induction ls with
    | nil => simp
    | cons l ls ih =>
      intro m
      have hb : (BitVec.ofNat 32 (2 ^ l)).getLsbD k = decide (k = l) := by
        rw [BitVec.getLsbD_ofNat, Nat.testBit_two_pow, decide_eq_true hk, Bool.true_and]
        exact decide_eq_decide.2 eq_comm
      rw [List.foldl_cons, ih, BitVec.getLsbD_or, hb]
      simp [List.mem_cons, Bool.or_assoc]
  rw [maskOf, hfold]
  simp

theorem Cx.predA_eq {s : State} {c : Cx} (h : s.Acts c) (q : PField) : c.predA s q = fun l => s.preg c l q :=
  funext fun l => State.readPred_ne_zero h q l

theorem Cx.l0_mem {s : State} {c : Cx} (h : s.Acts c) : c.l0 ∈ c.ls := by
  rw [Cx.l0]
  cases hc : c.ls with
  | nil => exact absurd hc (State.inFocus_ne h.focus)
  | cons l ls => exact List.mem_cons_self

/-! ### The greatest magnitude -/

/-- A word without its sign. -/
def mag (w : Word) : Word := w &&& 0x7FFFFFFF

theorem mag_toNat (w : Word) : (mag w).toNat = w.toNat % 2 ^ 31 := by
  rw [mag, BitVec.toNat_and]
  exact Nat.and_two_pow_sub_one_eq_mod w.toNat 31

theorem mag_le_of_not_nan {w : Word} (h : asFp w ≠ .nan) : (mag w).toNat ≤ 0x7F800000 := by
  rw [Ne, asFp_eq_nan_iff, ← mag_toNat] at h
  omega

theorem asFp_mag_of_nan {w : Word} (h : asFp w = .nan) : asFp (mag w) = .nan := by
  rw [asFp_eq_nan_iff] at h ⊢
  rwa [mag_toNat, Nat.mod_mod]

theorem fmaxW_of_nan {a b : Word} (h : asFp a = .nan ∨ asFp b = .nan) : fmaxW a b = fpNan := by
  rcases h with h | h <;> simp [fmaxW, h, Val.isNan]

theorem fmaxW_of_nonneg {a b : Word} (ha : a.toNat ≤ 0x7F800000) (hb : b.toNat ≤ 0x7F800000) :
    fmaxW a b = if a.toNat < b.toNat then b else a := by
  have hna : ∀ {w : Word}, w.toNat ≤ 0x7F800000 → (asFp w).isNan = false := fun {w} hw => by
    rw [Val.isNan, beq_eq_false_iff_ne, Ne, asFp_eq_nan_iff]
    omega
  simp only [fmaxW, hna ha, hna hb, asFp_lt_iff ha hb, asFp_lt_iff hb ha, Bool.or_self, Bool.false_eq_true, if_false, decide_eq_true_eq]
  split
  · rfl
  · split
    · rfl
    · next h1 h2 =>
      rw [BitVec.eq_of_toNat_eq (show a.toNat = b.toNat by omega), ite_self]

/-- A fold of maxima over magnitudes from some word on. -/
def maxFrom (m : Word) (l : List Word) : Word := l.foldl (fun m w => fmaxW m (mag w)) m

theorem maxFrom_cons (m w : Word) (l : List Word) : maxFrom m (w :: l) = maxFrom (fmaxW m (mag w)) l := rfl

theorem maxFrom_nan (l : List Word) : maxFrom fpNan l = fpNan := by
  induction l with
  | nil => rfl
  | cons w l ih =>
    rw [maxFrom_cons, fmaxW_of_nan (.inl rfl), ih]

theorem maxFrom_of_nan {l : List Word} {w : Word} (hw : w ∈ l) (h : asFp w = .nan) (m : Word) : maxFrom m l = fpNan := by
  induction l generalizing m with
  | nil => cases hw
  | cons v l ih =>
    rw [maxFrom_cons]
    rcases List.mem_cons.1 hw with rfl | hw
    · rw [fmaxW_of_nan (.inr (asFp_mag_of_nan h))]
      exact maxFrom_nan l
    · exact ih hw _

/-- Where nothing is NaN the maximum is the word that the fold starts from or a magnitude, and nothing is above it. -/
structure GreatestOf (m : Word) (l : List Word) (r : Word) : Prop where
  bound : r.toNat ≤ 0x7F800000
  found : r = m ∨ ∃ w ∈ l, r = mag w
  start : m.toNat ≤ r.toNat
  above : ∀ w ∈ l, (mag w).toNat ≤ r.toNat

theorem maxFrom_greatestOf {l : List Word} (h : ∀ w ∈ l, asFp w ≠ .nan) {m : Word} (hm : m.toNat ≤ 0x7F800000) :
    GreatestOf m l (maxFrom m l) := by
  induction l generalizing m with
  | nil => exact ⟨hm, .inl rfl, Nat.le_refl _, fun _ hw => absurd hw List.not_mem_nil⟩
  | cons v l ih =>
    have hv := mag_le_of_not_nan (h v List.mem_cons_self)
    have hstep := fmaxW_of_nonneg hm hv
    have hpick : fmaxW m (mag v) = m ∨ fmaxW m (mag v) = mag v := by rw [hstep]; split <;> simp
    have hn : (fmaxW m (mag v)).toNat ≤ 0x7F800000 ∧ m.toNat ≤ (fmaxW m (mag v)).toNat ∧ (mag v).toNat ≤ (fmaxW m (mag v)).toNat := by
      rw [hstep]
      split <;> omega
    obtain ⟨hb, hf, hs, ha⟩ := ih (fun w hw => h w (List.mem_cons_of_mem _ hw)) hn.1
    rw [maxFrom_cons]
    refine ⟨hb, ?_, Nat.le_trans hn.2.1 hs, fun w hw => ?_⟩
    · rcases hf with hf | ⟨w, hw, hf⟩
      · exact hpick.imp hf.trans fun hp => ⟨v, List.mem_cons_self, hf.trans hp⟩
      · exact .inr ⟨w, List.mem_cons_of_mem _ hw, hf⟩
    · rcases List.mem_cons.1 hw with rfl | hw
      · exact Nat.le_trans hn.2.2 hs
      · exact ha w hw

theorem absMax_of_nan {l : List Word} {w : Word} (hw : w ∈ l) (h : asFp w = .nan) : absMax l = fpNan := maxFrom_of_nan hw h 0

theorem absMax_greatestOf {l : List Word} (h : ∀ w ∈ l, asFp w ≠ .nan) : GreatestOf 0 l (absMax l) := maxFrom_greatestOf h (by decide)

/-! ### Blocks -/

/-- Whether two lanes are in one block. -/
def inBlock (n32 : Bool) (l k : Nat) : Prop := if n32 then k < 32 else k / 16 = l / 16

theorem mem_blockOf {n32 : Bool} {l k : Nat} : k ∈ blockOf n32 l ↔ inBlock n32 l k := by
  cases n32
  · simp only [blockOf, inBlock, upto, Bool.false_eq_true, if_false, List.mem_map, List.mem_range]
    exact ⟨fun ⟨j, hj, he⟩ => by omega, fun h => ⟨k % 16, by omega, by omega⟩⟩
  · simp only [blockOf, inBlock, upto, if_true, List.mem_range]

theorem blockOf_congr {n32 : Bool} {l k : Nat} (h : inBlock n32 l k) : blockOf n32 k = blockOf n32 l := by
  cases n32
  · have h : k / 16 = l / 16 := h
    simp only [blockOf, h]
  · rfl

/-- Active lanes of the block supply A. -/
theorem mem_block_of_active {s : State} {c : Cx} (h : s.Acts c) {n32 : Bool} {a : VField} {l k : Nat} (hk : k ∈ c.ls) (hb : inBlock n32 l k) :
    s.vreg c k a ∈ c.block s n32 a l :=
  List.mem_map.2 ⟨k, mem_blockOf.2 hb, by rw [if_pos (List.contains_iff_mem.2 hk), Cx.vecA, State.readOpd_vreg h]⟩

/-- The contributions of a block are zeros and what active lanes supply. -/
theorem mem_block {s : State} {c : Cx} (h : s.Acts c) {n32 : Bool} {a : VField} {l : Nat} {w : Word} (hw : w ∈ c.block s n32 a l) :
    w = 0 ∨ ∃ k ∈ c.ls, inBlock n32 l k ∧ w = s.vreg c k a := by
  obtain ⟨k, hk, rfl⟩ := List.mem_map.1 hw
  split
  · next hc => exact .inr ⟨k, List.contains_iff_mem.1 hc, mem_blockOf.1 hk, State.readOpd_vreg h k a⟩
  · exact .inl rfl

/-- The lanes of a block. -/
def blockSize (n32 : Bool) : Nat := if n32 then 32 else 16

/-- The contribution in place `j` of the block of lane `l`. -/
def Cx.supplied (c : Cx) (s : State) (n32 : Bool) (a : VField) (l j : Nat) : Word :=
  if l / blockSize n32 * blockSize n32 + j ∈ c.ls then s.vreg c (l / blockSize n32 * blockSize n32 + j) a else 0

theorem Cx.block_eq {s : State} {c : Cx} (h : s.Acts c) (n32 : Bool) (a : VField) {l : Nat} (hl : l < 32) :
    c.block s n32 a l = (List.range (blockSize n32)).map (c.supplied s n32 a l) := by
  have hv : ∀ k, (if c.ls.contains k then c.vecA s a k else 0) = if k ∈ c.ls then s.vreg c k a else 0 := fun k => by
    simp only [List.contains_iff_mem, Cx.vecA, State.readOpd_vreg h]
  cases n32
  · simp only [Cx.block, blockOf, hv, List.map_map, upto, Bool.false_eq_true, if_false]
    rfl
  · have h0 : l / 32 * 32 = 0 := by omega
    simp only [Cx.block, blockOf, hv, upto, if_true]
    refine List.map_congr_left fun j _ => ?_
    rw [Cx.supplied, show blockSize true = 32 from rfl, h0, Nat.zero_add]

/-- The sign of a term of `H_n x` by the ones that two places share (R154). -/
theorem hadamard_odd (i j : Nat) : (popcount 6 ((BitVec.ofNat 6 i) &&& (BitVec.ofNat 6 j)).toNat % 2 = 1) =
    (((List.range 6).countP fun b => i.testBit b && j.testBit b) % 2 = 1) := by
  rw [popcount_eq_countP]
  congr 2
  refine List.countP_congr fun b hb => ?_
  have hb : b < 6 := List.mem_range.1 hb
  rw [BitVec.testBit_toNat, BitVec.getLsbD_and, BitVec.getLsbD_ofNat, BitVec.getLsbD_ofNat, decide_eq_true hb, Bool.true_and, Bool.true_and]

/-- The values of a block that are quantised: its contributions, or `H_n` of them. -/
def Cx.rotated (c : Cx) (s : State) (n32 hd : Bool) (a : VField) (l i : Nat) : Word :=
  if hd then BitVec.ofNat 32 (matrixSum ((List.range (blockSize n32)).map fun j =>
    if ((List.range 6).countP fun b => i.testBit b && j.testBit b) % 2 == 1 then (asFp (c.supplied s n32 a l j)).neg
    else asFp (c.supplied s n32 a l j)))
  else c.supplied s n32 a l i

theorem Cx.rotated_eq {s : State} {c : Cx} (h : s.Acts c) (n32 hd : Bool) (a : VField) {l : Nat} (hl : l < 32) :
    (if hd then hadamardBlock (c.block s n32 a l) else c.block s n32 a l) =
      (List.range (blockSize n32)).map (c.rotated s n32 hd a l) := by
  rw [Cx.block_eq h n32 a hl]
  cases hd
  · rfl
  · simp only [if_true, hadamardBlock, upto, List.length_map, List.length_range]
    refine List.map_congr_left fun i _ => ?_
    simp only [Cx.rotated, if_true, w32, beq_iff_eq]
    congr 2
    refine List.map_congr_left fun j hj => ?_
    simp only [List.getD_eq_getElem?_getD, List.getElem?_map, List.getElem?_range (List.mem_range.1 hj), Option.map_some, Option.getD_some,
      hadamard_odd]

/-! ### Elements and scales -/

/-- A word that is no number. -/
def special (w : Word) : Prop := asFp w = .nan ∨ ∃ g, asFp w = .inf g

theorem special_iff (w : Word) : special w ↔ 0x7F800000 ≤ (mag w).toNat := by
  rw [mag_toNat, special]
  constructor
  · rintro (h | ⟨g, h⟩)
    · exact Nat.le_of_lt ((asFp_eq_nan_iff w).1 h)
    · exact Nat.le_of_eq (eq_of_asFp_inf h).1.symm
  · intro h
    rcases Nat.lt_or_eq_of_le h with h | h
    · exact .inl ((asFp_eq_nan_iff w).2 h)
    · exact .inr ⟨w.msb, by rw [asFp_eq, if_neg (by omega), if_pos h.symm]⟩

/-- A block with a NaN or an infinity. -/
theorem quantLane_special {q : QuantFmt} {ys : List Word} {w : Word} (hw : w ∈ ys) (h : special w) (k : Nat) :
    quantLane q ys k = w32 (quantNan q + 0xFF00) := by
  have hs : special (absMax ys) := by
    by_cases hn : ∃ v ∈ ys, asFp v = .nan
    · obtain ⟨v, hv, hn⟩ := hn
      rw [absMax_of_nan hv hn]
      exact .inl rfl
    · obtain ⟨hb, -, -, ha⟩ := absMax_greatestOf fun v hv h => hn ⟨v, hv, h⟩
      have h1 := (special_iff w).1 h
      have h2 := ha w hw
      rw [special_iff, mag_toNat]
      omega
  rw [quantLane]
  rcases hs with hs | ⟨g, hs⟩ <;> rw [hs]

/-- A block of zeros. -/
theorem quantLane_zero {q : QuantFmt} {ys : List Word} (h : ∀ w ∈ ys, mag w = 0) (k : Nat) : quantLane q ys k = 0 := by
  have hmax : absMax ys = 0 := by
    obtain ⟨-, hf, -, -⟩ := absMax_greatestOf (l := ys) fun w hw hn => by
      have := (special_iff w).1 (.inl hn)
      rw [h w hw] at this
      exact absurd this (by decide)
    rcases hf with hf | ⟨w, hw, hf⟩
    · exact hf
    · rw [hf, h w hw]
  rw [quantLane, hmax]
  rfl

/-- A block of numbers, some of them not zero, by one of the greatest magnitude. -/
theorem quantLane_number {q : QuantFmt} {ys : List Word} {w : Word} (hw : w ∈ ys) {m : Nat} {e : Int} (he : asFp (mag w) = .fin false m e)
    (hm : m ≠ 0) (h : ∀ v ∈ ys, ¬ special v ∧ (asFp (mag w)).lt (asFp (mag v)) = false) (k : Nat) :
    quantLane q ys k =
      w32 (quantElem q ((asFp (ys.getD k 0)).shift (max (-127) (min 127 ((Nat.log2 m : Int) + e - quantExp q)))) +
        256 * (max (-127) (min 127 ((Nat.log2 m : Int) + e - quantExp q)) + 127).toNat) := by
  have hle : ∀ v ∈ ys, (mag v).toNat ≤ 0x7F800000 := fun v hv => mag_le_of_not_nan fun hn => (h v hv).1 (.inl hn)
  obtain ⟨hb, hf, -, ha⟩ := absMax_greatestOf (l := ys) fun v hv hn => (h v hv).1 (.inl hn)
  have hmax : absMax ys = mag w := by
    refine BitVec.eq_of_toNat_eq (Nat.le_antisymm ?_ (ha w hw))
    rcases hf with hf | ⟨v, hv, hf⟩
    · rw [hf]
      exact Nat.zero_le _
    · have hlt := (h v hv).2
      rw [asFp_lt_iff (hle w hw) (hle v hv), decide_eq_false_iff_not] at hlt
      rw [hf]
      omega
  rw [quantLane, hmax]
  simp only [scaleExp, he, if_neg hm, log2Of]

theorem quantElem_lt (q : QuantFmt) (v : Val) : quantElem q v < 256 := by
  have hfp : ∀ {f : Fmt}, f.Ordered → f.width = 8 → quantFp f v < 256 := fun {f} hf hw => by
    simp only [quantFp]
    split
    · have := Fmt.signed_lt (Nat.lt_of_le_of_lt hf.1 hf.2.1) v.isNeg
      rwa [hw] at this
    · have := Fmt.round_lt hf .rne v
      rwa [hw] at this
  cases q
  · exact hfp fp8e4_ordered rfl
  · exact hfp fp8e5_ordered rfl
  · exact (by omega : ∀ x : Int, (x % 256).toNat < 256) _

/-- Every lane of a block has a byte of its own and the block's scale byte. -/
theorem quantLane_bytes (q : QuantFmt) (ys : List Word) : ∃ b < 256, ∀ k, ∃ e < 256, (quantLane q ys k).toNat = e + 256 * b := by
  have hw : ∀ {e b : Nat}, e < 256 → b < 256 → (w32 (e + 256 * b)).toNat = e + 256 * b := fun he hb =>
    toNat_w32 (n := 2 ^ 16) (by omega) (by decide)
  have hspecial : ∃ b < 256, ∀ _ : Nat, ∃ e < 256, (w32 (quantNan q + 0xFF00)).toNat = e + 256 * b :=
    ⟨0xFF, by decide, fun _ => ⟨quantNan q, by cases q <;> decide, by cases q <;> rfl⟩⟩
  unfold quantLane
  simp only
  split
  · next m e _ =>
    by_cases hm : m = 0
    · exact ⟨0, by decide, fun _ => ⟨0, by decide, by rw [if_pos hm]; rfl⟩⟩
    · have hx : (scaleExp q (absMax ys) + 127).toNat < 256 := by
        simp only [scaleExp]
        split
        · split <;> omega
        · decide
      exact ⟨_, hx, fun k => ⟨_, quantElem_lt q _, by rw [if_neg hm]; exact hw (quantElem_lt q _) hx⟩⟩
  · exact hspecial

/-- An overflow of E5M2 goes to its greatest number, one below infinity; E4M3 has no infinity, and its rounding ends at its greatest number. -/
theorem quantFp_eq (v : Val) : quantFp fp8e4 v = fp8e4.round .rne v ∧
    quantFp fp8e5 v = if fp8e5.round .rne v % 2 ^ 7 = 0x7C then fp8e5.round .rne v - 1 else fp8e5.round .rne v := by
  have hinf : ∀ {f : Fmt}, f.Ordered → f.ebits + f.mbits = 7 → f.round .rne v % 2 ^ 7 = f.infBits → f.nan ≠ f.infBits →
      f.round .rne v = f.signed v.isNeg f.infBits := fun {f} hf h7 he hn => by
    have hv : v ≠ .nan := fun hv => by
      subst hv
      have : f.nan % 2 ^ 7 = f.infBits := he
      have h2 := hf.2.2
      rw [h7] at h2
      omega
    obtain ⟨x, hx, hr⟩ := Fmt.round_eq_signed hf .rne hv
    have hlt := hf.2.1
    rw [hr] at he ⊢
    rw [Fmt.signed, h7] at he ⊢
    rw [h7] at hlt
    have hxi : x = f.infBits := by split at he <;> omega
    rw [hxi, Fmt.signed, h7]
  constructor
  · simp only [quantFp]
    split
    · next h => exact (hinf fp8e4_ordered rfl h (by decide)).symm
    · rfl
  · simp only [quantFp]
    split
    · next h =>
      rw [if_pos (show fp8e5.round .rne v % 2 ^ 7 = 0x7C from h), hinf fp8e5_ordered rfl h (by decide)]
      cases v.isNeg <;> rfl
    · next h => exact (if_neg (show ¬ fp8e5.round .rne v % 2 ^ 7 = 0x7C from h)).symm

/-! ### The statement -/

/-- A uniform register written once is as if each lane of a set had written it. -/
theorem foldWrites_uniform {ls : List Nat} (hne : ls ≠ []) (n l : Nat) (w : Word) (x : Group) :
    foldWrites ls (fun _ => [.s n]) (fun _ => [w]) x = x.writeReg l (.s n) w := by
  have hset : ∀ t : Tab Word, tabSet (tabSet t n w) n w = tabSet t n w := fun t => by
    induction t with
    | nil => simp [tabSet]
    | cons e t ih =>
      obtain ⟨k, v⟩ := e
      rw [tabSet]
      split
      · simp [tabSet]
      · split
        · simp [tabSet]
        · next h1 h2 => rw [tabSet, if_neg h1, if_neg h2, ih]
  induction ls generalizing x with
  | nil => exact absurd rfl hne
  | cons k ls ih =>
    by_cases hls : ls = []
    · subst hls
      rfl
    · refine (ih hls (x.writeReg k (.s n) w)).trans ?_
      simp only [Group.writeReg, hset]

/-- MOV to a uniform register, where the lane that B names has A (R388). -/
theorem exec_movSV_completes {u : SField} {a : VField} {b : BOp} {s : State} {c : Cx} (h : s.Ready (.movSV u a b) c) {k : Nat}
    (hk : (s.vb c c.l0 b).toNat % 32 = k) (hp : (c.x.lane k).fin = false → c.x.isPending k (.v a.toNat) = false) :
    ∃ t, exec (.movSV u a b) s = .next t ∧ WroteOnly (.movSV u a b) s c t ∧ t.ureg c u = if (c.x.lane k).fin then 0 else s.vreg c k a := by
  have ha := h.toActs
  have hne := State.inFocus_ne ha.focus
  have hfree : (!(c.x.lane k).fin && c.x.isPending k (.v a.toNat)) = false := by
    cases hf : (c.x.lane k).fin
    · rw [hp hf]; rfl
    · rfl
  obtain ⟨t, ht, hw, hwrote⟩ := finish_completes (i := .movSV u a b) rfl h (.s u.toNat) (fun _ => s.slotValue c.x k (.v a.toNat)) rfl
  have hv : s.slotValue c.x k (.v a.toNat) = if (c.x.lane k).fin then 0 else s.vreg c k a := by
    rw [State.slotValue, State.readOpd_vreg ha]
  refine ⟨t, ?_, hw, (hwrote.ureg hne u _ fun _ _ _ => tabGet_tabSet_self ..).trans hv⟩
  rw [exec, execMovSV, issue_ready rfl h]
  simp only [State.readOpd_b ha, hk, hfree, Bool.false_eq_true, if_false]
  rw [← ht, State.finish, State.writeEach_eq]
  simp only [State.modGroup]
  congr 3
  exact tabMod_congr (State.inFocus_group ha.focus) (foldWrites_uniform hne u.toNat c.l0 _ c.x).symm

/-- The values of the block of a lane, in order. -/
def Cx.blockValues (c : Cx) (s : State) (n32 hd : Bool) (a : VField) (l : Nat) : List Word :=
  (List.range (blockSize n32)).map (c.rotated s n32 hd a l)

/-- What QCVT leaves in a lane: the element and scale of its block's values. -/
theorem exec_qcvt_gives (fmt : QuantFmt) (hd n32 : Bool) (d a : VField) : Gives (.qcvt fmt hd n32 d a) fun s c t l =>
    l < 32 → t.vreg c l d = quantLane fmt (c.blockValues s n32 hd a l) (l % blockSize n32) :=
  (gives_vreg_of_finish (v := fun s c l => quantLane fmt (if hd then hadamardBlock (c.block s n32 a l) else c.block s n32 a l)
    (if n32 then l else l % 16)) rfl rfl rfl fun _ => rfl).mono fun s c t l h _ ht hl => by
      rw [ht, Cx.rotated_eq h n32 hd a hl, Cx.blockValues]
      cases n32
      · rfl
      · rw [show l % blockSize true = l from Nat.mod_eq_of_lt hl]
        rfl

/-- Lanes of one block have the same values. -/
theorem Cx.blockValues_congr {s : State} {c : Cx} (h : s.Acts c) {n32 : Bool} (hd : Bool) (a : VField) {l k : Nat} (hl : l < 32) (hk : k < 32)
    (hb : inBlock n32 l k) : c.blockValues s n32 hd a k = c.blockValues s n32 hd a l := by
  rw [Cx.blockValues, Cx.blockValues, ← Cx.rotated_eq h n32 hd a hl, ← Cx.rotated_eq h n32 hd a hk, Cx.block, Cx.block, blockOf_congr hb]

theorem Cx.blockValues_plain {s : State} {c : Cx} (h : s.Acts c) (n32 : Bool) (a : VField) {l : Nat} (hl : l < 32) :
    c.blockValues s n32 false a l = c.block s n32 a l :=
  (Cx.rotated_eq h n32 false a hl).symm

theorem Cx.mem_blockValues {s : State} {c : Cx} {n32 hd : Bool} {a : VField} {l : Nat} {w : Word} :
    w ∈ c.blockValues s n32 hd a l ↔ ∃ i < blockSize n32, c.rotated s n32 hd a l i = w := by
  simp only [Cx.blockValues, List.mem_map, List.mem_range]

theorem Cx.blockValues_getD {s : State} {c : Cx} {n32 hd : Bool} {a : VField} {l i : Nat} (hi : i < blockSize n32) :
    (c.blockValues s n32 hd a l).getD i 0 = c.rotated s n32 hd a l i := by
  rw [Cx.blockValues, List.getD_eq_getElem?_getD, List.getElem?_map, List.getElem?_range hi]
  rfl

/-- The upper byte of a lane of QCVT is the scale of its block. -/
theorem quantLane_scale (q : QuantFmt) (ys : List Word) (k j : Nat) :
    (quantLane q ys k).toNat < 2 ^ 16 ∧ (quantLane q ys k).toNat / 2 ^ 8 = (quantLane q ys j).toNat / 2 ^ 8 := by
  obtain ⟨b, hb, he⟩ := quantLane_bytes q ys
  obtain ⟨x, hx, hk⟩ := he k
  obtain ⟨y, hy, hj⟩ := he j
  omega

/-- Settles O14: votes by the predicates of the active lanes, QAMAX and QCVT by the order of magnitudes, MOV by the lane that it names. -/
theorem votesAndBlocks : Obligations.VotesAndBlocks := by
  unfold Obligations.VotesAndBlocks
  intro p q u d a b n32 hd fmt block magW specialW n y eQ qnan scaled element
  refine ⟨?_, ?_, ?_, ?_, ?_, ?_, ?_, ?_⟩
  · refine (gives_preg_of_finish (v := fun s c _ => c.ls.any (c.predA s q)) rfl rfl rfl fun _ => rfl).mono fun s c t l h _ ht => ?_
    rw [ht, Cx.predA_eq h, List.any_eq_true]
  · refine (gives_preg_of_finish (v := fun s c _ => c.ls.all (c.predA s q)) rfl rfl rfl fun _ => rfl).mono fun s c t l h _ ht => ?_
    rw [ht, Cx.predA_eq h, List.all_eq_true]
  · refine (gives_ureg_of_finish (v := fun s c => maskOf (c.ls.filter (c.predA s q))) rfl rfl rfl fun _ => rfl).mono fun s c t l h _ ht => ?_
    intro k hk
    rw [ht, maskOf_getLsbD_of_lt _ hk, Cx.predA_eq h, decide_eq_true_eq, List.mem_filter]
  · refine (gives_vreg_of_finish (v := fun s c _ => w32 (c.ls.filter (c.predA s q)).length) rfl rfl rfl fun _ => rfl).mono
      fun s c t l h _ ht => ?_
    rw [ht, Cx.predA_eq h, List.countP_eq_length_filter]
    rfl
  · refine (gives_preg_of_finish (v := fun _ c l => l == c.l0) rfl rfl rfl fun _ => rfl).mono fun s c t l h hl ht => ?_
    intro hmin
    rw [ht, beq_iff_eq]
    exact ⟨fun he => he ▸ hmin, fun hle => Nat.le_antisymm (hle _ (Cx.l0_mem h)) (hmin l hl)⟩
  · refine (gives_vreg_of_finish (v := fun s c l => absMax (c.block s n32 a l)) rfl rfl rfl fun _ => rfl).mono fun s c t l h hl ht => ?_
    intro _
    rw [ht]
    refine ⟨fun ⟨k, hk, hb, hn⟩ => absMax_of_nan (mem_block_of_active h hk hb) hn, fun hno => ?_⟩
    have hnan : ∀ w ∈ c.block s n32 a l, asFp w ≠ .nan := fun w hw => by
      rcases mem_block h hw with rfl | ⟨k, hk, hb, rfl⟩
      · decide
      · exact hno k hk hb
    obtain ⟨hbound, hfound, -, habove⟩ := absMax_greatestOf hnan
    refine ⟨?_, fun k hk hb => ?_⟩
    · rcases hfound with hf | ⟨w, hw, hf⟩
      · exact .inl hf
      · rcases mem_block h hw with rfl | ⟨k, hk, hb, rfl⟩
        · exact .inl hf
        · exact .inr ⟨k, hk, hb, hf⟩
    · have hle := habove _ (mem_block_of_active h hk hb)
      exact (asFp_lt_iff hbound (Nat.le_trans hle hbound)).trans (decide_eq_false (Nat.not_lt.2 hle))
  · intro s c hwf h
    obtain ⟨t, ht, hw, hv⟩ := exec_qcvt_gives fmt hd n32 d a s c hwf h
    refine ⟨t, ht, hw, fun l hl h32 => ?_⟩
    have ha := h.toActs
    have hll := h32 l hl
    have hsize : l % blockSize n32 < blockSize n32 := Nat.mod_lt _ (by cases n32 <;> decide)
    have hplain := Cx.blockValues_plain ha n32 a hll
    have hqnan : quantNan fmt = qnan := by cases fmt <;> rfl
    rw [hv l hl hll]
    refine ⟨(quantLane_scale fmt _ _ 0).1, fun k hk hb => ?_, ?_, ?_, ?_, ?_, ?_⟩
    · rw [hv k hk (h32 k hk), Cx.blockValues_congr ha hd a hll (h32 k hk) hb]
      exact (quantLane_scale fmt _ _ _).2
    · rintro rfl ⟨k, hk, hb, hs⟩
      rw [hplain, quantLane_special (mem_block_of_active ha hk hb) hs]
      cases fmt <;> rfl
    · rintro rfl hz
      rw [hplain]
      refine quantLane_zero (fun w hw => ?_) _
      rcases mem_block ha hw with rfl | ⟨k, hk, hb, rfl⟩
      · rfl
      · exact hz k hk hb
    · rintro ⟨i, hi, hs⟩
      rw [quantLane_special (Cx.mem_blockValues.2 ⟨i, hi, rfl⟩) hs, hqnan, Nat.add_comm]
      rfl
    · intro hz
      refine quantLane_zero (fun w hw => ?_) _
      obtain ⟨i, hi, rfl⟩ := Cx.mem_blockValues.1 hw
      exact hz i hi
    · intro i m e hi he hm hall x
      have hexp : quantExp fmt = eQ := by cases fmt <;> rfl
      have hshift : ∀ w, (asFp w).shift x = scaled w x := fun w => by
        simp only [scaled]
        cases asFp w <;> rfl
      have helem : ∀ v, quantElem fmt v = element v := fun v => by
        cases fmt
        · exact (quantFp_eq v).1
        · exact (quantFp_eq v).2
        · rfl
      rw [quantLane_number (Cx.mem_blockValues.2 ⟨i, hi, rfl⟩) he hm fun v hv => by
        obtain ⟨j, hj, rfl⟩ := Cx.mem_blockValues.1 hv
        exact hall j hj, Cx.blockValues_getD hsize, hexp]
      have hlane : ∀ {b : Nat}, b < 256 → b + 256 * (x + 127).toNat < 2 ^ 16 := fun {b} hb => by omega
      refine (toNat_w32 (n := 2 ^ 16) (hlane (quantElem_lt fmt _)) (by decide)).trans ?_
      exact congrArg (· + 2 ^ 8 * (x + 127).toNat) ((congrArg (quantElem fmt) (hshift _)).trans (helem _))
  · intro s c i k _ h hp
    exact exec_movSV_completes h rfl hp

end Sys2Proof.Machine

/-!
PROOFS. System registers: the counts of the cores, a write that has its effect outside the set that goes on, and the copy of a lattice table
that is made.
-/

namespace Sys2Proof.Machine

/-! ### Effects outside an issue set -/

/-- An effect that changes nothing by which an issue set is in focus and goes on. -/
def KeepsSet (s u : State) : Prop := u.focus = s.focus ∧ u.groups = s.groups ∧ u.grids = s.grids ∧ u.clock = s.clock

theorem KeepsSet.acts {s u : State} {c : Cx} (hk : KeepsSet s u) (h : s.Acts c) : u.Acts c := by
  obtain ⟨hf, hg, hd, -⟩ := hk
  exact ⟨by rw [← h.focus, State.inFocus, State.inFocus, hf, hg, hd], h.slots, h.distinct⟩

/-- A context changed, the others as they were. -/
theorem tabGet_modCtx {s : State} {k : Nat} {x : Ctx} (hx : tabGet s.ctxs k = some x) (f : Ctx → Ctx) :
    tabGet (s.modCtx k f).ctxs k = some (f x) ∧ ∀ j, j ≠ k → tabGet (s.modCtx k f).ctxs j = tabGet s.ctxs j :=
  ⟨(tabGet_tabMod_self ..).trans (by rw [hx]; rfl), fun _ hj => tabGet_tabMod_ne _ _ hj⟩

theorem State.ctx_of_get {s : State} {k : Nat} {x : Ctx} (hx : tabGet s.ctxs k = some x) : s.ctx k = x := by
  rw [State.ctx, tabGetD, hx, Option.getD_some]

/-! ### Privilege -/

theorem Cx.sysCheck_none {c : Cx} {index : Nat} (h : 2 ≤ index → c.gr.pkt.sys = true) : c.sysCheck index = none := by
  by_cases hi : 2 ≤ index
  · simp [Cx.sysCheck, must, h hi]
  · simp [Cx.sysCheck, must, sysPrivileged, hi]

theorem Cx.sysCheck_some {c : Cx} {index : Nat} (hi : 2 ≤ index) (h : c.gr.pkt.sys = false) : c.sysCheck index = some (.privilege, 0) := by
  simp [Cx.sysCheck, must, sysPrivileged, hi, h]

/-- A register that needs SYSPRIV stops a set without it. -/
theorem checkedOnce_privilege {s : State} {c : Cx} (h : s.Acts c) (hs : (s.team c.x.team).shadow = none) (hp : c.gr.pkt.sys = false)
    {index : Nat} (hi : 2 ≤ index) (k : Out State) :
    ∃ t, s.checkedOnce c (c.sysCheck index) k = .next t ∧ Suspended s c t (c.ls.map fun l => (l, .privilege, 0)) := by
  rw [Cx.sysCheck_some hi hp]
  exact State.trapAll_suspended h.focus hs .privilege 0

/-- A SYSWR whose effect is within `U`: the lanes go on, and of what the effect leaves nothing is in the groups. -/
theorem syswr_goes_on {s : State} {c : Cx} (h : s.Acts c) {i : Instr} {index : Nat} {a : VField} {f : Nat → State}
    (hp : 2 ≤ index → c.gr.pkt.sys = true) {U : State → State} (hk : ∀ t, KeepsSet s (U t))
    (hU : ∀ g, U { f (s.vpair c c.l0 a).toNat with groups := g } = f (s.vpair c c.l0 a).toNat) {p : State → Prop}
    (hpost : ∀ g, p { f (s.vpair c c.l0 a).toNat with groups := g }) :
    ∃ t, s.syswr c i index a f = .next t ∧ LanesOnly (U t) c t (fun _ y => y.past i s.clock) ∧ p t := by
  have hku : KeepsSet s (f (s.vpair c c.l0 a).toNat) := by
    rw [← hU []]
    exact hk _
  have hl := State.done_lanesOnly (hku.acts h) i
  refine ⟨_, by rw [State.syswr, Cx.sysCheck_none hp, State.checkedOnce, State.readPair_eq h], ?_, ?_⟩
  · rw [hl.rest, hU, ← hku.2.2.2, ← hl.rest]
    exact hl
  · rw [hl.rest]
    exact hpost _

/-! ### Counts of a core (Table 22.9) -/

/-- What is kept of a count. -/
def State.countBase (s : State) (core ctx n : Nat) : DWord := tabGetD (s.core core).perf (ctx * 8 + n) 0

/-- The selector of a count. -/
def selOf (v : DWord) (n : Nat) : Nat := bits v.toNat (8 * n) 8

theorem State.perfCount_of_known {s : State} {core ctx n : Nat} (h6 : selOf (s.ctx ctx).perfctl n ≠ 6) (h7 : selOf (s.ctx ctx).perfctl n ≠ 7) :
    s.perfCount core ctx n = s.countBase core ctx n + if selOf (s.ctx ctx).perfctl n = 1 then BitVec.ofNat 64 s.clock else 0 := by
  change (if selOf (s.ctx ctx).perfctl n = 1 then _ else if selOf (s.ctx ctx).perfctl n = 6 ∨ selOf (s.ctx ctx).perfctl n = 7 then _ else _) = _
  rw [if_neg (not_or.2 ⟨h6, h7⟩)]
  split
  · rfl
  · exact (BitVec.add_zero _).symm

/-- A count by what is kept of it, the selector, the clock and the free value of the step. -/
theorem State.perfCount_congr {s t : State} {core ctx n : Nat} (hv : t.countBase core ctx n = s.countBase core ctx n)
    (hc : t.ctx ctx = s.ctx ctx) (hk : t.clock = s.clock) (hf : t.fresh = s.fresh) : t.perfCount core ctx n = s.perfCount core ctx n := by
  rw [State.countBase, State.countBase] at hv
  simp only [State.perfCount, hv, hc, hk, hf]

/-- What is kept of a count so that it shows `v`. -/
def State.baseFor (s : State) (ctx n : Nat) (v : DWord) : DWord :=
  if selOf (s.ctx ctx).perfctl n = 1 then v - BitVec.ofNat 64 s.clock else v

theorem State.setPerfCount_rest (s : State) (core ctx n : Nat) (v : DWord) :
    s.setPerfCount core ctx n v = { s with cores := (s.setPerfCount core ctx n v).cores } := rfl

theorem State.setPerfCount_core (s : State) (core ctx n : Nat) (v : DWord) (j : Nat) : (s.setPerfCount core ctx n v).core j =
    if j = core then { s.core core with perf := tabSet (s.core core).perf (ctx * 8 + n) (s.baseFor ctx n v) } else s.core j :=
  s.core_tabSet core _ j

theorem State.setPerfCount_onlyCounts (s : State) (core ctx n : Nat) (v : DWord) : OnlyCounts s (s.setPerfCount core ctx n v) := fun j => by
  rw [State.setPerfCount_core]
  split
  · next e => exact ⟨_, by rw [e]⟩
  · exact ⟨_, rfl⟩

theorem State.setPerfCount_countBase_self (s : State) (core ctx n : Nat) (v : DWord) :
    (s.setPerfCount core ctx n v).countBase core ctx n = s.baseFor ctx n v := by
  rw [State.countBase, State.setPerfCount_core, if_pos rfl, tabGetD, tabGet_tabSet_self, Option.getD_some]

theorem State.setPerfCount_countBase_ne (s : State) {core ctx n j y m : Nat} (v : DWord) (h : j ≠ core ∨ y * 8 + m ≠ ctx * 8 + n) :
    (s.setPerfCount core ctx n v).countBase j y m = s.countBase j y m := by
  rw [State.countBase, State.setPerfCount_core, State.countBase]
  split
  · next e =>
    subst e
    rw [tabGetD, tabGet_tabSet_ne _ _ (h.resolve_left (· rfl)), tabGetD]
  · rfl

theorem State.perfCount_of_baseFor {s : State} {core ctx n : Nat} {v : DWord} (h6 : selOf (s.ctx ctx).perfctl n ≠ 6)
    (h7 : selOf (s.ctx ctx).perfctl n ≠ 7) (h : s.countBase core ctx n = s.baseFor ctx n v) : s.perfCount core ctx n = v := by
  rw [State.perfCount_of_known h6 h7, h, State.baseFor]
  split
  · exact BitVec.sub_add_cancel ..
  · exact BitVec.add_zero _

/-! ### Many counts at once -/

/-- Counts of a context set in some places, each to its value: the number of the count, and the core. -/
def State.setCounts (s : State) (ctx : Nat) (w : Nat → Nat → DWord) (ps : List (Nat × Nat)) : State :=
  ps.foldl (fun t p => t.setPerfCount p.2 ctx p.1 (w p.1 p.2)) s

theorem State.setCounts_cons (s : State) (ctx : Nat) (w : Nat → Nat → DWord) (p : Nat × Nat) (ps : List (Nat × Nat)) :
    s.setCounts ctx w (p :: ps) = (s.setPerfCount p.2 ctx p.1 (w p.1 p.2)).setCounts ctx w ps := rfl

theorem State.setCounts_rest (s : State) (ctx : Nat) (w : Nat → Nat → DWord) (ps : List (Nat × Nat)) :
    s.setCounts ctx w ps = { s with cores := (s.setCounts ctx w ps).cores } := by
  induction ps generalizing s with
  | nil => rfl
  | cons p ps ih => rw [State.setCounts_cons, ih]; rfl

theorem State.setCounts_onlyCounts (s : State) (ctx : Nat) (w : Nat → Nat → DWord) (ps : List (Nat × Nat)) :
    OnlyCounts s (s.setCounts ctx w ps) := by
  induction ps generalizing s with
  | nil => exact fun k => ⟨(s.core k).perf, rfl⟩
  | cons p ps ih => exact OnlyCounts.trans (s.setPerfCount_onlyCounts _ _ _ _) (ih _)

theorem State.setCounts_countBase (s : State) (ctx : Nat) (w : Nat → Nat → DWord) (ps : List (Nat × Nat)) (n j : Nat) :
    (s.setCounts ctx w ps).countBase j ctx n = if (n, j) ∈ ps then s.baseFor ctx n (w n j) else s.countBase j ctx n := by
  induction ps generalizing s with
  | nil => rfl
  | cons p ps ih =>
    obtain ⟨m, k⟩ := p
    rw [State.setCounts_cons, ih]
    by_cases hp : (n, j) = (m, k)
    · obtain ⟨rfl, rfl⟩ := Prod.mk.inj hp
      rw [if_pos List.mem_cons_self, State.setPerfCount_countBase_self]
      exact ite_self _
    · have hne : j ≠ k ∨ ctx * 8 + n ≠ ctx * 8 + m := by
        by_contra hc
        exact hp (Prod.ext (by simp only; omega) (by simp only; omega))
      rw [State.setPerfCount_countBase_ne _ _ hne]
      simp only [List.mem_cons, hp, false_or]
      rfl

/-- The counts that a write of PERFCTL has to set anew, so that they go on from where they stand. -/
def movedCounts (old new : DWord) : List Nat :=
  let special (sel : Nat) : Bool := sel == 1 || sel == 6 || sel == 7
  (upto 8).filter fun n => selOf old n != selOf new n && (special (selOf old n) || selOf new n == 1)

theorem State.setPerfctl_eq (s : State) (ctx : Nat) (v : DWord) : s.setPerfctl ctx v =
    (s.modCtx ctx fun c => { c with perfctl := v }).setCounts ctx (fun n k => s.perfCount k ctx n)
      ((movedCounts (s.ctx ctx).perfctl v).flatMap fun n => (upto Config.cores).map fun k => (n, k)) := by
  rw [State.setCounts, List.foldl_flatMap]
  simp only [List.foldl_map]
  rfl

theorem State.setPerfctl_onlyCounts (s : State) (ctx : Nat) (v : DWord) : OnlyCounts s (s.setPerfctl ctx v) := by
  rw [State.setPerfctl_eq]
  exact (s.modCtx ctx _).setCounts_onlyCounts ctx _ _

/-- A count that is not set anew has a selector that shows it as the old one did. -/
theorem selOf_of_not_moved {old new : DWord} {n : Nat} (hn : n < 8) (h : n ∉ movedCounts old new) (h6 : selOf new n ≠ 6) (h7 : selOf new n ≠ 7) :
    selOf old n ≠ 6 ∧ selOf old n ≠ 7 ∧ (selOf old n = 1 ↔ selOf new n = 1) := by
  simp only [movedCounts, upto, List.mem_filter, List.mem_range, hn, true_and, Bool.and_eq_true, bne_iff_ne, Bool.or_eq_true, beq_iff_eq] at h
  omega

/-- Every count of a core that is known after a write of PERFCTL is as it was (log 49). -/
theorem State.setPerfctl_perfCount {s : State} {k : Nat} {x : Ctx} (hx : tabGet s.ctxs k = some x) {v : DWord} {j n : Nat}
    (hj : j < Config.cores) (hn : n < 8) (h6 : selOf v n ≠ 6) (h7 : selOf v n ≠ 7) :
    (s.setPerfctl k v).perfCount j k n = s.perfCount j k n := by
  have hctx : (s.setPerfctl k v).ctx k = { x with perfctl := v } := by
    rw [State.setPerfctl_eq, State.setCounts_rest]
    exact State.ctx_of_get (tabGet_modCtx hx _).1
  have hbase := (s.modCtx k fun c => { c with perfctl := v }).setCounts_countBase k (fun n k' => s.perfCount k' k n)
    ((movedCounts (s.ctx k).perfctl v).flatMap fun n => (upto Config.cores).map fun k => (n, k)) n j
  rw [← State.setPerfctl_eq] at hbase
  have hclock : (s.setPerfctl k v).clock = s.clock := by rw [State.setPerfctl_eq, State.setCounts_rest]; rfl
  split at hbase
  · refine State.perfCount_of_baseFor (by rwa [hctx]) (by rwa [hctx]) (hbase.trans ?_)
    rw [State.baseFor, State.baseFor, hctx, hclock, State.ctx_of_get (tabGet_modCtx hx _).1]
    rfl
  · next hnot =>
    have hm : n ∉ movedCounts (s.ctx k).perfctl v := fun hm =>
      hnot (List.mem_flatMap.2 ⟨n, hm, List.mem_map.2 ⟨j, List.mem_range.2 hj, rfl⟩⟩)
    obtain ⟨o6, o7, o1⟩ := selOf_of_not_moved hn hm h6 h7
    rw [State.perfCount_of_known o6 o7, State.perfCount_of_known (by rwa [hctx]) (by rwa [hctx]), hbase, hctx, hclock]
    simp only [o1]
    rfl

/-! ### The other registers -/

/-- The base and size of the pool of trap records: bits 56 to 12 and 3 to 0 (Table 9.2). -/
theorem trapbaseMask_eq (v : DWord) : trapbaseMask v.toNat = v &&& 0x1FFFFFFFFFFF00F := by
  refine BitVec.eq_of_getLsbD_eq fun k hk => ?_
  have hmask : (0x1FFFFFFFFFFF00F : DWord).getLsbD k = if k < 12 then decide (k < 4) else decide (k - 12 < 45) := by
    rw [← BitVec.testBit_toNat, show (0x1FFFFFFFFFFF00F : DWord).toNat = 2 ^ 12 * (2 ^ 45 - 1) + (2 ^ 4 - 1) from rfl,
      Nat.testBit_two_pow_mul_add _ (by decide), Nat.testBit_two_pow_sub_one, Nat.testBit_two_pow_sub_one]
  have hlow : bits v.toNat 0 4 < 2 ^ 12 := Nat.lt_of_lt_of_le (Nat.mod_lt _ (by decide)) (by decide)
  rw [BitVec.getLsbD_and, hmask, trapbaseMask, BitVec.getLsbD_ofNat, decide_eq_true hk, Bool.true_and, Nat.mul_comm,
    Nat.testBit_two_pow_mul_add _ hlow]
  split
  · rw [bits, Nat.pow_zero, Nat.div_one, Nat.testBit_mod_two_pow, BitVec.testBit_toNat, Bool.and_comm]
  · next h =>
    rw [bits, Nat.testBit_mod_two_pow, Nat.testBit_div_two_pow, BitVec.testBit_toNat, Nat.sub_add_cancel (Nat.le_of_not_lt h), Bool.and_comm]

theorem bitAt_toNat (v : DWord) (k : Nat) : bitAt v.toNat k = v.getLsbD k := by
  rw [bitAt_eq_testBit, BitVec.testBit_toNat]

/-- What a write of REGIONSTAT clears (R183). -/
theorem State.writeRegionstat_eq (s : State) (v : DWord) : s.writeRegionstat v.toNat =
    { s with lost := if v.getLsbD 0 then tabDel s.lost (bits v.toNat 12 40) else s.lost, ovf := if v.getLsbD 1 then [] else s.ovf } := by
  simp only [State.writeRegionstat, bitAt_toNat]
  cases v.getLsbD 0 <;> cases v.getLsbD 1 <;> rfl

theorem tabGet_tabDel {α : Type} (t : Tab α) (n r : Nat) : tabGet (tabDel t n) r = if r = n then none else tabGet t r := by
  split
  · next e => rw [e, tabGet_tabDel_self]
  · next e => exact tabGet_tabDel_ne t e

/-- The next period boundary of a die: within one period, and where its phase begins again (R174). -/
theorem Die.nextPeriod_spec (d : Die) (now : Nat) :
    now < d.nextPeriod now ∧ d.nextPeriod now ≤ now + 10000 ∧ (d.nextPeriod now + d.phaseAt now) % 10000 = 0 := by
  rw [Die.nextPeriod]
  omega

/-- The phases that follow a write of WSCHEDCFG: below the period, and one for all dies with ALIGN (log 47). -/
theorem State.alignPhases_dies (s : State) (align : Bool) : ∃ q : Nat → Nat, (∀ j, q j < 10000) ∧ (align = true → ∀ j, q j = q 0) ∧
    ∀ j, tabGet (s.alignPhases align).dies j =
      (tabGet s.dies j).map fun y => { y with phase := y.phaseAt s.clock, phaseNext := some (q j, y.nextPeriod s.clock) } :=
  ⟨fun j => (s.freeWord (if align then 2 ^ 44 else 2 ^ 44 + 1 + j)).toNat % 10000, fun _ => Nat.mod_lt _ (by decide),
    fun h _ => by rw [h]; rfl, fun j => by simp only [State.alignPhases, tabGet_tabMap]⟩

theorem pairWords_mod (x : Nat) : pairWords (x % 2 ^ 64) = pairWords x := by
  have hlo : w32 (x % 2 ^ 64) = w32 x := BitVec.eq_of_toNat_eq (by simp only [w32, BitVec.toNat_ofNat]; omega)
  have hhi : w32 (x % 2 ^ 64 / 2 ^ 32) = w32 (x / 2 ^ 32) := BitVec.eq_of_toNat_eq (by simp only [w32, BitVec.toNat_ofNat]; omega)
  rw [pairWords, hlo, hhi, pairWords]

theorem State.sysValue_lattice (s : State) (c : Cx) {n : Nat} (h0 : 0x20 ≤ n) (h1 : n ≤ 0x23) : s.sysValue c n = 0 := by
  interval_cases n <;> rfl

theorem State.sysValue_perfcnt (s : State) (c : Cx) {n : Nat} (h0 : 0x41 ≤ n) (h1 : n ≤ 0x48) :
    s.sysValue c n = (s.perfCount (coreOf c.g) c.gr.ctx (n - 0x41)).toNat := by
  interval_cases n <;> rfl

/-- SYSRD leaves the register's value in each lane. -/
theorem exec_sysrd_completes {d : VField} {index : BitVec 11} {s : State} {c : Cx} (hok : pairOk d = true) (h : s.Ready (.sysrd d index) c)
    (hp : 2 ≤ index.toNat → c.gr.pkt.sys = true) :
    ∃ t, exec (.sysrd d index) s = .next t ∧ WroteOnly (.sysrd d index) s c t ∧
      ∀ l ∈ c.ls, t.vpair c l d = BitVec.ofNat 64 (s.sysValue c index.toNat) := by
  obtain ⟨hw, hv⟩ := writePairs_completes rfl h rfl hok fun _ => BitVec.ofNat 64 (s.sysValue c index.toNat)
  simp only [BitVec.toNat_ofNat, pairWords_mod] at hw hv
  exact ⟨_, by rw [exec, execSysrd, issue_ready rfl h, Cx.sysCheck_none hp, State.checkedOnce], hw, hv⟩

/-- A system word that needs SYSPRIV, without it. -/
theorem sysWord_privilege {i : Instr} {s : State} {c : Cx} (hi : Instr.alu i = none) (h : s.Ready i c) (hs : (s.team c.x.team).shadow = none)
    (hp : c.gr.pkt.sys = false) {index : Nat} (hn : 2 ≤ index) {k : Cx → State → Out State}
    (hx : exec i s = issue i s fun c t => t.checkedOnce c (c.sysCheck index) (k c t)) :
    ∃ t, exec i s = .next t ∧ Suspended s c t (c.ls.map fun l => (l, .privilege, 0)) := by
  rw [hx, issue_ready hi h]
  exact checkedOnce_privilege h.toActs hs hp hn _

/-! ### Copies of lattice tables (R145) -/

theorem parts_eq {α : Type} (n k : Nat) (l : List α) : parts n k l = (List.range k).map fun j => (l.drop (n * j)).take n := by
  induction k generalizing l with
  | zero => rfl
  | succ k ih =>
    rw [parts, ih, List.range_succ_eq_map, List.map_cons, List.map_map]
    refine congrArg₂ _ rfl (List.map_congr_left fun j _ => ?_)
    rw [Function.comp_apply, List.drop_drop, Nat.mul_succ, Nat.add_comm]

/-- Lanes marked irreversible and then changed. -/
theorem State.irrev_modLanes_lanesOnly {s : State} {c : Cx} (h : s.Acts c) (f : Nat → Lane → Lane) :
    LanesOnly s c ((s.irrev c).modLanes c.g c.ls f) fun l y => f l y.marked := by
  refine .of_table (lanes := c.ls.foldl (fun t l => tabMod t l (f l)) (c.ls.foldl (fun t l => tabMod t l Lane.marked) c.x.lanes)) h rfl
    (fun g hg => (tabGet_tabMod_ne _ _ hg).trans (tabGet_tabMod_ne _ _ hg)) ?_
    (fun l hl => (foldl_tabMod_other _ f _ _ hl).trans (foldl_tabMod_other _ (fun _ => Lane.marked) _ _ hl)) fun l hl => ?_
  · exact State.modGroup_get (State.modGroup_get (State.inFocus_group h.focus) _) _
  · refine (foldl_tabMod_self _ f _ _ hl h.distinct).trans ?_
    rw [foldl_tabMod_self _ (fun _ => Lane.marked) _ _ hl h.distinct, Option.map_map]
    rfl

/-- Lanes that are as `f` says beside a state with the same groups. -/
theorem LanesOnly.beside {s u t x : State} {c : Cx} {f : Nat → Lane → Lane} (h : LanesOnly u c x f) (hx : t.groups = x.groups)
    (hs : s.groups = u.groups) (hr : t = { s with groups := t.groups }) : LanesOnly s c t f := by
  have hg : t.group c.g = x.group c.g := by rw [State.group, State.group, hx]
  exact ⟨hr, by rw [hx, hs]; exact h.others, by rw [hx, hg]; exact h.group, by rw [hg]; exact h.ordered, by rw [hg]; exact h.idle,
    by rw [hg]; exact h.active⟩

/-- A function that has no effect a second time, on the entries at some keys. -/
theorem foldl_tabMod_of_idem {α : Type} {f : α → α} (hf : ∀ x, f (f x) = f x) (ls : List Nat) (t : Tab α) {k : Nat} (hk : k ∈ ls) :
    tabGet (ls.foldl (fun t l => tabMod t l f) t) k = (tabGet t k).map f := by
  induction ls generalizing t with
  | nil => cases hk
  | cons l ls ih =>
    rw [List.foldl_cons]
    by_cases hl : k ∈ ls
    · rw [ih _ hl]
      by_cases e : k = l
      · rw [e, tabGet_tabMod_self, Option.map_map]
        exact congrArg (Option.map · _) (funext hf)
      · rw [tabGet_tabMod_ne _ _ e]
    · rw [foldl_tabMod_other _ (fun _ => f) _ _ hl, (List.mem_cons.1 hk).resolve_right hl, tabGet_tabMod_self]

/-- A lane that has waited for a copy goes on as it is made. -/
def Lane.copied (clock : Nat) (y : Lane) : Lane := if y.park = .copy then { y.advance 1 with stamp := clock } else y

theorem Lane.copied_copied (clock : Nat) (y : Lane) : (y.copied clock).copied clock = y.copied clock := by
  by_cases h : y.park = .copy
  · have hp : ({ y.advance 1 with stamp := clock } : Lane).park ≠ .copy := by
      change (y.advance 1).park ≠ .copy
      rw [Lane.advance_park]
      decide
    rw [Lane.copied, Lane.copied, if_pos h, if_neg hp]
  · rw [Lane.copied, Lane.copied, if_neg h, if_neg h]

/-- A lane that waits for a copy that it has asked for. -/
def Lane.copying (clock : Nat) (y : Lane) : Lane := { y with park := .copy, stamp := clock, pass := false }

/-- A set that has read lines and changed its context, and waits. -/
theorem State.wait_for_copy {s v : State} {c : Cx} (h : s.Acts c) (ht : TouchedOnly s v) (k : Nat) (F : Ctx → Ctx) (n : Nat) :
    let t := (((v.irrev c).modCtx k F).modLanes c.g c.ls fun _ y => y.copying s.clock).count (coreOf c.g) k 4 n
    LanesOnly { s with ctxs := t.ctxs, leases := t.leases, hostLines := t.hostLines, cores := t.cores } c t
      (fun _ y => { y with park := .copy, stamp := s.clock, pass := false, irrev := true }) ∧ t.ctxs = (s.modCtx k F).ctxs := by
  intro t
  obtain ⟨cores, leases, lines, rfl⟩ : ∃ cores leases lines, v = { s with cores := cores, leases := leases, hostLines := lines } := ⟨_, _, _, ht⟩
  have hl := State.irrev_modLanes_lanesOnly (s := State.modCtx { s with cores := cores, leases := leases, hostLines := lines } k F) (c := c)
    ⟨h.focus, h.slots, h.distinct⟩ fun _ y => y.copying s.clock
  have hcount : t = { ((State.modCtx { s with cores := cores, leases := leases, hostLines := lines } k F).irrev c).modLanes c.g c.ls
      (fun _ y => y.copying s.clock) with cores := t.cores } := State.count_rest ..
  exact ⟨hl.beside (by rw [hcount]) rfl (by rw [hcount]; rfl), by rw [hcount]; rfl⟩

/-- SYSWR LATTICEn: the image is read, and the set waits for its copies. -/
theorem exec_syswrLattice_completes {n : BitVec 2} {a : VField} {s : State} {c : Cx} {x : Ctx} {bs : List Byte}
    (hx : tabGet s.ctxs c.gr.ctx = some x) (h : s.Ready (.syswrLattice n a) c) (hp : c.gr.pkt.sys = true)
    (hal : (s.vpair c c.l0 a).toNat % 1024 = 0) (hr : s.readVa c.who (s.vpair c c.l0 a).toNat 1024 = .ok bs) :
    ∃ t, exec (.syswrLattice n a) s = .next t ∧
      LanesOnly { s with ctxs := t.ctxs, leases := t.leases, hostLines := t.hostLines, cores := t.cores } c t
        (fun _ y => { y with park := .copy, stamp := s.clock, pass := false, irrev := true }) ∧
      tabGet t.ctxs c.gr.ctx = some { x with latCopies := x.latCopies ++
        [⟨n.toNat, (List.range 512).map fun j => BitVec.ofNat 16 (fld bs (2 * j) 2), c.g, c.x.uid, c.ls⟩] } ∧
      ∀ j, j ≠ c.gr.ctx → tabGet t.ctxs j = tabGet s.ctxs j := by
  have himage : ((parts 2 512 bs).map fun b => BitVec.ofNat 16 (leNat b)) = (List.range 512).map fun j => BitVec.ofNat 16 (fld bs (2 * j) 2) := by
    rw [parts_eq, List.map_map]
    rfl
  obtain ⟨hl, hc⟩ := State.wait_for_copy h.toActs (s.touchVa_touchedOnly c.who (s.vpair c c.l0 a).toNat 1024) c.gr.ctx
    (fun k => { k with latCopies := k.latCopies ++
      [⟨n.toNat, (List.range 512).map fun j => BitVec.ofNat 16 (fld bs (2 * j) 2), c.g, c.x.uid, c.ls⟩] }) c.ls.length
  refine ⟨_, ?_, hl, by rw [hc]; exact tabGet_modCtx hx _⟩
  have haligned : ((s.vpair c c.l0 a).toNat % 1024 != 0) = false := by rw [hal]; rfl
  rw [exec, execSyswrLattice, issue_ready rfl h]
  simp only [State.readPair_eq h.toActs, Cx.sysCheck_none fun _ => hp, State.checkedOnce, haligned, Bool.false_eq_true, if_false, hr, himage]
  rfl

/-- The oldest copy of a context is made (R145): its set goes on, each lane that waits for it once. -/
theorem exec_latticeCopyComplete {s : State} {k : Nat} {x : Ctx} {q : LatCopy} {rest : List LatCopy} {y : Group}
    (hx : tabGet s.ctxs k = some x) (hq : x.latCopies = q :: rest) (hy : tabGet s.groups q.g = some y) (hu : y.uid = q.uid)
    (hw : ∀ l ∈ q.lanes, (tabGet y.lanes l).isSome = true ∧ (y.lane l).park = .copy) :
    ∃ t, exec (.latticeCopyComplete k) s = .next t ∧ t = { s with ctxs := t.ctxs, groups := t.groups } ∧
      (tabGet t.ctxs k = some { x with latCopies := rest, lattice := x.lattice.set q.table q.image } ∧
        ∀ j, j ≠ k → tabGet t.ctxs j = tabGet s.ctxs j) ∧
      (∀ g, g ≠ q.g → tabGet t.groups g = tabGet s.groups g) ∧ tabGet t.groups q.g = some { y with lanes := (t.group q.g).lanes } ∧
      ∀ l, (t.group q.g).lane l = if l ∈ q.lanes then { (y.lane l).advance 1 with stamp := s.clock } else y.lane l := by
  let t := (s.modCtx k fun c => { c with latCopies := rest, lattice := c.lattice.set q.table q.image }).modGroup q.g fun z =>
    if z.uid = q.uid then { z with lanes := q.lanes.foldl (fun m l => tabMod m l (Lane.copied s.clock)) z.lanes } else z
  have hg : tabGet t.groups q.g = some { y with lanes := q.lanes.foldl (fun m l => tabMod m l (Lane.copied s.clock)) y.lanes } :=
    (State.modGroup_get (s := s.modCtx k _) hy _).trans (by rw [if_pos hu])
  have hgroup := State.group_of_get hg
  refine ⟨t, ?_, rfl, tabGet_modCtx hx _, fun g hne => tabGet_tabMod_ne _ _ hne, by rw [hg, hgroup], fun l => ?_⟩
  · rw [exec, execLatticeCopyComplete, State.ctx_of_get hx, hq]
    rfl
  · rw [hgroup, Group.lane, Group.lane, tabGetD, tabGetD]
    split
    · next hl =>
      obtain ⟨hsome, hpark⟩ := hw l hl
      obtain ⟨z, hz⟩ := Option.isSome_iff_exists.1 hsome
      have hzl : y.lane l = z := by rw [Group.lane, tabGetD, hz, Option.getD_some]
      rw [foldl_tabMod_of_idem (Lane.copied_copied s.clock) _ _ hl, hz, Option.map_some, Option.getD_some, Option.getD_some, Lane.copied,
        if_pos (hzl ▸ hpark)]
    · next hl => rw [foldl_tabMod_other _ (fun _ => Lane.copied s.clock) _ _ hl]

/-! ### The statement -/

/-- Settles O42: each register by the effect of its write, what needs SYSPRIV by the check that all share. -/
theorem systemRegisters : Obligations.SystemRegisters := by
  unfold Obligations.SystemRegisters
  intro s c x d a k v priv sel known gone ctx' hx
  have hctx : s.ctx c.gr.ctx = x := State.ctx_of_get hx
  refine ⟨?_, ?_, ?_, ?_, ?_, ?_, ?_, ?_, ?_, ?_, ?_⟩
  · intro index i n hwf h hp
    obtain ⟨t, ht, hw, hv⟩ := exec_sysrd_completes hwf h hp
    refine ⟨t, ht, hw, fun l hl => ?_⟩
    rw [hv l hl]
    refine ⟨fun hn => ?_, fun hn => ?_, fun hn => ?_, fun h0 h1 => ?_, fun hn => ?_, fun hn => ?_, fun h0 h1 hk => ?_, fun hn => ?_, fun hn => ?_⟩
    · rw [show index.toNat = 0 from hn]
      rfl
    · rw [show index.toNat = 1 from hn]
      change BitVec.ofNat 64 (if c.gr.pkt.sys then 1 else 0) = _
      split <;> rfl
    · rw [show index.toNat = 0x10 from hn]
      change BitVec.ofNat 64 (s.ctx c.gr.ctx).trapbase.toNat = _
      rw [hctx, BitVec.ofNat_toNat, BitVec.setWidth_eq]
    · rw [State.sysValue_lattice s c h0 h1]
      rfl
    · rw [show index.toNat = 0x30 from hn]
      change BitVec.ofNat 64 s.regionstat = _
      rw [State.regionstat]
      cases s.lost <;> rfl
    · rw [show index.toNat = 0x40 from hn]
      change BitVec.ofNat 64 (s.ctx c.gr.ctx).perfctl.toNat = _
      rw [hctx, BitVec.ofNat_toNat, BitVec.setWidth_eq]
    · rw [State.sysValue_perfcnt s c h0 h1, BitVec.ofNat_toNat, BitVec.setWidth_eq,
        State.perfCount_of_known (hctx ▸ hk.1) (hctx ▸ hk.2), hctx]
      rfl
    · rw [show index.toNat = 0x50 from hn]
      change BitVec.ofNat 64 (if s.walign then 1 else 0) = _
      split <;> rfl
    · rw [show index.toNat = 0x60 from hn]
      rfl
  · intro hwf h hp
    rw [exec, execSyswrTrapbase, issue_ready rfl h]
    refine syswr_goes_on h.toActs (fun _ => hp) ?_ ?_ ?_
    · exact fun _ => ⟨rfl, rfl, rfl, rfl⟩
    · exact fun _ => rfl
    · exact fun _ => trapbaseMask_eq v ▸ tabGet_modCtx hx fun y => { y with trapbase := trapbaseMask v.toNat }
  · exact fun n bs hwf h hp hal hr => exec_syswrLattice_completes hx h hp hal hr
  · intro i hi hwf h hp
    have hx : exec i s = s.syswr c i 0x30 a s.writeRegionstat := by
      simp only [List.mem_cons, List.not_mem_nil, or_false] at hi
      rcases hi with rfl | rfl
      · rw [exec, execRegionstatClearRegion, issue_ready rfl h]
      · rw [exec, execRegionstatClearOvf, issue_ready rfl h]
    rw [hx]
    refine syswr_goes_on h.toActs (fun _ => hp) ?_ ?_ ?_
    · exact fun _ => ⟨rfl, rfl, rfl, rfl⟩
    · rw [State.writeRegionstat_eq]
      exact fun _ => rfl
    · rw [State.writeRegionstat_eq]
      refine fun _ => ⟨fun r => ?_, rfl⟩
      change tabGet (if v.getLsbD 0 then tabDel s.lost (bits v.toNat 12 40) else s.lost) r = _
      cases v.getLsbD 0
      · simp only [Bool.false_eq_true, if_false, false_and]
      · simp only [if_true, true_and]
        exact tabGet_tabDel ..
  · intro hwf h hp
    rw [exec, execSyswrPerfctl, issue_ready rfl h]
    have hv : BitVec.ofNat 64 (s.vpair c c.l0 a).toNat = v := BitVec.ofNat_toNat ..
    refine syswr_goes_on h.toActs (fun _ => hp) ?_ ?_ ?_
    · exact fun _ => ⟨rfl, rfl, rfl, rfl⟩
    · rw [hv]
      exact fun _ => by rw [State.setPerfctl_eq, State.setCounts_rest]; rfl
    · rw [hv]
      refine fun _ => ⟨?_, ?_, fun j hj n hn hk => ?_⟩
      · rw [State.setPerfctl_eq, State.setCounts_rest]
        exact tabGet_modCtx hx _
      · exact s.setPerfctl_onlyCounts k v
      · exact State.setPerfctl_perfCount hx hj hn hk.1 hk.2
  · intro n hkn hwf h hp
    rw [exec, execSyswrPerfcnt, issue_ready rfl h]
    have hv : BitVec.ofNat 64 (s.vpair c c.l0 a).toNat = v := BitVec.ofNat_toNat ..
    refine syswr_goes_on h.toActs (fun _ => hp) ?_ ?_ ?_
    · exact fun _ => ⟨rfl, rfl, rfl, rfl⟩
    · rw [hv]
      exact fun _ => rfl
    · rw [hv]
      refine fun _ => ⟨s.setPerfCount_onlyCounts _ _ _ _, ?_, fun j y m hne hm => ?_⟩
      · exact State.perfCount_of_baseFor (s := s.setPerfCount (coreOf c.g) k n.toNat v) (hctx ▸ hkn.1) (hctx ▸ hkn.2)
          (s.setPerfCount_countBase_self ..)
      · have hn := n.isLt
        exact State.perfCount_congr (t := s.setPerfCount (coreOf c.g) k n.toNat v)
          (s.setPerfCount_countBase_ne _ (by omega)) rfl rfl rfl
  · intro hwf h hp
    rw [exec, execSyswrWschedcfg, issue_ready rfl h]
    refine syswr_goes_on h.toActs (fun _ => hp) ?_ ?_ ?_
    · exact fun _ => ⟨rfl, rfl, rfl, rfl⟩
    · rw [bitAt_toNat]
      exact fun _ => rfl
    · rw [bitAt_toNat]
      refine fun _ => ?_
      obtain ⟨q, hq, hsame, hdies⟩ := s.alignPhases_dies (v.getLsbD 0)
      refine ⟨q, hq, hsame, fun j => ⟨fun hn => (hdies j).trans (by rw [hn]; rfl), fun y hy => ?_⟩⟩
      obtain ⟨hlt, hle, hmod⟩ := y.nextPeriod_spec s.clock
      refine ⟨y.phaseAt s.clock, y.nextPeriod s.clock, (hdies j).trans (by rw [hy]; rfl), ?_, hlt, hle, hmod⟩
      rw [Die.phaseAt]
      cases y.phaseNext <;> rfl
  · intro hwf h hp
    rw [exec, execSyswrDetsel, issue_ready rfl h]
    have hmatch : bits v.toNat 0 10 = v.toNat % 2 ^ 10 := by rw [bits, Nat.pow_zero, Nat.div_one]
    refine syswr_goes_on h.toActs (fun _ => hp) ?_ ?_ ?_
    · exact fun _ => ⟨rfl, rfl, rfl, rfl⟩
    · exact fun _ => by rw [hmatch]
    · exact fun _ => trivial
  · intro index i hwf h hlt
    rw [exec, execSyswrOther, issue_ready rfl h]
    obtain ⟨t, ht, hl, -⟩ := syswr_goes_on (U := fun _ => s) (p := fun _ => True) h.toActs (i := i) (index := index.toNat) (a := a)
      (f := fun _ => s) (fun h2 => absurd hlt (Nat.not_lt.2 h2)) (fun _ => ⟨rfl, rfl, rfl, rfl⟩) (fun _ => rfl) fun _ => trivial
    exact ⟨t, ht, hl⟩
  · intro i hi h hp hs
    rcases hi with ⟨n, hn, rfl⟩ | ⟨n, rfl⟩ | ⟨n, rfl⟩ | hi
    · exact sysWord_privilege rfl h hs hp hn rfl
    · exact sysWord_privilege rfl h hs hp (index := 0x20 + n.toNat) (by omega) rfl
    · exact sysWord_privilege rfl h hs hp (index := 0x41 + n.toNat) (by omega) rfl
    · simp only [List.mem_cons, List.not_mem_nil, or_false] at hi
      rcases hi with rfl | rfl | rfl | rfl | rfl | rfl
      · exact sysWord_privilege rfl h hs hp (index := 0x10) (by decide) rfl
      · exact sysWord_privilege rfl h hs hp (index := 0x30) (by decide) rfl
      · exact sysWord_privilege rfl h hs hp (index := 0x30) (by decide) rfl
      · exact sysWord_privilege rfl h hs hp (index := 0x40) (by decide) rfl
      · exact sysWord_privilege rfl h hs hp (index := 0x50) (by decide) rfl
      · exact sysWord_privilege rfl h hs hp (index := 0x60) (by decide) rfl
  · exact fun q rest y hq hy hu hw => exec_latticeCopyComplete hx hq hy hu hw

end Sys2Proof.Machine
